-- ==== Sys2Proof/Word.lean ====
section
/-! DEFINITION. The word types of the Mbager and their plainest arithmetic: bytes, scalars, vector
registers, bit ranges written [hi:lo] (R1). -/

namespace Sys2Proof

/-- One byte. -/
abbrev Byte := BitVec 8
/-- A 16-bit half word. -/
abbrev Half := BitVec 16
/-- A vector lane, a branch target or a code address. -/
abbrev W32 := BitVec 32
/-- A scalar register, a predicate or a control register. -/
abbrev W64 := BitVec 64
/-- A tag status word or one half of a descriptor. -/
abbrev W128 := BitVec 128
/-- A descriptor register (R206). -/
abbrev Desc := BitVec 256
/-- A vector register: 64 lanes of 32 bits, lane i in bits [32i+31:32i] (R117). -/
abbrev VReg := BitVec 2048

/-- The bit range `[lo+len-1:lo]` of `w` (R1). -/
def bits {n : Nat} (w : BitVec n) (lo len : Nat) : BitVec len := w.extractLsb' lo len

/-- Bit `n` of `w` as a one-bit truth value. -/
def bitAt {n : Nat} (w : BitVec n) (i : Nat) : Bool := w.getLsbD i

/-- `w` with the bit range `[lo+len-1:lo]` replaced by `x` (R1). -/
def setBits {n len : Nat} (w : BitVec n) (lo : Nat) (x : BitVec len) : BitVec n :=
  (w &&& ~~~((BitVec.allOnes len).setWidth n <<< lo)) ||| (x.setWidth n <<< lo)

/-- A truth value as a bit. -/
def bit (b : Bool) : BitVec 1 := BitVec.ofBool b

/-- Lane `i` of a vector register (R117). -/
def lane (v : VReg) (i : Nat) : W32 := bits v (32 * i) 32

/-- The vector register whose lane `i` is `f i` (R117). -/
def ofLanes (f : Nat → W32) : VReg :=
  BitVec.ofNat 2048 ((List.range 64).foldr (fun i acc => acc <<< 32 ||| (f i).toNat)
    0)

/-- Every lane holds `x`. -/
def splat (x : W32) : VReg := ofLanes fun _ => x

/-- The 64-bit mask whose bit `i` is `f i`. -/
def ofMask (f : Nat → Bool) : W64 :=
  BitVec.ofNat 64 ((List.range 64).foldr (fun i acc => acc <<< 1 ||| (f i).toNat) 0)

/-- `x` clamped to the range `lo` to `hi` (the manual's sat). -/
def clampInt (x lo hi : Int) : Int := if x < lo then lo else if hi < x then hi else x

/-- Little-endian bytes of the low `n` bytes of a natural number (R1). -/
def leBytes : Nat → Nat → List Byte
  | 0, _ => []
  | n + 1, x => BitVec.ofNat 8 x :: leBytes n (x / 256)

/-- The number that little-endian bytes stand for (R1). -/
def leNat : List Byte → Nat
  | [] => 0
  | b :: bs => b.toNat + 256 * leNat bs

/-- The least index below `n` at which `p` holds. -/
def leastBelow (n : Nat) (p : Nat → Bool) : Option Nat := (List.range n).find? p

/-- The number of indices below `n` at which `p` holds. -/
def countBelow (n : Nat) (p : Nat → Bool) : Nat := (List.range n).countP p

/-- Ceiling division. -/
def ceilDiv (a b : Nat) : Nat := (a + b - 1) / b

end Sys2Proof
end

