-- ==== Sys2Proof/Machine/Sha.lean ====
section
/-! DEFINITION. SHA-384 of FIPS 180-4, which the device computes over its descriptor for an attestation report (R391).
Its constants are the fractional parts of square and cube roots of primes, computed here. -/

namespace Sys2Proof.Machine

/-- The largest number below `2^n` at which `f` does not exceed `x`, bit by bit. -/
def rootBits (f : Nat → Nat) (x n : Nat) : Nat :=
  (List.range n).foldl (fun r i => let t := r + 2 ^ (n - 1 - i); if f t ≤ x then t else r) 0

/-- The first 80 primes. -/
def primes80 : List Nat :=
  ((List.range 410).filter fun n => decide (2 ≤ n) && (List.range 21).all fun d => decide (d < 2) || n == d || n % d != 0).take 80

/-- The 64 bits after the point of a cube root. -/
def cubeFrac (p : Nat) : W64 := BitVec.ofNat 64 (rootBits (fun t => t * t * t) (p * 2 ^ 192) 68)

/-- The 64 bits after the point of a square root. -/
def sqrtFrac (p : Nat) : W64 := BitVec.ofNat 64 (rootBits (fun t => t * t) (p * 2 ^ 128) 70)

/-- The round constants. -/
def shaK : List W64 := primes80.map cubeFrac

/-- The initial hash value of SHA-384. -/
def shaInit : List W64 := ((primes80.drop 8).take 8).map sqrtFrac

/-- The 64-bit words of a message padded to whole blocks. -/
def shaPad (m : List Byte) : List W64 :=
  let n := m.length
  let zeros := (240 - (n + 1) % 128) % 128
  let bytes := m ++ [0x80] ++ List.replicate zeros 0 ++ (leBytes 16 (8 * n)).reverse
  (List.range (bytes.length / 8)).map fun i => BitVec.ofNat 64 (leNat ((bytes.drop (8 * i)).take 8).reverse)

/-- The message schedule: 64 words are added to a block's 16, newest first. -/
def shaSchedule : Nat → List W64 → List W64
  | 0, w => w
  | n + 1, w =>
    let g (i : Nat) : W64 := w.getD (i - 1) 0
    let s0 := (g 15).rotateRight 1 ^^^ (g 15).rotateRight 8 ^^^ (g 15) >>> 7
    let s1 := (g 2).rotateRight 19 ^^^ (g 2).rotateRight 61 ^^^ (g 2) >>> 6
    shaSchedule n ((s1 + g 7 + s0 + g 16) :: w)

/-- One round. -/
def shaRound (v : List W64) (kw : W64) : List W64 :=
  let x (i : Nat) : W64 := v.getD i 0
  let e := x 4
  let a := x 0
  let t1 := x 7 + (e.rotateRight 14 ^^^ e.rotateRight 18 ^^^ e.rotateRight 41) + (e &&& x 5 ^^^ ~~~e &&& x 6) + kw
  let t2 := (a.rotateRight 28 ^^^ a.rotateRight 34 ^^^ a.rotateRight 39) + (a &&& x 1 ^^^ a &&& x 2 ^^^ x 1 &&& x 2)
  [t1 + t2, a, x 1, x 2, x 3 + t1, e, x 5, x 6]

/-- One block is taken into the hash value. -/
def shaBlock (h : List W64) (block : List W64) : List W64 :=
  let w := (shaSchedule 64 block.reverse).reverse
  let v := (List.zipWith (· + ·) shaK w).foldl shaRound h
  List.zipWith (· + ·) h v

/-- The digest of a message, 48 bytes. -/
def sha384 (m : List Byte) : List Byte :=
  let ws := shaPad m
  let h := (List.range (ws.length / 16)).foldl (fun h i => shaBlock h ((ws.drop (16 * i)).take 16)) shaInit
  ((h.take 6).map fun x => (leBytes 8 x.toNat).reverse).flatten

end Sys2Proof.Machine
end

