-- ==== Sys2Proof/Machine/Ecdsa.lean ====
section
/-! DEFINITION. ECDSA over brainpoolP384r1 with SHA-384, by which boot verifies firmware (R387) and the device signs its
attestation reports (R391). The curve's numbers are those of RFC 5639, which R387 names (log entry 86). -/

namespace Sys2Proof.Machine

/-- The prime of the field. -/
def curveP : Nat := 0x8CB91E82A3386D280F5D6F7E50E641DF152F7109ED5456B412B1DA197FB71123ACD3A729901D1A71874700133107EC53
/-- The coefficient A of the curve y² = x³ + A·x + B. -/
def curveA : Nat := 0x7BC382C63D8C150C3C72080ACE05AFA0C2BEA28E4FB22787139165EFBA91F90F8AA5814A503AD4EB04A8C7DD22CE2826
/-- The coefficient B. -/
def curveB : Nat := 0x04A8C7DD22CE28268B39B55416F0447C2FB77DE107DCD2A62E880EA53EEB62D57CB4390295DBC9943AB78696FA504C11
/-- The prime order of the generator. -/
def curveQ : Nat := 0x8CB91E82A3386D280F5D6F7E50E641DF152F7109ED5456B31F166E6CAC0425A7CF3AB6AF6B7FC3103B883202E9046565
/-- The generator. -/
def curveG : Nat × Nat :=
  (0x1D1C64F068CF45FFA2A63A81B7C13F6B8847A3E77EF14FE3DB7FCAFE0CBD10E8E826E03436D646AAEF87B2E247D4AF1E,
   0x8ABE1D7520F9C2A45CB1EB8E95CFD55262B70B29FEEC5864E19C054FF99129280E4646217791811142820341263C5315)

/-- A number, computed before it is used. -/
def strict {α : Type} (n : Nat) (f : Nat → α) : α :=
  match n with
  | 0 => f 0
  | k + 1 => f (k + 1)

/-- `a - b` modulo `m`. -/
def subMod (m a b : Nat) : Nat := (a % m + (m - b % m)) % m

/-- `b` to the power `e < 2^n` modulo `m`. -/
def powMod (m : Nat) : Nat → Nat → Nat → Nat
  | 0, _, _ => 1 % m
  | n + 1, b, e => strict (powMod m n (b * b % m) (e / 2)) fun h => if e % 2 = 1 then b * h % m else h

/-- The inverse modulo a prime below 2^384. -/
def invMod (m a : Nat) : Nat := powMod m 384 (a % m) (m - 2)

/-- A point in Jacobian coordinates: (X, Y, Z) stands for (X/Z², Y/Z³), and Z = 0 for the neutral point. -/
abbrev Jac := Nat × Nat × Nat

/-- A point whose coordinates are computed. -/
def jac (x y z : Nat) : Jac := strict (x % curveP) fun x => strict (y % curveP) fun y => strict (z % curveP) fun z => (x, y, z)

/-- Twice a point. -/
def Jac.double (a : Jac) : Jac :=
  let (x, y, z) := a
  strict (y * y % curveP) fun yy =>
    strict (4 * x * yy % curveP) fun s =>
      strict ((3 * x * x + curveA * (z * z % curveP * (z * z % curveP))) % curveP) fun m =>
        strict (subMod curveP (m * m) (2 * s)) fun x2 =>
          jac x2 (subMod curveP (m * subMod curveP s x2) (8 * yy * yy)) (2 * y * z)

/-- The sum of two points. -/
def Jac.add (a b : Jac) : Jac :=
  let (x1, y1, z1) := a
  let (x2, y2, z2) := b
  if z1 = 0 then b
  else if z2 = 0 then a
  else
    strict (x1 * (z2 * z2 % curveP) % curveP) fun u1 => strict (x2 * (z1 * z1 % curveP) % curveP) fun u2 =>
      strict (y1 * (z2 * z2 % curveP * z2 % curveP) % curveP) fun s1 =>
        strict (y2 * (z1 * z1 % curveP * z1 % curveP) % curveP) fun s2 =>
          if u1 = u2 then if s1 = s2 then a.double else (1, 1, 0)
          else
            strict (subMod curveP u2 u1) fun h => strict (subMod curveP s2 s1) fun r =>
              strict (h * h % curveP) fun hh => strict (u1 * hh % curveP) fun v =>
                strict (subMod curveP (r * r) (h * hh + 2 * v)) fun x3 =>
                  jac x3 (subMod curveP (r * subMod curveP v x3) (s1 * (h * hh % curveP))) (h * z1 % curveP * z2)

/-- `k < 2^n` times a point. -/
def Jac.times (a : Jac) : Nat → Nat → Jac
  | 0, _ => (1, 1, 0)
  | n + 1, k =>
    let b := (a.times n (k / 2)).double
    if k % 2 = 1 then b.add a else b

/-- The coordinate x of a point; none for the neutral one. -/
def Jac.affineX (a : Jac) : Option Nat :=
  let (x, _, z) := a
  if z = 0 then none else some (x * invMod curveP (z * z) % curveP)

/-- The number that a digest stands for, its first byte the highest. -/
def digestNat (d : List Byte) : Nat := leNat d.reverse

/-- A point lies on the curve and is not the neutral one. -/
def onCurve (k : Nat × Nat) : Bool :=
  decide (k.1 < curveP) && decide (k.2 < curveP) && (k.2 * k.2) % curveP == (k.1 * k.1 * k.1 + curveA * k.1 + curveB) % curveP

/-- The signature (r, s) verifies under a public key, for a message of this digest. -/
def ecdsaVerify (key : Nat × Nat) (digest : List Byte) (sig : Nat × Nat) : Bool :=
  let (r, s) := sig
  if r = 0 ∨ s = 0 ∨ curveQ ≤ r ∨ curveQ ≤ s ∨ !onCurve key then false
  else
    strict (invMod curveQ s) fun w =>
      let g : Jac := (curveG.1, curveG.2, 1)
      let q : Jac := (key.1, key.2, 1)
      match ((g.times 384 (digestNat digest * w % curveQ)).add (q.times 384 (r * w % curveQ))).affineX with
      | none => false
      | some x => x % curveQ == r

/-- A number as one of 1 to q − 1, where private keys and secret numbers lie. -/
def secretOf (x : Nat) : Nat := 1 + x % (curveQ - 1)

/-- The signature under a private key, with a secret number that is used once. -/
def ecdsaSign (d k : Nat) (digest : List Byte) : Nat × Nat :=
  let g : Jac := (curveG.1, curveG.2, 1)
  let r := ((g.times 384 k).affineX.getD 0) % curveQ
  (r, invMod curveQ k * (digestNat digest + r * d) % curveQ)

end Sys2Proof.Machine
end

