-- ==== Sys2Proof/Syntax.lean ====
section
/-! DEFINITION. The instructions and events of the Mbager: one constructor of `Instr` for each row of
spec/opcode_table.json. A slot instruction carries its guard (R52) and its decoded operands; an event
carries the unit at which it takes place. -/

namespace Sys2Proof

/-- The two vector clusters: A executes V0, B executes V1 (R117). -/
inductive Cluster | a | b
  deriving DecidableEq, Repr

/-- The eight slots of a bundle in TINFO order (R52). -/
inductive Slot | s | v0 | v1 | l | k | t | c | y
  deriving DecidableEq, Repr

/-- A slot's guard (R52): `none` is "always" (GPRED 63); `path` names a leaf of the bundle's tree. -/
structure Guard where
  pred : Option (Fin 48)
  neg : Bool
  path : Option (Fin 5)
  deriving DecidableEq, Repr

/-- A decoded 8-bit register specifier (R57, R58). -/
inductive Spec
  | main (i : Fin 64)
  | opf (i : Fin 8)
  | ls | la | lb | qs | qa | qb
  | z (i : Fin 8)
  | zero | none
  | const (k : BitVec 6)
  deriving DecidableEq, Repr

/-- A value of the K data map (R59). -/
inductive KData
  | s (i : Fin 64) | v (i : Fin 64) | w (i : Fin 64)
  | ls | la | lb | qs | qa | qb
  | z (i : Fin 8)
  | zero
  deriving DecidableEq, Repr

/-- Rounding modes (R35). -/
inductive Rm | rne | rtz | rup | rdn
  deriving DecidableEq, Repr

/-- Integer comparison conditions (R99). -/
inductive Cond | eq | ne | lt | le | ltu | leu | gt | ge
  deriving DecidableEq, Repr

/-- Floating comparison conditions (R38). -/
inductive FCond | eq | ne | lt | le | gt | ge | un | ord | rk
  deriving DecidableEq, Repr

/-- The formats of `cvt` (R127). -/
inductive VFmt | i32 | f32 | bf16 | f16
  deriving DecidableEq, Repr

/-- The kinds of `vpack` and `vunpk` (R128). -/
inductive PackKind | low | s16 | bf16 | f16
  deriving DecidableEq, Repr

/-- Access widths (R144). -/
inductive Width | b | h | w | d | v | hv
  deriving DecidableEq, Repr

/-- Widths of system-space accesses (R159). -/
inductive XWidth | b | h | w | d
  deriving DecidableEq, Repr

/-- Where a load's data goes (R144, R146). -/
inductive LoadTo
  | qs (sx : Bool) | qa | qb
  | desc (t : Fin 32) (hi : Bool)
  deriving DecidableEq, Repr

/-- What a store stores (R148). -/
inductive StoreFrom
  | data (x : KData)
  | desc (t : Fin 32) (hi : Bool)
  deriving DecidableEq, Repr

/-- Scratchpad atomics (R153); `cas` names its expected value. -/
inductive AmoOp
  | add | min | max | swap
  | cas (expect : Spec)
  | and | or
  deriving DecidableEq, Repr

/-- Main-memory atomics (R194). -/
inductive AtomOp | add | min | max | swap | cas | and | or
  deriving DecidableEq, Repr

/-- Reductions of `redf` (R197). -/
inductive RedOp | sum | max | min
  deriving DecidableEq, Repr

/-- Buffer declarations of `bst` (R154). -/
inductive BstMode | undeclare | empty | full
  deriving DecidableEq, Repr

/-- The operand field of the T slot (R210). -/
structure TOps where
  dst : Fin 32
  a : Fin 32
  b : Fin 32
  c : Fin 32
  tag : Fin 64
  cls : BitVec 4
  tq : Fin 4
  pa : BitVec 3
  pb : BitVec 3
  mod : BitVec 4
  deriving DecidableEq, Repr

/-- The tile operations, also as the queried opcode of `place` (R69, R237). -/
inductive TileOp
  | add | sub | mul | max | min | abs | cvt | scl | fill | sel | lut | red | mma | spm
  deriving DecidableEq, Repr

/-- The flag a copy posts (R176): FMODE 0 none, 1 always, 2 only on OK. -/
structure FlagTo where
  core : Fin 256
  flag : Fin 32
  mode : Fin 3
  deriving DecidableEq, Repr

/-- The common operand field of the C slot (R176). -/
structure COps where
  dst : Fin 32
  src : Fin 32
  aux : Fin 32
  tag : Fin 64
  cls : BitVec 4
  queue : Fin 4
  post : FlagTo
  deriving DecidableEq, Repr

/-- One test of a condition tree (R108). -/
structure Test where
  p : BitVec 6
  neg : Bool
  deriving DecidableEq, Repr

/-- The shapes of a condition tree (R109). -/
inductive Shape | chain | pairs | gate
  deriving DecidableEq, Repr

/-- The target of a `post` (R252). -/
inductive PostTo
  | own
  | core (x : Spec)
  | node (x : Spec)
  deriving DecidableEq, Repr

/-- Scopes of a `fence` (R255). -/
inductive FenceScope | core | quad | die | pkg | fabric
  deriving DecidableEq, Repr

/-- Targets of `brake` (R352). -/
inductive BrakeKind | core | stone | tile
  deriving DecidableEq, Repr

/-- What a `tlbi` invalidates (R190). -/
inductive TlbiKind | page | part | all
  deriving DecidableEq, Repr

/-- Trap causes with their codes (R337). -/
inductive Cause
  | illbundle | illop | wconflict | stallchk | detached | bufstate | align | poison
  | cmpt | novote | replaylim | descr | priv | trapi | stream | watchdog
  deriving DecidableEq, Repr

/-- The operation of a core that a late transition is found in (R355): one of the bundle presented, by its slot, or the
one that computes a result not yet landed, by its place among them. -/
inductive LateOp | issue (slot : Slot) | pending (i : Nat)
  deriving DecidableEq, Repr

/-- The unit that finds a late transition (R355). -/
inductive LateUnit | core (c : Fin 256) | stone (x : Fin 64)
  deriving DecidableEq, Repr

/-- The security states of PLAT (R388). -/
inductive Sec | locked | tenant | vendorDebug
  deriving DecidableEq, Repr

/-- A fabric packet (R371): the header's fields, the list beats of an MCW and the data bytes with
one poison bit for each 32-byte sector. -/
structure Packet where
  ts : W64 := 0
  addr : BitVec 46 := 0
  dst : Half := 0
  src : Half := 0
  master : Half := 0
  seq : W32 := 0
  kind : BitVec 6 := 0
  len : BitVec 13 := 0
  status : BitVec 4 := 0
  arg : BitVec 24 := 0
  list : List (Half × BitVec 46) := []
  data : List Byte := []
  poison : List Bool := []
  deriving DecidableEq, Repr

/-- The instructions and events of the machine, one constructor for each row of the opcode table. -/
inductive Instr
  -- the bundle and the core's pipeline
  | powerOnReset
  | bundleIssue (w : BitVec 512)
  | decouple
  | rejoin
  | windshaftRejoin (tile : Fin 64)
  | resultLanding (c : Fin 256)
  | loadDataValid (c : Fin 256)
  | ownerPortBeat (b : Fin 4096)
  | parkSatisfy (b : Fin 4096)
  -- S slot
  | nop (g : Guard)
  | add (g : Guard) (d a b : Spec)
  | sub (g : Guard) (d a b : Spec)
  | and (g : Guard) (d a b : Spec)
  | or (g : Guard) (d a b : Spec)
  | xor (g : Guard) (d a b : Spec)
  | shl (g : Guard) (d a b : Spec)
  | shr (g : Guard) (d a b : Spec)
  | sar (g : Guard) (d a b : Spec)
  | mul (g : Guard) (d a b : Spec)
  | mulh (g : Guard) (d a b : Spec)
  | mulhu (g : Guard) (d a b : Spec)
  | min (g : Guard) (d a b : Spec)
  | max (g : Guard) (d a b : Spec)
  | minu (g : Guard) (d a b : Spec)
  | maxu (g : Guard) (d a b : Spec)
  | addi (g : Guard) (d a : Spec) (imm : BitVec 26)
  | andi (g : Guard) (d a : Spec) (imm : BitVec 26)
  | ori (g : Guard) (d a : Spec) (imm : BitVec 26)
  | xori (g : Guard) (d a : Spec) (imm : BitVec 26)
  | shli (g : Guard) (d a : Spec) (imm : BitVec 26)
  | shri (g : Guard) (d a : Spec) (imm : BitVec 26)
  | sari (g : Guard) (d a : Spec) (imm : BitVec 26)
  | lea (g : Guard) (d a : Spec) (wdelta : Byte) (odelta : Half)
  | li (g : Guard) (d : Spec) (imm : BitVec 34)
  | lui (g : Guard) (d : Spec) (imm : W32)
  | clz (g : Guard) (d a : Spec)
  | popc (g : Guard) (d a : Spec)
  | bfx (g : Guard) (d a : Spec) (pos len1 : BitVec 6) (sx : Bool)
  | bfi (g : Guard) (d a b : Spec) (pos len1 : BitVec 6)
  | sel (g : Guard) (d a b : Spec) (p : Fin 48)
  | cmp (g : Guard) (pd : Fin 48) (a b : Spec) (cond : Cond)
  | cmpi (g : Guard) (pd : Fin 48) (a : Spec) (imm : BitVec 24) (cond : Cond)
  | pand (g : Guard) (pd pa pb : Fin 48)
  | por (g : Guard) (pd pa pb : Fin 48)
  | pxor (g : Guard) (pd pa pb : Fin 48)
  | pandn (g : Guard) (pd pa pb : Fin 48)
  | pset (g : Guard) (pd : Fin 48) (a : Spec)
  | vext (g : Guard) (d src : Spec) (lane : BitVec 6) (sx : Bool)
  | mfc (g : Guard) (d : Spec) (n : Byte)
  | mtc (g : Guard) (n : Byte) (a : Spec)
  | setbtAddr (g : Guard) (n : Fin 16) (addr : W32)
  | setbtReg (g : Guard) (n : Fin 16) (a : Spec)
  | tset (g : Guard) (t : Fin 32) (field : Fin 16) (a : Spec)
  | tget (g : Guard) (d : Spec) (t : Fin 32) (field : Fin 16)
  -- V0 and V1 slots
  | vnop (g : Guard) (cl : Cluster)
  | vadd (g : Guard) (cl : Cluster) (d a b : Spec)
  | vsub (g : Guard) (cl : Cluster) (d a b : Spec)
  | vmul (g : Guard) (cl : Cluster) (d a b : Spec)
  | vmulh (g : Guard) (cl : Cluster) (d a b : Spec)
  | vmin (g : Guard) (cl : Cluster) (d a b : Spec)
  | vmax (g : Guard) (cl : Cluster) (d a b : Spec)
  | vand (g : Guard) (cl : Cluster) (d a b : Spec)
  | vor (g : Guard) (cl : Cluster) (d a b : Spec)
  | vxor (g : Guard) (cl : Cluster) (d a b : Spec)
  | vshl (g : Guard) (cl : Cluster) (d a b : Spec)
  | vshr (g : Guard) (cl : Cluster) (d a b : Spec)
  | vsar (g : Guard) (cl : Cluster) (d a b : Spec)
  | vabs (g : Guard) (cl : Cluster) (d a : Spec)
  | vneg (g : Guard) (cl : Cluster) (d a : Spec)
  | vcmp (g : Guard) (cl : Cluster) (pd : Fin 48) (a b : Spec) (cond : Cond)
  | vadds (g : Guard) (cl : Cluster) (d a b : Spec)
  | vsubs (g : Guard) (cl : Cluster) (d a b : Spec)
  | vminu (g : Guard) (cl : Cluster) (d a b : Spec)
  | vmaxu (g : Guard) (cl : Cluster) (d a b : Spec)
  | fadd (g : Guard) (cl : Cluster) (d a b : Spec) (rm : Rm)
  | fsub (g : Guard) (cl : Cluster) (d a b : Spec) (rm : Rm)
  | fmul (g : Guard) (cl : Cluster) (d a b : Spec) (rm : Rm)
  | fma (g : Guard) (cl : Cluster) (d a b c : Spec) (rm : Rm)
  | fms (g : Guard) (cl : Cluster) (d a b c : Spec) (rm : Rm)
  | fnma (g : Guard) (cl : Cluster) (d a b c : Spec) (rm : Rm)
  | fmin (g : Guard) (cl : Cluster) (d a b : Spec)
  | fmax (g : Guard) (cl : Cluster) (d a b : Spec)
  | fabs (g : Guard) (cl : Cluster) (d a : Spec)
  | fneg (g : Guard) (cl : Cluster) (d a : Spec)
  | fdiv (g : Guard) (cl : Cluster) (d a b : Spec) (rm : Rm)
  | fsqrt (g : Guard) (cl : Cluster) (d a : Spec) (rm : Rm)
  | frcp (g : Guard) (cl : Cluster) (d a : Spec)
  | frsq (g : Guard) (cl : Cluster) (d a : Spec)
  | fcmp (g : Guard) (cl : Cluster) (pd : Fin 48) (a b : Spec) (cond : FCond)
  | fclass (g : Guard) (cl : Cluster) (d a : Spec)
  | cvt (g : Guard) (cl : Cluster) (d a : Spec) (src dst : VFmt) (rm : Rm)
  | vpack (g : Guard) (cl : Cluster) (d a b : Spec) (kind : PackKind) (rm : Rm)
  | vunpk (g : Guard) (cl : Cluster) (d a : Spec) (kind : PackKind) (half : Bool)
  | plext (g : Guard) (cl : Cluster) (d a : Spec) (k1 : Fin 8) (centred : Bool) (q : Fin 4)
  | plins (g : Guard) (cl : Cluster) (d a : Spec) (k1 : Fin 8) (centred : Bool) (q : Fin 4) (rm : Rm)
  | vmov (g : Guard) (cl : Cluster) (d a : Spec)
  | vsel (g : Guard) (cl : Cluster) (d a b : Spec) (p : Fin 48)
  | vli (g : Guard) (cl : Cluster) (d : Spec) (imm : W32)
  | viota (g : Guard) (cl : Cluster) (d : Spec) (start : Half) (stride : Byte)
  | vbcast (g : Guard) (cl : Cluster) (d a : Spec) (lane : BitVec 6)
  | vperm (g : Guard) (cl : Cluster) (d a b : Spec)
  | vrot (g : Guard) (cl : Cluster) (d a : Spec) (n : BitVec 6)
  | vbfly (g : Guard) (cl : Cluster) (d a : Spec) (s : Fin 6)
  | vradd (g : Guard) (cl : Cluster) (d a : Spec) (pm : Option (Fin 48)) (sat : Bool)
  | vrmax (g : Guard) (cl : Cluster) (d a : Spec) (pm : Option (Fin 48))
  | vrmin (g : Guard) (cl : Cluster) (d a : Spec) (pm : Option (Fin 48))
  | frsum (g : Guard) (cl : Cluster) (d a : Spec) (pm : Option (Fin 48)) (rm : Rm)
  | frmax (g : Guard) (cl : Cluster) (d a : Spec) (pm : Option (Fin 48))
  | frmin (g : Guard) (cl : Cluster) (d a : Spec) (pm : Option (Fin 48))
  | xmov (g : Guard) (cl : Cluster) (d a : Spec)
  | vins (g : Guard) (cl : Cluster) (d a : Spec) (lane : BitVec 6)
  | vfromp (g : Guard) (cl : Cluster) (d : Spec) (p : Fin 48)
  | vtop (g : Guard) (cl : Cluster) (pd : Fin 48) (a : Spec)
  -- L slot
  | lnop (g : Guard)
  | ld (g : Guard) (base index : Spec) (scale : BitVec 2) (off : BitVec 12) (cls : BitVec 4) (width : Width) (dest : LoadTo)
  | lde (g : Guard) (base index : Spec) (scale : BitVec 2) (off : BitVec 12) (cls : BitVec 4) (sx : Bool)
  | ldf (g : Guard) (base index : Spec) (scale : BitVec 2) (off : BitVec 12) (cls : BitVec 4) (sx : Bool)
  | ldx (g : Guard) (e : Fin 64) (off : BitVec 24) (width : XWidth)
  | amo (g : Guard) (base val : Spec) (op : AmoOp) (cls : BitVec 4) (wide : Bool)
  | lbst (g : Guard) (base : Spec) (cls : BitVec 4) (sel : Bool)
  -- K slot
  | knop (g : Guard)
  | st (g : Guard) (base : Spec) (src : StoreFrom) (off : BitVec 12) (cls : BitVec 4) (width : Width)
  | stf (g : Guard) (base : Spec) (src : KData) (off : BitVec 12) (cls : BitVec 4)
  | ste (g : Guard) (base : Spec) (src : KData) (off : BitVec 12) (cls : BitVec 4)
  | stx (g : Guard) (e : Fin 64) (src : Spec) (off : BitVec 24) (width : XWidth)
  | bst (g : Guard) (base : Spec) (buf : Byte) (mode : BstMode) (cls : BitVec 4)
  | stm (g : Guard) (base : Spec) (src : KData) (off : BitVec 12) (cls : BitVec 4) (width : Width) (p : Fin 48)
  -- T slot
  | tnop (g : Guard)
  | tadd (g : Guard) (o : TOps)
  | tsub (g : Guard) (o : TOps)
  | tmul (g : Guard) (o : TOps)
  | tmax (g : Guard) (o : TOps)
  | tmin (g : Guard) (o : TOps)
  | tabs (g : Guard) (o : TOps)
  | tcvt (g : Guard) (o : TOps)
  | tscl (g : Guard) (o : TOps)
  | tfill (g : Guard) (o : TOps)
  | tsel (g : Guard) (o : TOps)
  | tlut (g : Guard) (o : TOps)
  | tred (g : Guard) (o : TOps)
  | tmma (g : Guard) (o : TOps)
  | tspm (g : Guard) (o : TOps)
  | place (g : Guard) (op : TileOp) (o : TOps)
  | millerPlacement (job : Nat)
  | tilePieceEnd (job piece : Nat) (shipErr : Option Nat)
  | stoneJob (stone : Fin 64)
  -- C slot
  | cnop (g : Guard)
  | cpy (g : Guard) (o : COps)
  | gath (g : Guard) (o : COps)
  | scat (g : Guard) (o : COps)
  | mcast (g : Guard) (o : COps)
  | flume (g : Guard) (o : COps)
  | strm (g : Guard) (t : Fin 32) (z : Fin 8) (out : Bool) (width : BitVec 2) (cls : BitVec 4) (queue : Fin 4)
  | unstrm (g : Guard) (z : Fin 8) (tag : Fin 64) (cls : BitVec 4) (queue : Fin 4) (post : FlagTo)
  | catom (g : Guard) (o : COps) (op : AtomOp)
  | wsa (g : Guard) (o : COps)
  | wred (g : Guard) (o : COps)
  | wstat (g : Guard) (o : COps)
  | redf (g : Guard) (o : COps) (op : RedOp)
  | hot (g : Guard) (o : COps) (clr : Bool)
  | tlbi (g : Guard) (a : Spec) (kind : TlbiKind) (part : BitVec 4) (tag : Fin 64)
  | copyPieceStart (job piece : Nat)
  | pagerRecordAppend (handle : Nat)
  | copyPieceEnd (job piece : Nat)
  | tagCompletion (job : Nat)
  | streamFill (c : Fin 256) (z : Fin 8)
  | streamDrain (c : Fin 256) (z : Fin 8)
  | tlbiCompletion (job : Nat)
  | invalWatchdogExpiry (job : Nat)
  | pagerResolveRestart (handle : Nat)
  | pagerResolveNoframe (handle : Nat)
  | pagerResolveAccess (handle : Nat)
  -- Y slot
  | ynop (g : Guard)
  | tree (g : Guard) (shape : Shape) (t1 t2 t3 t4 : Test) (group count : BitVec 2)
  | jmpBt (g : Guard) (n : Fin 16)
  | jmpAddr (g : Guard) (addr : W32)
  | callBt (g : Guard) (k n : Fin 16)
  | callAddr (g : Guard) (k : Fin 16) (addr : W32)
  | ret (g : Guard) (n : Fin 16)
  | loop (g : Guard) (j : Bool) (n : Fin 16)
  | loopSet (g : Guard) (j : Bool) (a : Spec)
  | bsel (g : Guard) (d a b : Spec)
  | post (g : Guard) (flag : Fin 32) (target : PostTo) (mask : Half) (n : BitVec 11)
  | waitf (g : Guard) (flag : Fin 32) (mask : Half) (n : Half)
  | waitany (g : Guard) (a : Spec)
  | waitall (g : Guard) (a : Spec)
  | ffr (g : Guard) (d a : Spec)
  | bar (g : Guard) (mask : Half)
  | barArrival (c : Fin 256)
  | watch (g : Guard) (base : Spec)
  | waitm (g : Guard) (d : Spec)
  | fence (g : Guard) (mask : Half) (scope : FenceScope)
  | qfence (g : Guard) (qmask : Byte)
  | send (g : Guard) (data : KData) (core : Spec)
  | recv (g : Guard) (d : KData) (core : Spec)
  | circuitHeader (c : Fin 256)
  | circuitDataArrival (c : Fin 256)
  | give (g : Guard) (wsrc : Byte) (core : Spec) (wdst : Byte) (flag : Fin 32) (fe : Bool)
  | giveAttach (b : Fin 4096)
  | openw (g : Guard) (w : Byte)
  | closew (g : Guard) (w : Byte)
  | fuse (g : Guard) (members : BitVec 4)
  | flagIncrementArrival (i : Nat)
  | parkAppend (quad : Fin 16) (i : Nat)
  | spawn (g : Guard) (d q rec : Spec)
  | suspendQueue (g : Guard) (q : Spec) (bt : Fin 16)
  | suspendFlag (g : Guard) (q : Spec) (bt : Fin 16) (flag : Fin 32) (count : BitVec 11)
  | suspendWatch (g : Guard) (q : Spec) (bt : Fin 16)
  | yield (g : Guard)
  | done (g : Guard)
  | tstamp (g : Guard) (d : Spec)
  | tstampHub (g : Guard) (d : Spec)
  | tstampSet (g : Guard) (a : Spec)
  | cmptScalar (g : Guard) (a b : Spec)
  | cmptVector (g : Guard) (a b : KData) (m : Option (Fin 48))
  | trap (g : Guard) (imm : Half)
  | rft (g : Guard)
  | idle (g : Guard)
  | brake (g : Guard) (kind : BrakeKind) (t : Spec)
  | brakeClear (g : Guard) (kind : BrakeKind) (t : Spec)
  -- the hub's own exchanges
  | reductionDeadline (ctx : BitVec 46)
  | fencePacket (c : Fin 256)
  | responseTimeout (req : Nat)
  -- freeze, pre-emption, dispatch, margins
  | trapEntry (c : Fin 256) (cause : Cause) (tinfo : W64)
  | contextSaveComplete (c : Fin 256)
  | preemptionRequest (c : Fin 256)
  | preemptionTaken (c : Fin 256)
  | contextSpill (c : Fin 256)
  | resume (c : Fin 256)
  | dispatchPick (die : Fin 4)
  | pickup (c : Fin 256)
  | lateTransition (unit : LateUnit) (op : LateOp) (attempt : Fin 3)
  | replayWindowExpiry (c : Fin 256)
  | stretchExpiry (c : Fin 256)
  | issueWatchdogExpiry (c : Fin 256)
  -- stacks
  | memoryRequest (home : Fin 512)
  | wheelStep (home : Fin 512)
  | refreshInterval (home : Fin 512)
  | stackSelfTestStart (stack : Fin 8)
  | selfTestParkRow (stack : Fin 8)
  | selfTestMarchEnd (stack : Fin 8) (pass : Bool)
  | selfTestRestoreRow (stack : Fin 8)
  | logicTestStart (die : Fin 4)
  | logicTestEnd (die : Fin 4) (pass : Bool)
  -- writes of system space from the fabric (src: the writing node)
  | launch (src : Half) (v : W64)
  | doorbell (src : Half) (q : Fin 131072) (tail : W32)
  | imgbaseWrite (src : Half) (p : Fin 16) (v : W64)
  | partcfgWrite (src : Half) (p : Fin 16) (v : W64)
  | slottabWrite (src : Half) (quad core : Fin 16) (v : W64)
  | bmapWrite (src : Half) (c : Fin 256) (w : Byte) (v : W64)
  | powerP0 (src : Half)
  | powerP1 (src : Half)
  | powerC1 (src : Half)
  | powerC3 (src : Half)
  | powerD3 (src : Half)
  | powerTransitionEnd
  | registerWrite (src : Half) (offset : W32) (v : W64)
  | abstainWrite (src : Half) (addr : BitVec 46) (v : W32)
  -- fabric packets and the hub
  | rd (p : Packet)
  | wr (p : Packet)
  | atom (p : Packet)
  | postPacket (p : Packet)
  | spawnPacket (p : Packet)
  | red (p : Packet)
  | abst (p : Packet)
  | result (p : Packet)
  | fencedone (c : Fin 256) (sw : Nat)
  | time (master : Half) (offset : W32)
  | mgmt (p : Packet)
  | attestationRequest (nonce : BitVec 256)
  | mcw (p : Packet)
  | rdrsp (p : Packet)
  | wrack (p : Packet)
  | atrsp (p : Packet)
  | sprsp (p : Packet)
  | err (p : Packet)
  | unknownPacket (p : Packet)
  | securityStateChange (target : Sec)
  | halt (c : Fin 256)
  | overtempP1
  | overtempShutdown
  deriving DecidableEq, Repr

end Sys2Proof
end

