-- ==== Sys2Proof/Machine/Float.lean ====
section
/-! DEFINITION. Floating-point arithmetic (R34-R39, R43-R46, R122-R127): a finite value is a sign, a
natural significand and an exponent, every operation is exact and is rounded once. -/

namespace Sys2Proof.Machine

/-- The sticky flags of one operation: NV, DZ, OF, UF, NX in bits 4 to 0 (R41). -/
abbrev FFlags := BitVec 5
/-- Invalid operation. -/
def FFlags.nv : FFlags := 16
/-- Division by zero. -/
def FFlags.dz : FFlags := 8
/-- Overflow, which is also inexact. -/
def FFlags.ofnx : FFlags := 5
/-- Underflow. -/
def FFlags.uf : FFlags := 2
/-- Inexact. -/
def FFlags.nx : FFlags := 1

/-- A floating format: the widths of its exponent and fraction (R34). -/
structure FFmt where
  ebits : Nat
  fbits : Nat
  deriving DecidableEq, Repr

/-- IEEE binary32 (R34). -/
def FFmt.f32 : FFmt := ⟨8, 23⟩
/-- The upper half of binary32 (R34). -/
def FFmt.bf16 : FFmt := ⟨8, 7⟩
/-- IEEE binary16 (R34). -/
def FFmt.f16 : FFmt := ⟨5, 10⟩

/-- The exponent bias (R34). -/
def FFmt.bias (f : FFmt) : Nat := 2 ^ (f.ebits - 1) - 1
/-- The least exponent of a normal number. -/
def FFmt.emin (f : FFmt) : Int := 1 - (f.bias : Int)
/-- The encoding of +∞. -/
def FFmt.inf (f : FFmt) : Nat := (2 ^ f.ebits - 1) * 2 ^ f.fbits
/-- The sign bit's weight. -/
def FFmt.signW (f : FFmt) : Nat := 2 ^ (f.ebits + f.fbits)
/-- The canonical NaN (R34). -/
def FFmt.qnan (f : FFmt) : W32 := BitVec.ofNat 32 (f.inf + 2 ^ (f.fbits - 1))
/-- An encoding with its sign. -/
def FFmt.enc (f : FFmt) (s : Bool) (mag : Nat) : W32 :=
  BitVec.ofNat 32 (mag + if s then f.signW else 0)
/-- ±∞. -/
def FFmt.infinity (f : FFmt) (s : Bool) : W32 := f.enc s f.inf

/-- A decoded floating value; `fin s m e` is (-1)^s · m · 2^e. -/
inductive FVal
  | nan (signalling : Bool)
  | inf (s : Bool)
  | fin (s : Bool) (m : Nat) (e : Int)
  deriving DecidableEq, Repr

/-- Reading an encoding (R34). -/
def FFmt.dec (f : FFmt) (x : W32) : FVal :=
  let n := x.toNat
  let s := n / f.signW % 2 == 1
  let ex := n / 2 ^ f.fbits % 2 ^ f.ebits
  let fr := n % 2 ^ f.fbits
  if ex = 2 ^ f.ebits - 1 then
    if fr = 0 then .inf s else .nan (fr < 2 ^ (f.fbits - 1))
  else if ex = 0 then .fin s fr (f.emin - f.fbits)
  else .fin s (fr + 2 ^ f.fbits) ((ex : Int) - f.bias - f.fbits)

/-- The sign of a value; a NaN has none. -/
def FVal.sign : FVal → Bool
  | .nan _ => false
  | .inf s => s
  | .fin s _ _ => s

/-- A signalling NaN. -/
def FVal.snan : FVal → Bool
  | .nan b => b
  | _ => false

/-- Any NaN. -/
def FVal.isNan : FVal → Bool
  | .nan _ => true
  | _ => false

/-- ±0. -/
def FVal.isZero : FVal → Bool
  | .fin _ m _ => m == 0
  | _ => false

/-- The value with its sign inverted. -/
def FVal.neg : FVal → FVal
  | .nan b => .nan b
  | .inf s => .inf (!s)
  | .fin s m e => .fin (!s) m e

/-- NV when any of the operands is a signalling NaN (R122). -/
def snanFlag (xs : List FVal) : FFlags := if xs.any FVal.snan then FFlags.nv else 0

/-- m / 2^drop rounded to an integer in a mode for a number of sign `s`, and whether that was inexact (R35). -/
def roundNat (rm : Rm) (s : Bool) (m drop : Nat) : Nat × Bool :=
  let q := m / 2 ^ drop
  let r := m % 2 ^ drop
  let up := match rm with
    | .rne => 2 * r > 2 ^ drop || (2 * r == 2 ^ drop && q % 2 == 1)
    | .rtz => false
    | .rup => r != 0 && !s
    | .rdn => r != 0 && s
  (if up then q + 1 else q, r != 0)

/-- Exponent of the leading bit of m · 2^e, for m > 0. -/
def msbExp (m : Nat) (e : Int) : Int := e + (Nat.log2 m : Int)

/-- m · 2^e rounded to a multiple of 2^q: the multiple and whether that was inexact. -/
def roundAt (rm : Rm) (s : Bool) (m : Nat) (e q : Int) : Nat × Bool :=
  if q ≤ e then (m * 2 ^ (e - q).toNat, false) else roundNat rm s m (q - e).toNat

/-- A magnitude folded with the fact that the exact value lies strictly above it (for quotients and
roots): one more bit, set when a remainder is left. -/
def withSticky (m : Nat) (left : Bool) : Nat := 2 * m + left.toNat

/-- The result of an overflow (R37). -/
def FFmt.overflow (f : FFmt) (rm : Rm) (s : Bool) : W32 :=
  let away := match rm with | .rne => true | .rtz => false | .rup => !s | .rdn => s
  f.enc s (if away then f.inf else f.inf - 1)

/-- (-1)^s · m · 2^e rounded once into a format, subnormals produced, with OF, UF and NX; tininess is
detected after rounding (R36, R37). -/
def FFmt.round (f : FFmt) (rm : Rm) (s : Bool) (m : Nat) (e : Int) : W32 × FFlags :=
  if m = 0 then (f.enc s 0, 0) else
  let top := msbExp m e
  let q := max (top - f.fbits) (f.emin - f.fbits)
  let (n, nx) := roundAt rm s m e q
  let mag := (q - (f.emin - f.fbits)).toNat * 2 ^ f.fbits + n
  if f.inf ≤ mag then (f.overflow rm s, FFlags.ofnx) else
  let (n', _) := roundAt rm s m e (top - f.fbits)
  let tiny := (if n' = 2 ^ (f.fbits + 1) then top + 1 else top) < f.emin
  (f.enc s mag, (if nx then FFlags.nx else 0) ||| (if tiny && nx then FFlags.uf else 0))

/-- Rounding in a stone: 24 significant bits with an unbounded exponent, then a magnitude below 2^-126
becomes a zero of the exact result's sign (R36). -/
def roundFlush (rm : Rm) (s : Bool) (m : Nat) (e : Int) : W32 :=
  if m = 0 then FFmt.f32.enc s 0 else
  let top := msbExp m e
  let (n, _) := roundAt rm s m e (top - 23)
  let top' := if n = 2 ^ 24 then top + 1 else top
  if top' < -126 then FFmt.f32.enc s 0
  else if 127 < top' then FFmt.f32.overflow rm s
  else (FFmt.f32.round rm s n (top - 23)).1

/-- The sign of an exact zero sum of two addends (R122). -/
def zeroSign (rm : Rm) (s t : Bool) : Bool := if s == t then s else rm == .rdn

/-- The exact sum of two finite values: its sign, significand and exponent (R122). -/
def exactSum (rm : Rm) (s : Bool) (m : Nat) (e : Int) (t : Bool) (n : Nat) (d : Int) : Bool × Nat × Int :=
  let lo := min e d
  let x : Int := (if s then -1 else 1) * ((m * 2 ^ (e - lo).toNat : Nat) : Int)
  let y : Int := (if t then -1 else 1) * ((n * 2 ^ (d - lo).toNat : Nat) : Int)
  let z := x + y
  (if z = 0 then zeroSign rm s t else z < 0, z.natAbs, lo)

/-- A rounder of exact finite results: `FFmt.f32.round` or the stone's. -/
abbrev Rounder := Rm → Bool → Nat → Int → W32 × FFlags

/-- The rounder of vector clusters, querns and wheels (R36). -/
def rnd32 : Rounder := FFmt.f32.round
/-- The rounder of stones (R36). -/
def rndStone : Rounder := fun rm s m e => (roundFlush rm s m e, 0)

/-- Reading a stone's operand: subnormals become zeros of the same sign (R36). -/
def decStone (x : W32) : FVal :=
  match FFmt.f32.dec x with
  | .fin s m e => if m < 2 ^ 23 then .fin s 0 e else .fin s m e
  | v => v

/-- The canonical binary32 NaN. -/
def nan32 : W32 := FFmt.f32.qnan

/-- x + y (R123). -/
def addV (r : Rounder) (rm : Rm) (x y : FVal) : W32 × FFlags :=
  match x, y with
  | .nan _, _ | _, .nan _ => (nan32, snanFlag [x, y])
  | .inf s, .inf t => if s == t then (FFmt.f32.infinity s, 0) else (nan32, FFlags.nv)
  | .inf s, .fin _ _ _ | .fin _ _ _, .inf s => (FFmt.f32.infinity s, 0)
  | .fin s m e, .fin t n d =>
    let (u, k, lo) := exactSum rm s m e t n d
    r rm u k lo

/-- x · y (R123). -/
def mulV (r : Rounder) (rm : Rm) (x y : FVal) : W32 × FFlags :=
  match x, y with
  | .nan _, _ | _, .nan _ => (nan32, snanFlag [x, y])
  | .inf s, .inf t => (FFmt.f32.infinity (s != t), 0)
  | .inf s, .fin t m _ | .fin t m _, .inf s =>
    if m = 0 then (nan32, FFlags.nv) else (FFmt.f32.infinity (s != t), 0)
  | .fin s m e, .fin t n d => r rm (s != t) (m * n) (e + d)

/-- x · y + z, rounded once (R123). -/
def fmaV (r : Rounder) (rm : Rm) (x y z : FVal) : W32 × FFlags :=
  let sn := snanFlag [x, y, z]
  match x, y with
  | .nan _, _ | _, .nan _ => (nan32, sn)
  | .inf s, .inf t => addInf (s != t) z sn
  | .inf s, .fin t m _ | .fin t m _, .inf s =>
    if m = 0 then (nan32, FFlags.nv) else addInf (s != t) z sn
  | .fin s m e, .fin t n d =>
    match z with
    | .nan _ => (nan32, sn)
    | .inf u => (FFmt.f32.infinity u, 0)
    | .fin u k c =>
      let (w, q, lo) := exactSum rm (s != t) (m * n) (e + d) u k c
      r rm w q lo
where
  addInf (s : Bool) (z : FVal) (sn : FFlags) : W32 × FFlags :=
    match z with
    | .nan _ => (nan32, sn)
    | .inf u => if s == u then (FFmt.f32.infinity s, 0) else (nan32, FFlags.nv)
    | .fin _ _ _ => (FFmt.f32.infinity s, 0)

/-- x / y (R123). -/
def divV (rm : Rm) (x y : FVal) : W32 × FFlags :=
  match x, y with
  | .nan _, _ | _, .nan _ => (nan32, snanFlag [x, y])
  | .inf _, .inf _ => (nan32, FFlags.nv)
  | .inf s, .fin t _ _ => (FFmt.f32.infinity (s != t), 0)
  | .fin s _ _, .inf t => (FFmt.f32.enc (s != t) 0, 0)
  | .fin s m e, .fin t n d =>
    if n = 0 then
      if m = 0 then (nan32, FFlags.nv) else (FFmt.f32.infinity (s != t), FFlags.dz)
    else
      let k := 64 + Nat.log2 n
      rnd32 rm (s != t) (withSticky (m * 2 ^ k / n) (m * 2 ^ k % n != 0)) (e - d - k - 1)

/-- The integer square root of a number below 4^i, found bit by bit above `r`. -/
def isqrtFrom (x : Nat) : Nat → Nat → Nat
  | 0, r => r
  | i + 1, r => isqrtFrom x i (if (r + 2 ^ i) * (r + 2 ^ i) ≤ x then r + 2 ^ i else r)

/-- The integer square root. -/
def isqrt (x : Nat) : Nat := isqrtFrom x (Nat.log2 x / 2 + 1) 0

/-- √x (R123). -/
def sqrtV (rm : Rm) (x : FVal) : W32 × FFlags :=
  match x with
  | .nan b => (nan32, if b then FFlags.nv else 0)
  | .inf s => if s then (nan32, FFlags.nv) else (FFmt.f32.infinity false, 0)
  | .fin s m e =>
    if m = 0 then (FFmt.f32.enc s 0, 0)
    else if s then (nan32, FFlags.nv)
    else
      let m' := if e % 2 = 0 then m * 2 ^ 64 else m * 2 ^ 65
      let e' := if e % 2 = 0 then e - 64 else e - 65
      let q := isqrt m'
      rnd32 rm false (withSticky q (q * q != m')) (e' / 2 - 1)

/-- A positive value rounded to a 12-bit significand with an unbounded exponent, then to binary32;
NX is never raised (R125). -/
def approx12 (s : Bool) (m : Nat) (e : Int) : W32 × FFlags :=
  let q := msbExp m e - 11
  let (n, _) := roundAt .rne s m e q
  let (d, f) := FFmt.f32.round .rne s n q
  (d, f &&& 6)

/-- The approximate reciprocal (R125). -/
def rcpV (x : FVal) : W32 × FFlags :=
  match x with
  | .nan b => (nan32, if b then FFlags.nv else 0)
  | .inf s => (FFmt.f32.enc s 0, 0)
  | .fin s m e =>
    if m = 0 then (FFmt.f32.infinity s, FFlags.dz)
    else
      let k := 40 + Nat.log2 m
      approx12 s (withSticky (2 ^ k / m) (2 ^ k % m != 0)) (-e - k - 1)

/-- The approximate reciprocal square root (R125). -/
def rsqV (x : FVal) : W32 × FFlags :=
  match x with
  | .nan b => (nan32, if b then FFlags.nv else 0)
  | .inf s => if s then (nan32, FFlags.nv) else (FFmt.f32.enc false 0, 0)
  | .fin s m e =>
    if m = 0 then (FFmt.f32.infinity s, FFlags.dz)
    else if s then (nan32, FFlags.nv)
    else
      let m' := if e % 2 = 0 then m else 2 * m
      let e' := if e % 2 = 0 then e else e - 1
      let k := 40 + Nat.log2 m'
      let q := isqrt (2 ^ (2 * k) / m')
      approx12 false (withSticky q (q * q * m' != 2 ^ (2 * k))) (-(e' / 2) - k - 1)

/-- The integer, in units of 2^-200, by which finite and infinite values are ordered. -/
def FVal.key : FVal → Int
  | .nan _ => 0
  | .inf s => if s then -(2 ^ 400) else 2 ^ 400
  | .fin s m e => (if s then -1 else 1) * ((m * 2 ^ (e + 200).toNat : Nat) : Int)

/-- x < y among ordered values; −0 equals +0. -/
def FVal.lt (x y : FVal) : Bool := x.key < y.key
/-- x = y among ordered values; −0 equals +0. -/
def FVal.eqv (x y : FVal) : Bool := x.key == y.key

/-- rank(x) < rank(y) (R39). -/
def rankLt (x y : FVal) : Bool :=
  match x, y with
  | .nan _, .nan _ => false
  | .nan _, _ => true
  | _, .nan _ => false
  | x, y => x.lt y

/-- A floating comparison and its flag (R38). -/
def fcmpV (c : FCond) (x y : FVal) : Bool × FFlags :=
  let un := x.isNan || y.isNan
  let sn := snanFlag [x, y]
  let nv : FFlags := if un then FFlags.nv else 0
  match c with
  | .eq => (!un && x.eqv y, sn)
  | .ne => (un || !x.eqv y, sn)
  | .lt => (!un && x.lt y, nv)
  | .le => (!un && !y.lt x, nv)
  | .gt => (!un && y.lt x, nv)
  | .ge => (!un && !x.lt y, nv)
  | .un => (un, sn)
  | .ord => (!un, sn)
  | .rk => (rankLt x y, sn)

/-- x stands below y for `fmin` and `fmax`, where −0 stands below +0 (R124). -/
def minLt (x y : FVal) : Bool := x.lt y || (x.eqv y && x.sign && !y.sign)

/-- `fmin` and `fmax` on encodings (R124). -/
def minmax32 (max : Bool) (a b : W32) : W32 × FFlags :=
  let x := FFmt.f32.dec a
  let y := FFmt.f32.dec b
  let sn := snanFlag [x, y]
  if x.isNan then (if y.isNan then nan32 else b, sn)
  else if y.isNan then (a, sn)
  else (if minLt x y != max then a else b, sn)

/-- `fclass` (R124). -/
def fclass32 (a : W32) : W32 :=
  let b : Nat := match FFmt.f32.dec a with
    | .nan true => 0 | .nan false => 1
    | .inf true => 2 | .inf false => 9
    | .fin s m _ =>
      if m = 0 then (if s then 5 else 6)
      else if m < 2 ^ 23 then (if s then 4 else 7)
      else if s then 3 else 8
  BitVec.ofNat 32 (2 ^ b)

/-- `fabs` and `fneg` (R124). -/
def fabs32 (a : W32) : W32 := if (FFmt.f32.dec a).isNan then nan32 else a &&& 0x7FFFFFFF
/-- Sign inversion (R124). -/
def fneg32 (a : W32) : W32 := if (FFmt.f32.dec a).isNan then nan32 else a ^^^ 0x80000000

/-- A value converted into a format (R37); a NaN gives the canonical NaN. -/
def FFmt.convert (f : FFmt) (rm : Rm) (x : FVal) : W32 × FFlags :=
  match x with
  | .nan b => (f.qnan, if b then FFlags.nv else 0)
  | .inf s => (f.infinity s, 0)
  | .fin s m e => f.round rm s m e

/-- A value rounded to an integer: the integer and whether that was inexact. -/
def toIntExact (rm : Rm) (s : Bool) (m : Nat) (e : Int) : Int × Bool :=
  let (n, nx) := roundAt rm s m e 0
  ((if s then -1 else 1) * (n : Int), nx)

/-- A value converted to an integer of `lo` to `hi`: saturation and NaN raise NV (R37). -/
def toIntSat (rm : Rm) (lo hi : Int) (x : FVal) : Int × FFlags :=
  match x with
  | .nan _ => (0, FFlags.nv)
  | .inf s => (if s then lo else hi, FFlags.nv)
  | .fin s m e =>
    let (n, nx) := toIntExact rm s m e
    if n < lo then (lo, FFlags.nv) else if hi < n then (hi, FFlags.nv)
    else (n, if nx then FFlags.nx else 0)

/-- An exact integer as a value. -/
def FVal.ofInt (x : Int) : FVal := .fin (decide (x < 0)) x.natAbs 0

/-- An integer in binary32 (R37). -/
def f32OfInt (rm : Rm) (x : Int) : W32 × FFlags := FFmt.f32.convert rm (.ofInt x)

/-- The format of a code of `cvt`. -/
def fmtOf : VFmt → FFmt
  | .bf16 => .bf16
  | .f16 => .f16
  | _ => .f32

/-- One lane of `cvt` (R127): a 16-bit source is read from bits [15:0]. -/
def cvtLane (src dst : VFmt) (rm : Rm) (a : W32) : W32 × FFlags :=
  let x : FVal := match src with
    | .i32 => .ofInt a.toInt
    | .f32 => FFmt.f32.dec a
    | f => (fmtOf f).dec (a &&& 0xFFFF)
  match dst with
  | .i32 =>
    let (n, f) := toIntSat rm (-2147483648) 2147483647 x
    (BitVec.ofInt 32 n, f)
  | f => (fmtOf f).convert rm x

end Sys2Proof.Machine
end

