-- ==== Sys2Proof/Config.lean ====
section
/-! DEFINITION. What is fixed for the machine: the manual's constants, and the free values, which the
manual leaves open and of which nothing is known (log entry 3). -/

namespace Sys2Proof.Config

/-- Which of the agreeing translations a disagreeing C group gives (R186): free. -/
opaque freePick : Nat → Nat
/-- A byte of a stone's B-staging area after a job (R232): free. -/
opaque freeByte : Nat → Byte
/-- A value the manual leaves unstated: free. -/
opaque freeWord : Nat → W64
/-- The device attestation key (R391), which never leaves the hub: free. -/
opaque deviceKey : Nat
/-- The secret number of an attestation signature (R391): free. -/
opaque freeSecret : Nat → Nat

/-- The number of arithmetic-clock cycles after which a timed hold traps (R354). -/
def watchdogCycles : Nat := 2 ^ 20
/-- The entries of each load-data queue (R147). -/
def queueDepth : Nat := 16
/-- The loads the load-address queue holds (R147). -/
def addressDepth : Nat := 16
/-- The elements a stream buffers (R161). -/
def streamDepth : Nat := 8
/-- The entries of a quadrant's wait table (R323). -/
def parkDepth : Nat := 64
/-- The work queues of the package (R314). -/
def queueCount : Nat := 131072

/-- Bytes of main memory (R19). -/
def mainBytes : Nat := 2 ^ 39
/-- The scratchpad aperture's base (R19). -/
def padBase : Nat := 0x200000000000
/-- The scratchpad aperture's size (R19). -/
def padBytes : Nat := 2 ^ 28
/-- The stone aperture's base (R19). -/
def stoneBase : Nat := 0x200040000000
/-- The stone aperture's size (R19). -/
def stoneBytes : Nat := 2 ^ 29
/-- The implemented bytes of one stone in its 8 MiB stride (R19). -/
def stoneSpan : Nat := 0x600000
/-- The configuration aperture's base (R19). -/
def cfgBase : Nat := 0x3FFF00000000
/-- The configuration aperture's size (R19). -/
def cfgBytes : Nat := 2 ^ 32

end Sys2Proof.Config
end

