-- ==== Sys2Proof/Machine/ResetValues.lean ====
section
/-! DEFINITION. The values registers hold after reset that are more than zero: the slot tables (R264), TENT and
STENT (R357), RPLCNT (R358), STKTEST (R303), LTEST (R363), tag status words (R202); and what is in the flash and the fuses of a
device that boots, unless the environment says otherwise (log entry 5). -/

namespace Sys2Proof.Machine

/-- partner(q, k) of the reset slot table (R264). -/
def partner0 (q k : Nat) : Nat :=
  if k = 15 then q
  else if q = 15 then k
  else
    let p := (2 * k + 15 - q) % 15
    if p = q then 15 else p

/-- The reset content of SLOTTAB word q (R264, R265). -/
def slotReset (q : Nat) : W64 :=
  BitVec.ofNat 64 ((List.range 16).foldr (fun k acc => acc * 16 + partner0 q k) 0)

/-- TENT and STENT at reset: OFFSET 12, STRETCH 1, SWOFF 12 (R357). -/
def tentReset : W64 := 0xC2C
/-- RPLCNT at reset: LIMIT 8 (R358). -/
def rplReset : W64 := 8
/-- STKTEST at reset: EN 1, INTERVAL 6 (R303). -/
def stkReset : W64 := 0x8600
/-- LTEST at reset: EN 1, INTERVAL 4 (R363). -/
def ltestReset : W64 := 0x8400
/-- A tag status word at reset: PIECE 0xFFFF_FFFF (R202). -/
def statusReset : W128 := 0xFFFFFFFF000000000000000000000000

/-- A vendor's public key (R387). -/
def goodKey : Nat × Nat :=
  (0x790B5B6620FA9F68BEEE291BAC25FF14662E59776F02247D726CB7E206A95C48360A7AA69AD251259A5FFDECDF47B4CD,
   0x7B4709724C151C9BDC8D77839AA19483A03D077F8623EBE5798740A134DF72F86A8A76914175C2B0EA4F4253150AB79E)
/-- The SHA-384 digest of that key (R387). -/
def goodFuse : List Byte :=
  leBytes 48 0x8C2D863DCA651910ACC5DB96BEDBD310954C64F70513BAC58FC5079A1982A615490A151A7AC08821BAFBCA60CF1DE08D
/-- That vendor's signature of an empty image. -/
def goodSignature : Nat × Nat :=
  (0x43AEB7396892C5FD3319B06EF844E141D5C950759C2B0306157D396F0E5AD93A35CD64CF1AB0177F187FC00176DC0810,
   0x398442FA57053C731261637AFD5F8EA2A67E707A354BCB5243DCEE4429DB4C9A12C5E1CC827A4D63CB99265C01880102)

end Sys2Proof.Machine
end

