-- ==== Sys2Proof/Machine/State.lean ====
section
/-! DEFINITION. The state of the machine, all of it plain data (INVENTORY.md, '## State'), the reasons for
which a step can stop, and the state right after reset. -/

namespace Sys2Proof.Machine

/-- Reasons for which the machine stops with a fault. Every error of the manual is a trap, a status or an
error response, each of which is a next state, so one reason is left: the manual's guarantees were broken. -/
inductive Fault
  /-- Raised by no instruction: kept so that the outcome has a name (safe: nothing answers it). -/
  | unreachable
  deriving DecidableEq, Repr

/-- Reasons for which a step is refused. -/
inductive Refusal
  /-- Raised by an arm of `exec` that has no meaning yet, by its mnemonic (safe: it claims nothing). -/
  | notModelled (mnemonic : String)
  deriving DecidableEq, Repr

/-- A register a result can land in (R75, R340). Vector files are named by their cluster. -/
inductive Reg
  | s (i : Fin 64) | os (i : Fin 8) | ls
  | v (cl : Cluster) (i : Fin 64) | o (cl : Cluster) (i : Fin 8) | la (cl : Cluster)
  | p (i : Fin 48) | bt (i : Fin 16)
  | t (i : Fin 32) (hi : Bool) | field (i : Fin 32) (f : Fin 16)
  | padm | strm (z : Fin 8) (n : Nat)
  deriving DecidableEq, Repr

/-- A result issued and not yet landed (R75, R340). `lanes` are the lanes, or predicate bits, it writes; `lr` says that
the last-result register is written too; `bad` that a descriptor half arrives poisoned (R146). `pc`, `slot` and `lat` are
the code address and slot of the operation that computes it, and its latency (R355, R359). -/
structure Pend where
  reg : Reg
  data : VReg
  lanes : W64
  due : Nat
  order : Nat
  lr : Bool
  flags : BitVec 5
  bad : Bool
  pc : W32
  slot : Slot
  lat : Nat
  deriving DecidableEq, Repr

/-- One vector cluster's registers (R56, R117). -/
structure VFile where
  r : Vector VReg 64
  o : Vector VReg 8
  last : VReg
  deriving DecidableEq, Repr

/-- An entry of a load-data queue (R62, R146, R147); `poison` is the window address of the lowest
poisoned sector its load read (R338). -/
structure QEntry where
  id : Nat
  valid : Bool
  data : VReg
  poison : Option (BitVec 24)
  deriving DecidableEq, Repr

/-- A load that has not yet given its data (R141): which entry or descriptor half takes it, the bytes its
beats have read, and the clock of its last beat. `order`, `pc` and `slot` are those of its issue (R340); `banks` are those
it reads, which its data is on its way back from (R167). -/
structure LoadRec where
  id : Nat
  dest : LoadTo
  width : Width
  issued : Nat
  cycle : Nat
  lat : Nat
  extra : Nat
  parts : Nat
  begun : Bool
  got : List (Nat × Byte)
  last : Nat
  poison : Option (BitVec 24)
  order : Nat
  pc : W32
  slot : Slot
  banks : List (Fin 4096)
  deriving DecidableEq, Repr

/-- An owner-port access that has not yet performed: its class, its bank, whether it may write, how many of its
parts remain, and whether it is a `watch`, which is in no class (R258). -/
structure OutAcc where
  id : Nat
  cls : BitVec 4
  bank : Fin 4096
  writes : Bool
  fullEmpty : Bool
  parts : Nat
  watch : Bool
  deriving DecidableEq, Repr

/-- What an owner-port access does when it performs (R144-R153, R258). -/
inductive AccOp
  | load
  | lde | ldf
  | amo (op : AmoOp) (value expect : W64)
  | lbst (sel : Bool)
  | store (data : List (Nat × Byte))
  | storeFE (full : Bool) (data : List (Nat × Byte))
  | watch
  deriving DecidableEq, Repr

/-- One part of an owner-port access waiting at its bank (R141): `pos` is where its bytes stand in the
access, `beats` the beats still to take, `parked` a waiting `lde` or `ldf` (R152). `was` are bytes, by their place in the
bank, that an `stx` of its own bundle has replaced and that it reads as they stood before (R78); `after` are the accesses
that it follows as a release (R278). -/
structure Access where
  id : Nat
  cid : Nat
  core : Fin 256
  cls : BitVec 4
  op : AccOp
  off : Nat
  len : Nat
  pos : Nat
  win : BitVec 24
  earliest : Nat
  beats : Nat
  parked : Bool
  was : List (Nat × Byte) := []
  after : List Nat := []
  deriving DecidableEq, Repr

/-- A window's BMAP entry (R138). -/
structure BEntry where
  bank : Byte
  v : Bool
  opened : Bool
  lat : BitVec 2
  deriving DecidableEq, Repr

/-- An element in a stream's buffer: `n` is the model's name for it, by which a result finds it; its bytes, whether an
output element has landed, poison, failure, and whether a freeze has written it out before its turn (R165). -/
structure Elem where
  n : Nat
  data : VReg
  ready : Bool
  poison : Option (BitVec 24)
  failed : Bool
  written : Bool
  deriving DecidableEq, Repr

/-- A stream binding (R161). `pos` is POS; `fetched` counts the elements filled or drained; `banks` resolves the
windows its pattern reaches (R162); `needs` and `after` are what its first access must follow (R198, R199); `id` is the
model's name for it; `bufNo` and `view` are the buffer number and the view that its descriptor names (R155, R180). -/
structure Binding where
  id : Nat
  out : Bool
  width : BitVec 2
  device : Bool
  view : Nat
  bufNo : Byte
  base : W64
  counts : Vector Nat 3
  strides : Vector Int 3
  pos : Nat
  fetched : Nat
  buf : List Elem
  banks : List (Byte × Fin 4096)
  cls : BitVec 4
  queue : Fin 4
  part : Fin 16
  padm : W64
  ts : W64
  failure : Option (BitVec 4)
  needs : List Nat
  after : List Nat
  deriving DecidableEq, Repr

/-- The word monitor (R258, R259); `id` names the access of its `watch`. -/
structure Monitor where
  id : Nat
  addr : BitVec 24
  bank : Fin 4096
  armed : Bool
  triggered : Bool
  lost : Bool
  deriving DecidableEq, Repr

/-- Membership of a fused gang (R260-R262): `pull` is this member's pull of the windshaft line. -/
structure Fused where
  members : BitVec 4
  coupled : Bool
  pull : Bool
  release : Option Nat
  deriving DecidableEq, Repr

/-- What a seated continuation keeps of its record (R319): header, completion field, home queue. -/
structure RecInfo where
  header : W64
  completion : W64
  home : Fin 131072
  deriving DecidableEq, Repr

/-- A remote system-space or queue request of a slot of a held bundle, and its answer: status, data, poison (R160,
R316). -/
structure Remote where
  slot : Slot
  answer : Option (BitVec 4 × W64 × Bool)
  deriving DecidableEq, Repr

/-- A decoded bundle: header fields and the slots that hold anything but their plain nop, in slot order. -/
structure Bundle where
  stall : Nat := 0
  qp : Bool := false
  kind : Nat := 0
  triple : Byte := 0
  ops : List (Slot × Instr)
  deriving DecidableEq, Repr

/-- A bundle that has made an access whose effect stands, so that nothing may stop it but what that access returns (R76, R160,
R316): the bundle, and memory, the bank map and the descriptor registers as its slots found them (R78); `early` says that
its owner-port accesses have been made too, before the release of its `spawn` (R271). -/
structure Asked where
  bundle : Bundle
  mem : List Host.Cell
  bmap : Vector BEntry 256
  t : Vector Desc 32
  early : Bool
  deriving DecidableEq, Repr

/-- A continuation: every register of R56 and everything its context image holds (R341). `cid` is the
model's own name for it. `given` are the accesses that its own posts to its own flags cover and that may not have performed,
and `seen` those of them that a `waitf` has acquired, which its later releases cover (R278). -/
structure Cont where
  cid : Nat
  part : Fin 16
  image : Bool
  s : Vector W64 64
  os : Vector W64 8
  ls : W64
  va : VFile
  vb : VFile
  p : Vector W64 48
  bt : Vector W32 16
  lc : Vector W32 2
  t : Vector Desc 32
  tpoison : W64
  rpoison : List Reg
  f : Vector Half 32
  qs : List QEntry
  qa : List QEntry
  qb : List QEntry
  loads : List LoadRec
  acc : List OutAcc
  strm : Vector (Option Binding) 8
  cstat : W64
  tvec : W32
  tpc : W32
  tcause : W64
  tinfo : W64
  tags : W64
  padm : W64
  ts : W64
  vflaga : W64
  vflagb : W64
  err : Vector W64 4
  status : Vector W128 64
  busy : W64
  pc : W32
  pend : List Pend
  acyc : Nat
  owed : Nat
  order : Nat
  bmap : Vector BEntry 256
  mon : Option Monitor
  recheck : Bool
  barrier : Option Nat
  barWait : Option Half
  team : Option Nat
  give : Option (Byte × Fin 256)
  fused : Option Fused
  fusing : Option (BitVec 4)
  send : Vector (Option VReg) 16
  recv : Vector (Option VReg) 16
  sendAt : Vector Nat 16
  recvAt : Vector Nat 16
  info : Option RecInfo
  stopped : Bool
  remote : List Remote
  asked : Option Asked
  given : List (Fin 32 × List Nat)
  seen : List Nat
  parks : List (Fin 4096 × Access)
  fences : List (Fin 8 × Nat)
  drains : List (Nat × Fin 8 × Binding)
  deriving DecidableEq, Repr

/-- Where a core stands between seatings and freezes (R339, R345). -/
inductive Phase
  | vacant
  | running
  | trapSave (code : BitVec 5)
  | preemptSave
  | saved
  | halted
  deriving DecidableEq, Repr

/-- A translation held in the caches of a die's engines (R187, R191): its partition, a 4 KiB page number and its frame
number, the permissions it had, and the size of the page it lies in (R190). -/
structure Tlb where
  part : Fin 16
  va : Nat
  pa : Nat
  w : Bool
  vw : Bool
  size : Nat
  deriving DecidableEq, Repr

/-- A control core: its live continuation, the image of a frozen one in its keep bank, and what stays with the core
(R56, R251, R342, R357). The keep bank's bytes are those of the frozen image, or of the last one (`stale`), under the
words written to it since (`kwords`). `holds` are the timed holds in force, by what they would trap with, and their cycles
(R354). `code` and `codeBad` are what its fetch buffer holds (R91), `inBuf` the addresses of the bundles it has fetched since it
was filled, `votes` what its
voters find next (R115, R360). -/
structure CoreSt where
  cont : Cont
  keep : Option Cont
  stale : Option Cont
  kwords : List (Nat × W64)
  phase : Phase
  preempt : Bool
  tent : W64
  rplcnt : W64
  tmrcnt : W32
  snapcnt : W64
  held : Vector Half 32
  heldOvf : Bool
  votes : List (Slot × Bool)
  clk : Nat
  holds : List (W64 × Nat)
  code : List Host.Cell
  codeBad : List Nat
  inBuf : List Nat
  braked : Bool
  failed : Bool
  gated : Bool
  stretchEnd : Nat
  windowEnd : Nat
  deriving DecidableEq, Repr

/-- The state of a declared buffer (R155). -/
inductive BufState | opened | empty | filling | full | draining
  deriving DecidableEq, Repr

/-- A bank in transit (R167, R318): a `give` to a window of a core, which attaches no earlier than cycle `at_` and after the
accesses that it covers as a release (R278), or carried by a record. -/
inductive Transit
  | give (src dst : Fin 256) (wdst : Byte) (flag : Fin 32) (fe : Bool) (cid at_ : Nat) (needs : List Nat)
  | carried (src : Fin 256) (cid : Nat)
  deriving DecidableEq, Repr

/-- A bank's owner-port queue and states (R141, R155, R158). -/
structure BankSt where
  q : List Access
  clear : Nat
  st : BufState
  buf : Byte
  writes : Nat
  reads : Nat
  ts : W64
  transit : Option Transit
  deriving DecidableEq, Repr

/-- A parked record (R323): its flag and threshold, or its monitor, whether it has been released, and the ring slot it
was appended at, whether its record has been taken from there, whether its count was clamped, and the accesses that it
releases. -/
structure Park where
  record : List Byte
  queue : Fin 131072
  core : Fin 256
  flag : Option (Fin 32 × Nat)
  count : Half
  mon : Option Monitor
  released : Bool
  appended : Bool
  slot : Nat
  taken : Bool
  ovf : Bool
  needs : List Nat
  deriving DecidableEq, Repr

/-- A barrier (R257): who belongs to it, who has arrived, and its generation. -/
structure Barrier where
  team : Nat
  band : Bool
  members : List (Fin 256)
  arrived : List (Fin 256)
  retired : List (Fin 256)
  gen : Nat
  deriving DecidableEq, Repr

/-- A transfer between send buffer and receive entry (R266): the header has reserved the path, and the data is in the
entry at cycle `at_`. -/
structure Transfer where
  src : Fin 16
  dst : Fin 16
  data : VReg
  at_ : Nat
  deriving DecidableEq, Repr

/-- A quadrant's synchronisation unit, circuits, park table and freed banks. -/
structure QuadSt where
  slottab : Vector W64 16
  slotNew : Vector W64 16
  moving : List Transfer
  parks : List Park
  freeb : Vector W64 4
  deriving DecidableEq, Repr

/-- A record of the die's resume list (R327): the STATE 2 record, its image, the core it left, and the image as it was
spilled to its context area, which `cont` has left where completions arrived since (R204, R347). -/
structure ResumeRec where
  record : List Byte
  cont : Cont
  area : Nat
  core : Fin 256
  spilt : Cont
  deriving DecidableEq, Repr

/-- A record picked for cores and not yet seated (R327, R319). -/
structure Seating where
  cores : List (Fin 256)
  record : List Byte
  queue : Option (Fin 131072)
  parkFlag : Option (Fin 32 × Half × Fin 256)
  resume : List ResumeRec
  deriving DecidableEq, Repr

/-- A partition: its image (R394), quadrants (R331), table base (R186), RISE (R231) and launch mode (R330). -/
structure PartSt where
  imgBase : BitVec 36
  imgV : Bool
  imgN : Nat
  qmask : Half
  prompt : Bool
  table : W64
  rise : W64
  queued : Bool
  deriving DecidableEq, Repr

/-- A record in a ring whose release is not over (R271, R277): the accesses of `core` that its pickup follows. -/
structure Spawned where
  queue : Fin 131072
  slot : Nat
  core : Fin 256
  needs : List Nat
  deriving DecidableEq, Repr

/-- What a release delivers once it is complete (R252, R325): an increment of a flag of this node, a packet to
another node, or nothing (a `fence` or a remote `spawn`, which only waits). -/
inductive Deliver
  | flag (core : Fin 256) (flag : Fin 32) (n : Nat)
  | packet (p : Packet)
  | nothing
  deriving DecidableEq, Repr

/-- The FENCE exchange of a release (R377): not needed, not sent, or the switches still to answer. -/
inductive Exchange | unneeded | unsent | waiting (switches : List Nat)
  deriving DecidableEq, Repr

/-- A release on its way (R252, R279): the accesses it still waits for, the clock before which it does not
arrive, its FENCE exchange, what it delivers, and whether an engine or an attachment makes it. -/
structure Release where
  id : Nat
  src : Fin 256
  needs : List Nat
  ready : Nat
  fabric : Exchange
  deliver : Deliver
  engine : Bool
  deriving DecidableEq, Repr

/-- What leaves for the management core or the trace buffer (R265, R302, R344, R353, R382, R387, R389, R392). -/
inductive Report
  | trap (core : Fin 256) (tpc : W32) (tcause tinfo : W64)
  | brake (home : Half) (on : Bool)
  | group (id : Nat) (areas : List Nat)
  | slotTable (quad : Fin 16)
  | bank (stack bank : Nat)
  | lockLost (offset : W32)
  | stack (stack : Nat)
  | boot
  | temperature
  | invalidation (core : Fin 256)
  | parity (home row : Nat)
  | mgmt (p : Packet)
  | attestation (report : List Byte)
  | suspect (record : List Byte)
  | uncorrectable (addr : Nat)
  | traced (core : Fin 256) (pc : W32) (ts : W64)
  | tracedTag (core : Fin 256) (tag : Fin 64)
  | haltedWord (core : Fin 256) (w : Nat) (v : W64)
  deriving DecidableEq, Repr

/-- A die's dispatcher, logs and in-field test (R327, R328, R353, R363, R364, R386). -/
structure DieSt where
  resume : List ResumeRec
  seating : List Seating
  reserved : List (Fin 131072 × List (Fin 256))
  served : Nat
  credits : List (Nat × Nat)
  margin : List (List Byte)
  marginCount : Nat
  suspects : List (List Byte)
  suspectCount : Nat
  ecc : Nat
  tlb : List Tlb
  testTile : Fin 16
  testing : Bool
  poweredDown : Bool
  deriving DecidableEq, Repr

/-- A tile's outbound log and brake (R353, R364); `failed` after a failing in-field test. -/
structure TileSt where
  braked : Bool
  failed : Bool
  passed : Nat
  nodes : List (Half × W32 × W32)
  overflow : Bool
  deriving DecidableEq, Repr

/-- A descriptor operand of an engine instruction: its bits and the banks its windows resolved to at issue
(R179). -/
structure Opnd where
  d : Desc
  banks : List (Byte × Fin 4096)
  deriving DecidableEq, Repr

/-- What an engine instruction does. -/
inductive Work
  | cpy | gath | scat
  | mcast (dests : List Opnd)
  | flume
  | catom (op : AtomOp)
  | wsa | wred | wstat
  | redf (op : RedOp)
  | hot (clr : Bool)
  | unstrm (b : Binding)
  | tile (op : TileOp)
  | place (op : TileOp)
  deriving DecidableEq, Repr

/-- The executor of a tile piece (R13, R230, R232). -/
inductive Exec | quern (tile : Fin 64) | wheel (home : Fin 512) | stone (stone : Fin 64)
  deriving DecidableEq, Repr

/-- A 4 KiB page of a translation that a piece keeps (R187): page numbers, the VIEWS attribute, and the size of the page
it lies in (R190). -/
structure Trans where
  va : Nat
  pa : Nat
  vw : Bool
  size : Nat
  deriving DecidableEq, Repr

/-- Where a piece stands: not started, under way, suspended on a page fault (R188), performed at its executor,
or ended with a code (R185, R239). -/
inductive PieceSt | waiting | started | faulted | performed (code : BitVec 4) | ended (code : BitVec 4)
  deriving DecidableEq, Repr

/-- An element's indices i0 to i3 (R178); for NI formats i0 counts groups. -/
abbrev Ix := Nat × Nat × Nat × Nat

/-- A piece of an engine instruction (R183, R233, R234): its pairs of source and destination units, its place in
the cut (`row`: `mcast` destination, table row, bag or home), its translations, the banks whose engine counts it
holds, its fabric requests, and for a link the range of K and the accumulators it leaves. `quarter` is the 64-byte part of
each group it moves where a group lies in four blocks (R287); `part` is the range of its bytes whose requests come next, and
`done` the bytes that parts have moved (R272); `behind` are the stone jobs it waits for (R179); `sat` says that it clamped (R242). -/
structure Piece where
  pairs : List (Ix × Ix)
  row : Nat
  fixed : Option (BitVec 4)
  st : PieceSt
  tr : List Trans
  opened : List (Fin 4096 × Bool)
  awaiting : List Nat
  got : List (Nat × Byte)
  lost : List Nat
  sent : Bool
  exec : Exec
  dhome : Half
  first : Nat
  kLo : Nat
  kHi : Nat
  last : Bool
  acc : List W32
  sums : List (Nat × List W32)
  quarter : Option Nat
  part : Option (Nat × Nat)
  done : List Nat
  behind : List (Nat × Nat)
  sat : Bool
  deriving DecidableEq, Repr

/-- An error record's content (R241). -/
structure ErrRec where
  exec : Half
  srch : Half
  code : BitVec 4
  addr : BitVec 46
  piece : Nat
  deriving DecidableEq, Repr

/-- A tile or copy instruction from commit to completion (R198, R201, R211): `needs` are the accesses of its core
it must follow (R199, R243), `after` the instructions it must follow (R198, R243, R256). -/
structure Job where
  id : Nat
  core : Fin 256
  cid : Nat
  part : Fin 16
  work : Work
  queue : Fin 8
  tag : Fin 64
  cls : Half
  post : FlagTo
  ts : W64
  padm : W64
  rise : Nat
  mod : BitVec 4
  pa : BitVec 3
  pb : BitVec 3
  noRise : Bool
  dst : Opnd
  a : Opnd
  b : Opnd
  c : Opnd
  sa : Option Opnd
  sb : Option Opnd
  metaOp : Option Opnd
  scale : W32
  needs : List Nat
  after : List Nat
  prepared : Bool
  pieces : List Piece
  sat : Bool
  tmo : Bool
  word : Option W128
  err : Option ErrRec
  tr : List Trans
  deriving DecidableEq, Repr

/-- What a page fault has suspended (R188, R195, R208). -/
inductive Faulting | piece (job piece : Nat) | placement (job : Nat) | stream (c : Fin 256) (binding : Nat)
  deriving DecidableEq, Repr

/-- A suspended walk and its pager record (R188, R189). -/
structure PagerFault where
  handle : Nat
  who : Faulting
  va : Nat
  write : Bool
  core : Fin 256
  tag : Fin 64
  part : Fin 16
  piece : W32
  ts : W64
  appended : Bool
  deriving DecidableEq, Repr

/-- An invalidation under way (R190-R192): the cores that have not acknowledged it and the pieces it waits for. -/
structure Inval where
  id : Nat
  core : Fin 256
  cid : Nat
  tag : Fin 64
  ts : W64
  kind : TlbiKind
  part : Fin 16
  va : Nat
  start : Nat
  waiting : List (Fin 256)
  pieces : List (Nat × Nat)
  deriving DecidableEq, Repr

/-- A request to a pseudo-channel (R286): its row, its sectors, whose it is, and the view it goes through (R288). -/
structure MemReq where
  owner : Nat × Nat
  view : Nat
  bank : Fin 32
  row : Nat
  sectors : Nat
  served : Bool
  deriving DecidableEq, Repr

/-- A wheel's job (R295): a row of `wsa`, the rows of a bag in this home, a reading, or the staging steps of a
tile piece; `pos` is the microprogram counter and `acc` the accumulators (R296). -/
structure WheelJob where
  job : Nat
  piece : Nat
  rows : List (Nat × Nat)
  len : Nat
  pos : Nat
  acc : Option (List W32)
  poisoned : Bool
  deriving DecidableEq, Repr

/-- A pseudo-channel: its request queue, open rows, row counters with their parity, refreshes owed and postponed,
hotness, and its wheel (R286, R293, R296, R299, R196). -/
structure HomeSt where
  reqs : List MemReq
  openRows : List (Fin 32 × Nat)
  counters : List (Fin 32 × Nat × Nat × Bool)
  owed : List (Fin 32 × Nat)
  postponed : Nat
  hot : Nat
  jobs : List WheelJob
  suspended : Bool
  steps : Nat
  suspensions : Nat
  neighbours : Nat
  failedBank : Option (Fin 32)
  deriving DecidableEq, Repr

/-- A stack's self-test (R302, R303): the bank under test, its phase (0 parking, 1 testing, 2 restoring), the rows
redirected, and where the next test takes its bank. -/
structure StackSt where
  test : Option (Fin 64 × Fin 32 × Nat × Nat)
  next : Nat
  failed : Bool
  deriving DecidableEq, Repr

/-- A stone: its jobs in arrival order, its brake and its replay counts (R228, R353, R357,
R358). A job that reaches an idle stone runs at once (`running`), a later one when its turn comes; a braked stone finishes
the one it runs and takes no other (R353). -/
structure StoneSt where
  jobs : List (Nat × Nat)
  braked : Bool
  running : Bool
  tent : W64
  rplcnt : W64
  window : Nat
  deriving DecidableEq, Repr

/-- Who waits for a fabric response (R373). -/
inductive Requester
  | piece (job piece pos : Nat)
  | core (c : Fin 256) (cid : Nat) (slot : Slot)
  | reduction (job : Nat)
  | nobody
  deriving DecidableEq, Repr

/-- A request awaiting its response (R372, R373). -/
structure Await where
  id : Nat
  node : Half
  kind : BitVec 6
  addr : BitVec 46
  sent : Nat
  who : Requester
  deriving DecidableEq, Repr

/-- An arrival of a reduction (R379): a contribution or an abstention, of an index from a node; `n` is the contributor count
that it brings (log entry 40), and `plain` says that it came as a write of four bytes (R378). -/
structure Arrival where
  node : Half
  index : Fin 32
  epoch : Half
  red : Option (BitVec 2 × Bool)
  data : List W32
  addr : BitVec 46
  bad : Bool
  n : Nat
  plain : Bool
  deriving DecidableEq, Repr

/-- An epoch open at this root (R379): its context, extent, first arrival and arrivals, and the arrivals held for
the next epoch. -/
structure Epoch where
  ctx : BitVec 46
  epoch : Half
  n : Nat
  since : Nat
  arrivals : List Arrival
  held : List Arrival
  deriving DecidableEq, Repr

/-- What boot finds (R387), chosen by the environment: the firmware in flash, its version and signature, the vendor key and
the digest of it that is fused; the stacks, DRAM banks, tiles and stones that fail; the switches that the node's outbound paths
cross (R377); the node numbers exchanged with the host, and the nodes that the host names (R365). -/
structure BootPlan where
  version : W64
  image : List Byte
  signature : Nat × Nat
  key : Nat × Nat
  fused : List Byte
  badStacks : BitVec 8
  badBanks : List (Fin 512 × Fin 32)
  switches : List Nat
  badTiles : W64
  badStones : W64
  node : Half
  host : Option Half
  named : List Half
  deriving DecidableEq, Repr

/-- A vendor debug token (R389): the node that it is for, its nonce and its signature. -/
structure DebugToken where
  node : Half
  nonce : List Byte
  signature : Nat × Nat
  deriving DecidableEq, Repr

/-- The hub: every package register of the configuration aperture, the fabric port and the management core's
state (R370-R392); `stalled` holds the requests that wait for a stone's running job (R19), `early` those that came before
others of their source, and `expect` the next number of each source (R372). LAUNCH shows BUSY until the cycle `busyEnd`. The
time base is the clock with `timeOff` and a correction of `slewBy` nanoseconds that began at `slewFrom` (R382). `token` is
the debug token presented last, and `nonces` those of the tokens that have been used (R389). `unsure` are writes of the form
of ABSTAIN, with their times, where no context is known yet (R378). -/
structure HubSt where
  busyEnd : Nat
  lerr : BitVec 4
  rlim : BitVec 4
  node : Half
  lock : Bool
  timeMaster : Half
  offs : W32
  reddl : W32
  thresh : BitVec 14
  ltest : W64
  qdbase : W64
  inval : W32
  accA : W64
  accB : W64
  chg : Bool
  pwr : BitVec 3
  dbg : BitVec 2
  sec : Sec
  pend : Option (BitVec 3)
  pagerent : Vector W32 4
  rowlog : Vector W64 8
  stktest : Vector W64 8
  act : Vector W128 4096
  descriptor : List Byte
  timeOff : Int
  slewFrom : Nat
  slewBy : Int
  seqs : List (Half × W32)
  expect : List (Half × W32)
  out : List Packet
  early : List Packet
  stalled : List Packet
  awaits : List Await
  epochs : List Epoch
  contexts : List (Half × BitVec 46)
  unsure : List (BitVec 46 × Nat × Arrival)
  measurement : BitVec 384
  version : W64
  plan : BootPlan
  booted : Bool
  token : Option DebugToken
  nonces : List (List Byte)
  lastPass : Vector Nat 64
  deriving DecidableEq, Repr

/-- An error that the hardware finds, chosen by the environment (R299, R360, R361): an ECC error corrected in a die, a sector
or a register lost, a vote that one unit dissents from (`majority`) or that no two units agree on, or a row counter whose
parity no longer holds. -/
inductive Upset
  | corrected (d : Fin 4)
  | sector (n : Nat)
  | register (c : Fin 256) (r : Reg)
  | vote (c : Fin 256) (slot : Slot) (majority : Bool)
  | parity (h : Fin 512) (b : Fin 32) (row : Nat)
  deriving DecidableEq, Repr

/-- What the management core does at a debug command (R389): it enters Off or Trace, is given a debug token, or reads or writes
a word of the image of a halted core. -/
inductive Manage
  | debug (trace : Bool)
  | token (t : DebugToken)
  | read (c : Fin 256) (w : Nat)
  | write (c : Fin 256) (w : Nat) (v : W64)
  deriving DecidableEq, Repr

/-- A continuation's turn, an event, an error, a debug command, or that the bytes of a copy piece from `lo` below `hi` go before the others
(R272), which the environment has chosen to come next (log entries 4 and 29). -/
inductive Turn
  | core (c : Fin 256)
  | event (i : Instr)
  | upset (u : Upset)
  | manage (m : Manage)
  | part (job piece lo hi : Nat)
  deriving DecidableEq, Repr

/-- The machine. -/
structure State where
  mem : List Host.Cell
  empties : List Nat
  poisoned : List Nat
  cores : Vector CoreSt 256
  banks : Vector BankSt 4096
  quads : Vector QuadSt 16
  parts : Vector PartSt 16
  dies : Vector DieSt 4
  tiles : Vector TileSt 64
  barriers : List Barrier
  releases : List Release
  spawned : List Spawned
  reports : List Report
  nextId : Nat
  free : Nat
  clock : Nat
  focus : Fin 256
  homes : Vector HomeSt 512
  memStacks : Vector StackSt 8
  stones : Vector StoneSt 64
  jobs : List Job
  faults : List PagerFault
  invals : List Inval
  hub : HubSt
  agenda : List Turn
  deriving DecidableEq, Repr

/-- A vector file of zeros (R90). -/
def VFile.zero : VFile := { r := Vector.replicate 64 0, o := Vector.replicate 8 0, last := 0 }

/-- A continuation with every register zero and everything else at reset (R90, R319; log entry 2). -/
def Cont.zero (cid : Nat) : Cont :=
  { cid, part := 0, image := false, s := Vector.replicate 64 0, os := Vector.replicate 8 0, ls := 0
    va := VFile.zero, vb := VFile.zero, p := Vector.replicate 48 0, bt := Vector.replicate 16 0
    lc := Vector.replicate 2 0, t := Vector.replicate 32 0, tpoison := 0, rpoison := []
    f := Vector.replicate 32 0, qs := [], qa := [], qb := [], loads := [], acc := []
    strm := Vector.replicate 8 none, cstat := 0, tvec := 0, tpc := 0, tcause := 0, tinfo := 0, tags := 0
    padm := 0, ts := 0, vflaga := 0, vflagb := 0, err := Vector.replicate 4 0
    status := Vector.replicate 64 statusReset, busy := 0, pc := 0, pend := [], acyc := 0, owed := 0, order := 0
    bmap := Vector.replicate 256 ⟨0, false, false, 0⟩, mon := none, recheck := false, barrier := none
    barWait := none, team := none, give := none, fused := none, fusing := none
    send := Vector.replicate 16 none, recv := Vector.replicate 16 none, sendAt := Vector.replicate 16 0
    recvAt := Vector.replicate 16 0, info := none, stopped := false
    remote := [], asked := none, given := [], seen := [], parks := [], fences := [], drains := [] }

/-- A core after reset (R340, R357, R358, R360). -/
def CoreSt.zero : CoreSt :=
  { cont := Cont.zero 0, keep := none, stale := none, kwords := [], phase := .vacant, preempt := false, tent := tentReset, rplcnt := rplReset
    tmrcnt := 0, snapcnt := 0, held := Vector.replicate 32 0, heldOvf := false, votes := [], clk := 0, holds := [], code := [], codeBad := [], inBuf := []
    braked := false, failed := false, gated := true, stretchEnd := 0, windowEnd := 65536 }

/-- A bank after reset (R155, R158). -/
def BankSt.zero : BankSt :=
  { q := [], clear := 0, st := .opened, buf := 0, writes := 0, reads := 0, ts := 0, transit := none }

/-- A quadrant after reset (R264, R325). -/
def QuadSt.zero : QuadSt :=
  { slottab := Vector.ofFn fun q => slotReset q.val, slotNew := Vector.ofFn fun q => slotReset q.val
    moving := [], parks := [], freeb := Vector.replicate 4 0 }

/-- A partition after reset (R231, R330, R331, R394). -/
def PartSt.zero : PartSt :=
  { imgBase := 0, imgV := false, imgN := 0, qmask := 0, prompt := false, table := 0, rise := 64
    queued := false }

/-- A die after reset; it is not powered (R387). -/
def DieSt.zero : DieSt :=
  { resume := [], seating := [], reserved := [], served := 0, credits := [], margin := []
    marginCount := 0, suspects := [], suspectCount := 0, ecc := 0, tlb := [], testTile := 0, testing := false
    poweredDown := true }

/-- A tile after reset. -/
def TileSt.zero : TileSt := { braked := false, failed := false, passed := 0, nodes := [], overflow := false }

/-- A pseudo-channel after reset (R196, R293). -/
def HomeSt.zero : HomeSt :=
  { reqs := [], openRows := [], counters := [], owed := [], postponed := 0, hot := 0, jobs := [], suspended := false
    steps := 0, suspensions := 0, neighbours := 0, failedBank := none }

/-- A stone after reset (R357). -/
def StoneSt.zero : StoneSt := { jobs := [], braked := false, running := false, tent := tentReset, rplcnt := rplReset, window := 0 }

/-- What boot finds unless the environment says otherwise: an empty image, signed with a vendor key, every part good, sixteen
switches and no host (log entry 5). -/
def BootPlan.good : BootPlan :=
  { version := 0, image := [], signature := goodSignature, key := goodKey, fused := goodFuse, badStacks := 0
    badBanks := [], switches := List.range 16, badTiles := 0, badStones := 0, node := 0
    host := none, named := [] }

/-- The hub after reset (R363, R370, R376, R379, R382, R384, R385, R388, R390). -/
def HubSt.zero : HubSt :=
  { busyEnd := 0, lerr := 0, rlim := 8, node := 0, lock := false, timeMaster := 0, offs := 0, reddl := 0
    thresh := 4096, ltest := ltestReset, qdbase := 0, inval := 1048576, accA := 0, accB := 0, chg := true, pwr := 4
    dbg := 0, sec := .locked, pend := none, pagerent := Vector.replicate 4 0, rowlog := Vector.replicate 8 0
    stktest := Vector.replicate 8 stkReset, act := Vector.replicate 4096 0, descriptor := List.replicate 256 0
    timeOff := 0, slewFrom := 0, slewBy := 0, seqs := [], expect := [], out := [], early := [], stalled := [], awaits := [], epochs := [], contexts := [], unsure := [], measurement := 0
    version := 0, plan := BootPlan.good, booted := false, token := none, nonces := [], lastPass := Vector.replicate 64 0 }

/-- The machine right after power-on reset: Locked, Off, D3, with only the hub powered (R387, R388). -/
def State.reset : State :=
  { mem := [], empties := [], poisoned := [], cores := Vector.replicate 256 CoreSt.zero
    banks := Vector.replicate 4096 BankSt.zero, quads := Vector.replicate 16 QuadSt.zero
    parts := Vector.replicate 16 PartSt.zero, dies := Vector.replicate 4 DieSt.zero
    tiles := Vector.replicate 64 TileSt.zero, barriers := [], releases := [], spawned := [], reports := [], nextId := 1, free := 0
    clock := 0, focus := 0, homes := Vector.replicate 512 HomeSt.zero
    memStacks := Vector.replicate 8 ⟨none, 0, false⟩, stones := Vector.replicate 64 StoneSt.zero, jobs := []
    faults := [], invals := [], hub := HubSt.zero, agenda := [] }

end Sys2Proof.Machine
end

