-- ==== Sys2Proof/Machine/Flags.lean ====
section
/-! DEFINITION. Every flag and condition: comparison conditions (R99, R121), sticky flags (R41, R42),
counting flags (R251), the fields of CSTAT, TCAUSE, TENT, RPLCNT and PADM, and R2's access rules. -/

namespace Sys2Proof.Machine

/-- An integer comparison (R99, R121). -/
def condHolds {n : Nat} (c : Cond) (a b : BitVec n) : Bool :=
  match c with
  | .eq => a == b
  | .ne => a != b
  | .lt => a.slt b
  | .le => a.sle b
  | .ltu => a.ult b
  | .leu => a.ule b
  | .gt => b.slt a
  | .ge => b.sle a

/-- A predicate that holds in every bit or in none (R99). -/
def allBits (b : Bool) : W64 := if b then BitVec.allOnes 64 else 0

/-- A condition tree's leaf (R109), from its four tests. -/
def leafOf (shape : Shape) (t1 t2 t3 t4 : Bool) : Nat :=
  match shape with
  | .chain => if t1 then 1 else if t2 then 2 else if t3 then 3 else if t4 then 4 else 0
  | .pairs => if t1 then (if t2 then 1 else 2) else if t3 then 3 else if t4 then 4 else 0
  | .gate => if t1 then (if t2 then 1 else 2) else if t3 then (if t4 then 3 else 4) else 0

/-- Sticky flags ORed into VFLAGA or VFLAGB (R42). -/
def stick (w : W64) (f : FFlags) : W64 := w ||| f.setWidth 64

/-- An increment of a counting flag: the clamped sum and whether it was clamped (R251). -/
def bump (f : Half) (n : Nat) : Half × Bool :=
  if f.toNat + n ≤ 0xFFFF then (f + BitVec.ofNat 16 n, false) else (0xFFFF, true)

/-- CSTAT.CHK (R67). -/
def cChk (w : W64) : Bool := bitAt w 0
/-- CSTAT.PRIV (R67). -/
def cPriv (w : W64) : Bool := bitAt w 2
/-- CSTAT.FUSED (R67). -/
def cFused (w : W64) : Bool := bitAt w 3
/-- CSTAT with OVF set (R251). -/
def cSetOvf (w : W64) : W64 := w ||| 2
/-- CSTAT with PRIV replaced (R335). -/
def cSetPriv (w : W64) (b : Bool) : W64 := setBits w 2 (bit b)
/-- CSTAT with FUSED replaced (R260). -/
def cSetFused (w : W64) (b : Bool) : W64 := setBits w 3 (bit b)
/-- What an `mtc` leaves in CSTAT: CHK is written, a 1 clears OVF, the rest is read-only (R67). -/
def cWrite (old x : W64) : W64 :=
  setBits (if bitAt x 1 then old &&& ~~~2 else old) 0 (bits x 0 1)

/-- TCAUSE.HND (R336). -/
def tHnd (w : W64) : Bool := bitAt w 9
/-- TCAUSE.PPRIV (R336). -/
def tPpriv (w : W64) : Bool := bitAt w 8
/-- TCAUSE.COUPLED (R336). -/
def tCoupled (w : W64) : Bool := bitAt w 10
/-- What an `mtc` leaves in TCAUSE: PPRIV and CODE are written (R336). -/
def tWrite (old x : W64) : W64 := setBits (setBits old 8 (bits x 8 1)) 0 (bits x 0 5)

/-- What an `mtc` leaves in PADM: its reserved bits read as zero (R114, R2). -/
def padmWrite (x : W64) : W64 := x &&& 0x0000FFFFFFFF000F
/-- What an `mtc` leaves in VFLAGA or VFLAGB (R41, R2). -/
def vflagWrite (x : W64) : W64 := x &&& 0x1F

/-- PADM.EN (R114). -/
def padEn (w : W64) : Bool := bitAt w 0
/-- PADM.LANES (R114). -/
def padLanes (w : W64) : Bool := bitAt w 1
/-- PADM.AXIS (R114). -/
def padAxis (w : W64) : Nat := (bits w 2 2).toNat
/-- PADM.BUCKET (R114). -/
def padBucket (w : W64) : Nat := (bits w 16 16).toNat
/-- PADM.VALID (R114). -/
def padValid (w : W64) : Nat := (bits w 32 16).toNat

/-- Lane `i` is a padding lane (R118). -/
def padLane (padm : W64) (i : Nat) : Bool :=
  padEn padm && padLanes padm && decide (padBucket padm ≤ 64) &&
    decide (padValid padm < padBucket padm) && decide (padValid padm ≤ i)

/-- Position `i` of an axis with extent `n` is padding (R114). -/
def padPos (padm : W64) (axis n i : Nat) : Bool :=
  padEn padm && padAxis padm == axis && padBucket padm == n &&
    decide (padValid padm < padBucket padm) && decide (padValid padm ≤ i)

/-- TENT.OFFSET (R357). -/
def tentOff (w : W64) : Nat := (bits w 0 5).toNat
/-- TENT.STRETCH (R357). -/
def tentStretch (w : W64) : Bool := bitAt w 5
/-- TENT.SWOFF (R357). -/
def tentSwoff (w : W64) : BitVec 5 := bits w 8 5
/-- TENT with OFFSET and STRETCH replaced by the hardware (R358, R359, R390). -/
def tentSet (w : W64) (off : Nat) (stretch : Bool) : W64 :=
  setBits (setBits w 0 (BitVec.ofNat 5 off)) 5 (bit stretch)
/-- A software write of TENT: OFFSET, STRETCH and SWOFF (R357). -/
def tentWrite (old x : W64) : W64 :=
  setBits (setBits (setBits old 0 (bits x 0 5)) 5 (bits x 5 1)) 8 (bits x 0 5)
/-- TENT with BRAKED replaced (R353). -/
def tentBrake (w : W64) (b : Bool) : W64 := setBits w 16 (bit b)

/-- RPLCNT.LIMIT (R358). -/
def rplLimit (w : W64) : Nat := (bits w 0 4).toNat
/-- RPLCNT.WIN (R358). -/
def rplWin (w : W64) : Nat := (bits w 8 4).toNat
/-- A software write of RPLCNT: LIMIT, a written 0 stored as 1; WIN, which never exceeds LIMIT, comes down with it (R358). -/
def rplWrite (old x : W64) : W64 :=
  let limit : BitVec 4 := if bits x 0 4 = 0 then 1 else bits x 0 4
  setBits (setBits old 0 limit) 8 (BitVec.ofNat 4 (min (rplWin old) limit.toNat))
/-- RPLCNT.TOTAL advanced by one, saturating (R358). -/
def rplTotal (w : W64) : W64 :=
  if bits w 32 32 = BitVec.allOnes 32 then w else setBits w 32 (bits w 32 32 + 1)
/-- RPLCNT.ESC advanced by one, saturating (R358). -/
def rplEsc (w : W64) : W64 :=
  if bits w 24 8 = BitVec.allOnes 8 then w else setBits w 24 (bits w 24 8 + 1)

/-- SNAPCNT after a freeze that captured `n` entries (R340). -/
def snapNote (w : W64) (n : Nat) : W64 :=
  let mx := if (bits w 8 8).toNat < n then BitVec.ofNat 8 n else bits w 8 8
  setBits (setBits w 8 mx) 0 (BitVec.ofNat 7 n)

end Sys2Proof.Machine
end

