-- ==== Sys2Proof/Machine/Operands.lean ====
section
/-! DEFINITION. The operand forms (R57-R63): which registers a specifier names, what reading one gives
(R60), what each instruction reads, writes, pops and claims (R64, R80), and every instruction's guard. -/

namespace Sys2Proof.Machine

/-- A vector with one element replaced. -/
def vset {α : Type} {n : Nat} (v : Vector α n) (i : Fin n) (x : α) : Vector α n := v.set i.val x i.isLt

/-- A small unsigned number read as an index below `n + 1`. -/
def fin (n : Nat) (x : Nat) : Fin (n + 1) := Fin.ofNat (n + 1) x

/-- The register file of a cluster. -/
def Cont.file (k : Cont) : Cluster → VFile
  | .a => k.va
  | .b => k.vb

/-- The other cluster. -/
def otherCl : Cluster → Cluster
  | .a => .b
  | .b => .a

/-- The slot that executes a cluster's instructions. -/
def clSlot : Cluster → Slot
  | .a => .v0
  | .b => .v1

/-- The cluster whose slots may name predicate `p`, stream `z` (R59). -/
def clusterOfPred (p : Fin 48) : Cluster := if p.val < 24 then .a else .b
/-- The cluster of a stream (R59). -/
def clusterOfStream (z : Fin 8) : Cluster := if z.val < 4 then .a else .b

/-- A slot's index in TINFO (R52). -/
def slotIx : Slot → Nat
  | .s => 0 | .v0 => 1 | .v1 => 2 | .l => 3 | .k => 4 | .t => 5 | .c => 6 | .y => 7

/-- The base bit of a slot (R52). -/
def slotBase (x : Slot) : Nat := 60 * slotIx x

/-- The slots in the order in which they are checked (R70). -/
def allSlots : List Slot := [.s, .v0, .v1, .l, .k, .t, .c, .y]

/-- The register that a scalar specifier names, if any. -/
def specRegS : Spec → Option Reg
  | .main i => some (.s i)
  | .opf i => some (.os i)
  | .ls => some .ls
  | .la => some (.la .a)
  | .lb => some (.la .b)
  | _ => none

/-- The register that a vector slot's specifier names, if any. -/
def specRegV (cl : Cluster) : Spec → Option Reg
  | .main i => some (.v cl i)
  | .opf i => some (.o cl i)
  | .ls => some .ls
  | .la => some (.la .a)
  | .lb => some (.la .b)
  | _ => none

/-- The register that a value of the K data map names, if any. -/
def kReg : KData → Option Reg
  | .s i => some (.s i)
  | .v i => some (.v .a i)
  | .w i => some (.v .b i)
  | .ls => some .ls
  | .la => some (.la .a)
  | .lb => some (.la .b)
  | _ => none

/-- The load-data queue or stream that a value of the K data map pops, as a specifier. -/
def kSpec : KData → Spec
  | .qs => .qs | .qa => .qa | .qb => .qb
  | .z i => .z i
  | _ => .zero

/-- The specifier of a register in TINFO (R71, R338): its specifier of R57, or its index. -/
def Reg.code : Reg → Byte
  | .s i | .v _ i => BitVec.ofNat 8 i.val
  | .os i | .o _ i => BitVec.ofNat 8 (0x40 + i.val)
  | .ls => 0x80
  | .la .a => 0x81
  | .la .b => 0x82
  | .p i => BitVec.ofNat 8 i.val
  | .bt i => BitVec.ofNat 8 i.val
  | .t i _ | .field i _ => BitVec.ofNat 8 i.val
  | .padm => 6
  | .strm z _ => BitVec.ofNat 8 (0x90 + z.val)

/-- A 64-bit value in the low bits of a vector register. -/
def wide (x : W64) : VReg := x.setWidth 2048

/-- The data at the head of a queue; an empty queue gives zero, which no executing slot reads (R77). -/
def headData (q : List QEntry) : VReg :=
  match q with
  | [] => 0
  | e :: _ => e.data

/-- The element at the head of an input stream. -/
def Cont.elem (k : Cont) (z : Fin 8) : Option Elem := (k.strm[z]).bind fun b => b.buf.head?

/-- Reading a register as it stands (R78). -/
def Cont.get (k : Cont) : Reg → VReg
  | .s i => wide k.s[i]
  | .os i => wide k.os[i]
  | .ls => wide k.ls
  | .v cl i => (k.file cl).r[i]
  | .o cl i => (k.file cl).o[i]
  | .la cl => (k.file cl).last
  | .p i => wide k.p[i]
  | .bt i => (k.bt[i]).setWidth 2048
  | .t i hi => (bits k.t[i] (if hi then 128 else 0) 128).setWidth 2048
  | .field _ _ => 0
  | .padm => wide k.padm
  | .strm _ _ => 0

/-- A scalar operand (R58-R60): constants are sign-extended, la and lb give lanes 1 and 0. -/
def Cont.scalar (k : Cont) : Spec → W64
  | .main i => k.s[i]
  | .opf i => k.os[i]
  | .ls => k.ls
  | .la => bits k.va.last 0 64
  | .lb => bits k.vb.last 0 64
  | .qs => bits (headData k.qs) 0 64
  | .const c => c.signExtend 64
  | _ => 0

/-- A vector operand (R58-R60): ls and constants are broadcast; an instruction that reads FP32 (`fp`)
receives a constant converted exactly. -/
def Cont.vector (k : Cont) (cl : Cluster) (fp : Bool) : Spec → VReg
  | .main i => (k.file cl).r[i]
  | .opf i => (k.file cl).o[i]
  | .ls => splat (bits k.ls 0 32)
  | .la => k.va.last
  | .lb => k.vb.last
  | .qa => headData k.qa
  | .qb => headData k.qb
  | .z i => ((k.elem i).map Elem.data).getD 0
  | .const c => splat (if fp then (f32OfInt .rne c.toInt).1 else c.signExtend 32)
  | _ => 0

/-- A value of the K data map, scalars in the low 64 bits (R148). -/
def Cont.kdata (k : Cont) : KData → VReg
  | .s i => wide k.s[i]
  | .v i => k.va.r[i]
  | .w i => k.vb.r[i]
  | .ls => wide k.ls
  | .la => k.va.last
  | .lb => k.vb.last
  | .qs => headData k.qs
  | .qa => headData k.qa
  | .qb => headData k.qb
  | .z i => ((k.elem i).map Elem.data).getD 0
  | .zero => 0

/-- The predicate test of a slot other than V0 and V1 (R54). -/
def Cont.guardBit (k : Cont) (g : Guard) : Bool :=
  match g.pred with
  | none => true
  | some p => bitAt k.p[p] 0 != g.neg

/-- The guard mask of a vector slot (R54). -/
def Cont.guardMask (k : Cont) (g : Guard) : W64 :=
  match g.pred with
  | none => BitVec.allOnes 64
  | some p => if g.neg then ~~~k.p[p] else k.p[p]

/-- The enable set E of a vector slot (R118). -/
def Cont.enable (k : Cont) (g : Guard) : W64 :=
  let m := k.guardMask g
  ofMask fun i => bitAt m i && !padLane k.padm i

/-- A test of a condition tree (R108). -/
def Cont.test (k : Cont) (t : Test) : Bool := bitAt k.p[fin 47 t.p.toNat] 0 != t.neg

/-- The leaf that a bundle's tree takes (R109): tests beyond COUNT are false. -/
def Cont.leaf (k : Cont) (shape : Shape) (t1 t2 t3 t4 : Test) (count : BitVec 2) : Nat :=
  let n := if count = 0 then 4 else count.toNat
  leafOf shape (k.test t1) (decide (2 ≤ n) && k.test t2) (decide (3 ≤ n) && k.test t3)
    (decide (4 ≤ n) && k.test t4)

/-- What one instruction reads and writes: registers read as sources, registers and predicates written,
descriptors written, control registers written, streams read or written, descriptors named (T and C). -/
structure Use where
  reads : List Reg := []
  writes : List Reg := []
  pops : List Spec := []
  streams : List (Fin 8 × Bool) := []
  descs : List (Fin 32) := []
  ctl : List Byte := []
  names : List (Fin 32) := []

/-- The registers among scalar sources. -/
def regsS (xs : List Spec) : List Reg := xs.filterMap specRegS
/-- The registers among a vector slot's sources. -/
def regsV (cl : Cluster) (xs : List Spec) : List Reg := xs.filterMap (specRegV cl)
/-- The queues among sources. -/
def queuesOf (xs : List Spec) : List Spec := xs.filter fun x => x == .qs || x == .qa || x == .qb
/-- The input streams among sources. -/
def streamsOf (xs : List Spec) : List (Fin 8 × Bool) :=
  xs.filterMap fun x => match x with | .z i => some (i, false) | _ => none

/-- The use of a scalar instruction. -/
def useS (d : List Spec) (xs : List Spec) : Use :=
  { reads := regsS xs, writes := regsS d, pops := queuesOf xs }

/-- The use of a vector instruction with a register or stream result. -/
def useV (cl : Cluster) (d : Spec) (xs : List Spec) : Use :=
  { reads := regsV cl xs, writes := (specRegV cl d).toList, pops := queuesOf xs,
    streams := streamsOf xs ++ (match d with | .z i => [(i, true)] | _ => []) }

/-- The use of a vector instruction with a predicate result. -/
def useVP (cl : Cluster) (pd : Fin 48) (xs : List Spec) : Use :=
  { reads := regsV cl xs, writes := [.p pd], pops := queuesOf xs, streams := streamsOf xs }

/-- The use of an instruction with K data. -/
def useK (x : KData) (xs : List Spec) : Use :=
  { reads := (kReg x).toList ++ regsS xs, pops := queuesOf [kSpec x], streams := streamsOf [kSpec x] }

/-- The use of a tile operation: the descriptors it names (R210). -/
def tileNames (op : TileOp) (o : TOps) : List (Fin 32) :=
  match op with
  | .add | .sub | .mul | .max | .min => [o.dst, o.a, o.b]
  | .abs | .cvt | .red => [o.dst, o.a]
  | .fill => [o.dst, o.a]
  | .scl | .lut => [o.dst, o.a, o.c]
  | .sel => [o.dst, o.a, o.b, o.c]
  | .mma | .spm => if bitAt o.mod 3 then [o.dst, o.a, o.b, o.c] else [o.dst, o.a, o.b]

/-- What each slot instruction uses (R64, R80, R393); an event uses nothing here. -/
def instrUse : Instr → Use
  | .add _ d a b | .sub _ d a b | .and _ d a b | .or _ d a b | .xor _ d a b | .shl _ d a b
  | .shr _ d a b | .sar _ d a b | .mul _ d a b | .mulh _ d a b | .mulhu _ d a b | .min _ d a b
  | .max _ d a b | .minu _ d a b | .maxu _ d a b => useS [d] [a, b]
  | .addi _ d a _ | .andi _ d a _ | .ori _ d a _ | .xori _ d a _ | .shli _ d a _ | .shri _ d a _
  | .sari _ d a _ => useS [d] [a]
  | .lea _ d a _ _ => useS [d] [a]
  | .li _ d _ => useS [d] []
  | .lui _ d _ => useS [d] [d]
  | .clz _ d a | .popc _ d a => useS [d] [a]
  | .bfx _ d a _ _ _ => useS [d] [a]
  | .bfi _ d a b _ _ => useS [d] [a, b]
  | .sel _ d a b p => { useS [d] [a, b] with reads := regsS [a, b] ++ [.p p] }
  | .cmp _ pd a b _ => { useS [] [a, b] with writes := [.p pd] }
  | .cmpi _ pd a _ _ => { useS [] [a] with writes := [.p pd] }
  | .pand _ pd pa pb | .por _ pd pa pb | .pxor _ pd pa pb | .pandn _ pd pa pb =>
    { reads := [.p pa, .p pb], writes := [.p pd] }
  | .pset _ pd a => { useS [] [a] with writes := [.p pd] }
  | .vext _ d src _ _ => useS [d] [src]
  | .mfc _ d n =>
    if n.toNat < 64 then useS [d] []
    else match d with
      | .main i => { writes := [.s i, .s (i + 1)] }
      | _ => useS [d] []
  | .mtc _ n a => { useS [] [a] with ctl := [n] }
  | .setbtAddr _ n _ => { writes := [.bt n] }
  | .setbtReg _ n a => { useS [] [a] with writes := [.bt n] }
  | .tset _ t _ a => { useS [] [a] with descs := [t] }
  | .tget _ d _ _ => useS [d] []
  | .vadd _ cl d a b | .vsub _ cl d a b | .vmul _ cl d a b | .vmulh _ cl d a b | .vmin _ cl d a b
  | .vmax _ cl d a b | .vand _ cl d a b | .vor _ cl d a b | .vxor _ cl d a b | .vshl _ cl d a b
  | .vshr _ cl d a b | .vsar _ cl d a b | .vadds _ cl d a b | .vsubs _ cl d a b | .vminu _ cl d a b
  | .vmaxu _ cl d a b | .fmin _ cl d a b | .fmax _ cl d a b | .vperm _ cl d a b =>
    useV cl d [a, b]
  | .fadd _ cl d a b _ | .fsub _ cl d a b _ | .fmul _ cl d a b _ | .fdiv _ cl d a b _ => useV cl d [a, b]
  | .vpack _ cl d a b _ _ => useV cl d [a, b]
  | .vsel _ cl d a b p => { useV cl d [a, b] with reads := regsV cl [a, b] ++ [.p p] }
  | .fma _ cl d a b c _ | .fms _ cl d a b c _ | .fnma _ cl d a b c _ => useV cl d [a, b, c]
  | .vabs _ cl d a | .vneg _ cl d a | .fabs _ cl d a | .fneg _ cl d a | .frcp _ cl d a | .frsq _ cl d a
  | .fclass _ cl d a | .vmov _ cl d a => useV cl d [a]
  | .fsqrt _ cl d a _ => useV cl d [a]
  | .cvt _ cl d a _ _ _ => useV cl d [a]
  | .vunpk _ cl d a _ _ => useV cl d [a]
  | .plext _ cl d a _ _ _ => useV cl d [a]
  | .plins _ cl d a _ _ _ _ =>
    { useV cl d [a] with reads := regsV cl [a, d], streams := streamsOf [a] ++ (streamsOf [d]).flatMap fun z => [z, (z.1, true)] }
  | .vbcast _ cl d a _ | .vrot _ cl d a _ => useV cl d [a]
  | .vbfly _ cl d a _ => useV cl d [a]
  | .vins _ cl d a _ => useV cl d [a]
  | .vli _ cl d _ => useV cl d []
  | .viota _ cl d _ _ => useV cl d []
  | .vradd _ cl d a pm _ => { useV cl d [a] with reads := regsV cl [a] ++ (pm.map Reg.p).toList }
  | .vrmax _ cl d a pm | .vrmin _ cl d a pm | .frmax _ cl d a pm | .frmin _ cl d a pm =>
    { useV cl d [a] with reads := regsV cl [a] ++ (pm.map Reg.p).toList }
  | .frsum _ cl d a pm _ => { useV cl d [a] with reads := regsV cl [a] ++ (pm.map Reg.p).toList }
  | .vfromp _ cl d p => { useV cl d [] with reads := [.p p] }
  | .vcmp _ cl pd a b _ => useVP cl pd [a, b]
  | .fcmp _ cl pd a b _ => useVP cl pd [a, b]
  | .vtop _ cl pd a => useVP cl pd [a]
  | .xmov _ cl d a => { useV cl .none [a] with writes := (specRegV (otherCl cl) d).toList }
  | .ld _ base index _ _ _ _ q =>
    match q with
    | .desc t _ => { useS [] [base] with descs := [t] }
    | _ => useS [] [base, index]
  | .lde _ base index _ _ _ _ | .ldf _ base index _ _ _ _ => useS [] [base, index]
  | .ldx _ e _ _ => { reads := [.s e, .s (e + 1)] }
  | .amo _ base val op _ _ => useS [] ([base, val] ++ (match op with | .cas e => [e] | _ => []))
  | .lbst _ base _ _ => useS [] [base]
  | .st _ base src _ _ _ =>
    match src with
    | .data x => useK x [base]
    | .desc _ _ => useS [] [base]
  | .stf _ base src _ _ | .ste _ base src _ _ => useK src [base]
  | .stx _ e src _ _ => { useS [] [src] with reads := [.s e, .s (e + 1)] ++ regsS [src] }
  | .bst _ base _ _ _ => useS [] [base]
  | .stm _ base src _ _ _ p =>
    let u := useK src [base]
    { u with reads := u.reads ++ [.p p] }
  | .tadd _ o => { names := tileNames .add o }
  | .tsub _ o => { names := tileNames .sub o }
  | .tmul _ o => { names := tileNames .mul o }
  | .tmax _ o => { names := tileNames .max o }
  | .tmin _ o => { names := tileNames .min o }
  | .tabs _ o => { names := tileNames .abs o }
  | .tcvt _ o => { names := tileNames .cvt o }
  | .tscl _ o => { names := tileNames .scl o }
  | .tfill _ o => { names := tileNames .fill o }
  | .tsel _ o => { names := tileNames .sel o }
  | .tlut _ o => { names := tileNames .lut o }
  | .tred _ o => { names := tileNames .red o }
  | .tmma _ o => { names := tileNames .mma o }
  | .tspm _ o => { names := tileNames .spm o }
  | .place _ op o => { names := tileNames op o }
  | .cpy _ o | .flume _ o | .wstat _ o => { names := [o.dst, o.src] }
  | .gath _ o | .scat _ o | .mcast _ o | .wsa _ o | .wred _ o => { names := [o.dst, o.src, o.aux] }
  | .strm _ t _ _ _ _ _ => { names := [t] }
  | .catom _ o _ => { names := [o.dst, o.src, o.aux] }
  | .redf _ o _ => { names := [o.dst, o.src, o.aux] }
  | .hot _ o _ => { names := [o.dst, o.src] }
  | .tlbi _ a _ _ _ => useS [] [a]
  | .tree _ _ t1 t2 t3 t4 _ count =>
    let n := if count = 0 then 4 else count.toNat
    { reads := ([t1, t2, t3, t4].take n).map fun t => Reg.p (fin 47 t.p.toNat) }
  | .callBt _ k _ => { writes := [.bt k] }
  | .callAddr _ k _ => { writes := [.bt k] }
  | .loopSet _ _ a => useS [] [a]
  | .bsel _ d a b => { useS [d] [a, b] with ctl := [6] }
  | .post _ _ tgt _ _ =>
    match tgt with
    | .own => {}
    | .core x | .node x => useS [] [x]
  | .waitany _ a | .waitall _ a => useS [] [a]
  | .ffr _ d a => useS [d] [a]
  | .watch _ base => useS [] [base]
  | .waitm _ d => useS [d] []
  | .send _ x core => useK x [core]
  | .recv _ d core => { useS [] [core] with writes := (kReg d).toList }
  | .give _ _ core _ _ _ => useS [] [core]
  | .spawn _ d q r => useS [d] [q, r]
  | .suspendQueue _ q _ | .suspendWatch _ q _ => useS [] [q]
  | .suspendFlag _ q _ _ _ => useS [] [q]
  | .tstamp _ d | .tstampHub _ d => useS [d] []
  | .tstampSet _ a => { useS [] [a] with ctl := [7] }
  | .cmptScalar _ a b => { reads := regsS [a, b], pops := queuesOf [a, b] }
  | .cmptVector _ a b m =>
    { reads := (kReg a).toList ++ (kReg b).toList ++ (m.map Reg.p).toList, pops := queuesOf [kSpec a, kSpec b] }
  | .brake _ _ t | .brakeClear _ _ t => useS [] [t]
  | _ => {}

/-- The guard of a slot instruction and the slot it stands in; an event has neither. -/
def instrSlot : Instr → Option (Slot × Guard)
  | .nop g | .add g _ _ _ | .sub g _ _ _ | .and g _ _ _ | .or g _ _ _ | .xor g _ _ _ | .shl g _ _ _
  | .shr g _ _ _ | .sar g _ _ _ | .mul g _ _ _ | .mulh g _ _ _ | .mulhu g _ _ _ | .min g _ _ _
  | .max g _ _ _ | .minu g _ _ _ | .maxu g _ _ _ | .addi g _ _ _ | .andi g _ _ _ | .ori g _ _ _
  | .xori g _ _ _ | .shli g _ _ _ | .shri g _ _ _ | .sari g _ _ _ | .lea g _ _ _ _ | .li g _ _
  | .lui g _ _ | .clz g _ _ | .popc g _ _ | .bfx g _ _ _ _ _ | .bfi g _ _ _ _ _ | .sel g _ _ _ _
  | .cmp g _ _ _ _ | .cmpi g _ _ _ _ | .pand g _ _ _ | .por g _ _ _ | .pxor g _ _ _ | .pandn g _ _ _
  | .pset g _ _ | .vext g _ _ _ _ | .mfc g _ _ | .mtc g _ _ | .setbtAddr g _ _ | .setbtReg g _ _
  | .tset g _ _ _ | .tget g _ _ _ => some (.s, g)
  | .vnop g cl | .vadd g cl _ _ _ | .vsub g cl _ _ _ | .vmul g cl _ _ _ | .vmulh g cl _ _ _
  | .vmin g cl _ _ _ | .vmax g cl _ _ _ | .vand g cl _ _ _ | .vor g cl _ _ _ | .vxor g cl _ _ _
  | .vshl g cl _ _ _ | .vshr g cl _ _ _ | .vsar g cl _ _ _ | .vabs g cl _ _ | .vneg g cl _ _
  | .vcmp g cl _ _ _ _ | .vadds g cl _ _ _ | .vsubs g cl _ _ _ | .vminu g cl _ _ _ | .vmaxu g cl _ _ _
  | .fadd g cl _ _ _ _ | .fsub g cl _ _ _ _ | .fmul g cl _ _ _ _ | .fma g cl _ _ _ _ _
  | .fms g cl _ _ _ _ _ | .fnma g cl _ _ _ _ _ | .fmin g cl _ _ _ | .fmax g cl _ _ _ | .fabs g cl _ _
  | .fneg g cl _ _ | .fdiv g cl _ _ _ _ | .fsqrt g cl _ _ _ | .frcp g cl _ _ | .frsq g cl _ _
  | .fcmp g cl _ _ _ _ | .fclass g cl _ _ | .cvt g cl _ _ _ _ _ | .vpack g cl _ _ _ _ _
  | .vunpk g cl _ _ _ _ | .plext g cl _ _ _ _ _ | .plins g cl _ _ _ _ _ _ | .vmov g cl _ _
  | .vsel g cl _ _ _ _ | .vli g cl _ _ | .viota g cl _ _ _ | .vbcast g cl _ _ _ | .vperm g cl _ _ _
  | .vrot g cl _ _ _ | .vbfly g cl _ _ _ | .vradd g cl _ _ _ _ | .vrmax g cl _ _ _ | .vrmin g cl _ _ _
  | .frsum g cl _ _ _ _ | .frmax g cl _ _ _ | .frmin g cl _ _ _ | .xmov g cl _ _ | .vins g cl _ _ _
  | .vfromp g cl _ _ | .vtop g cl _ _ => some (clSlot cl, g)
  | .lnop g | .ld g _ _ _ _ _ _ _ | .lde g _ _ _ _ _ _ | .ldf g _ _ _ _ _ _ | .ldx g _ _ _
  | .amo g _ _ _ _ _ | .lbst g _ _ _ => some (.l, g)
  | .knop g | .st g _ _ _ _ _ | .stf g _ _ _ _ | .ste g _ _ _ _ | .stx g _ _ _ _ | .bst g _ _ _ _
  | .stm g _ _ _ _ _ _ => some (.k, g)
  | .tnop g | .tadd g _ | .tsub g _ | .tmul g _ | .tmax g _ | .tmin g _ | .tabs g _ | .tcvt g _
  | .tscl g _ | .tfill g _ | .tsel g _ | .tlut g _ | .tred g _ | .tmma g _ | .tspm g _
  | .place g _ _ => some (.t, g)
  | .cnop g | .cpy g _ | .gath g _ | .scat g _ | .mcast g _ | .flume g _ | .strm g _ _ _ _ _ _
  | .unstrm g _ _ _ _ _ | .catom g _ _ | .wsa g _ | .wred g _ | .wstat g _ | .redf g _ _ | .hot g _ _
  | .tlbi g _ _ _ _ => some (.c, g)
  | .ynop g | .tree g _ _ _ _ _ _ _ | .jmpBt g _ | .jmpAddr g _ | .callBt g _ _ | .callAddr g _ _
  | .ret g _ | .loop g _ _ | .loopSet g _ _ | .bsel g _ _ _ | .post g _ _ _ _ | .waitf g _ _ _
  | .waitany g _ | .waitall g _ | .ffr g _ _ | .bar g _ | .watch g _ | .waitm g _ | .fence g _ _
  | .qfence g _ | .send g _ _ | .recv g _ _ | .give g _ _ _ _ _ | .openw g _ | .closew g _ | .fuse g _
  | .spawn g _ _ _ | .suspendQueue g _ _ | .suspendFlag g _ _ _ _ | .suspendWatch g _ _ | .yield g
  | .done g | .tstamp g _ | .tstampHub g _ | .tstampSet g _ | .cmptScalar g _ _ | .cmptVector g _ _ _
  | .trap g _ | .rft g | .idle g | .brake g _ _ | .brakeClear g _ _ => some (.y, g)
  | _ => none

/-! ### Registers written whole or in part -/

/-- The lanes of `new` selected by `m`, the others of `old`. -/
def mergeLanes (m : W64) (new old : VReg) : VReg := ofLanes fun i => if bitAt m i then lane new i else lane old i

/-- The bits of `new` selected by `m`, the others of `old`. -/
def mergeBits (m new old : W64) : W64 := (new &&& m) ||| (old &&& ~~~m)

/-- The bit ranges of the descriptor fields (R104): the low bit and the width. -/
def fieldPos (f : Fin 16) : Nat × Nat :=
  ([(0, 64), (64, 2), (66, 6), (72, 2), (74, 16), (90, 16), (106, 16), (122, 16), (138, 24), (162, 24),
    (186, 24), (210, 8), (218, 4), (222, 5), (227, 5), (232, 2)] : List (Nat × Nat)).getD f.val (0, 0)

/-- A descriptor field, zero-extended (R104). -/
def getField (t : Desc) (f : Fin 16) : W64 := bits (t >>> (fieldPos f).1) 0 (fieldPos f).2 |>.setWidth 64

/-- A descriptor with one field replaced by the low bits of `x` (R104). -/
def setField (t : Desc) (f : Fin 16) (x : W64) : Desc :=
  let (lo, n) := fieldPos f
  setBits t lo (bits x 0 n)

/-- A cluster's file replaced. -/
def Cont.setFile (k : Cont) (cl : Cluster) (x : VFile) : Cont :=
  match cl with
  | .a => { k with va := x }
  | .b => { k with vb := x }

/-- The whole value of a register after lanes or bits `m` of it are written (R118). -/
def Cont.put (k : Cont) (r : Reg) (m : W64) (x : VReg) : Cont :=
  match r with
  | .s i => { k with s := vset k.s i (bits x 0 64) }
  | .os i => { k with os := vset k.os i (bits x 0 64) }
  | .ls => { k with ls := bits x 0 64 }
  | .v cl i => let f := k.file cl; k.setFile cl { f with r := vset f.r i (mergeLanes m x f.r[i]) }
  | .o cl i => let f := k.file cl; k.setFile cl { f with o := vset f.o i (mergeLanes m x f.o[i]) }
  | .la cl => let f := k.file cl; k.setFile cl { f with last := mergeLanes m x f.last }
  | .p i => { k with p := vset k.p i (mergeBits m (bits x 0 64) k.p[i]) }
  | .bt i => { k with bt := vset k.bt i (bits x 0 32) }
  | .t i hi => { k with t := vset k.t i (setBits k.t[i] (if hi then 128 else 0) (bits x 0 128)) }
  | .field i f => { k with t := vset k.t i (setField k.t[i] f (bits x 0 64)) }
  | .padm => { k with padm := padmWrite (bits x 0 64) }
  | .strm z n =>
    let f (b : Binding) : Binding :=
      { b with buf := b.buf.map fun e => if e.n = n then { e with data := x, ready := true } else e }
    { k with strm := vset k.strm z ((k.strm[z]).map f), drains := k.drains.map fun d => (d.1, d.2.1, f d.2.2) }

end Sys2Proof.Machine
end

