-- ==== Sys2Proof/Machine/Image.lean ====
section
/-! DEFINITION. The context image in a keep bank as words of eight bytes (R341, R342): which part of a frozen
continuation each word is, and what a word written to the image makes of it when it is restored. The places of the parts
that the manual only lists (0x0450 after VFLAGB, the bindings, the queues) are the model's own (log entry 42). -/

namespace Sys2Proof.Machine

/-- The words of eight bytes that a context image takes in its keep bank (R341). -/
def imageWords : Nat := 7504

/-- The words of the image. -/
inductive Word64
  | s (i : Fin 64) | os (i : Fin 8) | ls | p (i : Fin 48) | bt (i : Fin 8) | lc | f (i : Fin 8)
  | cstat | tpc | tcause | tinfo | tags | padm | ts | vflaga | vflagb
  | owed | give | coupling | barrier | monitor | opened (i : Fin 4)
  | status (i : Fin 64) (hi : Bool) | bmap (i : Fin 64) | stream (z : Fin 8) (j : Fin 8) | t (i : Fin 32) (j : Fin 4)
  | qs (i : Fin 16) | heads | valid | bad | parked | qvec (b : Bool) (i : Fin 16) (j : Fin 32)
  | vec (r : Reg) (j : Fin 32)
  | dir (i : Fin 64) (hi : Bool) | snapVec (n : Fin 30) (j : Fin 32) | snapHalf (i : Fin 64) (hi : Bool)
  | tvec | err (i : Fin 4) | zeros
  deriving DecidableEq, Repr

/-- The part of the image at word `w` (R341). -/
def imageWord (w : Nat) : Word64 :=
  if w < 64 then .s (fin 63 w)
  else if w < 72 then .os (fin 7 (w - 64))
  else if w < 73 then .ls
  else if w < 121 then .p (fin 47 (w - 73))
  else if w < 129 then .bt (fin 7 (w - 121))
  else if w < 130 then .lc
  else if w < 138 then .f (fin 7 (w - 130))
  else if w < 152 then
    ([Word64.cstat, .tpc, .tcause, .tinfo, .tags, .padm, .ts, .vflaga, .vflagb, .owed, .give, .coupling, .barrier,
      .monitor]).getD (w - 138) .zeros
  else if w < 156 then .opened (fin 3 (w - 152))
  else if w < 160 then .zeros
  else if w < 288 then .status (fin 63 ((w - 160) / 2)) (w % 2 == 1)
  else if w < 352 then .bmap (fin 63 (w - 288))
  else if w < 416 then .stream (fin 7 ((w - 352) / 8)) (fin 7 (w % 8))
  else if w < 544 then .t (fin 31 ((w - 416) / 4)) (fin 3 (w % 4))
  else if w < 560 then .qs (fin 15 (w - 544))
  else if w < 564 then ([Word64.heads, .valid, .bad, .parked]).getD (w - 560) .zeros
  else if w < 576 then .zeros
  else if w < 1600 then .qvec (decide (1088 ≤ w)) (fin 15 ((w - 576) / 32 % 16)) (fin 31 (w % 32))
  else if w < 1664 then .vec (.la (if w < 1632 then .a else .b)) (fin 31 (w % 32))
  else if w < 2176 then
    let n := (w - 1664) / 32
    .vec (.o (if n < 8 then .a else .b) (fin 7 (n % 8))) (fin 31 (w % 32))
  else if w < 6272 then
    let n := (w - 2176) / 32
    .vec (.v (if n < 64 then .a else .b) (fin 63 (n % 64))) (fin 31 (w % 32))
  else if w < 6400 then .dir (fin 63 ((w - 6272) / 2)) (w % 2 == 1)
  else if w < 7360 then .snapVec (fin 29 ((w - 6400) / 32)) (fin 31 (w % 32))
  else if w < 7488 then .snapHalf (fin 63 ((w - 7360) / 2)) (w % 2 == 1)
  else if w = 7488 then .tvec
  else if w < 7493 then .err (fin 3 (w - 7489))
  else .zeros

/-! ### The snapshot -/

/-- The half of a descriptor in which a field begins (R104). -/
def fieldHi (f : Fin 16) : Bool := decide (128 ≤ (fieldPos f).1)

/-- FILE of a snapshot entry (R341): a field that a `tset` writes shows as the half in which it begins (log entry 42). -/
def Reg.file : Reg → Nat
  | .v .a _ | .o .a _ | .la .a => 1
  | .v .b _ | .o .b _ | .la .b => 2
  | .p _ => 3
  | .t _ _ | .field _ _ => 4
  | .strm _ _ => 5
  | _ => 0

/-- SPEC of a snapshot entry (R341): a stream entry gives its stream's number, a descriptor half its tn with the half in
bit 5; PADM and the branch-target registers have codes that R57 gives no register (log entry 42). -/
def Reg.spec : Reg → Byte
  | .strm z _ => BitVec.ofNat 8 z.val
  | .t i hi => BitVec.ofNat 8 (i.val + 32 * hi.toNat)
  | .field i f => BitVec.ofNat 8 (i.val + 32 * (fieldHi f).toNat)
  | .padm => 0x86
  | .bt i => BitVec.ofNat 8 (0x60 + i.val)
  | r => r.code

/-- The register that FILE and SPEC name, none where they name none; `n` names the element of a stream. -/
def snapReg (file spec n : Nat) : Option Reg :=
  let cl : Cluster := if file = 1 then .a else .b
  match file with
  | 0 =>
    if spec < 0x40 then some (.s (fin 63 spec))
    else if spec < 0x48 then some (.os (fin 7 (spec - 0x40)))
    else if 0x60 ≤ spec ∧ spec < 0x70 then some (.bt (fin 15 (spec - 0x60)))
    else if spec = 0x80 then some .ls
    else if spec = 0x86 then some .padm else none
  | 1 | 2 =>
    if spec < 0x40 then some (.v cl (fin 63 spec))
    else if spec < 0x48 then some (.o cl (fin 7 (spec - 0x40)))
    else if spec = 0x80 + file then some (.la cl) else none
  | 3 => if spec < 48 then some (.p (fin 47 spec)) else none
  | 4 => if spec < 64 then some (.t (fin 31 (spec % 32)) (decide (32 ≤ spec))) else none
  | 5 => if spec < 8 then some (.strm (fin 7 spec) n) else none
  | _ => none

/-- A snapshot entry of a FILE holds a vector. -/
def vecFile (f : Nat) : Bool := f == 1 || f == 2 || f == 5

/-- A snapshot entry holds a vector. -/
def Pend.isVec (p : Pend) : Bool := vecFile p.reg.file

/-- The vector data slot of entry `i`: vector entries take slots in order. -/
def vecSlot (ps : List Pend) (i : Nat) : Nat := (ps.take i).countP Pend.isVec

/-- The entry that a vector data slot belongs to. -/
def slotEntry (ps : List Pend) (n : Nat) : Option Nat :=
  (List.range ps.length).find? fun i => ((ps[i]?).map Pend.isVec) == some true && vecSlot ps i == n

/-- ORDER of a snapshot entry (R341): how many entries were issued earlier. -/
def snapOrder (ps : List Pend) (p : Pend) : Nat := ps.countP fun q => decide (q.order < p.order)

/-- The low word of a directory entry. -/
def dirLow (k : Cont) (i : Nat) : W64 :=
  match k.pend[i]? with
  | none => 0
  | some p =>
    BitVec.ofNat 64 (2 ^ 40 + (if p.isVec then vecSlot k.pend i else 0) * 2 ^ 34 + p.flags.toNat * 2 ^ 29 + p.lr.toNat * 2 ^ 28 +
      snapOrder k.pend p * 2 ^ 20 + (p.due - k.acyc) % 16 * 2 ^ 16 + p.reg.file * 2 ^ 8 + p.reg.spec.toNat)

/-- The descriptor half of a snapshot entry: the one that arrives, or, for a field, the half as the field leaves it. -/
def Cont.snapHalf (k : Cont) (p : Pend) : W128 :=
  match p.reg with
  | .field i f => bits (setField k.t[i] f (bits p.data 0 64)) (if fieldHi f then 128 else 0) 128
  | _ => bits p.data 0 128

/-- The high word of a directory entry. -/
def dirHigh (k : Cont) (i : Nat) : W64 :=
  match k.pend[i]? with
  | none => 0
  | some p => if p.isVec then p.lanes else if p.reg.file = 4 then 0 else bits p.data 0 64

/-! ### BMAP, bindings and queues -/

/-- A BMAP entry's bits [15:0] (R138). -/
def bmapBits (e : BEntry) : Half := e.bank ++ bit e.v ++ bit e.opened ++ e.lat ++ 0#4

/-- The BMAP entry in a word of an image (R138, R341). -/
def bmapOf {n : Nat} (v : BitVec n) : BEntry := ⟨bits v 8 8, bitAt v 7, bitAt v 6, bits v 4 2⟩

/-- Word `j` of a binding's 64 bytes (R161; log entry 42): the fixed fields, BASE, the counts, the strides, POS and the
code of a failed element. -/
def Binding.word (b : Binding) (j : Fin 8) : W64 :=
  match j with
  | 0 => BitVec.ofNat 64 (1 + b.out.toNat * 2 + b.width.toNat * 4 + b.device.toNat * 16 + b.cls.toNat * 32 + b.queue.val * 512)
  | 1 => b.base
  | 2 => BitVec.ofNat 64 (b.counts[0] + b.counts[1] * 2 ^ 16 + b.counts[2] * 2 ^ 32)
  | 3 => BitVec.ofInt 64 b.strides[0]
  | 4 => BitVec.ofInt 64 b.strides[1]
  | 5 => BitVec.ofInt 64 b.strides[2]
  | 6 => BitVec.ofNat 64 b.pos
  | 7 => match b.failure with | none => 0 | some c => BitVec.ofNat 64 (16 + c.toNat)

/-- A binding of which nothing is known but that it stands in an image. -/
def Binding.blank (k : Cont) : Binding :=
  { id := 0, out := false, width := 0, device := false, view := 0, bufNo := 0, base := 0, counts := #v[1, 1, 1], strides := #v[0, 0, 0], pos := 0
    fetched := 0, buf := [], banks := [], cls := 0, queue := 0, part := k.part, padm := k.padm, ts := k.ts, failure := none
    needs := [], after := [] }

/-- A binding with word `j` of its 64 bytes written. -/
def Binding.setWord (b : Binding) (j : Fin 8) (v : W64) : Binding :=
  let n (lo : Nat) : Nat := max 1 (bits v lo 16 : Half).toNat
  match j with
  | 0 => { b with out := bitAt v 1, width := bits v 2 2, device := bitAt v 4, cls := bits v 5 4, queue := fin 3 (bits v 9 2).toNat }
  | 1 => { b with base := v }
  | 2 => { b with counts := #v[n 0, n 16, n 32] }
  | 3 => { b with strides := #v[v.toInt, b.strides[1], b.strides[2]] }
  | 4 => { b with strides := #v[b.strides[0], v.toInt, b.strides[2]] }
  | 5 => { b with strides := #v[b.strides[0], b.strides[1], v.toInt] }
  | 6 => { b with pos := v.toNat, fetched := if b.out then b.fetched else v.toNat }
  | 7 => { b with failure := if bitAt v 4 then some (bits v 0 4) else none }

/-- Sixteen bits of a queue, one for each entry from its head. -/
def queueBits (q : List QEntry) (f : QEntry → Bool) : Nat :=
  leastSum (q.take 16)
where
  leastSum : List QEntry → Nat
    | [] => 0
    | e :: q => (f e).toNat + 2 * leastSum q

/-- One number of each queue in a word: qs in [15:0], qa in [31:16], qb in [47:32]. -/
def queueWord (k : Cont) (f : List QEntry → Nat) : W64 := BitVec.ofNat 64 (f k.qs + f k.qa * 2 ^ 16 + f k.qb * 2 ^ 32)

/-- The queue entry's load is parked at its bank, or was when the image was taken (R152). -/
def Cont.parkedEntry (k : Cont) (e : QEntry) : Bool := k.parks.any fun p => p.2.id == e.id && p.2.parked

/-- A queue with `n` entries: its first, then entries that hold zero. -/
def resize (q : List QEntry) (n : Nat) : List QEntry := q.take n ++ List.replicate (n - q.length) ⟨0, true, 0, none⟩

/-- Entry `i` of each queue changed by its bit of a word of bits. -/
def Cont.queueBitsSet (k : Cont) (v : W64) (f : QEntry → Bool → QEntry) : Cont :=
  { k with qs := k.qs.mapIdx fun i e => f e (bitAt v i), qa := k.qa.mapIdx fun i e => f e (bitAt v (16 + i))
           qb := k.qb.mapIdx fun i e => f e (bitAt v (32 + i)) }

/-! ### Reading -/

/-- Word `w` of an image. -/
def Cont.imageRead (k : Cont) (w : Nat) : W64 :=
  match imageWord w with
  | .s i => k.s[i]
  | .os i => k.os[i]
  | .ls => k.ls
  | .p i => k.p[i]
  | .bt i => k.bt[fin 15 (2 * i.val + 1)] ++ k.bt[fin 15 (2 * i.val)]
  | .lc => k.lc[(1 : Fin 2)] ++ k.lc[(0 : Fin 2)]
  | .f i => BitVec.ofNat 64 (leNat ((List.range 4).flatMap fun j => leBytes 2 (k.f[fin 31 (4 * i.val + j)]).toNat))
  | .cstat => k.cstat
  | .tpc => k.tpc.setWidth 64
  | .tcause => k.tcause
  | .tinfo => k.tinfo
  | .tags => k.tags
  | .padm => k.padm
  | .ts => k.ts
  | .vflaga => k.vflaga
  | .vflagb => k.vflagb
  | .owed => BitVec.ofNat 64 k.owed
  | .give => match k.give with | none => 0 | some (w, c) => BitVec.ofNat 64 (2 ^ 16 + c.val * 2 ^ 8 + w.toNat)
  | .coupling => match k.fused with | none => 0 | some f => BitVec.ofNat 64 (f.members.toNat + 16 + f.coupled.toNat * 32)
  | .barrier => match k.barrier with | none => 0 | some g => BitVec.ofNat 64 (2 ^ 63 + g % 2 ^ 63)
  | .monitor => match k.mon with | none => 0 | some m => BitVec.ofNat 64 (2 ^ 24 + m.lost.toNat * 2 ^ 25 + m.addr.toNat)
  | .opened i => ofMask fun j => (k.bmap[fin 255 (64 * i.val + j)]).opened
  | .status i hi => bits k.status[i] (if hi then 64 else 0) 64
  | .bmap i => BitVec.ofNat 64 (leNat ((List.range 4).flatMap fun j =>
      leBytes 2 (bmapBits k.bmap[fin 255 (4 * i.val + j)]).toNat))
  | .stream z j => match k.strm[z] with | none => 0 | some b => b.word j
  | .t i j => bits k.t[i] (64 * j.val) 64
  | .qs i => match k.qs[i.val]? with | none => 0 | some e => bits e.data 0 64
  | .heads => queueWord k List.length
  | .valid => queueWord k fun q => queueBits q QEntry.valid
  | .bad => queueWord k fun q => queueBits q fun e => e.poison.isSome
  | .parked => queueWord k fun q => queueBits q k.parkedEntry
  | .qvec b i j => match (if b then k.qb else k.qa)[i.val]? with | none => 0 | some e => bits e.data (64 * j.val) 64
  | .vec r j => bits (k.get r) (64 * j.val) 64
  | .dir i hi => if hi then dirHigh k i.val else dirLow k i.val
  | .snapVec n j => match (slotEntry k.pend n.val).bind fun i => k.pend[i]? with
    | none => 0
    | some p => bits p.data (64 * j.val) 64
  | .snapHalf i hi => match k.pend[i.val]? with
    | none => 0
    | some p => if p.reg.file = 4 then bits (k.snapHalf p) (if hi then 64 else 0) 64 else 0
  | .tvec => k.tvec.setWidth 64
  | .err i => k.err[i]
  | .zeros => 0

/-! ### Writing -/

/-- The bits of the high word of a tag status word, and of the words of the error record, that are not reserved (R202, R241). -/
def statusMask (hi : Bool) : W64 := if hi then 0xFFFFFFFF0003000F else BitVec.allOnes 64
/-- The bits of the error record that are not reserved or zero (R241). -/
def errMask (i : Fin 4) : W64 :=
  match i with
  | 0 => 0x0000FFFFFFFFFFC1
  | 1 => 0x00003FFFFFFFFFE0
  | 2 => 0x00000000FFFFFFFF
  | 3 => BitVec.allOnes 64

/-- One field of the image's registers, queues and records takes a word (R342), within what it can hold; the snapshot is
read as a whole by `Cont.snapshot`. The CSTAT word takes all the bits CSTAT has, TCAUSE the bits that software writes (log
entry 74), TINFO all of its bits (log entry 95). -/
def Cont.imageWrite (k : Cont) (w : Nat) (v : W64) : Cont :=
  match imageWord w with
  | .s i => { k with s := vset k.s i v }
  | .os i => { k with os := vset k.os i v }
  | .ls => { k with ls := v }
  | .p i => { k with p := vset k.p i v }
  | .bt i => { k with bt := vset (vset k.bt (fin 15 (2 * i.val)) (bits v 0 32)) (fin 15 (2 * i.val + 1)) (bits v 32 32) }
  | .lc => { k with lc := #v[bits v 0 32, bits v 32 32] }
  | .f i => { k with f := (List.range 4).foldl (fun f j => vset f (fin 31 (4 * i.val + j)) (bits v (16 * j) 16)) k.f }
  | .cstat => { k with cstat := setBits k.cstat 0 (bits v 0 4) }
  | .tpc => { k with tpc := bits v 0 32 }
  | .tcause => { k with tcause := tWrite k.tcause v }
  | .tinfo => { k with tinfo := v }
  | .tags => { k with tags := v }
  | .padm => { k with padm := padmWrite v }
  | .ts => { k with ts := v }
  | .vflaga => { k with vflaga := vflagWrite v }
  | .vflagb => { k with vflagb := vflagWrite v }
  | .owed => { k with owed := v.toNat }
  | .give => { k with give := if bitAt v 16 then some (bits v 0 8, fin 255 (bits v 8 8 : Byte).toNat) else none }
  | .coupling =>
    { k with fused := if bitAt v 4 then some ⟨bits v 0 4, bitAt v 5, false, none⟩ else none }
  | .barrier => { k with barrier := if bitAt v 63 then some (v.toNat % 2 ^ 63) else none }
  | .monitor =>
    { k with mon := if bitAt v 24 then some ⟨0, bits v 0 24, 0, false, false, bitAt v 25⟩ else none }
  | .opened i => { k with bmap := (List.range 64).foldl (fun m j =>
      let n := fin 255 (64 * i.val + j)
      vset m n { m[n] with opened := bitAt v j }) k.bmap }
  | .status i hi => { k with status := vset k.status i (setBits k.status[i] (if hi then 64 else 0) (v &&& statusMask hi)) }
  | .bmap i => { k with bmap := (List.range 4).foldl (fun m j =>
      vset m (fin 255 (4 * i.val + j)) (bmapOf (bits v (16 * j) 16 : Half))) k.bmap }
  | .stream z j =>
    let b := (k.strm[z]).getD (Binding.blank k)
    let off := (j == 0 && !bitAt v 0) || ((k.strm[z]).isNone && j != 0)
    { k with strm := vset k.strm z (if off then none else some (b.setWord j v)) }
  | .t i j => { k with t := vset k.t i (setBits k.t[i] (64 * j.val) v) }
  | .qs i => { k with qs := k.qs.modify i.val fun e => { e with data := wide v } }
  | .heads =>
    let n (lo : Nat) : Nat := min 16 (bits v lo 5 : BitVec 5).toNat
    { k with qs := resize k.qs (n 0), qa := resize k.qa (n 16), qb := resize k.qb (n 32) }
  | .valid => k.queueBitsSet v fun e x => { e with valid := x }
  | .bad => k.queueBitsSet v fun e x => { e with poison := if x then some (e.poison.getD 0) else none }
  | .parked => { k with parks := k.parks.filter fun p => match k.qs.findIdx? fun e => e.id == p.2.id with
      | some i => bitAt v i
      | none => true }
  | .qvec b i j =>
    let f (e : QEntry) : QEntry := { e with data := setBits e.data (64 * j.val) v }
    if b then { k with qb := k.qb.modify i.val f } else { k with qa := k.qa.modify i.val f }
  | .vec r j => k.put r (BitVec.allOnes 64) (setBits (k.get r) (64 * j.val) v)
  | .tvec => { k with tvec := bits v 0 32 }
  | .err i => { k with err := vset k.err i (v &&& errMask i) }
  | .dir _ _ | .snapVec _ _ | .snapHalf _ _ | .zeros => k

/-- A word lies in the snapshot's directory or data (R341). -/
def snapWord (w : Nat) : Bool := decide (6272 ≤ w) && decide (w < 7488)

/-- The entry that the words of a snapshot directory name at place `i`, none where V is 0 or no register is named; what the
image does not hold of it is kept where the same register's entry stood at that place (R341, R342). -/
def Cont.snapEntry (k : Cont) (r : Nat → W64) (i : Nat) : Option Pend :=
  let lo := r (6272 + 2 * i)
  let hi := r (6273 + 2 * i)
  let file := (bits lo 8 3 : BitVec 3).toNat
  let vec := vecFile file
  let slot := (bits lo 34 6 : BitVec 6).toNat
  let data : VReg :=
    if vec then (List.range 32).foldl (fun x j => setBits x (64 * j) (r (6400 + 32 * slot + j))) 0
    else if file = 4 then (r (7361 + 2 * i) ++ r (7360 + 2 * i)).setWidth 2048 else wide hi
  let was := k.pend[i]?
  let name := match was with | some { reg := .strm _ n, .. } => n | _ => 0
  let shown : Option Reg := was.bind fun p => if p.reg.file == file && p.reg.spec == bits lo 0 8 then some p.reg else none
  if !bitAt lo 40 then none else
  (shown <|> snapReg file (bits lo 0 8 : Byte).toNat name).map fun reg =>
    let same := shown.isSome
    let data : VReg := match reg with
      | .field i f => wide (getField (setBits (setField k.t[i] f ((was.map fun p => bits p.data 0 64).getD 0))
          (if fieldHi f then 128 else 0) (bits data 0 128)) f)
      | _ => data
    { reg, data
      lanes := if vec then hi else if file = 3 ∧ same then (was.map Pend.lanes).getD (BitVec.allOnes 64) else BitVec.allOnes 64
      due := k.acyc + (bits lo 16 4 : BitVec 4).toNat, order := (bits lo 20 8 : Byte).toNat, lr := bitAt lo 28
      flags := bits lo 29 5, bad := same && (was.map Pend.bad).getD false
      pc := if same then (was.map Pend.pc).getD k.tpc else k.tpc
      slot := if same then (was.map Pend.slot).getD .s else .s, lat := if same then (was.map Pend.lat).getD 1 else 1 }

/-- An entry takes its place in a snapshot: after those issued no later (R343). -/
def orderPut (p : Pend) : List Pend → List Pend
  | [] => [p]
  | q :: qs => if p.order < q.order then p :: q :: qs else q :: orderPut p qs

/-- The results in flight that the words of a snapshot describe, in the order of their ORDER (R342, R343); the bundles that
issue from now on are later than all of them. -/
def Cont.snapshot (k : Cont) (r : Nat → W64) : Cont :=
  { k with pend := ((List.range 64).filterMap (k.snapEntry r)).foldl (fun qs p => orderPut p qs) []
           order := max k.order 256 }

/-- The value among written words, if the word is among them. -/
def wordOf (ws : List (Nat × W64)) (w : Nat) : Option W64 := (ws.find? fun x => x.1 == w).map Prod.snd

/-- When a word is read of those of one image: the map before the word that holds its OPEN bits, and what says that a binding
or a queue entry is there before what it holds. -/
def imageRank (w : Nat) : Nat :=
  match imageWord w with
  | .bmap _ => 0
  | .heads | .stream _ 0 => 1
  | _ => 2

/-- The image as written words leave it, whatever the order in which they were written (R342; log entry 42): the snapshot is
read anew where one of its words was written. -/
def Cont.imageWrites (k : Cont) (ws : List (Nat × W64)) : Cont :=
  let j := ((List.range 3).flatMap fun n => ws.filter fun x => imageRank x.1 == n).foldl (fun k x => k.imageWrite x.1 x.2) k
  if ws.any fun x => snapWord x.1 then
    { j with pend := (k.snapshot fun w => (wordOf ws w).getD (k.imageRead w)).pend, order := max j.order 256 }
  else j

/-! ### The keep bank (R342) -/

/-- What a word of the image keeps of a value written to it: reserved bits read as zero (R2, R341), and the words of registers
take what those registers can hold, as do those whose layout is the model's (log entry 42). -/
def Cont.keeps (k : Cont) (w : Nat) (v : W64) : W64 :=
  if imageWords ≤ w then v else
  match imageWord w with
  | .dir _ false => v &&& 0x1FFFFFF07FF
  | .cstat => setBits k.cstat 0 (bits v 0 4)
  | .tcause => tWrite k.tcause v
  | .padm => padmWrite v
  | .vflaga | .vflagb => vflagWrite v
  | .tpc | .tvec => v &&& 0xFFFFFFFF
  | .status _ hi => v &&& statusMask hi
  | .err i => v &&& errMask i
  | .give => v &&& 0x1FFFF
  | .coupling => v &&& 0x3F
  | .monitor => v &&& 0x3FFFFFF
  | .stream _ 0 => v &&& 0x7FF
  | .stream _ 2 | .valid | .bad | .parked => v &&& 0xFFFFFFFFFFFF
  | .stream _ 7 => v &&& 0x1F
  | .heads => v &&& 0x1F001F001F
  | .bmap _ => BitVec.ofNat 64 (leNat ((List.range 4).flatMap fun j => leBytes 2 (bmapBits (bmapOf (bits v (16 * j) 16 : Half))).toNat))
  | .zeros => 0
  | _ => v

/-- Word `w` of a core's keep bank: the word written there last, or the image's. -/
def CoreSt.keepRead (x : CoreSt) (w : Nat) : W64 :=
  match wordOf x.kwords w with
  | some v => v
  | none => if w < imageWords then ((x.keep <|> x.stale).map fun k => k.imageRead w).getD 0 else 0

/-- A word of a core's keep bank is written. -/
def CoreSt.keepWrite (x : CoreSt) (w : Nat) (v : W64) : CoreSt :=
  { x with kwords := (w, ((x.keep <|> x.stale).getD (Cont.zero 0)).keeps w v) :: x.kwords.filter fun y => y.1 != w }

/-- The frozen image with the words that were written to it (R342). -/
def CoreSt.written (x : CoreSt) (k : Cont) : Cont := k.imageWrites (x.kwords.filter fun w => decide (w.1 < imageWords))

end Sys2Proof.Machine
end

