-- ==== Sys2Proof/Machine/Ops.lean ====
section
/-! DEFINITION. The named operations over memory, banks and registers; the primitive updates a step is made
of; landing (R75, R118); taking an exception (R339, R344) and returning from one (R343, R349). -/

namespace Sys2Proof.Machine

/-! ### Memory: addresses strictly rising, and no cell that holds what an unlisted address reads as -/

/-- What an address with no cell reads as: boot leaves every byte zero (R387; log entry 1). -/
def unlisted : Byte := 0

/-- The byte at an address. -/
def memGet (m : List Host.Cell) (a : Nat) : Byte :=
  match m.find? (fun x => x.1 == a) with
  | some x => x.2
  | none => unlisted

/-- The memory with one byte replaced, in canonical form. -/
def memPut (m : List Host.Cell) (a : Nat) (v : Byte) : List Host.Cell :=
  match m with
  | [] => if v = unlisted then [] else [(a, v)]
  | (b, w) :: m =>
    if a < b then (if v = unlisted then (b, w) :: m else (a, v) :: (b, w) :: m)
    else if a = b then (if v = unlisted then m else (a, v) :: m)
    else (b, w) :: memPut m a v

/-- Every address of `m` lies above `a`, they rise strictly, and no cell is redundant. -/
def memWfFrom : Nat → List Host.Cell → Bool
  | _, [] => true
  | a, (b, w) :: m => decide (a ≤ b) && w != unlisted && memWfFrom (b + 1) m

/-- The canonical form of memory. -/
def memWf (m : List Host.Cell) : Bool := memWfFrom 0 m

/-- `n` bytes from an address. -/
def memBytes (m : List Host.Cell) (a n : Nat) : List Byte := (List.range n).map fun i => memGet m (a + i)

/-- The little-endian number in `n` bytes at an address (R1). -/
def memNat (m : List Host.Cell) (a n : Nat) : Nat := leNat (memBytes m a n)

/-- A set of numbers as a strictly rising list: membership, insertion, removal. -/
def setIns (xs : List Nat) (a : Nat) : List Nat :=
  match xs with
  | [] => [a]
  | b :: xs => if a < b then a :: b :: xs else if a = b then b :: xs else b :: setIns xs a

/-- The set without `a`. -/
def setDel (xs : List Nat) (a : Nat) : List Nat := xs.filter (· != a)

/-- The device physical address of byte `off` of a bank (R19). -/
def bankPa (b : Fin 4096) (off : Nat) : Nat := Config.padBase + b.val * 65536 + off

/-- The bank, numbered die, quadrant, identifier, that a core's quadrant holds under an identifier (R11). -/
def bankOf (c : Fin 256) (id : Byte) : Fin 4096 := fin 4095 (c.val / 16 * 256 + id.toNat)

/-- A bank's identifier within its quadrant (R11). -/
def bankId (b : Fin 4096) : Byte := BitVec.ofNat 8 (b.val % 256)

/-- A core's quadrant, die and tile (R10). -/
def quadOf (c : Fin 256) : Fin 16 := fin 15 (c.val / 16)
/-- A core's die (R10). -/
def dieOf (c : Fin 256) : Fin 4 := fin 3 (c.val / 64)
/-- A core's tile, numbered through the package (R10). -/
def tileOf (c : Fin 256) : Fin 64 := fin 63 (c.val / 4)
/-- A core's index in its quadrant (R264). -/
def quadIx (c : Fin 256) : Fin 16 := fin 15 (c.val % 16)

/-- The latency class of a bank for a core: 0 its own tile, 1 another tile of the quadrant (R138). -/
def latClass (c : Fin 256) (b : Byte) : Nat := if (b.toNat / 64) = c.val / 4 % 4 then 0 else 1

/-- LAT of a bank for a core, as the hardware sets it when a bank is attached or BANK is written (R138). -/
def latBits (c : Fin 256) (b : Byte) : BitVec 2 := BitVec.ofNat 2 (latClass c b)

/-- The sectors of 32 bytes that `n` bytes at `a` touch (R361). -/
def sectorsOf (a n : Nat) : List Nat :=
  if n = 0 then [] else (List.range ((a + n - 1) / 32 - a / 32 + 1)).map fun i => a / 32 + i

/-- The lowest poisoned sector among `n` bytes at `a` (R338), as its first byte's address. -/
def poisonIn (poisoned : List Nat) (a n : Nat) : Option Nat :=
  ((sectorsOf a n).find? fun x => poisoned.contains x).map (· * 32)

/-! ### Primitive updates -/

/-- The primitive updates: each replaces one part of the state. -/
inductive Act
  | core (c : Fin 256) (f : CoreSt → CoreSt)
  | bank (b : Fin 4096) (f : BankSt → BankSt)
  | quad (q : Fin 16) (f : QuadSt → QuadSt)
  | part (p : Fin 16) (f : PartSt → PartSt)
  | die (d : Fin 4) (f : DieSt → DieSt)
  | tile (t : Fin 64) (f : TileSt → TileSt)
  | barriers (f : List Barrier → List Barrier)
  | releases (f : List Release → List Release)
  | spawned (f : List Spawned → List Spawned)
  | report (r : Report)
  | byte (a : Nat) (v : Byte)
  | empty (w : Nat) (b : Bool)
  | sector (n : Nat) (b : Bool)
  | ids (n : Nat)
  | drawn (n : Nat)
  | clock (n : Nat)
  | focus (c : Fin 256)
  | home (h : Fin 512) (f : HomeSt → HomeSt)
  | stack (x : Fin 8) (f : StackSt → StackSt)
  | stone (x : Fin 64) (f : StoneSt → StoneSt)
  | jobs (f : List Job → List Job)
  | faults (f : List PagerFault → List PagerFault)
  | invals (f : List Inval → List Inval)
  | hub (f : HubSt → HubSt)
  | agenda (f : List Turn → List Turn)
  | wipe (lo hi : Nat)

/-- One primitive update. -/
def Act.apply : Act → State → State
  | .core c f, s => { s with cores := vset s.cores c (f s.cores[c]) }
  | .bank b f, s => { s with banks := vset s.banks b (f s.banks[b]) }
  | .quad q f, s => { s with quads := vset s.quads q (f s.quads[q]) }
  | .part p f, s => { s with parts := vset s.parts p (f s.parts[p]) }
  | .die d f, s => { s with dies := vset s.dies d (f s.dies[d]) }
  | .tile t f, s => { s with tiles := vset s.tiles t (f s.tiles[t]) }
  | .barriers f, s => { s with barriers := f s.barriers }
  | .releases f, s => { s with releases := f s.releases }
  | .spawned f, s => { s with spawned := f s.spawned }
  | .report r, s => { s with reports := s.reports ++ [r] }
  | .byte a v, s => { s with mem := memPut s.mem a v }
  | .empty w b, s => { s with empties := if b then setIns s.empties w else setDel s.empties w }
  | .sector n b, s => { s with poisoned := if b then setIns s.poisoned n else setDel s.poisoned n }
  | .ids n, s => { s with nextId := s.nextId + n }
  | .drawn n, s => { s with free := s.free + n }
  | .clock n, s => { s with clock := max s.clock n }
  | .focus c, s => { s with focus := c }
  | .home h f, s => { s with homes := vset s.homes h (f s.homes[h]) }
  | .stack x f, s => { s with memStacks := vset s.memStacks x (f s.memStacks[x]) }
  | .stone x f, s => { s with stones := vset s.stones x (f s.stones[x]) }
  | .jobs f, s => { s with jobs := f s.jobs }
  | .faults f, s => { s with faults := f s.faults }
  | .invals f, s => { s with invals := f s.invals }
  | .hub f, s => { s with hub := f s.hub }
  | .agenda f, s => { s with agenda := f s.agenda }
  | .wipe lo hi, s =>
    { s with mem := s.mem.filter fun x => x.1 < lo || hi ≤ x.1,
             empties := s.empties.filter fun w => w * 4 < lo || hi ≤ w * 4,
             poisoned := s.poisoned.filter fun n => n * 32 < lo || hi ≤ n * 32 }

/-- The state after a list of primitive updates, first to last. -/
def applyActs (s : State) (acts : List Act) : State := acts.foldl (fun s a => a.apply s) s

/-- The outcome of a step that performs a list of primitive updates. -/
def perform (s : State) (acts : List Act) : Host.Outcome State Fault Refusal := .next (applyActs s acts)

/-- Updates that read the state the earlier ones leave. -/
def andThen (s : State) (acts : List Act) (f : State → List Act) : List Act := acts ++ f (applyActs s acts)

/-- An update of a core's live continuation. -/
def Act.cont (c : Fin 256) (f : Cont → Cont) : Act := .core c fun x => { x with cont := f x.cont }

/-- An update of the continuation `cid` of a core, live or in its keep bank. -/
def Act.byCid (c : Fin 256) (cid : Nat) (f : Cont → Cont) : Act :=
  .core c fun x =>
    { x with cont := if x.cont.cid == cid then f x.cont else x.cont,
             keep := x.keep.map fun k => if k.cid == cid then f k else k }

/-! ### Writing memory -/

/-- The updates of a monitor by a write of the word at `w` (R258). -/
def Monitor.hit (m : Monitor) (b : Fin 4096) (lo n : Nat) : Monitor :=
  let off := m.addr.toNat % 65536
  if m.armed && m.bank == b && decide (off < lo + n) && decide (lo < off + 4) then
    { m with triggered := true } else m

/-- A write of `n` bytes at offset `lo` of a bank triggers the armed monitors of its quadrant's cores (R258). -/
def monitorActs (b : Fin 4096) (lo n : Nat) : List Act :=
  (List.range 16).map fun i =>
    .cont (fin 255 (b.val / 256 * 16 + i)) fun k => { k with mon := k.mon.map fun m => m.hit b lo n }

/-- A write triggers the monitors that parks hold: such a park is released (R323). -/
def parkActs (b : Fin 4096) (lo n : Nat) : List Act :=
  [.quad (fin 15 (b.val / 256)) fun q =>
    { q with parks := q.parks.map fun p =>
        match p.mon with
        | some m => if (m.hit b lo n).triggered then { p with released := true } else p
        | none => p }]

/-- Writing bytes at consecutive device physical addresses: the bytes; the poison of every sector covered
whole is cleared (R148, R361); in a bank, monitors are triggered (R258). -/
def writeActs (a : Nat) (bytes : List Byte) : List Act :=
  let n := bytes.length
  let data := (List.range n).map fun i => Act.byte (a + i) (bytes.getD i 0)
  let whole := (sectorsOf a n).filter fun x => decide (a ≤ x * 32) && decide (x * 32 + 32 ≤ a + n)
  let heal := whole.map fun x => Act.sector x false
  let off := a - Config.padBase
  let mon := if Config.padBase ≤ a ∧ a < Config.padBase + Config.padBytes ∧ 0 < n then
      let b := fin 4095 (off / 65536)
      monitorActs b (off % 65536) n ++ parkActs b (off % 65536) n
    else []
  data ++ heal ++ mon

/-- The words that scattered bytes touch, as offsets, each once. -/
def wordsOf (data : List (Nat × Byte)) : List Nat := (data.map fun d => d.1 / 4 * 4).eraseDups

/-- Writing scattered bytes of one bank, given as offsets: monitors of the words written are triggered (R149, R258). -/
def scatterActs (b : Fin 4096) (data : List (Nat × Byte)) : List Act :=
  let lo := (data.map Prod.fst).foldl min 65536
  let hi := (data.map Prod.fst).foldl max 0
  let n := if data.isEmpty then 0 else hi + 1 - lo
  let inside (x : Nat) : Bool := (List.range 32).all fun i => data.any fun d => bankPa b d.1 == x * 32 + i
  data.map (fun d => Act.byte (bankPa b d.1) d.2) ++
    ((sectorsOf (bankPa b lo) n).filter inside).map (fun x => Act.sector x false) ++
    (wordsOf data).flatMap fun w => monitorActs b w 4 ++ parkActs b w 4

/-! ### Traps -/

/-- A trap: its cause and what TINFO receives (R337). -/
structure Trap where
  cause : Cause
  info : W64
  deriving DecidableEq, Repr

/-- Trap codes (R337). -/
def causeCode : Cause → BitVec 5
  | .illbundle => 1 | .illop => 2 | .wconflict => 3 | .stallchk => 4 | .detached => 5 | .bufstate => 6
  | .align => 7 | .poison => 8 | .cmpt => 9 | .novote => 10 | .replaylim => 11 | .descr => 12
  | .priv => 13 | .trapi => 14 | .stream => 15 | .watchdog => 16

/-- TINFO of a decode trap (R71). -/
def decodeInfo (detail : Byte) (reason slot2 : Nat) (hdr : Bool) (slot : Nat) : W64 :=
  (detail ++ BitVec.ofNat 8 reason ++ 0#1 ++ BitVec.ofNat 3 slot2 ++ bit hdr ++ BitVec.ofNat 3 slot).setWidth 64

/-- A DESCR trap with a reason and the low eight bits of a value (R269, R334). -/
def descr (reason : Nat) (value : Byte) : Trap := ⟨.descr, (BitVec.ofNat 8 reason ++ value).setWidth 64⟩

/-- TINFO of POISON (R338). -/
def poisonInfo (kind : Nat) (slot : Slot) (addr : BitVec 24) : W64 :=
  (BitVec.ofNat 3 kind ++ 0#1 ++ BitVec.ofNat 3 (slotIx slot) ++ addr).setWidth 64

/-! ### Landing -/

/-- The cluster whose flags and last-result register a landing touches. -/
def Reg.cluster : Reg → Option Cluster
  | .v cl _ | .o cl _ | .la cl => some cl
  | .p i => some (clusterOfPred i)
  | .strm z _ => some (clusterOfStream z)
  | _ => none

/-- Sticky flags ORed into a cluster's register (R42). -/
def Cont.stick (k : Cont) (r : Reg) (f : FFlags) : Cont :=
  if f = 0 then k else
  match Reg.cluster r with
  | some .a => { k with vflaga := Machine.stick k.vflaga f }
  | some .b => { k with vflagb := Machine.stick k.vflagb f }
  | none => k

/-- The last-result register receives the destination's whole value after the landing (R61, R118): as the destination stands
then, before a later-issued result of the same cycle lands in it (log entry 101). -/
def Cont.putLast (k : Cont) (p : Pend) : Cont :=
  match p.reg with
  | .v cl _ | .o cl _ => k.put (.la cl) (BitVec.allOnes 64) (k.get p.reg)
  | .strm z _ => k.put (.la (clusterOfStream z)) (BitVec.allOnes 64) p.data
  | .s _ | .os _ => k.put .ls (BitVec.allOnes 64) p.data
  | _ => k

/-- The poison bit of a descriptor half set or cleared (R146). -/
def Cont.halfPoison (k : Cont) (i : Fin 32) (hi bad : Bool) : Cont :=
  { k with tpoison := setBits k.tpoison (2 * i.val + hi.toNat) (bit bad) }

/-- The last-result register that a landing writes (R61, R118). -/
def Pend.last (p : Pend) : Option Reg :=
  if !p.lr then none else
  match p.reg with
  | .v cl _ | .o cl _ => some (.la cl)
  | .strm z _ => some (.la (clusterOfStream z))
  | .s _ | .os _ => some .ls
  | _ => none

/-- The registers that a landing writes whole, and which lose their poison by it (R361). -/
def Pend.wholes (p : Pend) : List Reg := (if p.lanes = BitVec.allOnes 64 then [p.reg] else []) ++ p.last.toList

/-- One result lands (R75, R118): the register, then the last-result register, then the sticky flags; a descriptor half
is poisoned or clean as it was loaded (R146), and a landing that writes all of a register clears its poison (R361). -/
def Cont.land (k : Cont) (p : Pend) : Cont :=
  let k := k.put p.reg p.lanes p.data
  let k := match p.reg with | .t i hi => k.halfPoison i hi p.bad | _ => k
  let k := if p.lr then k.putLast p else k
  let k := k.stick p.reg p.flags
  if k.rpoison.isEmpty then k else { k with rpoison := k.rpoison.filter fun r => !p.wholes.contains r }

/-- A result takes its place among others: after those that land no later (R75). -/
def duePut (p : Pend) : List Pend → List Pend
  | [] => [p]
  | q :: qs => if p.due < q.due then p :: q :: qs else q :: duePut p qs

/-- Results in the order in which they land: by cycle, those of one cycle in issue order (R75). -/
def dueOrder (ps : List Pend) : List Pend := ps.foldl (fun qs p => duePut p qs) []

/-- The results due by the present architectural cycle land, in the order of R75; the others wait. -/
def Cont.landDue (k : Cont) : Cont :=
  if k.pend.isEmpty then k else
  let k' := (dueOrder (k.pend.filter fun p => decide (p.due ≤ k.acyc))).foldl Cont.land k
  { k' with pend := k.pend.filter fun p => !decide (p.due ≤ k.acyc) }

/-! ### Owner-port accesses of a core -/

/-- Every access of a core that has not performed, oldest first: those of the image, then the live ones (R160).
A withdrawn parked load is none of them (R152). -/
def CoreSt.accs (x : CoreSt) : List OutAcc :=
  (match x.keep with
    | none => []
    | some k => k.acc.filter fun a => !(k.parks.any fun p => p.2.id == a.id)) ++ x.cont.acc

/-- An access is one of the classes of `mask`; a `watch` is in none (R258). -/
def OutAcc.covered (a : OutAcc) (mask : Half) : Bool := !a.watch && bitAt mask a.cls.toNat

/-- No access of the core of a class in `mask` is still to perform (R252, R255). -/
def CoreSt.performed (x : CoreSt) (mask : Half) : Bool := !(x.accs.any fun a => a.covered mask)

/-- A load has not given its data (R141). -/
def CoreSt.loading (x : CoreSt) : Bool := !x.cont.loads.isEmpty

/-! ### Taking an exception and returning -/

/-- A stream binding at a freeze (R165): output elements that have landed stay to be written, input
elements not yet popped are discarded and fills restart at POS. -/
def Binding.freeze (b : Binding) : Binding :=
  if b.out then b else { b with buf := [], fetched := b.pos }

/-- The live continuation while its handler is started: queues emptied, streams unbound, the monitor and
parked loads withdrawn, nothing in flight (R339 steps 2 and 5). -/
def Cont.stripped (k : Cont) : Cont :=
  { k with pend := [], qs := [], qa := [], qb := [], loads := [], acc := [], parks := [],
           strm := Vector.replicate 8 none, mon := none, recheck := false, owed := 0, remote := [], asked := none, given := []
           seen := [], barWait := none }

/-- Two accesses of a bank touch a common byte. -/
def Access.meets (a y : Access) : Bool := decide (y.off < a.off + a.len) && decide (a.off < y.off + y.len)

/-- What a freeze withdraws from a bank's queue (R152): the parked loads of the core, and with them its accesses to their
words that wait behind them (log entry 73); `mine` names the accesses of the continuation that freezes. -/
def withdrawn (c : Fin 256) (mine : Access → Bool) : List Access → List Access → List Access
  | _, [] => []
  | ps, a :: q =>
    if a.core = c ∧ mine a ∧ (a.parked ∨ ps.any (a.meets ·)) then a :: withdrawn c mine (a :: ps) q
    else withdrawn c mine ps q

/-- The banks at which a continuation has an access that has not performed, each once. -/
def Cont.accBanks (k : Cont) : List (Fin 4096) := (k.acc.map OutAcc.bank).eraseDups

/-- The parked loads of a continuation at the banks of its quadrant, and what waits behind them (R152). -/
def parkedOf (s : State) (c : Fin 256) (k : Cont) : List (Fin 4096 × Access) :=
  k.accBanks.flatMap fun b =>
    (withdrawn c (fun a => k.acc.any fun o => o.id == a.id) [] (s.banks[b]).q).map fun a => (b, a)

/-- Withdrawing parked loads, and what waits behind them, from their banks (R152). -/
def withdrawActs (ps : List (Fin 4096 × Access)) : List Act :=
  ps.map fun p => .bank p.1 fun b => { b with q := b.q.filter fun a => !(a.id == p.2.id) }

/-- Parking withdrawn loads again, at their words and in their queue positions (R152, R343): before every access that the
core has made since. -/
def reparkActs (ps : List (Fin 4096 × Access)) : List Act :=
  ps.reverse.map fun p => .bank p.1 fun b => { b with q := p.2 :: b.q }

/-- The monitor armed again at its window address (R259, R343): lost where the window is not mapped. -/
def Cont.rearm (k : Cont) (c : Fin 256) : Cont :=
  { k with mon := k.mon.map fun m =>
      let e := k.bmap[fin 255 (m.addr.toNat / 65536)]
      if e.v && !m.lost then { m with bank := bankOf c e.bank, armed := true } else { m with lost := true, armed := false } }

/-- Membership of a gang as a freeze leaves it: a pull of the line is made afresh (R262). -/
def Fused.still (f : Fused) : Fused := { f with pull := false, release := none }

/-- The image of a frozen continuation (R339 step 4, R341): results in flight stay with it as the snapshot's entries,
parked loads are saved with it, and a bundle that was held presents itself again (R250). -/
def Cont.frozen (k : Cont) (ps : List (Fin 4096 × Access)) : Cont :=
  { k with parks := k.parks ++ ps, strm := k.strm.map (Option.map Binding.freeze), recheck := true, barWait := none, fusing := none
           mon := k.mon.map fun m => { m with armed := false, triggered := false }, remote := [], asked := none
           fused := k.fused.map Fused.still }

/-- The entries of a snapshot (R340): the results in flight, and the descriptor halves that loads in flight will write. -/
def Cont.snapEntries (k : Cont) : Nat :=
  k.pend.length + k.loads.countP fun r => match r.dest with | .desc _ _ => true | _ => false

/-- A continuation at the cycle in which a freeze stops it (R339, R345): the cycle that its next bundle would take, or, while
it owes STALL or bubble cycles, the last one it completed. What is due by then has landed. -/
def Cont.atStop (k : Cont) : Cont := Cont.landDue { k with acyc := if k.owed = 0 then k.acyc else k.acyc - 1 }

/-- A frozen continuation goes on after the cycle in which it was stopped (R343). -/
def Cont.goesOn (k : Cont) : Cont := { k with acyc := if k.owed = 0 then k.acyc else k.acyc + 1 }

/-- TAKING A TRAP (R339, R344): the core freezes in place of the trapping bundle's issue; results in flight
go to the snapshot; TPC, TCAUSE and TINFO are written and PPRIV receives PRIV, unless a handler is running;
the image is saved, and with a handler address the handler starts once the save is complete; without one it is the image of
a stopped continuation. -/
def CoreSt.takeTrap (x : CoreSt) (ps : List (Fin 4096 × Access)) (t : Trap) : CoreSt :=
  let k := x.cont.atStop
  let second := tHnd k.tcause
  let coupled := (k.fused.map Fused.coupled).getD false
  let cause : W64 :=
    (bit coupled ++ 0#1 ++ bit (cPriv k.cstat) ++ 0#3 ++ causeCode t.cause).setWidth 64
  let k1 := if second then k else { k with tpc := k.pc, tcause := cause, tinfo := t.info }
  let unhandled := second || k.tvec == 0
  let img := { k1.frozen ps with stopped := unhandled }
  { x with cont := { k1.stripped with stopped := unhandled, fusing := none, fused := img.fused }, keep := some img,
           phase := .trapSave (if unhandled then 0 else 1), holds := [], votes := [],
           kwords := x.kwords.filter fun w => decide (imageWords ≤ w.1), snapcnt := snapNote x.snapcnt k.snapEntries }

/-- The handler starts (R339 step 6): HND and PRIV become 1 and the first bundle issues at TVEC; an
unhandled trap leaves the continuation stopped (R344). -/
def CoreSt.startHandler (x : CoreSt) (handled : Bool) : CoreSt :=
  if handled then
    { x with cont := { x.cont with tcause := setBits x.cont.tcause 9 1#1, cstat := cSetPriv x.cont.cstat true,
                                   pc := x.cont.tvec }, phase := .running }
  else { x with phase := .running }

/-- RETURNING FROM A HANDLER (R343, R349 with HND = 1): the image, with what was written to it, is restored except TPC,
TCAUSE, TINFO, TVEC, the flags, TAGS, the status words and the error record; PRIV takes PPRIV and HND becomes 0. Accesses
still to perform, drains and circuits go on across it (R268, R339), and the monitor is armed again (R259). -/
def CoreSt.returnFrom (x : CoreSt) (c : Fin 256) : CoreSt :=
  match x.keep with
  | none => x
  | some saved =>
    let k := x.cont
    let img := x.written saved
    let back : Cont :=
      { img.goesOn with
        tpc := k.tpc, tcause := setBits k.tcause 9 0#1, tinfo := k.tinfo, tvec := k.tvec, f := k.f
        tags := k.tags, status := k.status, busy := k.busy, err := k.err, pc := k.tpc, parks := []
        acc := img.acc ++ k.acc, given := img.given ++ k.given, seen := img.seen ++ k.seen, drains := k.drains, send := k.send, recv := k.recv, sendAt := k.sendAt
        recvAt := k.recvAt, cstat := cSetPriv img.cstat (tPpriv k.tcause) }
    { x with cont := back.rearm c, keep := none, stale := some saved }

/-- Every OPEN bit cleared (R169). -/
def Cont.closeAll (k : Cont) : Cont := { k with bmap := k.bmap.map fun e => { e with opened := false } }

/-- What a pre-emption freezes: the live continuation, or the image that an unhandled trap has saved already, with what has stayed
live since (R339, R344). -/
def CoreSt.freezes (x : CoreSt) : Cont :=
  match x.keep with
  | none => x.cont.atStop
  | some saved =>
    let k := x.cont
    if k.stopped && saved.stopped then
      let img := x.written saved
      { img with
        cstat := img.cstat ||| (k.cstat &&& 2), f := k.f, tags := k.tags, status := k.status, busy := k.busy, err := k.err
        drains := k.drains, send := k.send, recv := k.recv, sendAt := k.sendAt, recvAt := k.recvAt, pc := k.pc, fused := k.fused }
    else k.atStop

/-- A continuation's image is taken for pre-emption (R345): TPC names the next bundle to issue; OPEN bits are cleared on
the core and saved (R169), and the core's streams, queues and circuits are those of the image (R165, R268). -/
def CoreSt.takePreempt (x : CoreSt) (ps : List (Fin 4096 × Access)) : CoreSt :=
  let k := x.freezes
  let img := Cont.frozen { k with tpc := k.pc } ps
  let empty : Vector (Option VReg) 16 := Vector.replicate 16 none
  { x with cont := { k.stripped.closeAll with send := empty, recv := empty, drains := [], fused := img.fused }
           keep := some img, phase := .preemptSave, preempt := false, holds := [], votes := []
           kwords := x.kwords.filter fun w => decide (imageWords ≤ w.1), snapcnt := snapNote x.snapcnt k.snapEntries }

end Sys2Proof.Machine
end

