-- ==== Sys2Proof/Machine/Effect.lean ====
section
/-! DEFINITION. What one slot instruction does when it executes (R6, R79): it reads the state before the
bundle and answers results that land later, updates made at commit, a transfer, and the traps of the checks
that are its own (R393). -/

namespace Sys2Proof.Machine

/-- What an executing slot sees: the state before the bundle, its core, the live continuation, its slot, its
guard, for a vector slot the enable set E (R118), the tag that an executing C slot of the bundle names (R216), and the
class and name of each access that the bundle itself makes, which is earlier than its releases (R271). `mem` is memory as it
was before the bundle, which the last stages of its slots do not change, and `was` the bytes of it that an `stx` of the bundle
replaces, by device address (R78); `made` says that the checks of the bundle were made before (R160, R316). -/
structure Env where
  s : State
  c : Fin 256
  x : CoreSt
  k : Cont
  slot : Slot
  e : W64
  copyTag : Option (Fin 64) := none
  own : List (BitVec 4 × Bool × Nat) := []
  mem : List Host.Cell := s.mem
  was : List (Nat × Byte) := []
  made : Bool := false

/-- A result that lands `lat` cycles after issue (R74, R75). -/
structure Result where
  reg : Reg
  data : VReg
  lanes : W64 := BitVec.allOnes 64
  lat : Nat
  lr : Bool := false
  flags : FFlags := 0

/-- The effect of an executing slot: results, updates at commit, a transfer with its bubbles (R107), the trap of the
last check of its own row (R393 order 10), the trap of a check that comes after every slot's row (R393), and the
updates that follow everything else; `push` is off where nothing is written to a stream destination (R133). -/
structure Out where
  res : List Result := []
  acts : List Act := []
  jump : Option (W32 × Nat) := none
  late : Option Trap := none
  after : Option Trap := none
  last : List Act := []
  push : Bool := true

/-- The effect of an instruction, or the trap its own checks give. -/
abbrev Eff := Env → Except Trap Out

/-- What the last stage of a slot gives (R160, R316, R322, R393): it may go on with results and updates; its access is `made`
at once and answers a value, and what follows of it is done at commit; it waits, in the cycle of its request with an access
whose effect stands (`asked`); it waits until the bundle's own accesses have been made (R271); or it traps, in the last case
with what the refusing unit records. -/
inductive Stage
  | go (res : List Result) (acts : List Act)
  | made (now acts : List Act) (value : W64)
  | wait (acts : List Act) (asked : Bool)
  | first
  | trap (t : Trap)
  | refused (t : Trap) (acts : List Act)

/-- No effect. -/
def effNone : Eff := fun _ => .ok {}

/-- A fresh name for what this slot starts. -/
def Env.id (e : Env) : Nat := e.s.nextId + slotIx e.slot

/-- The names of the bundle's own accesses in classes of `mask` (R252, R271); `parked` keeps the full/empty loads. -/
def Env.ownNeeds (e : Env) (mask : Half) (parked : Bool) : List Nat :=
  (e.own.filter fun a => bitAt mask a.1.toNat && (!parked || a.2.1)).map fun a => a.2.2

/-- The code address of the bundle. -/
def Env.pc (e : Env) : W32 := e.k.pc

/-- A scalar result with its last-result register; with the destination none only ls is written (R58, R61). -/
def scalarResult (d : Spec) (x : W64) (lat : Nat) : Out :=
  match d with
  | .main i => { res := [{ reg := .s i, data := wide x, lat := lat, lr := true }] }
  | .opf i => { res := [{ reg := .os i, data := wide x, lat := lat, lr := true }] }
  | _ => { res := [{ reg := .ls, data := wide x, lat := lat }] }

/-- A scalar result of a Y-slot instruction, which leaves ls unchanged (R61, R254). -/
def plainResult (d : Spec) (x : W64) (lat : Nat) : List Result :=
  match d with
  | .main i => [{ reg := .s i, data := wide x, lat := lat }]
  | .opf i => [{ reg := .os i, data := wide x, lat := lat }]
  | _ => []

/-- A predicate result of the S slot (R99). -/
def predResult (pd : Fin 48) (x : W64) : Out := { res := [{ reg := .p pd, data := wide x, lat := 1 }] }

/-- A vector result: the destination with la or lb, or la or lb alone, or a stream element (R61, R118). -/
def vectorResult (cl : Cluster) (d : Spec) (e : W64) (v : VReg) (lat : Nat) (flags : FFlags := 0)
    (whole : Bool := false) : Out :=
  let lanes := if whole then BitVec.allOnes 64 else e
  match d with
  | .main i => { res := [{ reg := .v cl i, data := v, lanes, lat, lr := true, flags }] }
  | .opf i => { res := [{ reg := .o cl i, data := v, lanes, lat, lr := true, flags }] }
  | .z i => { res := [{ reg := .strm i 0, data := mergeLanes e v 0, lanes, lat, lr := true, flags }] }
  | _ => { res := [{ reg := .la cl, data := v, lanes, lat, flags }] }

/-- A result that reaches one register of a cluster without its last-result register (`xmov`, `recv`). -/
def bareResult (r : Reg) (v : VReg) (e : W64) (lat : Nat) : Result := { reg := r, data := v, lanes := e, lat }

end Sys2Proof.Machine
end

