-- ==== Sys2Proof/Machine/Scalar.lean ====
section
/-! DEFINITION. The S slot (R92-R105): one effect for each instruction. -/

namespace Sys2Proof.Machine

/-- A two-operand scalar operation (R92). -/
def alu2 (d a b : Spec) (lat : Nat) (f : W64 → W64 → W64) : Eff := fun e =>
  .ok (scalarResult d (f (e.k.scalar a) (e.k.scalar b)) lat)

/-- A scalar operation with a sign-extended immediate (R93). -/
def aluI (d a : Spec) (imm : BitVec 26) (f : W64 → W64 → W64) : Eff := fun e =>
  .ok (scalarResult d (f (e.k.scalar a) (imm.signExtend 64)) 1)

/-- The shift amount b[5:0] (R92). -/
def sh6 (b : W64) : Nat := (bits b 0 6).toNat

/-- `nop` (R69). -/
def effNop : Eff := effNone
/-- `add` (R92). -/
def effAdd (d a b : Spec) : Eff := alu2 d a b 1 (· + ·)
/-- `sub` (R92). -/
def effSub (d a b : Spec) : Eff := alu2 d a b 1 (· - ·)
/-- `and` (R92). -/
def effAnd (d a b : Spec) : Eff := alu2 d a b 1 (· &&& ·)
/-- `or` (R92). -/
def effOr (d a b : Spec) : Eff := alu2 d a b 1 (· ||| ·)
/-- `xor` (R92). -/
def effXor (d a b : Spec) : Eff := alu2 d a b 1 (· ^^^ ·)
/-- `shl` (R92). -/
def effShl (d a b : Spec) : Eff := alu2 d a b 1 fun x y => x <<< sh6 y
/-- `shr` (R92). -/
def effShr (d a b : Spec) : Eff := alu2 d a b 1 fun x y => x >>> sh6 y
/-- `sar` (R92). -/
def effSar (d a b : Spec) : Eff := alu2 d a b 1 fun x y => x.sshiftRight (sh6 y)
/-- `mul` (R92). -/
def effMul (d a b : Spec) : Eff := alu2 d a b 3 (· * ·)
/-- `mulh` (R92). -/
def effMulh (d a b : Spec) : Eff := alu2 d a b 3 fun x y => BitVec.ofInt 64 (x.toInt * y.toInt / 2 ^ 64)
/-- `mulhu` (R92). -/
def effMulhu (d a b : Spec) : Eff := alu2 d a b 3 fun x y => BitVec.ofNat 64 (x.toNat * y.toNat / 2 ^ 64)
/-- `min` (R92). -/
def effMin (d a b : Spec) : Eff := alu2 d a b 1 fun x y => if x.slt y then x else y
/-- `max` (R92). -/
def effMax (d a b : Spec) : Eff := alu2 d a b 1 fun x y => if x.slt y then y else x
/-- `minu` (R92). -/
def effMinu (d a b : Spec) : Eff := alu2 d a b 1 fun x y => if x.ult y then x else y
/-- `maxu` (R92). -/
def effMaxu (d a b : Spec) : Eff := alu2 d a b 1 fun x y => if x.ult y then y else x
/-- `addi` (R93). -/
def effAddi (d a : Spec) (imm : BitVec 26) : Eff := aluI d a imm (· + ·)
/-- `andi` (R93). -/
def effAndi (d a : Spec) (imm : BitVec 26) : Eff := aluI d a imm (· &&& ·)
/-- `ori` (R93). -/
def effOri (d a : Spec) (imm : BitVec 26) : Eff := aluI d a imm (· ||| ·)
/-- `xori` (R93). -/
def effXori (d a : Spec) (imm : BitVec 26) : Eff := aluI d a imm (· ^^^ ·)
/-- `shli` (R93). -/
def effShli (d a : Spec) (imm : BitVec 26) : Eff := aluI d a imm fun x y => x <<< sh6 y
/-- `shri` (R93). -/
def effShri (d a : Spec) (imm : BitVec 26) : Eff := aluI d a imm fun x y => x >>> sh6 y
/-- `sari` (R93). -/
def effSari (d a : Spec) (imm : BitVec 26) : Eff := aluI d a imm fun x y => x.sshiftRight (sh6 y)

/-- The window address `lea` forms: the offset's carry never reaches the window index (R94). -/
def leaValue (a : W64) (wdelta : Byte) (odelta : Half) : W64 :=
  (bits a 16 8 + wdelta ++ (bits a 0 16 + odelta)).setWidth 64

/-- `lea` (R94). -/
def effLea (d a : Spec) (wdelta : Byte) (odelta : Half) : Eff := fun e =>
  .ok (scalarResult d (leaValue (e.k.scalar a) wdelta odelta) 1)
/-- `li` (R95). -/
def effLi (d : Spec) (imm : BitVec 34) : Eff := fun _ => .ok (scalarResult d (imm.signExtend 64) 1)
/-- `lui` (R95). -/
def effLui (d : Spec) (imm : W32) : Eff := fun e => .ok (scalarResult d (imm ++ bits (e.k.scalar d) 0 32) 1)

/-- The number of leading zero bits (R96). -/
def clz64 (x : W64) : Nat := if x = 0 then 64 else 63 - Nat.log2 x.toNat

/-- `clz` (R96). -/
def effClz (d a : Spec) : Eff := fun e => .ok (scalarResult d (BitVec.ofNat 64 (clz64 (e.k.scalar a))) 1)
/-- `popc` (R96). -/
def effPopc (d a : Spec) : Eff := fun e =>
  .ok (scalarResult d (BitVec.ofNat 64 (countBelow 64 fun i => bitAt (e.k.scalar a) i)) 1)

/-- The field [pos+len-1:pos], extended (R97). -/
def bfxValue (a : W64) (pos len : Nat) (sx : Bool) : W64 :=
  let f := bits a pos len
  if sx then f.signExtend 64 else f.setWidth 64

/-- `bfx` (R97). -/
def effBfx (d a : Spec) (pos len1 : BitVec 6) (sx : Bool) : Eff := fun e =>
  .ok (scalarResult d (bfxValue (e.k.scalar a) pos.toNat (len1.toNat + 1) sx) 1)
/-- `bfi` (R97). -/
def effBfi (d a b : Spec) (pos len1 : BitVec 6) : Eff := fun e =>
  .ok (scalarResult d (setBits (e.k.scalar b) pos.toNat (bits (e.k.scalar a) 0 (len1.toNat + 1))) 1)
/-- `sel` (R98). -/
def effSel (d a b : Spec) (p : Fin 48) : Eff := fun e =>
  .ok (scalarResult d (if bitAt e.k.p[p] 0 then e.k.scalar a else e.k.scalar b) 1)
/-- `cmp` (R99). -/
def effCmp (pd : Fin 48) (a b : Spec) (cond : Cond) : Eff := fun e =>
  .ok (predResult pd (allBits (condHolds cond (e.k.scalar a) (e.k.scalar b))))
/-- `cmpi` (R99). -/
def effCmpi (pd : Fin 48) (a : Spec) (imm : BitVec 24) (cond : Cond) : Eff := fun e =>
  .ok (predResult pd (allBits (condHolds cond (e.k.scalar a) (imm.signExtend 64))))

/-- Predicate logic over all 64 bits (R100). -/
def plogic (pd pa pb : Fin 48) (f : W64 → W64 → W64) : Eff := fun e => .ok (predResult pd (f e.k.p[pa] e.k.p[pb]))

/-- `pand` (R100). -/
def effPand (pd pa pb : Fin 48) : Eff := plogic pd pa pb (· &&& ·)
/-- `por` (R100). -/
def effPor (pd pa pb : Fin 48) : Eff := plogic pd pa pb (· ||| ·)
/-- `pxor` (R100). -/
def effPxor (pd pa pb : Fin 48) : Eff := plogic pd pa pb (· ^^^ ·)
/-- `pandn` (R100). -/
def effPandn (pd pa pb : Fin 48) : Eff := plogic pd pa pb fun x y => x &&& ~~~y
/-- `pset` (R100). -/
def effPset (pd : Fin 48) (a : Spec) : Eff := fun e => .ok (predResult pd (e.k.scalar a))

/-- `vext` (R101). -/
def effVext (d src : Spec) (l : BitVec 6) (sx : Bool) : Eff := fun e =>
  let v := lane (if src == .la then e.k.va.last else e.k.vb.last) l.toNat
  .ok (scalarResult d (if sx then v.signExtend 64 else v.setWidth 64) 1)

/-- The value of a control register (R66); the error record's numbers from 20 read as zero (R241). -/
def ctlRead (s : State) (c : Fin 256) (n : Nat) : W64 :=
  let x := s.cores[c]
  let k := x.cont
  match n with
  | 0 => k.cstat
  | 1 => k.tvec.setWidth 64
  | 2 => k.tpc.setWidth 64
  | 3 => k.tcause
  | 4 => k.tinfo
  | 5 => k.tags
  | 6 => k.padm
  | 7 => k.ts
  | 8 => x.tent
  | 9 => x.rplcnt
  | 10 => x.tmrcnt.setWidth 64
  | 11 => k.vflaga
  | 12 => k.vflagb
  | 13 => BitVec.ofNat 64 c.val
  | 14 => x.snapcnt
  | 15 => (s.parts[k.part]).rise
  | 16 => k.err[0] | 17 => k.err[1] | 18 => k.err[2] | 19 => k.err[3]
  | _ => 0

/-- The control register written by an `mtc`: read-only registers and fields are left (R2, R102, R103); TINFO takes all of its
bits (log entry 95). -/
def ctlWrite (x : CoreSt) (n : Nat) (v : W64) : CoreSt :=
  let k := x.cont
  match n with
  | 0 => { x with cont := { k with cstat := cWrite k.cstat v } }
  | 1 => { x with cont := { k with tvec := bits v 0 32 } }
  | 2 => { x with cont := { k with tpc := bits v 0 32 } }
  | 3 => { x with cont := { k with tcause := tWrite k.tcause v } }
  | 4 => { x with cont := { k with tinfo := v } }
  | 5 => { x with cont := { k with tags := v } }
  | 6 => { x with cont := { k with padm := padmWrite v } }
  | 7 => { x with cont := { k with ts := v } }
  | 8 => { x with tent := tentWrite x.tent v }
  | 9 => { x with rplcnt := rplWrite x.rplcnt v }
  | 10 => { x with tmrcnt := bits v 0 32 }
  | 11 => { x with cont := { k with vflaga := vflagWrite v } }
  | 12 => { x with cont := { k with vflagb := vflagWrite v } }
  | _ => x

/-- `mfc` (R102): a tag's status word goes to a register pair, and ls receives the low word. -/
def effMfc (d : Spec) (n : Byte) : Eff := fun e =>
  if n.toNat < 64 then .ok (scalarResult d (ctlRead e.s e.c n.toNat) 1)
  else
    let w := e.k.status[fin 63 (n.toNat - 64)]
    match d with
    | .main i => .ok { res := [{ reg := .s i, data := wide (bits w 0 64), lat := 1, lr := true },
                               { reg := .s (i + 1), data := wide (bits w 64 64), lat := 1 }] }
    | _ => .ok {}

/-- `mtc` (R102, R103): the register is replaced at commit. -/
def effMtc (n : Byte) (a : Spec) : Eff := fun e =>
  let v := e.k.scalar a
  .ok { acts := [.core e.c fun x => ctlWrite x n.toNat v] }

/-- `setbt` with a code address (R105). -/
def effSetbtAddr (n : Fin 16) (addr : W32) : Eff := fun _ =>
  .ok { res := [{ reg := .bt n, data := addr.setWidth 2048, lat := 1 }] }
/-- `setbt` with a scalar (R105). -/
def effSetbtReg (n : Fin 16) (a : Spec) : Eff := fun e =>
  .ok { res := [{ reg := .bt n, data := wide (e.k.scalar a), lat := 1 }] }
/-- `tset` (R104). -/
def effTset (t : Fin 32) (f : Fin 16) (a : Spec) : Eff := fun e =>
  .ok { res := [{ reg := .field t f, data := wide (e.k.scalar a), lat := 1 }] }

/-- The descriptor halves a field lies in (R104, R146). -/
def fieldHalves (f : Fin 16) : List Bool :=
  let (lo, n) := fieldPos f
  (if lo < 128 then [false] else []) ++ (if 128 < lo + n then [true] else [])

/-- A half of a descriptor register is poisoned (R146). -/
def Cont.halfPoisoned (k : Cont) (t : Fin 32) (hi : Bool) : Bool := bitAt k.tpoison (2 * t.val + hi.toNat)

/-- POISON for a descriptor half (R338, KIND 2). -/
def halfTrap (slot : Slot) (t : Fin 32) : Trap := ⟨.poison, poisonInfo 2 slot (BitVec.ofNat 24 t.val)⟩

/-- `tget` (R104): a field of a poisoned half traps POISON. -/
def effTget (d : Spec) (t : Fin 32) (f : Fin 16) : Eff := fun e =>
  if (fieldHalves f).any (e.k.halfPoisoned t) then .error (halfTrap e.slot t)
  else .ok (scalarResult d (getField e.k.t[t] f) 1)

end Sys2Proof.Machine
end

