-- ==== Sys2Proof/Machine/Scratch.lean ====
section
/-! DEFINITION. Scratchpad access (R137-R158, R166-R170): the checks of an effective address, the L and K
slots, the owner port's beats, load data, parked loads, declared buffers, and the hand-over of banks. -/

namespace Sys2Proof.Machine

/-- The bytes of an access width (R144). -/
def widthBytes : Width → Nat
  | .b => 1 | .h => 2 | .w => 4 | .d => 8 | .v => 256 | .hv => 128

/-- The alignment of an access width (R145). -/
def widthAlign : Width → Nat
  | .v | .hv => 4
  | wd => widthBytes wd

/-- The effective address of a load (R145). -/
def effAddr (base index : W64) (mult : Nat) (off : BitVec 12) : BitVec 24 :=
  bits (base + index * BitVec.ofNat 64 mult + off.signExtend 64) 0 24

/-- One window's share of an access: its bank, the byte offset in it, its length, where its bytes stand in the
access, and the window address of its first byte. -/
structure Part where
  bank : Fin 4096
  off : Nat
  len : Nat
  pos : Nat
  win : BitVec 24
  deriving DecidableEq, Repr

/-- The window of a window address. -/
def winOf (a : BitVec 24) : Byte := bits a 16 8

/-- A continuation's BMAP entry of a window. -/
def Cont.entry (k : Cont) (w : Byte) : BEntry := k.bmap[fin 255 w.toNat]

/-- The entry of a bank that attaches to a window of a core (R138). -/
def attached (c : Fin 256) (b : Byte) : BEntry := ⟨b, true, false, latBits c b⟩

/-- LAT of every mapped window follows the core that the continuation is restored on (R138). -/
def Cont.setLat (k : Cont) (c : Fin 256) : Cont :=
  { k with bmap := k.bmap.map fun e => if e.v then { e with lat := latBits c e.bank } else e }

/-- The shares of `n` bytes at a window address; the window after the last is not reached here. -/
def shares (c : Fin 256) (k : Cont) (a : BitVec 24) (n : Nat) : List Part :=
  let off := a.toNat % 65536
  let first := min n (65536 - off)
  let next : BitVec 24 := bits (BitVec.ofNat 32 ((a.toNat / 65536 + 1) * 65536)) 0 24
  { bank := bankOf c (k.entry (winOf a)).bank, off, len := first, pos := 0, win := a } ::
    (if first < n then
      [{ bank := bankOf c (k.entry (winOf next)).bank, off := 0, len := n - first, pos := first, win := next }]
    else [])

/-- The owner may read a bank in this state (R155). -/
def ownerReads : BufState → Bool
  | .empty | .filling => false
  | _ => true

/-- The owner may write a bank in this state (R155). -/
def ownerWrites : BufState → Bool
  | .opened | .empty => true
  | _ => false

/-- A trap that names a window address. -/
def winTrap (cause : Cause) (a : BitVec 24) : Trap := ⟨cause, a.setWidth 64⟩

/-- PRIV at execution: [63] set and the window address (R337). -/
def privTrap (a : BitVec 24) : Trap := ⟨.priv, a.setWidth 64 ||| 0x8000000000000000⟩

/-- A window is a system window (R139). -/
def sysWindow (w : Byte) : Bool := decide (252 ≤ w.toNat)

/-- The checks of an owner access in the order of R393: alignment and straddle, system windows, mapping,
buffer state. -/
def checkAccess (e : Env) (a : BitVec 24) (n align : Nat) (rd wr : Bool) : Except Trap (List Part) :=
  let ps := shares e.c e.k a n
  let w := (winOf a).toNat
  if a.toNat % align ≠ 0 then .error (winTrap .align a)
  else if 1 < ps.length ∧ (w = 251 ∨ w = 255) then .error (winTrap .align a)
  else match ps.find? (fun p => sysWindow (winOf p.win) && !cPriv e.k.cstat) with
  | some p => .error (privTrap p.win)
  | none =>
    match ps.find? (fun p => !(e.k.entry (winOf p.win)).v) with
    | some p => .error (winTrap .detached p.win)
    | none =>
      if ps.any (fun p => (rd && !ownerReads (e.s.banks[p.bank]).st) || (wr && !ownerWrites (e.s.banks[p.bank]).st))
      then .error (winTrap .bufstate a) else .ok ps

/-- The beats of an access's share (R141). -/
def beatsOf (op : AccOp) (desc : Bool) (n : Nat) : Nat :=
  match op with
  | .amo _ _ _ => 2
  | _ => if desc then 1 else max 1 (ceilDiv n 64)

/-- What a core's releases cover beside the accesses in their classes (R278): those of its unperformed accesses that it has
acquired by a `waitf` on a post of its own. -/
def CoreSt.acquired (x : CoreSt) : List Nat :=
  let seen := ((x.keep.map Cont.seen).getD []) ++ x.cont.seen
  (x.accs.map OutAcc.id).filter seen.contains

/-- The bytes of a share that an `stx` of the same bundle has replaced, by their place in the bank, as they were (R78). -/
def Env.wasIn (e : Env) (p : Part) : List (Nat × Byte) :=
  let lo := bankPa p.bank p.off
  (e.was.filter fun x => decide (lo ≤ x.1) && decide (x.1 < lo + p.len)).map fun x => (x.1 - bankPa p.bank 0, x.2)

/-- An owner-port access joins its banks' queues and the continuation's list of accesses (R141); an `stf` is a release (R277,
R278). -/
def enqueue (e : Env) (id : Nat) (cls : BitVec 4) (ps : List Part) (op : Part → AccOp) (desc wr fe : Bool) :
    List Act :=
  ps.map (fun p => Act.bank p.bank fun b =>
    { b with q := b.q ++ [{ id, cid := e.k.cid, core := e.c, cls, op := op p, off := p.off, len := p.len,
                            pos := p.pos, win := p.win,
                            earliest := e.x.clk + 2 + latClass e.c (bankId p.bank),
                            beats := beatsOf (op p) desc p.len, parked := false
                            was := e.wasIn p, after := match op p with | .storeFE true _ => e.x.acquired | _ => [] }] }) ++
  [.cont e.c fun k => { k with acc := k.acc ++ ps.map fun p =>
      { id, cls, bank := p.bank, writes := wr, fullEmpty := fe, parts := 1, watch := false } }]

/-- A load allocates its queue entry, or none for a descriptor half (R146, R147). -/
def allocate (e : Env) (id : Nat) (dst : LoadTo) (width : Width) (extra : Nat) (ps : List Part) : List Act :=
  let lat := 6 + 2 * (ps.map fun p => latClass e.c (bankId p.bank)).foldl max 0
  let r : LoadRec :=
    { id, dest := dst, width, issued := e.x.clk, cycle := e.k.acyc, lat, extra, parts := ps.length, begun := false,
      got := [], last := 0, poison := none, order := e.k.order, pc := e.k.pc, slot := e.slot
      banks := ps.map Part.bank }
  let q : QEntry := { id, valid := false, data := 0, poison := none }
  [.cont e.c fun k =>
    let k := { k with loads := k.loads ++ [r] }
    match dst with
    | .qs _ => { k with qs := k.qs ++ [q] }
    | .qa => { k with qa := k.qa ++ [q] }
    | .qb => { k with qb := k.qb ++ [q] }
    | .desc _ _ => k]

/-- The bytes of a load. -/
def loadLen (dst : LoadTo) (width : Width) : Nat :=
  match dst with
  | .desc _ _ => 16
  | _ => widthBytes width

/-- The alignment of a load. -/
def loadAlign (dst : LoadTo) (width : Width) : Nat :=
  match dst with
  | .desc _ _ => 16
  | _ => widthAlign width

/-- The destination is a descriptor half (R145). -/
def isDesc : LoadTo → Bool
  | .desc _ _ => true
  | _ => false

/-- `lnop` (R69). -/
def effLnop : Eff := effNone

/-- `ld` (R144-R147). -/
def effLd (base index : Spec) (scale : BitVec 2) (off : BitVec 12) (cls : BitVec 4) (width : Width)
    (dst : LoadTo) : Eff := fun e =>
  let a := effAddr (e.k.scalar base) (e.k.scalar index) (2 ^ scale.toNat * widthBytes width) off
  match checkAccess e a (loadLen dst width) (loadAlign dst width) true false with
  | .error t => .error t
  | .ok ps =>
    .ok { acts := enqueue e e.id cls ps (fun _ => .load) (isDesc dst) false false ++ allocate e e.id dst width 0 ps }

/-- A full/empty load: `lde` also writes the bit (R151, R155). -/
def feLoad (base index : Spec) (scale : BitVec 2) (off : BitVec 12) (cls : BitVec 4) (sx : Bool) (op : AccOp)
    (wr : Bool) : Eff := fun e =>
  let a := effAddr (e.k.scalar base) (e.k.scalar index) (2 ^ scale.toNat * 4) off
  match checkAccess e a 4 4 true wr with
  | .error t => .error t
  | .ok ps =>
    .ok { acts := enqueue e e.id cls ps (fun _ => op) false wr true ++ allocate e e.id (.qs sx) .w 0 ps }

/-- `lde` (R151). -/
def effLde (base index : Spec) (scale : BitVec 2) (off : BitVec 12) (cls : BitVec 4) (sx : Bool) : Eff :=
  feLoad base index scale off cls sx .lde true
/-- `ldf` (R151). -/
def effLdf (base index : Spec) (scale : BitVec 2) (off : BitVec 12) (cls : BitVec 4) (sx : Bool) : Eff :=
  feLoad base index scale off cls sx .ldf false

/-- `amo` (R153): its entry becomes valid 2 cycles after a load's would. -/
def effAmo (base val : Spec) (op : AmoOp) (cls : BitVec 4) (wide : Bool) : Eff := fun e =>
  let a : BitVec 24 := bits (e.k.scalar base) 0 24
  let n := if wide then 8 else 4
  let expect := match op with | .cas x => e.k.scalar x | _ => 0
  match checkAccess e a n n true true with
  | .error t => .error t
  | .ok ps =>
    .ok { acts := enqueue e e.id cls ps (fun _ => .amo op (e.k.scalar val) expect) false true false ++
            allocate e e.id (.qs true) (if wide then .d else .w) 2 ps }

/-- `lbst` (R157): permitted in every state; the window alone is named. -/
def effLbst (base : Spec) (cls : BitVec 4) (sel : Bool) : Eff := fun e =>
  let a : BitVec 24 := bits (e.k.scalar base) 0 24
  match checkAccess e a 1 1 false false with
  | .error t => .error t
  | .ok ps =>
    .ok { acts := enqueue e e.id cls ps (fun _ => .lbst sel) false false false ++ allocate e e.id (.qs false) .d 0 ps }

/-- `knop` (R69). -/
def effKnop : Eff := effNone

/-- The address of a store (R148). -/
def storeAddr (e : Env) (base : Spec) (off : BitVec 12) : BitVec 24 :=
  bits (e.k.scalar base + off.signExtend 64) 0 24

/-- The bytes of a share of a store, as offsets in its bank, those of `keep` only. -/
def shareBytes (data : VReg) (keep : Nat → Bool) (p : Part) : List (Nat × Byte) :=
  ((List.range p.len).filter fun i => keep (p.pos + i)).map fun i => (p.off + i, bits data (8 * (p.pos + i)) 8)

/-- A store of `n` bytes. -/
def storeOf (e : Env) (base : Spec) (off : BitVec 12) (cls : BitVec 4) (n align : Nat) (desc fe : Bool)
    (op : Part → AccOp) : Except Trap Out :=
  match checkAccess e (storeAddr e base off) n align false true with
  | .error t => .error t
  | .ok ps => .ok { acts := enqueue e e.id cls ps op desc true fe }

/-- `st` (R148): a register, queue, stream or descriptor half, which traps while it is poisoned (R146). -/
def effSt (base : Spec) (src : StoreFrom) (off : BitVec 12) (cls : BitVec 4) (width : Width) : Eff := fun e =>
  match src with
  | .data x =>
    let v := e.k.kdata x
    storeOf e base off cls (widthBytes width) (widthAlign width) false false
      fun p => .store (shareBytes v (fun _ => true) p)
  | .desc t hi =>
    let v := e.k.get (.t t hi)
    if e.k.halfPoisoned t hi then .error (halfTrap e.slot t) else
    storeOf e base off cls 16 16 true false fun p => .store (shareBytes v (fun _ => true) p)

/-- `stf` (R151). -/
def effStf (base : Spec) (src : KData) (off : BitVec 12) (cls : BitVec 4) : Eff := fun e =>
  let v := e.k.kdata src
  storeOf e base off cls 4 4 false false fun p => .storeFE true (shareBytes v (fun _ => true) p)
/-- `ste` (R151). -/
def effSte (base : Spec) (src : KData) (off : BitVec 12) (cls : BitVec 4) : Eff := fun e =>
  let v := e.k.kdata src
  storeOf e base off cls 4 4 false false fun p => .storeFE false (shareBytes v (fun _ => true) p)

/-- `stm` (R149): the lanes set in the predicate and not padding. -/
def effStm (base : Spec) (src : KData) (off : BitVec 12) (cls : BitVec 4) (width : Width) (p : Fin 48) : Eff :=
  fun e =>
  let v := e.k.kdata src
  let on (i : Nat) : Bool := bitAt e.k.p[p] (i / 4) && !padLane e.k.padm (i / 4)
  storeOf e base off cls (widthBytes width) 4 false false fun s => .store (shareBytes v on s)

/-- The state a `bst` declares (R154). -/
def bstState : BstMode → BufState
  | .undeclare => .opened
  | .empty => .empty
  | .full => .full

/-- `bst` (R154): the state is tested at issue and written at commit with the buffer number, so that an `lbst` of the same
bundle, which reads at its beat, reads the new one (log entry 82). -/
def effBst (base : Spec) (buf : Byte) (mode : BstMode) (_cls : BitVec 4) : Eff := fun e =>
  let a : BitVec 24 := bits (e.k.scalar base) 0 24
  match checkAccess e a 1 1 false false with
  | .error t => .error t
  | .ok ps =>
    if ps.any fun p => (e.s.banks[p.bank]).st == .filling || (e.s.banks[p.bank]).st == .draining then
      .error (winTrap .bufstate a)
    else .ok { acts := ps.map fun p => .bank p.bank fun b => { b with st := bstState mode, buf } }

/-- The hold of `bst` (R154): an earlier access of the core to its bank has not performed. -/
def holdBst (base : Spec) : Env → Option (List Act) := fun e =>
  let w := winOf (bits (e.k.scalar base) 0 24)
  let b := bankOf e.c (e.k.entry w).bank
  if (e.k.entry w).v && e.x.accs.any fun a => a.bank == b then some [] else none

/-- A read of `n` bytes at issue waits: for the core's earlier stores to their bank (R77), and, so that it keeps its place
in the core's order, for its earlier accesses in the read's class, parked loads among them, and for those of its words (R152,
R273, R274). -/
def Env.readWaits (e : Env) (cls : BitVec 4) (bank : Fin 4096) (off n : Nat) : Bool :=
  e.x.accs.any fun o =>
    (o.bank == bank && o.writes && !o.fullEmpty) || (!o.watch && o.cls == cls) ||
      (o.bank == bank && !o.watch && (e.s.banks[bank]).q.any fun a =>
        a.id == o.id && decide (a.off < off + n) && decide (off < a.off + a.len))

/-- Something holds of some copy of a continuation: live, in a keep bank, spilled, or about to be restored. -/
def State.anyCont (s : State) (f : Cont → Bool) : Bool :=
  (List.finRange 256).any (fun c => f (s.cores[c]).cont || ((s.cores[c]).keep.map f).getD false) ||
    (List.finRange 4).any fun d =>
      (s.dies[d]).resume.any (fun r => f r.cont) || (s.dies[d]).seating.any fun t => t.resume.any fun r => f r.cont

/-- Accesses of a core with these names have not performed, wherever their continuation is now, and when it has left
(R152, R271). -/
def State.outstanding (s : State) (c : Fin 256) (ids : List Nat) : Bool :=
  !ids.isEmpty && (s.anyCont (fun k => k.acc.any fun a => ids.contains a.id) ||
    (List.range 256).any fun i => (s.banks[fin 4095 (c.val / 16 * 256 + i)]).q.any fun a => ids.contains a.id)

/-! ### The owner port -/

/-- The new value of an `amo` (R153), at a width of `n` bits. -/
def amoNew (n : Nat) (op : AmoOp) (old : BitVec n) (value expect : W64) : BitVec n :=
  let v := bits value 0 n
  match op with
  | .add => old + v
  | .min => if old.slt v then old else v
  | .max => if old.slt v then v else old
  | .swap => v
  | .cas _ => if old = bits expect 0 n then v else old
  | .and => old &&& v
  | .or => old ||| v

/-- The word of a bank that an access of full/empty kind names, as a word number of the device (R150). -/
def Access.word (a : Access) (b : Fin 4096) : Nat := bankPa b a.off / 4

/-- A word's full/empty bit is set (R150). -/
def State.full (s : State) (w : Nat) : Bool := !s.empties.contains w

/-- BUF and STATE as `lbst` reads them (R157). -/
def bstWord (b : BankSt) : W64 :=
  let st : BitVec 3 := match b.st with | .opened => 0 | .empty => 1 | .filling => 2 | .full => 3 | .draining => 4
  (b.buf ++ 0#5 ++ st).setWidth 64

/-- Bytes read by a share are given to its load (R141). -/
def giveBytes (a : Access) (bytes : List Byte) (at_ : Nat) (poison : Option (BitVec 24)) : Act :=
  .byCid a.core a.cid fun k =>
    { k with loads := k.loads.map fun r =>
        if r.id = a.id then
          { r with parts := r.parts - 1, last := max r.last at_,
                   got := r.got ++ (List.range bytes.length).map (fun i => (a.pos + i, bytes.getD i 0)),
                   poison := match r.poison, poison with
                     | some x, some y => some (if y.toNat < x.toNat then y else x)
                     | some x, none => some x
                     | none, y => y }
        else r }

/-- The share of an access has performed. -/
def performedAct (a : Access) (b : Fin 4096) : Act :=
  .byCid a.core a.cid fun k =>
    { k with acc := k.acc.filter fun o => !(o.id == a.id && o.bank == b) }

/-- The window address of the poisoned sector at a device address within a share (R338). -/
def poisonWin (a : Access) (b : Fin 4096) (pa : Nat) : BitVec 24 :=
  BitVec.ofNat 24 (a.win.toNat / 65536 * 65536 + (pa - bankPa b 0))

/-- A monitor is armed when its `watch` performs (R258); one that a freeze has withdrawn is armed at the return (R259). -/
def Monitor.performed (m : Monitor) (id : Nat) : Monitor := if m.id = id ∧ !m.lost then { m with armed := true } else m

/-- The bytes that an access reads: memory's, and those that an `stx` of its bundle has replaced as they were (R78). -/
def Access.bytes (a : Access) (m : List Host.Cell) (b : Fin 4096) : List Byte :=
  (List.range a.len).map fun i =>
    ((a.was.find? fun x => x.1 == a.off + i).map Prod.snd).getD (memGet m (bankPa b (a.off + i)))

/-- What a read and write leaves of the bytes it computes: those that an `stx` of its bundle has written, which stands after it
in slot order, stay (R78). -/
def Access.leaves (a : Access) (m : List Host.Cell) (b : Fin 4096) (new : List Byte) : List Byte :=
  (List.range new.length).map fun i =>
    if a.was.any fun x => x.1 == a.off + i then memGet m (bankPa b (a.off + i)) else new.getD i 0

/-- What an access does when it performs, at time `t` (R272): the bank is read and written as it stands. -/
def performAct (s : State) (b : Fin 4096) (a : Access) (t : Nat) : List Act :=
  let pa := bankPa b a.off
  let bytes := a.bytes s.mem b
  let pz := (poisonIn s.poisoned pa a.len).map (poisonWin a b)
  let w := a.word b
  (match a.op with
  | .load => [giveBytes a bytes t pz]
  | .lde => [giveBytes a bytes t pz, .empty w true] ++ monitorActs b a.off 4 ++ parkActs b a.off 4
  | .ldf => [giveBytes a bytes t pz]
  | .amo op v x =>
    let old := leNat bytes
    let new := if a.len = 8 then leBytes 8 (amoNew 64 op (BitVec.ofNat 64 old) v x).toNat
      else leBytes 4 (amoNew 32 op (BitVec.ofNat 32 old) v x).toNat
    giveBytes a bytes t pz :: (if pz.isSome then [] else writeActs pa (a.leaves s.mem b new))
  | .lbst sel =>
    [giveBytes a (leBytes 8 (if sel then (s.banks[b]).ts else bstWord s.banks[b]).toNat) t none]
  | .store data => scatterActs b data
  | .storeFE f data => scatterActs b data ++ [.empty w (!f)]
  | .watch => [.core a.core fun x =>
      if x.cont.cid = a.cid then { x with cont := { x.cont with mon := x.cont.mon.map (Monitor.performed · a.id) } } else x]) ++
  [performedAct a b, .bank b fun x => { x with q := x.q.filter fun y => !(y.id == a.id) }]

/-- An earlier access of the core stands before this one in its class or on its bytes (R273, R274); a `watch` is in no
class, and is ordered by its bank alone (R258). What waits behind a parked load for its word holds back the accesses of its
core that come after it (log entry 82). A release follows what it covers beside its own class (R278). -/
def Access.blocked (a : Access) (s : State) (b : Fin 4096) : Bool :=
  let before := (s.cores[a.core]).accs.takeWhile fun o => !(o.id == a.id)
  (a.op != .watch && before.any fun o => !o.watch && o.cls == a.cls) ||
    (((s.banks[b]).q.takeWhile fun y => !(y.id == a.id)).any fun y =>
      y.core == a.core && (!y.parked || a.meets y)) || s.outstanding a.core a.after

/-- OWNER_PORT_BEAT (R141): the first access that may go on takes its next beat; at its last beat it performs,
and a full/empty load whose word is empty is parked (R152), or withdrawn when its continuation is frozen. -/
def ownerBeat (s : State) (b : Fin 4096) : List Act :=
  match (s.banks[b]).q.find? fun a => !a.parked && !(a.blocked s b) with
  | none => []
  | some a =>
    let t := max a.earliest (s.banks[b]).clear
    let began : List Act := [.byCid a.core a.cid fun k =>
      { k with loads := k.loads.map fun r => if r.id = a.id then { r with begun := true } else r }]
    let took : Act := .bank b fun x =>
      { x with clear := t + 1, q := x.q.map fun y => if y.id = a.id then { y with beats := y.beats - 1 } else y }
    if 1 < a.beats then took :: began
    else
      let fe := a.op == .lde || a.op == .ldf
      if fe && !(s.full (a.word b)) then
        let x := s.cores[a.core]
        if x.cont.cid == a.cid && x.cont.loads.any (fun r => r.id = a.id) then
          [.bank b fun x => { x with clear := t + 1,
                                     q := x.q.map fun y => if y.id = a.id then { y with parked := true } else y }]
            ++ began
        else
          let mine (y : Access) : Bool := (x.keep.map fun k => k.acc.any fun o => o.id == y.id).getD false
          let gone := withdrawn a.core mine [] ((s.banks[b]).q.map fun y => if y.id = a.id then { y with parked := true } else y)
          [.bank b fun x => { x with clear := t + 1, q := x.q.filter fun y => !(gone.any fun g => g.id == y.id) },
           .core a.core fun x => { x with keep := x.keep.map fun k => { k with parks := k.parks ++ gone.map fun g => (b, g) } }]
            ++ began
      else took :: began ++ performAct s b a t

/-- PARK_SATISFY (R152): the first parked load whose word is full is satisfied. -/
def parkSatisfied (s : State) (b : Fin 4096) : List Act :=
  match (s.banks[b]).q.find? fun a => a.parked && s.full (a.word b) with
  | none => []
  | some a => performAct s b a (max a.earliest s.clock)

/-- The value of a load's data (R146, R153). -/
def loadValue (r : LoadRec) : VReg :=
  let n := loadLen r.dest r.width
  let x : VReg := BitVec.ofNat 2048
    (leNat ((List.range n).map fun i => ((r.got.find? fun p => p.1 == i).map Prod.snd).getD 0))
  match r.dest with
  | .qs true => wide ((match r.width with
      | .b => (bits x 0 8).signExtend 64
      | .h => (bits x 0 16).signExtend 64
      | .w => (bits x 0 32).signExtend 64
      | _ => bits x 0 64) : W64)
  | _ => x

/-- A load's entry becomes valid. -/
def fillEntry (r : LoadRec) (q : List QEntry) : List QEntry :=
  q.map fun x => if x.id = r.id then { x with valid := true, data := loadValue r, poison := r.poison } else x

/-- A load's data reaches the continuation: its entry, or its descriptor half, poisoned or clean (R146). While
the continuation is frozen a half is one of the snapshot's entries (R340). -/
def Cont.deliver (k : Cont) (r : LoadRec) (frozen : Bool) : Cont :=
  let k := { k with loads := k.loads.filter fun x => !(x.id == r.id) }
  let bad := r.poison.isSome
  match r.dest with
  | .qs _ => { k with qs := fillEntry r k.qs }
  | .qa => { k with qa := fillEntry r k.qa }
  | .qb => { k with qb := fillEntry r k.qb }
  | .desc t hi =>
    if frozen then
      { k with pend := orderPut { reg := .t t hi, data := loadValue r, lanes := BitVec.allOnes 64
                                  due := max (r.cycle + r.lat) (k.acyc + 1), order := r.order, lr := false, flags := 0, bad
                                  pc := r.pc, slot := r.slot, lat := r.lat } k.pend }
    else (k.put (.t t hi) (BitVec.allOnes 64) (loadValue r)).halfPoison t hi bad

/-- A load may give its data: all its beats are taken and its latency has passed (R141); an `amo`, whose last beat is its
write beat, two cycles after a load in its place (R153). -/
def LoadRec.due (r : LoadRec) (clk : Nat) : Bool :=
  let beat := if r.extra = 0 then r.last else r.last - 1
  r.parts == 0 && decide (max (r.issued + r.lat) (beat + r.lat / 2 - 2) + r.extra ≤ clk)

/-- LOAD_DATA_VALID (R141): the first load of a core whose data is due, live or of the frozen image. -/
def loadValid (s : State) (c : Fin 256) : List Act :=
  let x := s.cores[c]
  match x.cont.loads.find? (fun r => r.due x.clk) with
  | some r => [.cont c fun k => k.deliver r false]
  | none =>
    match x.keep.bind (fun k => k.loads.find? fun r => r.parts == 0) with
    | some r => [.core c fun x => { x with keep := x.keep.map fun k => k.deliver r true }]
    | none => []

/-! ### Continuations that have moved -/

/-- A copy of a continuation that left its core lies in a record of the resume list: its tag state is saved there
(R204). -/
def resumeActs (cid : Nat) (f : Cont → Cont) : List Act :=
  let g (r : ResumeRec) : ResumeRec := if r.cont.cid = cid then { r with cont := f r.cont } else r
  (List.finRange 4).map fun d => .die d fun x =>
    { x with resume := x.resume.map g, seating := x.seating.map fun t => { t with resume := t.resume.map g } }

/-- The core that holds a continuation, live or in its keep bank; the given one where none does. -/
def seatOf (s : State) (c : Fin 256) (cid : Nat) : Fin 256 :=
  let has (o : Fin 256) : Bool := (s.cores[o]).cont.cid == cid || ((s.cores[o]).keep.map Cont.cid) == some cid
  if has c then c else ((List.finRange 256).find? has).getD c

/-- An update of a continuation, wherever it is now: on the core that it was on, on another after a resumption, or spilled. -/
def contActs (s : State) (c : Fin 256) (cid : Nat) (f : Cont → Cont) : List Act :=
  .byCid (seatOf s c cid) cid f :: resumeActs cid f

/-! ### Handing banks over (R166-R170) -/

/-- The continuation's monitor is lost when its bank leaves the map (R259). -/
def Cont.loseBank (k : Cont) (b : Fin 4096) : Cont :=
  { k with mon := k.mon.map fun m => if m.bank = b then { m with lost := true, armed := false } else m }

/-- The continuation's map without a bank (R140, R167). -/
def Cont.dropBank (k : Cont) (c : Fin 256) (b : Fin 4096) : Cont :=
  { k.loseBank b with bmap := k.bmap.map fun e => if e.v && bankOf c e.bank == b then { e with v := false, opened := false } else e }

/-- A window's entry replaced. -/
def Cont.setEntry (k : Cont) (w : Byte) (f : BEntry → BEntry) : Cont :=
  { k with bmap := vset k.bmap (fin 255 w.toNat) (f (k.entry w)) }

/-- `give` (R166, R167 step 1): the bank leaves the core's map, and that of a saved image, which is the same map (R140). -/
def effGive (wsrc : Byte) (core : Spec) (wdst : Byte) (flag : Fin 32) (fe : Bool) : Eff := fun e =>
  let v := e.k.scalar core
  if bits v 8 56 ≠ 0 ∨ (bits v 4 4).toNat ≠ e.c.val / 16 then .error ⟨.descr, v⟩
  else if !(e.k.entry wsrc).v then .error (winTrap .detached (wsrc ++ 0#16))
  else
    let b := bankOf e.c (e.k.entry wsrc).bank
    let dst := fin 255 (bits v 0 8).toNat
    .ok { last := [
      .bank b fun x => { x with ts := e.k.ts, transit := some (.give e.c dst wdst flag fe e.k.cid (e.x.clk + 2) e.x.acquired) },
      .cont e.c fun k => ({ k with give := some (wsrc, dst) }.loseBank b).setEntry wsrc fun x =>
        { x with v := false, opened := false },
      .core e.c fun x => { x with keep := x.keep.map fun k => k.dropBank e.c b }] }

/-- `openw` (R170). -/
def effOpenw (w : Byte) : Eff := fun e =>
  .ok { acts := [.cont e.c fun k => k.setEntry w fun x => { x with opened := true }] }
/-- `closew` (R170). -/
def effClosew (w : Byte) : Eff := fun e =>
  .ok { acts := [.cont e.c fun k => k.setEntry w fun x => { x with opened := false }] }

/-- The drain of R167 step 2: no access of the giving continuation to the bank is left, at the bank from whatever core it was
made or withdrawn from it by a freeze (R152), and no data read from it is on its way back. -/
def drained (s : State) (b : Fin 4096) (cid : Nat) : Bool :=
  !((s.banks[b]).q.any fun a => a.cid == cid) &&
    !(s.anyCont fun k => k.cid == cid && (k.parks.any (fun p => p.1 == b) || k.loads.any fun r => r.banks.contains b))

end Sys2Proof.Machine
end

