-- ==== Sys2Proof/Machine/Desc.lean ====
section
/-! DEFINITION. Descriptors as engine instructions read them (R22, R26-R28, R178-R181, R206-R209, R287): their
fields, the units they name, the address of a unit, and the checks at issue that every descriptor shares. -/

namespace Sys2Proof.Machine

/-- The format of a descriptor (R27). -/
inductive TFmt | i32 | f32 | bf16 | f16 | e8 | ni (k : Nat) (centred : Bool)
  deriving DecidableEq, Repr

/-- A format code (R27). -/
def fmtOfCode (c : BitVec 6) : Option TFmt :=
  let n := c.toNat
  if n = 0 then some .i32 else if n = 1 then some .f32 else if n = 2 then some .bf16
  else if n = 3 then some .f16 else if n = 4 then some .e8
  else if 0x10 ≤ n ∧ n ≤ 0x17 then some (.ni (n - 0x0F) false)
  else if 0x18 ≤ n ∧ n ≤ 0x1E then some (.ni (n - 0x17) true)
  else none

/-- BASE (R206). -/
def dBase (d : Desc) : Nat := (bits d 0 64).toNat
/-- SPACE (R206). -/
def dSpace (d : Desc) : Nat := (bits d 64 2).toNat
/-- FMT, a reserved code read as E8, which no check lets pass (R27). -/
def dFmt (d : Desc) : TFmt := (fmtOfCode (bits d 66 6)).getD .e8
/-- VIEW (R206). -/
def dView (d : Desc) : Nat := (bits d 72 2).toNat
/-- The extent along dimension k; a field value of 0 means 1 (R178). -/
def dDim (d : Desc) (k : Nat) : Nat := let n := (bits d (74 + 16 * k) 16).toNat; if n = 0 then 1 else n
/-- Stride k, from 1 to 3 (R178). -/
def dStride (d : Desc) (k : Nat) : Int := (bits d (138 + 24 * (k - 1)) 24).toInt
/-- BUF (R206). -/
def dBuf (d : Desc) : Byte := bits d 210 8
/-- CLASS (R206). -/
def dClass (d : Desc) : BitVec 4 := bits d 218 4
/-- META (R206). -/
def dMeta (d : Desc) : Fin 32 := fin 31 (bits d 222 5).toNat
/-- SCALE (R206). -/
def dScale (d : Desc) : Fin 32 := fin 31 (bits d 227 5).toNat
/-- PAD (R206). -/
def dPad (d : Desc) : Nat := (bits d 232 2).toNat

/-- The format is nested-integer. -/
def TFmt.isNi : TFmt → Bool
  | .ni _ _ => true
  | _ => false

/-- Bytes of an element, or of a group of 256 (R27, R28). -/
def TFmt.unit : TFmt → Nat
  | .i32 | .f32 => 4
  | .bf16 | .f16 => 2
  | .e8 => 1
  | .ni _ _ => 256

/-- Units along d0: elements, or groups for NI (R28). -/
def units0 (d : Desc) : Nat := if (dFmt d).isNi then ceilDiv (dDim d 0) 256 else dDim d 0

/-- The extents in units. -/
def uDim (d : Desc) (k : Nat) : Nat := if k = 0 then units0 d else dDim d k

/-- The index tuples below four extents, i0 fastest (R178). -/
def ixs (n0 n1 n2 n3 : Nat) : List Ix :=
  (List.range n3).flatMap fun i3 => (List.range n2).flatMap fun i2 => (List.range n1).flatMap fun i1 =>
    (List.range n0).map fun i0 => (i0, i1, i2, i3)

/-- Index k of a tuple. -/
def Ix.at (u : Ix) (k : Nat) : Nat :=
  if k = 0 then u.1 else if k = 1 then u.2.1 else if k = 2 then u.2.2.1 else u.2.2.2

/-- A unit is padding under PADM (R114); a group is when every position of it is. -/
def padUnit (padm : W64) (d : Desc) (u : Ix) : Bool :=
  let k := padAxis padm
  let i := Ix.at u k
  padPos padm k (dDim d k) (if k = 0 ∧ (dFmt d).isNi then 256 * i else i)

/-- The bits of a unit's bytes, or of those of its 64-byte part `q`, that are not padding (R114): byte 32p + j of a group holds
bits of its elements 8j to 8j + 7 (R28). -/
def unitMask (padm : W64) (d : Desc) (u : Ix) (q : Option Nat) : List Byte :=
  if (dFmt d).isNi && padAxis padm == 0 then
    let plane : List Byte := (List.range 32).map fun j => BitVec.ofNat 8 ((List.range 8).foldl (fun n i =>
      n + (!(padPos padm 0 (dDim d 0) (256 * u.1 + 8 * j + i))).toNat * 2 ^ i) 0)
    (List.replicate (match q with | some _ => 2 | none => 8) plane).flatten
  else List.replicate (match q with | some _ => 64 | none => (dFmt d).unit) 0xFF

/-- Element `e` of group `u` of an NI tensor is padding or lies beyond the extent (R28, R114). -/
def padElem (padm : W64) (d : Desc) (u : Ix) (e : Nat) : Bool :=
  let k := padAxis padm
  decide (dDim d 0 ≤ 256 * u.1 + e) || padPos padm k (dDim d k) (if k = 0 then 256 * u.1 + e else Ix.at u k)

/-- The units a descriptor names, in index order, without padding (R114, R178). -/
def unitsOf (padm : W64) (d : Desc) : List Ix :=
  (ixs (units0 d) (dDim d 1) (dDim d 2) (dDim d 3)).filter fun u => !padUnit padm d u

/-- The number of elements a descriptor names. -/
def elemCount (d : Desc) : Nat := dDim d 0 * dDim d 1 * dDim d 2 * dDim d 3

/-- The byte offset of a unit under R178. -/
def relOf (d : Desc) (u : Ix) : Int :=
  let lin : Int := u.2.1 * dStride d 1 + u.2.2.1 * dStride d 2 + u.2.2.2 * dStride d 3
  if (dFmt d).isNi then 256 * u.1 + lin else (dFmt d).unit * (u.1 + lin)

/-- The address of matrix element (r, c) of a VIEWS tensor (R287). -/
def locOf (d : Desc) (size : Nat) (r c : Nat) : Int :=
  let p := dStride d 1 * (if (dFmt d).isNi then 1 else size)
  dBase d + 4096 * (((r / 64 : Nat) : Int) * (p / 64) + ((c * size / 64 : Nat) : Int)) +
    ((64 * (r % 64) + c * size % 64 : Nat) : Int)

/-- The 64-byte part `q` of a group among its parts (R287). -/
def quarterOf (q : Option Nat) (xs : List (Int × Nat)) : List (Int × Nat) :=
  match q with
  | none => xs
  | some i => if xs.length = 4 then (xs[i]?).toList else xs.map fun x => (x.1 + 64 * i, 64)

/-- The parts of a unit, each an address and a length; `block` asks for the layout of R287, `cols` for the column
addressing of space 2 (R209). -/
def unitSegs (d : Desc) (cols block : Bool) (u : Ix) : List (Int × Nat) :=
  let f := dFmt d
  if dSpace d = 2 ∧ cols then
    [(dBase d + 0x6000 * u.2.1 + (if f.isNi then 256 * u.1 else f.unit * u.1 : Nat), f.unit)]
  else if dSpace d = 1 ∧ (block ∨ dView d ≠ 0) then
    if dView d = 1 then [(locOf d f.unit u.1 u.2.1, f.unit)]
    else if dView d = 2 then [(locOf d f.unit (32 * u.2.2.2 + u.2.1) (32 * u.2.2.1 + u.1), f.unit)]
    else if f.isNi then (List.range 4).map fun j => (locOf d 1 u.2.1 (256 * u.1 + 64 * j), 64)
    else [(locOf d f.unit u.2.1 u.1, f.unit)]
  else [(dBase d + relOf d u, f.unit)]

/-- The address at which a unit starts, before any page is known to carry VIEWS. -/
def unitAddr (d : Desc) (cols : Bool) (u : Ix) : Int := ((unitSegs d cols false u).head?.map Prod.fst).getD 0

/-- The windows a space-0 operand touches (R179), each with the lowest byte touched in it, in rising order. -/
def windowsOf (padm : W64) (d : Desc) : List (Nat × Nat) :=
  (unitsOf padm d).foldl (fun ws u =>
    let a := (dBase d + relOf d u).toNat
    addWin ws (a / 65536) a) []
where
  addWin : List (Nat × Nat) → Nat → Nat → List (Nat × Nat)
    | [], w, a => [(w, a)]
    | (v, b) :: ws, w, a =>
      if w < v then (w, a) :: (v, b) :: ws else if w = v then (v, min a b) :: ws else (v, b) :: addWin ws w a

/-- An operand resolved at issue (R179). -/
def resolve (k : Cont) (c : Fin 256) (padm : W64) (d : Desc) : Opnd :=
  { d, banks := if dSpace d = 0 then
      (windowsOf padm d).map fun w => let x : Byte := BitVec.ofNat 8 w.1; (x, bankOf c (k.entry x).bank)
    else [] }

/-- A base bit stands above its space's width, or fabric bits [47:46] are not zero (R22). -/
def baseBad (d : Desc) : Bool :=
  let b := dBase d
  match dSpace d with
  | 0 => decide (2 ^ 24 ≤ b)
  | 1 => decide (2 ^ 48 ≤ b)
  | 2 => decide (2 ^ 29 ≤ b)
  | _ => b / 2 ^ 46 % 4 != 0

/-- A touched space-0 byte lies outside 0 to 2^24 - 1 (R179). -/
def spanBad (padm : W64) (d : Desc) : Bool :=
  dSpace d == 0 && (unitsOf padm d).any fun u =>
    let a : Int := dBase d + relOf d u
    decide (a < 0) || decide (2 ^ 24 < a + (dFmt d).unit)

/-- A view is rejected at issue (R180, R287). -/
def viewBad (d : Desc) : Bool :=
  let v := dView d
  v == 3 || (v != 0 && (dSpace d != 1 || (dFmt d).isNi)) || (v == 1 && (decide (1 < dDim d 2) || decide (1 < dDim d 3))) ||
    (v == 2 && (decide (32 < dDim d 0) || decide (32 < dDim d 1)))

/-- A base or stride is misaligned for its format or view (R28, R181, R287); strides that space 2 ignores are not tested (R209;
log entry 98). -/
def alignBad (d : Desc) (cols : Bool) : Bool :=
  let f := dFmt d
  let pitch := dStride d 1 * f.unit
  (if f.isNi then
      dBase d % 256 != 0 || (!(cols && dSpace d == 2) && [1, 2, 3].any fun k => dStride d k % 256 != 0)
    else dBase d % f.unit != 0) ||
  (dSpace d == 1 && dView d != 0 && (dBase d % 4096 != 0 || decide (pitch ≤ 0) || pitch % 64 != 0))

/-- A format code is reserved, or E8 stands where R27 does not allow it. -/
def fmtBad (d : Desc) (e8 : Bool) : Bool :=
  match fmtOfCode (bits d 66 6) with
  | none => true
  | some .e8 => !e8
  | some _ => false

/-- A stream's view is rejected at issue; D0 and the format are ignored (R180, R195, R287). -/
def streamViewBad (d : Desc) : Bool :=
  let v := dView d
  v == 3 || (v != 0 && dSpace d != 1) || (v == 1 && (decide (1 < dDim d 2) || decide (1 < dDim d 3))) ||
    (v == 2 && decide (32 < dDim d 1))

/-- A failed condition of R181 or R216: its reason and the register, or tag, it names. -/
abbrev Bad := Nat × Nat

/-- One condition on one register. -/
def bad (b : Bool) (reason : Nat) (reg : Fin 32) : List Bad := if b then [(reason, reg.val)] else []

/-- The conditions of reasons 1, 2, 4, 5 and 7 on one descriptor. -/
def commonBad (padm : W64) (d : Desc) (reg : Fin 32) (e8 cols : Bool) (spaces : List Nat) : List Bad :=
  bad (fmtBad d e8) 1 reg ++ bad (baseBad d || (!(fmtBad d true) && spanBad padm d)) 2 reg ++ bad (viewBad d) 4 reg ++
    bad (!spaces.contains (dSpace d)) 5 reg ++ bad (!(fmtBad d true) && alignBad d cols) 7 reg

/-- The first failing condition: the lowest reason, then the order in which registers are given (R393). -/
def firstBad : List Bad → Option Bad
  | [] => none
  | x :: xs =>
    match firstBad xs with
    | some y => if y.1 < x.1 then some y else some x
    | none => some x

/-- DESCR of R181. -/
def descrOf (b : Bad) : Trap := descr b.1 (BitVec.ofNat 8 b.2)

/-- PRIV, then DETACHED, of the space-0 operands of an instruction (R179, R393). -/
def windowTrap (k : Cont) (padm : W64) (ds : List Desc) : Option Trap :=
  let ws := (ds.filter fun d => dSpace d == 0).flatMap (windowsOf padm)
  let least (xs : List (Nat × Nat)) : Option Nat := xs.foldl (fun m x => match m with
    | none => some x.2
    | some y => some (min x.2 y)) none
  match (if cPriv k.cstat then none else least (ws.filter fun w => decide (252 ≤ w.1))) with
  | some a => some (privTrap (BitVec.ofNat 24 a))
  | none =>
    (least (ws.filter fun w => !(k.entry (BitVec.ofNat 8 w.1)).v)).map fun a => winTrap .detached (BitVec.ofNat 24 a)

/-- The registers that the SCALE and META fields of descriptors name, in the order of R393 (R207). -/
def namedThrough (k : Cont) (regs : List (Fin 32)) : List (Fin 32) :=
  (regs.map (fun t => dScale k.t[t]) ++ regs.map fun t => dMeta k.t[t]).filter fun t => t.val != 0

/-- POISON for the first descriptor register with a poisoned half, among those named directly and through the fields of
`regs`, and the value holders `more`, of which only the base is read (R146, R393). -/
def namedPoison (e : Env) (regs : List (Fin 32)) (more : List (Fin 32) := []) : Option Trap :=
  ((regs ++ more ++ namedThrough e.k regs).find? fun t => e.k.halfPoisoned t false || e.k.halfPoisoned t true).map
    (halfTrap e.slot)

/-- A tag's previous instruction has not completed (R201). -/
def tagBusy (k : Cont) (tag : Fin 64) : Bool := bitAt k.busy tag.val

end Sys2Proof.Machine
end

