-- ==== Sys2Proof/Machine/Vector.lean ====
section
/-! DEFINITION. The V0 and V1 slots (R117-R134): one effect for each instruction, on the cluster of its
slot. -/

namespace Sys2Proof.Machine

/-- A lane-wise operation on one source. -/
def lanes1 (cl : Cluster) (d a : Spec) (fp : Bool) (lat : Nat) (f : W32 → W32) : Eff := fun e =>
  let x := e.k.vector cl fp a
  .ok (vectorResult cl d e.e (ofLanes fun i => f (lane x i)) lat)

/-- A lane-wise operation on two sources (R120). -/
def lanes2 (cl : Cluster) (d a b : Spec) (lat : Nat) (f : W32 → W32 → W32) : Eff := fun e =>
  let x := e.k.vector cl false a
  let y := e.k.vector cl false b
  .ok (vectorResult cl d e.e (ofLanes fun i => f (lane x i) (lane y i)) lat)

/-- The flags raised by the lanes in E (R119). -/
def laneFlags (m : W64) (f : Nat → FFlags) : FFlags :=
  (List.range 64).foldl (fun acc i => if bitAt m i then acc ||| f i else acc) 0

/-- A lane-wise floating operation whose lanes give a value and flags (R122); `fp` says how constants are
read (R60). -/
def flanes (cl : Cluster) (d : Spec) (fp : Bool) (xs : List Spec) (lat : Nat)
    (f : List W32 → W32 × FFlags) : Eff := fun e =>
  let vs := xs.map (e.k.vector cl fp)
  let r (i : Nat) : W32 × FFlags := f (vs.map fun v => lane v i)
  .ok (vectorResult cl d e.e (ofLanes fun i => (r i).1) lat (laneFlags e.e fun i => (r i).2))

/-- An FP32 operation on one operand. -/
def f1 (g : FVal → W32 × FFlags) (xs : List W32) : W32 × FFlags := g (FFmt.f32.dec (xs.getD 0 0))
/-- An FP32 operation on two operands. -/
def f2 (g : FVal → FVal → W32 × FFlags) (xs : List W32) : W32 × FFlags :=
  g (FFmt.f32.dec (xs.getD 0 0)) (FFmt.f32.dec (xs.getD 1 0))
/-- An FP32 operation on three operands. -/
def f3 (g : FVal → FVal → FVal → W32 × FFlags) (xs : List W32) : W32 × FFlags :=
  g (FFmt.f32.dec (xs.getD 0 0)) (FFmt.f32.dec (xs.getD 1 0)) (FFmt.f32.dec (xs.getD 2 0))

/-- A predicate result of a vector slot: the bits of E are written (R118, R121). -/
def vpredResult (pd : Fin 48) (e : W64) (f : Nat → Bool) (lat : Nat) (flags : FFlags := 0) : Out :=
  { res := [{ reg := .p pd, data := wide (ofMask f), lanes := e, lat, flags }] }

/-- The shift amount b[4:0] (R120). -/
def sh5 (b : W32) : Nat := (bits b 0 5).toNat

/-- Clamping to INT32 (R40). -/
def sat32 (x : Int) : W32 := BitVec.ofInt 32 (clampInt x (-2147483648) 2147483647)


/-- `vnop` (R69). -/
def effVnop : Eff := effNone

/-- `vadd` (R120). -/
def effVadd (cl : Cluster) (d a b : Spec) : Eff :=
  lanes2 cl d a b 2 (· + ·)

/-- `vsub` (R120). -/
def effVsub (cl : Cluster) (d a b : Spec) : Eff :=
  lanes2 cl d a b 2 (· - ·)

/-- `vmul` (R120). -/
def effVmul (cl : Cluster) (d a b : Spec) : Eff :=
  lanes2 cl d a b 2 (· * ·)

/-- `vmulh` (R120). -/
def effVmulh (cl : Cluster) (d a b : Spec) : Eff :=
  lanes2 cl d a b 2 (fun x y => BitVec.ofInt 32 (x.toInt * y.toInt / 2 ^ 32))

/-- `vmin` (R120). -/
def effVmin (cl : Cluster) (d a b : Spec) : Eff :=
  lanes2 cl d a b 2 (fun x y => if x.slt y then x else y)

/-- `vmax` (R120). -/
def effVmax (cl : Cluster) (d a b : Spec) : Eff :=
  lanes2 cl d a b 2 (fun x y => if x.slt y then y else x)

/-- `vand` (R120). -/
def effVand (cl : Cluster) (d a b : Spec) : Eff :=
  lanes2 cl d a b 2 (· &&& ·)

/-- `vor` (R120). -/
def effVor (cl : Cluster) (d a b : Spec) : Eff :=
  lanes2 cl d a b 2 (· ||| ·)

/-- `vxor` (R120). -/
def effVxor (cl : Cluster) (d a b : Spec) : Eff :=
  lanes2 cl d a b 2 (· ^^^ ·)

/-- `vshl` (R120). -/
def effVshl (cl : Cluster) (d a b : Spec) : Eff :=
  lanes2 cl d a b 2 (fun x y => x <<< sh5 y)

/-- `vshr` (R120). -/
def effVshr (cl : Cluster) (d a b : Spec) : Eff :=
  lanes2 cl d a b 2 (fun x y => x >>> sh5 y)

/-- `vsar` (R120). -/
def effVsar (cl : Cluster) (d a b : Spec) : Eff :=
  lanes2 cl d a b 2 (fun x y => x.sshiftRight (sh5 y))

/-- `vadds` (R120). -/
def effVadds (cl : Cluster) (d a b : Spec) : Eff :=
  lanes2 cl d a b 2 (fun x y => sat32 (x.toInt + y.toInt))

/-- `vsubs` (R120). -/
def effVsubs (cl : Cluster) (d a b : Spec) : Eff :=
  lanes2 cl d a b 2 (fun x y => sat32 (x.toInt - y.toInt))

/-- `vminu` (R120). -/
def effVminu (cl : Cluster) (d a b : Spec) : Eff :=
  lanes2 cl d a b 2 (fun x y => if x.ult y then x else y)

/-- `vmaxu` (R120). -/
def effVmaxu (cl : Cluster) (d a b : Spec) : Eff :=
  lanes2 cl d a b 2 (fun x y => if x.ult y then y else x)

/-- `vabs` (R120). -/
def effVabs (cl : Cluster) (d a : Spec) : Eff :=
  lanes1 cl d a false 2 fun x => if bitAt x 31 then -x else x

/-- `vneg` (R120). -/
def effVneg (cl : Cluster) (d a : Spec) : Eff :=
  lanes1 cl d a false 2 fun x => -x

/-- `vcmp` (R121). -/
def effVcmp (cl : Cluster) (pd : Fin 48) (a b : Spec) (cond : Cond) : Eff :=
  fun e =>
    let x := e.k.vector cl false a
    let y := e.k.vector cl false b
    .ok (vpredResult pd e.e (fun i => condHolds cond (lane x i) (lane y i)) 2)

/-- `fadd` (R123). -/
def effFadd (cl : Cluster) (d a b : Spec) (rm : Rm) : Eff :=
  flanes cl d true [a, b] 4 (f2 (addV rnd32 rm))

/-- `fsub` (R123). -/
def effFsub (cl : Cluster) (d a b : Spec) (rm : Rm) : Eff :=
  flanes cl d true [a, b] 4 (f2 fun x y => addV rnd32 rm x y.neg)

/-- `fmul` (R123). -/
def effFmul (cl : Cluster) (d a b : Spec) (rm : Rm) : Eff :=
  flanes cl d true [a, b] 4 (f2 (mulV rnd32 rm))

/-- `fma` (R123). -/
def effFma (cl : Cluster) (d a b c : Spec) (rm : Rm) : Eff :=
  flanes cl d true [a, b, c] 4 (f3 (fmaV rnd32 rm))

/-- `fms` (R123). -/
def effFms (cl : Cluster) (d a b c : Spec) (rm : Rm) : Eff :=
  flanes cl d true [a, b, c] 4 (f3 fun x y z => fmaV rnd32 rm x y z.neg)

/-- `fnma` (R123). -/
def effFnma (cl : Cluster) (d a b c : Spec) (rm : Rm) : Eff :=
  flanes cl d true [a, b, c] 4 (f3 fun x y z => fmaV rnd32 rm x.neg y z)

/-- `fmin` (R124). -/
def effFmin (cl : Cluster) (d a b : Spec) : Eff :=
  flanes cl d true [a, b] 4 fun xs => minmax32 false (xs.getD 0 0) (xs.getD 1 0)

/-- `fmax` (R124). -/
def effFmax (cl : Cluster) (d a b : Spec) : Eff :=
  flanes cl d true [a, b] 4 fun xs => minmax32 true (xs.getD 0 0) (xs.getD 1 0)

/-- `fabs` (R124). -/
def effFabs (cl : Cluster) (d a : Spec) : Eff :=
  lanes1 cl d a true 2 fabs32

/-- `fneg` (R124). -/
def effFneg (cl : Cluster) (d a : Spec) : Eff :=
  lanes1 cl d a true 2 fneg32

/-- `fclass` (R124). -/
def effFclass (cl : Cluster) (d a : Spec) : Eff :=
  lanes1 cl d a true 2 fclass32

/-- `fdiv` (R123). -/
def effFdiv (cl : Cluster) (d a b : Spec) (rm : Rm) : Eff :=
  flanes cl d true [a, b] 14 (f2 (divV rm))

/-- `fsqrt` (R123). -/
def effFsqrt (cl : Cluster) (d a : Spec) (rm : Rm) : Eff :=
  flanes cl d true [a] 14 (f1 (sqrtV rm))

/-- `frcp` (R125). -/
def effFrcp (cl : Cluster) (d a : Spec) : Eff :=
  flanes cl d true [a] 6 (f1 rcpV)

/-- `frsq` (R125). -/
def effFrsq (cl : Cluster) (d a : Spec) : Eff :=
  flanes cl d true [a] 6 (f1 rsqV)

/-- `fcmp` (R126, R38). -/
def effFcmp (cl : Cluster) (pd : Fin 48) (a b : Spec) (cond : FCond) : Eff :=
  fun e =>
    let x := e.k.vector cl true a
    let y := e.k.vector cl true b
    let r (i : Nat) : Bool × FFlags := fcmpV cond (FFmt.f32.dec (lane x i)) (FFmt.f32.dec (lane y i))
    .ok (vpredResult pd e.e (fun i => (r i).1) 4 (laneFlags e.e fun i => (r i).2))

/-- `cvt` (R127); only a source read as f32 takes constants as FP32 (R60). -/
def effCvt (cl : Cluster) (d a : Spec) (src dst : VFmt) (rm : Rm) : Eff :=
  flanes cl d (src == .f32) [a] 3 fun xs => cvtLane src dst rm (xs.getD 0 0)

/-- N of `vpack`: one lane narrowed to 16 bits (R128). -/
def narrow (k : PackKind) (rm : Rm) (x : W32) : W32 × FFlags :=
  match k with
  | .low => (x &&& 0xFFFF, 0)
  | .s16 => (BitVec.ofInt 32 (clampInt x.toInt (-32768) 32767) &&& 0xFFFF, 0)
  | .bf16 => FFmt.bf16.convert rm (FFmt.f32.dec x)
  | .f16 => FFmt.f16.convert rm (FFmt.f32.dec x)

/-- W of `vunpk`: 16 bits widened to a lane (R128). -/
def widen (k : PackKind) (h : W32) : W32 × FFlags :=
  match k with
  | .low => (h, 0)
  | .s16 => ((bits h 0 16).signExtend 32, 0)
  | .bf16 => FFmt.f32.convert .rne (FFmt.bf16.dec h)
  | .f16 => FFmt.f32.convert .rne (FFmt.f16.dec h)

/-- `vpack` (R128); kinds 2 and 3 read FP32 (R60). -/
def effVpack (cl : Cluster) (d a b : Spec) (k : PackKind) (rm : Rm) : Eff :=
  flanes cl d (k == .bf16 || k == .f16) [a, b] 3 fun xs =>
    let x := narrow k rm (xs.getD 0 0)
    let y := narrow k rm (xs.getD 1 0)
    (y.1 <<< 16 ||| x.1, x.2 ||| y.2)

/-- `vunpk` (R128). -/
def effVunpk (cl : Cluster) (d a : Spec) (k : PackKind) (half : Bool) : Eff :=
  flanes cl d false [a] 3 fun xs => widen k (if half then xs.getD 0 0 >>> 16 else xs.getD 0 0 &&& 0xFFFF)

/-- The bit of plane `p` of element `e` of an NI group held in a vector register (R28, R117). -/
def planePos (p e : Nat) : Nat := ((7 - p) * 32 + e / 8) * 8 + e % 8

/-- The signed k-bit integer q of element `e` of a group read at k planes (R29). -/
def niRead (g : VReg) (k e : Nat) : Int :=
  (BitVec.ofNat k ((List.range k).foldl (fun acc j => 2 * acc + (bitAt g (planePos (7 - j) e)).toNat) 0)).toInt

/-- The value of a q at k planes (R29). -/
def niValue (centred : Bool) (k : Nat) (q : Int) : Int :=
  if centred then (2 * q + 1) * 2 ^ (7 - k) else q * 2 ^ (8 - k)

/-- m / 2^n rounded to an integer in a mode. -/
def roundInt (rm : Rm) (x : Int) (n : Nat) : Int :=
  let s := decide (x < 0)
  (if s then -1 else 1) * ((roundNat rm s x.natAbs n).1 : Int)

/-- The q stored for an exact value x = num / 2^den in NI-k, before clamping (R31); `negZero` is the sign of
an exact zero. -/
def niSelect (centred : Bool) (k : Nat) (rm : Rm) (num : Int) (den : Nat) (negZero : Bool) : Int :=
  if !centred then roundInt rm num (den + (8 - k))
  else
    -- y = (x / g - 1) / 2 with g = 2^(7-k), over the common denominator 2^(den + 8 - k)
    let n := num - 2 ^ (den + (7 - k))
    let d := den + (8 - k)
    match rm with
    | .rne => roundInt .rne n d
    | .rup => roundInt .rup n d
    | .rdn => roundInt .rdn n d
    | .rtz =>
      if 0 < num then max (roundInt .rdn n d) 0
      else if num < 0 then min (roundInt .rup n d) (-1)
      else if negZero then -1 else 0

/-- A q clamped to k bits, and whether it was clamped (R31). -/
def niClamp (k : Nat) (q : Int) : Int × Bool :=
  let c := clampInt q (-(2 ^ (k - 1))) (2 ^ (k - 1) - 1)
  (c, c != q)

/-- `plext` (R129). -/
def effPlext (cl : Cluster) (d a : Spec) (k1 : Fin 8) (centred : Bool) (q : Fin 4) : Eff := fun e =>
  let g := e.k.vector cl false a
  let k := k1.val + 1
  .ok (vectorResult cl d e.e (ofLanes fun j =>
    BitVec.ofInt 32 (niValue centred k (niRead g k (64 * q.val + j)))) 3)

/-- A group with planes 7 down to 8 - k of one element replaced by those of q (R31). -/
def niWrite (g : VReg) (k e : Nat) (q : Int) : VReg :=
  let w := BitVec.ofInt k q
  (List.range k).foldl (fun g j => setBits g (planePos (7 - j) e) (bits w (k - 1 - j) 1)) g

/-- `plins` (R129): every lane of d is written, E notwithstanding. -/
def effPlins (cl : Cluster) (d a : Spec) (k1 : Fin 8) (centred : Bool) (q : Fin 4) (rm : Rm) : Eff := fun e =>
  let x := e.k.vector cl false a
  let k := k1.val + 1
  let g := (List.range 64).foldl (fun g j =>
    if bitAt e.e j then
      niWrite g k (64 * q.val + j) (niClamp k (niSelect centred k rm (lane x j).toInt 0 false)).1
    else g) (e.k.vector cl false d)
  .ok (vectorResult cl d e.e g 3 0 true)

/-- `vmov` (R130). -/
def effVmov (cl : Cluster) (d a : Spec) : Eff :=
  lanes1 cl d a false 2 id

/-- `vsel` (R130). -/
def effVsel (cl : Cluster) (d a b : Spec) (p : Fin 48) : Eff :=
  fun e =>
    let x := e.k.vector cl false a
    let y := e.k.vector cl false b
    .ok (vectorResult cl d e.e (ofLanes fun i => if bitAt e.k.p[p] i then lane x i else lane y i) 2)

/-- `vli` (R130). -/
def effVli (cl : Cluster) (d : Spec) (imm : W32) : Eff :=
  fun e => .ok (vectorResult cl d e.e (splat imm) 2)

/-- `viota` (R130). -/
def effViota (cl : Cluster) (d : Spec) (start : Half) (stride : Byte) : Eff :=
  fun e =>
    .ok (vectorResult cl d e.e (ofLanes fun i => start.signExtend 32 + BitVec.ofNat 32 i * stride.signExtend 32) 2)

/-- `vbcast` (R130). -/
def effVbcast (cl : Cluster) (d a : Spec) (l : BitVec 6) : Eff :=
  fun e =>
    .ok (vectorResult cl d e.e (splat (lane (e.k.vector cl false a) l.toNat)) 3)

/-- A permute: destination lane i receives source lane f i (R130). -/
def permute (cl : Cluster) (d a : Spec) (f : Env → Nat → Nat) : Eff := fun e =>
  let x := e.k.vector cl false a
  .ok (vectorResult cl d e.e (ofLanes fun i => lane x (f e i)) 3)

/-- `vperm` (R130). -/
def effVperm (cl : Cluster) (d a b : Spec) : Eff :=
  permute cl d a fun e i => (bits (lane (e.k.vector cl false b) i) 0 6).toNat

/-- `vrot` (R130). -/
def effVrot (cl : Cluster) (d a : Spec) (n : BitVec 6) : Eff :=
  permute cl d a fun _ i => (i + n.toNat) % 64

/-- `vbfly` (R130). -/
def effVbfly (cl : Cluster) (d a : Spec) (s : Fin 6) : Eff :=
  permute cl d a fun _ i => i ^^^ 2 ^ s.val

/-- `vins` (R131); as a stream destination every other lane is zero (log entry 94). -/
def effVins (cl : Cluster) (d a : Spec) (l : BitVec 6) : Eff :=
  fun e =>
    .ok (vectorResult cl d (e.e &&& (1#64 <<< l.toNat)) (splat (bits (e.k.scalar a) 0 32)) 2)

/-- `vfromp` (R132). -/
def effVfromp (cl : Cluster) (d : Spec) (p : Fin 48) : Eff :=
  fun e =>
    .ok (vectorResult cl d e.e (ofLanes fun i => if bitAt e.k.p[p] i then BitVec.allOnes 32 else 0) 2)

/-- `vtop` (R132). -/
def effVtop (cl : Cluster) (pd : Fin 48) (a : Spec) : Eff :=
  fun e =>
    let x := e.k.vector cl false a
    .ok (vpredResult pd e.e (fun i => lane x i != 0) 2)

/-- `xmov` (R134): the other cluster's register, no last-result register, no flag. -/
def effXmov (cl : Cluster) (d a : Spec) : Eff :=
  fun e =>
    let v := e.k.vector cl false a
    .ok { res := ((specRegV (otherCl cl) d).map fun r => bareResult r v e.e 3).toList }

/-- The pairwise tree of R44 and R45 over a list whose absent members pass their partners through: one level. -/
def treeLevel {α : Type} (f : α → α → α) : List (Option α) → List (Option α)
  | a :: b :: xs =>
    (match a, b with
      | some x, some y => some (f x y)
      | some x, none => some x
      | none, y => y) :: treeLevel f xs
  | [a] => [a]
  | [] => []

/-- `n` levels of the pairwise tree; the one member left, if any. -/
def treeFold {α : Type} (f : α → α → α) : Nat → List (Option α) → Option α
  | 0, xs => xs.head?.join
  | n + 1, xs => treeFold f n (treeLevel f xs)

/-- A lane takes part in a reduction (R133). -/
def takesPart (k : Cont) (pm : Option (Fin 48)) (i : Nat) : Bool :=
  (match pm with | none => true | some p => bitAt k.p[p] i) && !padLane k.padm i

/-- The lanes of a reduction, absent where they take no part (R133). -/
def redLanes (k : Cont) (pm : Option (Fin 48)) (v : VReg) : List (Option W32) :=
  (List.range 64).map fun i => if takesPart k pm i then some (lane v i) else none

/-- A reduction's result in every lane of E, its flags raised once; with E empty nothing is written (R133). -/
def redResult (cl : Cluster) (d : Spec) (e : W64) (r : W32) (flags : FFlags) : Out :=
  if e = 0 then { push := false } else vectorResult cl d e (splat r) 6 flags

/-- An integer reduction by the exact value of the lanes taking part. -/
def intRed (cl : Cluster) (d a : Spec) (pm : Option (Fin 48)) (f : List Int → W32) : Eff := fun e =>
  let xs := (redLanes e.k pm (e.k.vector cl false a)).filterMap (Option.map BitVec.toInt)
  .ok (redResult cl d e.e (f xs) 0)

/-- `vradd` (R133, R40). -/
def effVradd (cl : Cluster) (d a : Spec) (pm : Option (Fin 48)) (sat : Bool) : Eff :=
  intRed cl d a pm fun xs =>
    let t := xs.foldl (· + ·) 0
    if sat then sat32 t else BitVec.ofInt 32 t
/-- `vrmax` (R133). -/
def effVrmax (cl : Cluster) (d a : Spec) (pm : Option (Fin 48)) : Eff :=
  intRed cl d a pm fun xs => BitVec.ofInt 32 (xs.foldl max (-2147483648))
/-- `vrmin` (R133). -/
def effVrmin (cl : Cluster) (d a : Spec) (pm : Option (Fin 48)) : Eff :=
  intRed cl d a pm fun xs => BitVec.ofInt 32 (xs.foldl min 2147483647)

/-- A floating reduction by the tree of R45: a NaN that is never combined is delivered as the canonical NaN,
and a signalling NaN that takes part raises NV (R133). -/
def floatRed (cl : Cluster) (d a : Spec) (pm : Option (Fin 48)) (empty : W32)
    (f : W32 → W32 → W32 × FFlags) : Eff := fun e =>
  let xs := redLanes e.k pm (e.k.vector cl true a)
  let sn := snanFlag (xs.filterMap (Option.map FFmt.f32.dec))
  let r := treeFold (fun (x y : W32 × FFlags) =>
    let z := f x.1 y.1
    (z.1, z.2 ||| x.2 ||| y.2)) 6 (xs.map (Option.map fun x => (x, 0)))
  match r with
  | none => .ok (redResult cl d e.e empty 0)
  | some (v, fl) =>
    .ok (redResult cl d e.e (if (FFmt.f32.dec v).isNan then nan32 else v) (fl ||| sn))

/-- `frsum` (R133). -/
def effFrsum (cl : Cluster) (d a : Spec) (pm : Option (Fin 48)) (rm : Rm) : Eff :=
  floatRed cl d a pm 0 fun x y => addV rnd32 rm (FFmt.f32.dec x) (FFmt.f32.dec y)
/-- `frmax` (R133). -/
def effFrmax (cl : Cluster) (d a : Spec) (pm : Option (Fin 48)) : Eff :=
  floatRed cl d a pm (FFmt.f32.infinity true) (minmax32 true)
/-- `frmin` (R133). -/
def effFrmin (cl : Cluster) (d a : Spec) (pm : Option (Fin 48)) : Eff :=
  floatRed cl d a pm (FFmt.f32.infinity false) (minmax32 false)

end Sys2Proof.Machine
end

