-- ==== Sys2Proof/Machine/TileMath.lean ====
section
/-! DEFINITION. The arithmetic of tile instructions: nested-integer reads and stores (R28, R29, R31), exact element
results (R217-R222), `write` (R224), reductions (R44, R223) and contractions (R32, R33, R36, R43, R225-R227). -/

namespace Sys2Proof.Machine

/-- An exact value with its domain (R214): `real` is the floating domain. -/
structure TVal where
  real : Bool
  v : FVal
  deriving DecidableEq, Repr

/-- An integer-domain value. -/
def TVal.int (x : Int) : TVal := ⟨false, .ofInt x⟩

/-- The integer of an integer-domain value that has no fraction. -/
def TVal.toInt (x : TVal) : Int :=
  match x.v with
  | .fin s m e => (if s then -1 else 1) * ((m * 2 ^ e.toNat : Nat) : Int)
  | _ => 0

/-! ### Reading an element -/

/-- The floating format of a format code. -/
def TFmt.float : TFmt → Option FFmt
  | .f32 => some .f32
  | .bf16 => some .bf16
  | .f16 => some .f16
  | _ => none

/-- Element `e` of a group read at `k` planes: the signed integer of its bits 7 down to 8 - k (R28, R29). -/
def niQ (byte : Nat → Byte) (e k : Nat) : Int :=
  let n := (List.range k).foldl (fun acc p => 2 * acc + (bitAt (byte (p * 32 + e / 8)) (e % 8)).toNat) 0
  if 2 ^ k ≤ 2 * n then (n : Int) - 2 ^ k else n

/-- A floating value whose subnormals become zeros of the same sign, for a stone (R36). -/
def flushIn (f : FFmt) (x : FVal) : FVal :=
  match x with
  | .fin s m e => if m < 2 ^ f.fbits then .fin s 0 e else .fin s m e
  | v => v

/-- An element of a format other than NI from its bytes (R27, R217). -/
def elemValue (f : TFmt) (flush : Bool) (bytes : List Byte) : TVal :=
  let n := leNat bytes
  match f.float with
  | some g =>
    let v := g.dec (BitVec.ofNat 32 n)
    ⟨true, if flush then flushIn g v else v⟩
  | none => match f with
    | .e8 => .int (BitVec.ofNat 8 n : Byte).toInt
    | _ => .int (BitVec.ofNat 32 n : W32).toInt

/-! ### `write` (R31, R224) -/

/-- Rounding in a stone's `write`: a magnitude that rounds below the format's least normal number becomes a zero of the
exact result's sign (R36, R224). -/
def FFmt.roundFlush (f : FFmt) (rm : Rm) (s : Bool) (m : Nat) (e : Int) : W32 :=
  if m = 0 then f.enc s 0 else
  let top := msbExp m e
  let (n, _) := roundAt rm s m e (top - f.fbits)
  let top' := if n = 2 ^ (f.fbits + 1) then top + 1 else top
  if top' < f.emin then f.enc s 0 else (f.round rm s n (top - f.fbits)).1

/-- The q that centred mode selects for a finite x before clamping (R31). -/
def centredQ (rm : Rm) (k : Nat) (s : Bool) (m : Nat) (e : Int) : Int :=
  let g : Int := 7 - (k : Int)
  let lo := min e g
  let num : Int := (if s then -1 else 1) * ((m * 2 ^ (e - lo).toNat : Nat) : Int) - 2 ^ (g - lo).toNat
  let at_ (r : Rm) : Int := (toIntExact r (decide (num < 0)) num.natAbs (lo - g - 1)).1
  match rm with
  | .rtz => if m = 0 then (if s then -1 else 0) else if s then min (at_ .rup) (-1) else max (at_ .rdn) 0
  | r => at_ r

/-- A value stored in NI-k: q and whether SAT is set (R31). -/
def niStore (rm : Rm) (k : Nat) (centred : Bool) (x : FVal) : Int × Bool :=
  let lo : Int := -(2 ^ (k - 1))
  let hi : Int := 2 ^ (k - 1) - 1
  match x with
  | .nan _ => (0, true)
  | .inf s => (if s then lo else hi, true)
  | .fin s m e =>
    let q := if centred then centredQ rm k s m e else (toIntExact rm s m (e - (8 - (k : Int)))).1
    (clampInt q lo hi, decide (q < lo) || decide (hi < q))

/-- `write` for a format other than NI: the stored bits and whether SAT is set (R224). -/
def writeVal (f : TFmt) (rm : Rm) (sat flush : Bool) (x : TVal) : W32 × Bool :=
  match f.float with
  | some g =>
    (match x.v with
      | .nan _ => g.qnan
      | .inf s => g.infinity s
      | .fin s m e => if flush then g.roundFlush rm s m e else (g.round rm s m e).1, false)
  | none =>
    if x.real then
      let (n, fl) := toIntSat rm (-2147483648) 2147483647 x.v
      (BitVec.ofInt 32 n, fl == FFlags.nv)
    else match x.v with
      | .fin s m e =>
        let n := (toIntExact rm s m e).1
        let c := clampInt n (-2147483648) 2147483647
        if sat then (BitVec.ofInt 32 c, c != n) else (BitVec.ofInt 32 n, false)
      | _ => (0, false)

/-! ### Elementwise operations -/

/-- The exact sum of two values; an exact zero takes the sign of R224. -/
def addExact (rm : Rm) (x y : FVal) : FVal :=
  match x, y with
  | .nan _, _ | _, .nan _ => .nan false
  | .inf s, .inf t => if s == t then .inf s else .nan false
  | .inf s, .fin _ _ _ | .fin _ _ _, .inf s => .inf s
  | .fin s m e, .fin t n d => let (u, k, lo) := exactSum rm s m e t n d; .fin u k lo

/-- The exact product of two values. -/
def mulExact (x y : FVal) : FVal :=
  match x, y with
  | .nan _, _ | _, .nan _ => .nan false
  | .inf s, .inf t => .inf (s != t)
  | .inf s, .fin t m _ | .fin t m _, .inf s => if m = 0 then .nan false else .inf (s != t)
  | .fin s m e, .fin t n d => .fin (s != t) (m * n) (e + d)

/-- `fmin` and `fmax` of R124 on values. -/
def minmaxV (max : Bool) (x y : FVal) : FVal :=
  if x.isNan then (if y.isNan then .nan false else y)
  else if y.isNan then x
  else if minLt x y != max then x else y

/-- Maximum or minimum of two integers. -/
def minmaxI (max : Bool) (x y : Int) : Int := if decide (x < y) != max then x else y

/-- A two-operand elementwise operation (R217). -/
def binop (op : TileOp) (rm : Rm) (a b : TVal) : TVal :=
  if a.real then
    ⟨true, match op with
      | .add => addExact rm a.v b.v
      | .sub => addExact rm a.v b.v.neg
      | .mul => mulExact a.v b.v
      | .max => minmaxV true a.v b.v
      | _ => minmaxV false a.v b.v⟩
  else
    .int (match op with
      | .add => a.toInt + b.toInt
      | .sub => a.toInt - b.toInt
      | .mul => a.toInt * b.toInt
      | .max => minmaxI true a.toInt b.toInt
      | _ => minmaxI false a.toInt b.toInt)

/-- `tabs` (R218, R224). -/
def absVal (a : TVal) : TVal :=
  match a.v with
  | .nan _ => ⟨a.real, .nan false⟩
  | .inf _ => ⟨a.real, .inf false⟩
  | .fin _ m e => ⟨a.real, .fin false m e⟩

/-- `tscl` by an exponent (R219): an exact scaling; the sign of a floating zero is kept. -/
def scaleVal (a : TVal) (s : Int) : TVal :=
  match a.v with
  | .fin t m e => ⟨a.real, .fin t m (e + s)⟩
  | v => ⟨a.real, v⟩

/-- A table of `tlut` is usable: lo and hi are finite and lo lies below hi (R222). -/
def lutOk (lo hi : FVal) : Bool :=
  match lo, hi with
  | .fin _ _ _, .fin _ _ _ => lo.lt hi
  | _, _ => false

/-- The segment of a value (R222). -/
def segmentOf (lo hi a : FVal) : Nat :=
  match a with
  | .inf s => if s then 0 else 63
  | _ => (clampInt (64 * (a.key - lo.key) / (hi.key - lo.key)) 0 63).toNat

/-- `tlut` (R222): one FMA in binary32 on the segment's slope and intercept. -/
def lutVal (word : Nat → W32) (a : FVal) : TVal :=
  if a.isNan then ⟨true, .nan false⟩
  else
    let d (i : Nat) : FVal := FFmt.f32.dec (word i)
    let i := segmentOf (d 0) (d 1) a
    ⟨true, FFmt.f32.dec (fmaV rnd32 .rne (d (2 + 2 * i)) a (d (3 + 2 * i))).1⟩

/-- The value of a `tfill` holder (R220). -/
def holderVal (d : Desc) : TVal :=
  let w : W32 := bits d 0 32
  match dFmt d with
  | .f32 => ⟨true, FFmt.f32.dec w⟩
  | .bf16 => ⟨true, FFmt.bf16.dec (w &&& 0xFFFF)⟩
  | .f16 => ⟨true, FFmt.f16.dec (w &&& 0xFFFF)⟩
  | _ => .int w.toInt

/-! ### Reductions (R44, R223) -/

/-- What a `tred` does with two values: a floating sum is rounded to binary32 in RM, an integer sum is exact. -/
def redStep (kind : Nat) (rm : Rm) (a b : TVal) : TVal :=
  if a.real then
    ⟨true, if kind = 0 then FFmt.f32.dec (addV rnd32 rm a.v b.v).1 else minmaxV (kind == 1) a.v b.v⟩
  else .int (if kind = 0 then a.toInt + b.toInt else minmaxI (kind == 1) a.toInt b.toInt)

/-- A pair in which an absent value passes its partner through. -/
def redPair (f : TVal → TVal → TVal) (a b : Option TVal) : Option TVal :=
  match a, b with
  | some x, some y => some (f x y)
  | some x, none => some x
  | none, y => y

/-- One level of the pairwise tree. -/
def redLevel (f : TVal → TVal → TVal) : List (Option TVal) → List (Option TVal)
  | a :: b :: xs => redPair f a b :: redLevel f xs
  | xs => xs

/-- The pairwise tree of a group of 256: eight levels (R44). -/
def redTree (f : TVal → TVal → TVal) (n : Nat) (xs : List (Option TVal)) : Option TVal :=
  ((List.range n).foldl (fun ys _ => redLevel f ys) xs).headD none

/-- The result of a row in which no element takes part (R223). -/
def redEmpty (kind : Nat) (real : Bool) : TVal :=
  if real then ⟨true, if kind = 0 then .fin false 0 0 else .inf (kind == 1)⟩
  else .int (if kind = 0 then 0 else if kind = 1 then -2147483648 else 2147483647)

/-! ### Contractions (R32, R43, R225, R226) -/

/-- The three summations of R43. -/
inductive SumPath | int | block | float
  deriving DecidableEq, Repr

/-- The rounder of an executor (R36). -/
def rounderOf (flush : Bool) : Rounder := if flush then rndStone else rnd32

/-- A binary32 accumulator as an operand (R36). -/
def accV (flush : Bool) (x : W32) : FVal := if flush then decStone x else FFmt.f32.dec x

/-- A block's contribution P · 2^e at the partial-sum port (R32). -/
def blockTerm (p e : Int) : FVal :=
  if p = 0 then .fin false 0 0
  else
    let top := msbExp p.natAbs e
    let s := decide (p < 0)
    if 128 ≤ top then .inf s else if top < -126 then .fin s 0 0 else .fin s p.natAbs e

/-- One chunk of integer products (R43): the accumulator saturates and says so. -/
def intChunk (acc : W32) (products : List Int) : W32 × Bool :=
  let x := acc.toInt + products.foldl (· + ·) 0
  let y := clampInt x (-2147483648) 2147483647
  (BitVec.ofInt 32 y, y != x)

/-- One block of products with exponents (R43). -/
def blockChunk (flush : Bool) (acc : W32) (products : List Int) (e : Int) : W32 :=
  (addV (rounderOf flush) .rne (accV flush acc) (blockTerm (products.foldl (· + ·) 0) e)).1

/-- One chunk of floating products (R43): they are added in increasing k, then to the accumulator. A product that FP32 cannot hold
exactly is rounded to it (log entry 90). -/
def floatChunk (flush : Bool) (acc : W32) (pairs : List (FVal × FVal)) : W32 :=
  let r := rounderOf flush
  let ps := pairs.map fun x => (mulV r .rne x.1 x.2).1
  match ps with
  | [] => acc
  | p :: rest =>
    let s := rest.foldl (fun s x => (addV r .rne (accV flush s) (accV flush x)).1) p
    (addV r .rne (accV flush acc) (accV flush s)).1

/-- The drained value of an accumulator: the per-tensor scale multiplies it once (R33, R225). -/
def drainVal (flush int : Bool) (scale : Option W32) (acc : W32) : TVal :=
  match scale with
  | none => if int then .int acc.toInt else ⟨true, accV flush acc⟩
  | some s =>
    let x := if int then FVal.ofInt acc.toInt else accV flush acc
    ⟨true, accV flush (mulV (rounderOf flush) .rne x (accV flush s)).1⟩

/-- A mask of `tspm` is lawful: 1 to 6 positions, none at K or above (R226). -/
def maskOk (w : W32) (g k : Nat) : Bool :=
  let n := countBelow 12 (bitAt w)
  decide (1 ≤ n) && decide (n ≤ 6) && (List.range 12).all fun j => !bitAt w j || decide (12 * g + j < k)

end Sys2Proof.Machine
end

