-- ==== Sys2Proof/Machine/Sync.lean ====
section
/-! DEFINITION. Synchronisation (R250-R268): counting flags and their increments, waits, fences, barriers,
the word monitor, fused gangs and circuits. Each instruction has an effect and, where it can wait, a hold:
none when it may issue, or the updates made while it is held. -/

namespace Sys2Proof.Machine

/-- A hold on issue: none when the instruction may issue; otherwise what happens while it is held. -/
abbrev Hold := Env → Option (List Act)

/-- Held with no update. -/
def holdWhile (b : Bool) : Option (List Act) := if b then some [] else none

/-! ### Counting flags -/

/-- An increment applied to a continuation's flag (R251): a clamp sets CSTAT.OVF. -/
def Cont.bumpFlag (k : Cont) (i : Fin 32) (n : Nat) : Cont :=
  let (v, o) := bump k.f[i] n
  { k with f := vset k.f i v, cstat := if o then cSetOvf k.cstat else k.cstat }

/-- An increment applied at a core: to the seated continuation, to the image while its save is not complete,
or to the increments held for the continuation seated next, whose CSTAT then shows a clamp (R251). -/
def CoreSt.bumpFlag (x : CoreSt) (i : Fin 32) (n : Nat) : CoreSt :=
  match x.phase with
  | .running | .trapSave _ | .halted => { x with cont := x.cont.bumpFlag i n }
  | .preemptSave => { x with keep := x.keep.map fun k => k.bumpFlag i n }
  | .vacant | .saved =>
    { x with held := vset x.held i (bump x.held[i] n).1, heldOvf := x.heldOvf || (bump x.held[i] n).2 }

/-- A park holds flag `i` of core `c` (R323). -/
def Park.holds (p : Park) (c : Fin 256) (i : Fin 32) : Bool :=
  p.core == c && (match p.flag with | some (f, _) => f == i | none => false)

/-- An increment applied to a park: the count is clamped, and the park is released at its threshold (R323). -/
def Park.bump (p : Park) (n : Nat) : Park :=
  let (v, o) := Machine.bump p.count n
  { p with count := v, ovf := p.ovf || o, released := p.released || (match p.flag with | some (_, m) => decide (m ≤ v.toNat) | none => false) }

/-- An increment reaches a flag, or the park that has taken it over (R251, R323). -/
def deliverFlag (s : State) (c : Fin 256) (i : Fin 32) (n : Nat) : List Act :=
  if (s.quads[quadOf c]).parks.any fun p => p.holds c i then
    [.quad (quadOf c) fun q => { q with parks := q.parks.map fun p => if p.holds c i then p.bump n else p }]
  else [.core c fun x => x.bumpFlag i n]

/-- The accesses that a release of a core in classes of `mask` must wait for (R252): those of the classes, and whatever their
class those that it has acquired (R278). -/
def CoreSt.needs (x : CoreSt) (mask : Half) : List Nat := (x.accs.filter fun a => a.covered mask).map OutAcc.id ++ x.acquired

/-- A release may be delivered: its accesses have performed, its exchange is over, its time has come. -/
def Release.ready? (r : Release) (s : State) : Bool :=
  !(s.outstanding r.src r.needs) &&
    (match r.fabric with | .unneeded => true | .waiting [] => true | _ => false) && decide (r.ready ≤ s.clock)

/-- The core a release's flag belongs to, if it is one of this node. -/
def Deliver.target : Deliver → Option (Fin 256)
  | .flag c _ _ => some c
  | _ => none

/-- FLAG_INCREMENT_ARRIVAL (R251): the increment of release `i` reaches its flag, once every release of the same
core to the same target issued before it has (R252). -/
def flagArrival (s : State) (i : Nat) : List Act :=
  match s.releases[i]? with
  | none => []
  | some r =>
    match r.deliver with
    | .flag c f n =>
      let before := !r.engine && (s.releases.take i).any fun o => !o.engine && o.src == r.src && o.deliver.target == some c
      if r.ready? s && !before then deliverFlag s c f n ++ [.releases fun rs => rs.filter fun o => !(o.id == r.id)]
      else []
    | _ => []

/-- A release of a core to one target that has not arrived yet, which a later one must not pass (R252). -/
def State.owes (s : State) (src dst : Fin 256) : Bool :=
  s.releases.any fun o => !o.engine && o.src == src && o.deliver.target == some dst

/-- What a release of a bundle waits for: the core's earlier accesses in `mask`, the bundle's own among them (R252, R271). -/
def Env.needs (e : Env) (mask : Half) : List Nat := e.x.needs mask ++ e.ownNeeds mask false

/-- `post` (R252): the release scope comes from the target; a flag of the own core, however it is named, with nothing to
wait for is incremented at commit (log entry 15), and any other increment is on its way; what a post to the own core covers is
noted with its flag (R278). -/
def effPost (flag : Fin 32) (tgt : PostTo) (mask : Half) (n : BitVec 11) : Eff := fun e =>
  let go (needs : List Nat) (fabric : Exchange) (d : Deliver) : Out :=
    { last := [.ids 8, .releases fun rs => rs ++ [{ id := e.id, src := e.c, needs, ready := 0, fabric, deliver := d, engine := false }]] }
  let covered : Act := .cont e.c fun k => { k with given := k.given ++ [(flag, e.needs mask)] }
  let own : Out :=
    let needs := (e.x.accs.filter fun a => a.fullEmpty && a.covered mask).map OutAcc.id ++ e.ownNeeds mask true
    let o := if needs.isEmpty && !e.s.owes e.c e.c then { last := deliverFlag e.s e.c flag n.toNat }
      else go needs .unneeded (.flag e.c flag n.toNat)
    { o with last := covered :: o.last }
  match tgt with
  | .own => .ok own
  | .core x =>
    let v := e.k.scalar x
    let c := fin 255 (bits v 0 8).toNat
    if bits v 8 56 ≠ 0 ∨ !(bitAt (e.s.parts[e.k.part]).qmask (quadOf c).val) then .error (descr 1 (bits v 0 8))
    else if c = e.c then .ok own
    else .ok (go (e.needs mask) .unneeded (.flag c flag n.toNat))
  | .node x =>
    let v := e.k.scalar x
    if bits v 24 40 ≠ 0 then .error (descr 1 (bits v 0 8))
    else
      .ok (go (e.needs mask) .unsent
        (.packet { ts := e.k.ts, dst := bits v 0 16, kind := 4, arg := bits v 16 8 ++ BitVec.ofNat 5 flag.val ++ n }))

/-- A `waitf` acquires what the core's own posts to its flag cover, of which those accesses count that have not performed
(R253, R278). -/
def Cont.acquire (k : Cont) (flag : Fin 32) (open_ : List Nat) : Cont :=
  { k with given := k.given.filter fun g => g.1 != flag
           seen := (k.seen ++ (k.given.filter fun g => g.1 == flag).flatMap Prod.snd).filter open_.contains }

/-- `waitf` (R253). -/
def effWaitf (flag : Fin 32) (_mask n : Half) : Eff := fun e =>
  .ok { acts := [.cont e.c fun k => { k.acquire flag (e.x.accs.map OutAcc.id) with f := vset k.f flag (k.f[flag] - n) }] }
/-- The hold of `waitf` (R253). -/
def holdWaitf (flag : Fin 32) (n : Half) : Hold := fun e => holdWhile (decide (e.k.f[flag].toNat < n.toNat))

/-- `waitany` (R254, R203): an acquire only. -/
def effWaitany (_a : Spec) : Eff := effNone
/-- The hold of `waitany` (R203). -/
def holdWaitany (a : Spec) : Hold := fun e => holdWhile (e.k.tags &&& e.k.scalar a == 0)
/-- `waitall` (R254, R203): an acquire only. -/
def effWaitall (_a : Spec) : Eff := effNone
/-- The hold of `waitall` (R203). -/
def holdWaitall (a : Spec) : Hold := fun e => holdWhile (e.k.tags &&& e.k.scalar a != e.k.scalar a)

/-- The index of the lowest set bit, or 64 (R203). -/
def lowestSet (x : W64) : Nat := (leastBelow 64 (bitAt x)).getD 64

/-- `ffr` (R203, R254). -/
def effFfr (d a : Spec) : Eff := fun e =>
  .ok { res := plainResult d (BitVec.ofNat 64 (lowestSet (e.k.tags &&& e.k.scalar a))) 1 }

/-! ### Fences -/

/-- `fence` (R255): it has no effect of its own; at fabric scope its exchange ends here. -/
def effFence (_mask : Half) (scope : FenceScope) : Eff := fun e =>
  match scope with
  | .fabric => .ok { acts := [.releases fun rs => rs.filter fun r => !(r.src == e.c && r.deliver == .nothing)] }
  | _ => .ok {}

/-- A waiting exchange of a core with nothing to deliver: that of a `fence` or of a remote `spawn`. -/
def ownExchange (s : State) (c : Fin 256) : Option Release :=
  s.releases.find? fun r => r.src == c && r.deliver == .nothing

/-- Waiting for a fabric-scope release (R377): the first presentation starts the exchange. -/
def holdFabric (e : Env) (needs : List Nat) : Option (List Act) :=
  match ownExchange e.s e.c with
  | none =>
    some [.ids 8, .releases fun rs =>
      rs ++ [{ id := e.id, src := e.c, needs, ready := 0, fabric := .unsent, deliver := .nothing, engine := false }]]
  | some r => holdWhile (!(r.ready? e.s))

/-- The hold of `fence` (R255): with an empty mask it has no effect. -/
def holdFence (mask : Half) (scope : FenceScope) : Hold := fun e =>
  if mask = 0 then none
  else if !(e.x.performed mask) then some []
  else match scope with
    | .fabric => holdFabric e []
    | _ => none

/-! ### Barriers -/

/-- The level of a seated continuation: 0 lone, 1 gang, 2 band, 3 job (R311, R322). -/
def Cont.level (k : Cont) : Nat := match k.info with | none => 0 | some r => (bits r.header 12 2).toNat

/-- The barrier of a continuation's gang or band (R257). -/
def barrierOf (s : State) (k : Cont) : Option Barrier :=
  match k.team with
  | none => none
  | some t => s.barriers.find? fun b => b.team == t

/-- `bar` (R257): a job traps; the recorded generation is dropped when the bundle issues. -/
def effBar (_mask : Half) : Eff := fun e =>
  if e.k.level = 3 then .error (descr 2 3)
  else .ok { acts := [.cont e.c fun k => { k with barrier := none, barWait := none }] }

/-- The hold of `bar` (R257): a gang or band member presents its mask, arrives by BAR_ARRIVAL, and waits until the
generation has moved on. -/
def holdBar (mask : Half) : Hold := fun e =>
  match barrierOf e.s e.k with
  | none => none
  | some b =>
    if e.k.level = 0 ∨ e.k.level = 3 then none
    else match e.k.barrier with
      | some g => holdWhile (g == b.gen)
      | none => some (if e.k.barWait.isSome then [] else [.cont e.c fun k => { k with barWait := some mask }])

/-- An arrival at a barrier; the last one clears the arrival mask and moves the generation on (R257). -/
def Barrier.arrive (b : Barrier) (c : Fin 256) : Barrier :=
  let a := b.arrived ++ [c]
  if b.members.all fun m => a.contains m then { b with arrived := [], gen := b.gen + 1 } else { b with arrived := a }

/-- BAR_ARRIVAL (R257): a member that presents a `bar`, whose earlier accesses in its mask and those that it has acquired have
performed (R278), arrives and records the generation. -/
def barArrive (s : State) (c : Fin 256) : List Act :=
  let x := s.cores[c]
  match x.cont.barWait, x.cont.barrier, barrierOf s x.cont with
  | some mask, none, some b =>
    if x.phase == .running && (x.needs mask).isEmpty && !(b.arrived.contains c) then
      [.barriers fun bs => bs.map fun o => if o.team = b.team then o.arrive c else o,
       .cont c fun k => { k with barrier := some b.gen, barWait := none }]
    else []
  | _, _, _ => []

/-! ### The word monitor -/

/-- `watch` (R258): the monitor is armed when the watch performs in owner-port order. -/
def effWatch (base : Spec) : Eff := fun e =>
  let a : BitVec 24 := bits (e.k.scalar base) 0 24
  match checkAccess e a 4 4 false false with
  | .error t => .error t
  | .ok ps =>
    match ps with
    | [] => .ok {}
    | p :: _ =>
      .ok { last := [
        .cont e.c fun k =>
          { k with mon := some ⟨e.id, a, p.bank, false, false, false⟩
                   acc := k.acc ++ [{ id := e.id, cls := 0, bank := p.bank, writes := false, fullEmpty := false
                                      parts := 1, watch := true }] },
        .ids 8,
        .bank p.bank fun b =>
          { b with q := b.q ++ [{ id := e.id, cid := e.k.cid, core := e.c, cls := 0, op := .watch, off := p.off,
                                  len := 4, pos := 0, win := a,
                                  earliest := e.x.clk + 2 + latClass e.c (bankId p.bank),
                                  beats := 1, parked := false }] }] }

/-- The status `waitm` writes: 1 RECHECK, 2 LOST, 0 WRITTEN; none while it must wait (R259). -/
def Cont.waitmStatus (k : Cont) : Option (W64 × Bool) :=
  if k.recheck then some (1, true)
  else match k.mon with
    | none => some (2, false)
    | some m => if m.triggered then some (0, false) else if m.lost then some (2, false) else none

/-- `waitm` (R259). -/
def effWaitm (d : Spec) : Eff := fun e =>
  match e.k.waitmStatus with
  | none => .ok {}
  | some (v, armed) =>
    .ok { res := plainResult d v 1,
          acts := [.cont e.c fun k => if armed then { k with recheck := false } else { k with mon := none }] }
/-- The hold of `waitm` (R259). -/
def holdWaitm : Hold := fun e => holdWhile e.k.waitmStatus.isNone

/-! ### Fused gangs -/

/-- The core that bit `j` of a MEMBERS field names: core j of the issuing core's tile (R260). -/
def tileCore (c : Fin 256) (j : Nat) : Fin 256 := fin 255 (c.val / 4 * 4 + j)

/-- The cores of a MEMBERS field. -/
def memberCores (c : Fin 256) (m : BitVec 4) : List (Fin 256) :=
  ((List.range 4).filter fun j => bitAt m j).map (tileCore c)

/-- DESCR for `fuse` (R260, R269). -/
def fuseTrap (m : BitVec 4) : Trap := descr 3 (m.setWidth 8)

/-- The checks of `fuse` (R260). -/
def fuseBad (s : State) (c : Fin 256) (k : Cont) (m : BitVec 4) : Bool :=
  if m = 0 then (match k.fused with | none => true | some f => f.coupled)
  else
    decide ((memberCores c m).length < 2) || !((memberCores c m).contains c) ||
      (match k.fused with | some f => decide (f.members ≠ m) || !(k.fusing.isSome) | none => false) ||
      (memberCores c m).any fun o =>
        k.level != 1 || (s.cores[o]).cont.level != 1 || k.team.isNone || (s.cores[o]).cont.team != k.team ||
          !seated (s.cores[o])
where
  seated (x : CoreSt) : Bool := match x.phase with
    | .running | .trapSave _ | .halted => true
    | _ => false

/-- The greatest architectural cycle among cores. -/
def latestCycle (s : State) (cs : List (Fin 256)) : Nat := cs.foldl (fun n o => max n (s.cores[o]).cont.acyc) 0

/-- A continuation's architectural clock set forward by `d` cycles, its results keeping their distance: members of a gang
share one clock (R260, R261, R262). -/
def Cont.advanced (k : Cont) (d : Nat) : Cont :=
  { k with acyc := k.acyc + d, pend := k.pend.map fun p => { p with due := p.due + d } }

/-- Membership after a core has left: the last member left is fused no longer (R260). -/
def Cont.without (k : Cont) (left : BitVec 4) (alone : Bool) : Cont :=
  if alone then { k with fused := none, cstat := cSetFused k.cstat false }
  else { k with fused := k.fused.map fun g => { g with members := left } }

/-- `fuse` (R260): the members join in one cycle of one clock, and each sets CSTAT.FUSED at its commit; leaving clears it, in
the images of members that are frozen too. -/
def effFuse (m : BitVec 4) : Eff := fun e =>
  if fuseBad e.s e.c e.k m then .error (fuseTrap m)
  else if m ≠ 0 then
    let all := memberCores e.c m
    let now := latestCycle e.s all
    let join : List Act := if e.k.fused.isSome then [] else all.map fun o => .cont o fun k =>
      { k.advanced (now - (e.s.cores[o]).cont.acyc) with fused := some ⟨m, true, false, none⟩ }
    .ok { acts := join ++ [.cont e.c fun k => { k with fusing := none, cstat := cSetFused k.cstat true }] }
  else
    match e.k.fused with
    | none => .ok {}
    | some f =>
      let left := f.members &&& ~~~(1#4 <<< (e.c.val % 4))
      let alone := decide ((memberCores e.c left).length < 2)
      .ok { acts := (.cont e.c fun k => { k with fused := none, cstat := cSetFused k.cstat false }) ::
        (memberCores e.c left).map fun o => .core o fun x =>
          { x with cont := x.cont.without left alone, keep := x.keep.map fun k => k.without left alone } }

/-- The hold of `fuse` (R260): it presents its MEMBERS and waits until every named core presents the same. -/
def holdFuse (m : BitVec 4) : Hold := fun e =>
  if m = 0 ∨ fuseBad e.s e.c e.k m then none
  else if e.k.fusing ≠ some m then some [.cont e.c fun k => { k with fusing := some m }]
  else holdWhile ((memberCores e.c m).any fun o =>
    let k := (s_cont e.s o)
    !(k.fusing == some m || (k.fused.map Fused.members) == some m))
where
  s_cont (s : State) (o : Fin 256) : Cont := (s.cores[o]).cont

/-- The other members of a core's gang that are coupled with it (R261): none for a core that runs on its own clock, as a
handler does (R263). -/
def coupledWith (s : State) (c : Fin 256) : List (Fin 256) :=
  let k := (s.cores[c]).cont
  match k.fused with
  | none => []
  | some f =>
    if !f.coupled || tHnd k.tcause then []
    else (memberCores c f.members).filter fun o =>
      o != c && ((s.cores[o]).cont.fused.map fun g => g.coupled && g.members == f.members) == some true

/-- A coupled member that a trap, a save or a handler keeps from running holds the others (R261, R263). -/
def gangHeld (s : State) (c : Fin 256) : Bool :=
  (coupledWith s c).any fun o => (s.cores[o]).phase != .running || tHnd (s.cores[o]).cont.tcause

/-- A core of a coupled gang has spent a cycle that another member has still to spend (R261); a stopped member has none. -/
def gangAhead (s : State) (c : Fin 256) : Bool :=
  (coupledWith s c).any fun o => !(s.cores[o]).cont.stopped && decide ((s.cores[o]).cont.acyc < (s.cores[c]).cont.acyc)

/-- A core of a coupled gang has a cycle to spend that another member has spent already (R261). -/
def gangBehind (s : State) (c : Fin 256) : Bool :=
  (coupledWith s c).any fun o => !(s.cores[o]).cont.stopped && decide ((s.cores[c]).cont.acyc < (s.cores[o]).cont.acyc)

/-- DECOUPLE (R262): a committing member runs on its own clock from the next cycle. -/
def decoupleAct (c : Fin 256) : Act :=
  .cont c fun k => { k with fused := k.fused.map fun f => { f with coupled := false, release := none } }

/-- REJOIN (R262): a member pulls the windshaft line and holds. -/
def pullAct (c : Fin 256) : Act := .cont c fun k => { k with fused := k.fused.map fun f => { f with pull := true } }

/-- A member of a gang, wherever it is, runs on its own clock (R262). -/
def decoupled (s : State) (c : Fin 256) (f : Fused) : Bool :=
  (memberCores c f.members).any fun o =>
    match (s.cores[o]).cont.fused with
    | some g => g.members == f.members && !g.coupled
    | none => false

/-- The hold of a bundle of KIND rejoin on a fused member (R262): a member among coupled members goes on at once; while one
is decoupled it pulls the line, and holds until the line has released it. -/
def holdRejoin (e : Env) : Option (List Act) :=
  match e.k.fused with
  | none => none
  | some f =>
    match f.release with
    | some t => holdWhile (decide (e.x.clk < t))
    | none => if decoupled e.s e.c f then some (if f.pull then [] else [pullAct e.c]) else none

/-- The rejoin bundle issues: the member is coupled again (R262). -/
def rejoinedAct (c : Fin 256) : Act :=
  .cont c fun k => { k with fused := k.fused.map fun f => { f with coupled := true, pull := false, release := none } }

/-- WINDSHAFT_REJOIN (R262): the line of a tile shows every member of a gang pulling, and all members issue their rejoin
bundles in one cycle, 2 cycles later, from which they are coupled. -/
def windshaft (s : State) (t : Fin 64) : List Act :=
  match (List.range 4).map (fun j => fin 255 (t.val * 4 + j)) |>.find? fun c =>
      match (s.cores[c]).cont.fused with
      | none => false
      | some f => f.pull && f.release.isNone &&
          (memberCores c f.members).all fun o =>
            ((s.cores[o]).cont.fused.map fun g => g.members == f.members && g.pull) == some true with
  | none => []
  | some c =>
    match (s.cores[c]).cont.fused with
    | none => []
    | some f =>
      let t0 := (memberCores c f.members).foldl (fun acc o => max acc (s.cores[o]).clk) 0
      let a0 := latestCycle s (memberCores c f.members)
      (memberCores c f.members).map fun o => .cont o fun k =>
        { k.advanced (a0 - (s.cores[o]).cont.acyc) with
          fused := k.fused.map fun g => { g with coupled := true, release := some (t0 + 2) } }

/-! ### Circuits -/

/-- partner(q, k) of a table (R265). -/
def partnerOf (t : Vector W64 16) (q : Fin 16) (k : Nat) : Fin 16 := fin 15 (bits t[q] (4 * k) 4).toNat

/-- A slot table is valid (R265): pairing is mutual and every ordered pair has one slot. -/
def slotValid (t : Vector W64 16) : Bool :=
  (List.finRange 16).all fun q =>
    (List.range 16).all (fun k => partnerOf t (partnerOf t q k) k == q) &&
    (List.finRange 16).all fun p => ((List.range 16).countP fun k => partnerOf t q k == p) == 1

/-- DESCR for `send` and `recv` (R266, R269). -/
def circuitBad (c : Fin 256) (v : W64) : Bool := bits v 8 56 != 0 || (bits v 4 4).toNat != c.val / 16

/-- The phases of a quadrant's turn (R264). -/
def turnCycles : Nat := 64

/-- The slot in which core `src` of a quadrant sends to core `dst` (R264, R265). -/
def pairSlot (t : Vector W64 16) (src dst : Fin 16) : Option Nat := (List.range 16).find? fun k => partnerOf t src k == dst

/-- The first cycle, no earlier than `n`, in which the header of slot `k` goes: phase 4k - 3 of a turn (R266). -/
def headerCycle (k n : Nat) : Nat := n + (4 * k + 61 + turnCycles - n % turnCycles) % turnCycles

/-- `send` (R266): the value read at issue enters the send buffer at commit. -/
def effSend (x : KData) (core : Spec) : Eff := fun e =>
  let v := e.k.scalar core
  let d := e.k.kdata x
  if circuitBad e.c v then .error (descr 4 (bits v 0 8))
  else
    let i := fin 15 (bits v 0 4).toNat
    .ok { acts := [.cont e.c fun k => { k with send := vset k.send i (some d), sendAt := vset k.sendAt i (e.x.clk + 1) }] }
/-- The hold of `send` (R266): the previous one to that core has not yet left. -/
def holdSend (core : Spec) : Hold := fun e =>
  let v := e.k.scalar core
  holdWhile (!(circuitBad e.c v) && (e.k.send[fin 15 (bits v 0 4).toNat]).isSome)

/-- `recv` (R267): the entry is emptied at commit and all lanes land 2 cycles after issue. -/
def effRecv (d : KData) (core : Spec) : Eff := fun e =>
  let v := e.k.scalar core
  let i := fin 15 (bits v 0 4).toNat
  if circuitBad e.c v then .error (descr 4 (bits v 0 8))
  else
    .ok { res := ((kReg d).map fun r => bareResult r ((e.k.recv[i]).getD 0) (BitVec.allOnes 64) 2).toList,
          acts := [.cont e.c fun k => { k with recv := vset k.recv i none, recvAt := vset k.recvAt i (e.x.clk + 1) }] }
/-- The hold of `recv` (R267). -/
def holdRecv (core : Spec) : Hold := fun e =>
  let v := e.k.scalar core
  holdWhile (!(circuitBad e.c v) && (e.k.recv[fin 15 (bits v 0 4).toNat]).isNone)

/-- The core of a quadrant. -/
def quadCore (q : Fin 16) (i : Fin 16) : Fin 256 := fin 255 (q.val * 16 + i.val)

/-- A core grants permits: it is not frozen for pre-emption (R268). -/
def grants (x : CoreSt) : Bool :=
  match x.phase with
  | .running | .trapSave _ | .halted => true
  | _ => false

/-- The cycle of the next header that core `c` sends to core `d` of its quadrant (R266): the first of the pair's slot at
which the value stands in the buffer and the receive entry is empty, granted and not reserved; none where one of these is
missing. -/
def headerDue (s : State) (c : Fin 256) (d : Fin 16) : Option Nat :=
  let q := quadOf c
  let src := quadIx c
  let x := s.cores[c]
  let y := s.cores[quadCore q d]
  if (x.cont.send[d]).isSome && grants x && grants y && (y.cont.recv[src]).isNone &&
      !((s.quads[q]).moving.any fun t => t.src == src && t.dst == d) then
    (pairSlot (s.quads[q]).slottab src d).map fun k => headerCycle k (max x.cont.sendAt[d] y.cont.recvAt[src])
  else none

/-- CIRCUIT_HEADER (R266): a header of core `c` whose phase has come goes, and reserves the path; the data follows in the
pair's slot and is in the entry 7 cycles after its header. -/
def circuitHeader (s : State) (c : Fin 256) : List Act :=
  let due (d : Fin 16) : Bool := match headerDue s c d with | some n => decide (n ≤ s.clock) | none => false
  match (List.finRange 16).find? due with
  | none => []
  | some d =>
    let at_ := (headerDue s c d).getD 0 + 7
    [.quad (quadOf c) fun u => { u with moving := u.moving ++ [⟨quadIx c, d, ((s.cores[c]).cont.send[d]).getD 0, at_⟩] },
     .cont c fun k => { k with send := vset k.send d none }]

/-- CIRCUIT_DATA_ARRIVAL (R266): the first transfer to core `c` whose slot has passed is in its receive entry, or in the
image's while a pre-emption saves it (R268). -/
def circuitData (s : State) (c : Fin 256) : List Act :=
  let q := quadOf c
  match (s.quads[q]).moving.find? fun t => t.dst == quadIx c && decide (t.at_ ≤ s.clock) with
  | none => []
  | some t =>
    let got (k : Cont) : Cont := { k with recv := vset k.recv t.src (some t.data), recvAt := vset k.recvAt t.src t.at_ }
    [.quad q fun u => { u with moving := u.moving.erase t },
     .core c fun x => if grants x then { x with cont := got x.cont } else { x with keep := x.keep.map got }]

/-- GIVE_ATTACH (R167 step 3): the bank attaches to the target's window when the drain is over, what the giver had acquired has
performed (R278), and the window is invalid and open; the flag follows 2 cycles later. -/
def giveAttach (s : State) (b : Fin 4096) : List Act :=
  match (s.banks[b]).transit with
  | some (.give src dst wdst flag fe cid at_ needs) =>
    let x := s.cores[dst]
    let ent := x.cont.entry wdst
    if drained s b cid && !(s.outstanding src needs) && decide (max at_ (s.banks[b]).clear ≤ s.clock) && (x.phase == .running || (match x.phase with | .trapSave _ => true | _ => false)) &&
        !ent.v && ent.opened then
      let att (k : Cont) : Cont := k.setEntry wdst fun _ => attached dst (bankId b)
      [.bank b fun y => { y with transit := none },
       .core dst fun y => { y with cont := att y.cont, keep := y.keep.map att }
] ++ contActs s src cid (fun k => { k with give := none }) ++
      (if fe then [.ids 8, .releases fun rs =>
          rs ++ [{ id := s.nextId, src := dst, needs := [], ready := s.clock + 2, fabric := .unneeded,
                   deliver := .flag dst flag 1, engine := true }]] else [])
    else []
  | _ => []

end Sys2Proof.Machine
end

