-- ==== Sys2Proof/Machine/Queue.lean ====
section
/-! DEFINITION. Continuation records (R310-R312), work queues (R314, R315), the access table (R375) and the
offering of a record to a queue (R316, R317). -/

namespace Sys2Proof.Machine

/-! ### Records -/

/-- The little-endian number in bytes [lo, lo+n) of a record. -/
def recNat (r : List Byte) (lo n : Nat) : Nat := leNat ((r.drop lo).take n)
/-- The header (R311). -/
def recHeader (r : List Byte) : W64 := BitVec.ofNat 64 (recNat r 0 8)
/-- ENTRY. -/
def recEntry (r : List Byte) : W32 := BitVec.ofNat 32 (recNat r 8 4)
/-- BANK j. -/
def recBank (r : List Byte) (j : Nat) : Byte := r.getD (12 + j) 0
/-- TS. -/
def recTs (r : List Byte) : W64 := BitVec.ofNat 64 (recNat r 16 8)
/-- The completion field (R312). -/
def recCompletion (r : List Byte) : W64 := BitVec.ofNat 64 (recNat r 24 8)
/-- Argument j. -/
def recArg (r : List Byte) (j : Nat) : W64 := BitVec.ofNat 64 (recNat r (32 + 8 * j) 8)

/-- KIND (R311). -/
def hKind (h : W64) : Nat := (bits h 0 4).toNat
/-- LEVEL: 0 lone, 1 gang, 2 band, 3 job (R311). -/
def hLevel (h : W64) : Nat := (bits h 12 2).toNat
/-- STATE (R311). -/
def hState (h : W64) : Nat := (bits h 14 2).toNat
/-- AFF (R311). -/
def hAff (h : W64) : Bool := bitAt h 16
/-- PRIO (R311). -/
def hPrio (h : W64) : Nat := (bits h 17 3).toNat
/-- PART (R311). -/
def hPart (h : W64) : Fin 16 := fin 15 (bits h 20 4).toNat
/-- CARRY (R311). -/
def hCarry (h : W64) : BitVec 4 := bits h 24 4
/-- QUAD (R311). -/
def hQuad (h : W64) : Fin 16 := fin 15 (bits h 28 4).toNat
/-- OPENM (R311). -/
def hOpenm (h : W64) : Byte := bits h 32 8
/-- GROUP (R311). -/
def hGroup (h : W64) : Nat := (bits h 40 12).toNat
/-- MEMBER (R311). -/
def hMember (h : W64) : Nat := (bits h 52 6).toNat
/-- SIZEM1 (R311). -/
def hSize (h : W64) : Nat := (bits h 58 6).toNat
/-- The record is bound to its QUAD (R311). -/
def hBound (h : W64) : Bool := hAff h || hCarry h != 0

/-- The bytes of a record. -/
def recBytes (header : W64) (entry : W32) (banks : List Byte) (ts completion : W64) (args : List W64) : List Byte :=
  leBytes 8 header.toNat ++ leBytes 4 entry.toNat ++ (List.range 4).map (fun j => banks.getD j 0) ++
    leBytes 8 ts.toNat ++ leBytes 8 completion.toNat ++
    ((List.range 4).map fun j => leBytes 8 (args.getD j 0).toNat).flatten

/-- A record with its header replaced. -/
def recSetHeader (r : List Byte) (h : W64) : List Byte := leBytes 8 h.toNat ++ r.drop 8

/-- SIZEM1 lies outside the range of its LEVEL (R311). -/
def sizeBad (h : W64) : Bool :=
  match hLevel h with
  | 1 => !(decide (1 ≤ hSize h) && decide (hSize h ≤ 3))
  | 2 => false
  | _ => hSize h != 0

/-- BADREC (R317), for a record whose banks would be carried from quadrant `quad`. -/
def recBad (r : List Byte) (quad : Fin 16) (qmask : Half) : Bool :=
  let h := recHeader r
  let c := recCompletion r
  hKind h != 1 || hState h != 0 || hMember h != 0 || bits h 4 8 != 0 || bits c 49 15 != 0 || bits c 27 5 != 0 ||
    bits c 13 3 != 0 || sizeBad h || ((hLevel h == 0 || hLevel h == 3) && hGroup h != 0) ||
    ((List.range 4).any fun j => bitAt (hCarry h) j && decide (251 < (recBank r j).toNat)) ||
    (hCarry h != 0 && !bitAt qmask quad.val) || (hCarry h == 0 && hAff h && !bitAt qmask (hQuad h).val)

/-! ### Queues -/

/-- A work queue's descriptor as the hardware reads it (R314); `set` is EN with every check but that of the ring's
place (R189). -/
structure QDesc where
  ring : Nat
  head : Nat
  tail : Nat
  slots : Nat
  priv : Bool
  prio : Nat
  set : Bool
  en : Bool
  part : Fin 16
  weight : Nat
  aci : Nat
  cls : Nat
  tvec : W32
  deriving DecidableEq, Repr

/-- The address of a queue's descriptor (R314). -/
def queueAddr (s : State) (q : Fin 131072) : Nat := (bits s.hub.qdbase 0 46).toNat + 32 * q.val

/-- A queue's descriptor; one that holds a reserved value is treated as EN = 0 (R315), as is one of CLASS 1 whose PRIV bit is 0
(R189). -/
def queueAt (s : State) (q : Fin 131072) : QDesc :=
  let b := memBytes s.mem (queueAddr s q) 32
  let log := (b.getD 16 0).toNat
  let ring := recNat b 0 8
  let ok := decide (1 ≤ log) && decide (log ≤ 20) && ring % 64 == 0 &&
    bits (b.getD 17 0) 3 4 == 0 && bits (b.getD 18 0) 4 3 == 0 && b.getD 19 0 != 0 &&
    decide ((b.getD 22 0).toNat ≤ 2) && b.getD 23 0 == 0 && bits (b.getD 24 0) 1 7 == 0 && recNat b 25 3 == 0
  let n := 2 ^ min log 20
  let set := ok && bitAt (b.getD 18 0) 7
  let priv := bitAt (b.getD 17 0) 7
  { ring, head := recNat b 8 4 % n, tail := recNat b 12 4 % n, slots := n, priv
    prio := (bits (b.getD 17 0) 0 3).toNat, set, en := set && (priv || b.getD 22 0 != 1) && decide (ring + 64 * 2 ^ log ≤ Config.mainBytes)
    part := fin 15 (bits (b.getD 18 0) 0 4).toNat, weight := (b.getD 19 0).toNat, aci := recNat b 20 2
    cls := (b.getD 22 0).toNat, tvec := BitVec.ofNat 32 (recNat b 28 4) }

/-- Records present in a queue. -/
def QDesc.count (d : QDesc) : Nat := (d.tail + d.slots - d.head) % d.slots
/-- The queue is full: 2^LOGSZ - 1 records are present (R316). -/
def QDesc.full (d : QDesc) : Bool := decide (d.slots - 1 ≤ d.count)

/-- The queues whose descriptor has EN set, in rising number: their byte 18 stands in memory (R314). -/
def activeQueues (s : State) : List (Fin 131072) :=
  let base := (bits s.hub.qdbase 0 46).toNat + 18
  (s.mem.filter fun x => decide (base ≤ x.1) && (x.1 - base) % 32 == 0 && decide ((x.1 - base) / 32 < 131072) &&
    bitAt x.2 7).map fun x => fin 131071 ((x.1 - base) / 32)

/-- The slot of a ring (R315). -/
def ringSlot (d : QDesc) (i : Nat) : Nat := d.ring + 64 * (i % d.slots)

/-- A 32-bit word written. -/
def wordActs (a x : Nat) : List Act := writeActs a (leBytes 4 x)

/-- The record's PART and PRIO are those of the queue (R311, R316). -/
def recFor (d : QDesc) (r : List Byte) : List Byte :=
  recSetHeader r (setBits (setBits (recHeader r) 20 (BitVec.ofNat 4 d.part.val)) 17 (BitVec.ofNat 3 d.prio))

/-! ### The access table (R375) -/

/-- A permission of an entry, as its bit number. -/
inductive Perm | rd | wr | at | po
  deriving DecidableEq, Repr

/-- The bit of a permission (R375). -/
def Perm.bit : Perm → Nat
  | .rd => 62 | .wr => 61 | .at => 60 | .po => 59

/-- An entry names this master and holds this permission (R375). -/
def actNames (e : W128) (master : Half) (p : Perm) : Bool :=
  let mm : Half := bits e 16 16
  bitAt e 63 && ((bits e 32 16 : Half) &&& mm) == (master &&& mm) && bitAt e p.bit

/-- The SIZE of an entry is one that leaves it valid (R375). -/
def actSized (e : W128) : Bool := let size := (bits e 76 6).toNat; decide (12 ≤ size) && decide (size ≤ 46)

/-- An entry covers `n` bytes at `a` (R375). -/
def actCovers (e : W128) (a n : Nat) : Bool :=
  let size := (bits e 76 6).toNat
  let base := (bits e 82 46).toNat
  actSized e && decide (base ≤ a) && decide (a + n ≤ base + 2 ^ size)

/-- A request is granted when some valid entry meets all three conditions (R375). -/
def granted (s : State) (master : Half) (p : Perm) (a n : Nat) : Bool :=
  (List.finRange 4096).any fun i => actNames s.hub.act[i] master p && actCovers s.hub.act[i] a n

/-- The entry that a queue's ACI names grants PO; its BASE and SIZE are ignored (R375). -/
def aciGrants (s : State) (d : QDesc) (master : Half) : Bool :=
  decide (d.aci < 4096) && actNames s.hub.act[fin 4095 d.aci] master .po

/-! ### Offering a record -/

/-- The status of offering a record to a queue of this node (R316): the first that applies of DISABLED, ACCESS,
BADREC and FULL. `priv` is the offerer's privilege; `carry` says that banks may be carried. -/
def offer (s : State) (q : Fin 131072) (master : Half) (priv carry : Bool) (quad : Fin 16) (r : List Byte) : Nat :=
  let d := queueAt s q
  if !d.en then 3
  else if !(aciGrants s d master) || (d.priv && !priv) || d.cls == 2 then 2
  else if recBad r quad (s.parts[d.part]).qmask || (!carry && hCarry (recHeader r) != 0) then 4
  else if d.full then 1 else 0

end Sys2Proof.Machine
end

