-- ==== Sys2Proof/Machine/Mmu.lean ====
section
/-! DEFINITION. Translation (R18, R186, R187), page faults (R188, R189), and the places that device physical
addresses name (R13, R14, R19, R284). -/

namespace Sys2Proof.Machine

/-! ### Places -/

/-- What a device physical address names (R19). -/
inductive Place | main | bank (b : Fin 4096) (off : Nat) | stone (x : Fin 64) (off : Nat) | config (off : Nat) | nothing
  deriving DecidableEq, Repr

/-- The place of a device physical address (R19). -/
def placeOf (a : Nat) : Place :=
  if a < Config.mainBytes then .main
  else if Config.padBase ≤ a ∧ a < Config.padBase + Config.padBytes then
    .bank (fin 4095 ((a - Config.padBase) / 65536)) ((a - Config.padBase) % 65536)
  else if Config.stoneBase ≤ a ∧ a < Config.stoneBase + Config.stoneBytes then
    if (a - Config.stoneBase) % 2 ^ 23 < Config.stoneSpan then
      .stone (fin 63 ((a - Config.stoneBase) / 2 ^ 23)) ((a - Config.stoneBase) % 2 ^ 23)
    else .nothing
  else if Config.cfgBase ≤ a ∧ a < Config.cfgBase + Config.cfgBytes then .config (a - Config.cfgBase)
  else .nothing

/-- The pseudo-channel of a main-memory address, numbered stack·64 + pc (R284). -/
def channelOf (a : Nat) : Fin 512 := let c := a / 4096 % 512; fin 511 (c % 8 * 64 + c / 8)
/-- The DRAM bank of a main-memory address (R284). -/
def dramBank (a : Nat) : Fin 32 := fin 31 (a / 4096 / 512 % 32)
/-- The DRAM row of a main-memory address (R284). -/
def dramRow (a : Nat) : Nat := a / 4096 / 512 / 32

/-- The home number of a tile (R14). -/
def tileHome (t : Nat) : Half := BitVec.ofNat 16 (0x1000 + t)
/-- The home number of a pseudo-channel (R14). -/
def stackHome (h : Nat) : Half := BitVec.ofNat 16 (0x2000 + h)
/-- The home number of a stone (R14). -/
def stoneHome (x : Nat) : Half := BitVec.ofNat 16 (0x3000 + x)

/-- The home that holds a byte (R13, R14): a bank's bits are die, quadrant, tile, bank (R11). -/
def homeOf (a : Nat) : Half :=
  match placeOf a with
  | .main => stackHome (channelOf a).val
  | .bank b _ => tileHome (b.val / 64)
  | .stone x _ => stoneHome x.val
  | _ => 0

/-! ### Pseudo-channels (R286, R299) -/

/-- The numbers `a / n` of addresses, each once, rising. -/
def blocksOf (n : Nat) (xs : List Nat) : List Nat := xs.foldl (fun acc a => setIns acc (a / n)) []

/-- A row counter's check at precharge: at or above the threshold, saturated, or of bad parity (R299). -/
def rowDue (thresh count : Nat) (parity : Bool) : Bool := decide (thresh ≤ count) || count == 16383 || !parity

/-- The counter of a row, with its parity (R299). -/
def counterOf (h : HomeSt) (b : Fin 32) (row : Nat) : Nat × Bool :=
  ((h.counters.find? fun x => x.1 == b && x.2.1 == row).map fun x => x.2.2).getD (0, true)

/-- A counter replaced. -/
def setCounter (h : HomeSt) (b : Fin 32) (row count : Nat) (parity : Bool) : HomeSt :=
  { h with counters := (b, row, count, parity) :: h.counters.filter fun x => !(x.1 == b && x.2.1 == row) }

/-- A row is precharged: its counter is checked, and the rows beside it are owed a refresh (R299). -/
def precharge (thresh : Nat) (h : HomeSt) (b : Fin 32) : HomeSt :=
  match h.openRows.find? fun x => x.1 == b with
  | none => h
  | some (_, row) =>
    let (n, p) := counterOf h b row
    let h := { h with openRows := h.openRows.filter fun x => !(x.1 == b) }
    if rowDue thresh n p then
      { setCounter h b row 0 true with
        owed := h.owed ++ (if 0 < row then [(b, row - 1)] else []) ++ (if row < 8191 then [(b, row + 1)] else [])
        neighbours := min (h.neighbours + 1) 0xFFFFFFFF }
    else h

/-- A row is activated: owed refreshes of its bank come first, and its counter rises (R299). -/
def activate (thresh : Nat) (h : HomeSt) (b : Fin 32) (row : Nat) : HomeSt :=
  if h.openRows.any fun x => x.1 == b && x.2 == row then h
  else
    let h := precharge thresh h b
    let (n, p) := counterOf h b row
    { setCounter h b row (min (n + 1) 16383) p with
      openRows := (b, row) :: h.openRows, owed := h.owed.filter fun x => !(x.1 == b) }

/-- The parity failure that precharging a bank would show, for ROWLOG (R299, R301). -/
def parityFails (h : HomeSt) (b : Fin 32) (row : Nat) : Option Nat :=
  match h.openRows.find? fun x => x.1 == b with
  | none => none
  | some (_, r) => if r = row then none else if (counterOf h b r).2 then none else some r

/-- ROWLOG records a parity failure (R301). -/
def rowlogNote (w : W64) (pc bank row : Nat) : W64 :=
  let n := (bits w 48 16).toNat
  BitVec.ofNat 64 (min (n + 1) 0xFFFF * 2 ^ 48 + 2 ^ 47 + pc * 2 ^ 41 + bank * 2 ^ 36 + row * 2 ^ 23)

/-- An access to a row of a pseudo-channel that transfers `sectors` sectors, by a wheel or for a request (R196, R286,
R299). -/
def rowAccess (s : State) (h : Fin 512) (b : Fin 32) (row sectors : Nat) : List Act :=
  let t := s.hub.thresh.toNat
  (match parityFails s.homes[h] b row with
    | some r =>
      [.hub fun x => let i : Fin 8 := fin 7 (h.val / 64)
        { x with rowlog := vset x.rowlog i (rowlogNote x.rowlog[i] (h.val % 64) b.val r) },
       .report (.parity h.val r)]
    | none => []) ++
  [.home h fun x => let x := activate t x b row; { x with hot := min (x.hot + sectors) 0xFFFFFFFF }]

/-- The rows, each with its number of sectors, that addresses of main memory touch. -/
def rowsOf (xs : List Nat) : List (Fin 512 × Fin 32 × Nat × Nat) :=
  let secs := blocksOf 32 (xs.filter fun a => decide (a < Config.mainBytes))
  secs.foldl (fun acc n =>
    let a := 32 * n
    match acc with
    | (h, b, r, k) :: rest =>
      if h = channelOf a ∧ b = dramBank a ∧ r = dramRow a then (h, b, r, k + 1) :: rest
      else (channelOf a, dramBank a, dramRow a, 1) :: acc
    | [] => [(channelOf a, dramBank a, dramRow a, 1)]) []

/-- The accesses of a list of rows. -/
def touchRows (s : State) : List (Fin 512 × Fin 32 × Nat × Nat) → List Act
  | [] => []
  | (h, b, r, n) :: xs => let acts := rowAccess s h b r n; acts ++ touchRows (applyActs s acts) xs

/-- An ordinary request arrives: a wheel with a job is suspended, which is counted once until its next step (R293,
R296). -/
def HomeSt.interrupt (h : HomeSt) : HomeSt :=
  if h.suspended || h.jobs.isEmpty then h
  else { h with suspended := true, suspensions := min (h.suspensions + 1) 0xFFFFFFFF }

/-- Ordinary requests that are served at once, in a window of the wheel (R296). -/
def accessRows (s : State) (xs : List (Fin 512 × Fin 32 × Nat × Nat)) : List Act :=
  xs.map (fun x => .home x.1 HomeSt.interrupt) ++ touchRows s xs

/-- The DRAM accesses of an agent that reads or writes `n` bytes at once (R196, R299). -/
def touchBytes (s : State) (a n : Nat) : List Act := accessRows s (rowsOf ((sectorsOf a n).map (32 * ·)))

/-- The DRAM accesses of an agent that reads or writes runs of bytes one after another. -/
def touchEach (s : State) : List (Nat × Nat) → List Act
  | [] => []
  | x :: xs => let acts := touchBytes s x.1 x.2; acts ++ touchEach (applyActs s acts) xs

/-- A record is appended and TAIL advances (R316): the sectors of both are written (R196, R299). -/
def appendActs (s : State) (q : Fin 131072) (r : List Byte) : List Act :=
  let d := queueAt s q
  let acts := writeActs (ringSlot d d.tail) r ++ wordActs (queueAddr s q + 12) ((d.tail + 1) % d.slots) ++
    touchBytes s (ringSlot d d.tail) 64
  acts ++ touchBytes (applyActs s acts) (queueAddr s q + 12) 4

/-! ### The page walk -/

/-- What a walk gives: a translation with the page's size, a page that is not present, or a failure. -/
inductive WalkRes | ok (pa : Nat) (w vw : Bool) (size : Nat) | absent | denied
  deriving DecidableEq, Repr

/-- The failure of a walk that reads a poisoned entry is counted and reported (R186). -/
def walkPoison (a : Nat) : List Act := [.report (.uncorrectable a), .die 0 fun d => { d with ecc := d.ecc + 1 }]

/-- A and D are set in an entry (R186). -/
def touchEntry (m : List Host.Cell) (ea : Nat) (write : Bool) : List Act :=
  let b := memGet m ea
  let b' := b ||| (if write then 0x60 else 0x20)
  if b = b' then [] else [.byte ea b']

/-- The 16 entries of a 64 KiB page agree in every field but FRAME [15:12], A and D (R186). -/
def groupAgrees (m : List Host.Cell) (ea : Nat) : Bool :=
  let g := ea / 128 * 128
  let key (i : Nat) : W64 := BitVec.ofNat 64 (memNat m (g + 8 * i) 8) &&& ~~~(0xF060 : W64)
  (List.range 16).all fun i => key i == key 0

/-- A leaf entry: its page has `size` bytes and maps `va` (R186). -/
def leaf (m : List Host.Cell) (free : Nat) (ea : Nat) (x : W64) (size : Nat) (va : Nat) (write : Bool) : WalkRes × List Act :=
  let group := size == 65536
  let agree := !group || groupAgrees m ea
  let y : W64 := if agree then x else BitVec.ofNat 64 (memNat m (ea / 128 * 128 + 8 * (Config.freePick free % 16)) 8)
  let draw : List Act := if agree then [] else [.drawn 1]
  let frame := (bits y 12 34).toNat * 4096
  let base := if group then frame / 65536 * 65536 else frame
  if (write && !bitAt y 1) || base % size != 0 || !decide (base + size ≤ Config.mainBytes) then (.denied, draw)
  else (.ok (base + va % size) (bitAt y 1) (bitAt y 4) size, draw ++ touchEntry m ea write)

/-- A walk from level `4 - n + 1` at table `tbl` (R186). -/
def walkFrom (s : State) (va : Nat) (write : Bool) : Nat → Nat → WalkRes × List Act
  | 0, _ => (.denied, [])
  | n + 1, tbl =>
    let ea := tbl + 8 * (va / 2 ^ (12 + 9 * n) % 512)
    if Config.mainBytes < ea + 8 then (.denied, [])
    else if (poisonIn s.poisoned ea 8).isSome then (.denied, walkPoison ea)
    else
      let x : W64 := BitVec.ofNat 64 (memNat s.mem ea 8)
      if !bitAt x 0 then (.absent, [])
      else if bits x 46 18 ≠ 0 then (.denied, [])
      else if n = 0 then leaf s.mem s.free ea x (if bitAt x 3 then 65536 else 4096) va write
      else if bitAt x 2 then
        if n = 3 then (.denied, []) else leaf s.mem s.free ea x (2 ^ (12 + 9 * n)) va write
      else
        let frame := (bits x 12 34).toNat * 4096
        if Config.mainBytes ≤ frame then (.denied, []) else walkFrom s va write n frame

/-- The table of level 1 of a partition (R186). -/
def rootOf (s : State) (part : Fin 16) : Nat := (bits (s.parts[part]).table 12 34).toNat * 4096

/-- The walk of a partition's tables (R186). -/
def walk (s : State) (part : Fin 16) (va : Nat) (write : Bool) : WalkRes × List Act :=
  if 2 ^ 48 ≤ va then (.denied, []) else walkFrom s va write 4 (rootOf s part)

/-- The addresses of the entries that a walk reads, from level `4 - n + 1` at table `tbl` (R186). -/
def walkReads (s : State) (va : Nat) : Nat → Nat → List Nat
  | 0, _ => []
  | n + 1, tbl =>
    let ea := tbl + 8 * (va / 2 ^ (12 + 9 * n) % 512)
    let x : W64 := BitVec.ofNat 64 (memNat s.mem ea 8)
    if Config.mainBytes < ea + 8 then []
    else if bitAt x 0 && !bitAt x 2 then ea :: walkReads s va n ((bits x 12 34).toNat * 4096) else [ea]

/-- The DRAM accesses of a walk: a sector for each entry that it reads (R196, R299). -/
def walkRows (s : State) (part : Fin 16) (va : Nat) : List Act :=
  if 2 ^ 48 ≤ va then [] else accessRows s ((walkReads s va 4 (rootOf s part)).flatMap fun ea => rowsOf [ea])

/-- A walk by an engine, with its DRAM accesses. -/
def engineWalk (s : State) (part : Fin 16) (va : Nat) (write : Bool) : WalkRes × List Act :=
  let (r, acts) := walk s part va write
  (r, acts ++ walkRows s part va)

/-- A translation of a piece of a core (R187): where the caches of the die hold the page, its tables may be walked, or
the cached translation used, whatever the tables hold by now. -/
def translate (s : State) (c : Fin 256) (part : Fin 16) (va : Nat) (write : Bool) : WalkRes × List Act :=
  let page := va / 4096
  let note (pa : Nat) (w vw : Bool) (size : Nat) : Act := .die (dieOf c) fun d =>
    { d with tlb := ⟨part, page, pa / 4096, w, vw, size⟩ :: d.tlb.filter fun t => !(t.part == part && t.va == page) }
  let walked (draw : List Act) : WalkRes × List Act :=
    match engineWalk s part va write with
    | (.ok pa w vw size, acts) => (.ok pa w vw size, draw ++ acts ++ [note pa w vw size])
    | (r, acts) => (r, draw ++ acts)
  match (s.dies[dieOf c]).tlb.find? fun t => t.part == part && t.va == page with
  | none => walked []
  | some t =>
    let cached : WalkRes := .ok (t.pa * 4096 + va % 4096) t.w t.vw t.size
    if (walk s part va write).1 = cached then walked []
    else if Config.freePick s.free % 2 = 0 then walked [.drawn 1]
    else if write && !t.w then (.denied, [.drawn 1])
    else (cached, [.drawn 1])

/-- What the translation of several pages gives. -/
inductive PagesRes | ok (tr : List Trans) | absent (va : Nat) (write : Bool) | denied
  deriving DecidableEq, Repr

/-- The pages of addresses are translated in order, up to the first that fails (R187). -/
def translatePages (s : State) (c : Fin 256) (part : Fin 16) : List (Nat × Bool) → PagesRes × List Act
  | [] => (.ok [], [])
  | (va, write) :: ps =>
    match translate s c part va write with
    | (.absent, acts) => (.absent va write, acts)
    | (.denied, acts) => (.denied, acts)
    | (.ok pa _ vw size, acts) =>
      let (r, more) := translatePages (applyActs s acts) c part ps
      (match r with | .ok tr => .ok (⟨va / 4096, pa / 4096, vw, size⟩ :: tr) | r => r, acts ++ more)

/-- The frame that held translations give for an address. -/
def held (tr : List Trans) (va : Nat) : Option Trans := tr.find? fun t => t.va == va / 4096

/-! ### Page faults -/

/-- The pager queue of a partition: the lowest-numbered enabled queue of CLASS 1, privileged, with that PART; none where
it lies outside main memory, since no other queue is tried (R189). -/
def pagerQueue (s : State) (part : Fin 16) : Option (Fin 131072) :=
  ((activeQueues s).find? fun q => let d := queueAt s q; d.set && d.cls == 1 && d.priv && d.part == part).filter fun q =>
    (queueAt s q).en

/-- A pager fault record (R188, R189). -/
def pagerRecord (s : State) (d : QDesc) (f : PagerFault) : List Byte :=
  let header : W64 := BitVec.ofNat 64 (2 + d.prio * 2 ^ 17 + d.part.val * 2 ^ 20)
  let s1 : W64 := BitVec.ofNat 64 (f.core.val + f.tag.val * 2 ^ 8 + f.part.val * 2 ^ 14 + (if f.write then 2 ^ 18 else 0))
  recBytes header s.hub.pagerent[dieOf f.core] [] f.ts 0
    [BitVec.ofNat 64 f.va, s1, f.piece.setWidth 64, BitVec.ofNat 64 f.handle]

/-- A fault is recorded and its record appended, or left waiting while the pager queue is full; none when the
partition has no pager queue, which ends the piece with ACCESS (R188, R189). -/
def raiseFault (s : State) (who : Faulting) (c : Fin 256) (tag : Fin 64) (part : Fin 16) (ts : W64) (piece : W32)
    (va : Nat) (write : Bool) : Option (List Act) :=
  (pagerQueue s part).map fun q =>
    let d := queueAt s q
    let f : PagerFault :=
      { handle := s.nextId, who, va, write, core := c, tag, part, piece, ts, appended := !d.full }
    [.ids 1, .faults fun fs => fs ++ [f]] ++ (if d.full then [] else appendActs s q (pagerRecord s d f))

end Sys2Proof.Machine
end

