-- ==== Sys2Proof/Machine/Send.lean ====
section
/-! DEFINITION. The codes of pieces (R185); sending packets (R371-R373): sequence numbers, outbound logs (R364), requests that
await a response; the hub's time base (R9, R333, R382). -/

namespace Sys2Proof.Machine

/-- The statuses of pieces (R185, R239). -/
def codeOk : BitVec 4 := 0
/-- SHIPERR. -/
def codeShip : BitVec 4 := 1
/-- SRCPOISON. -/
def codePoison : BitVec 4 := 2
/-- NOFRAME. -/
def codeNoframe : BitVec 4 := 3
/-- ACCESS. -/
def codeAccess : BitVec 4 := 4
/-- INVAL. -/
def codeInval : BitVec 4 := 5
/-- DESCR. -/
def codeDescr : BitVec 4 := 6
/-- REMOTE. -/
def codeRemote : BitVec 4 := 7
/-- PARTIAL. -/
def codePartial : BitVec 4 := 8
/-- TIMEOUT. -/
def codeTimeout : BitVec 4 := 9

/-- Nanoseconds of the arithmetic clock, which runs at 1.8 GHz (R9). -/
def clockNs (clk : Nat) : Nat := clk * 5 / 9

/-- The correction of the time base so far: it is slewed by 1 ns in each microsecond (R382). -/
def HubSt.slewNow (h : HubSt) (ns : Nat) : Int :=
  let n : Int := (min h.slewBy.natAbs ((ns - h.slewFrom) / 1000) : Nat)
  if h.slewBy < 0 then -n else n

/-- The hub time base in nanoseconds at a cycle (R9, R333, R382). -/
def hubAt (h : HubSt) (clk : Nat) : Nat := (clockNs clk + h.timeOff + h.slewNow (clockNs clk)).toNat

/-- The hub time base in nanoseconds. -/
def hubNow (s : State) : Nat := hubAt s.hub s.clock

/-- The next sequence number towards a node (R372). -/
def HubSt.seqTo (h : HubSt) (node : Half) : W32 := ((h.seqs.find? fun x => x.1 == node).map Prod.snd).getD 0

/-- The number advanced by `n` (R372). -/
def HubSt.bumpSeq (h : HubSt) (node : Half) (n : Nat) : HubSt :=
  { h with seqs := (node, h.seqTo node + BitVec.ofNat 32 n) :: h.seqs.filter fun x => x.1 != node }

/-- The outbound log of a tile with one more packet (R364). -/
def TileSt.logged (t : TileSt) (node : Half) (seq : W32) : TileSt :=
  if t.nodes.any fun x => x.1 == node then
    { t with nodes := t.nodes.map fun x => if x.1 = node then (x.1, x.2.1, seq) else x }
  else if t.nodes.length < 64 then { t with nodes := t.nodes ++ [(node, seq, seq)] }
  else { t with overflow := true }

/-- The data bytes a request touches at its target, for matching. -/
def awaitOf (s : State) (p : Packet) (node : Half) (addr : BitVec 46) (who : Requester) : Await :=
  { id := s.nextId, node, kind := p.kind, addr, sent := hubNow s, who }

/-- A request packet leaves the hub (R372): it takes the next number of its destination, it is entered in the
outbound log of the core's tile, and it awaits its response unless it is a POST. -/
def sendActs (s : State) (core : Option (Fin 256)) (p : Packet) (who : Requester) : List Act :=
  let seq := s.hub.seqTo p.dst
  let q : Packet :=
    { p with src := s.hub.node, seq, len := BitVec.ofNat 13 p.data.length
             master := if p.master = 0 then s.hub.node else p.master }
  let q : Packet := if p.kind = 1 then { q with len := p.len } else q
  [.ids 1, .hub fun h =>
    { h.bumpSeq p.dst 1 with
      out := h.out ++ [q]
      awaits := h.awaits ++ (if who = .nobody then [] else [awaitOf s p p.dst p.addr who]) }] ++
  (match core with
    | some c => [.tile (tileOf c) fun t => t.logged p.dst seq]
    | none => [])

/-- An MCW leaves the hub: one number, log entry and response for each destination, in the order of its list; its header
carries the first of the numbers (R371, R372, R381; log entry 64). -/
def sendMulti (s : State) (core : Fin 256) (p : Packet) (dests : List (Half × BitVec 46 × Requester)) : List Act :=
  let seq (i : Nat) (node : Half) : W32 := s.hub.seqTo node + BitVec.ofNat 32 ((dests.take i).countP fun d => d.1 == node)
  let q : Packet :=
    { p with src := s.hub.node, kind := 0x0D, len := BitVec.ofNat 13 p.data.length, master := s.hub.node
             seq := (dests.head?.map fun d => seq 0 d.1).getD 0
             arg := BitVec.ofNat 24 (dests.length - 1), list := dests.map fun d => (d.1, d.2.1) }
  [.ids dests.length, .hub fun h => { h with out := h.out ++ [q] }] ++
    (List.range dests.length).flatMap fun i =>
      match dests[i]? with
      | none => []
      | some d =>
        [.hub fun h =>
          { h.bumpSeq d.1 1 with
            awaits := h.awaits ++ [{ id := s.nextId + i, node := d.1, kind := 0x0D, addr := d.2.1,
                                     sent := hubNow s, who := d.2.2 }] },
         .tile (tileOf core) fun t => t.logged d.1 (seq i d.1)]

/-- The ABST that a write of ABSTAIN is on its way to a context's root (R371): its RESULT names the word written. -/
def abstPacket (ctx at_ : BitVec 46) (v : W32) : Packet :=
  { kind := 7, addr := ctx, arg := BitVec.ofNat 24 ((bits v 0 5).toNat * 2 ^ 19 + (bits v 5 16).toNat), list := [(0, at_)] }

/-- A refusal recorded in ACCLOGA and ACCLOGB (R376). -/
def accessLog (p : Packet) (addr : Nat) : List Act :=
  [.hub fun h =>
    { h with
      accA := BitVec.ofNat 64 (2 ^ 63 + min ((bits h.accA 48 15).toNat + 1) 32767 * 2 ^ 48 + addr % 2 ^ 46)
      accB := p.master ++ p.kind ++ 0#42 }]

/-- A response leaves the hub: it carries no number (R372). -/
def respond (s : State) (p : Packet) : List Act :=
  [.hub fun h => { h with out := h.out ++ [{ p with src := s.hub.node, seq := 0, len := BitVec.ofNat 13 p.data.length }] }]

/-- The poison bit of each 32-byte sector of a packet's data, from whether each byte is poisoned (R371). -/
def packetPoison (xs : List Bool) : List Bool :=
  (List.range (ceilDiv xs.length 32)).map fun i => ((xs.drop (32 * i)).take 32).any id

/-- Byte `i` of a packet's data is poisoned. -/
def packetBad (p : Packet) (i : Nat) : Bool := p.poison.getD (i / 32) false

end Sys2Proof.Machine
end

