-- ==== Sys2Proof/Machine/Reduce.lean ====
section
/-! DEFINITION. In-network reduction at the root (R378-R380): arrivals, the fixed tree, epochs, and writes of ABSTAIN. -/

namespace Sys2Proof.Machine

/-- What a RED or an ABST packet brings (R371): n and the address of the contributor's destination stand beside it (log
entry 40). -/
def arrivalOf (p : Packet) : Arrival :=
  { node := p.src, index := fin 31 (bits p.arg 19 5).toNat, epoch := bits p.arg 0 16
    red := if p.kind = 6 then some (bits p.arg 17 2, bitAt p.arg 16) else none
    data := (List.range (p.data.length / 4)).map fun i => BitVec.ofNat 32 (recNat p.data (4 * i) 4)
    addr := (p.list.head?.map Prod.snd).getD 0, bad := false, n := (p.list.head?.map fun x => x.1.toNat).getD 0, plain := false }

/-- A binary32 value as it is delivered: every NaN is the canonical one (R34). -/
def canonical32 (w : W32) : W32 :=
  match FFmt.f32.dec w with
  | .nan _ => nan32
  | _ => w

/-- One element merged by the fixed tree (R380), and whether it was clamped; a NaN that only one contributor brings is
delivered canonical too (R34). -/
def mergeElem (op : BitVec 2) (fp : Bool) (xs : List (Option W32)) : W32 × Bool :=
  let tree (f : W32 → W32 → W32) : W32 :=
    let w := (treeFold f 5 xs).getD 0
    if fp then canonical32 w else w
  if op = 0 then
    if fp then (tree fun a b => (f2 (addV rnd32 .rne) [a, b]).1, false)
    else
      let t := (xs.filterMap (Option.map BitVec.toInt)).foldl (· + ·) 0
      (sat32 t, decide ((sat32 t).toInt ≠ t))
  else if fp then (tree fun a b => (minmax32 (op == 1) a b).1, false)
  else (tree fun a b => if op = 1 then (if a.slt b then b else a) else (if b.slt a then b else a), false)

/-- The membership m of arrivals (R379). -/
def memberBits (xs : List Arrival) : W32 :=
  BitVec.ofNat 32 (((xs.filter fun a => a.red.isSome).map fun a => a.index.val).foldl (fun m i => m ||| 2 ^ i) 0)

/-- The result of an epoch's arrivals: its elements and whether any was clamped (R380). -/
def mergeAll (xs : List Arrival) : List W32 × Bool :=
  match xs.find? fun a => a.red.isSome with
  | none => ([], false)
  | some r =>
    let (op, fp) := r.red.getD (0, false)
    let at_ (e i : Nat) : Option W32 := (xs.find? fun a => a.red.isSome && a.index.val == i).bind fun a => a.data[e]?
    let es := (List.range r.data.length).map fun e => mergeElem op fp ((List.range 32).map (at_ e))
    (es.map Prod.fst, es.any Prod.snd)

/-- A RESULT (R380), addressed to the contributor's destination: m, TMO, SAT and the code travel beside the data (log
entry 40); a write of ABSTAIN names no destination, and is answered without data. -/
def resultPacket (a : Arrival) (m : W32) (tmo sat : Bool) (code : BitVec 4) (data : List W32) : Packet :=
  { addr := a.addr, dst := a.node, kind := 8, arg := BitVec.ofNat 24 (a.index.val * 2 ^ 19)
    list := [(bits m 0 16, (bits m 16 16 ++ bit tmo ++ bit sat ++ code : BitVec 22).setWidth 46)]
    data := if a.plain then [] else data.flatMap fun x => leBytes 4 x.toNat }

/-- A RESULT is sent to an arrival's node, this one among them; while NODE is not assigned no packet is sent (R370). -/
def sendResult (s : State) (a : Arrival) (m : W32) (tmo sat : Bool) (code : BitVec 4) (data : List W32) : List Act :=
  if s.hub.node = 0 then [] else sendActs s none (resultPacket a m tmo sat code data) .nobody

/-- RESULTs sent one after another. -/
def sendResults (s : State) (m : W32) (tmo sat : Bool) (code : BitVec 4) (data : List W32) : List Arrival → List Act
  | [] => []
  | a :: as =>
    let acts := sendResult s a m tmo sat code data
    acts ++ sendResults (applyActs s acts) m tmo sat code data as

/-- The epoch that is open at a context. -/
def epochAt (s : State) (ctx : BitVec 46) : Option Epoch := s.hub.epochs.find? fun e => e.ctx == ctx

/-- An update of an open epoch. -/
def epochAct (ctx : BitVec 46) (f : Epoch → Epoch) : Act :=
  .hub fun h => { h with epochs := h.epochs.map fun e => if e.ctx = ctx then f e else e }

/-- An arrival joins an open epoch (R379): a RED that differs from the first counts as an abstention and ends
REMOTE. -/
def joinEpoch (s : State) (e : Epoch) (a : Arrival) : List Act :=
  let first := e.arrivals.find? fun o => o.red.isSome
  let differs := match first with
    | some o => a.red.isSome && (a.red != o.red || a.data.length != o.data.length)
    | none => false
  if e.arrivals.any fun o => o.index == a.index then sendResult s a 0 true false codePartial []
  else
    let b : Arrival := if differs then { a with red := none, data := [], bad := true } else a
    epochAct e.ctx (fun e => { e with arrivals := e.arrivals ++ [b], n := max e.n a.n }) ::
      (if differs then sendResult s a 0 false false codeRemote [] else [])

/-- An arrival at the root at a time (R379): it opens or joins the epoch after the latest closed one, is held for the next, or
is too late or too early to be merged. -/
def enter (s : State) (ctx : BitVec 46) (at_ : Nat) (a : Arrival) : List Act :=
  let closed : Half := BitVec.ofNat 16 (memNat s.mem ctx.toNat 4)
  match epochAt s ctx with
  | none =>
    touchBytes s ctx.toNat 4 ++
    if a.epoch = closed + 1 then
      [.hub fun h => { h with epochs := h.epochs ++
        [{ ctx, epoch := a.epoch, n := a.n, since := at_, arrivals := [a], held := [] }] }]
    else sendResult s a 0 true false codePartial []
  | some e =>
    if a.epoch = e.epoch then joinEpoch s e a
    else if a.epoch = e.epoch + 1 then [epochAct ctx fun e => { e with held := e.held ++ [a] }]
    else sendResult s a 0 true false codePartial []

/-- Every index below n has arrived (R379). -/
def Epoch.complete (e : Epoch) : Bool :=
  e.n != 0 && (List.range e.n).all fun i => e.arrivals.any fun a => a.index.val == i

/-- An epoch closes (R379, R380): EPOCH is written and RESULT sent to every contributor and every abstainer. -/
def closeEpoch (s : State) (e : Epoch) (tmo : Bool) : List Act :=
  let m := memberBits e.arrivals
  let (data, sat) := mergeAll e.arrivals
  let whole := e.n != 0 && (List.range e.n).all fun i => bitAt m i
  let acts := writeActs e.ctx.toNat (leBytes 4 e.epoch.toNat) ++ touchBytes s e.ctx.toNat 4 ++
    [.hub fun h => { h with epochs := h.epochs.filter fun o => o.ctx != e.ctx }]
  acts ++ sendResults (applyActs s acts) m tmo sat (if whole then codeOk else codePartial) data
    (e.arrivals.filter fun a => !a.bad)

/-- Arrivals, with their times, handled one after another. -/
def enterAll (s : State) (ctx : BitVec 46) : List (Nat × Arrival) → List Act
  | [] => []
  | a :: as =>
    let acts := enter s ctx a.1 a.2
    acts ++ enterAll (applyActs s acts) ctx as

/-- The open epoch of a context closes if it is complete, or if `tmo` says so; the arrivals held for the next one are
handled then, and may complete it. -/
def settle (ctx : BitVec 46) : Nat → Bool → State → List Act
  | 0, _, _ => []
  | fuel + 1, tmo, s =>
    match epochAt s ctx with
    | none => []
    | some e =>
      if !tmo && !e.complete then []
      else
        let acts := closeEpoch s e tmo
        let more := enterAll (applyActs s acts) ctx (e.held.map fun a => (hubNow s, a))
        acts ++ more ++ settle ctx fuel false (applyActs s (acts ++ more))

/-- REDUCTION_DEADLINE (R379): REDDL has elapsed since the first arrival of the epoch open at a context. -/
def reductionDeadline (s : State) (ctx : BitVec 46) : List Act :=
  match epochAt s ctx with
  | none => []
  | some e => if s.hub.reddl = 0 ∨ hubNow s < e.since + s.hub.reddl.toNat then [] else settle ctx 2 true s

/-- A hub learns of a context: one that an arrival names at its root, or that a contribution of this device names (R378). -/
def knowContext (node : Half) (ctx : BitVec 46) : Act :=
  .hub fun h => if h.contexts.contains (node, ctx) then h else { h with contexts := h.contexts ++ [(node, ctx)] }

/-- The writes of ABSTAIN that came before their context was known count as the arrivals they were (R378, R379). -/
def enterUnsure (s : State) (ctx : BitVec 46) : List Act :=
  let was := (s.hub.unsure.filter fun x => x.1 == ctx).map Prod.snd
  if was.isEmpty then []
  else
    let drop : Act := .hub fun h => { h with unsure := h.unsure.filter fun x => x.1 != ctx }
    drop :: enterAll (applyActs s [drop]) ctx was

/-- An arrival is handled, after those that came before and the deadline of the epoch that is open, and the epoch it completes
closes (R379). -/
def arrive (s : State) (ctx : BitVec 46) (a : Arrival) : List Act :=
  let before := knowContext s.hub.node ctx :: enterUnsure s ctx
  let s0 := applyActs s before
  let late := reductionDeadline s0 ctx
  let s1 := applyActs s0 late
  let acts := enter s1 ctx (hubNow s1) a
  before ++ late ++ acts ++ settle ctx 2 false (applyActs s1 acts)

/-- A value of the form that abstains (R378). -/
def abstainForm (v : W32) : Bool := bits v 21 11 == 0x400#11

/-- The context that a write of four bytes at an address abstains from, where it is the ABSTAIN word of a context that the
hub knows of on a node (R378; log entry 88). -/
def abstainsFrom (s : State) (node : Half) (a : Nat) (v : W32) : Option (BitVec 46) :=
  let ctx : BitVec 46 := BitVec.ofNat 46 (a - 4)
  if a % 64 = 4 ∧ abstainForm v ∧ s.hub.contexts.contains (node, ctx) then some ctx else none

/-- The arrival that a write of ABSTAIN by a node makes (R378). -/
def abstention (node : Half) (ctx : BitVec 46) (v : W32) : Arrival :=
  { node, index := fin 31 (bits v 0 5).toNat, epoch := bits v 5 16, red := none, data := [], addr := ctx + 4, bad := false, n := 0
    plain := true }

/-- The words that a write of bytes gives to places where a context may have its ABSTAIN word, where they have the form that
abstains, with those contexts. -/
def abstainLike (data : List (Nat × Byte)) : List (BitVec 46 × W32) :=
  data.filterMap fun d =>
    let byte (i : Nat) : Option Byte := (data.find? fun x => x.1 == d.1 + i).map Prod.snd
    if d.1 % 64 ≠ 4 then none
    else match byte 1, byte 2, byte 3 with
      | some b1, some b2, some b3 =>
        let v : W32 := b3 ++ b2 ++ b1 ++ d.2
        if abstainForm v then some (BitVec.ofNat 46 (d.1 - 4), v) else none
      | _, _, _ => none

/-- This device's hub knows of a context. -/
def State.knows (s : State) (ctx : BitVec 46) : Bool := s.hub.contexts.contains (s.hub.node, ctx)

/-- The words that a write of bytes would give the ABSTAIN words of this device's contexts, with their contexts. -/
def abstainWords (s : State) (data : List (Nat × Byte)) : List (BitVec 46 × W32) := (abstainLike data).filter fun x => s.knows x.1

/-- The packet that a write of ABSTAIN would be, of a master: what a refusal of it records (R376). -/
def abstainPacket (master : Half) (ctx : BitVec 46) : Packet := { addr := ctx + 4, master, kind := 2 }

/-- The abstentions of writes of ABSTAIN by a node, one after another; each is checked with AT as every arrival is (R379). -/
def abstainAll (node master : Half) : List (BitVec 46 × W32) → State → List Act
  | [], _ => []
  | (ctx, v) :: xs, s =>
    let acts := if granted s master .at ctx.toNat 64 then arrive s ctx (abstention node ctx v)
      else accessLog (abstainPacket master ctx) (ctx.toNat + 4)
    acts ++ abstainAll node master xs (applyActs s acts)

/-- Writes of the form of ABSTAIN by a node where no context is known yet are noted: they count as arrivals once it is known (R378;
log entry 88). -/
def abstainNoted (s : State) (node master : Half) (xs : List (BitVec 46 × W32)) : List Act :=
  let new := xs.filter fun x => !(s.knows x.1) && granted s master .at x.1.toNat 64
  if new.isEmpty then []
  else [.hub fun h => { h with unsure := h.unsure ++ new.map fun x => (x.1, hubNow s, abstention node x.1 x.2) }]

end Sys2Proof.Machine
end

