-- ==== Sys2Proof/Machine/Engine.lean ====
section
/-! DEFINITION. What every engine instruction shares: where units lie (R179), the engine port and declared
buffers (R142, R155, R156), reading and writing with poison (R184, R361), requests to pseudo-channels (R286,
R299), the order of jobs (R198, R243, R256), and completion (R176, R201, R202, R241). -/

namespace Sys2Proof.Machine

/-! ### Where units lie -/

/-- The numbers from `lo` below `hi`. -/
def upTo (lo hi : Nat) : List Nat := (List.range (hi - lo)).map (lo + ·)

/-- A run of bytes on this node or on another. -/
inductive Spot | here (pa len : Nat) | away (node : Half) (pa len : Nat)
  deriving DecidableEq, Repr

/-- The block layout of R287 may be used for a view-0 access. -/
def blockShape (d : Desc) : Bool :=
  let p := dStride d 1 * (if (dFmt d).isNi then 1 else (dFmt d).unit)
  dDim d 2 == 1 && dDim d 3 == 1 && dBase d % 4096 == 0 && decide (0 < p) && p % 64 == 0

/-- A unit of a space-1 operand lies on pages with VIEWS, as its first page under R178 says (R287). -/
def onBlocks (d : Desc) (tr : List Trans) (u : Ix) : Bool :=
  let a := unitAddr d false u
  dView d != 0 || (decide (0 ≤ a) && match held tr a.toNat with | some t => t.vw | none => false)

/-- The device addresses, with translations held, of a part of a unit. -/
def spot1 (tr : List Trans) (vw : Bool) (x : Int × Nat) : Except (BitVec 4) Spot :=
  if x.1 < 0 then .error codeAccess else
  match held tr x.1.toNat with
  | none => .error codeAccess
  | some t =>
    if vw && !t.vw then .error codeDescr
    else .ok (.here (t.pa * 4096 + x.1.toNat % 4096) x.2)

/-- A stone's SRAM is there: its die is not in C3 or D3 (R390). -/
def stonePowered (s : State) (x : Fin 64) : Bool := !(s.dies[fin 3 (x.val / 16)]).poweredDown

/-- A bank is there: its quadrant is not gated with its die in C3 or D3 (R390; log entry 89). -/
def bankPowered (s : State) (b : Fin 4096) : Bool :=
  !((s.hub.pwr == 3 || s.hub.pwr == 4) && (s.dies[fin 3 (b.val / 1024)]).poweredDown)

/-- Every bank and stone among spots is there (R390). -/
def spotsPowered (s : State) (xs : List Spot) : Bool :=
  xs.all fun x => match x with
    | .here pa _ => match placeOf pa with
      | .bank b _ => bankPowered s b
      | .stone y _ => stonePowered s y
      | _ => true
    | .away _ _ _ => true

/-- Where a unit's bytes lie, or those of its 64-byte part `q` (R179), or the code its piece ends with; one whose fabric address
leaves its node's range ends with REMOTE (log entry 96). -/
def spotsOf (s : State) (o : Opnd) (cols : Bool) (tr : List Trans) (u : Ix) (q : Option Nat := none) :
    Except (BitVec 4) (List Spot) :=
  let d := o.d
  match dSpace d with
  | 0 =>
    (quarterOf q (unitSegs d cols false u)).mapM fun (x : Int × Nat) =>
      let a := x.1.toNat
      match o.banks.find? fun b => b.1.toNat == a / 65536 with
      | none => .error codeAccess
      | some b => if bankPowered s b.2 then .ok (.here (bankPa b.2 (a % 65536)) x.2) else .error codeAccess
  | 1 =>
    let vw := onBlocks d tr u
    if vw && dView d == 0 && !blockShape d then .error codeDescr
    else (quarterOf q (unitSegs d cols vw u)).mapM (spot1 tr vw)
  | 2 =>
    (quarterOf q (unitSegs d cols false u)).mapM fun (x : Int × Nat) =>
      if x.1 < 0 then .error codeAccess else
      match placeOf (Config.stoneBase + x.1.toNat) with
      | .stone y _ => if stonePowered s y then .ok (.here (Config.stoneBase + x.1.toNat) x.2) else .error codeAccess
      | _ => .error codeAccess
  | _ =>
    (quarterOf q (unitSegs d cols false u)).mapM fun (x : Int × Nat) =>
      let node := BitVec.ofNat 16 (dBase d / 2 ^ 48)
      let a := x.1 - (dBase d / 2 ^ 48 * 2 ^ 48 : Nat)
      if a < 0 ∨ 2 ^ 46 ≤ a then .error codeRemote else .ok (.away node a.toNat x.2)

/-- The units of an operand are still where they were when their piece started: no bank or stone of them has lost its power
since (R390). -/
def unitsThere (s : State) (o : Opnd) (tr : List Trans) (us : List Ix) (q : Option Nat := none) : Bool :=
  us.all fun u => (spotsOf s o false tr u q).isOk

/-- The addresses of a unit, or of its part `q`, that need a translation: the pages of its parts, under the given
layout; an address below 0 has none (R178). -/
def unitVas (d : Desc) (block : Bool) (u : Ix) (q : Option Nat := none) : List Nat :=
  if dSpace d = 1 then
    (quarterOf q (unitSegs d false block u)).flatMap fun x =>
      let a := x.1.toNat
      if x.1 < 0 then [] else if a / 4096 = (a + x.2 - 1) / 4096 then [a] else [a, (a / 4096 + 1) * 4096]
  else []

/-- Pages to translate, each once, in the order of first use; a page that is written at all is walked as a write
(R186). -/
def distinctPages (xs : List (Nat × Bool)) : List (Nat × Bool) :=
  xs.foldl (fun acc x =>
    if acc.any fun y => y.1 / 4096 == x.1 / 4096 then
      acc.map fun y => if y.1 / 4096 = x.1 / 4096 then (y.1, y.2 || x.2) else y
    else acc ++ [x]) []

/-- The translations of an instruction's units, or of their parts `q`: first the pages of R178's addresses, then, for
view-0 units on VIEWS pages, those of the block layout (R187, R287). -/
def translateUnits (s : State) (c : Fin 256) (part : Fin 16) (us : List (Opnd × Bool × Ix)) (q : Option Nat := none) :
    PagesRes × List Act :=
  let first := distinctPages (us.flatMap fun x => (unitVas x.1.d false x.2.2).map fun a => (a, x.2.1))
  match translatePages s c part first with
  | (.ok tr, acts) =>
    let more := distinctPages ((us.filter fun x => dSpace x.1.d == 1 && dView x.1.d == 0 && onBlocks x.1.d tr x.2.2).flatMap
      fun x => (unitVas x.1.d true x.2.2 q).map fun a => (a, x.2.1))
    let more := more.filter fun x => (held tr x.1).isNone || (x.2 && !(first.any fun y => y.2 && y.1 / 4096 == x.1 / 4096))
    match translatePages (applyActs s acts) c part more with
    | (.ok tr2, acts2) => (.ok (tr ++ tr2), acts ++ acts2)
    | (r, acts2) => (r, acts ++ acts2)
  | r => r

/-! ### The engine port -/

/-- An engine access begins at a bank: the state and the buffer number allow it (R155). -/
def BankSt.engBegin (b : BankSt) (write : Bool) (buf : Byte) : Option BankSt :=
  let num := buf == 0 || buf == b.buf
  let on (st : BufState) : BankSt :=
    { b with st, writes := b.writes + write.toNat, reads := b.reads + (!write).toNat }
  match b.st, write with
  | .opened, _ => some (on .opened)
  | .empty, true => if num then some (on .filling) else none
  | .filling, true => if num then some (on .filling) else none
  | .full, false => if num then some (on .draining) else none
  | .draining, false => if num then some (on .draining) else none
  | _, _ => none

/-- An engine access ends at a bank (R155). -/
def BankSt.engEnd (b : BankSt) (write : Bool) : BankSt :=
  let w := b.writes - write.toNat
  let r := b.reads - (!write).toNat
  let st := match b.st with
    | .filling => if write && w == 0 then .full else .filling
    | .draining => if !write && r == 0 then .empty else .draining
    | x => x
  { b with writes := w, reads := r, st }

/-- The engine accesses of a piece begin, all or none (R156). -/
def beginBanks (s : State) : List (Fin 4096 × Bool × Byte) → Option (List Act)
  | [] => some []
  | (b, w, buf) :: xs =>
    match (s.banks[b]).engBegin w buf with
    | none => none
    | some y =>
      let a : Act := .bank b fun _ => y
      (beginBanks (a.apply s) xs).map (a :: ·)

/-- The engine accesses of a piece end; a completed write sets the bank's timestamp (R155, R158, R177). -/
def endBanks (bs : List (Fin 4096 × Bool)) (ts : W64) (wrote : Bool) : List Act :=
  bs.map fun x => .bank x.1 fun b =>
    let b := b.engEnd x.2
    if x.2 && wrote then { b with ts } else b

/-- The banks among spots, each once. -/
def banksOf (xs : List Spot) : List (Fin 4096) :=
  xs.foldl (fun acc x => match x with
    | .here pa _ => match placeOf pa with
      | .bank b _ => if acc.contains b then acc else acc ++ [b]
      | _ => acc
    | _ => acc) []

/-- The banks of accesses that begin and end in one step advance their states (R155); each element of a stream is one such
access (log entry 102). -/
def passBanks (xs : List Nat) (write : Bool) (buf : Byte) (ts : W64) : List Act :=
  (banksOf (xs.map fun a => .here a 1)).map fun k => .bank k fun b =>
    match b.engBegin write buf with
    | some y => let y := y.engEnd write; if write then { y with ts } else y
    | none => b

/-- The job and piece that a stone is executing (R228). -/
def State.executing (s : State) (x : Fin 64) : Option (Nat × Nat) :=
  let y := s.stones[x]
  if y.running then y.jobs.head? else none

/-- What the stones among spots are executing: an access to an executing stone is held until its job completes (R19,
R179). -/
def stonesBusy (s : State) (xs : List Spot) : List (Nat × Nat) :=
  xs.foldl (fun acc x => match x with
    | .here pa _ => match placeOf pa with
      | .stone y _ => match s.executing y with
        | some j => if acc.contains j then acc else acc ++ [j]
        | none => acc
      | _ => acc
    | _ => acc) []

/-! ### Bytes and poison -/

/-- The device addresses of local spots, byte by byte. -/
def spotBytes (xs : List Spot) : List Nat :=
  xs.flatMap fun x => match x with
    | .here pa n => (List.range n).map fun i => pa + i
    | .away _ _ _ => []

/-- The bytes of local spots. -/
def readSpots (m : List Host.Cell) (xs : List Spot) : List Byte := (spotBytes xs).map (memGet m)

/-- A byte lies in a poisoned sector (R361). -/
def poisonedAt (s : State) (pa : Nat) : Bool := s.poisoned.contains (pa / 32)

/-- The lowest poisoned sector among addresses, as the address of its first byte. -/
def lowestPoison (s : State) (xs : List Nat) : Option Nat :=
  (xs.filter (poisonedAt s)).foldl (fun m a => match m with
    | none => some (a / 32 * 32)
    | some b => some (min b (a / 32 * 32))) none

/-- Block `b` of `n` bytes is covered whole by addresses. -/
def coveredWhole (n b : Nat) (xs : List Nat) : Bool := (List.range n).all fun i => xs.contains (b * n + i)

/-- The monitors, of cores and of parks, that an engine write to a word of a bank triggers (R258, R323). -/
def engineHits (s : State) (w : Nat) : List Act :=
  match placeOf (4 * w) with
  | .bank b off =>
    ((List.range 16).map fun i => fin 255 (b.val / 256 * 16 + i)).filterMap (fun c =>
        if (s.cores[c]).cont.mon.isSome then
          some (.cont c fun k => { k with mon := k.mon.map fun m => m.hit b off 4 }) else none) ++
      (if (s.quads[fin 15 (b.val / 256)]).parks.isEmpty then [] else parkActs b off 4)
  | _ => []

/-- An engine write of bytes at device addresses: full/empty bits of words covered whole are set (R150), sectors
covered whole lose their poison (R224, R361), monitors are triggered, and `bad` sectors are written poisoned
(R184). A word written to the ABSTAIN word of a reduction context abstains (R378); `from_` is the node that writes and the
identity it presents. -/
def engineWrite (s : State) (data : List (Nat × Byte)) (bad : List Nat) 
    (from_ : Half × Half := (s.hub.node, s.hub.node)) : List Act :=
  let noted := abstainNoted s from_.1 from_.2 (abstainLike data)
  let out := abstainWords s data
  let data := if out.isEmpty then data else
    data.filter fun d => !(out.any fun x => decide (x.1.toNat + 4 ≤ d.1) && decide (d.1 < x.1.toNat + 8))
  let at_ := data.map Prod.fst
  let words := (blocksOf 4 at_).filter fun w => match placeOf (4 * w) with | .bank _ _ => true | _ => false
  data.map (fun x => Act.byte x.1 x.2) ++
    ((words.filter fun w => coveredWhole 4 w at_).map fun w => Act.empty w false) ++
    (((blocksOf 32 at_).filter fun n => s.poisoned.contains n && coveredWhole 32 n at_).map fun n => Act.sector n false) ++
    words.flatMap (engineHits s) ++ bad.map (fun n => Act.sector n true) ++
    abstainAll from_.1 from_.2 out s ++ noted

/-! ### Requests to pseudo-channels (R286) -/

/-- The requests of a piece through a view join the queues of its pseudo-channels (R286, R296). -/
def requestActs (owner : Nat × Nat) (view : Nat) (xs : List Nat) : List Act :=
  (rowsOf xs).map fun x => .home x.1 fun h => let h := h.interrupt
    { h with reqs := h.reqs ++ [{ owner, view, bank := x.2.1, row := x.2.2.1, sectors := x.2.2.2, served := false }] }

/-- A piece has requests at the pseudo-channels of addresses. -/
def requested (s : State) (owner : Nat × Nat) (xs : List Nat) : Bool :=
  (rowsOf xs).all fun x => (s.homes[x.1]).reqs.any fun r => r.owner == owner

/-- The view-conflict table holds a piece: an access to one of its blocks through another view has arrived earlier and
has not performed (R288). -/
def viewHeld (s : State) (owner : Nat × Nat) (xs : List Nat) : Bool :=
  (rowsOf xs).any fun x =>
    let reqs := (s.homes[x.1]).reqs
    let here (r : MemReq) : Bool := r.bank == x.2.1 && r.row == x.2.2.1
    let mine := reqs.filter fun r => r.owner == owner && here r
    (reqs.takeWhile fun r => !(r.owner == owner && here r)).any fun r => here r && mine.any fun m => m.view != r.view

/-- No earlier access through another view to a block among addresses has yet to perform: one through `view`, made now, may
(R288). -/
def viewFree (s : State) (view : Nat) (xs : List Nat) : Bool :=
  (rowsOf xs).all fun x => !((s.homes[x.1]).reqs.any fun r => r.bank == x.2.1 && r.row == x.2.2.1 && r.view != view)

/-- A piece's requests have all been served. -/
def requestsServed (s : State) (owner : Nat × Nat) (xs : List Nat) : Bool :=
  (rowsOf xs).all fun x => (s.homes[x.1]).reqs.all fun r => r.owner != owner || r.served

/-- A piece's requests leave the queues. -/
def dropRequests (owner : Nat × Nat) (xs : List Nat) : List Act :=
  (rowsOf xs).map fun x => .home x.1 fun h => { h with reqs := h.reqs.filter fun r => r.owner != owner }

/-! ### Jobs -/

/-- The job of a number. -/
def State.job (s : State) (id : Nat) : Option Job := s.jobs.find? fun j => j.id == id

/-- An update of a job. -/
def Act.job (id : Nat) (f : Job → Job) : Act := .jobs fun js => js.map fun j => if j.id = id then f j else j

/-- An update of a piece of a job. -/
def Act.piece (id ix : Nat) (f : Piece → Piece) : Act :=
  .job id fun j => { j with pieces := j.pieces.modify ix f }

/-- A piece has ended. -/
def Piece.code? (p : Piece) : Option (BitVec 4) :=
  match p.st with
  | .ended x => some x
  | _ => none

/-- Every piece of a prepared job has ended. -/
def Job.over (j : Job) : Bool := j.prepared && j.pieces.all fun p => p.code?.isSome

/-- The instructions a job must follow have completed, and the accesses it must follow have performed (R198,
R199, R243, R256). -/
def Job.ready (j : Job) (s : State) : Bool :=
  !(s.jobs.any fun o => j.after.contains o.id) && !(s.outstanding j.core j.needs)

/-- The piece waits for no job of a stone that was executing when it started (R19, R179). -/
def Piece.clear (p : Piece) (s : State) : Bool :=
  p.behind.all fun b => match s.job b.1 with
    | none => true
    | some j => ((j.pieces[b.2]?).map fun q => q.st == .started) != some true

/-- A piece not yet started. -/
def Piece.fresh (pairs : List (Ix × Ix)) (row : Nat) (fixed : Option (BitVec 4)) : Piece :=
  { pairs, row, fixed, st := .waiting, tr := [], opened := [], awaiting := [], got := [], lost := []
    sent := false, exec := .quern 0, dhome := 0, first := 0, kLo := 0, kHi := 0, last := true, acc := [], sums := []
    quarter := none, part := none, done := [], behind := [], sat := false }

/-- The operands a job's accesses reach. -/
def Job.ops (j : Job) : List Opnd :=
  (match j.work with | .tile .fill | .place .fill => [j.dst] | _ => [j.dst, j.a, j.b, j.c]) ++ j.sa.toList ++ j.sb.toList ++
    j.metaOp.toList ++ (match j.work with | .mcast ds => ds | _ => [])

/-- The accesses of a core that a new engine instruction must follow: those in its classes, those that share a
scratchpad word with its operands (R199, R243), and those that the core has acquired, which its completion covers (R278). -/
def followedAccs (s : State) (x : CoreSt) (cls : Half) (ops : List Opnd) (padm : W64) : List Nat :=
  let words : List (Fin 4096 × Nat × Nat) := (ops.filter fun o => dSpace o.d == 0).flatMap fun o =>
    (unitsOf padm o.d).filterMap fun u =>
      match spotsOf s o false [] u with
      | .ok [.here pa n] => match placeOf pa with
        | .bank b off => some (b, off / 4 * 4, (off + n + 3) / 4 * 4)
        | _ => none
      | _ => none
  let touches (b : Fin 4096) (id : Nat) : Bool := (s.banks[b]).q.any fun a =>
    a.id == id && words.any fun w => w.1 == b && decide (w.2.1 < a.off + a.len) && decide (a.off < w.2.2)
  (x.accs.filter fun a => a.covered cls || x.acquired.contains a.id || touches a.bank a.id).map OutAcc.id

/-- The instructions of a continuation that stand before a new one in its queue, and those a `qfence` joins (R198,
R211, R256). -/
def followedJobs (s : State) (cid : Nat) (queue : Fin 8) (fence : List (Fin 8 × Nat)) : List Nat :=
  (s.jobs.filter fun j => j.cid == cid && j.queue == queue &&
      (match j.work with | .place _ => false | _ => true)).map (·.id) ++
    (fence.filter fun f => f.1 == queue).map Prod.snd

/-! ### Completion -/

/-- The lowest-numbered piece that ended in a code other than OK (R202). -/
def Job.failing (j : Job) : Option (Nat × BitVec 4) :=
  ((List.range j.pieces.length).filterMap fun i =>
    (j.pieces[i]?).bind fun p => p.code?.bind fun x => if x = 0 then none else some (i, x)).head?

/-- A saturation occurred: in a reduction, or in a piece that wrote (R202, R242). -/
def Job.clamped (j : Job) : Bool := j.sat || j.pieces.any fun p => p.last && p.sat && p.code? == some codeOk

/-- The status word of a completed instruction (R202, R242). -/
def Job.status (j : Job) : W128 :=
  match j.word with
  | some w => w
  | none =>
    let (ix, x) : Nat × Nat := match j.failing with
      | some (i, x) => (i, x.toNat)
      | none => (0xFFFFFFFF, 0)
    BitVec.ofNat 128 (ix * 2 ^ 96 + (if j.tmo then 2 ^ 81 else 0) + (if j.clamped then 2 ^ 80 else 0) + x * 2 ^ 64 + j.ts.toNat)

/-- A continuation's record of a completion (R201, R204): the TAGS bit, the status word and the error record. -/
def Cont.complete (k : Cont) (tag : Fin 64) (w : W128) (err : Option (Vector W64 4)) : Cont :=
  { k with tags := k.tags ||| (1#64 <<< tag.val), status := vset k.status tag w,
           busy := k.busy &&& ~~~(1#64 <<< tag.val), err := err.getD k.err }

/-- The error record of a completed tile instruction (R241). -/
def Job.record (j : Job) : Option (Vector W64 4) :=
  j.err.map fun r =>
    #v[BitVec.ofNat 64 (r.exec.toNat * 2 ^ 32 + r.srch.toNat * 2 ^ 16 + r.code.toNat * 2 ^ 12 + j.tag.val * 2 ^ 6 + 1),
       r.addr.setWidth 64, BitVec.ofNat 64 r.piece, j.ts]

/-- The job may complete: its pieces have ended, and an `unstrm` waits its turn in its queue (R198, R276). -/
def Job.completes (j : Job) (s : State) : Bool :=
  j.over && (match j.work with | .unstrm _ => j.ready s | _ => true)

/-- TAG_COMPLETION (R201): a job whose pieces have ended completes: TAGS, the status word and, for a tile
instruction, the error record are written, and its flag is posted when FMODE says so (R176). -/
def tagComplete (s : State) (id : Nat) : List Act :=
  match s.job id with
  | none => []
  | some j =>
    if !(j.completes s) then []
    else
      let done (k : Cont) : Cont := k.complete j.tag j.status j.record
      let ok := j.failing.isNone && (match j.word with | some w => bits w 64 4 == 0#4 | none => true)
      contActs s j.core j.cid done ++
        [.jobs fun js => js.filter fun o => o.id != id] ++
        (if s.hub.dbg = 1 then [.report (.tracedTag j.core j.tag)] else []) ++
        (if j.post.mode = 1 ∨ (j.post.mode = 2 ∧ ok) then
          [.ids 8, .releases fun rs => rs ++ [{ id := s.nextId, src := j.core, needs := [], ready := 0, fabric := .unneeded,
                                                deliver := .flag j.post.core j.post.flag 1, engine := true }]]
        else [])

/-- A piece that is cut short leaves every pseudo-channel's queue. -/
def withdrawRequests (s : State) (owner : Nat × Nat) : List Act :=
  (List.finRange 512).filterMap fun h =>
    if (s.homes[h]).reqs.any fun r => r.owner == owner then
      some (.home h fun x => { x with reqs := x.reqs.filter fun r => r.owner != owner }) else none

/-- A piece ends with a code: its banks are released. -/
def pieceEnded (j : Job) (ix : Nat) (p : Piece) (x : BitVec 4) : List Act :=
  endBanks p.opened j.ts (x == codeOk || x == codePoison) ++
    [.piece j.id ix fun p => { p with st := .ended x, opened := [], awaiting := [], got := [] }]

/-- A job's pieces are formed. -/
def formed (j : Job) (ps : List Piece) : Act := .job j.id fun j => { j with prepared := true, pieces := ps }

/-- The job has a single piece, which has ended with a code. -/
def soleEnded (j : Job) (x : BitVec 4) : List Act := [formed j [{ Piece.fresh [] 0 none with st := .ended x }]]

/-- A piece is cut short with a code; that of a `wred` which still reads its index words is its only one (R291). -/
def pieceCut (s : State) (j : Job) (ix : Nat) (p : Piece) (x : BitVec 4) : List Act :=
  withdrawRequests s (j.id, ix) ++ (if j.prepared then pieceEnded j ix p x else endBanks p.opened j.ts false ++ soleEnded j x)

end Sys2Proof.Machine
end

