-- ==== Sys2Proof/Machine/Copy.lean ====
section
/-! DEFINITION. The C slot (R176-R205, R289): what each instruction checks at issue and starts at commit. -/

namespace Sys2Proof.Machine

/-- No flag (R176). -/
def noFlag : FlagTo := ⟨0, 0, 0⟩

/-- An operand that names nothing. -/
def Opnd.none : Opnd := ⟨0, []⟩

/-- The parts of a new job that its instruction fixes. -/
structure NewJob where
  work : Work
  queue : Fin 8
  tag : Fin 64
  cls : Half
  post : FlagTo := noFlag
  dst : Opnd := Opnd.none
  a : Opnd := Opnd.none
  b : Opnd := Opnd.none
  c : Opnd := Opnd.none
  sa : Option Opnd := Option.none
  sb : Option Opnd := Option.none
  metaOp : Option Opnd := Option.none
  scale : W32 := 0
  mod : BitVec 4 := 0
  pa : BitVec 3 := 0
  pb : BitVec 3 := 0
  noRise : Bool := false
  prepared : Bool := false
  pieces : List Piece := []
  queued : Bool := true

/-- An engine instruction starts at commit: it clears its TAGS bit, joins its queue, and follows the earlier
accesses and instructions that R198, R199, R243 and R256 name. -/
def startJob (e : Env) (n : NewJob) : List Act :=
  let padm := e.k.padm
  let start : Job :=
    { id := e.id, core := e.c, cid := e.k.cid, part := e.k.part, work := n.work, queue := n.queue, tag := n.tag
      cls := n.cls, post := n.post, ts := e.k.ts, padm, rise := (bits (e.s.parts[e.k.part]).rise 0 11).toNat
      mod := n.mod, pa := n.pa, pb := n.pb, noRise := n.noRise, dst := n.dst, a := n.a, b := n.b, c := n.c, sa := n.sa
      sb := n.sb, metaOp := n.metaOp, scale := n.scale, needs := []
      after := if n.queued then followedJobs e.s e.k.cid n.queue e.k.fences else []
      prepared := n.prepared, pieces := n.pieces, sat := false, tmo := false, word := Option.none, err := Option.none
      tr := [] }
  let j : Job := { start with needs := if n.queued then followedAccs e.s e.x n.cls start.ops padm else [] }
  [.jobs fun js => js ++ [j],
   .cont e.c fun k => { k with tags := k.tags &&& ~~~(1#64 <<< n.tag.val), busy := k.busy ||| (1#64 <<< n.tag.val) }]

/-- A copy queue among the eight queues of a core. -/
def copyQueue (q : Fin 4) : Fin 8 := fin 7 (4 + q.val)

/-- The class of an instruction as a mask. -/
def classMask (c : BitVec 4) : Half := 1#16 <<< c.toNat

/-- Reason 6: the tag is busy (R181). -/
def tagBad (e : Env) (tag : Fin 64) : List Bad := if tagBusy e.k tag then [(6, tag.val)] else []

/-- A C-slot instruction: the poison of the halves it names, those of value holders last, its DESCR conditions, PRIV and DETACHED of its space-0
operands, then its effect (R393). -/
def copyIssue (e : Env) (regs : List (Fin 32)) (bads : List Bad) (ds : List Desc) (go : Except Trap Out)
    (holders : List (Fin 32) := []) : Except Trap Out :=
  match namedPoison e regs holders with
  | some t => .error t
  | none =>
    match firstBad bads with
    | some b => .error (descrOf b)
    | none =>
      match windowTrap e.k e.k.padm ds with
      | some t => .error t
      | none => go

/-- The four extents of two descriptors are equal. -/
def sameDims (a b : Desc) : Bool := [0, 1, 2, 3].all fun k => dDim a k == dDim b k

/-- Every space. -/
def anySpace : List Nat := [0, 1, 2, 3]

/-- The job of a copy with the common field. -/
def copyJob (e : Env) (o : COps) (w : Work) (dst a b : Option Desc) : NewJob :=
  let op (d : Option Desc) : Opnd := (d.map (resolve e.k e.c e.k.padm)).getD Opnd.none
  { work := w, queue := copyQueue o.queue, tag := o.tag, cls := classMask o.cls, post := o.post
    dst := op dst, a := op a, b := op b }

/-- `cpy` (R182). -/
def effCpy (o : COps) : Eff := fun e =>
  let d := e.k.t[o.dst]
  let a := e.k.t[o.src]
  let p := e.k.padm
  copyIssue e [o.dst, o.src]
    (commonBad p d o.dst true false anySpace ++ commonBad p a o.src true false anySpace ++
      bad (bits d 66 6 != bits a 66 6 || !sameDims d a) 3 o.src ++ tagBad e o.tag) [d, a]
    (.ok { acts := startJob e (copyJob e o .cpy (some d) (some a) none) })

/-- `gath` and `scat` (R182): `rows` is the descriptor whose D1 the index tensor counts. -/
def indexed (w : Work) (gather : Bool) (o : COps) : Eff := fun e =>
  let d := e.k.t[o.dst]
  let a := e.k.t[o.src]
  let x := e.k.t[o.aux]
  let p := e.k.padm
  let rows := if gather then d else a
  copyIssue e [o.dst, o.src, o.aux]
    (commonBad p d o.dst true false anySpace ++ commonBad p a o.src true false anySpace ++
      commonBad p x o.aux false false [0] ++
      bad (bits d 66 6 != bits a 66 6 || !([0, 2, 3].all fun k => dDim d k == dDim a k)) 3 o.src ++
      bad (bits x 66 6 != 0#6 || dDim x 0 != dDim rows 1 || !([1, 2, 3].all fun k => dDim x k == 1)) 3 o.aux ++
      tagBad e o.tag) [d, a, x]
    (.ok { acts := startJob e (copyJob e o w (some d) (some a) (some x)) })

/-- `gath` (R182). -/
def effGath (o : COps) : Eff := indexed .gath true o
/-- `scat` (R182). -/
def effScat (o : COps) : Eff := indexed .scat false o

/-- A descriptor with its base replaced. -/
def withBase (d : Desc) (b : W64) : Desc := setBits d 0 b

/-- The window and device addresses of the bases of an `mcast` list: one of whose words PADM makes padding is not read, and
names no destination (R114; log entry 85). -/
def listSpots (e : Env) (x : Desc) : List (Nat × Nat) :=
  ((List.range (dDim x 0 / 2)).filter fun k => !padUnit e.k.padm x (2 * k, 0, 0, 0) && !padUnit e.k.padm x (2 * k + 1, 0, 0, 0)).map
    fun k =>
      let a := (dBase x + 8 * k) % 2 ^ 24
      (a, bankPa (bankOf e.c (e.k.entry (BitVec.ofNat 8 (a / 65536))).bank) (a % 65536))

/-- `mcast` (R182): the list is read at issue, its causes come before those of the destinations it yields. -/
def effMcast (o : COps) : Eff := fun e =>
  let d := e.k.t[o.dst]
  let a := e.k.t[o.src]
  let x := e.k.t[o.aux]
  let p := e.k.padm
  let n := dDim x 0
  copyIssue e [o.dst, o.src, o.aux]
    (bad (fmtBad d true) 1 o.dst ++ bad (baseBad d) 2 o.dst ++ bad (viewBad d) 4 o.dst ++
      bad (!(fmtBad d true) && alignBad d false) 7 o.dst ++ commonBad p a o.src true false anySpace ++
      commonBad p x o.aux false false [0] ++
      bad (bits d 66 6 != bits a 66 6 || !sameDims d a) 3 o.src ++
      bad (bits x 66 6 != 0#6 || !([1, 2, 3].all fun k => dDim x k == 1)) 3 o.aux ++ bad (dBase x % 8 != 0) 7 o.aux ++
      bad (n % 2 != 0 || decide (32 < n)) 8 o.aux ++ tagBad e o.tag) [x, a]
    (let ls := listSpots e x
     let closed (l : Nat × Nat) : Bool := match placeOf l.2 with
       | .bank b _ => !ownerReads (e.s.banks[b]).st
       | _ => false
     match ls.find? closed with
     | some l => .error (winTrap .bufstate (BitVec.ofNat 24 l.1))
     | none =>
       match ls.find? fun l => (poisonIn e.s.poisoned l.2 8).isSome with
       | some l => .error ⟨.poison, poisonInfo 6 e.slot (BitVec.ofNat 24 (l.1 / 32 * 32))⟩
       | none =>
         let ds := ls.map fun l => withBase d (BitVec.ofNat 64 (memNat e.mem l.2 8))
         match firstBad (ds.flatMap fun y => commonBad p y o.dst true false anySpace) with
         | some b => .error (descrOf b)
         | none =>
           match windowTrap e.k p ds with
           | some t => .error t
           | none =>
             .ok { acts := startJob e (copyJob e o (.mcast (ds.map (resolve e.k e.c p))) (some d) (some a) none) })

/-- The hold of `mcast` (R77, R182): an earlier store of the core to a bank of the list has not performed; nor an earlier
access in its classes or of a word of the list (R273, R274; log entry 83). A window that is not mapped has no bank to wait for. -/
def holdMcast (o : COps) : Hold := fun e =>
  let x := e.k.t[o.aux]
  holdWhile (dSpace x == 0 && (listSpots e x).any fun l => (e.k.entry (BitVec.ofNat 8 (l.1 / 65536))).v && match placeOf l.2 with
    | .bank b off => e.readWaits o.cls b off 8
    | _ => false)

/-- `flume` (R193). -/
def effFlume (o : COps) : Eff := fun e =>
  let d := e.k.t[o.dst]
  let a := e.k.t[o.src]
  let off := dBase d % 2 ^ 23
  copyIssue e [o.dst, o.src]
    (commonBad e.k.padm d o.dst false false [2] ++ bad (baseBad a) 2 o.src ++ bad (!(dFmt d).isNi) 3 o.dst ++
      bad (dSpace a != 1) 5 o.src ++
      bad (dDim d 0 % 256 != 0 || decide (256 < dDim d 1) || dDim d 2 != 1 || dDim d 3 != 1 ||
        decide (0x6000 < off + 256 * (dDim d 0 / 256))) 8 o.dst ++ tagBad e o.tag) []
    (.ok { acts := startJob e (copyJob e o .flume (some d) (some a) none) })

/-- `catom` (R194). -/
def effCatom (o : COps) (op : AtomOp) : Eff := fun e =>
  let d := e.k.t[o.dst]
  let a := e.k.t[o.src]
  let x := e.k.t[o.aux]
  let p := e.k.padm
  copyIssue e [o.dst, o.src, o.aux]
    (commonBad p d o.dst false false [1, 3] ++ commonBad p a o.src false false [0] ++
      commonBad p x o.aux false false [0] ++ bad (bits d 66 6 != 0#6) 3 o.dst ++
      bad (bits a 66 6 != 0#6 || !sameDims a d) 3 o.src ++ bad (bits x 66 6 != 0#6 || !sameDims x d) 3 o.aux ++
      tagBad e o.tag) [a, x]
    (.ok { acts := startJob e (copyJob e o (.catom op) (some d) (some a) (some x)) })

/-- `wsa` (R289, R290): the scale is BASE [31:0] of the value holder. -/
def effWsa (o : COps) : Eff := fun e =>
  let d := e.k.t[o.dst]
  let a := e.k.t[o.src]
  let p := e.k.padm
  let wide (x : Desc) : Bool := decide (128 < dDim x 0)
  let flat (x : Desc) : Bool := dDim x 2 == 1 && dDim x 3 == 1
  copyIssue e [o.dst, o.src]
    (commonBad p d o.dst false false [1] ++ commonBad p a o.src false false [1] ++
      bad (bits d 66 6 != 1#6 || !flat d) 3 o.dst ++ bad (bits a 66 6 != 1#6 || !sameDims d a) 3 o.src ++
      bad (dView d != 0) 4 o.dst ++ bad (dView a != 0) 4 o.src ++ bad (wide d) 8 o.dst ++ bad (wide a) 8 o.src ++
      tagBad e o.tag) []
    (.ok { acts := startJob e { copyJob e o .wsa (some d) (some a) none with scale := bits e.k.t[o.aux] 0 32 } }) [o.aux]

/-- `wred` (R289, R291). -/
def effWred (o : COps) : Eff := fun e =>
  let d := e.k.t[o.dst]
  let a := e.k.t[o.src]
  let x := e.k.t[o.aux]
  let p := e.k.padm
  let flat (x : Desc) : Bool := dDim x 2 == 1 && dDim x 3 == 1
  copyIssue e [o.dst, o.src, o.aux]
    (commonBad p d o.dst false false [0, 1] ++ commonBad p a o.src false false [1] ++
      commonBad p x o.aux false false [0, 1] ++
      bad (bits d 66 6 != 1#6 || !flat d) 3 o.dst ++
      bad (bits a 66 6 != 1#6 || !flat a || dDim a 0 != dDim d 0) 3 o.src ++
      bad (bits x 66 6 != 0#6 || dDim x 1 != 1 || !flat x) 3 o.aux ++
      bad (dView d != 0) 4 o.dst ++ bad (dView a != 0) 4 o.src ++ bad (dView x != 0) 4 o.aux ++
      bad (decide (128 < dDim d 0)) 8 o.dst ++ bad (decide (128 < dDim a 0)) 8 o.src ++ tagBad e o.tag) [d, x]
    (.ok { acts := startJob e (copyJob e o .wred (some d) (some a) (some x)) })

/-- `wstat` (R289, R293). -/
def effWstat (o : COps) : Eff := fun e =>
  let d := e.k.t[o.dst]
  let a := e.k.t[o.src]
  copyIssue e [o.dst, o.src]
    (commonBad e.k.padm d o.dst false false [0] ++ bad (baseBad a) 2 o.src ++ bad (bits d 66 6 != 0#6) 3 o.dst ++
      bad (dView d != 0) 4 o.dst ++ bad (dSpace a != 1) 5 o.src ++ bad (dDim d 0 % 4 != 0) 8 o.dst ++ tagBad e o.tag) [d]
    (.ok { acts := startJob e (copyJob e o .wstat (some d) (some a) none) })

/-- `hot` (R196). -/
def effHot (o : COps) (clr : Bool) : Eff := fun e =>
  let d := e.k.t[o.dst]
  let a := e.k.t[o.src]
  let p := e.k.padm
  copyIssue e [o.dst, o.src]
    (commonBad p d o.dst false false [0] ++ commonBad p a o.src false false [1] ++ bad (bits d 66 6 != 0#6) 3 o.dst ++
      bad (dDim d 0 % 2 != 0) 8 o.dst ++ tagBad e o.tag) [d]
    (.ok { acts := startJob e (copyJob e o (.hot clr) (some d) (some a) none) })

/-- `redf` (R197, R378): the context's fields are read as raw values, FMT not being one of them (log entry 92). -/
def effRedf (o : COps) (op : RedOp) : Eff := fun e =>
  let d := e.k.t[o.dst]
  let a := e.k.t[o.src]
  let x := e.k.t[o.aux]
  let p := e.k.padm
  let n := (bits x 74 16).toNat
  let num (y : Desc) : Bool := bits y 66 6 == 0#6 || bits y 66 6 == 1#6
  copyIssue e [o.dst, o.src, o.aux]
    (commonBad p d o.dst false false [0, 1] ++ commonBad p a o.src false false [0, 1] ++ bad (baseBad x) 2 o.aux ++
      bad (!num d) 3 o.dst ++ bad (!num a || bits d 66 6 != bits a 66 6 || !sameDims d a) 3 o.src ++
      bad (dSpace x != 3) 5 o.aux ++ bad (decide (1024 < elemCount d)) 8 o.dst ++
      bad (dBase x % 64 != 0 || n == 0 || decide (32 < n) || decide (n ≤ (bits x 90 16).toNat)) 8 o.aux ++
      tagBad e o.tag) [d, a]
    (.ok { acts := startJob e (copyJob e o (.redf op) (some d) (some a) (some x)) })

/-! ### Streams -/

/-- The bytes of a stream's element (R161). -/
def streamBytes (w : BitVec 2) : Nat :=
  if w = 0 then 4 else if w = 1 then 8 else if w = 2 then 128 else 256

/-- The number of elements of a pattern (R161). -/
def Binding.total (b : Binding) : Nat := b.counts[0] * b.counts[1] * b.counts[2]

/-- The address of element n (R161). -/
def Binding.addr (b : Binding) (n : Nat) : Int :=
  (b.base.toNat : Int) + (n % b.counts[0] : Nat) * b.strides[0] + (n / b.counts[0] % b.counts[1] : Nat) * b.strides[1] +
    (n / b.counts[0] / b.counts[1] : Nat) * b.strides[2]

/-- The windows a pattern of the core window space reaches, with the lowest byte in each (R162). -/
def Binding.windows (b : Binding) : List (Nat × Nat) :=
  if b.device then [] else
  (List.range b.total).foldl (fun ws n =>
    let a := (b.addr n).toNat
    let z := a + streamBytes b.width - 1
    let ws := windowsOf.addWin ws (a / 65536) a
    if z / 65536 = a / 65536 then ws else windowsOf.addWin ws (z / 65536) (z / 65536 * 65536)) []

/-- The binding resolved through a bank map (R162): windows that are not valid are left out. -/
def Binding.resolved (b : Binding) (k : Cont) (c : Fin 256) : Binding :=
  { b with banks := (b.windows.filter fun w => (k.entry (BitVec.ofNat 8 w.1)).v).map fun w =>
      let x : Byte := BitVec.ofNat 8 w.1; (x, bankOf c (k.entry x).bank) }

/-- The parts of element n of a pattern: a window, an offset in it and a length. -/
def Binding.parts (b : Binding) (n : Nat) : List (Nat × Nat × Nat) :=
  let size := streamBytes b.width
  let lo := (b.addr n).toNat
  let room := 65536 - lo % 65536
  if size ≤ room then [(lo / 65536, lo % 65536, size)]
  else [(lo / 65536, lo % 65536, room), (lo / 65536 + 1, 0, size - room)]

/-- The accesses of a core that a binding's first access must follow: those of its class, those that touch an
element (R199), and those that the core has acquired (R278). -/
def Binding.follows (b : Binding) (s : State) (x : CoreSt) : List Nat :=
  let touches (a : Access) (bank : Fin 4096) : Bool := (List.range b.total).any fun n => (b.parts n).any fun p =>
    (b.banks.any fun w => w.2 == bank && w.1.toNat == p.1) && decide (p.2.1 < a.off + a.len) && decide (a.off < p.2.1 + p.2.2)
  (x.accs.filter fun o => o.covered (classMask b.cls) || x.acquired.contains o.id ||
    (s.banks[o.bank]).q.any fun a => a.id == o.id && touches a o.bank).map OutAcc.id

/-- What the engine instructions and the bindings of a bundle follow, once its own accesses are made: these are earlier
than its engine instructions (R199, R271, R276); `n` instructions were under way before the bundle, and `ids` are the
names it gave. -/
def bundleFollows (s : State) (c : Fin 256) (n : Nat) (ids : List Nat) : List Act :=
  let x := s.cores[c]
  let follow (j : Job) : Job := match j.work with
    | .place _ => j
    | _ => { j with needs := followedAccs s x j.cls j.ops j.padm }
  let joins (d : Nat × Fin 8 × Binding) : Nat × Fin 8 × Binding :=
    if ids.contains d.1 then (d.1, d.2.1, { d.2.2 with needs := d.2.2.needs ++ d.2.2.follows s x }) else d
  .jobs (fun js => js.take n ++ (js.drop n).map follow) ::
  ((List.finRange 8).filterMap fun z => (x.cont.strm[z]).bind fun b =>
    if ids.contains b.id then
      some (.cont c fun k => { k with strm := vset k.strm z (some { b with needs := b.follows s x }) })
    else none) ++
  (if x.cont.drains.any (fun d => ids.contains d.1) then [.cont c fun k => { k with drains := k.drains.map joins }] else [])

/-- `strm` (R195): the binding is formed at commit. -/
def effStrm (t : Fin 32) (z : Fin 8) (out : Bool) (width : BitVec 2) (cls : BitVec 4) (queue : Fin 4) : Eff := fun e =>
  let d := e.k.t[t]
  let size := streamBytes width
  let b : Binding :=
    { id := e.id, out, width, device := dSpace d == 1, view := dView d, bufNo := dBuf d, base := bits d 0 64, counts := #v[dDim d 1, dDim d 2, dDim d 3]
      strides := #v[dStride d 1 * size, dStride d 2 * size, dStride d 3 * size], pos := 0, fetched := 0, buf := []
      banks := [], cls, queue, part := e.k.part, padm := e.k.padm, ts := e.k.ts, failure := none, needs := []
      after := followedJobs e.s e.k.cid (copyQueue queue) e.k.fences }
  let outside : Bool := dSpace d == 0 && (List.range b.total).any fun n =>
    decide (b.addr n < 0) || decide (2 ^ 24 < b.addr n + size)
  match namedPoison e [t] with
  | some x => .error x
  | none =>
    if (e.k.strm[z]).isSome then .error ⟨.stream, BitVec.ofNat 64 (slotIx e.slot)⟩
    else match firstBad (bad (baseBad d || outside) 2 t ++ bad (streamViewBad d) 4 t ++ bad (decide (1 < dSpace d)) 5 t ++
        bad (dBase d % 4 != 0 || (dView d != 0 && dBase d % 4096 != 0)) 7 t) with
    | some x => .error (descrOf x)
    | none =>
      let ws := b.windows
      match (if cPriv e.k.cstat then none else ws.find? fun w => decide (252 ≤ w.1)) with
      | some w => .error (privTrap (BitVec.ofNat 24 w.2))
      | none =>
        match ws.find? fun w => !(e.k.entry (BitVec.ofNat 8 w.1)).v with
        | some w => .error (winTrap .detached (BitVec.ofNat 24 w.2))
        | none =>
          let b := b.resolved e.k e.c
          .ok { acts := [.cont e.c fun k => { k with strm := vset k.strm z (some { b with needs := b.follows e.s e.x }) }] }

/-- A page fault of a binding's element (R195). -/
def Faulting.ofBinding (w : Faulting) (id : Nat) : Bool :=
  match w with
  | .stream _ b => b == id
  | _ => false

/-- The binding that an `unstrm` leaves: its elements are written under the class of the `unstrm`, and after what stands
before it in its queue (R198, R276). -/
def Binding.left (b : Binding) (cls : BitVec 4) (queue : Fin 4) (after : List Nat) : Binding :=
  { b with cls, queue, after := b.after ++ after }

/-- `unstrm` (R195): the stream is unbound at commit, an input binding's suspended fill with it; an output binding's
elements go on being drained. -/
def effUnstrm (z : Fin 8) (tag : Fin 64) (cls : BitVec 4) (queue : Fin 4) (post : FlagTo) : Eff := fun e =>
  match e.k.strm[z] with
  | none => .error ⟨.stream, BitVec.ofNat 64 (slotIx e.slot)⟩
  | some b =>
    if tagBusy e.k tag then .error (descrOf (6, tag.val))
    else
      let p : Piece := { Piece.fresh [] 0 none with st := if b.out then .started else .ended 0 }
      .ok { acts := startJob e { work := .unstrm b, queue := copyQueue queue, tag, cls := classMask cls, post, prepared := true, pieces := [p] } ++
        [.cont e.c fun k =>
          { k with strm := vset k.strm z none,
                   drains := if b.out then
                     k.drains ++ [(e.id, z, ((k.strm[z]).getD b).left cls queue (followedJobs e.s e.k.cid (copyQueue queue) e.k.fences))]
                     else k.drains }] ++
        (if b.out then [] else [.faults fun fs => fs.filter fun f => !f.who.ofBinding b.id]) }

/-! ### Invalidation -/

/-- An invalidation reaches a translation: for a page, those of the whole page that contains its address (R190). -/
def Inval.covers (v : Inval) (part : Fin 16) (page size : Nat) : Bool :=
  match v.kind with
  | .page => part == v.part && page * 4096 / size == v.va / size
  | .part => part == v.part
  | .all => true

/-- A core must still acknowledge an invalidation: a continuation of an affected partition runs on it (R191). -/
def Inval.asks (v : Inval) (x : CoreSt) : Bool :=
  x.phase == .running && !x.cont.stopped && (match v.kind with | .all => true | _ => x.cont.part == v.part)

/-- The pieces of a core that hold a translation an invalidation reaches (R191). -/
def Inval.holders (v : Inval) (s : State) (c : Fin 256) : List (Nat × Nat) :=
  (s.jobs.filter fun j => j.core == c).flatMap fun j =>
    (if j.tr.any fun t => v.covers j.part t.va t.size then
        ((List.range j.pieces.length).filter fun i => ((j.pieces[i]?).map fun p => p.code?.isNone) == some true).map fun i => (j.id, i)
      else []) ++
    ((List.range j.pieces.length).filter fun i => match j.pieces[i]? with
      | some p => (p.st == .started) && p.tr.any fun t => v.covers j.part t.va t.size
      | none => false).map fun i => (j.id, i)

/-- A core acknowledges an invalidation (R191). -/
def ackActs (v : Inval) (c : Fin 256) : List Act :=
  [.invals fun vs => vs.map fun o => if o.id = v.id then { o with waiting := o.waiting.filter (· != c) } else o]

/-- `tlbi` (R190, R191): from its commit on, pieces that start walk the tables; it waits for the cores that run something
of an affected partition, and for the pieces that hold a matching translation. -/
def effTlbi (a : Spec) (kind : TlbiKind) (part : BitVec 4) (tag : Fin 64) : Eff := fun e =>
  if tagBusy e.k tag then .error (descrOf (6, tag.val))
  else
    let v : Inval :=
      { id := e.id, core := e.c, cid := e.k.cid, tag, ts := e.k.ts, kind, part := fin 15 part.toNat
        va := (e.k.scalar a).toNat, start := e.x.clk, waiting := [], pieces := [] }
    let waiting := (List.finRange 256).filter fun c => v.asks e.s.cores[c]
    let pieces := (List.finRange 256).flatMap (v.holders e.s)
    .ok { acts := [.invals fun vs => vs ++ [{ v with waiting, pieces }],
        .cont e.c fun k => { k with tags := k.tags &&& ~~~(1#64 <<< tag.val), busy := k.busy ||| (1#64 <<< tag.val) }] ++
        (List.finRange 4).map fun d => .die d fun x => { x with tlb := x.tlb.filter fun t => !(v.covers t.part t.va t.size) } }

/-- QP_ACKNOWLEDGE (R191): the first commit of a bundle with QP = 1 after a `tlbi` acknowledges it. -/
def qpAcks (s : State) (c : Fin 256) : List Act :=
  (s.invals.filter fun v => v.waiting.contains c).flatMap fun v => ackActs v c

/-- TLBI_COMPLETION (R191): once every core has acknowledged, those with nothing running at once, and every piece it
waits for has ended, the tag completes with OK. -/
def tlbiComplete (s : State) (id : Nat) : List Act :=
  match s.invals.find? fun v => v.id == id with
  | none => []
  | some v =>
    let quiet := v.waiting.filter fun c => !(v.asks s.cores[c])
    if !quiet.isEmpty then quiet.flatMap (ackActs v)
    else
      let open_ := v.pieces.any fun p => match s.job p.1 with
        | none => false
        | some j => ((j.pieces[p.2]?).map fun q => q.code?.isNone) == some true
      if !v.waiting.isEmpty || open_ then []
      else
        let done (k : Cont) : Cont := k.complete v.tag (BitVec.ofNat 128 (0xFFFFFFFF * 2 ^ 96 + v.ts.toNat)) none
        contActs s v.core v.cid done ++ (if s.hub.dbg = 1 then [.report (.tracedTag v.core v.tag)] else []) ++
          [.invals fun vs => vs.filter fun o => o.id != id]

/-- A tile piece has begun to write at its wheel, or has written. -/
def pieceWrote (s : State) (j : Job) (ix : Nat) (p : Piece) : Bool :=
  p.st == .ended codeOk || match p.exec with
    | .wheel h =>
      ((s.homes[h]).jobs.any fun w => w.job == j.id && w.piece == ix && decide ((w.rows.headD (0, 0)).1 < w.pos)) ||
        (p.st == .performed codeOk && p.dhome == stackHome h.val)
    | _ => false

/-- The last link of a tile piece's chain has begun to write: no link of it ends with INVAL any more (R240; log
entry 39). -/
def wheelWriting (s : State) (j : Job) (p : Piece) : Bool :=
  match j.work with
  | .tile _ => (List.range j.pieces.length).any fun i => match j.pieces[i]? with
    | some q => q.first == p.first && q.last && pieceWrote s j i q
    | none => false
  | _ => false

/-- INVAL_WATCHDOG_EXPIRY (R192): the engines acknowledge for the cores that have not, and their matching pieces end
with INVAL. -/
def invalExpire (s : State) (id : Nat) : List Act :=
  match s.invals.find? fun v => v.id == id with
  | none => []
  | some v =>
    if s.clock < v.start + s.hub.inval.toNat then []
    else v.waiting.flatMap fun c =>
      ackActs v c ++ (v.holders s c).flatMap fun h => match s.job h.1 with
        | none => []
        | some j => match j.pieces[h.2]? with
          | none => []
          | some p => if wheelWriting s j p then [] else pieceCut s j h.2 p codeInval ++ [.report (.invalidation c)]

/-- `cnop` (R69). -/
def effCnop : Eff := effNone

end Sys2Proof.Machine
end

