-- ==== Sys2Proof/Machine/Move.lean ====
section
/-! DEFINITION. Copy pieces (R183-R188, R193, R194, R196): how an instruction is cut, what starting a piece does and
what it writes when it ends; stream fills and drains (R161-R165, R195). -/

namespace Sys2Proof.Machine

/-! ### Cutting (R183) -/

/-- The block of a device address that no piece crosses: a granule, a bank, a slice (R183). -/
def blockOf (a : Nat) : Nat × Nat :=
  match placeOf a with
  | .main => (0, a / 4096)
  | .bank b _ => (1, b.val)
  | .stone x off => (2, x.val * 256 + off / 0x6000)
  | _ => (3, a / 4096)

/-- The block in which a unit, or its part `q`, starts, on one side of a copy (R183): its kind, place and number; addresses
outside a space are in blocks of their own (R178). -/
def blockKey (d : Desc) (block : Bool) (q : Option Nat) (u : Ix) : Nat × Nat × Int :=
  let a : Int := ((quarterOf q (unitSegs d false block u)).head?.map Prod.fst).getD 0
  let place (kind : Nat) (base : Nat) (x : Int) : Nat × Nat × Int :=
    if x < 0 then (kind, 5, -1) else let b := blockOf (base + x.toNat); (kind, b.1, b.2)
  match dSpace d with
  | 0 => (0, 0, a / 65536)
  | 1 => (1, 0, a / 4096)
  | 2 => place 2 Config.stoneBase a
  | _ =>
    let x : Int := a - (dBase d / 2 ^ 48 * 2 ^ 48 : Nat)
    if 2 ^ 46 ≤ x then (3, 6, 0) else place 3 0 x

/-- The pages of a view-0 operand that carry VIEWS, as the tables stand when the instruction is cut (R287). -/
def vwPages (s : State) (part : Fin 16) (d : Desc) (us : List Ix) : List Trans :=
  if dSpace d = 1 ∧ dView d = 0 then
    (distinctPages (us.flatMap fun u => (unitVas d false u).map fun a => (a, false))).filterMap fun p =>
      match (walk s part p.1 false).1 with
      | .ok pa _ vw size => if vw then some ⟨p.1 / 4096, pa / 4096, true, size⟩ else none
      | _ => none
  else []

/-- A pair of units, or one 64-byte part of a pair of groups. -/
abbrev Move := Option Nat × Ix × Ix

/-- Moves cut where a boundary is crossed, in order. -/
def cutMoves {κ : Type} [BEq κ] (key : Move → κ) : List Move → List (List Move)
  | [] => []
  | p :: ps =>
    match cutMoves key ps with
    | (q :: qs) :: gs => if key p == key q then (p :: q :: qs) :: gs else [p] :: (q :: qs) :: gs
    | gs => [p] :: gs

/-- Pairs of a copy from one operand to another, cut into pieces; `more` is an operand that goes with the source (R183,
R194). A group that lies in four blocks of VIEWS pages is cut into its parts (R287). -/
def cutCopy (s : State) (part : Fin 16) (src dst : Desc) (more : Option Desc) (row : Nat) (ps : List (Ix × Ix)) : List Piece :=
  let tv := vwPages s part src (ps.map Prod.fst)
  let dv := vwPages s part dst (ps.map Prod.snd)
  let split (p : Ix × Ix) : Bool :=
    ((dFmt src).isNi && dSpace src == 1 && onBlocks src tv p.1) || ((dFmt dst).isNi && dSpace dst == 1 && onBlocks dst dv p.2)
  let moves : List Move := ps.flatMap fun p => if split p then (List.range 4).map fun i => (some i, p) else [(none, p)]
  let key (m : Move) := (m.1, blockKey src (onBlocks src tv m.2.1) m.1 m.2.1, blockKey dst (onBlocks dst dv m.2.2) m.1 m.2.2,
    more.map fun d => blockKey d false m.1 m.2.1)
  (cutMoves key moves).map fun g => { Piece.fresh (g.map Prod.snd) row none with quarter := (g.head?.bind Prod.fst) }

/-- The index word `w` of a tensor read by an engine at a unit of an operand in space 0: its value, or the code its
row ends with (R182). -/
def indexWord (s : State) (o : Opnd) (u : Ix) : Except (BitVec 4) Int :=
  match spotsOf s o false [] u with
  | .error x => .error x
  | .ok xs =>
    if ((banksOf xs).any fun b => ((s.banks[b]).engBegin false (dBuf o.d)).isNone) then .error codeDescr
    else if (lowestPoison s (spotBytes xs)).isSome then .error codePoison
    else .ok (BitVec.ofNat 32 (leNat (readSpots s.mem xs)) : W32).toInt

/-- The index words of a `gath` or `scat` that are read: padding rows have none. -/
def indexReads (s : State) (j : Job) (gather : Bool) : List Nat :=
  ((List.range (dDim (if gather then j.dst.d else j.a.d) 1)).filter fun r => !padUnit j.padm j.b.d (r, 0, 0, 0)).flatMap fun r =>
    match spotsOf s j.b false [] (r, 0, 0, 0) with | .ok xs => spotBytes xs | .error _ => []

/-- The pieces of a `gath` or `scat`, row by row in increasing j (R182, R183); elements that are padding in the other operand
alone are left as they are (R114; log entry 100). -/
def cutRows (s : State) (j : Job) (gather : Bool) : List Piece :=
  let src := j.a.d
  let dst := j.dst.d
  let rows := if gather then dst else src
  let other := if gather then src else dst
  (List.range (dDim rows 1)).flatMap fun r =>
    if padUnit j.padm j.b.d (r, 0, 0, 0) then [] else
    let us := (unitsOf j.padm rows).filter fun u => u.2.1 == r
    if us.isEmpty then [] else
    match indexWord s j.b (r, 0, 0, 0) with
    | .error x => [Piece.fresh [] r (some x)]
    | .ok i =>
      if i < 0 ∨ dDim other 1 ≤ i then [Piece.fresh [] r (some codeDescr)]
      else
        let across (u : Ix) : Ix := (u.1, i.toNat, u.2.2.1, u.2.2.2)
        let ps := (us.filter fun u => !padUnit j.padm other (across u)).map fun u => if gather then (across u, u) else (u, across u)
        if ps.isEmpty then [Piece.fresh [] r none] else cutCopy s j.part src dst none r ps

/-- The rows of a matrix operand that are not padding, with their elements. -/
def rowsIn (padm : W64) (d : Desc) : List (Nat × List Ix) :=
  ((List.range (dDim d 1)).map fun r =>
    (r, ((List.range (units0 d)).map fun i => ((i, r, 0, 0) : Ix)).filter fun u => !padUnit padm d u)).filter
      fun x => !x.2.isEmpty

/-- Pairs of equal indices. -/
def samePairs (us : List Ix) : List (Ix × Ix) := us.map fun u => (u, u)

/-- The pieces an instruction is cut into when its first piece starts (R183); those of `wred` follow from its index
words. -/
def cutJob (s : State) (j : Job) : List Piece :=
  match j.work with
  | .cpy => cutCopy s j.part j.a.d j.dst.d none 0 (samePairs (unitsOf j.padm j.dst.d))
  | .gath => cutRows s j true
  | .scat => cutRows s j false
  | .mcast ds => (List.range ds.length).flatMap fun k =>
      match ds[k]? with
      | some o => cutCopy s j.part j.a.d o.d none k (samePairs (unitsOf j.padm o.d))
      | none => []
  | .flume => (List.range (dDim j.dst.d 1)).filterMap fun n =>
      let us := ((List.range (units0 j.dst.d)).map fun g => ((g, n, 0, 0) : Ix)).filter fun u => !padUnit j.padm j.dst.d u
      if us.isEmpty then none else some (Piece.fresh (samePairs us) n none)
  | .catom _ => cutCopy s j.part j.a.d j.dst.d (some j.b.d) 0 (samePairs (unitsOf j.padm j.dst.d))
  | .wsa => (rowsIn j.padm j.dst.d).map fun r => Piece.fresh (samePairs r.2) r.1 none
  | .redf _ => [Piece.fresh (samePairs (unitsOf j.padm j.dst.d)) 0 none]
  | .hot _ | .wstat => [Piece.fresh (samePairs (unitsOf j.padm j.dst.d)) 0 none]
  | _ => []

/-! ### Starting a piece (R187) -/

/-- What beginning a piece's accesses gives. -/
inductive Begun
  | ok (tr : List Trans) (src dst : List Spot) (opened : List (Fin 4096 × Bool)) (acts : List Act)
  | fails (code : BitVec 4) (acts : List Act)
  | faults (acts : List Act)

/-- The banks a piece's accesses begin at, with the buffer number each names. -/
def bankUses (o : Opnd) (write : Bool) (xs : List Spot) : List (Fin 4096 × Bool × Byte) :=
  (banksOf xs).map fun b => (b, write, dBuf o.d)

/-- A piece translates its pages, resolves its units, or their parts `q`, and begins its engine accesses (R155, R156,
R187, R188). -/
def beginPiece (s : State) (j : Job) (ix : Nat) (cols : Bool) (reads writes : List (Opnd × Ix)) (q : Option Nat := none) :
    Begun :=
  let us := reads.map (fun x => (x.1, false, x.2)) ++ writes.map (fun x => (x.1, true, x.2))
  let (r, acts) := translateUnits s j.core j.part us q
  match r with
  | .absent va w =>
    match raiseFault (applyActs s acts) (.piece j.id ix) j.core j.tag j.part j.ts (BitVec.ofNat 32 ix) va w with
    | some fa => .faults (acts ++ fa)
    | none => .fails codeAccess acts
  | .denied => .fails codeAccess acts
  | .ok tr =>
    match reads.mapM (fun x => spotsOf s x.1 cols tr x.2 q), writes.mapM (fun x => spotsOf s x.1 cols tr x.2 q) with
    | .error x, _ => .fails x acts
    | _, .error x => .fails x acts
    | .ok rs, .ok ws =>
      let uses := (reads.zip rs).flatMap (fun x => bankUses x.1.1 false x.2) ++
        (writes.zip ws).flatMap fun x => bankUses x.1.1 true x.2
      let uses := uses.foldl (fun acc x => if acc.any fun y => y.1 == x.1 && y.2.1 == x.2.1 then acc else acc ++ [x]) []
      match beginBanks s uses with
      | none => .fails codeDescr acts
      | some ba => .ok tr rs.flatten ws.flatten (uses.map fun x => (x.1, x.2.1)) (acts ++ ba)

/-- The runs of remote bytes among spots, at most 4,096 bytes each, with their place in the data stream. -/
def awayRuns (xs : List Spot) : List (Half × Nat × Nat × Nat) :=
  (xs.foldl (fun (acc : List (Half × Nat × Nat × Nat) × Nat) x => match x with
    | .here _ n => (acc.1, acc.2 + n)
    | .away node pa n =>
      match acc.1 with
      | (m, a, k, pos) :: rest =>
        if m = node ∧ a + k = pa ∧ k + n ≤ 4096 then ((m, a, k + n, pos) :: rest, acc.2 + n)
        else ((node, pa, n, acc.2) :: acc.1, acc.2 + n)
      | [] => ([(node, pa, n, acc.2)], acc.2 + n)) ([], 0)).1.reverse

/-- The destination operand of a piece. -/
def Job.target (j : Job) (p : Piece) : Opnd :=
  match j.work with
  | .mcast ds => ds.getD p.row j.dst
  | _ => j.dst

/-- The bits of a pair of units that move: those that are padding on neither side (R114). -/
def Job.moveMask (j : Job) (p : Piece) (x : Ix × Ix) : List Byte :=
  (unitMask j.padm j.a.d x.1 p.quarter).zipWith (· &&& ·) (unitMask j.padm (j.target p).d x.2 p.quarter)

/-- A unit's spots without the bytes of which no bit moves. -/
def cutSpots (ms : List Byte) (xs : List Spot) : List Spot :=
  if ms.all (· == 0xFF) then xs else
  let all := xs.flatMap fun x => match x with
    | .here pa n => (List.range n).map fun i => Spot.here (pa + i) 1
    | .away node pa n => (List.range n).map fun i => Spot.away node (pa + i) 1
  ((all.zip ms).filter fun x => x.2 != 0).map Prod.fst

/-- A piece's source and destination spots under the translations it holds: a copy moves every byte of a group but those of
padding positions (R178; log entry 93). -/
def pieceSpots (s : State) (j : Job) (p : Piece) (cols : Bool) : List Spot × List Spot :=
  let get (o : Opnd) (u : Ix) : List Spot := match spotsOf s o cols p.tr u p.quarter with | .ok xs => xs | .error _ => []
  (p.pairs.flatMap fun x => cutSpots (j.moveMask p x) (get j.a x.1),
   p.pairs.flatMap fun x => cutSpots (j.moveMask p x) (get (j.target p) x.2))

/-- Both sides of a piece are still where they were when it started (R390). -/
def pieceThere (s : State) (j : Job) (p : Piece) : Bool :=
  unitsThere s j.a p.tr (p.pairs.map Prod.fst) p.quarter && unitsThere s (j.target p) p.tr (p.pairs.map Prod.snd) p.quarter

/-- The bits of the bytes of a piece that move, byte by byte. -/
def pieceMask (j : Job) (p : Piece) : List Byte := p.pairs.flatMap fun x => (j.moveMask p x).filter (· != 0)

/-- Bytes are written to device addresses, of each only the bits of its mask, so that no sector of which a bit stays loses its
poison (R114, R361). -/
def maskedWrite (s : State) (data : List (Nat × Byte × Byte)) (bad : List Nat) : List Act :=
  let whole := data.filter fun x => x.2.2 == 0xFF
  let part := data.filter fun x => x.2.2 != 0xFF
  engineWrite s (whole.map fun x => (x.1, x.2.1)) bad ++
    (if part.isEmpty then [] else
      engineWrite s (part.map fun x => (x.1, (x.2.1 &&& x.2.2) ||| (memGet s.mem x.1 &&& ~~~x.2.2))) [])

/-- The local addresses of main memory among spots. -/
def mainBytesOf (xs : List Spot) : List Nat := (spotBytes xs).filter fun a => decide (a < Config.mainBytes)

/-- Nothing of the piece has been divided off. -/
def Piece.whole (p : Piece) : Bool := p.done.isEmpty && p.part.isNone

/-- The bytes of a piece that come next, by their place in it: those of the part that the agenda has named, where it divides
no word on either side (R272), else all that are left. -/
def Piece.next (p : Piece) (from_ dest : List Nat) : List Nat :=
  if p.whole then List.range dest.length else
  let left := (List.range dest.length).filter fun i => !(p.done.contains i)
  match p.part with
  | none => left
  | some (lo, hi) =>
    let now := left.filter fun i => decide (lo ≤ i) && decide (i < hi)
    let later := left.filter fun i => !(decide (lo ≤ i) && decide (i < hi))
    let apart (xs : List Nat) : Bool :=
      let words := blocksOf 4 (now.filterMap fun i => xs[i]?)
      (later.filterMap fun i => xs[i]?).all fun a => !(words.contains (a / 4))
    if !now.isEmpty && apart from_ && apart dest then now else left

/-- The addresses in main memory, on one side of a piece, of the bytes that come next. -/
def Piece.mainAt (p : Piece) (now : List Nat) (xs : List Spot) : List Nat :=
  if p.whole then mainBytesOf xs
  else (now.filterMap fun i => (spotBytes xs)[i]?).filter fun a => decide (a < Config.mainBytes)

/-- The read requests of a piece whose source lies on another node (R371). -/
def readRequests (s : State) (j : Job) (ix : Nat) (runs : List (Half × Nat × Nat × Nat)) : List Act :=
  match runs with
  | [] => []
  | (node, a, n, pos) :: rest =>
    let p : Packet := { ts := j.ts, addr := BitVec.ofNat 46 a, dst := node, kind := 1, len := BitVec.ofNat 13 n }
    let acts := sendActs s (some j.core) p (.piece j.id ix pos) ++
      [.piece j.id ix fun q => { q with awaiting := q.awaiting ++ [s.nextId] }]
    acts ++ readRequests (applyActs s acts) j ix rest

/-- A `cpy`, `gath`, `scat` or `mcast` piece starts (R187): reading from another node sends its requests; while
NODE is not assigned the piece ends as on a timeout (R370). -/
def startMove (s : State) (j : Job) (ix : Nat) (p : Piece) : List Act :=
  match beginPiece s j ix false (p.pairs.map fun x => (j.a, x.1)) (p.pairs.map fun x => (j.target p, x.2)) p.quarter with
  | .faults acts => acts ++ [.piece j.id ix fun q => { q with st := .faulted }]
  | .fails x acts => acts ++ pieceEnded j ix p x
  | .ok tr _ _ opened acts =>
    let (src, dst) := pieceSpots s j { p with tr } false
    let runs := awayRuns src
    if (!runs.isEmpty || !(awayRuns dst).isEmpty) && s.hub.node == 0 then
      acts ++ pieceEnded j ix { p with opened } codeTimeout
    else
      let q := if runs.isEmpty && (awayRuns dst).isEmpty then p else { p with part := none }
      let now := q.next (spotBytes src) (spotBytes dst)
      let begun := acts ++
        [.piece j.id ix fun q => { q with st := .started, tr, opened, behind := stonesBusy s (src ++ dst) }] ++
        requestActs (j.id, ix) (dView j.a.d) (q.mainAt now src) ++ requestActs (j.id, ix) (dView (j.target p).d) (q.mainAt now dst)
      begun ++ readRequests (applyActs s begun) j ix runs

/-! ### The flume (R193) -/

/-- One step of reading a compressed stream. -/
inductive Flume | need (va : Nat) | over | views | ok (bytes : List (Byte × Bool)) (pos : Nat)

/-- A byte of a compressed stream: the byte and whether it is poisoned. The stream has no rows, and so no block layout: a page
with VIEWS ends its piece (R193, R287; log entry 97). -/
def flumeByte (s : State) (tr : List Trans) (base limit pos : Nat) : Flume :=
  if limit ≤ pos then .over
  else match held tr (base + pos) with
  | none => .need (base + pos)
  | some t =>
    let a := t.pa * 4096 + (base + pos) % 4096
    if t.vw then .views else .ok [(memGet s.mem a, poisonedAt s a)] (pos + 1)

/-- `n` bytes of a compressed stream. -/
def flumeBytes (s : State) (tr : List Trans) (base limit : Nat) : Nat → Nat → Flume
  | 0, pos => .ok [] pos
  | n + 1, pos =>
    match flumeByte s tr base limit pos with
    | .ok b pos =>
      match flumeBytes s tr base limit n pos with
      | .ok bs pos => .ok (b ++ bs) pos
      | r => r
    | r => r

/-- The eight planes of a group, highest first; a poisoned mask poisons them all. -/
def flumePlanes (s : State) (tr : List Trans) (base limit : Nat) (m : Byte) (bad : Bool) : Nat → Nat → Flume
  | 0, pos => .ok [] pos
  | p + 1, pos =>
    match (if bitAt m p then flumeBytes s tr base limit 32 pos else .ok (List.replicate 32 (0, false)) pos) with
    | .ok b pos =>
      match flumePlanes s tr base limit m bad p pos with
      | .ok bs pos => .ok (b.map (fun x => (x.1, x.2 || bad)) ++ bs) pos
      | r => r
    | r => r

/-- Groups are skipped by their masks: each is one byte and 32 bytes for every plane present. -/
def flumeSkip (s : State) (tr : List Trans) (base limit : Nat) : Nat → Nat → Flume
  | 0, pos => .ok [] pos
  | n + 1, pos =>
    match flumeByte s tr base limit pos with
    | .ok b pos => flumeSkip s tr base limit n (pos + 32 * countBelow 8 (bitAt ((b.head?.map Prod.fst).getD 0)))
    | r => r

/-- The groups of a column. -/
def flumeColumn (s : State) (tr : List Trans) (base limit : Nat) : Nat → Nat → Flume
  | 0, pos => .ok [] pos
  | n + 1, pos =>
    match flumeByte s tr base limit pos with
    | .ok b pos =>
      let (m, bad) := b.headD (0, false)
      match flumePlanes s tr base limit m bad 8 pos with
      | .ok x pos =>
        match flumeColumn s tr base limit n pos with
        | .ok xs pos => .ok (x ++ xs) pos
        | r => r
      | r => r
    | r => r

/-- Column `n` of a flume of `g` groups a column; PADM does not shorten the stream (log entry 100). -/
def flumeRead (s : State) (tr : List Trans) (base limit g n : Nat) : Flume :=
  match flumeSkip s tr base limit (g * n) 0 with
  | .ok _ pos => flumeColumn s tr base limit g pos
  | r => r

/-- The pages a column needs are translated one by one as the stream is read. -/
def flumePages (s : State) (j : Job) (n : Nat) : Nat → List Trans → PagesRes × List Act
  | 0, _ => (.denied, [])
  | fuel + 1, tr =>
    match flumeRead s tr (dBase j.a.d) (dDim j.a.d 0) (units0 j.dst.d) n with
    | .need va =>
      match translatePages s j.core j.part [(va, false)] with
      | (.ok t, acts) =>
        let (r, more) := flumePages (applyActs s acts) j n fuel (tr ++ t)
        (r, acts ++ more)
      | r => r
    | _ => (.ok tr, [])

/-- A flume piece starts: a column's slice (R193). -/
def startFlume (s : State) (j : Job) (ix : Nat) (p : Piece) : List Act :=
  match flumePages s j p.row 20 [] with
  | (.absent va w, acts) =>
    acts ++ (match raiseFault (applyActs s acts) (.piece j.id ix) j.core j.tag j.part j.ts (BitVec.ofNat 32 ix) va w with
      | some fa => fa ++ [.piece j.id ix fun q => { q with st := .faulted }]
      | none => pieceEnded j ix p codeAccess)
  | (.denied, acts) => acts ++ pieceEnded j ix p codeAccess
  | (.ok tr, acts) =>
    match p.pairs.mapM fun x => spotsOf s j.dst true [] x.2 with
    | .error x => acts ++ pieceEnded j ix p x
    | .ok dst => acts ++ [.piece j.id ix fun q => { q with st := .started, tr, behind := stonesBusy s dst.flatten }]

/-- The addresses of a column's bytes in the compressed stream. -/
def flumeAddrs (s : State) (tr : List Trans) (base limit g n : Nat) : List Nat :=
  match flumeSkip s tr base limit (g * n) 0 with
  | .ok _ lo => match flumeColumn s tr base limit g lo with
    | .ok _ hi => ((List.range (hi - lo)).filterMap fun i =>
        (held tr (base + lo + i)).map fun t => t.pa * 4096 + (base + lo + i) % 4096)
    | _ => []
  | _ => []

/-- What a flume piece writes when it ends; it ends with ACCESS where its stones have lost their power (R390). -/
def endFlume (s : State) (j : Job) (ix : Nat) (p : Piece) : List Act :=
  let mask (x : Ix × Ix) : List Byte := unitMask j.padm j.dst.d x.2 none
  let dst := p.pairs.flatMap fun x => match spotsOf s j.dst true [] x.2 with | .ok xs => cutSpots (mask x) xs | .error _ => []
  let column := flumeAddrs s p.tr (dBase j.a.d) (dDim j.a.d 0) (units0 j.dst.d) p.row
  if !(p.clear s) || !(viewFree s 0 column) then []
  else if !(p.pairs.all fun x => match spotsOf s j.dst true [] x.2 with | .ok _ => true | .error _ => false) then
    pieceEnded j ix p codeAccess
  else match flumeRead s p.tr (dBase j.a.d) (dDim j.a.d 0) (units0 j.dst.d) p.row with
  | .ok bytes _ =>
    -- what PADM leaves out is read and not written
    let want := p.pairs.flatMap fun x => (((bytes.drop (256 * x.2.1)).take 256).zip (mask x)).filter fun y => y.2 != 0
    let data := (spotBytes dst).zip want
    let bad := blocksOf 32 ((data.filter fun x => x.2.1.2).map Prod.fst)
    maskedWrite s (data.map fun x => (x.1, x.2.1.1, x.2.2)) bad ++
      accessRows s (rowsOf column) ++
      pieceEnded j ix p (if bad.isEmpty then codeOk else codePoison)
  | _ => pieceEnded j ix p codeDescr

/-! ### Main-memory atomics (R194) -/

/-- The new value of an atomic (R194). -/
def atomNew (op : AtomOp) (old v x : W32) : W32 :=
  match op with
  | .add => old + v
  | .min => if old.slt v then old else v
  | .max => if old.slt v then v else old
  | .swap => v
  | .cas => if old = x then v else old
  | .and => old &&& v
  | .or => old ||| v

/-- The code of an atomic in an ATOM packet (R371). -/
def atomCode : AtomOp → Nat
  | .add => 0 | .min => 1 | .max => 2 | .swap => 3 | .cas => 4 | .and => 5 | .or => 6

/-- A 32-bit word of memory. -/
def word32 (m : List Host.Cell) (a : Nat) : W32 := BitVec.ofNat 32 (memNat m a 4)

/-- A `catom` piece starts: a local target is performed when the piece ends; a remote one is asked with the values
and, for `cas`, the expected values after them, which are read first (R194); poison travels with them (R184). -/
def startCatom (s : State) (j : Job) (op : AtomOp) (ix : Nat) (p : Piece) : List Act :=
  let dst := p.pairs.map fun x => (j.dst, x.2)
  let aux := p.pairs.map fun x => (j.b, x.1)
  match beginPiece s j ix false (p.pairs.map (fun x => (j.a, x.1)) ++ (if op = .cas then aux else [])) (aux ++ dst) with
  | .faults acts => acts ++ [.piece j.id ix fun q => { q with st := .faulted }]
  | .fails x acts => acts ++ pieceEnded j ix p x
  | .ok tr src all opened acts =>
    let runs := awayRuns all
    if !runs.isEmpty && s.hub.node == 0 then acts ++ pieceEnded j ix { p with opened } codeTimeout
    else
      let n := p.pairs.length
      let base := 4 * n
      let reads := spotBytes src
      let bad := !runs.isEmpty && (lowestPoison s reads).isSome
      let begun := acts ++ [.piece j.id ix fun q => { q with st := .started, tr, opened, fixed := if bad then some codePoison else none }] ++
        requestActs (j.id, ix) (dView j.dst.d) (mainBytesOf all)
      let send (s : State) (r : Half × Nat × Nat × Nat) : List Act :=
        let (node, a, len, pos) := r
        let part (from_ : Nat) : List Nat := (reads.drop (from_ + pos - base)).take len
        let bytes := part 0 ++ (if op = .cas then part base else [])
        sendActs s (some j.core) { ts := j.ts, addr := BitVec.ofNat 46 a, dst := node, kind := 3
                                   arg := BitVec.ofNat 24 (atomCode op * 2 ^ 21), data := bytes.map (memGet s.mem)
                                   poison := packetPoison (bytes.map (poisonedAt s)) }
          (.piece j.id ix (pos - base)) ++ [.piece j.id ix fun q => { q with awaiting := q.awaiting ++ [s.nextId] }]
      (runs.foldl (fun (acc : State × List Act) r =>
        let a := send acc.1 r
        (applyActs acc.1 a, acc.2 ++ a)) (applyActs s begun, begun)).2

/-- The elements of a `catom` piece are performed in increasing e (R194): a target in a poisoned sector is left
alone and its old value is not written. -/
def atomSteps (s : State) (op : AtomOp) : List (Nat × Nat × Nat) → List Act × Bool
  | [] => ([], false)
  | (t, v, x) :: rest =>
    if poisonedAt s t then ((atomSteps s op rest).1, true)
    else
      let old := word32 s.mem t
      let new := atomNew op old (word32 s.mem v) (word32 s.mem x)
      let bad := poisonedAt s v || (op == .cas && poisonedAt s x)
      let acts := engineWrite s ((List.range 4).map fun i => (t + i, bits new (8 * i) 8)) (if bad then [t / 32] else [])
      let s1 := applyActs s acts
      let acts := acts ++ engineWrite s1 ((List.range 4).map fun i => (x + i, bits old (8 * i) 8)) []
      let (more, b) := atomSteps (applyActs s acts) op rest
      (acts ++ more, b || bad)

/-- An earlier piece of a `catom` whose elements may lie in a pseudo-channel of this one has not ended: elements of one
pseudo-channel are performed in increasing e (R194). A piece that a page fault suspends holds no other (R188). -/
def atomBefore (s : State) (j : Job) (ix : Nat) (p : Piece) : Bool :=
  let homes (q : Piece) : List (Fin 512) := (rowsOf (mainBytesOf (pieceSpots s j q false).2)).map Prod.fst
  (List.range ix).any fun i => match j.pieces[i]? with
    | some q => q.st == .waiting || (q.st == .started && (homes q).any fun h => (homes p).contains h)
    | none => false

/-- A `catom` piece ends. -/
def endCatom (s : State) (j : Job) (op : AtomOp) (ix : Nat) (p : Piece) : List Act :=
  let get (o : Opnd) (u : Ix) : List Nat := match spotsOf s o false p.tr u with | .ok xs => spotBytes xs | .error _ => []
  let triples := p.pairs.filterMap fun x => match get j.dst x.2, get j.a x.1, get j.b x.1 with
    | t :: _, v :: _, y :: _ => some (t, v, y)
    | _, _, _ => none
  if dSpace j.dst.d = 3 then
    let data := (p.pairs.flatMap fun x => get j.b x.1).zip (List.range (4 * p.pairs.length))
    let known := data.filterMap fun x => (p.got.find? fun g => g.1 == x.2).map fun g => (x.1, g.2)
    let known := known.filter fun x => !(p.lost.any fun l => ((data.find? fun d => d.2 == l).map Prod.fst) == some x.1)
    engineWrite s known [] ++ pieceEnded j ix p (if p.lost.isEmpty && p.fixed.isNone then codeOk else codePoison)
  else
    let target := mainBytesOf (p.pairs.flatMap fun x => (get j.dst x.2).map fun a => .here a 1)
    if !(unitsThere s j.dst p.tr (p.pairs.map Prod.snd) && unitsThere s j.a p.tr (p.pairs.map Prod.fst) &&
        unitsThere s j.b p.tr (p.pairs.map Prod.fst)) then
      dropRequests (j.id, ix) target ++ pieceEnded j ix p codeAccess
    else if !(requestsServed s (j.id, ix) target) || viewHeld s (j.id, ix) target || atomBefore s j ix p then [] else
    let (acts, bad) := atomSteps s op triples
    acts ++ dropRequests (j.id, ix) target ++
      pieceEnded j ix p (if bad then codePoison else codeOk)

/-! ### Ending a copy piece (R184) -/

/-- The data stream of a piece: each byte and whether it is poisoned. -/
def pieceData (s : State) (p : Piece) (src : List Spot) : List (Byte × Bool) :=
  if (awayRuns src).isEmpty then (spotBytes src).map fun a => (memGet s.mem a, poisonedAt s a)
  else
    let n := src.foldl (fun n x => n + match x with | .here _ k => k | .away _ _ k => k) 0
    (List.range n).map fun i => (((p.got.find? fun g => g.1 == i).map Prod.snd).getD 0, p.lost.contains i)

/-- The pieces of an `mcast` that carry the same source units to other nodes, this one included: one MCW serves them
(R381). -/
def siblings (j : Job) (p : Piece) : List Nat :=
  (List.range j.pieces.length).filter fun i => (j.pieces[i]?).any fun q =>
    dSpace (j.target q).d == 3 && q.pairs.map Prod.fst == p.pairs.map Prod.fst

/-- The destinations of those that are not yet sent, as far as they are cut in the same runs. -/
def multicastGroup (s : State) (j : Job) (p : Piece) : List (Nat × List (Half × Nat × Nat × Nat)) :=
  let shape (runs : List (Half × Nat × Nat × Nat)) : List (Nat × Nat) := runs.map fun r => r.2.2
  let mine := shape (awayRuns (pieceSpots s j p false).2)
  (siblings j p).filterMap fun i => (j.pieces[i]?).bind fun q =>
    let runs := awayRuns (pieceSpots s j q false).2
    if q.st == .started && !q.sent && q.awaiting.isEmpty && shape runs == mine then some (i, runs) else none

/-- The request of one run: a WR, or the ABST that a write of an ABSTAIN word leaves as (R371). -/
def writeRequest (s : State) (p : Packet) (node : Half) (at_ : BitVec 46) : Packet :=
  let v : W32 := BitVec.ofNat 32 (leNat p.data)
  match if p.data.length = 4 && !(p.poison.any id) then abstainsFrom s node at_.toNat v else none with
  | some ctx => { abstPacket ctx at_ v with ts := p.ts, dst := node }
  | none => { p with dst := node, addr := at_ }

/-- The write requests of pieces whose destinations lie on other nodes, run by run; the code of the pieces follows from what
is sent (R184). -/
def writeRequests (j : Job) (data : List (Byte × Bool)) (multi : Bool) (group : List (Nat × List (Half × Nat × Nat × Nat))) :
    Nat → State → List Act
  | 0, _ => []
  | n + 1, s =>
    let acts := writeRequests j data multi group n s
    let s1 := applyActs s acts
    let dests := group.filterMap fun g => (g.2[n]?).map fun r => (g.1, r)
    match dests with
    | [] => acts
    | (_, (_, _, len, pos)) :: _ =>
      let part := (data.drop pos).take len
      let code := if data.any Prod.snd then codePoison else codeOk
      let p : Packet :=
        { ts := j.ts, kind := 2, data := part.map Prod.fst, poison := packetPoison (part.map Prod.snd) }
      let mark (k : Nat) : List Act := (List.range dests.length).filterMap fun i => (dests[i]?).map fun d =>
        .piece j.id d.1 fun q => { q with awaiting := q.awaiting ++ [k + i], sent := true, fixed := some code }
      if multi then
        acts ++ sendMulti s1 j.core p (dests.map fun d => (d.2.1, BitVec.ofNat 46 d.2.2.1, .piece j.id d.1 d.2.2.2.2)) ++
          mark s1.nextId
      else
        acts ++ dests.flatMap fun d =>
          sendActs s1 (some j.core) (writeRequest s1 p d.2.1 (BitVec.ofNat 46 d.2.2.1)) (.piece j.id d.1 d.2.2.2.2) ++
            mark s1.nextId

/-- The later of two `scat` rows with one name waits for the earlier (R182). -/
def rowBefore (j : Job) (ix : Nat) (p : Piece) : Bool :=
  j.work == .scat && (List.range ix).any fun i => match j.pieces[i]? with
    | some q => q.code?.isNone && (q.pairs.head?.map fun x => x.2.2.1) == (p.pairs.head?.map fun x => x.2.2.1)
    | none => false

/-- A `cpy`, `gath`, `scat` or `mcast` piece ends: its bytes are written, poison with them (R184); the bytes of a
remote destination are sent first, and the piece ends when they are acknowledged, with the code of what was sent (R373), or, while
NODE is not assigned, as on a timeout (R370). One whose stones or banks have lost their power ends with ACCESS (R390). A piece that the agenda divides asks for its parts, and performs them, one after another (R272; log entry 29). -/
def endMove (s : State) (j : Job) (ix : Nat) (p : Piece) : List Act :=
  let (src, dst) := pieceSpots s j p false
  let runs := awayRuns dst
  let p := if runs.isEmpty && (awayRuns src).isEmpty then p else { p with part := none }
  let now := p.next (spotBytes src) (spotBytes dst)
  let from_ := p.mainAt now src
  let dest := p.mainAt now dst
  let mine := from_ ++ dest
  if !(p.clear s) || rowBefore j ix p then []
  else if !p.sent && !(pieceThere s j p) then dropRequests (j.id, ix) mine ++ pieceEnded j ix p codeAccess
  else if !(requested s (j.id, ix) mine) then
    requestActs (j.id, ix) (dView j.a.d) from_ ++ requestActs (j.id, ix) (dView (j.target p).d) dest
  else if !(requestsServed s (j.id, ix) mine) || viewHeld s (j.id, ix) mine then []
  else
    let data := pieceData s p src
    let code := if !p.lost.isEmpty || data.any Prod.snd then codePoison else codeOk
    let free := dropRequests (j.id, ix) mine
    if runs.isEmpty then
      let all := (spotBytes dst).zip (data.zip (pieceMask j p))
      let xs := if p.whole then all else now.filterMap fun i => all[i]?
      let lost := p.lost ++ (if p.whole then [] else now.filter fun i => (all[i]?).any fun x => x.2.1.2)
      let bad := blocksOf 32 ((xs.filter fun x => x.2.1.2).map Prod.fst ++ lost.filterMap fun i => (all[i]?).map Prod.fst)
      let write := maskedWrite s (xs.map fun x => (x.1, x.2.1.1, x.2.2)) bad
      if p.done.length + xs.length < all.length then
        write ++ free ++
          [.piece j.id ix fun q => { q with done := q.done ++ now, lost, part := none }]
      else
        let full := (all.filter fun x => x.2.2 == 0xFF).map Prod.fst
        let whole := (blocksOf 32 full).filter fun n => s.poisoned.contains n && !bad.contains n && coveredWhole 32 n full
        write ++ whole.map (fun n => Act.sector n false) ++ free ++
          pieceEnded j ix p (if lost.isEmpty && !(xs.any fun x => x.2.1.2) then codeOk else codePoison)
    else if p.sent then free ++ pieceEnded j ix p (p.fixed.getD code)
    else if s.hub.node = 0 then free ++ pieceEnded j ix p codeTimeout
    else
      match j.work with
      | .mcast _ =>
        if (siblings j p).any fun i => (j.pieces[i]?).any fun q => q.st == .waiting || q.st == .faulted then []
        else
          let group := multicastGroup s j p
          writeRequests j data true group (group.foldl (fun m g => max m g.2.length) 0) s ++ free
      | _ => writeRequests j data false [(ix, runs)] runs.length s ++ free

/-! ### Hotness (R196) -/

/-- The homes that a region of space 1 touches, rising, under held translations. -/
def regionHomes (s : State) (j : Job) (tr : List Trans) (us : List Ix) : List Nat :=
  (us.flatMap fun u => match spotsOf s j.a false tr u with
    | .ok xs => mainBytesOf xs
    | .error _ => []).foldl (fun acc a => setIns acc (channelOf a).val) []

/-- A `hot` piece starts: its region is translated. -/
def startHot (s : State) (j : Job) (ix : Nat) (p : Piece) : List Act :=
  match beginPiece s j ix false ((unitsOf j.padm j.a.d).map fun u => (j.a, u)) (p.pairs.map fun x => (j.dst, x.2)) with
  | .faults acts => acts ++ [.piece j.id ix fun q => { q with st := .faulted }]
  | .fails x acts => acts ++ pieceEnded j ix p x
  | .ok tr _ _ opened acts =>
    acts ++ [.piece j.id ix fun q => { q with st := .started, tr, opened }]

/-- The bytes written at an operand's units, as far as they reach. -/
def atUnits (s : State) (o : Opnd) (tr : List Trans) (us : List Ix) (bytes : List Byte) : List (Nat × Byte) :=
  (us.flatMap fun u => match spotsOf s o false tr u with | .ok xs => spotBytes xs | .error _ => []).zip bytes

/-- A `hot` piece ends: a record for each home, and one with home 0 if room remains (R196). -/
def endHot (s : State) (j : Job) (clr : Bool) (ix : Nat) (p : Piece) : List Act :=
  let homes := regionHomes s j p.tr (unitsOf j.padm j.a.d)
  let room := dDim j.dst.d 0 / 2
  let shown := homes.take room
  let rec_ (h : Nat) : List Byte := leBytes 4 (0x2000 + h) ++ leBytes 4 (s.homes[fin 511 h]).hot
  let bytes := shown.flatMap rec_ ++ (if shown.length < room then leBytes 8 0 else [])
  if !(unitsThere s j.dst p.tr (p.pairs.map Prod.snd)) then pieceEnded j ix p codeAccess else
  engineWrite s (atUnits s j.dst p.tr (p.pairs.map Prod.snd) bytes) [] ++
    (if clr then shown.map fun h => Act.home (fin 511 h) fun x => { x with hot := 0 } else []) ++ pieceEnded j ix p codeOk

/-! ### Stream elements (R161-R165) -/

/-- The device addresses of an element of a binding under translations: the windows resolved, or the pages, which a view
other than 0 requires to carry VIEWS (R180). -/
def elemSpots (b : Binding) (tr : List Trans) (n : Nat) : Except (BitVec 4) (List Nat) :=
  (List.range (streamBytes b.width)).mapM fun (i : Nat) =>
    let a : Int := b.addr n + (i : Int)
    if a < 0 then .error codeAccess else
    if b.device then
      match held tr a.toNat with
      | some t => if b.view ≠ 0 ∧ !t.vw then .error codeDescr else .ok (t.pa * 4096 + a.toNat % 4096)
      | none => .error codeAccess
    else match b.banks.find? fun x => x.1.toNat == a.toNat / 65536 with
      | some x => .ok (bankPa x.2 (a.toNat % 65536))
      | none => .error codeAccess

/-- The pages of an element of a binding in device virtual space. -/
def elemPages (b : Binding) (n : Nat) (write : Bool) : List (Nat × Bool) :=
  if b.device then
    let a := (b.addr n).toNat
    distinctPages [(a, write), (a + streamBytes b.width - 1, write)]
  else []

/-- What an element's access finds: its device addresses, a failure, or, as none, that it must wait for the pager or for an
earlier access through another view (R188, R288). The record of a page fault names tag 0 and the element (log entry 80). -/
def elemAccess (s : State) (c : Fin 256) (b : Binding) (n : Nat) (write : Bool) :
    Except (Option (BitVec 4)) (List Nat) × List Act :=
  if b.device && decide (b.addr n < 0) then (.error (some codeAccess), []) else
  match translatePages s c b.part (elemPages b n write) with
  | (.absent va w, acts) =>
    (match raiseFault (applyActs s acts) (.stream c b.id) c 0 b.part b.ts (BitVec.ofNat 32 n) va w with
      | some fa => (.error none, acts ++ fa)
      | none => (.error (some codeAccess), acts))
  | (.denied, acts) => (.error (some codeAccess), acts)
  | (.ok tr, acts) =>
    match elemSpots b tr n with
    | .error x => (.error (some x), acts)
    | .ok xs =>
      let banks := banksOf (xs.map fun a => .here a 1)
      if banks.any fun k => ((s.banks[k]).engBegin write b.bufNo).isNone then (.error (some codeDescr), acts)
      else if b.device && !(viewFree s b.view xs) then (.error none, []) else (.ok xs, acts)

/-- A page fault of element `n` of a binding is pending (R188). -/
def elemFaulted (s : State) (b : Binding) (n : Nat) : Bool :=
  s.faults.any fun f => f.who.ofBinding b.id && f.piece == BitVec.ofNat 32 n

/-- A binding's accesses may begin: what it follows is over (R163, R198, R199). -/
def Binding.ready (b : Binding) (s : State) : Bool :=
  !(s.jobs.any fun o => b.after.contains o.id) && !(s.anyCont fun k => k.acc.any fun a => b.needs.contains a.id)

/-- STREAM_FILL (R163): the next element of an input binding is read, up to 8 ahead of POS; one whose access fails is
marked failed (R162, R195). -/
def streamFill (s : State) (c : Fin 256) (z : Fin 8) : List Act :=
  let x := s.cores[c]
  match x.cont.strm[z] with
  | none => []
  | some b =>
    if b.out || decide (Config.streamDepth ≤ b.buf.length) || decide (b.total ≤ b.fetched) || !(b.ready s) ||
        elemFaulted s b b.fetched then []
    else
      let push (e : Elem) : Act := .cont c fun k => { k with strm := vset k.strm z ((k.strm[z]).map fun b =>
        { b with buf := b.buf ++ [e], fetched := b.fetched + 1 }) }
      match elemAccess s c b b.fetched false with
      | (.error none, acts) => acts
      | (.error (some code), acts) =>
        acts ++ [push { n := b.fetched, data := code.setWidth 2048, ready := true, poison := none, failed := true, written := false }]
      | (.ok xs, acts) =>
        let data : VReg := BitVec.ofNat 2048 (leNat (xs.map (memGet s.mem)))
        let pz := (lowestPoison s xs).map fun a => BitVec.ofNat 24 (if b.device then a else
          ((b.banks.find? fun w => a / 65536 == (bankPa w.2 0) / 65536).map fun w => w.1.toNat * 65536 + a % 65536).getD a)
        acts ++ passBanks xs false b.bufNo b.ts ++ accessRows s (rowsOf xs) ++
          [push { n := b.fetched, data, ready := true, poison := pz, failed := false, written := false }]

/-- The place in the buffer of the output element that is next to be written, or to leave it: the oldest; at a freeze any
that has landed, since the oldest may land only after it (R164, R165). -/
def Binding.nextOut (b : Binding) (freezing : Bool) : Option Nat :=
  if (b.buf.head?.map fun e => e.ready) == some true then some 0
  else if freezing then (List.range b.buf.length).find? fun i => (b.buf[i]?).any fun e => e.ready && !e.written
  else none

/-- An output element of a binding is written, or fails: the acts, and the binding afterwards. One written before its turn
keeps its place until then. -/
def drainElem (s : State) (c : Fin 256) (b : Binding) (freezing : Bool) : Option (List Act × Binding) :=
  match b.nextOut freezing with
  | none => none
  | some i =>
    match b.buf[i]? with
    | none => none
    | some e =>
      let n := b.fetched + i
      let failure (x : BitVec 4) : Option (BitVec 4) := match b.failure with | none => some x | some y => some y
      let left : Binding := { b with buf := b.buf.tail, fetched := b.fetched + 1 }
      let marked (f : Elem → Elem) : Binding := { b with buf := b.buf.modify i fun e => f { e with written := true } }
      if e.written then some ([], if e.failed then { left with failure := failure (e.data.setWidth 4) } else left)
      else if !(b.ready s) || elemFaulted s b n then none
      else match elemAccess s c b n true with
        | (.error none, acts) => some (acts, b)
        | (.error (some code), acts) =>
          some (acts, if i = 0 then { left with failure := failure code }
            else marked fun e => { e with failed := true, data := code.setWidth 2048 })
        | (.ok xs, acts) =>
          let data := (List.range xs.length).map fun k => (xs.getD k 0, bits e.data (8 * k) 8)
          some (acts ++ engineWrite s data [] ++ passBanks xs true b.bufNo b.ts ++ accessRows s (rowsOf xs),
            if i = 0 then left else marked id)

/-- The copies of continuations that a core holds, or that left it and wait to be seated again. -/
def State.contsOf (s : State) (c : Fin 256) : List Cont :=
  let x := s.cores[c]
  x.cont :: x.keep.toList ++ (List.finRange 4).flatMap fun d =>
    (((s.dies[d]).resume ++ (s.dies[d]).seating.flatMap Seating.resume).filter fun r => r.core == c).map ResumeRec.cont

/-- An `unstrm` of a continuation of a core goes on writing its elements, wherever its continuation is; its job ends with
the first failing element's code (R195, R204). -/
def drainLeft (s : State) (c : Fin 256) (cid id : Nat) (b : Binding) (freezing : Bool) : Option (List Act) :=
  if b.buf.isEmpty then
    some (contActs s c cid (fun k => { k with drains := k.drains.filter fun d => d.1 != id }) ++
      [.piece id 0 fun p => { p with st := .ended (b.failure.getD 0) }])
  else (drainElem s c b freezing).map fun r =>
    r.1 ++ contActs s c cid fun k => { k with drains := k.drains.map fun d => if d.1 = id then (d.1, d.2.1, r.2) else d }

/-- The core is saving the image of a continuation to its keep bank (R339, R345). -/
def CoreSt.saves (x : CoreSt) (cid : Nat) : Bool :=
  (match x.phase with | .trapSave _ | .preemptSave => true | _ => false) && (x.keep.map Cont.cid) == some cid

/-- STREAM_DRAIN (R164): an element of an output stream is written, one left by an `unstrm` first, then one of the image
that a trap or a pre-emption saves (R165), then the oldest of the bound stream. -/
def streamDrain (s : State) (c : Fin 256) (z : Fin 8) : List Act :=
  let x := s.cores[c]
  match (s.contsOf c).findSome? fun k => (k.drains.filter fun d => d.2.1 == z).findSome? fun d =>
      drainLeft s c k.cid d.1 d.2.2 (x.saves k.cid) with
  | some acts => acts
  | none =>
    match x.keep.bind fun k => (k.strm[z]).bind fun b => if b.out then (drainElem s c b true) else none with
    | some (acts, b') =>
      acts ++ [.core c fun x => { x with keep := x.keep.map fun k => { k with strm := vset k.strm z (some b') } }]
    | none =>
      match x.cont.strm[z] with
      | none => []
      | some b =>
        if !b.out then [] else
        match drainElem s c b false with
        | none => []
        | some (acts, b') => acts ++ [.cont c fun k => { k with strm := vset k.strm z (some b') }]

end Sys2Proof.Machine
end

