-- ==== Sys2Proof/Machine/Wheel.lean ====
section
/-! DEFINITION. Wheels (R289-R298): the pieces of `wsa`, `wred` and `wstat`, and one step of a wheel for each;
pseudo-channels at work (R286, R296, R299) and run-time self-test (R302, R303). -/

namespace Sys2Proof.Machine

/-- A job joins a wheel's queue (R295). -/
def wheelPush (h : Nat) (w : WheelJob) : Act := .home (fin 511 h) fun x => { x with jobs := x.jobs ++ [w] }

/-- The wheel's first job leaves it. -/
def wheelPop (h : Fin 512) : Act := .home h fun x => { x with jobs := x.jobs.tail }

/-- A wheel job of a piece that has just reached a wheel. -/
def WheelJob.fresh (job piece : Nat) (rows : List (Nat × Nat)) (len : Nat) : WheelJob :=
  { job, piece, rows, len, pos := 0, acc := none, poisoned := false }

/-- No wheel holds a job of the piece. -/
def wheelsDone (s : State) (job piece : Nat) : Bool :=
  (List.finRange 512).all fun h => !((s.homes[h]).jobs.any fun w => w.job == job && w.piece == piece)

/-- Addresses that lie in one granule (R289). -/
def oneGranule (xs : List Nat) : Bool :=
  match xs with
  | [] => true
  | a :: as => as.all fun b => b / 4096 == a / 4096

/-- The addresses of units of an operand. -/
def unitPas (s : State) (o : Opnd) (tr : List Trans) (us : List Ix) : List Nat :=
  us.flatMap fun u => match spotsOf s o false tr u with | .ok xs => spotBytes xs | .error _ => []

/-- The first addresses of units of an operand. -/
def unitHeads (s : State) (o : Opnd) (tr : List Trans) (us : List Ix) : List Nat :=
  us.filterMap fun u => match spotsOf s o false tr u with | .ok (.here a _ :: _) => some a | _ => none

/-- A piece has performed at its wheel with a code. -/
def wheelEnds (job piece : Nat) (x : BitVec 4) : Act := .piece job piece fun p => { p with st := .performed x }

/-! ### `wsa` (R290) -/

/-- A `wsa` piece starts: both rows lie in one granule each and in one home, whose wheel takes the piece. -/
def startWsa (s : State) (j : Job) (ix : Nat) (p : Piece) : List Act :=
  match beginPiece s j ix false (p.pairs.map fun x => (j.a, x.1)) (p.pairs.map fun x => (j.dst, x.2)) with
  | .faults acts => acts ++ [.piece j.id ix fun q => { q with st := .faulted }]
  | .fails x acts => acts ++ pieceEnded j ix p x
  | .ok tr src dst _ acts =>
    let a := spotBytes src
    let b := spotBytes dst
    let home := channelOf (b.headD 0)
    if oneGranule a && oneGranule b && channelOf (a.headD 0) == home then
      acts ++ [.piece j.id ix fun q => { q with st := .started, tr, exec := .wheel home },
        wheelPush home.val (WheelJob.fresh j.id ix [] 1)]
    else acts ++ pieceEnded j ix p codeDescr

/-- The bytes of words. -/
def wordBytes (xs : List Nat) : List Nat := xs.flatMap fun x => (List.range 4).map (x + ·)

/-- The step of `wsa`: one row, each element one FMA rounded once, in the DRAM rows of its source and destination (R295,
R299); a poisoned sector leaves the row alone. -/
def wsaStep (s : State) (j : Job) (ix : Nat) (p : Piece) : List Act :=
  let a := unitHeads s j.a p.tr (p.pairs.map Prod.fst)
  let b := unitHeads s j.dst p.tr (p.pairs.map Prod.snd)
  let reads := rowsOf (wordBytes a) ++ rowsOf (wordBytes b)
  if (lowestPoison s (wordBytes (a ++ b))).isSome then touchRows s reads ++ [wheelEnds j.id ix codePoison]
  else
    let f (x : Nat × Nat) : List (Nat × Byte) :=
      let y := (fmaV rnd32 .rne (FFmt.f32.dec j.scale) (FFmt.f32.dec (word32 s.mem x.1)) (FFmt.f32.dec (word32 s.mem x.2))).1
      (List.range 4).map fun i => (x.2 + i, bits y (8 * i) 8)
    touchRows s (reads ++ rowsOf (wordBytes b)) ++ engineWrite s ((a.zip b).flatMap f) [] ++ [wheelEnds j.id ix codeOk]

/-! ### `wred` (R291) -/

/-- Index words cut into bags by END, and the words after the last END. -/
def bagsOf (cur : List W32) : List W32 → List (List W32) × List W32
  | [] => ([], cur)
  | w :: ws =>
    if bitAt w 31 then let (bs, t) := bagsOf [] ws; ((cur ++ [w]) :: bs, t)
    else bagsOf (cur ++ [w]) ws

/-- ROW of an index word. -/
def rowOf (w : W32) : Nat := (bits w 0 24).toNat

/-- The piece of bag `k`: a padding destination row reads and writes nothing, a bad index ends it with DESCR. -/
def bagPiece (j : Job) (k : Nat) (ws : List W32) : Piece :=
  let pairs := ws.map fun w => (((0, rowOf w, 0, 0) : Ix), ((0, k, 0, 0) : Ix))
  let padded := padAxis j.padm == 1 && padPos j.padm 1 (dDim j.dst.d 1) k && decide (k < dDim j.dst.d 1)
  let wrong := decide (dDim j.dst.d 1 ≤ k) || ws.any fun w => decide (dDim j.a.d 1 ≤ rowOf w) || bits w 24 7 != 0#7
  Piece.fresh pairs k (if padded then some codeOk else if wrong then some codeDescr else none)

/-- The pieces of a `wred` whose index words have been read. -/
def bagPieces (j : Job) (ws : List W32) : List Piece :=
  let (bags, rest) := bagsOf [] ws
  ((List.range bags.length).map fun k => bagPiece j k (bags.getD k [])) ++
    (if rest.isEmpty then [] else [Piece.fresh [] bags.length (some codeDescr)])

/-- The job has a single piece, suspended on a page fault before the pieces are formed. -/
def soleFaulted (j : Job) : List Act :=
  [.job j.id fun j => { j with pieces := [{ Piece.fresh [] 0 none with st := .faulted }] }]

/-- The read of the index words begins, before any bag is formed: until it is over the job has a single piece. -/
def prepareWred (s : State) (j : Job) : List Act :=
  let us := unitsOf j.padm j.b.d
  match beginPiece s j 0 false (us.map fun u => (j.b, u)) [] with
  | .faults acts => acts ++ soleFaulted j
  | .fails x acts => acts ++ soleEnded j x
  | .ok tr _ _ opened acts =>
    acts ++ [.job j.id fun j => { j with pieces := [{ Piece.fresh [] 0 none with st := .started, tr, opened }] }]

/-- The index words have been read, once no earlier access through another view is left (R288): the bags are formed, unless a
word is poisoned. -/
def finishIndex (s : State) (j : Job) (p : Piece) : List Act :=
  let src := (unitsOf j.padm j.b.d).flatMap fun u => match spotsOf s j.b false p.tr u with | .ok xs => xs | .error _ => []
  if !(viewFree s 0 (spotBytes src)) then []
  else accessRows s (rowsOf (spotBytes src)) ++ endBanks p.opened j.ts false ++
    if (lowestPoison s (spotBytes src)).isSome then soleEnded j codePoison
    else [formed j (bagPieces j (src.filterMap fun x => match x with | .here a _ => some (word32 s.mem a) | _ => none))]

/-- The elements of a row that take part: those of DST that are not padding. -/
def bagCols (j : Job) : List Nat :=
  (List.range (dDim j.dst.d 0)).filter fun i => !(padAxis j.padm == 0 && padPos j.padm 0 (dDim j.dst.d 0) i)

/-- The units of row `r`. -/
def rowUnits (cols : List Nat) (r : Nat) : List Ix := cols.map fun i => (i, r, 0, 0)

/-- The rows of a bag that are not padding. -/
def bagRows (j : Job) (p : Piece) : List Nat :=
  (p.pairs.map fun x => x.1.2.1).filter fun r => !(padAxis j.padm == 1 && padPos j.padm 1 (dDim j.a.d 1) r)

/-- A `wred` piece starts: its rows go to the wheels of their homes, in bag order. -/
def startWred (s : State) (j : Job) (ix : Nat) (p : Piece) : List Act :=
  let cols := bagCols j
  let rows := bagRows j p
  match beginPiece s j ix false (rows.flatMap fun r => (rowUnits cols r).map fun u => (j.a, u))
      ((rowUnits cols p.row).map fun u => (j.dst, u)) with
  | .faults acts => acts ++ [.piece j.id ix fun q => { q with st := .faulted }]
  | .fails x acts => acts ++ pieceEnded j ix p x
  | .ok tr _ _ opened acts =>
    let pas (r : Nat) : List Nat := unitPas s j.a tr (rowUnits cols r)
    let dst := unitPas s j.dst tr (rowUnits cols p.row)
    if !(rows.all fun r => oneGranule (pas r)) || (dSpace j.dst.d == 1 && !oneGranule dst) then
      acts ++ pieceEnded j ix { p with opened } codeDescr
    else
      let homes := rows.foldl (fun acc r => setIns acc (channelOf ((pas r).headD 0)).val) []
      acts ++ [.piece j.id ix fun q => { q with st := .started, tr, opened }] ++
        homes.map fun h =>
          let mine := rows.filter fun r => (channelOf ((pas r).headD 0)).val == h
          wheelPush h (WheelJob.fresh j.id ix (mine.map fun r => (r, 0)) mine.length)

/-- Two rows added element by element, each sum rounded once (R46). -/
def addRows (a b : List W32) : List W32 :=
  List.zipWith (fun x y => (addV rnd32 .rne (FFmt.f32.dec x) (FFmt.f32.dec y)).1) a b

/-- The step of `wred`: one row of the bag in this home joins the accumulators; with the last one the partial sum
goes to the copy engine. -/
def wredStep (s : State) (h : Fin 512) (j : Job) (ix : Nat) (p : Piece) (w : WheelJob) : List Act :=
  let heads := unitHeads s j.a p.tr (rowUnits (bagCols j) ((w.rows.getD w.pos (0, 0)).1))
  let bad := w.poisoned || (lowestPoison s (wordBytes heads)).isSome
  let rows := touchRows s (rowsOf (wordBytes heads))
  let row := heads.map (word32 s.mem)
  let acc := match w.acc with | none => row | some a => addRows a row
  if w.pos + 1 < w.len then
    rows ++ [.home h fun x => { x with jobs := { w with pos := w.pos + 1, acc := some acc, poisoned := bad } :: x.jobs.tail }]
  else
    rows ++ [wheelPop h, .piece j.id ix fun q =>
      { q with sums := q.sums ++ [(h.val, acc)], lost := if bad then q.lost ++ [h.val] else q.lost }]

/-- Partial sums of homes in increasing home number are combined at the copy engine. -/
def combineSums (sums : List (Nat × List W32)) : Option (List W32) :=
  let order := sums.foldl (fun acc x => setIns acc x.1) []
  (order.filterMap fun h => (sums.find? fun x => x.1 == h).map Prod.snd).foldl
    (fun acc x => match acc with | none => some x | some a => some (addRows a x)) none

/-- A `wred` piece ends once its wheels have added its rows: the sum is written in one write, or nothing on poison.
A bag whose rows are all padding has no stated sum: its elements are free. -/
def endWred (s : State) (j : Job) (ix : Nat) (p : Piece) : List Act :=
  if !wheelsDone s j.id ix then []
  else if !p.lost.isEmpty then pieceEnded j ix p codePoison
  else
    let us := rowUnits (bagCols j) p.row
    if !(unitsThere s j.dst p.tr us) then pieceEnded j ix p codeAccess else
    let (ws, draw) : List W32 × List Act := match combineSums p.sums with
      | some ws => (ws.map canonical32, [])
      | none => ((List.range us.length).map fun i => bits (Config.freeWord (s.free + i)) 0 32, [.drawn us.length])
    let data := atUnits s j.dst p.tr us (ws.flatMap fun w => leBytes 4 w.toNat)
    if !(viewFree s 0 (data.map Prod.fst)) then [] else
    engineWrite s data [] ++ accessRows s (rowsOf (data.map Prod.fst)) ++ draw ++ pieceEnded j ix p codeOk

/-! ### `wstat` (R293) -/

/-- The addresses of the region: the bytes that BASE and the extents name, without padding (log entry 28). -/
def regionBytes (padm : W64) (d : Desc) : List Nat :=
  ((ixs (dDim d 0) (dDim d 1) (dDim d 2) (dDim d 3)).filter fun u =>
      let k := padAxis padm; !padPos padm k (dDim d k) (Ix.at u k)).map fun u =>
    dBase d + u.1 + dDim d 0 * (u.2.1 + dDim d 1 * (u.2.2.1 + dDim d 2 * u.2.2.2))

/-- The homes of a region under translations, rising. -/
def regionOf (tr : List Trans) (vas : List Nat) : List Nat :=
  vas.foldl (fun acc a => match held tr a with
    | some t => setIns acc (channelOf (t.pa * 4096 + a % 4096)).val
    | none => acc) []

/-- The units of record `k` of a `wstat` destination, without padding. -/
def recordUnits (j : Job) (k n : Nat) : List Ix :=
  ((List.range (4 * n)).map fun i => ((4 * k + i, 0, 0, 0) : Ix)).filter fun u => !padUnit j.padm j.dst.d u

/-- The region's homes are found and the pieces formed, one for each home reported; the last one writes the closing
record too when room remains. -/
def prepareWstat (s : State) (j : Job) : List Act :=
  let vas := regionBytes j.padm j.a.d
  let pages := distinctPages (vas.map fun a => (a, false))
  match translatePages s j.core j.part pages with
  | (.absent va w, acts) =>
    acts ++ (match raiseFault (applyActs s acts) (.piece j.id 0) j.core j.tag j.part j.ts 0 va w with
      | some fa => fa ++ soleFaulted j
      | none => soleEnded j codeAccess)
  | (.denied, acts) => acts ++ soleEnded j codeAccess
  | (.ok tr, acts) =>
    let room := dDim j.dst.d 0 / 4
    let homes := (regionOf tr vas).take room
    let n := homes.length
    let piece (i : Nat) (h : Nat) : Piece :=
      { Piece.fresh (samePairs (recordUnits j i (if i + 1 = n ∧ n < room then 2 else 1))) h none with exec := .wheel (fin 511 h) }
    acts ++ [formed j (if n = 0 then [Piece.fresh (samePairs (recordUnits j 0 1)) 0 none]
        else (List.range n).map fun i => piece i (homes.getD i 0)),
      .job j.id fun j => { j with tr }]

/-- A bank of the home is parked (R302). -/
def parked (s : State) (h : Fin 512) : Bool :=
  match (s.memStacks[fin 7 (h.val / 64)]).test with
  | some (pc, _, _, _) => pc.val == h.val % 64
  | none => false

/-- The record of a home (R293). -/
def statRecord (s : State) (h : Fin 512) : List Byte :=
  let x := s.homes[h]
  let state := if parked s h then 3 else if x.jobs.isEmpty then 0 else if x.suspended then 2 else 1
  leBytes 2 (0x2000 + h.val) ++ leBytes 2 state ++ leBytes 4 x.steps ++ leBytes 4 x.suspensions ++ leBytes 4 x.neighbours

/-- A `wstat` piece starts: the reading is taken when the command reaches the home, whose wheel then takes its step. -/
def startWstat (s : State) (j : Job) (ix : Nat) (p : Piece) : List Act :=
  match beginPiece s j ix false [] (p.pairs.map fun x => (j.dst, x.2)) with
  | .faults acts => acts ++ [.piece j.id ix fun q => { q with st := .faulted }]
  | .fails x acts => acts ++ pieceEnded j ix p x
  | .ok _ _ _ opened acts =>
    match p.exec with
    | .wheel h =>
      let rec_ := statRecord s h ++ List.replicate 16 0
      acts ++ [.piece j.id ix fun q =>
          { q with st := .started, opened, got := (List.range 32).map fun i => (i, rec_.getD i 0) },
        wheelPush h.val (WheelJob.fresh j.id ix [] 1)]
    | _ => acts ++ [.piece j.id ix fun q =>
        { q with st := .performed codeOk, opened, got := (List.range 16).map fun i => (i, 0) }]

/-- A `wstat` piece ends: its record is written. -/
def endWstat (s : State) (j : Job) (ix : Nat) (p : Piece) : List Act :=
  match p.st with
  | .performed x =>
    if !(unitsThere s j.dst [] (p.pairs.map Prod.snd)) then pieceEnded j ix p codeAccess else
    let first := match p.exec with | .wheel _ => 4 * ix | _ => 0
    let data := p.pairs.flatMap fun y =>
      let k := 4 * (y.2.1 - first)
      atUnits s j.dst [] [y.2] ((List.range 4).map fun i => ((p.got.find? fun g => g.1 == k + i).map Prod.snd).getD 0)
    engineWrite s data [] ++ pieceEnded j ix p x
  | _ => []

/-! ### Pseudo-channels -/

/-- MEMORY_REQUEST (R286, R296): the oldest request of a pseudo-channel is served; a poisoned sector stays so. -/
def memoryRequest (s : State) (h : Fin 512) : List Act :=
  let x := s.homes[h]
  match (List.range x.reqs.length).find? fun i => (x.reqs[i]?).any fun r => !r.served with
  | none => []
  | some i =>
    match x.reqs[i]? with
    | none => []
    | some r =>
      rowAccess s h r.bank r.row r.sectors ++
        [.home h fun x => { x with reqs := x.reqs.modify i fun r => { r with served := true } }]

/-- Every open row is precharged, and every owed refresh performed. -/
def refreshAll (thresh : Nat) (x : HomeSt) : HomeSt :=
  { (x.openRows.map Prod.fst).foldl (precharge thresh) x with owed := [], postponed := 0 }

/-- The parity failures that refreshing all banks of a home would show. -/
def refreshLog (s : State) (h : Fin 512) : List Act :=
  let x := s.homes[h]
  (x.openRows.filter fun o => !(counterOf x o.1 o.2).2).flatMap fun o =>
    [.hub fun y => let i : Fin 8 := fin 7 (h.val / 64)
      { y with rowlog := vset y.rowlog i (rowlogNote y.rowlog[i] (h.val % 64) o.1.val o.2) },
     .report (.parity h.val o.2)]

/-- REFRESH_INTERVAL (R296): a refresh is performed in a window with nothing else to do, postponed otherwise, and
forced after eight postponements, once no request is pending. -/
def refreshInterval (s : State) (h : Fin 512) : List Act :=
  let x := s.homes[h]
  if x.reqs.isEmpty && (x.jobs.isEmpty || decide (8 ≤ x.postponed)) then
    refreshLog s h ++ [.home h (refreshAll s.hub.thresh.toNat)]
  else [.home h fun x => { x with postponed := x.postponed + 1 }]

/-- A window before a step of the wheel: a refresh postponed for eight intervals, and the neighbour refreshes that are
owed, come first (R296, R299). -/
def windowActs (s : State) (h : Fin 512) : List Act :=
  (if 8 ≤ (s.homes[h]).postponed then refreshLog s h ++ [.home h (refreshAll s.hub.thresh.toNat)] else []) ++
    [.home h fun x => { x with suspended := false, owed := [] }]

/-- A step is counted (R293). -/
def stepCount (h : Fin 512) : Act := .home h fun x => { x with steps := min (x.steps + 1) 0xFFFFFFFF }

/-! ### Run-time self-test (R302, R303) -/

/-- STKTEST.EN. -/
def stkEn (w : W64) : Bool := bitAt w 15

/-- An update of a stack's STKTEST. -/
def stkAct (x : Fin 8) (f : W64 → W64) : Act := .hub fun h => { h with stktest := vset h.stktest x (f h.stktest[x]) }

/-- A 16-bit count saturates. -/
def satInc16 (w : W64) (lo : Nat) : W64 := setBits w lo (if bits w lo 16 = 0xFFFF#16 then 0xFFFF#16 else bits w lo 16 + 1)

/-- STACK_SELF_TEST_START (R302): with EN, the next bank whose pseudo-channel's spare is free. -/
def selfTestStart (s : State) (x : Fin 8) : List Act :=
  let t := s.memStacks[x]
  if !(stkEn s.hub.stktest[x]) || t.test.isSome || t.failed then []
  else
    match (List.range 2048).find? fun i =>
        let k := (t.next + i) % 2048
        (s.homes[fin 511 (x.val * 64 + k / 32)]).failedBank.isNone with
    | none => []
    | some i =>
      let k := (t.next + i) % 2048
      [.stack x fun y => { y with test := some (fin 63 (k / 32), fin 31 (k % 32), 0, 0), next := (k + 1) % 2048 }]

/-- The pseudo-channel under test has a window for background work, with no refresh still to come (R296, R383). -/
def quietHome (s : State) (x : Fin 8) (pc : Fin 64) : Bool :=
  let h := s.homes[fin 511 (x.val * 64 + pc.val)]
  h.jobs.isEmpty && h.reqs.isEmpty && h.postponed == 0 && h.owed.isEmpty

/-- The copy of a row of a bank under test, whose 128 sectors are transferred (R196, R299, R302). -/
def testCopy (s : State) (x : Fin 8) (pc : Fin 64) (b : Fin 32) (row : Nat) : List Act :=
  rowAccess s (fin 511 (x.val * 64 + pc.val)) b row 128

/-- SELF_TEST_PARK_ROW (R302): one row is copied to the spare bank and redirected; no location moves. -/
def selfTestPark (s : State) (x : Fin 8) : List Act :=
  match (s.memStacks[x]).test with
  | some (pc, b, 0, row) =>
    if !quietHome s x pc then []
    else testCopy s x pc b row ++
      [.stack x fun y => { y with test := some (if row + 1 < 8192 then (pc, b, 0, row + 1) else (pc, b, 1, 0)) }]
  | _ => []

/-- SELF_TEST_MARCH_END (R302, R303): a passing bank is restored; a failing one stays remapped, is recorded and is
reported. -/
def selfTestMarch (s : State) (x : Fin 8) (pass : Bool) : List Act :=
  match (s.memStacks[x]).test with
  | some (pc, b, 1, _) =>
    if pass then
      [stkAct x fun w => satInc16 w 32, .stack x fun y => { y with test := some (pc, b, 2, 0) }]
    else
      [stkAct x fun w => setBits (setBits (setBits (satInc16 w 48) 31 1#1) 25 (BitVec.ofNat 6 pc.val)) 20 (BitVec.ofNat 5 b.val),
       .home (fin 511 (x.val * 64 + pc.val)) fun h => { h with failedBank := some b },
       .stack x fun y => { y with test := none }, .report (.bank x.val (pc.val * 32 + b.val))]
  | _ => []

/-- SELF_TEST_RESTORE_ROW (R302): one row of a passing bank is copied back. -/
def selfTestRestore (s : State) (x : Fin 8) : List Act :=
  match (s.memStacks[x]).test with
  | some (pc, b, 2, row) =>
    if !quietHome s x pc then []
    else testCopy s x pc b row ++
      [.stack x fun y => { y with test := if row + 1 < 8192 then some (pc, b, 2, row + 1) else none }]
  | _ => []

end Sys2Proof.Machine
end

