-- ==== Sys2Proof/Machine/Tile.lean ====
section
/-! DEFINITION. The T slot (R206-R216, R225, R226, R237, R246): which descriptors a tile instruction names, its
checks at issue, and the instruction that starts at commit. -/

namespace Sys2Proof.Machine

/-- The operands of a tile instruction: those named, the block exponents of A and B, and the metadata of B. -/
inductive Role | dst | a | b | c | sa | sb | md
  deriving DecidableEq, Repr

/-- RM of MOD (R35, R212). -/
def modRm (m : BitVec 4) : Rm :=
  match (bits m 0 2).toNat with | 0 => .rne | 1 => .rtz | 2 => .rup | _ => .rdn
/-- SAT of MOD (R212). -/
def modSat (m : BitVec 4) : Bool := bitAt m 2
/-- BC, or ACC, of MOD (R212). -/
def modTop (m : BitVec 4) : Bool := bitAt m 3
/-- KIND of `tred` (R212). -/
def modKind (m : BitVec 4) : Nat := (bits m 2 2).toNat

/-- A contraction (R225, R226). -/
def contracts : TileOp → Bool
  | .mma | .spm => true
  | _ => false

/-- The sources an instruction names whose tensors it reads (R215): the value holder of `tfill` is none. -/
def tileSources (op : TileOp) (acc : Bool) : List Role :=
  match op with
  | .add | .sub | .mul | .max | .min => [.a, .b]
  | .abs | .cvt | .red => [.a]
  | .scl | .lut => [.a, .c]
  | .fill => []
  | .sel => [.a, .b, .c]
  | .mma | .spm => if acc then [.a, .b, .c] else [.a, .b]

/-- A register named through a field, when its index is not 0 (R207). -/
def namedBy (r : Role) (t : Fin 32) : List (Role × Fin 32) := if t.val = 0 then [] else [(r, t)]

/-- Every tensor a tile instruction names with its register: DST, A, B, C, through SCALE, through META (R393). The holder that
a contraction's destination names through SCALE is no tensor, and its FMT is not read (log entry 98). -/
def tileRoles (k : Cont) (op : TileOp) (o : TOps) : List (Role × Fin 32) :=
  [(.dst, o.dst)] ++ (tileSources op (modTop o.mod)).map (fun r => (r, match r with | .a => o.a | .b => o.b | _ => o.c)) ++
    (if contracts op then namedBy .sa (dScale k.t[o.a]) ++ namedBy .sb (dScale k.t[o.b]) else []) ++
    (if op = .spm then namedBy .md (dMeta k.t[o.b]) else [])

/-- The registers a tile instruction names directly: DST, then A, B and C (R393). -/
def tileNamed (k : Cont) (op : TileOp) (o : TOps) : List (Fin 32) :=
  ((tileRoles k op o).filter fun r => r.1 != .sa && r.1 != .sb && r.1 != .md).map Prod.snd

/-- The value holder of `tfill`, of which only FMT and the base are read (R220). -/
def tileHolder (op : TileOp) (o : TOps) : List (Fin 32) := if op = .fill then [o.a] else []

/-- The domain of a format (R214): true for the floating one; E8 has none. -/
def TFmt.domain : TFmt → Option Bool
  | .i32 => some false
  | .ni _ _ => some false
  | .e8 => none
  | _ => some true

/-- The operand may be E8 (R207, R27). -/
def e8Role (op : TileOp) : Role → Bool
  | .sa | .sb => true
  | .c => op == .scl
  | _ => false

/-- The spaces an operand may lie in (R216 reason 5). -/
def roleSpaces (op : TileOp) : Role → List Nat
  | .sa | .sb | .md => [0, 1]
  | .c => if contracts op then [0, 1, 2] else [0, 1]
  | _ => [0, 1, 2]

/-- The extents are these. -/
def extents (d : Desc) (n0 n1 n2 n3 : Nat) : Bool :=
  dDim d 0 == n0 && dDim d 1 == n1 && dDim d 2 == n2 && dDim d 3 == n3

/-- Extents as the destination's, or 1 under BC (R215). -/
def bcExtents (dst b : Desc) (bc : Bool) : Bool :=
  [0, 1, 2, 3].all fun k => dDim b k == dDim dst k || (bc && dDim b k == 1)

/-- The operands pair as R225 allows, and the accumulator's format. -/
def pairing (a b : Desc) (block : Bool) : Option TFmt :=
  let half (f : TFmt) : Bool := f == .bf16 || f == .f16
  if (dFmt a).isNi && (dFmt b).isNi then some (if block then .f32 else .i32)
  else if half (dFmt a) && half (dFmt b) && !block then some .f32
  else none

/-- Reason 3 on each register: shapes, domains and formats (R214, R215, R225, R226), and overrides on formats that are not
NI (R30). -/
def shapeBad (k : Cont) (op : TileOp) (o : TOps) (role : Role) : Bool :=
  let d := k.t[o.dst]
  let a := k.t[o.a]
  let b := k.t[o.b]
  let c := k.t[o.c]
  let top := modTop o.mod
  let dom (x : Desc) : Bool := (dFmt x).domain == (dFmt d).domain
  let forced (v : BitVec 3) (x : Desc) : Bool := v != 0#3 && !(dFmt x).isNi
  let sa := dScale a
  let sb := dScale b
  let md := dMeta b
  let pair := pairing a b (sa.val != 0 || sb.val != 0)
  let exps (t : Fin 32) (rows : Nat) : Bool :=
    t.val != 0 && (dFmt k.t[t] != .e8 || !extents k.t[t] (ceilDiv (dDim a 0) 32) rows 1 1)
  let rows (x : Desc) : Bool := [1, 2, 3].all fun i => dDim x i == dDim d i
  match role with
  | .dst => (match op with
    | .red => dDim d 0 != 1
    | .mma | .spm => !extents d (dDim b 1) (dDim a 1) 1 1
    | _ => false)
  | .a => forced o.pa a || (match op with
    | .cvt => !sameDims d a
    | .fill => !(fmtBad a false) && decide (3 < (bits a 66 6).toNat)
    | .lut => !sameDims d a || (dFmt a).domain != some true
    | .red => !rows a || !dom a
    | .mma | .spm => pair.isNone || !extents a (dDim a 0) (dDim a 1) 1 1
    | _ => !sameDims d a || !dom a)
  | .b => forced o.pb b || (match op with
    | .mma => !extents b (dDim a 0) (dDim b 1) 1 1
    | .spm => !extents b (dDim a 0) (dDim b 1) 1 1 || md.val == 0
    | _ => !bcExtents d b top || !dom b)
  | .c => (match op with
    | .scl => dFmt c != .e8 || !extents c (ceilDiv (dDim d 0) 32) (dDim d 1) (dDim d 2) (dDim d 3)
    | .sel => (dFmt c).domain != some false || !sameDims b c
    | .lut => dFmt c != .f32 || !extents c 130 1 1 1
    | _ => (pair.isSome && pair != some (dFmt c)) || !extents c (dDim b 1) (dDim a 1) 1 1)
  | .sa => exps sa (dDim a 1)
  | .sb => exps sb (dDim b 1)
  | .md => dFmt k.t[md] != .i32 || !extents k.t[md] (ceilDiv (dDim a 0) 12) (dDim b 1) 1 1

/-- The bounds of R209 on a descriptor in space 2. -/
def columnBad (d : Desc) : Bool :=
  let off := dBase d % 2 ^ 23
  dSpace d == 2 && (dDim d 2 != 1 || dDim d 3 != 1 || decide (256 < off / 0x6000 + dDim d 1) ||
    decide (0x6000 < off % 0x6000 + units0 d * (dFmt d).unit))

/-- Reserved bits, PAD, and SCALE or META where R207 allows none. -/
def fieldBad (op : TileOp) (r : Role) (d : Desc) : Bool :=
  bits d 234 22 != 0#22 ||
    (r == .dst && dPad d != 0 && (decide (1 < dPad d) || !(dFmt d).isNi)) ||
    ((dScale d).val != 0 && !(contracts op && (r == .dst || r == .a || r == .b))) ||
    ((dMeta d).val != 0 && !(op == .spm && r == .b))

/-- The bytes an operand addresses as ranges, lowest to highest, each with what holds it: the banks of space 0, the
whole of spaces 1 and 2 (R216; log entry 31). A window that is not mapped has no bank. -/
def byteRanges (k : Cont) (c : Fin 256) (padm : W64) (d : Desc) : List (Nat × Int × Int) :=
  let segs : List (Int × Nat) := (unitsOf padm d).flatMap fun u => unitSegs d true false u
  let add (acc : List (Nat × Int × Int)) (x : Nat × Int × Int) : List (Nat × Int × Int) :=
    if acc.any fun y => y.1 == x.1 then
      acc.map fun y => if y.1 = x.1 then (y.1, min y.2.1 x.2.1, max y.2.2 x.2.2) else y
    else acc ++ [x]
  segs.foldl (fun acc x =>
    let a := x.1
    let z : Int := a + (x.2 : Int) - 1
    if dSpace d = 0 then
      let w := k.entry (BitVec.ofNat 8 (a.toNat / 65536))
      if w.v then add acc ((bankOf c w.bank).val, a % 65536, z % 65536) else acc
    else add acc (4096 + dSpace d, a, z)) []

/-- Two lists of ranges meet. -/
def rangesMeet (xs ys : List (Nat × Int × Int)) : Bool :=
  xs.any fun x => ys.any fun y => x.1 == y.1 && decide (x.2.1 ≤ y.2.2) && decide (y.2.1 ≤ x.2.2)

/-- A source may be identical to the destination: an elementwise source, or the accumulator (R216). -/
def inPlaceRole (op : TileOp) (r : Role) : Bool :=
  match op with
  | .red | .fill => false
  | .mma | .spm => r == .c
  | .scl | .lut => r == .a
  | _ => true

/-- A source overlaps the destination (R216). -/
def overlapBad (k : Cont) (c : Fin 256) (padm : W64) (op : TileOp) (dst : Fin 32) (x : Role × Fin 32) : Bool :=
  let d := k.t[dst]
  let y := k.t[x.2]
  x.1 != .dst && !(inPlaceRole op x.1 && bits y 0 210 == bits d 0 210) &&
    rangesMeet (byteRanges k c padm d) (byteRanges k c padm y)

/-- The plane count of an operand's reads or writes (R30, R31). -/
def planesOf (d : Desc) (ov : BitVec 3) : Nat :=
  match dFmt d with
  | .ni k _ => if ov = 0#3 then k else ov.toNat
  | _ => 0

/-- The bytes counted for a unit of an operand (R229). -/
def unitBytes (d : Desc) (ov : BitVec 3) : Nat :=
  match dFmt d with
  | .ni _ _ => 32 * planesOf d ov
  | f => f.unit

/-- The positions of axis `k` that are not padding. -/
def validDim (padm : W64) (d : Desc) (k : Nat) : Nat := countBelow (dDim d k) fun i => !padPos padm k (dDim d k) i

/-- A contraction whose B has a byte at slice offset 0x4000 or above (R232). -/
def stagedBytes (b : Desc) : Bool :=
  dSpace b == 2 && decide (0x4000 < dBase b % 2 ^ 23 % 0x6000 + units0 b * (dFmt b).unit)

/-- A list with each entry once, in the order of first occurrence. -/
def distinct {α : Type} [BEq α] (xs : List α) : List α :=
  xs.foldl (fun acc x => if acc.contains x then acc else acc ++ [x]) []

/-- The first `n` bytes of segments, each with an address and a length. -/
def firstSegs : Nat → List (Int × Nat) → List (Int × Nat)
  | _, [] => []
  | n, (a, len) :: xs => if n = 0 then [] else (a, min n len) :: firstSegs (n - len) xs

/-- The bytes of R229 that an operand counts for a whole instruction, at issue: each stored byte once. -/
def issueBytes (k : Cont) (c : Fin 256) (padm : W64) (d : Desc) (v : BitVec 3) : Nat :=
  let place (a : Int) : Int :=
    if dSpace d = 0 then (bankOf c (k.entry (BitVec.ofNat 8 (a.toNat / 65536))).bank).val * 65536 + a % 65536 else a
  let segs := (unitsOf padm d).flatMap fun u => firstSegs (unitBytes d v) (unitSegs d true false u)
  (distinct (segs.map fun x => (place x.1, x.2))).foldl (fun n x => n + x.2) 0

/-- The whole instruction would rise: 2·M·N·K against RISE and the bytes of A, B, C and DST (R231, R232). -/
def wholeRises (k : Cont) (c : Fin 256) (padm : W64) (rise : Nat) (o : TOps) : Bool :=
  let a := k.t[o.a]
  let b := k.t[o.b]
  let d := k.t[o.dst]
  let n (x : Desc) (v : BitVec 3) : Nat := issueBytes k c padm x v
  let bytes := n a o.pa + n b o.pb + n d 0#3 + (if modTop o.mod then n k.t[o.c] 0#3 else 0)
  decide (rise * bytes ≤ 2 * validDim padm a 1 * validDim padm b 1 * validDim padm a 0)

/-- RISE of a partition (R231). -/
def riseOf (s : State) (p : Fin 16) : Nat := (bits (s.parts[p]).rise 0 11).toNat

/-- Every descriptor condition of R216 on a tile instruction; within a reason registers stand in the order of R393. -/
def tileBads (e : Env) (op : TileOp) (o : TOps) : List Bad :=
  let k := e.k
  let padm := k.padm
  let rs := tileRoles k op o
  let named := rs ++ (tileHolder op o).map fun t => (.a, t)
  let formats := rs.any fun x => fmtBad k.t[x.2] true
  let common := rs.flatMap fun x => commonBad padm k.t[x.2] x.2 (e8Role op x.1) true (roleSpaces op x.1)
  let last (x : Role × Fin 32) : Bool :=
    fieldBad op x.1 k.t[x.2] || (!fmtBad k.t[x.2] true && columnBad k.t[x.2]) ||
      (!formats && (overlapBad k e.c padm op o.dst x ||
        (x.1 == .b && contracts op && stagedBytes k.t[o.b] && wholeRises k e.c padm (riseOf e.s k.part) o)))
  common ++ (tileHolder op o).flatMap (fun t => bad (fmtBad k.t[t] false) 1 t) ++
    named.flatMap (fun x => bad (shapeBad k op o x.1) 3 x.2) ++
    (if tagBusy k o.tag || e.copyTag == some o.tag then [(6, o.tag.val)] else []) ++ rs.flatMap fun x => bad (last x) 8 x.2

/-- The instruction that a T slot starts. -/
def tileJob (e : Env) (w : Work) (op : TileOp) (o : TOps) (queued : Bool) : NewJob :=
  let k := e.k
  let rs := tileRoles k op o
  let get (r : Role) : Option Opnd := (rs.find? fun x => x.1 == r).map fun x => resolve k e.c k.padm k.t[x.2]
  let mask : Half := if o.cls = 0 then rs.foldl (fun m x => m ||| classMask (dClass k.t[x.2])) 0 else classMask o.cls
  { work := w, queue := fin 7 o.tq.val, tag := o.tag, cls := if queued then mask else 0
    dst := (get .dst).getD Opnd.none
    a := if op = .fill then ⟨k.t[o.a], []⟩ else (get .a).getD Opnd.none
    b := (get .b).getD Opnd.none, c := (get .c).getD Opnd.none
    sa := get .sa, sb := get .sb, metaOp := get .md, scale := bits k.t[dScale k.t[o.dst]] 0 32, mod := o.mod
    pa := o.pa, pb := o.pb, noRise := contracts op && stagedBytes k.t[o.b], queued }

/-- A tile instruction's checks at issue and its start at commit (R216, R246). -/
def tileIssue (w : Work) (op : TileOp) (o : TOps) (queued : Bool) : Eff := fun e =>
  match namedPoison e (tileNamed e.k op o) (tileHolder op o) with
  | some t => .error t
  | none =>
    match firstBad (tileBads e op o) with
    | some b => .error (descrOf b)
    | none =>
      match windowTrap e.k e.k.padm ((tileRoles e.k op o).map fun x => e.k.t[x.2]) with
      | some t => .error t
      | none => .ok { acts := startJob e (tileJob e w op o queued) }

/-- `tnop` (R69). -/
def effTnop : Eff := effNone
/-- `tadd` (R210, R212). -/
def effTadd (o : TOps) : Eff := tileIssue (.tile .add) .add o true
/-- `tsub` (R210, R212). -/
def effTsub (o : TOps) : Eff := tileIssue (.tile .sub) .sub o true
/-- `tmul` (R210, R212). -/
def effTmul (o : TOps) : Eff := tileIssue (.tile .mul) .mul o true
/-- `tmax` (R210, R212). -/
def effTmax (o : TOps) : Eff := tileIssue (.tile .max) .max o true
/-- `tmin` (R210, R212). -/
def effTmin (o : TOps) : Eff := tileIssue (.tile .min) .min o true
/-- `tabs` (R210, R212). -/
def effTabs (o : TOps) : Eff := tileIssue (.tile .abs) .abs o true
/-- `tcvt` (R210, R212). -/
def effTcvt (o : TOps) : Eff := tileIssue (.tile .cvt) .cvt o true
/-- `tscl` (R210, R212). -/
def effTscl (o : TOps) : Eff := tileIssue (.tile .scl) .scl o true
/-- `tfill` (R210, R212). -/
def effTfill (o : TOps) : Eff := tileIssue (.tile .fill) .fill o true
/-- `tsel` (R210, R212). -/
def effTsel (o : TOps) : Eff := tileIssue (.tile .sel) .sel o true
/-- `tlut` (R210, R212). -/
def effTlut (o : TOps) : Eff := tileIssue (.tile .lut) .lut o true
/-- `tred` (R210, R212). -/
def effTred (o : TOps) : Eff := tileIssue (.tile .red) .red o true
/-- `tmma` (R210, R212). -/
def effTmma (o : TOps) : Eff := tileIssue (.tile .mma) .mma o true
/-- `tspm` (R210, R212). -/
def effTspm (o : TOps) : Eff := tileIssue (.tile .spm) .spm o true

/-- `place` (R237): every check of the queried instruction; nothing is executed, and no tile queue is used. -/
def effPlace (op : TileOp) (o : TOps) : Eff := tileIssue (.place op) op o false

end Sys2Proof.Machine
end

