-- ==== Sys2Proof/Machine/Miller.lean ====
section
/-! DEFINITION. The miller (R208, R229-R236, R353): homes, placement and cutting; what a placed piece reads, computes
and writes (R217-R227); the end of a piece (R239-R241); stones (R228) and tile pieces at wheels (R295). -/

namespace Sys2Proof.Machine

/-! ### Operands of a tile job -/

/-- The operation of a tile job or of a `place`. -/
def Job.tileOp (j : Job) : TileOp :=
  match j.work with
  | .tile op | .place op => op
  | _ => .add

/-- The operand of a role. -/
def Job.opnd (j : Job) (r : Role) : Opnd :=
  match r with
  | .dst => j.dst | .a => j.a | .b => j.b | .c => j.c
  | .sa => j.sa.getD Opnd.none | .sb => j.sb.getD Opnd.none | .md => j.metaOp.getD Opnd.none

/-- The tensors a tile job reads. -/
def Job.sources (j : Job) : List Role :=
  tileSources j.tileOp (modTop j.mod) ++ (if j.sa.isSome then [.sa] else []) ++ (if j.sb.isSome then [.sb] else []) ++
    (if j.metaOp.isSome then [.md] else [])

/-- The plane override of a role. -/
def Job.override (j : Job) (r : Role) : BitVec 3 :=
  match r with
  | .a => j.pa
  | .b => j.pb
  | _ => 0

/-- The bytes of a unit that a job reads or writes (R29, R31). -/
def Job.unitBytes (j : Job) (r : Role) : Nat := Machine.unitBytes (j.opnd r).d (j.override r)

/-- The elements along the axis that links cut: K, or d0 of `tred` (R234). -/
def Job.kSpan (j : Job) : Nat :=
  if contracts j.tileOp || j.tileOp == .red then dDim j.a.d 0 else 0

/-- An element's place in a broadcast operand (R215). -/
def bcIx (d : Desc) (e : Ix) : Ix :=
  let f (k : Nat) : Nat := if dDim d k = 1 then 0 else Ix.at e k
  (f 0, f 1, f 2, f 3)

/-- The elements of a source that a destination element needs (R215-R226), with links from `lo` to `hi`. -/
def Job.needsOf (j : Job) (r : Role) (lo hi : Nat) (e : Ix) : List Ix :=
  match j.tileOp, r with
  | _, .dst => [e]
  | .scl, .c => [(e.1 / 32, e.2.1, e.2.2.1, e.2.2.2)]
  | .lut, .c => (List.range 130).map fun i => (i, 0, 0, 0)
  | .red, .a => (upTo lo hi).map fun k => (k, e.2.1, e.2.2.1, e.2.2.2)
  | .mma, .a | .spm, .a => (upTo lo hi).map fun k => (k, e.2.1, 0, 0)
  | .mma, .b | .spm, .b => (upTo lo hi).map fun k => (k, e.1, 0, 0)
  | .mma, .sa | .spm, .sa => (upTo (lo / 32) (ceilDiv hi 32)).map fun k => (k, e.2.1, 0, 0)
  | .mma, .sb | .spm, .sb => (upTo (lo / 32) (ceilDiv hi 32)).map fun k => (k, e.1, 0, 0)
  | .spm, .md => (upTo (lo / 12) (ceilDiv hi 12)).map fun k => (k, e.1, 0, 0)
  | .mma, .c | .spm, .c => [e]
  | _, _ => [bcIx (j.opnd r).d e]

/-- An element is not padding (R114). -/
def notPad (padm : W64) (d : Desc) (e : Ix) : Bool :=
  let k := padAxis padm
  !padPos padm k (dDim d k) (Ix.at e k)

/-- The unit of an element. -/
def unitIx (d : Desc) (e : Ix) : Ix := if (dFmt d).isNi then (e.1 / 256, e.2) else e

/-- The units of a role that destination elements need. -/
def Job.unitsFor (j : Job) (r : Role) (lo hi : Nat) (es : List Ix) : List Ix :=
  let d := (j.opnd r).d
  distinct (((es.flatMap (j.needsOf r lo hi)).filter (notPad j.padm d)).map (unitIx d))

/-- The destination elements of a tile job, in index order, without padding. -/
def Job.elements (j : Job) : List Ix :=
  let d := j.dst.d
  (unitsOf j.padm d).flatMap fun u =>
    if (dFmt d).isNi then
      ((List.range 256).filter fun e => !padElem j.padm d u e).map fun e => (256 * u.1 + e, u.2)
    else [u]

/-- The first `n` bytes of local spots, each with an address and a length. -/
def firstBytes : Nat → List Spot → List (Nat × Nat)
  | _, [] => []
  | n, .here pa len :: xs => if n = 0 then [] else (pa, min n len) :: firstBytes (n - len) xs
  | n, .away _ _ _ :: xs => firstBytes n xs

/-- The parts of a unit that are read or written, or the code its piece ends with. -/
def unitParts (s : State) (j : Job) (r : Role) (u : Ix) : Except (BitVec 4) (List (Nat × Nat)) :=
  match spotsOf s (j.opnd r) true j.tr u with
  | .ok xs => .ok (firstBytes (j.unitBytes r) xs)
  | .error x => .error x

/-- The addresses of the bytes of a unit that are read or written, or the code its piece ends with. -/
def unitSpan (s : State) (j : Job) (r : Role) (u : Ix) : Except (BitVec 4) (List Nat) :=
  (unitParts s j r u).map fun xs => xs.flatMap fun x => (List.range x.2).map (x.1 + ·)

/-! ### Counting and placing (R229-R232) -/

/-- One counted unit: its role, its home, its bytes. -/
abbrev Tally := List (Role × Half × Nat)

/-- The bytes of every operand that a piece reads or writes, by home (R229). -/
def tally (s : State) (j : Job) (lo hi : Nat) (es : List Ix) : Tally :=
  (.dst :: j.sources).flatMap fun r =>
    let parts := (j.unitsFor r lo hi es).flatMap fun u => match unitParts s j r u with
      | .ok xs => xs
      | .error _ => []
    (distinct parts).map fun x => (r, homeOf x.1, x.2)

/-- The bytes counted in a home. -/
def Tally.at (t : Tally) (h : Half) : Nat := (t.filter fun x => x.2.1 == h).foldl (fun n x => n + x.2.2) 0

/-- The bytes counted for the operands in a list. -/
def Tally.of (t : Tally) (rs : List Role) : Nat := (t.filter fun x => rs.contains x.1).foldl (fun n x => n + x.2.2) 0

/-- A tile or stack home. -/
def worksThere (h : Half) : Bool := (bits h 12 4 : BitVec 4) == 1 || (bits h 12 4 : BitVec 4) == 2

/-- The home chosen by R230. -/
def bestHome (t : Tally) (dhome own : Half) : Half :=
  let homes := (distinct (t.map fun x => x.2.1)).filter worksThere
  let most := homes.foldl (fun m h => max m (t.at h)) 0
  let tied := homes.filter fun h => t.at h == most
  if homes.isEmpty then own
  else if tied.contains dhome then dhome
  else tied.foldl (fun m h => if h.toNat < m.toNat then h else m) (tied.headD own)

/-- The die of a home (R12, R14). -/
def dieOfHome (h : Half) : Nat :=
  let n := h.toNat % 4096
  if (bits h 12 4 : BitVec 4) = 2 then n / 64 / 2 else n / 16

/-- The quern that runs a piece placed at a tile's home: its own, or another's while tiles are braked (R353), or gated (R390;
log entry 89). -/
def quernFor (s : State) (t : Fin 64) : Option (Fin 64) :=
  let q := t.val / 4 * 4
  let near := [0, 1, 2, 3].map fun i => fin 63 (q + (t.val + i) % 4)
  let die := (List.range 16).map fun i => fin 63 (t.val / 16 * 16 + i)
  (near ++ die).find? fun x => !(s.tiles[x]).braked && !(s.cores[fin 255 (4 * x.val)]).gated

/-- The stone of a die with the fewest jobs, the lowest number winning a tie; braked stones, and those without
power, are passed over (R232, R353, R390). -/
def leastStone (s : State) (die : Nat) (extra : List (Fin 64)) : Option (Fin 64) :=
  let load (x : Fin 64) : Nat := (s.stones[x]).jobs.length + extra.count x
  ((List.range 16).map fun i => fin 63 (die * 16 + i)).foldl (fun m x =>
    if (s.stones[x]).braked || !(stonePowered s x) then m else
    match m with
    | none => some x
    | some y => if load x < load y then some x else m) none

/-- The stone that holds an operand in space 2 (R209). -/
def stoneOf (d : Desc) : Fin 64 := fin 63 (dBase d / 2 ^ 23 % 64)

/-- A contraction piece rises (R231). -/
def rises (j : Job) (t : Tally) (es : List Ix) : Bool :=
  let m := (distinct (es.map fun e => e.2.1)).length
  let n := (distinct (es.map Prod.fst)).length
  contracts j.tileOp && !j.noRise &&
    decide (j.rise * t.of [.a, .b, .c, .dst] ≤ 2 * m * n * validDim j.padm j.a.d 0)

/-- Where a piece executes: its executor, its home, and the code it ends with when it has none. -/
structure Placing where
  exec : Exec
  home : Half
  fixed : Option (BitVec 4)

/-- The executor of a piece at a home (R13, R230, R353). -/
def executorAt (s : State) (h : Half) : Placing :=
  if (bits h 12 4 : BitVec 4) = 2 then ⟨.wheel (fin 511 (h.toNat % 512)), h, none⟩
  else match quernFor s (fin 63 (h.toNat % 64)) with
    | some t => ⟨.quern t, h, none⟩
    | none => ⟨.quern (fin 63 (h.toNat % 64)), h, some codeAccess⟩

/-- The die whose stones take a piece that rises: its destination's, or the issuing core's while that one's floor is gated
(R232, R390). -/
def stoneDie (s : State) (j : Job) (dhome : Half) : Nat :=
  if (s.dies[fin 3 (dieOfHome dhome)]).poweredDown then j.core.val / 64 else dieOfHome dhome

/-- A piece is placed (R230-R232). -/
def placePiece (s : State) (j : Job) (extra : List (Fin 64)) (dhome : Half) (es : List Ix) : Placing :=
  let t := tally s j 0 j.kSpan es
  let low := executorAt s (bestHome t dhome (tileHome (tileOf j.core).val))
  let b := j.b.d
  if contracts j.tileOp && dSpace b == 2 && ((s.stones[stoneOf b]).braked || !(stonePowered s (stoneOf b))) then { low with fixed := some codeAccess }
  else if !rises j t es then low
  else if dSpace b = 2 then ⟨.stone (stoneOf b), stoneHome (stoneOf b).val, none⟩
  else match leastStone s (stoneDie s j dhome) extra with
    | some x => ⟨.stone x, stoneHome x.val, none⟩
    | none => low

/-! ### Cutting (R233, R234) -/

/-- The home of a destination element. -/
def destHome (s : State) (j : Job) (e : Ix) : Half :=
  match unitSpan s j .dst (unitIx j.dst.d e) with
  | .ok (a :: _) => homeOf a
  | _ => 0

/-- Elements grouped by a key, the groups in the order of their first elements. -/
def groupBy {β : Type} [BEq β] (key : Ix → β) (es : List Ix) : List (List Ix) :=
  (distinct (es.map key)).map fun k => es.filter fun e => key e == k

/-- Element `e` of a destination group keeps its bits (R207). -/
def keepsElem (j : Job) (u : Ix) (e : Nat) : Bool :=
  padElem j.padm j.dst.d u e && !(dPad j.dst.d == 1 && decide (dDim j.dst.d 0 ≤ 256 * u.1 + e))

/-- A destination group has bits that a piece leaves as they are: its old bytes are read (R207, R235). -/
def keepsBits (j : Job) (u : Ix) : Bool := (dFmt j.dst.d).isNi && (List.range 256).any (keepsElem j u)

/-- The sectors of destination groups with bits that a piece leaves as they are: it writes them in part (R224). -/
def keptSectors (s : State) (j : Job) (es : List Ix) : List Nat :=
  if !(dFmt j.dst.d).isNi then [] else
  (j.unitsFor .dst 0 0 es).flatMap fun u => match unitSpan s j .dst u with
    | .ok xs => blocksOf 32 (((List.range xs.length).filter fun i =>
        (List.range 8).any fun b => keepsElem j u (i % 32 * 8 + b)).map fun i => xs.getD i 0)
    | .error _ => []

/-- The old bytes of the destination that a piece reads (R235). -/
def oldReads (s : State) (j : Job) (p : Piece) : List Nat :=
  if !p.last then [] else
  ((j.unitsFor .dst 0 0 (p.pairs.map Prod.fst)).filter (keepsBits j)).flatMap fun u => match unitSpan s j .dst u with
    | .ok xs => xs
    | .error _ => []

/-- The bytes shipped to an executor (R234, R235). -/
def shipped (s : State) (j : Job) (p : Placing) (lo hi : Nat) (es : List Ix) : Nat :=
  let t := tally s j lo hi es
  match p.exec with
  | .stone _ => Tally.of (t.filter fun x => x.2.1 != p.home) [.a]
  | _ =>
    let there := (t.filter fun x => x.1 != .dst && x.2.1 != p.home).foldl (fun n x => n + x.2.2) 0
    let old := if (dFmt j.dst.d).isNi then
        ((j.unitsFor .dst 0 0 es).filter (keepsBits j)).foldl (fun n u => match unitSpan s j .dst u with
          | .ok (a :: as) => if homeOf a = p.home then n else n + as.length + 1
          | _ => n) 0
      else 0
    there + old

/-- The staging buffer of an executor (R234). -/
def capacity : Exec → Nat
  | .quern _ => 262144
  | .wheel _ => 16384
  | .stone _ => 65536

/-- The key along which a dimension is cut: NI destinations are cut between groups, others between elements (R234; log entry 91). -/
def cutKey (j : Job) (k : Nat) (e : Ix) : Nat := if k = 0 ∧ (dFmt j.dst.d).isNi then e.1 / 256 else Ix.at e k

/-- Largest prefixes that fit, along the outermost dimension with an extent above 1; an index that does not fit is cut
at the next inner dimension (R234 steps 1 and 2). -/
def cutFit (j : Job) (fits : List Ix → Bool) : Nat → List Ix → List (List Ix)
  | 0, es => [es]
  | n + 1, es =>
    if fits es then [es]
    else
      let (out, cur) := (groupBy (cutKey j n) es).foldl (fun (acc : List (List Ix) × List Ix) g =>
        if !acc.2.isEmpty && fits (acc.2 ++ g) then (acc.1, acc.2 ++ g)
        else
          let out := if acc.2.isEmpty then acc.1 else acc.1 ++ [acc.2]
          if fits g then (out, g) else (out ++ cutFit j fits n g, [])) ([], [])
      if cur.isEmpty then out else out ++ [cur]

/-- A stone stages B (R232). -/
def stages (j : Job) (p : Placing) : Bool :=
  match p.exec with
  | .stone _ => dSpace j.b.d != 2
  | _ => false

/-- The 256-element chunks of K that one link may take (R234 step 4). -/
def chunkLimit (j : Job) (p : Placing) : Nat :=
  if stages j p then 8192 / (if (dFmt j.b.d).isNi then j.unitBytes .b else 512) else 65536

/-- The links of a piece, as ranges of K: each takes as many chunks of 256 as fit, and at least one (R234 steps 3
and 4). -/
def linksFrom (s : State) (j : Job) (p : Placing) (es : List Ix) : Nat → Nat → Nat → List (Nat × Nat)
  | 0, _, _ => []
  | fuel + 1, lo, hi =>
    let n := ((upTo 1 (chunkLimit j p + 1)).takeWhile fun n =>
      n == 1 || (decide (lo + 256 * (n - 1) < hi) &&
        decide (shipped s j p lo (min hi (lo + 256 * n)) es ≤ capacity p.exec))).length
    let z := min hi (lo + 256 * max n 1)
    if z < hi then (lo, z) :: linksFrom s j p es fuel z hi else [(lo, hi)]

/-- A placed piece cut to fit its executor: each part with its links (R234). A stone's column blocks of 256 are counted from
column 0 (log entry 91). -/
def cutPlaced (s : State) (j : Job) (p : Placing) (es : List Ix) : List (List Ix × List (Nat × Nat)) :=
  let k := j.kSpan
  let parts := cutFit j (fun es => decide (shipped s j p 0 k es ≤ capacity p.exec)) 4 es
  let parts := if stages j p then parts.flatMap (groupBy fun e => e.1 / 256) else parts
  parts.map fun es =>
    let whole := decide (shipped s j p 0 k es ≤ capacity p.exec) && decide (ceilDiv k 256 ≤ chunkLimit j p)
    (es, if whole || k == 0 then [(0, k)] else linksFrom s j p es (ceilDiv k 256) 0 k)

/-- The pieces of a placed part, its links in order, numbered from `base`. -/
def linkPieces (p : Placing) (dhome : Half) (base : Nat) (es : List Ix) (links : List (Nat × Nat)) : List Piece :=
  (List.range links.length).map fun i =>
    let l := links.getD i (0, 0)
    { Piece.fresh (samePairs es) p.home.toNat p.fixed with
      exec := p.exec, dhome, first := base, kLo := l.1, kHi := l.2, last := i + 1 == links.length }

/-- The pieces of one home's elements. -/
def piecesOf (s : State) (j : Job) (extra : List (Fin 64)) (base : Nat) (dhome : Half) (es : List Ix) : List Piece :=
  let p := placePiece s j extra dhome es
  (cutPlaced s j p es).foldl (fun acc x => acc ++ linkPieces p dhome (base + acc.length) x.1 x.2) []

/-- The pieces of a tile instruction (R233, R234). -/
def placeAll (s : State) (j : Job) : List Piece :=
  (groupBy (destHome s j) j.elements).foldl (fun acc es =>
    let extra := acc.filterMap fun p => match p.exec with | .stone x => some x | _ => none
    acc ++ piecesOf s j extra acc.length (destHome s j (es.headD (0, 0, 0, 0))) es) []

/-- The home in which a piece executes (R14). -/
def execHome (p : Piece) : Half :=
  match p.exec with
  | .quern t => tileHome t.val
  | .wheel h => stackHome h.val
  | .stone x => stoneHome x.val

/-! ### MILLER_PLACEMENT -/

/-- Every unit that a tile job needs translated, the destination first (R208). -/
def tileUnits (j : Job) : List (Opnd × Bool × Ix) :=
  (.dst :: j.sources).flatMap fun r =>
    let o := j.opnd r
    (unitsOf j.padm o.d).map fun u => (o, r == .dst, u)

/-- The status word of a `place` (R238); that of one which has no piece holds home 0 (log entry 106). -/
def placeWord (j : Job) (ps : List Piece) (code : Nat) : W128 :=
  let (home, risen) : Nat × Bool := match ps with
    | p :: _ => (match p.exec with | .stone x => ((stoneHome x.val).toNat, true) | _ => (p.row, false))
    | [] => (0, false)
  BitVec.ofNat 128 (ps.length * 2 ^ 96 + home * 2 ^ 80 + (if risen then 2 ^ 68 else 0) + code * 2 ^ 64 + j.ts.toNat)

/-- The engine accesses of a tile piece (R155, R156, R235): its reads, and where it drains its writes, with the reads of
the old bytes of groups whose padding bits it keeps. -/
def tileUses (s : State) (j : Job) (p : Piece) : List (Fin 4096 × Bool × Byte) :=
  let es := p.pairs.map Prod.fst
  let of_ (r : Role) (write : Bool) (want : Ix → Bool) : List (Fin 4096 × Bool × Byte) :=
    (banksOf ((((j.unitsFor r p.kLo p.kHi es).filter want).map fun u => match unitSpan s j r u with
      | .ok xs => xs.map fun a => Spot.here a 1
      | .error _ => []).flatten)).map fun b => (b, write, dBuf (j.opnd r).d)
  distinct (j.sources.flatMap (fun r => of_ r false fun _ => true) ++
    (if p.last then of_ .dst false (keepsBits j) ++ of_ .dst true (fun _ => true) else []))

/-- The staging steps of reads, or of writes, over addresses in order: at most 1,536 bytes in at most two DRAM rows
each (R295). -/
def stepsOf (xs : List Nat) : List (List Nat) :=
  let add (acc : List (List Nat)) (a : Nat) : List (List Nat) :=
    match acc with
    | cur :: rest =>
      if cur.length < 1536 ∧ (setIns (blocksOf 4096 cur) (a / 4096)).length ≤ 2 then (cur ++ [a]) :: rest
      else [a] :: cur :: rest
    | [] => [[a]]
  (xs.foldl add []).reverse

/-- The addresses that a piece reads at its wheel's own pseudo-channel: its operands, and the old bytes of its destination. -/
def residentReads (s : State) (j : Job) (p : Piece) : List Nat :=
  let es := p.pairs.map Prod.fst
  distinct ((j.sources.flatMap (fun r => (j.unitsFor r p.kLo p.kHi es).flatMap fun u => match unitSpan s j r u with
    | .ok xs => xs
    | .error _ => []) ++ oldReads s j p).filter fun a => homeOf a == execHome p)

/-- The jobs that the stones which hold operands of a piece are executing, its own executor aside (R19, R179). -/
def operandsBusy (s : State) (j : Job) (p : Piece) : List (Nat × Nat) :=
  distinct (((.dst :: j.sources).filter fun r => dSpace (j.opnd r).d == 2).filterMap fun r =>
    let x := stoneOf (j.opnd r).d
    if p.exec == .stone x then none else s.executing x)

/-- A stone takes no job: it is braked (R353), or its die is gated (R390). -/
def stoneStops (s : State) (x : Fin 64) : Bool := (s.stones[x]).braked || !(stonePowered s x)

/-- A piece of a placed job is started: its banks' accesses begin, and its wheel or stone receives it. -/
def startTile (s : State) (j : Job) (ix : Nat) (p : Piece) : List Act :=
  match p.fixed with
  | some x => [.piece j.id ix fun q => { q with st := .ended x }]
  | none =>
    let uses := tileUses s j p
    match beginBanks s uses with
    | none => [.piece j.id ix fun q => { q with st := .ended codeDescr }]
    | some acts =>
      acts ++ [.piece j.id ix fun q =>
          { q with st := .started, opened := uses.map fun u => (u.1, u.2.1), behind := operandsBusy s j p }] ++
        match p.exec with
        | .quern _ => []
        | .wheel h =>
          let n := (stepsOf (residentReads s j p)).length
          [wheelPush h.val (WheelJob.fresh j.id ix [(n, 0)] n)]
        | .stone x => [.stone x fun y => { y with jobs := y.jobs ++ [(j.id, ix)], running := y.running || (y.jobs.isEmpty && !(stoneStops s x)) }]

/-- The pieces of a job are started in order. -/
def startTiles (j : Job) : Nat → List Piece → State → List Act
  | _, [], _ => []
  | ix, p :: ps, s => let acts := startTile s j ix p; acts ++ startTiles j (ix + 1) ps (applyActs s acts)

/-- A suspended walk stands in the way of a placement (R208). -/
def placementFaulted (s : State) (id : Nat) : Bool := s.faults.any fun f => f.who == .placement id

/-- MILLER_PLACEMENT (R208, R230, R237): operands are translated, the instruction is cut and placed; a page that is not
present suspends it, or for a `place` ends it with ACCESS, as a failing translation does. -/
def millerPlacement (s : State) (id : Nat) : List Act :=
  match s.job id with
  | none => []
  | some j =>
    let query : Bool := match j.work with | .place _ => true | _ => false
    let tile : Bool := match j.work with | .tile _ => true | _ => false
    if j.prepared || !(query || (tile && j.ready s)) || placementFaulted s id then []
    else
      let fail (acts : List Act) : List Act :=
        if query then acts ++ [.job id fun j => { j with prepared := true, word := some (placeWord j [] 4) }]
        else acts ++ soleEnded j codeAccess
      match translateUnits s j.core j.part (tileUnits j) with
      | (.denied, acts) => fail acts
      | (.absent va w, acts) =>
        if query then fail acts
        else match raiseFault (applyActs s acts) (.placement id) j.core j.tag j.part j.ts 0xFFFFFFFF va w with
          | some fa => acts ++ fa
          | none => fail acts
      | (.ok tr, acts) =>
        let s1 := applyActs s acts
        let j1 := { j with tr }
        let ps := placeAll s1 j1
        if query then acts ++ [.job id fun j => { j with prepared := true, word := some (placeWord j ps 0) }]
        else
          let form : List Act := [.job id fun j => { j with tr, prepared := true, pieces := ps }]
          acts ++ form ++ startTiles j1 0 ps (applyActs s1 form)

/-! ### Computing a piece (R217-R227) -/

/-- What computing a piece gives: a code with the failing address, or the bytes to write, the accumulators, whether an
element was clamped, and whether a free value was used. -/
inductive Computed
  | fails (code : BitVec 4) (addr : Option Nat)
  | done (data : List (Nat × Byte)) (acc : List W32) (sat free : Bool)

/-- An element of a source as it stands in memory, none where it is padding. -/
def readElem (s : State) (j : Job) (r : Role) (flush : Bool) (e : Ix) : Option TVal :=
  let d := (j.opnd r).d
  if !notPad j.padm d e then none
  else match unitSpan s j r (unitIx d e) with
    | .error _ => none
    | .ok xs =>
      some (match dFmt d with
        | .ni _ c =>
          let k := planesOf d (j.override r)
          .int (niValue c k (niQ (fun i => memGet s.mem (xs.getD i 0)) (e.1 % 256) k))
        | f => elemValue f flush (xs.map (memGet s.mem)))

/-- The value of a padding element that an element needs: the manual states none (log entry 33). -/
def freeElem (s : State) (real : Bool) (r : Role) (e : Ix) : TVal :=
  let n := e.1 + 65536 * (e.2.1 + 65536 * (e.2.2.1 + 65536 * (e.2.2.2 + 65536 * (match r with | .b => 1 | .c => 2 | _ => 0))))
  let w : W32 := bits (Config.freeWord (s.free + n)) 0 32
  if real then ⟨true, FFmt.f32.dec w⟩ else .int w.toInt

/-- A mask element of `tsel` is non-zero; in centred mode its q decides (R221). -/
def maskSet (d : Desc) (x : TVal) : Bool :=
  match dFmt d with
  | .ni k true => x.toInt != 2 ^ (7 - k)
  | _ => x.toInt != 0

/-- One element of an elementwise instruction, and whether a free value was used (R217-R222): a word of a table that is padding
is not read (R114), and the manual states no value for it (log entry 33). -/
def elementOf (s : State) (j : Job) (e : Ix) : TVal × Bool :=
  let real := ((dFmt j.dst.d).domain).getD false
  let get (r : Role) : TVal × Bool :=
    match j.needsOf r 0 0 e with
    | x :: _ => match readElem s j r false x with
      | some v => (v, false)
      | none => (freeElem s (match r with | .c => false | _ => real) r x, true)
    | [] => (.int 0, false)
  let a := get .a
  match j.tileOp with
  | .fill => (holderVal j.a.d, false)
  | .cvt => a
  | .abs => (absVal a.1, a.2)
  | .scl => let c := get .c; (scaleVal a.1 c.1.toInt, a.2 || c.2)
  | .sel =>
    let c := get .c
    let b := get .b
    (if maskSet j.c.d c.1 then a.1 else b.1, c.2 || (if maskSet j.c.d c.1 then a.2 else b.2))
  | .lut =>
    let there (i : Nat) : Bool := notPad j.padm j.c.d (i, 0, 0, 0)
    let word (i : Nat) : W32 :=
      if !there i then BitVec.ofInt 32 (freeElem s false .c (i, 0, 0, 0)).toInt else
      match unitSpan s j .c (i, 0, 0, 0) with
      | .ok xs => BitVec.ofNat 32 (leNat (xs.map (memGet s.mem)))
      | .error _ => 0
    (lutVal word a.1.v, a.2 || !(there 129))
  | op => let b := get .b; (binop op (modRm j.mod) a.1 b.1, a.2 || b.2)

/-- An accumulator carried by a link: whether it holds anything, and its low and high words. -/
def packAcc (x : Option Nat) : List W32 :=
  match x with
  | none => [0, 0, 0]
  | some n => [1, BitVec.ofNat 32 n, BitVec.ofNat 32 (n / 2 ^ 32)]

/-- The accumulator of element `i` that the link before left. -/
def unpackAcc (acc : List W32) (i : Nat) : Option Nat :=
  if (acc.getD (3 * i) 0) = 0 then none
  else some ((acc.getD (3 * i + 1) 0).toNat + 2 ^ 32 * (acc.getD (3 * i + 2) 0).toNat)

/-- A reduced value as an accumulator: binary32 bits, or a 64-bit integer. -/
def redPack (x : TVal) : Nat :=
  if x.real then (FFmt.f32.convert .rne x.v).1.toNat else (BitVec.ofInt 64 x.toInt : W64).toNat

/-- An accumulator as a reduced value. -/
def redUnpack (real : Bool) (n : Nat) : TVal :=
  if real then ⟨true, FFmt.f32.dec (BitVec.ofNat 32 n)⟩ else .int (BitVec.ofNat 64 n : W64).toInt

/-- One row of a `tred` over a link: each group's tree, then the chain of groups (R44, R223). -/
def reduceRow (s : State) (j : Job) (p : Piece) (e : Ix) (acc : Option TVal) : Option TVal :=
  let f := redStep (modKind j.mod) (modRm j.mod)
  (List.range (ceilDiv (p.kHi - p.kLo) 256)).foldl (fun acc g =>
    let xs := (List.range 256).map fun i =>
      let k := p.kLo + 256 * g + i
      if p.kHi ≤ k then none else readElem s j .a false (k, e.2)
    redPair f acc (redTree f 8 xs)) acc

/-- The positions of a link's chunk that are added: present in both operands and in the mask (R43, R114, R226); those of a mask
element that is padding are absent (log entry 100). -/
def positions (s : State) (j : Job) (e : Ix) (lo hi : Nat) : List Nat :=
  (upTo lo hi).filter fun k =>
    notPad j.padm j.a.d (k, e.2.1, 0, 0) && notPad j.padm j.b.d (k, e.1, 0, 0) &&
      (j.metaOp.isNone || (match readElem s j .md false (k / 12, e.1, 0, 0) with
        | some m => bitAt (BitVec.ofInt 32 m.toInt : W32) (k % 12)
        | none => false))

/-- The path of a contraction (R225). -/
def Job.sumPath (j : Job) : SumPath :=
  if (dFmt j.a.d).isNi then (if j.sa.isSome || j.sb.isSome then .block else .int) else .float

/-- A block exponent; a missing side has 0 (R225). -/
def exponentOf (s : State) (j : Job) (r : Role) (blk row : Nat) : Int :=
  match r, j.sa, j.sb with
  | .sa, none, _ => 0
  | .sb, _, none => 0
  | r, _, _ => ((readElem s j r false (blk, row, 0, 0)).getD (freeElem s false r (blk, row, 0, 0))).toInt

/-- One chunk or block of a contraction; one with no position to add adds nothing (R43; log entry 90). -/
def sumChunk (s : State) (j : Job) (flush : Bool) (e : Ix) (acc : W32 × Bool) (lo hi : Nat) : W32 × Bool :=
  let ks := positions s j e lo hi
  let a (k : Nat) : TVal := (readElem s j .a flush (k, e.2.1, 0, 0)).getD (.int 0)
  let b (k : Nat) : TVal := (readElem s j .b flush (k, e.1, 0, 0)).getD (.int 0)
  let products : List Int := ks.map fun k => (a k).toInt * (b k).toInt
  match j.sumPath with
  | .int => let (x, c) := intChunk acc.1 products; (x, acc.2 || c)
  | .block =>
    if ks.isEmpty then acc
    else (blockChunk flush acc.1 products (exponentOf s j .sa (lo / 32) e.2.1 + exponentOf s j .sb (lo / 32) e.1), acc.2)
  | .float => (floatChunk flush acc.1 (ks.map fun k => ((a k).v, (b k).v)), acc.2)

/-- One element of a contraction over a link (R43). -/
def contractElem (s : State) (j : Job) (p : Piece) (flush : Bool) (e : Ix) (acc : W32) : W32 × Bool :=
  let size := match j.sumPath with | .block => 32 | _ => 256
  (List.range (ceilDiv (p.kHi - p.kLo) size)).foldl (fun acc g =>
    sumChunk s j flush e acc (p.kLo + size * g) (min p.kHi (p.kLo + size * (g + 1)))) (acc, false)

/-- The accumulator an element starts from (R225), and whether a free value was used. -/
def startAcc (s : State) (j : Job) (e : Ix) : W32 × Bool :=
  if !modTop j.mod then (0, false)
  else match unitSpan s j .c (unitIx j.c.d e) with
    | .ok xs =>
      if notPad j.padm j.c.d e then (BitVec.ofNat 32 (leNat (xs.map (memGet s.mem))), false)
      else (bits (Config.freeWord s.free) 0 32, true)
    | .error _ => (0, false)

/-- The values a piece gives to its elements, or for a link that is not the last the accumulators. -/
def pieceValues (s : State) (j : Job) (p : Piece) (flush : Bool) (prev : List W32) :
    List TVal × List W32 × Bool × Bool :=
  let es := p.pairs.map Prod.fst
  let n := es.length
  if j.tileOp = .red then
    let real := ((dFmt j.a.d).domain).getD false
    let kind := modKind j.mod
    let rows := (List.range n).map fun i =>
      reduceRow s j p (es.getD i (0, 0, 0, 0)) ((unpackAcc prev i).map (redUnpack real))
    (rows.map fun r => r.getD (redEmpty kind real), rows.flatMap fun r => packAcc (r.map redPack), false, false)
  else if contracts j.tileOp then
    let rows := (List.range n).map fun i =>
      let e := es.getD i (0, 0, 0, 0)
      let (c, fr) := match unpackAcc prev i with
        | some x => (BitVec.ofNat 32 x, false)
        | none => startAcc s j e
      let (x, sat) := contractElem s j p flush e c
      (x, sat, fr)
    let scale := if (dScale j.dst.d).val = 0 then none else some j.scale
    (rows.map fun r => drainVal flush (j.sumPath == .int) scale r.1, rows.flatMap fun r => packAcc (some r.1.toNat),
      rows.any fun r => r.2.1, rows.any fun r => r.2.2)
  else
    let rows := es.map (elementOf s j)
    (rows.map Prod.fst, [], false, rows.any Prod.snd)

/-- The bytes of a destination group: written elements take their q, padding beyond D0 is zero under PAD, every other
bit stays (R31, R207). -/
def groupBytes (s : State) (j : Job) (k : Nat) (u : Ix) (q : List (Ix × Int)) : List (Nat × Byte) :=
  match unitSpan s j .dst u with
  | .error _ => []
  | .ok xs =>
    (List.range (32 * k)).map fun i =>
      let a := xs.getD i 0
      let old := memGet s.mem a
      let plane := k - 1 - i / 32
      let bit_ (b : Nat) : Bool :=
        let e := 256 * u.1 + (i % 32) * 8 + b
        match q.find? fun x => x.1 == (e, u.2) with
        | some x => bitAt (BitVec.ofInt 64 x.2 : W64) plane
        | none => if dPad j.dst.d = 1 ∧ dDim j.dst.d 0 ≤ e then false else bitAt old b
      (a, BitVec.ofNat 8 ((List.range 8).foldl (fun n b => n + (bit_ b).toNat * 2 ^ b) 0))

/-- The bytes a piece's values are stored as, and whether an element was clamped (R224). -/
def storeValues (s : State) (j : Job) (flush : Bool) (es : List Ix) (vs : List TVal) : List (Nat × Byte) × Bool :=
  let rm := modRm j.mod
  let sat := j.tileOp == .red || (!contracts j.tileOp && modSat j.mod)
  match dFmt j.dst.d with
  | .ni k c =>
    let qs := (es.zip vs).map fun x => (x.1, niStore rm k c x.2.v)
    let q := qs.map fun x => (x.1, x.2.1)
    ((distinct (es.map (unitIx j.dst.d))).flatMap fun u => groupBytes s j k u q, qs.any fun x => x.2.2)
  | f =>
    let ws := (es.zip vs).map fun x => (x.1, writeVal f rm sat flush x.2)
    (ws.flatMap fun x => match unitSpan s j .dst x.1 with
      | .ok xs => (List.range xs.length).map fun i => (xs.getD i 0, bits x.2.1 (8 * i) 8)
      | .error _ => [], ws.any fun x => x.2.2)

/-- RM of `tred` and of the others is MOD [1:0]; a table or a mask may end the piece with DESCR (R222, R226). -/
def contentBad (s : State) (j : Job) (p : Piece) : Bool :=
  match j.tileOp with
  | .lut =>
    let w (i : Nat) : FVal := ((readElem s j .c false (i, 0, 0, 0)).getD ⟨true, .nan false⟩).v
    notPad j.padm j.c.d (1, 0, 0, 0) && !lutOk (w 0) (w 1)
  | .spm =>
    (j.unitsFor .md p.kLo p.kHi (p.pairs.map Prod.fst)).any fun u =>
      match readElem s j .md false u with
      | some x => !maskOk (BitVec.ofInt 32 x.toInt) u.1 (dDim j.a.d 0)
      | none => false
  | _ => false

/-- The addresses a piece reads, or the code it ends with. -/
def pieceReads (s : State) (j : Job) (p : Piece) : Except (BitVec 4) (List Nat) :=
  let es := p.pairs.map Prod.fst
  (j.sources.mapM fun r => ((j.unitsFor r p.kLo p.kHi es).mapM fun u => unitSpan s j r u).map List.flatten).map List.flatten

/-- A piece is computed on an executor (R227): it fails on a bad address, a poisoned source sector, or bad contents. -/
def computePiece (s : State) (j : Job) (p : Piece) (prev : List W32) : Computed :=
  let es := p.pairs.map Prod.fst
  let flush : Bool := match p.exec with | .stone _ => true | _ => false
  let fits := (j.unitsFor .dst 0 0 es).mapM fun u => unitSpan s j .dst u
  match pieceReads s j p, fits with
  | .error x, _ => .fails x none
  | _, .error x => .fails x none
  | .ok xs, .ok _ =>
    match lowestPoison s xs with
    | some a => .fails codePoison (some a)
    | none =>
      if contentBad s j p then .fails codeDescr none
      else
        let (vs, acc, sat, fr) := pieceValues s j p flush prev
        if p.last then
          let (data, c) := storeValues s j flush es vs
          .done data acc (sat || c) fr
        else .done [] acc sat fr

/-! ### Ending a piece -/

/-- The link before a piece in its chain. -/
def previousLink (j : Job) (ix : Nat) (p : Piece) : Option Piece := if ix ≤ p.first then none else j.pieces[ix - 1]?

/-- What the link before says: it is still running, it failed, or it left these accumulators. -/
inductive Before | running | failed (code : BitVec 4) | ready (acc : List W32)

/-- The code with which a piece has failed. -/
def Piece.failed? (p : Piece) : Option (BitVec 4) :=
  match p.st with
  | .performed x | .ended x => if x = codeOk then none else some x
  | _ => none

/-- The state of the links before: the lowest-numbered one that has failed speaks for its chain (R240). -/
def linkBefore (j : Job) (ix : Nat) (p : Piece) : Before :=
  match (upTo p.first ix).findSome? fun i => (j.pieces[i]?).bind Piece.failed? with
  | some x => .failed x
  | none => match previousLink j ix p with
    | none => .ready []
    | some q => match q.st with
      | .performed _ | .ended _ => .ready q.acc
      | _ => .running

/-- The error record keeps the lowest-numbered piece that ended with SHIPERR or SRCPOISON (R241). -/
def noteError (id ix : Nat) (home : Half) (code : BitVec 4) (a : Nat) : Act :=
  .job id fun j =>
    let r : ErrRec := { exec := home, srch := homeOf a, code, addr := BitVec.ofNat 46 (a / 32 * 32), piece := ix }
    { j with err := match j.err with
      | some o => if o.piece ≤ ix then some o else some r
      | none => some r }

/-- The updates of a computed piece that go beyond its bytes: accumulators, whether it or a link before it clamped
(R242), and free values drawn. -/
def computedActs (j : Job) (ix : Nat) (p : Piece) (acc : List W32) (sat free : Bool) : List Act :=
  let before := ((previousLink j ix p).map Piece.sat).getD false
  [.piece j.id ix fun q => { q with acc, sat := sat || before }] ++ (if free then [.drawn (2 ^ 70)] else [])

/-- A piece has failed at its executor with a code: the failing address is kept until it ends (R241). -/
def tileFails (j : Job) (ix : Nat) (x : BitVec 4) (a : Option Nat) : Act :=
  .piece j.id ix fun q => { q with st := .performed x, got := a.toList.map fun a => (a, 0) }

/-- A piece writes bytes; the poisoned sectors that it writes only in part stay so (R224). -/
def tileWrite (s : State) (j : Job) (p : Piece) (data : List (Nat × Byte)) : List Act :=
  engineWrite s data ((keptSectors s j (p.pairs.map Prod.fst)).filter fun n =>
    s.poisoned.contains n && (blocksOf 32 (data.map Prod.fst)).contains n)

/-- A piece's bytes are written at their home, through the pseudo-channel where that is main memory. -/
def writeBack (s : State) (j : Job) (p : Piece) (data : List (Nat × Byte)) : List Act :=
  tileWrite s j p data ++ accessRows s (rowsOf (data.map Prod.fst))

/-- No earlier access through another view is left to a block that a piece reads, or writes (R288). -/
def tileViews (s : State) (j : Job) (p : Piece) (write : Bool) : Bool :=
  let es := p.pairs.map Prod.fst
  (if write then [.dst] else j.sources).all fun r => viewFree s (dView (j.opnd r).d)
    ((j.unitsFor r p.kLo p.kHi es).flatMap fun u => match unitSpan s j r u with
      | .ok xs => xs
      | .error _ => [])

/-- Every byte a piece reads. -/
def allReads (s : State) (j : Job) (p : Piece) : List Nat :=
  (match pieceReads s j p with | .ok xs => xs | .error _ => []) ++ oldReads s j p

/-- The bytes shipped to a piece's executor (R235). -/
def shippedReads (s : State) (j : Job) (p : Piece) : List Nat := (allReads s j p).filter fun a => homeOf a != execHome p

/-- A tile piece ends, its banks' engine accesses with it. -/
def tileEnded (j : Job) (ix : Nat) (p : Piece) (x : BitVec 4) : List Act :=
  endBanks p.opened j.ts (x == codeOk) ++
    [.piece j.id ix fun p => { p with st := .ended x, opened := [], got := [] }]

/-- A tile piece at a wheel has read all its operands and computed. -/
def wheelComputed (s : State) (j : Job) (ix : Nat) (p : Piece) : Bool :=
  match p.exec with
  | .wheel h => (s.homes[h]).jobs.any fun w => w.job == j.id && w.piece == ix && decide ((w.rows.headD (0, 0)).1 < w.len)
  | _ => false

/-- TILE_PIECE_END (R239, R240): a piece ends at its executor; `ship` is the address of a shipped sector that arrived
with an uncorrectable error. A destination that is gated by then takes nothing, and its piece ends with ACCESS (R390). -/
def tilePieceEnd (s : State) (id ix : Nat) (ship : Option Nat) : List Act :=
  match s.job id with
  | none => []
  | some j =>
    match j.work, j.pieces[ix]? with
    | .tile _, some p =>
      let shipBad := ship.filter fun a => !(wheelComputed s j ix p) && (shippedReads s j p).any fun b => b / 32 == a / 32
      match p.st with
      | .performed x =>
        match linkBefore j ix p with
        | .failed y => tileEnded j ix p y
        | _ =>
          if !(p.clear s) then []
          else if x = codeOk then
            if !(spotsPowered s (p.got.map fun g => .here g.1 1)) then tileEnded j ix p codeAccess
            else if p.got.isEmpty || tileViews s j p true then writeBack s j p p.got ++ tileEnded j ix p x else []
          else (p.got.head?.map fun g => noteError id ix (execHome p) x g.1).toList ++ tileEnded j ix p x
      | .started =>
        match linkBefore j ix p with
        | .running => []
        | .failed x => tileEnded j ix p x
        | .ready prev =>
          match shipBad with
          | some a => noteError id ix (execHome p) codeShip a :: tileEnded j ix p codeShip
          | none =>
            match p.exec with
            | .quern _ =>
              if !(p.clear s) || !(tileViews s j p false) || (p.last && !(tileViews s j p true)) then []
              else match computePiece s j p prev with
                | .fails x a => (a.map (noteError id ix (execHome p) x)).toList ++ tileEnded j ix p x
                | .done data acc sat fr =>
                  accessRows s (rowsOf (allReads s j p)) ++ computedActs j ix p acc sat fr ++ writeBack s j p data ++
                    tileEnded j ix p codeOk
            | _ => []
      | _ => []
    | _, _ => []

/-- A piece performs at its wheel or stone with the code and the bytes computing it gives. -/
def tilePerform (s : State) (j : Job) (ix : Nat) (p : Piece) (prev : List W32) : List Act :=
  match computePiece s j p prev with
  | .fails x a => [tileFails j ix x a]
  | .done data acc sat fr =>
    accessRows s (rowsOf (allReads s j p)) ++ computedActs j ix p acc sat fr ++
      [.piece j.id ix fun q => { q with st := .performed codeOk, got := data }]

/-- The staging area of a stone's slices after a job that staged B: unspecified bytes (R232). -/
def staleStaging (s : State) (x : Fin 64) : List Act :=
  [.drawn (256 * 8192)] ++ (List.range 256).flatMap fun c => (List.range 8192).map fun i =>
    .byte (Config.stoneBase + x.val * 2 ^ 23 + 0x6000 * c + 0x4000 + i) (Config.freeByte (s.free + 8192 * c + i))

/-- The queued pieces of a braked stone, or of a gated one, whose B resides in its SRAM: they end with ACCESS (R353, R390). -/
def stoneRefuses (s : State) (x : Fin 64) : List (Nat × Nat) :=
  let y := s.stones[x]
  if !(stoneStops s x) then [] else
  (if y.running then y.jobs.tail else y.jobs).filter fun q => match s.job q.1 with
    | some j => dSpace j.b.d == 2 && ((j.pieces[q.2]?).map Piece.st) == some .started
    | none => false

/-- STONE_JOB (R228): a stone runs the first of its jobs; one whose chain has failed, or that has ended, leaves it. A
braked stone, and a gated one, finishes the one it runs and takes no other (R353, R390). -/
def stoneJob (s : State) (x : Fin 64) : List Act :=
  let pop : Act := .stone x fun y => { y with jobs := y.jobs.tail, running := false }
  let y := s.stones[x]
  let out := stoneRefuses s x
  if !out.isEmpty then
    out.map (fun q => wheelEnds q.1 q.2 codeAccess) ++ [.stone x fun y => { y with jobs := y.jobs.filter fun q => !out.contains q }]
  else match y.jobs with
  | [] => []
  | (id, ix) :: _ =>
    if stoneStops s x && !y.running then [] else
    match s.job id with
    | none => [pop]
    | some j =>
      match j.pieces[ix]? with
      | none => [pop]
      | some p =>
        if p.st != .started then [pop]
        else match linkBefore j ix p with
          | .running => []
          | .failed _ => [pop]
          | .ready prev =>
            if !(tileViews s j p false) then [] else
            tilePerform s j ix p prev ++ [pop] ++ (if dSpace j.b.d = 2 || !(stonePowered s x) then [] else staleStaging s x)

/-- What a piece reads: its staged bytes as they were when their step read them, with the poison they had, and the rest
as it stands (R295). -/
def stagedState (s : State) (p : Piece) : State :=
  let here := blocksOf 32 (p.got.map Prod.fst)
  { applyActs s (p.got.map fun x => .byte x.1 x.2) with
    poisoned := p.lost.foldl setIns (s.poisoned.filter fun n => !here.contains n) }

/-- A wheel's first job, replaced. -/
def wheelPut (h : Fin 512) (w : WheelJob) : Act := .home h fun x => { x with jobs := w :: x.jobs.tail }

/-- A tile piece computes at its wheel, its `reads` read steps behind it: its write steps follow when its destination is
there, and its bytes are shipped otherwise. -/
def tileComputes (s : State) (h : Fin 512) (j : Job) (ix : Nat) (p : Piece) (w : WheelJob) (reads : Nat) (prev : List W32) :
    List Act :=
  match computePiece (stagedState s p) j p prev with
  | .fails x a => [tileFails j ix x a, wheelPop h]
  | .done data acc sat fr =>
    accessRows s (rowsOf (shippedReads s j p)) ++ computedActs j ix p acc sat fr ++
      if !data.isEmpty && p.dhome == execHome p then
        [.piece j.id ix fun q => { q with got := data },
         wheelPut h { w with pos := reads, len := reads + (stepsOf (blocksOf 1 (data.map Prod.fst))).length }]
      else [.piece j.id ix fun q => { q with st := .performed codeOk, got := data }, wheelPop h]

/-- One staging step of a tile piece at a wheel (R295): a read step stages its bytes, and the last one computes; a piece
that reads nothing there computes without a step. A write step writes its share of the result in increasing address order,
and the last one clears the poison of the sectors that the piece writes whole (R224). -/
def tileStep (s : State) (h : Fin 512) (j : Job) (ix : Nat) (p : Piece) (w : WheelJob) : List Act × Bool :=
  let reads := (w.rows.headD (0, 0)).1
  match linkBefore j ix p with
  | .running => ([], false)
  | .failed _ => ([wheelPop h], false)
  | .ready prev =>
    if w.pos < reads then
      let step := (stepsOf (residentReads s j p)).getD w.pos []
      let rows := touchRows s (rowsOf step)
      if w.pos + 1 < reads then
        (rows ++ [.piece j.id ix fun q =>
          { q with got := q.got ++ step.map fun a => (a, memGet s.mem a)
                   lost := (blocksOf 32 (step.filter (poisonedAt s))).foldl setIns q.lost },
          wheelPut h { w with pos := w.pos + 1 }], true)
      else if !(p.clear s) || !(tileViews s j p false) then ([], false)
      else (rows ++ tileComputes s h j ix p w reads prev, true)
    else if w.len = reads then
      if !(p.clear s) || !(tileViews s j p false) then ([], false)
      else (tileComputes s h j ix p w reads prev, false)
    else
      let all := p.got.map Prod.fst
      let now := (stepsOf (blocksOf 1 all)).getD (w.pos - reads) []
      let write := touchRows s (rowsOf now) ++ tileWrite s j p (p.got.filter fun x => now.contains x.1)
      if w.pos + 1 < w.len then (write ++ [wheelPut h { w with pos := w.pos + 1 }], true)
      else
        let kept := keptSectors s j (p.pairs.map Prod.fst)
        let whole := (blocksOf 32 all).filter fun n => s.poisoned.contains n && coveredWhole 32 n all && !kept.contains n
        (write ++ whole.map (fun n => Act.sector n false) ++
          [wheelPop h, .piece j.id ix fun q => { q with st := .performed codeOk, got := [] }], true)

end Sys2Proof.Machine
end

