-- ==== Sys2Proof/Machine/Task.lean ====
section
/-! DEFINITION. Task instructions (R316-R326), the wait table (R323), the dispatcher (R327, R328) and pickup
(R319). -/

namespace Sys2Proof.Machine

/-! ### `spawn` -/

/-- The queue that a value names (R316). -/
def queueOf (v : W64) : Fin 131072 := fin 131071 (bits v 0 17).toNat

/-- The zero bits of a queue value, `suspend`'s REMOTE and NODE among them (R316, R322). -/
def queueBad (v : W64) (suspending : Bool) : Bool :=
  bits v 17 15 != 0#15 || bits v 49 15 != 0#15 || (suspending && bitAt v 48)

/-- The 64 bytes at a window address, as they stood before the bundle (R78). -/
def recordAt (e : Env) (a : BitVec 24) : List Byte :=
  memBytes e.mem (bankPa (bankOf e.c (e.k.entry (winOf a)).bank) (a.toNat % 65536)) 64

/-- The windows a record names for its carried banks, with their positions (R316). -/
def carriedWindows (r : List Byte) : List (Nat × Byte) :=
  ((List.range 4).filter fun j => bitAt (hCarry (recHeader r)) j).map fun j => (j, recBank r j)

/-- DETACHED for a carried window that is not valid; one above 251 makes the record BADREC instead (R316). -/
def carriedTrap (k : Cont) (r : List Byte) : Option Trap :=
  (((carriedWindows r).map Prod.snd).find? fun w => decide (w.toNat ≤ 251) && !(k.entry w).v).map fun w =>
    winTrap .detached (w ++ 0#16)

/-- `spawn`'s checks (R316, R334): the record is offered once every check of the bundle has passed. -/
def effSpawn (_d q rec_ : Spec) : Eff := fun e =>
  let v := e.k.scalar q
  let a : BitVec 24 := bits (e.k.scalar rec_) 0 24
  if queueBad v false then .error (descr 1 (bits v 0 8))
  else match checkAccess e a 64 64 true false with
  | .error t => .error t
  | .ok ps =>
    let pa := match ps with | p :: _ => bankPa p.bank p.off | [] => 0
    match poisonIn e.s.poisoned pa 64 with
    | some x => .error ⟨.poison, poisonInfo 6 e.slot (BitVec.ofNat 24 (a.toNat + (x - pa)))⟩
    | none => .ok { after := carriedTrap e.k (recordAt e a) }

/-- The hold of `spawn`: every earlier access of the core has performed (R316). -/
def holdSpawn : Hold := fun e => holdWhile (!e.x.accs.isEmpty)

/-- The banks that a record carries leave their windows, those of a saved image too (R140), and are in transit (R316, R318). -/
def carryActs (e : Env) (ws : List Byte) : List Act :=
  ws.flatMap fun w =>
    let b := bankOf e.c (e.k.entry w).bank
    [.bank b fun x => { x with ts := e.k.ts, transit := some (.carried e.c e.k.cid) },
     .cont e.c fun k => (k.loseBank b).setEntry w fun x => { x with v := false, opened := false },
     .core e.c fun x => { x with keep := x.keep.map fun k => k.dropBank e.c b }]

/-- A record appended by a bundle that itself makes accesses is picked up after them (R271, R277). -/
def spawnedActs (e : Env) (q : Fin 131072) : List Act :=
  let needs := e.ownNeeds 0xFFFF false
  if needs.isEmpty then [] else [.spawned fun xs => xs ++ [⟨q, (queueAt e.s q).tail, e.c, needs⟩]]

/-- The record that an accepted `spawn` writes (R316). -/
def spawnRecord (e : Env) (r : List Byte) : List Byte :=
  let h := recHeader r
  let h := if hCarry h = 0 then h else setBits h 28 (BitVec.ofNat 4 (quadOf e.c).val)
  let bank (j : Nat) : Byte := if bitAt (hCarry h) j then (e.k.entry (recBank r j)).bank else recBank r j
  recBytes (setBits h 14 0#2) (recEntry r) ((List.range 4).map bank) e.k.ts (recCompletion r) ((List.range 4).map (recArg r))

/-- The answer that a slot's request has had. -/
def Cont.answerOf (k : Cont) (x : Slot) : Option (Option (BitVec 4 × W64 × Bool)) :=
  (k.remote.find? fun r => r.slot == x).map Remote.answer

/-- The answer that the request of this slot has had by now. -/
def Env.answer (e : Env) : Option (Option (BitVec 4 × W64 × Bool)) := (e.s.cores[e.c]).cont.answerOf e.slot

/-- A slot of a held bundle sends a request and waits for its answer (R160, R316). -/
def sendHeld (e : Env) (p : Packet) : List Act :=
  sendActs e.s (some e.c) { p with ts := e.k.ts } (.core e.c e.k.cid e.slot) ++
    [.cont e.c fun k => { k with remote := k.remote ++ [⟨e.slot, none⟩] }]

/-- The accesses of the bundle itself have been made (R271). -/
def Env.early (e : Env) : Bool := ((e.s.cores[e.c]).cont.asked.map Asked.early).getD false

/-- The offer of `spawn` (R316): the queue of this node answers at once, one of another node by packet (R374). The packet is sent
once the accesses of the bundle itself have performed, since they are earlier than the release (R271, R277). -/
def stageSpawn (d q rec_ : Spec) : Env → Stage := fun e =>
  let v := e.k.scalar q
  let r := recordAt e (bits (e.k.scalar rec_) 0 24)
  let status (n : Nat) : List Result := plainResult d (BitVec.ofNat 64 n) 1
  if bitAt v 48 then
    if e.s.hub.node = 0 then .go (status 5) []
    else match e.answer with
      | some none => .wait [] false
      | some (some (x, _, _)) => .go (status x.toNat) []
      | none =>
        if !e.own.isEmpty && !e.early then .first
        else if !(e.s.cores[e.c]).accs.isEmpty then .wait [] false
        else match holdFabric e [] with
          | some acts => .wait acts false
          | none => .wait ([.releases fun rs => rs.filter fun o => !(o.src == e.c && o.deliver == .nothing)] ++
              sendHeld e { addr := (bits v 0 17).setWidth 46, dst := bits v 32 16, kind := 5, data := r }) true
  else
    let qu := queueOf v
    match offer e.s qu e.s.hub.node (cPriv e.k.cstat) true (quadOf e.c) r with
    | 0 => .go (status 0) (appendActs e.s qu (recFor (queueAt e.s qu) (spawnRecord e r)) ++
        carryActs e ((carriedWindows r).map Prod.snd) ++ spawnedActs e qu)
    | n => .go (status n) []

/-! ### Leaving a core (R321) -/

/-- What must happen before a continuation may leave (R321), its accesses performed as for `spawn`. -/
def holdLeave : Hold := fun e =>
  holdWhile (e.k.busy != 0 || !e.x.accs.isEmpty || !e.k.loads.isEmpty || e.k.send.any Option.isSome || e.k.give.isSome)

/-- The lowest bound stream, as DESCR reason 7 (R334). -/
def streamTrap (k : Cont) : Option Trap :=
  (leastBelow 8 fun z => (k.strm[fin 7 z]).isSome).map fun z => descr 7 (BitVec.ofNat 8 z)

/-- The core is vacant: queues discarded, OPEN bits cleared; what remains is offered to the dispatcher (R321). -/
def leaveActs (c : Fin 256) : List Act :=
  [.core c fun x =>
    { x with cont := Cont.zero 0, keep := none, stale := x.keep <|> x.stale, phase := .vacant, preempt := false
             code := [], codeBad := [], inBuf := [], holds := [] }]

/-- The lowest window that keeps a continuation from being written back (R322). -/
def windowKept (k : Cont) : Option Nat :=
  ((k.bmap.toList.take 252).zipIdx.find? fun x => (decide (4 ≤ x.2) && x.1.v) || (decide (8 ≤ x.2) && x.1.opened)).map Prod.snd

/-- The header and completion field of a seated continuation: a lone one of KIND 1 after an image launch (R322). -/
def Cont.seat (k : Cont) : W64 × W64 :=
  match k.info with
  | some i => (i.header, i.completion)
  | none => (1, 0)

/-- The windows 0 to 3 that are valid (R322). -/
def keptWindows (k : Cont) : List Byte := ((List.range 4).map (BitVec.ofNat 8)).filter fun w => (k.entry w).v

/-- The record of STATE 1 of a continuation that leaves (R322). -/
def leaveRecord (e : Env) (entry : W32) : List Byte :=
  let k := e.k
  let (h, comp) := k.seat
  let on (f : Nat → Bool) (n : Nat) : Nat := (List.range n).foldl (fun acc i => acc + (f i).toNat * 2 ^ i) 0
  let carry := on (fun j => (k.entry (BitVec.ofNat 8 j)).v) 4
  let openm := on (fun j => (k.entry (BitVec.ofNat 8 j)).opened) 8
  let h := setBits (setBits (setBits (setBits (setBits h 14 1#2) 24 (BitVec.ofNat 4 carry)) 28
    (BitVec.ofNat 4 (quadOf e.c).val)) 32 (BitVec.ofNat 8 openm)) 52 0#6
  recBytes h entry ((List.range 4).map fun j => (k.entry (BitVec.ofNat 8 j)).bank) k.ts comp
    ((List.range 4).map fun j => k.s[fin 63 j])

/-- How a continuation is written back (R322). -/
inductive SusMode | queue | flag (f : Fin 32) (n : Nat) | watch
  deriving DecidableEq, Repr

/-- A park of this core holds flag `f` (R323). -/
def flagParked (s : State) (c : Fin 256) (f : Fin 32) : Bool := (s.quads[quadOf c]).parks.any fun p => p.holds c f

/-- The checks of `suspend` and `yield` in the order of their reasons (R334). -/
def susTrap (e : Env) (q : Option W64) (mode : SusMode) : Option Trap :=
  let bad1 := match q with | some v => queueBad v true | none => false
  if bad1 then some (descr 1 (bits (q.getD 0) 0 8))
  else match windowKept e.k with
  | some w => some (descr 2 (BitVec.ofNat 8 w))
  | none =>
    let l := e.k.level
    let parks := match mode with | .queue => false | _ => true
    if l = 1 ∨ l = 2 ∨ (l = 3 ∧ parks) then some (descr 3 (BitVec.ofNat 8 l))
    else
      let refuses := match q with
        | some v => let d := queueAt e.s (queueOf v); !d.en || !(aciGrants e.s d e.s.hub.node)
        | none => false
      if refuses then some (descr 4 (bits (q.getD 0) 0 8))
      else
        let held := match mode with | .flag f _ => flagParked e.s e.c f | _ => false
        if held then some (descr 5 (match mode with | .flag f _ => BitVec.ofNat 8 f.val | _ => 0))
        else if q.isNone then some (descr 6 0)
        else streamTrap e.k

/-- The hold of `suspend` and `yield`: R321, then a full queue or a full wait table (R322, R323). -/
def holdSuspend (q : Option W64) (mode : SusMode) : Hold := fun e =>
  match susTrap e q mode with
  | some _ => none
  | none =>
    match holdLeave e with
    | some acts => some acts
    | none =>
      match mode with
      | .queue => holdWhile (queueAt e.s (queueOf (q.getD 0))).full
      | _ => holdWhile (decide (Config.parkDepth ≤ (e.s.quads[quadOf e.c]).parks.length))

/-- The record of a continuation that leaves is appended (R322): to the queue as it is once the other slots of the bundle have
acted; one that accepts no more by then holds issue (log entry 107). -/
def stageSuspend (q : Option W64) (entry : Env → W32) : Env → Stage := fun e =>
  let qu := queueOf (q.getD 0)
  let d := queueAt e.s qu
  if d.full || !d.en || !(aciGrants e.s d e.s.hub.node) then .wait [] false
  else .go [] (appendActs e.s qu (recFor d (leaveRecord e (entry e))) ++ spawnedActs e qu)

/-- A continuation is written back (R322, R323): its record is appended in the last stage, or parked. -/
def suspendTo (q : Option W64) (entry : Env → W32) (mode : SusMode) : Eff := fun e =>
  match if e.made then none else susTrap e q mode with
  | some t => .error t
  | none =>
    let qu := queueOf (q.getD 0)
    let r := leaveRecord e (entry e)
    let carried := carryActs e (keptWindows e.k)
    let park (flag : Option (Fin 32 × Nat)) (count : Half) (mon : Option Monitor) (released : Bool) : List Act :=
      [.quad (quadOf e.c) fun u => { u with parks := u.parks ++
        [{ record := r, queue := qu, core := e.c, flag, count, mon, released, appended := false, taken := false, slot := 0, ovf := false
           needs := e.ownNeeds 0xFFFF false }] }]
    let go : List Act := match mode with
      | .queue => []
      | .flag f n => park (some (f, n)) e.k.f[f] none (decide (n ≤ (e.k.f[f]).toNat))
      | .watch =>
        match e.k.mon with
        | some m => if m.armed then park none 0 (some m) m.triggered else park none 0 none true
        | none => park none 0 none true
    .ok { last := go ++ carried ++ leaveActs e.c }

/-- `suspend`, MODE 0 (R322). -/
def effSuspendQueue (q : Spec) (bt : Fin 16) : Eff := fun e =>
  suspendTo (some (e.k.scalar q)) (fun e => e.k.bt[bt]) .queue e
/-- `suspend`, MODE 1 (R322, R323). -/
def effSuspendFlag (q : Spec) (bt : Fin 16) (flag : Fin 32) (count : BitVec 11) : Eff := fun e =>
  suspendTo (some (e.k.scalar q)) (fun e => e.k.bt[bt]) (.flag flag count.toNat) e
/-- `suspend`, MODE 2 (R322, R323). -/
def effSuspendWatch (q : Spec) (bt : Fin 16) : Eff := fun e =>
  suspendTo (some (e.k.scalar q)) (fun e => e.k.bt[bt]) .watch e

/-- The home queue as a queue value (R324). -/
def Cont.homeQueue (k : Cont) : Option W64 := k.info.map fun i => BitVec.ofNat 64 i.home.val

/-- `yield` (R324). -/
def effYield : Eff := fun e => suspendTo e.k.homeQueue (fun e => e.pc + 1) .queue e

/-- The bank of a window joins its quadrant's FREEB bitmap (R325). -/
def freeBank (u : QuadSt) (id : Byte) : QuadSt :=
  let i : Fin 4 := fin 3 (id.toNat / 64)
  { u with freeb := vset u.freeb i (u.freeb[i] ||| (1#64 <<< (id.toNat % 64))) }

/-- The members of a gang or band that are left once core `c` has retired. -/
def membersLeft (b : Barrier) (c : Fin 256) : List (Fin 256) :=
  b.members.filter fun m => m != c && !b.retired.contains m

/-- The completion post of `done` (R312, R325): the accesses it follows have performed under the hold of R321, but for those
of its own bundle (R271). -/
def donePost (e : Env) (comp : W64) : List Act :=
  let n := (bits comp 16 11).toNat
  let flag : Fin 32 := fin 31 (bits comp 8 5).toNat
  let go (fabric : Exchange) (d : Deliver) : List Act :=
    [.releases fun rs => rs ++ [{ id := e.id, src := e.c, needs := e.ownNeeds 0xFFFF false, ready := 0, fabric, deliver := d, engine := false }]]
  if n = 0 then []
  else if bitAt comp 48 then
    go .unsent (.packet { ts := e.k.ts, dst := bits comp 32 16, kind := 4, arg := bits comp 0 8 ++ bits comp 8 5 ++ bits comp 16 11 })
  else go .unneeded (.flag (fin 255 (bits comp 0 8).toNat) flag n)

/-- The fused gang of a core goes on without it (R260). -/
def unfuseActs (c : Fin 256) (k : Cont) : List Act :=
  match k.fused with
  | none => []
  | some f =>
    let left := f.members &&& ~~~(1#4 <<< (c.val % 4))
    let alone := decide ((memberCores c left).length < 2)
    (memberCores c left).map fun o => .core o fun x =>
      { x with cont := x.cont.without left alone, keep := x.keep.map fun k => k.without left alone }

/-- `done` (R325). -/
def effDone : Eff := fun e =>
  match streamTrap e.k with
  | some t => .error t
  | none =>
    let ws := (List.range 252).filter fun w => (e.k.bmap[fin 255 w]).v
    let free : List Act := ws.map fun w => .quad (quadOf e.c) fun u => freeBank u (e.k.bmap[fin 255 w]).bank
    let (_, comp) := e.k.seat
    let (team, last) : List Act × Bool := match barrierOf e.s e.k with
      | none => ([], true)
      | some b =>
        if (membersLeft b e.c).isEmpty then ([.barriers fun bs => bs.filter fun o => o.team != b.team], true)
        else ([.barriers fun bs => bs.map fun o => if o.team = b.team then { o with retired := o.retired ++ [e.c] } else o], false)
    .ok { last := free ++ (if last then donePost e comp else []) ++ team ++ unfuseActs e.c e.k ++ leaveActs e.c }

/-- The hold of `done` (R321): one that traps does not wait. -/
def holdDone : Hold := fun e => if (streamTrap e.k).isSome then none else holdLeave e

/-- `tstamp` (R326). -/
def effTstamp (d : Spec) : Eff := fun e => .ok { res := plainResult d e.k.ts 1 }
/-- `tstamp` with HUB: the hub time base at commit, the cycle after issue (R326). -/
def effTstampHub (d : Spec) : Eff := fun e =>
  .ok { res := plainResult d (BitVec.ofNat 64 (hubAt e.s.hub (e.x.clk + 1))) 1 }
/-- `tstamp set` (R326). -/
def effTstampSet (a : Spec) : Eff := fun e =>
  let v := e.k.scalar a
  .ok { acts := [.cont e.c fun k => { k with ts := v }] }

/-- PARK_APPEND (R323): a released park's record is appended once its queue accepts it. -/
def parkAppend (s : State) (q : Fin 16) (i : Nat) : List Act :=
  match (s.quads[q]).parks[i]? with
  | none => []
  | some p =>
    let d := queueAt s p.queue
    if !p.released || p.appended || s.outstanding p.core p.needs || !d.en || !(aciGrants s d s.hub.node) || d.full then []
    else appendActs s p.queue (recFor d p.record) ++
      [.quad q fun u => { u with parks := match p.flag with
        | none => u.parks.eraseIdx i
        | some _ => u.parks.modify i fun p => { p with appended := true, slot := d.tail } }]

/-! ### The dispatcher (R327, R328) -/

/-- A core that a record can be seated on: vacant, neither braked, failed, gated nor promised to another record. -/
def idleCore (s : State) (d : Fin 4) (c : Fin 256) : Bool :=
  let x := s.cores[c]
  x.phase == .vacant && !x.braked && !x.failed && !x.gated && !(s.dies[d]).poweredDown &&
    !((s.dies[d]).seating.any fun t => t.cores.contains c)

/-- The cores of a die. -/
def dieCores (d : Fin 4) : List (Fin 256) := (List.range 64).map fun i => fin 255 (d.val * 64 + i)

/-- A core lies in a quadrant of the partition. -/
def inPart (s : State) (p : Fin 16) (c : Fin 256) : Bool := bitAt (s.parts[p]).qmask (quadOf c).val

/-- A record the dispatcher finds with a reserved value is refused (R311, R317). -/
def headBad (r : List Byte) : Bool :=
  let h := recHeader r
  let c := recCompletion r
  (hKind h != 1 && hKind h != 2) || decide (2 ≤ hState h) || hMember h != 0 || bits h 4 8 != 0#8 || bits c 49 15 != 0#15 ||
    bits c 27 5 != 0#5 || bits c 13 3 != 0#3 || sizeBad h || ((hLevel h == 0 || hLevel h == 3) && hGroup h != 0)

/-- `n` things drawn from a list: which ones, and in which order, is free. -/
def drawSome {α : Type} [BEq α] (free : Nat) : Nat → List α → List α
  | 0, _ => []
  | n + 1, xs =>
    match xs[Config.freePick free % xs.length]? with
    | none => []
    | some x => x :: drawSome (free + 1) n (xs.erase x)

/-- The cores of a die that a record of priority `p` from queue `q` may take: those reserved for another record are
left to higher priorities (R328). -/
def freeCores (s : State) (d : Fin 4) (part : Fin 16) (q : Fin 131072) (p : Nat) : List (Fin 256) :=
  (dieCores d).filter fun c => idleCore s d c && inPart s part c &&
    (s.dies[d]).reserved.all fun r => r.1 == q || !r.2.contains c || decide ((queueAt s r.1).prio < p)

/-- The band barriers of a die in use (R313), those of bands already picked among them. -/
def bandsUsed (s : State) (d : Fin 4) : Nat :=
  (s.barriers.countP fun b => b.band && b.members.any fun m => dieOf m == d) +
    (s.dies[d]).seating.countP fun t => t.queue.isSome && hLevel (recHeader t.record) == 2

/-- The record's quadrant is `QUAD` when it is bound. -/
def fitsQuad (h : W64) (c : Fin 256) : Bool := !hBound h || quadOf c == hQuad h

/-- The tiles of a die. -/
def dieTiles (d : Fin 4) : List (Fin 64) := (List.range 16).map fun i => fin 63 (d.val * 16 + i)

/-- The cores on which a record can be seated now (R327): which of those that fit is free. A band takes cores of the die,
its first member, which its carried banks attach to (R313), one of its QUAD when it is bound. -/
def seatsFor (s : State) (d : Fin 4) (q : Fin 131072) (p : Nat) (r : List Byte) : List (Fin 256) :=
  let h := recHeader r
  let all := freeCores s d (hPart h) q p
  let cs := all.filter (fitsQuad h)
  let n := hSize h + 1
  match hLevel h with
  | 1 =>
    let ts := (dieTiles d).filter fun t => decide (n ≤ (cs.countP fun c => tileOf c == t))
    match ts[Config.freePick s.free % ts.length]? with
    | none => []
    | some t => drawSome (s.free + 1) n (cs.filter fun c => tileOf c == t)
  | 2 =>
    if 16 ≤ bandsUsed s d ∨ all.length < n then [] else
    match drawSome s.free 1 cs with
    | [] => []
    | c :: _ => c :: drawSome (s.free + 1) (n - 1) (all.erase c)
  | _ => drawSome s.free 1 cs

/-- A gang or band head that cannot be seated reserves cores, and adds those that become idle (R328). -/
def reserveActs (s : State) (d : Fin 4) (q : Fin 131072) (p : Nat) (r : List Byte) : List Act :=
  let h := recHeader r
  let mine := (((s.dies[d]).reserved.find? fun x => x.1 == q).map Prod.snd).getD []
  let open_ := (freeCores s d (hPart h) q p).filter fun c => (hLevel h == 2 || fitsQuad h c) &&
    !((s.dies[d]).reserved.any fun x => x.1 != q && x.2.contains c)
  let count (t : Fin 64) : Nat := open_.countP fun c => tileOf c == t
  let best : Option (Fin 64) := (dieTiles d).foldl (fun b t => match b with
    | none => if count t = 0 then none else some t
    | some u => if count u < count t then some t else some u) none
  let pool := if hLevel h = 1 then
      match (mine.head?.map tileOf).orElse fun _ => best with
      | some t => open_.filter fun c => tileOf c == t
      | none => []
    else open_
  let cs := (mine ++ pool.filter fun c => !mine.contains c).take (hSize h + 1)
  if hLevel h = 1 ∨ hLevel h = 2 then
    [.die d fun x => { x with reserved := x.reserved.filter (fun y => y.1 != q) ++ [(q, cs)] }]
  else []

/-- STATUS.BLOCKED of a queue (R314), written in its sector (R196, R299). -/
def blockedActs (s : State) (q : Fin 131072) (b : Bool) : List Act :=
  let a := queueAddr s q + 24
  let v := setBits (memGet s.mem a) 0 (bit b)
  if v = memGet s.mem a then [] else .byte a v :: touchBytes s a 1

/-- The records of a gang or band taken together, or the record alone, and where they can be seated now (R327): a lone
one on a core of its quadrant, the others on the cores they left. -/
def resumeSeats (s : State) (d : Fin 4) (r : ResumeRec) : Option (List ResumeRec × List (Fin 256)) :=
  let ok (c : Fin 256) : Bool := idleCore s d c && inPart s r.cont.part c
  match r.cont.team with
  | none =>
    let cs := (dieCores d).filter fun c => ok c && quadOf c == quadOf r.core &&
      (s.dies[d]).reserved.all fun x => !x.2.contains c || decide ((queueAt s x.1).prio < hPrio (recHeader r.record))
    match drawSome s.free 1 cs with
    | [] => none
    | cs => some ([r], cs)
  | some t =>
    let rs := (s.dies[d]).resume.filter fun o => o.cont.team == some t
    let here := match s.barriers.find? fun b => b.team == t with
      | some b => b.members.all fun m => b.retired.contains m || rs.any fun o => o.core == m
      | none => true
    if here && rs.all fun o => ok o.core then some (rs, rs.map (·.core)) else none

/-- The credit of a queue (R327). -/
def creditOf (x : DieSt) (q : Nat) (weight : Nat) : Nat := ((x.credits.find? fun y => y.1 == q).map Prod.snd).getD weight

/-- A credit replaced. -/
def setCredit (x : DieSt) (q n : Nat) : DieSt := { x with credits := (q, n) :: x.credits.filter fun y => y.1 != q }

/-- HEAD advances over the record that has been read (R315): the sectors of both are accessed (R196, R299). -/
def headTaken (s : State) (q : Fin 131072) (dq : QDesc) : List Act :=
  let acts := wordActs (queueAddr s q + 8) ((dq.head + 1) % dq.slots) ++ touchBytes s (ringSlot dq dq.head) 64
  acts ++ touchBytes (applyActs s acts) (queueAddr s q + 8) 4

/-- Updates of some parks, in every quadrant that holds one. -/
def onParks (s : State) (want : Park → Bool) (f : Park → Park) : List Act :=
  (List.finRange 16).filterMap fun u =>
    if (s.quads[u]).parks.any want then
      some (.quad u fun x => { x with parks := x.parks.map fun p => if want p then f p else p })
    else none

/-- A queue's head is taken for cores, with the park it came from, if any, and its reservations end in every die (R323, R327,
R328). -/
def takeHead (s : State) (d : Fin 4) (q : Fin 131072) (dq : QDesc) (r : List Byte) (cs : List (Fin 256)) : List Act :=
  let slot := dq.head
  let came (p : Park) : Bool := p.appended && !p.taken && p.queue == q && p.slot == slot
  let mark := (((List.finRange 16).flatMap fun u => (s.quads[u]).parks).find? came).bind fun p =>
    p.flag.map fun f => (f.1, BitVec.ofNat 16 f.2, p.core)
  andThen s (headTaken s q dq) (fun s1 => blockedActs s1 q false) ++ onParks s came (fun p => { p with taken := true }) ++
    [.spawned fun xs => xs.filter fun x => !(x.queue == q && x.slot == slot)] ++
    ((List.finRange 4).map fun o => .die o fun x => { x with reserved := x.reserved.filter fun z => z.1 != q }) ++
    [.drawn 80, .die d fun x =>
      let y := setCredit x q.val (creditOf x q.val dq.weight - 1)
      { y with served := q.val
               seating := y.seating ++ [{ cores := cs, record := r, queue := some q, parkFlag := mark, resume := [] }] }]

/-- The queues of priority `p` in turn (R327): the acts so far, and whether a record has been seated. -/
def serveQueues (s : State) (d : Fin 4) (p : Nat) : List (Fin 131072) → List Act × Bool
  | [] => ([], false)
  | q :: qs =>
    let dq := queueAt s q
    let r := memBytes s.mem (ringSlot dq dq.head) 64
    let h := recHeader r
    if creditOf s.dies[d] q.val dq.weight = 0 then serveQueues s d p qs
    else if headBad r then (headTaken s q dq, true)
    else
      match seatsFor s d q p r with
      | [] =>
        let acts := reserveActs s d q p r ++
          blockedActs s q (hBound h && !bitAt (s.parts[dq.part]).qmask (hQuad h).val)
        let (more, b) := serveQueues (applyActs s acts) d p qs
        (acts ++ more, b)
      | cs => (takeHead s d q dq r cs, true)

/-- The release of a queue's head is over: the accesses of the bundle that appended it have performed (R271). -/
def headReleased (s : State) (q : Fin 131072) (head : Nat) : Bool :=
  s.spawned.all fun x => !(x.queue == q && x.slot == head) || !(s.outstanding x.core x.needs)

/-- The non-empty queues of priority `p` that a die serves, in round-robin order after the last one served (R327, R394):
those of partitions in queue launch (R330), and the pager queue of any (R189). -/
def servedQueues (s : State) (d : Fin 4) (p : Nat) : List (Fin 131072) :=
  let qs := (activeQueues s).filter fun q =>
    let x := queueAt s q
    x.en && x.prio == p && x.count != 0 && (s.parts[x.part]).imgV && ((s.parts[x.part]).queued || x.cls == 1) && headReleased s q x.head &&
      (List.range 4).any fun i => bitAt (s.parts[x.part]).qmask (4 * d.val + i)
  let last := (s.dies[d]).served
  (qs.filter fun q => decide (last < q.val)) ++ qs.filter fun q => decide (q.val ≤ last)

/-- One priority of the dispatcher's run (R327). -/
def servePriority (s : State) (d : Fin 4) (p : Nat) : List Act × Bool :=
  let ready := (s.dies[d]).resume.filter fun r => hPrio (recHeader r.record) == p
  match ready.findSome? (resumeSeats s d) with
  | some (rs, cs) =>
    ([.drawn 1, .die d fun x =>
      { x with resume := x.resume.filter fun o => !(rs.any fun r => r.cont.cid == o.cont.cid)
               seating := x.seating ++ [{ cores := cs, record := (rs.head?.map ResumeRec.record).getD [], queue := none
                                          parkFlag := none, resume := rs }] }], true)
  | none =>
    let qs := servedQueues s d p
    let spent := !qs.isEmpty && qs.all fun q => creditOf s.dies[d] q.val (queueAt s q).weight == 0
    let refill : List Act := if spent then qs.map fun q => .die d fun x => setCredit x q.val (queueAt s q).weight else []
    let (acts, b) := serveQueues (applyActs s refill) d p qs
    (refill ++ acts, b)

/-- The priorities from the highest down (R327). -/
def serveFrom (s : State) (d : Fin 4) : Nat → List Act
  | 0 => []
  | p + 1 =>
    let (acts, b) := servePriority s d p
    if b then acts else acts ++ serveFrom (applyActs s acts) d p

/-- Other cores for a picked record that has lost its own (R331, R353); it comes before every other record (log entry 103). -/
def placeAgain (s : State) (d : Fin 4) : Option (List Act) :=
  (s.dies[d]).seating.zipIdx.findSome? fun t => if !t.1.cores.isEmpty then none else t.1.queue.bind fun q =>
    match seatsFor s d q (hPrio (recHeader t.1.record)) t.1.record with
    | [] => none
    | cs => some [.drawn 80, .die d fun x => { x with seating := x.seating.modify t.2 fun o => { o with cores := cs } }]

/-- DISPATCH_PICK (R327): with a core of the die idle, the dispatcher picks one record, one that was picked before and lost
its cores first (log entry 103). -/
def dispatchPick (s : State) (d : Fin 4) : List Act :=
  if (dieCores d).any (idleCore s d) then (placeAgain s d).getD (serveFrom s d 8) else []

/-- A picked record that is bound to a quadrant goes back to its queue's head, with STATUS.BLOCKED set, where its slot still
stands before HEAD (R331). -/
def putBack (s : State) (d : Fin 4) (i : Nat) (t : Seating) : List Act :=
  match t.queue with
  | none => []
  | some q =>
    let dq := queueAt s q
    let slot := (dq.head + dq.slots - 1) % dq.slots
    if !(hBound (recHeader t.record)) || dq.full || memBytes s.mem (ringSlot dq slot) 64 != t.record then []
    else
      andThen s (wordActs (queueAddr s q + 8) slot ++ touchBytes s (queueAddr s q + 8) 4) (fun s1 => blockedActs s1 q true) ++
        onParks s (fun p => t.parkFlag.any fun f => p.holds f.2.2 f.1 && p.taken) (fun p => { p with taken := false, slot }) ++
        [.die d fun x => { setCredit x q.val (creditOf x q.val dq.weight + 1) with seating := x.seating.eraseIdx i }]

/-- Cores that may serve their records no more: reservations leave them, picked records lose them, and images that would
have been restored on them wait in the resume list again (R328, R331, R353). -/
def unseatActs (s : State) (lost : Fin 256 → Bool) : List Act :=
  (List.finRange 4).filterMap fun d =>
    let x := s.dies[d]
    if (x.reserved.any fun r => r.2.any lost) || x.seating.any fun t => t.cores.any lost then
      some (.die d fun x => { x with
        reserved := x.reserved.map fun r => (r.1, r.2.filter fun c => !lost c)
        resume := (x.seating.filter fun t => t.queue.isNone && t.cores.any lost).flatMap Seating.resume ++ x.resume
        seating := (x.seating.filter fun t => t.queue.isSome || !(t.cores.any lost)).map fun t =>
          if t.cores.any lost then { t with cores := [] } else t })
    else none

/-- Those of the picked records without cores that are bound to a removed quadrant go back to their queues, the latest first
(R331). -/
def putBackAll (gone : Half) (d : Fin 4) : Nat → State → List Act
  | 0, _ => []
  | i + 1, s =>
    match (s.dies[d]).seating[i]? with
    | none => putBackAll gone d i s
    | some t =>
      let acts := if t.cores.isEmpty && bitAt gone (hQuad (recHeader t.record)).val then putBack s d i t else []
      acts ++ putBackAll gone d i (applyActs s acts)

/-! ### Pickup (R319) -/

/-- A continuation as a record of STATE 0 or 1 starts it (R319). -/
def seatedCont (s : State) (c : Fin 256) (r : List Byte) (q : Fin 131072) (cid member : Nat) (team : Option Nat) : Cont :=
  let h := recHeader r
  let d := queueAt s q
  let carries (w : Nat) : Bool := decide (w < 4) && member == 0 && bitAt (hCarry h) w
  let many := decide (hLevel h = 1) || decide (hLevel h = 2)
  let k := Cont.zero cid
  { k with
    part := hPart h, status := Vector.replicate 64 0, pc := recEntry r, tvec := d.tvec, ts := recTs r, cstat := cSetPriv 0 d.priv, team
    info := some ⟨h, recCompletion r, q⟩
    s := Vector.ofFn fun i =>
      if i.val < 4 then recArg r i.val
      else if many && i.val == 4 then BitVec.ofNat 64 member
      else if many && i.val == 5 then BitVec.ofNat 64 (hSize h + 1)
      else 0
    bmap := Vector.ofFn fun w =>
      if carries w.val then attached c (recBank r w.val)
      else ⟨0, false, decide (w.val < 8) && bitAt (hOpenm h) w.val, 0⟩ }

/-- A clamp that nobody was seated to see shows in CSTAT.OVF (R251). -/
def Cont.sawClamp (k : Cont) (o : Bool) : Cont := if o then { k with cstat := cSetOvf k.cstat } else k

/-- The increments held for a core are added, and held no longer (R251, R319). -/
def CoreSt.takeHeld (x : CoreSt) : CoreSt :=
  { x with cont := ((List.finRange 32).foldl (fun k i => if x.held[i] = 0 then k else k.bumpFlag i (x.held[i]).toNat) x.cont).sawClamp
             x.heldOvf
           held := Vector.replicate 32 0, heldOvf := false }

/-- A continuation is seated on a core: it fetches from memory as it is now (R91), and issues first at `at_`; the increments
held for the core are added to its flags, after an image launch as well (R251; log entry 76). -/
def CoreSt.sit (x : CoreSt) (k : Cont) (s : State) (at_ : Nat) : CoreSt :=
  CoreSt.takeHeld { x with cont := k, keep := none, stale := x.keep <|> x.stale, phase := .running, preempt := false, holds := []
                           code := s.mem, codeBad := s.poisoned, inBuf := [], clk := max x.clk at_ }

/-- The seating that waits for a core. -/
def seatingOf (s : State) (c : Fin 256) : Option Seating := (s.dies[dieOf c]).seating.find? fun t => t.cores.contains c

/-- Before a continuation is seated, its quadrant's written slot table is checked (R265): a valid one takes effect, an
invalid one gives way to the reset content and is reported. -/
def slotActs (s : State) (q : Fin 16) : List Act :=
  let u := s.quads[q]
  if u.slotNew = u.slottab then []
  else if slotValid u.slotNew then [.quad q fun u => { u with slottab := u.slotNew }]
  else [.quad q fun u => { u with slottab := QuadSt.zero.slottab, slotNew := QuadSt.zero.slotNew }, .report (.slotTable q)]

/-- The slot tables of the quadrants of some cores are checked (R265). -/
def slotsActs (s : State) (cs : List (Fin 256)) : List Act := (cs.map quadOf).eraseDups.flatMap (slotActs s)

/-- A seating's cores all lie in its partition's quadrants, and none is braked: a write may have removed or braked one since
they were picked (R331, R353). -/
def stillIn (s : State) (p : Fin 16) (cs : List (Fin 256)) : Bool := cs.all fun c => inPart s p c && !(s.cores[c]).braked

/-- Other cores are picked for a record whose quadrant was removed from its partition (R331). -/
def pickAgain (s : State) (d : Fin 4) (t : Seating) (q : Fin 131072) : List Act :=
  match seatsFor s d q (hPrio (recHeader t.record)) t.record with
  | [] => []
  | cs => [.drawn 80, .die d fun x =>
      { x with seating := x.seating.map fun o => if o.cores = t.cores then { o with cores := cs } else o }]

/-- The banks that a record carries have no access of the core they left to wait for (R167, R316). -/
def carriedDrained (s : State) (bs : List (Fin 4096)) : Bool :=
  bs.all fun b => match (s.banks[b]).transit with
    | some (.carried _ cid) => drained s b cid
    | _ => true

/-- PICKUP (R319): 64 cycles after the decision the record is seated on its cores. -/
def pickup (s : State) (c : Fin 256) : List Act :=
  match seatingOf s c with
  | none => []
  | some t =>
    match t.queue with
    | none => []
    | some q =>
      let h := recHeader t.record
      let many := decide (hLevel h = 1) || decide (hLevel h = 2)
      let team : Option Nat := if many then some s.nextId else none
      let lead := t.cores.headD c
      let count : Nat := match t.parkFlag with
        | none => 0
        | some (f, n, o) =>
          ((((s.quads[quadOf o]).parks.find? fun p => p.holds o f && p.appended).map fun p => p.count.toNat).getD 0) - n.toNat
      let clamped : Bool := match t.parkFlag with
        | none => false
        | some (f, _, o) => (((s.quads[quadOf o]).parks.find? fun p => p.holds o f && p.appended).map Park.ovf).getD false
      let flag : List Act := match t.parkFlag with
        | none => []
        | some (f, _, o) =>
          -- the park's count is in the flag before the increments held for the core are added to it
          [.quad (quadOf o) fun u => { u with parks := u.parks.filter fun p => !(p.holds o f && p.appended) },
           .core lead fun x => { x with held := vset x.held f (bump x.held[f] count).1
                                        heldOvf := x.heldOvf || (bump x.held[f] count).2 || clamped }]
      let sit : List Act := (List.range t.cores.length).filterMap fun i => (t.cores[i]?).map fun o =>
        .core o fun x => x.sit (seatedCont s o t.record q (s.nextId + 1 + i) i team) s (s.clock + 64)
      let carried : List (Fin 4096) := ((List.range 4).filter fun j => bitAt (hCarry h) j).map fun j => bankOf lead (recBank t.record j)
      let banks : List Act := carried.map fun b => .bank b fun b => { b with transit := none }
      if !stillIn s (hPart h) t.cores then pickAgain s (dieOf c) t q
      else if !carriedDrained s carried then []
      else
      slotsActs s t.cores ++
      [.die (dieOf c) fun x => { x with seating := x.seating.filter fun o => !o.cores.contains c }] ++ flag ++ sit ++ banks ++
        (if many then [.barriers fun bs => bs ++
          [{ team := s.nextId, band := hLevel h == 2, members := t.cores, arrived := [], retired := [], gen := 0 }]] else []) ++
        [.ids 80]

end Sys2Proof.Machine
end

