-- ==== Sys2Proof/Machine/TrapOps.lean ====
section
/-! DEFINITION. Traps as a step takes them (R339, R344), the trap instructions (R348-R352), pre-emption, spill and
resumption (R343-R347), brakes (R353), margins (R354-R359) and the in-field logic test (R363-R365). -/

namespace Sys2Proof.Machine

/-! ### Taking a trap -/

/-- An exchange that a held bundle of a core started is dropped with the bundle. -/
def dropExchange (c : Fin 256) : Act := .releases fun rs => rs.filter fun r => !(r.src == c && r.deliver == .nothing)

/-- A core takes a trap (R339, R344): its parked loads are withdrawn, and a trap that reaches no handler is reported. -/
def trapActs (s : State) (c : Fin 256) (t : Trap) : List Act :=
  let x := s.cores[c]
  let ps := parkedOf s c x.cont
  let unhandled := tHnd x.cont.tcause || x.cont.tvec == 0
  let seen := (x.takeTrap ps t).cont.tcause
  let cause : W64 := if tHnd x.cont.tcause then setBits seen 0 (causeCode t.cause) else seen
  [.core c fun x => x.takeTrap ps t] ++ withdrawActs ps ++ [dropExchange c] ++
    (if unhandled then [.report (.trap c x.cont.pc cause t.info)] else [])

/-- Every output element of a binding that has landed is written (R165). -/
def Binding.settled (b : Binding) : Bool := !b.out || b.buf.all fun e => !e.ready || e.written

/-- What must follow accesses and instructions waits for an access of `ids`, itself or through them. -/
def State.awaits (s : State) (ids : List Nat) : Nat → List Nat → List Nat → Bool
  | 0, needs, _ => needs.any ids.contains
  | n + 1, needs, after => needs.any ids.contains || s.jobs.any fun j => after.contains j.id && s.awaits ids n j.needs j.after

/-- An image may be saved: its loads have given their data or are parked, and its landed output elements are written, those
of streams that an `unstrm` has left too (R165, R339), but for elements that must follow a load which the freeze has
parked (log entry 80). -/
def savable (s : State) (c : Fin 256) : Bool :=
  match (s.cores[c]).keep with
  | none => true
  | some k =>
    let parks := k.parks.map fun p => p.2.id
    let done (b : Binding) : Bool := b.settled || (!parks.isEmpty && s.awaits parks 2 b.needs b.after)
    k.loads.all (fun r => parks.contains r.id) && k.strm.all (fun b => b.all done) && k.drains.all fun d => done d.2.2

/-- CONTEXT_SAVE_COMPLETE (R339, R344, R345): the image is in the keep bank; the handler starts, or the continuation
is stopped, or the core is free for the dispatcher. -/
def saveComplete (s : State) (c : Fin 256) : List Act :=
  if !savable s c then []
  else match (s.cores[c]).phase with
    | .trapSave code => [.core c fun x => let y := x.startHandler (code != 0); { y with clk := y.clk + 469 }]
    | .preemptSave => [.core c fun x => { x with cont := Cont.zero 0, phase := .saved, clk := x.clk + 469 }]
    | _ => []

/-! ### The trap instructions -/

/-- `cmpt` with scalars (R351). -/
def effCmptScalar (a b : Spec) : Eff := fun e =>
  .ok { late := if e.k.scalar a = e.k.scalar b then none else some ⟨.cmpt, 0⟩ }

/-- `cmpt` with vectors (R351): bit patterns are compared, padding lanes too. -/
def effCmptVector (a b : KData) (m : Option (Fin 48)) : Eff := fun e =>
  let x := e.k.kdata a
  let y := e.k.kdata b
  let on (i : Nat) : Bool := match m with | none => true | some p => bitAt e.k.p[p] i
  .ok { late := (leastBelow 64 fun i => on i && lane x i != lane y i).map fun i => ⟨.cmpt, BitVec.ofNat 64 (64 + i)⟩ }

/-- `trap` (R348). -/
def effTrap (imm : Half) : Eff := fun _ => .ok { late := some ⟨.trapi, imm.setWidth 64⟩ }

/-- Streams are bound again (R162, R165). -/
def Cont.rebound (k : Cont) (c : Fin 256) : Cont := { k with strm := k.strm.map (Option.map fun b => b.resolved k c) }

/-- A continuation at a code address, with a privilege. -/
def Cont.at_ (k : Cont) (pc : W32) (priv : Bool) : Cont := { k with pc, cstat := cSetPriv k.cstat priv }

/-- `rft` (R349): TPC and PPRIV are read before the bundle, whose own `mtc` may write them (R6). -/
def effRft : Eff := fun e =>
  if tHnd e.k.tcause then
    let parks := (e.x.keep.map fun k => (e.x.written k).parks).getD []
    .ok { last := [.core e.c fun x =>
        let y := x.returnFrom e.c
        { y with cont := ((y.cont.rebound e.c).setLat e.c).at_ e.k.tpc (tPpriv e.k.tcause), clk := y.clk + 469 }] ++
          reparkActs parks }
  else
    .ok { acts := [.cont e.c fun k => { k with cstat := cSetPriv k.cstat (tPpriv e.k.tcause) }], jump := some (e.k.tpc, 2) }

/-- One more architectural cycle of a continuation: what is due lands (R75). -/
def Cont.cycle (k : Cont) : Cont := Cont.landDue { k with acyc := k.acyc + 1 }

/-- The hold of `rft` (R349): until the handler's results have landed, which they go on doing, its loads have performed and
its `give` has attached. -/
def holdRft : Hold := fun e =>
  if !(tHnd e.k.tcause) then none
  else if !e.k.pend.isEmpty then some [.cont e.c Cont.cycle]
  else holdWhile (!e.k.loads.isEmpty || e.k.give.isSome)

/-- `idle` (R350). -/
def effIdle : Eff := fun e =>
  let pc := e.k.pc
  .ok { last := [.cont e.c fun k => { k with stopped := true, pc }] }

/-! ### Brakes (R352, R353, R386) -/

/-- A margin log entry (R386). -/
def marginEntry (s : State) (who : Half) (kind : Nat) (tent rplcnt : W64) : List Byte :=
  leBytes 2 who.toNat ++ [BitVec.ofNat 8 kind, BitVec.ofNat 8 (tentOff tent)] ++ leBytes 4 (bits rplcnt 24 8).toNat ++
    leBytes 8 (hubNow s)

/-- An entry is written to a die's margin log. -/
def marginActs (d : Fin 4) (e : List Byte) : List Act :=
  [.die d fun x => { x with margin := (x.margin ++ [e]).drop (x.margin.length - 63), marginCount := x.marginCount + 1 }]

/-- A request to pre-empt a core, and every member of its gang or band with it (R263, R345). -/
def preemptActs (s : State) (c : Fin 256) : List Act :=
  let k := (s.cores[c]).cont
  let all := match k.team with
    | none => [c]
    | some t => (List.finRange 256).filter fun o => (s.cores[o]).cont.team == some t
  all.filterMap fun o =>
    if (s.cores[o]).phase == .vacant then none else some (.core o fun x => { x with preempt := true })

/-- A core is braked, or its brake lifted (R353). -/
def brakeCore (s : State) (c : Fin 256) (on : Bool) : List Act :=
  let x := s.cores[c]
  let who : Half := BitVec.ofNat 16 c.val
  [.core c fun x => { x with braked := on, failed := x.failed && on, tent := tentBrake x.tent on }, .report (.brake who on)] ++
    marginActs (dieOf c) (marginEntry s who (if on then 1 else 2) x.tent x.rplcnt) ++
    (if on then preemptActs s c ++ unseatActs s (· == c) else [])

/-- A stone is braked, or its brake lifted (R353). -/
def brakeStone (s : State) (x : Fin 64) (on : Bool) : List Act :=
  let y := s.stones[x]
  [.stone x fun y => { y with braked := on, tent := tentBrake y.tent on }, .report (.brake (stoneHome x.val) on)] ++
    marginActs (fin 3 (x.val / 16)) (marginEntry s (stoneHome x.val) (if on then 1 else 2) y.tent y.rplcnt)

/-- The cores of a tile. -/
def tileCores (t : Fin 64) : List (Fin 256) := (List.range 4).map fun i => fin 255 (4 * t.val + i)

/-- A tile is braked with its four cores, or its brake lifted (R353). -/
def brakeTile (s : State) (t : Fin 64) (on : Bool) : List Act :=
  [.tile t fun x => { x with braked := on, failed := x.failed && on }, .report (.brake (tileHome t.val) on)] ++
    (tileCores t).flatMap fun c => brakeCore s c on

/-- What `brake` acts on: the bits of T that name a target (R352). -/
def brakeBits : BrakeKind → Nat
  | .core => 8
  | .stone => 6
  | .tile => 6

/-- `brake` (R352). -/
def brakeWith (kind : BrakeKind) (t : Spec) (on : Bool) : Eff := fun e =>
  let v := e.k.scalar t
  if v.toNat / 2 ^ brakeBits kind ≠ 0 then .error (descr 8 (bits v 0 8))
  else .ok { last := match kind with
    | .core => brakeCore e.s (fin 255 v.toNat) on
    | .stone => brakeStone e.s (fin 63 v.toNat) on
    | .tile => brakeTile e.s (fin 63 v.toNat) on }

/-- `brake` without CLR (R352). -/
def effBrake (kind : BrakeKind) (t : Spec) : Eff := brakeWith kind t true
/-- `brake` with CLR (R352). -/
def effBrakeClear (kind : BrakeKind) (t : Spec) : Eff := brakeWith kind t false

/-! ### Pre-emption, spill and resumption -/

/-- PREEMPTION_REQUEST (R345). -/
def preemptionRequest (s : State) (c : Fin 256) : List Act := preemptActs s c

/-- A core can be pre-empted at this boundary (R345): no handler runs on it, and its bundle has made no access whose effect
stands (R160, R316; log entry 107). -/
def preemptable (x : CoreSt) : Bool :=
  x.phase == .running && x.preempt && (!(tHnd x.cont.tcause) || x.cont.stopped) && x.cont.remote.isEmpty && x.cont.asked.isNone

/-- The cores frozen together: the coupled members of a fused gang (R263). -/
def frozenWith (s : State) (c : Fin 256) : List (Fin 256) :=
  match (s.cores[c]).cont.fused with
  | some f => if f.coupled then (memberCores c f.members).filter fun o =>
      o == c || ((s.cores[o]).cont.fused.map Fused.coupled) == some true else [c]
  | none => [c]

/-- PREEMPTION_TAKEN (R345, R263): the core freezes and its image goes to the keep bank; a coupled gang is taken whole
at one architectural cycle. -/
def preemptionTaken (s : State) (c : Fin 256) : List Act :=
  let all := frozenWith s c
  let together (o : Fin 256) : Bool :=
    (s.cores[o]).cont.stopped || (s.cores[c]).cont.stopped || (s.cores[o]).cont.acyc == (s.cores[c]).cont.acyc
  if all.all fun o => preemptable s.cores[o] && together o then
    all.flatMap fun o =>
      let ps := parkedOf s o (s.cores[o]).cont
      [.core o fun x => x.takePreempt ps] ++ withdrawActs ps ++ [dropExchange o]
  else []

/-- A continuation's place among its gang or band (R311). -/
def memberIx (s : State) (c : Fin 256) (k : Cont) : Nat :=
  match barrierOf s k with
  | none => 0
  | some b => (b.members.findIdx? fun m => m == c).getD 0

/-- The record of STATE 2 of a spilled continuation (R310, R347). -/
def spillRecord (s : State) (c : Fin 256) (k : Cont) (area : Nat) : List Byte :=
  let (h, comp) := k.seat
  let h := setBits (setBits (setBits (setBits h 14 2#2) 24 0#4) 28 (BitVec.ofNat 4 (quadOf c).val)) 52
    (BitVec.ofNat 6 (memberIx s c k))
  recBytes (setBits h 20 (BitVec.ofNat 4 k.part.val)) k.tpc [] k.ts comp [BitVec.ofNat 64 area]

/-- A gang or band whose spilled members are complete and one of whose cores failed a test is reported with the
addresses of its context areas (R353). -/
def groupReport (s : State) (d : Fin 4) (k : Cont) : List Act :=
  match barrierOf s k with
  | none => []
  | some b =>
    let rs := (s.dies[d]).resume.filter fun r => r.cont.team == some b.team
    if (b.members.all fun m => b.retired.contains m || rs.any fun r => r.core == m) && rs.any (fun r => (s.cores[r.core]).failed)
    then [.report (.group (hGroup k.seat.1) (rs.map (·.area)))] else []

/-- The address of a context area, which the dispatcher chooses in main memory (R310, R347; log entry 50). -/
def contextArea (n : Nat) : Nat := (Config.freeWord n).toNat % 2 ^ 22 * 2 ^ 17

/-- The bytes of a circuit's entries (R347). -/
def entryBytes (v : Vector (Option VReg) 16) : List Byte :=
  (List.finRange 16).flatMap fun i => leBytes 256 ((v[i]).getD 0).toNat

/-- The 60,032 bytes of an image in a core's keep bank and the 8,192 of its circuit extension (R347). -/
def contextBytes (x : CoreSt) (k : Cont) : List Byte :=
  ((List.range imageWords).flatMap fun w => leBytes 8 (x.keepRead w).toNat) ++ entryBytes k.send ++ entryBytes k.recv

/-- A word of a context area. -/
def areaWord (m : List Host.Cell) (area w : Nat) : W64 := BitVec.ofNat 64 (memNat m (area + 8 * w) 8)

/-- The words of a context area that are not those of the image that was spilled to it. -/
def areaWrites (m : List Host.Cell) (area : Nat) (k : Cont) : List (Nat × W64) :=
  (List.range imageWords).filterMap fun w =>
    if areaWord m area w = k.imageRead w then none else some (w, areaWord m area w)

/-- The circuit entries of a context area: those that were full (R268, R347). -/
def areaEntries (m : List Host.Cell) (area first : Nat) (v : Vector (Option VReg) 16) : Vector (Option VReg) 16 :=
  Vector.ofFn fun i => (v[i]).map fun _ =>
    BitVec.ofNat 2048 (memNat m (area + 8 * imageWords + 256 * (first + i.val)) 256)

/-- The image that a context area holds (R347): both its parts are loaded from memory, the completions that arrived since it was
spilled with them (R204). -/
def Cont.loaded (k spilt : Cont) (m : List Host.Cell) (area : Nat) : Cont :=
  { k.imageWrites (areaWrites m area spilt) with send := areaEntries m area 0 k.send, recv := areaEntries m area 16 k.recv }

/-- CONTEXT_SPILL (R347): the saved image is written to a context area, and its record is in the die's resume list.
Accesses other than withdrawn ones have performed, and no circuit transfer is under way to it. -/
def contextSpill (s : State) (c : Fin 256) : List Act :=
  let x := s.cores[c]
  match x.phase, x.keep with
  | .saved, some k =>
    let moving := (s.quads[quadOf c]).moving.any fun t => t.dst == quadIx c
    if moving || !(k.acc.all fun a => k.parks.any fun p => p.2.id == a.id) then []
    else
      let area := contextArea s.free
      let w := x.written k
      let r : ResumeRec := { record := spillRecord s c k area, cont := w, area, core := c, spilt := w }
      let acts : List Act :=
        [.drawn 1, .die (dieOf c) fun d => { d with resume := d.resume ++ [r] },
         .core c fun x => { x with keep := none, stale := some k, phase := .vacant, code := [], codeBad := [], inBuf := [] }] ++
          writeActs area (contextBytes x k) ++ touchBytes s area (8 * imageWords + 8192)
      acts ++ groupReport (applyActs s acts) (dieOf c) k
  | _, _ => []

/-- A restored continuation (R343): it issues at TPC after its owed cycles, the monitor is armed and streams are bound
again; its circuits go on from the cycle `now` (R268). -/
def Cont.restored (k : Cont) (c : Fin 256) (now : Nat) : Cont :=
  let j : Cont := { k.goesOn with pc := k.tpc, parks := [], remote := [], asked := none
                                  sendAt := Vector.replicate 16 now, recvAt := Vector.replicate 16 now }
  Cont.setLat (Cont.rebound (Cont.rearm j c) c) c

/-- RESUME (R343, R347): the images of a resumed seating are restored on its cores, and parked loads parked again; where a
quadrant was removed from the partition meanwhile, the records go back to the list (R331). -/
def resumeSeat (s : State) (c : Fin 256) : List Act :=
  match seatingOf s c with
  | none => []
  | some t =>
    if t.queue.isSome then []
    else
      if !(t.resume.all fun r => stillIn s r.cont.part t.cores) then
        [.die (dieOf c) fun x => { x with seating := x.seating.filter (fun o => !o.cores.contains c), resume := x.resume ++ t.resume }]
      else
      slotsActs s t.cores ++
        [.die (dieOf c) fun x => { x with seating := x.seating.filter fun o => !o.cores.contains c }] ++
        (List.range t.cores.length).flatMap fun i => match t.cores[i]?, t.resume[i]? with
          | some o, some r =>
            let k := r.cont.loaded r.spilt s.mem r.area
            touchBytes s r.area (8 * imageWords + 8192) ++ (.core o fun x => x.sit (k.restored o (s.clock + 533)) s (s.clock + 533)) ::
              reparkActs (k.parks.map fun p => (p.1, { p.2 with core := o }))
          | _, _ => []

/-! ### Margins (R355-R359) -/

/-- Escalation (R358): the new TENT, and whether the core is at its ceiling. -/
def escalate (tent : W64) : W64 × Bool :=
  if 0 < tentOff tent then (tentSet tent (tentOff tent - 1) (tentStretch tent), false)
  else if !tentStretch tent then (tentSet tent 0 true, false)
  else (tent, true)

/-- A late transition is counted in TENT and RPLCNT (R355, R358): the two, whether it escalated, and whether the unit is at
its ceiling. -/
def lateCounts (tent rplcnt : W64) : W64 × W64 × Bool × Bool :=
  let r := rplTotal rplcnt
  if rplWin r < rplLimit r then (tent, setBits r 8 (BitVec.ofNat 4 (rplWin r + 1)), false, false)
  else
    let (t, top) := escalate tent
    (t, rplEsc (setBits r 8 0#4), true, top)

/-- A late transition is counted (R355, R358): the core's counts and margin, whether it escalated, and whether it is at
its ceiling. -/
def CoreSt.late (x : CoreSt) : CoreSt × Bool × Bool :=
  let (t, r, esc, top) := lateCounts x.tent x.rplcnt
  ({ x with rplcnt := r, tent := t }, esc, top)

/-- What a late transition found in an operation names (R355, R359): its latency, and the code address and slot of the
bundle that issued it; an operation computed at issue counts one cycle. -/
def lateOperation (k : Cont) : LateOp → Option (Nat × W32 × Slot)
  | .issue slot => some (1, k.pc, slot)
  | .pending i => (k.pend[i]?).map fun p => (p.lat, p.pc, p.slot)

/-- A late transition in a core (R355, R358, R359): it holds for the operation's latency and 2 cycles while the operation is
computed again; a third late attempt goes to the guaranteed margin and traps REPLAYLIM. -/
def coreLate (s : State) (c : Fin 256) (lat : Nat) (pc : W32) (slot : Slot) (attempt : Fin 3) : List Act :=
  let x := s.cores[c]
  let (y, esc, top) := x.late
  let who : Half := BitVec.ofNat 16 c.val
  let all := frozenWith s c
  let hold : List Act := all.map fun o => .core o fun z => { z with clk := z.clk + lat + 2 }
  let counts : List Act := [.core c fun z =>
    { z with rplcnt := y.rplcnt, tent := y.tent, stretchEnd := if tentStretch y.tent then z.clk + 64 else z.stretchEnd }]
  let log := if esc then marginActs (dieOf c) (marginEntry s who 0 y.tent y.rplcnt) else []
  let s1 := applyActs s counts
  let brake1 := if top then brakeCore s1 c true else []
  if attempt.val < 2 then hold ++ counts ++ log ++ brake1
  else
    let floor := tentOff x.tent = 0 ∧ tentStretch x.tent
    let settle : List Act := [.core c fun z => { z with tent := tentSet z.tent 0 true }]
    let info : W64 := BitVec.ofNat 64 (slotIx slot * 2 ^ 32 + pc.toNat)
    hold ++ counts ++ log ++ settle ++ marginActs (dieOf c) (marginEntry s who 3 (tentSet y.tent 0 true) y.rplcnt) ++
      trapActs s c ⟨.replaylim, info⟩ ++ (if floor || top then brakeCore (applyActs s1 settle) c true else [])

/-- The cycles of a replay window (R358). -/
def replayWindow : Nat := 65536

/-- A late transition in a stone (R355, R358, R359): the beat is replayed and nothing of its values changes; it is counted in
the stone's window, may escalate, and brakes a stone at its ceiling; a third late attempt escalates to OFFSET 0. An
escalation is counted and logged once. -/
def stoneLate (s : State) (x : Fin 64) (attempt : Fin 3) : List Act :=
  let y := s.stones[x]
  let d : Fin 4 := fin 3 (x.val / 16)
  let who := stoneHome x.val
  let window := s.clock / replayWindow
  let (t, r, esc, top) := lateCounts y.tent (if window = y.window then y.rplcnt else setBits y.rplcnt 8 0#4)
  let last := decide (attempt.val = 2)
  let t := if last then tentSet t 0 (tentStretch t) else t
  let r := if last && !esc then rplEsc r else r
  let counts : List Act := [.stone x fun z => { z with tent := t, rplcnt := r, window }]
  counts ++ (if esc || last then marginActs d (marginEntry s who 0 t r) else []) ++
    (if top then brakeStone (applyActs s counts) x true else [])

/-- LATE_TRANSITION (R355): `op` names the operation in a core; a stone replays its beat, whichever it is. -/
def lateTransition (s : State) (u : LateUnit) (op : LateOp) (attempt : Fin 3) : List Act :=
  match u with
  | .stone x => stoneLate s x attempt
  | .core c =>
    -- nothing in flight advances while a bundle waits for an access that it has made (R72)
    if (s.cores[c]).phase != .running || (s.cores[c]).cont.asked.isSome then [] else
    match lateOperation (s.cores[c]).cont op with
    | none => []
    | some (lat, pc, slot) => coreLate s c lat pc slot attempt

/-- REPLAY_WINDOW_EXPIRY (R358). -/
def replayWindowExpiry (s : State) (c : Fin 256) : List Act :=
  if (s.cores[c]).clk < (s.cores[c]).windowEnd then []
  else [.core c fun x => { x with rplcnt := setBits x.rplcnt 8 0#4, windowEnd := x.windowEnd + replayWindow }]

/-- STRETCH_EXPIRY (R357). -/
def stretchExpiry (s : State) (c : Fin 256) : List Act :=
  if (s.cores[c]).stretchEnd = 0 ∨ (s.cores[c]).clk < (s.cores[c]).stretchEnd then []
  else [.core c fun x => { x with stretchEnd := 0 }]

/-- ISSUE_WATCHDOG_EXPIRY (R354): a timed hold of 2^20 cycles traps WATCHDOG on the held bundle. -/
def watchdogExpiry (s : State) (c : Fin 256) : List Act :=
  let x := s.cores[c]
  match x.holds.find? fun h => decide (Config.watchdogCycles ≤ h.2) with
  | some h => if x.phase == .running then trapActs s c ⟨.watchdog, h.1⟩ else []
  | none => []

/-! ### The in-field logic test (R363-R365) -/

/-- The tile a die tests next. -/
def testedTile (s : State) (d : Fin 4) : Fin 64 := fin 63 (d.val * 16 + (s.dies[d]).testTile.val)

/-- LOGIC_TEST_START (R363): the tile is braked. -/
def logicTestStart (s : State) (d : Fin 4) : List Act :=
  if !bitAt s.hub.ltest 15 || (s.dies[d]).testing || (s.dies[d]).poweredDown then []
  else (.die d fun x => { x with testing := true }) :: brakeTile s (testedTile s d) true

/-- A suspect record (R364). -/
def suspectRecord (s : State) (t : Fin 64) : List Byte :=
  let x := s.tiles[t]
  leBytes 2 (tileHome t.val).toNat ++ leBytes 2 x.nodes.length ++ leBytes 4 x.overflow.toNat ++
    leBytes 8 s.hub.lastPass[t] ++ leBytes 8 (hubNow s) ++ leBytes 8 0 ++
    ((List.range 64).map fun i => match x.nodes[i]? with
      | some (n, a, b) => leBytes 2 n.toNat ++ leBytes 2 0 ++ leBytes 4 a.toNat ++ leBytes 4 b.toNat ++ leBytes 4 0
      | none => leBytes 16 0).flatten

/-- A record is sent to nodes in management packets (R365). -/
def sendRecord (s : State) (r : List Byte) : List Half → List Act
  | [] => []
  | n :: ns =>
    let acts := sendActs s none { dst := n, kind := 0x0C, data := r } .nobody
    acts ++ sendRecord (applyActs s acts) r ns

/-- The reports for gangs and bands that are spilled already and left a core of a tile that fails (R353). -/
def groupReports (s : State) (d : Fin 4) (t : Fin 64) : List Act :=
  let rs := (s.dies[d]).resume.filter fun r => (tileCores t).contains r.core
  let teams := (rs.filterMap fun r => r.cont.team).eraseDups
  teams.flatMap fun n => match rs.find? fun r => r.cont.team == some n with
    | some r => groupReport s d r.cont
    | none => []

/-- A tile has failed its test (R363-R365): its suspect record goes to the die's log, the host, every node it lists and, where more
than 64 were reached, every node that the host names. -/
def tileFailed (s : State) (t : Fin 64) : List Act :=
  let d : Fin 4 := fin 3 (t.val / 16)
  let r := suspectRecord s t
  let acts : List Act := [.die d fun x =>
      { x with suspects := (x.suspects ++ [r]).drop (x.suspects.length - 3), suspectCount := x.suspectCount + 1 },
    .tile t fun x => { x with failed := true }, .report (.suspect r)] ++
      (tileCores t).map fun c => .core c fun x => { x with failed := true }
  let acts := acts ++ groupReports (applyActs s acts) d t
  let nodes := (s.hub.plan.host).toList ++ ((s.tiles[t]).nodes.map fun x => x.1) ++
    (if (s.tiles[t]).overflow then s.hub.plan.named else [])
  acts ++ (if s.hub.node = 0 then [] else sendRecord (applyActs s acts) r nodes.eraseDups)

/-- LOGIC_TEST_END (R363-R365): a passing tile's brake is lifted, unless an earlier test has failed it, and its log cleared;
a failing one stays braked. -/
def logicTestEnd (s : State) (d : Fin 4) (pass : Bool) : List Act :=
  if !(s.dies[d]).testing then [] else
  let t := testedTile s d
  let next : Act := .die d fun x => { x with testing := false, testTile := x.testTile + 1 }
  if pass then
    (if (s.tiles[t]).failed then [] else brakeTile s t false) ++ [next, .tile t fun x => { x with passed := x.passed + 1, nodes := [], overflow := false },
      .hub fun h => { h with lastPass := vset h.lastPass t (hubNow s) }]
  else
    next :: tileFailed s t

/-! ### `qfence` (R256) -/

/-- `qfence`: the next instruction of each named queue starts after those now in any named queue. -/
def effQfence (qmask : Byte) : Eff := fun e =>
  let mine := e.s.jobs.filter fun j => j.cid == e.k.cid && bitAt qmask j.queue.val &&
    (match j.work with | .place _ => false | _ => true)
  let named := (List.finRange 8).filter fun q => bitAt qmask q.val
  let more : List (Fin 8 × Nat) := named.flatMap fun q => mine.map fun j => (q, j.id)
  let open_ (f : Fin 8 × Nat) : Bool := e.s.jobs.any fun j => j.id == f.2
  .ok { acts := [.cont e.c fun k => { k with fences := k.fences.filter open_ ++ more }] }

end Sys2Proof.Machine
end

