-- ==== Sys2Proof/Machine/Pieces.lean ====
section
/-! DEFINITION. Pieces as events start and end them: copy pieces (R183-R188), `redf` (R197, R378), wheel steps (R295),
and the pager's answers (R188, R208). -/

namespace Sys2Proof.Machine

/-! ### `redf` -/

/-- The code of a reduction in a RED packet (R371). -/
def redCode : RedOp → Nat
  | .sum => 0 | .max => 1 | .min => 2

/-- n of a context (R378). -/
def ctxCount (x : Desc) : Nat := (bits x 74 16).toNat
/-- The contributor's index (R378). -/
def ctxIndex (x : Desc) : Nat := (bits x 90 16).toNat
/-- The epoch (R378). -/
def ctxEpoch (x : Desc) : Half := bits x 106 16

/-- A RED or ABST packet: the contributor count and the address of the contributor's destination travel beside it, since the
root learns them from its contributors (log entry 40). -/
def redPacket (j : Job) (kind : BitVec 6) (op : RedOp) (dst : Nat) (data : List Byte) : Packet :=
  let x := j.b.d
  { ts := j.ts, addr := bits x 0 46, dst := bits x 48 16, kind
    arg := BitVec.ofNat 24 (ctxIndex x * 2 ^ 19 + (if kind = 6 then
      redCode op * 2 ^ 17 + (if bits j.a.d 66 6 = 1#6 then 2 ^ 16 else 0) else 0) + (ctxEpoch x).toNat)
    list := [(BitVec.ofNat 16 (ctxCount x), BitVec.ofNat 46 dst)], data }

/-- A `redf` piece starts (R379): its source is read, once no earlier access through another view is left (R288), and sent
to the root; a source that cannot be read whole is an abstention, as is one whose page the pager has not found, for which
`reads` is false. Where the source's page is not present, no access has begun (R155, R188). -/
def startRedf (s : State) (j : Job) (op : RedOp) (ix : Nat) (p : Piece) (reads : Bool := true) : List Act :=
  match beginPiece s j ix false [] (p.pairs.map fun x => (j.dst, x.2)) with
  | .faults acts => acts ++ [.piece j.id ix fun q => { q with st := .faulted }]
  | .fails x acts => acts ++ pieceEnded j ix p x
  | .ok tr _ dst opened acts =>
    let s1 := applyActs s acts
    let x := j.b.d
    let send (kind : BitVec 6) (data : List Byte) (more : List Act) : List Act :=
      let acts := acts ++ more ++ [.piece j.id ix fun q => { q with st := .started, tr, opened },
        knowContext (bits x 48 16) (bits x 0 46)]
      if s.hub.node = 0 then acts ++ pieceEnded j ix { p with opened } codeTimeout
      else acts ++ sendActs (applyActs s acts) (some j.core) (redPacket j kind op ((spotBytes dst).headD 0) data) (.reduction j.id)
    if !reads then send 7 [] [] else
    match beginPiece s1 j ix false (p.pairs.map fun x => (j.a, x.1)) [] with
    | .faults more => more ++ [.piece j.id ix fun q => { q with st := .faulted }]
    | .fails _ more => send 7 [] more
    | .ok _ src _ srcOpened more =>
      let shut := more ++ endBanks srcOpened j.ts false ++ accessRows (applyActs s1 more) (rowsOf (spotBytes src))
      if !(viewFree s (dView j.a.d) (spotBytes src)) then []
      else if (lowestPoison s1 (spotBytes src)).isSome then send 7 [] shut
      else send 6 (readSpots s1.mem src) shut

/-! ### Copy pieces -/

/-- The pieces of a copy instruction are formed when its first piece starts (R183); the index words of a `gath` or `scat`
are read then, as engine accesses of their banks (R155, R182). -/
def prepareCopy (s : State) (j : Job) : List Act :=
  match j.work with
  | .wred => prepareWred s j
  | .wstat => prepareWstat s j
  | .gath => formed j (cutJob s j) :: passBanks (indexReads s j true) false (dBuf j.b.d) j.ts
  | .scat => formed j (cutJob s j) :: passBanks (indexReads s j false) false (dBuf j.b.d) j.ts
  | _ => [formed j (cutJob s j)]

/-- A waiting piece starts (R187); one whose outcome the cut has fixed ends at once. -/
def startPiece (s : State) (j : Job) (ix : Nat) (p : Piece) : List Act :=
  match p.fixed with
  | some x => pieceEnded j ix p x
  | none =>
    match j.work with
    | .cpy | .gath | .scat | .mcast _ => startMove s j ix p
    | .flume => startFlume s j ix p
    | .catom op => startCatom s j op ix p
    | .hot _ => startHot s j ix p
    | .wsa => startWsa s j ix p
    | .wred => startWred s j ix p
    | .wstat => startWstat s j ix p
    | .redf op => startRedf s j op ix p
    | _ => []

/-- An earlier piece of a job whose pieces start in increasing order has not started: rows of `wsa`, bags of `wred`, homes
of `wstat` and elements of `catom` (R194, R290, R292, R293). -/
def startsLater (j : Job) (ix : Nat) : Bool :=
  (match j.work with | .wsa | .wred | .wstat | .catom _ => true | _ => false) &&
    (j.pieces.take ix).any fun q => q.st == .waiting

/-- A waiting copy piece as the present tables cut it: a page that was absent when the instruction was cut may since have come
with VIEWS (R183, R287). -/
def recut (s : State) (j : Job) (p : Piece) : List Piece :=
  if p.quarter.isSome || p.fixed.isSome || p.pairs.isEmpty then [p]
  else match j.work with
  | .cpy | .gath | .scat | .mcast _ => cutCopy s j.part j.a.d (j.target p).d none p.row p.pairs
  | .catom _ => cutCopy s j.part j.a.d (j.target p).d (some j.b.d) p.row p.pairs
  | _ => [p]

/-- A waiting piece is replaced by the pieces it is cut into, and those after it are numbered anew (R183). -/
def splitPiece (s : State) (id ix : Nat) (ps : List Piece) : List Act :=
  let at_ (o : Nat × Nat) : Nat × Nat := if o.1 = id ∧ ix < o.2 then (o.1, o.2 + (ps.length - 1)) else o
  let who (w : Faulting) : Faulting := match w with
    | .piece i k => .piece (at_ (i, k)).1 (at_ (i, k)).2
    | w => w
  let asks (r : Requester) : Requester := match r with
    | .piece i k pos => .piece (at_ (i, k)).1 (at_ (i, k)).2 pos
    | r => r
  [.job id fun j => { j with pieces := j.pieces.take ix ++ ps ++ j.pieces.drop (ix + 1) },
   .faults fun fs => fs.map fun f => { f with who := who f.who },
   .hub fun h => { h with awaits := h.awaits.map fun a => { a with who := asks a.who } },
   .invals fun vs => vs.map fun v => { v with pieces := v.pieces.map at_ }] ++
  (List.finRange 512).filterMap fun h =>
    if (s.homes[h]).reqs.any fun r => r.owner.1 == id then
      some (.home h fun x => { x with reqs := x.reqs.map fun r => { r with owner := at_ r.owner } })
    else none

/-- A waiting piece of a prepared instruction starts, or is cut further first. -/
def startWaiting (s : State) (id ix : Nat) : List Act :=
  match s.job id with
  | none => []
  | some j =>
    match j.pieces[ix]? with
    | none => []
    | some p =>
      if !j.prepared || p.st != .waiting || startsLater j ix then []
      else if 1 < (recut s j p).length then splitPiece s id ix (recut s j p)
      else startPiece s j ix p

/-- COPY_PIECE_START (R183, R187): a piece of an instruction that nothing stands before starts. -/
def copyStart (s : State) (id ix : Nat) : List Act :=
  match s.job id with
  | none => []
  | some j =>
    if j.queue.val < 4 || !(j.ready s) then []
    else if j.prepared then startWaiting s id ix
    else if !j.pieces.isEmpty then []
    else
      let acts := prepareCopy s j
      acts ++ startWaiting (applyActs s acts) id ix

/-- A piece under way ends. -/
def endStarted (s : State) (j : Job) (ix : Nat) (p : Piece) : List Act :=
  match j.work with
  | .cpy | .gath | .scat | .mcast _ => endMove s j ix p
  | .flume => endFlume s j ix p
  | .catom op => endCatom s j op ix p
  | .hot clr => endHot s j clr ix p
  | .wred => if j.prepared then endWred s j ix p else finishIndex s j p
  | _ => []

/-- COPY_PIECE_END (R184, R185): a piece whose data has come performs and ends. -/
def copyEnd (s : State) (id ix : Nat) : List Act :=
  match s.job id with
  | none => []
  | some j =>
    match j.pieces[ix]? with
    | none => []
    | some p =>
      match p.st with
      | .started => if j.queue.val < 4 || !p.awaiting.isEmpty then [] else endStarted s j ix p
      | .performed x =>
        match j.work with
        | .wsa => pieceEnded j ix p x
        | .wstat => endWstat s j ix p
        | _ => []
      | _ => []

/-- The bytes of a copy piece from `lo` below `hi` go before the others: the piece asks for the rest of its bytes later
(R272; log entry 29). Nothing changes once it has requests at a pseudo-channel. -/
def movePart (s : State) (id ix lo hi : Nat) : List Act :=
  match s.job id with
  | none => []
  | some j =>
    let moves : Bool := match j.work with | .cpy | .gath | .scat | .mcast _ => true | _ => false
    let asked : Bool := (List.finRange 512).any fun h => (s.homes[h]).reqs.any fun r => r.owner == (id, ix)
    if !moves || asked then []
    else (if j.prepared || !j.pieces.isEmpty || !(j.ready s) then [] else prepareCopy s j) ++
      [.piece id ix fun q => { q with part := some (lo, hi) }]

/-! ### The pager's answers (R188, R208) -/

/-- A page fault is over. -/
def faultOver (handle : Nat) : Act := .faults fun fs => fs.filter fun f => f.handle != handle

/-- A faulted piece is tried again. -/
def restartPiece (s : State) (id ix : Nat) : List Act :=
  match s.job id with
  | none => []
  | some j =>
    if j.prepared then [.piece id ix fun p => { p with st := .waiting }]
    else [.job id fun j => { j with pieces := [] }]

/-- A faulted piece ends with a code. -/
def failPiece (s : State) (id ix : Nat) (x : BitVec 4) : List Act :=
  match s.job id with
  | none => []
  | some j =>
    if j.prepared then
      match j.pieces[ix]? with
      | some p => pieceEnded j ix p x
      | none => []
    else soleEnded j x

/-- A binding of a continuation, bound or left by an `unstrm`, updated. -/
def Cont.onBinding (k : Cont) (id : Nat) (f : Binding → Binding) : Cont :=
  let g (b : Binding) : Binding := if b.id = id then f b else b
  { k with strm := k.strm.map (Option.map g), drains := k.drains.map fun d => (d.1, d.2.1, g d.2.2) }

/-- The continuation holds a binding, bound or left by an `unstrm`. -/
def Cont.hasBinding (k : Cont) (id : Nat) : Bool :=
  (k.strm.any fun b => (b.map fun b => b.id == id) == some true) || k.drains.any fun d => d.2.2.id == id

/-- A binding updated wherever its continuation is. -/
def bindingActs (s : State) (id : Nat) (f : Binding → Binding) : List Act :=
  let g (k : Cont) : Cont := k.onBinding id f
  let h (r : ResumeRec) : ResumeRec := { r with cont := g r.cont }
  ((List.finRange 256).filter fun c =>
      (s.cores[c]).cont.hasBinding id || ((s.cores[c]).keep.map fun k => k.hasBinding id) == some true).map (fun c =>
    .core c fun x => { x with cont := g x.cont, keep := x.keep.map g }) ++
  (List.finRange 4).map fun d => .die d fun x =>
    { x with resume := x.resume.map h, seating := x.seating.map fun t => { t with resume := t.resume.map h } }

/-- Element `n` of a binding fails (R195): an output element counts as written, and gives its code at its turn; an input
element is marked as failed, if the fill still stands at it. -/
def Binding.failAt (b : Binding) (n : Nat) (x : BitVec 4) : Binding :=
  if b.out then
    { b with buf := b.buf.modify (n - b.fetched) fun e => { e with written := true, failed := true, data := x.setWidth 2048 } }
  else if b.fetched = n then
    { b with buf := b.buf ++ [{ n, data := x.setWidth 2048, ready := true, poison := none, failed := true, written := false }]
             fetched := n + 1 }
  else b

/-- The read of a `redf` source ends with a code other than OK: the contributor abstains (R379). -/
def abstainPiece (s : State) (id ix : Nat) : Option (List Act) :=
  match s.job id with
  | none => none
  | some j => match j.work, j.pieces[ix]? with
    | .redf op, some p => some (startRedf s j op ix p false)
    | _, _ => none

/-- A fault ends with a code: what it suspended ends (R188, R195, R208), but for a `redf` whose source it suspended. -/
def failFaulted (s : State) (f : PagerFault) (x : BitVec 4) : List Act :=
  match f.who with
  | .piece id ix => (if f.write then none else abstainPiece s id ix).getD (failPiece s id ix x)
  | .placement id => (match s.job id with | some j => soleEnded j x | none => [])
  | .stream _ b => bindingActs s b fun b => b.failAt f.piece.toNat x

/-- The pager's answer to a fault (R188): 0 restarts the walk, 3 ends it with NOFRAME, 4 with ACCESS; a handle of
nothing suspended, or another code, changes nothing. -/
def pagerResolve (s : State) (handle : Nat) (code : BitVec 4) : List Act :=
  match s.faults.find? fun f => f.handle == handle with
  | none => []
  | some f =>
    if code != 0 && code != codeNoframe && code != codeAccess then []
    else
      faultOver handle ::
        if code != 0 then failFaulted s f code
        else match f.who with
          | .piece id ix => restartPiece s id ix
          | _ => []

/-- The answer is accepted. -/
def pagerAccepts (s : State) (handle : Nat) (code : BitVec 8) : Bool :=
  (s.faults.any fun f => f.handle == handle) && (code == 0 || code == 3 || code == 4)

/-- PAGER_RECORD_APPEND (R189): a record that waited for a slot is appended; a queue that is there no more refuses it,
which ends what it suspended with ACCESS. -/
def pagerAppend (s : State) (handle : Nat) : List Act :=
  match s.faults.find? fun f => f.handle == handle && !f.appended with
  | none => []
  | some f =>
    match pagerQueue s f.part with
    | none => faultOver handle :: failFaulted s f codeAccess
    | some q =>
      let d := queueAt s q
      if d.full then []
      else appendActs s q (pagerRecord s d f) ++
        [.faults fun fs => fs.map fun g => if g.handle = handle then { g with appended := true } else g]

/-! ### Wheels (R295) -/

/-- WHEEL_STEP (R295, R296): with every ordinary request served and performed, a wheel takes one step of its first job
(R298). -/
def wheelStep (s : State) (h : Fin 512) : List Act :=
  let x := s.homes[h]
  if !x.reqs.isEmpty then []
  else
    match x.jobs with
    | [] => []
    | w :: _ =>
      match s.job w.job with
      | none => [wheelPop h]
      | some j =>
        match j.pieces[w.piece]? with
        | none => [wheelPop h]
        | some p =>
          if p.st != .started then [wheelPop h]
          else
            let pre := windowActs s h
            let s1 := applyActs s pre
            match j.work with
            | .wsa => pre ++ wsaStep s1 j w.piece p ++ [wheelPop h, stepCount h]
            | .wred => pre ++ wredStep s1 h j w.piece p w ++ [stepCount h]
            | .wstat => pre ++ [wheelEnds w.job w.piece codeOk, wheelPop h, stepCount h]
            | .tile _ =>
              let (acts, counted) := tileStep s1 h j w.piece p w
              pre ++ acts ++ (if counted then [stepCount h] else [])
            | _ => [wheelPop h]

end Sys2Proof.Machine
end

