-- ==== Sys2Proof/Machine/Launch.lean ====
section
/-! DEFINITION. Images and LAUNCH (R87-R90, R385, R394), doorbells (R330), partitions (R331) and power (R390), as
writes of their registers make them. -/

namespace Sys2Proof.Machine

/-- What a write of a system-space register does: it is taken, or refused with the status that a fabric write of it
gets and what the refusal itself records. -/
inductive SysRes | ok (acts : List Act) | refused (status : BitVec 4) (acts : List Act)

/-- A write that the device refuses (R373): malformed. -/
def refuse : SysRes := .refused 4 []

/-- A continuation of a partition is seated. -/
def partSeated (s : State) (p : Fin 16) : Bool :=
  (List.finRange 256).any fun c => let x := s.cores[c]
    x.phase != .vacant && (if x.phase == .saved then (x.keep.map fun k => k.part == p).getD false else x.cont.part == p)

/-! ### Images -/

/-- The pages of `n` bytes at a virtual address, each with the bytes it holds of them. -/
def pageRuns (va n : Nat) : List (Nat × Nat) :=
  if n = 0 then []
  else (List.range ((va + n - 1) / 4096 - va / 4096 + 1)).map fun i =>
    let a := if i = 0 then va else (va / 4096 + i) * 4096
    (a, min (va + n) ((va / 4096 + i + 1) * 4096) - a)

/-- Bytes read through a partition's tables, with their DRAM accesses (R196, R299): none where a translation fails or a sector
is poisoned (R385). -/
def vread (s : State) (p : Fin 16) (va n : Nat) : Option (List Byte × List Act) :=
  (pageRuns va n).foldl (fun acc r => acc.bind fun (bs, acts) =>
    let s1 := applyActs s acts
    match engineWalk s1 p r.1 false with
    | (.ok pa _ _ _, more) =>
      if (poisonIn s.poisoned pa r.2).isSome then none
      else
        let acts := acts ++ more
        some (bs ++ memBytes s.mem pa r.2, acts ++ touchBytes (applyActs s acts) pa r.2)
    | _ => none) (some ([], []))

/-- An image's directory (R88). -/
structure Directory where
  n : Nat
  starts : Nat
  startCount : Nat
  preloads : Nat
  preloadCount : Nat
  deriving DecidableEq, Repr

/-- The directory at a link base, or the reason it is refused: 7 unreadable, 2 wrong (R385). -/
def directoryAt (s : State) (p : Fin 16) (base : Nat) : Except Nat (Directory × List Act) :=
  match vread s p base 64 with
  | none => .error 7
  | some (b, acts) =>
    if recNat b 0 4 ≠ 0x474D4958 ∨ recNat b 4 2 ≠ 1 ∨ recNat b 6 2 ≠ 0 ∨ recNat b 8 4 ≠ 1 ∨ recNat b 56 8 ≠ base then .error 2
    else .ok (⟨recNat b 12 4, recNat b 32 8, recNat b 40 4, recNat b 48 8, recNat b 44 4⟩, acts)

/-- The image of a partition is set (R394). -/
def imageActs (p : Fin 16) (base : Nat) (d : Directory) : List Act :=
  [.part p fun x => { x with imgBase := BitVec.ofNat 36 (base / 4096), imgV := true, imgN := d.n }]

/-- IMGBASE_WRITE (R394). -/
def imgbaseWrite (s : State) (p : Fin 16) (v : W64) : SysRes :=
  let base := (bits v 12 36).toNat * 4096
  if partSeated s p then refuse
  else match directoryAt s p base with
    | .error _ => refuse
    | .ok (d, acts) => .ok (acts ++ imageActs p base d)

/-- An entry of the start-vector table (R89). -/
def startBad (n : Nat) (b : List Byte) : Bool :=
  let entry := recNat b 4 4
  let tvec := recNat b 8 4
  recNat b 1 1 != 1 || recNat b 2 2 != 0 || recNat b 12 4 != 0 || decide (entry < 1) || decide (n < entry) || decide (n < tvec)

/-- The core that a table entry names. -/
def startCore (b : List Byte) : Fin 256 := fin 255 (recNat b 0 1)

/-- A preload entry names a core's window or descriptor register wrongly (R385). -/
def preloadBad (cores : List (Fin 256)) (b : List Byte) : Bool :=
  let kind := recNat b 0 1
  let len := recNat b 4 4
  let ix := recNat b 2 1
  !cores.contains (fin 255 (recNat b 1 1)) ||
    (if kind = 1 then decide (65536 < len) || decide (251 < ix)
     else if kind = 2 then len != 32 || decide (31 < ix) || recNat b 3 1 != 0
     else true)

/-- The bank that a preload entry of kind 1 names. -/
def preloadBank (b : List Byte) : Fin 4096 := bankOf (fin 255 (recNat b 1 1)) (BitVec.ofNat 8 (recNat b 3 1))

/-- The entries of a table, `n` bytes each. -/
def tableRows (b : List Byte) (n count : Nat) : List (List Byte) := (List.range count).map fun i => (b.drop (n * i)).take n

/-- A thing stands twice in a list. -/
def repeats {α : Type} [BEq α] : List α → Bool
  | [] => false
  | x :: xs => xs.contains x || repeats xs

/-- The contents of preloads, in order; none where one cannot be read. -/
def contentsOf (s : State) (p : Fin 16) (base : Nat) : List (List Byte) → Option (List (List Byte) × List Act)
  | [] => some ([], [])
  | b :: bs =>
    match vread s p (base + recNat b 8 8) (recNat b 4 4), contentsOf s p base bs with
    | some (x, acts), some (xs, more) => some (x :: xs, acts ++ more)
    | _, _ => none

/-- What an accepted LAUNCH starts from. -/
structure Plan where
  dir : Directory
  starts : List (List Byte)
  preloads : List (List Byte × List Byte)
  acts : List Act

/-- The checks of LAUNCH, with the reason of a refusal (R385). -/
def launchPlan (s : State) (p : Fin 16) (base : Nat) : Except Nat Plan :=
  if (s.parts[p]).queued then .error 1
  else if s.hub.chg then .error 4
  else match directoryAt s p base with
  | .error x => .error x
  | .ok (d, a0) =>
    match vread s p (base + d.starts) (48 * d.startCount), vread s p (base + d.preloads) (16 * d.preloadCount) with
    | some (sb, a1), some (pb, a2) =>
      let starts := tableRows sb 48 d.startCount
      let preloads := tableRows pb 16 d.preloadCount
      let cores := starts.map startCore
      let taken (c : Fin 256) : Bool :=
        let x := s.cores[c]
        !inPart s p c || x.phase != .vacant || x.braked || x.gated || (s.dies[dieOf c]).poweredDown ||
          (s.dies[dieOf c]).seating.any fun t => t.cores.contains c
      if cores.any taken then .error 3
      else if starts.any (startBad d.n) || repeats cores then .error 5
      else if preloads.any (preloadBad cores) || repeats ((preloads.filter fun b => recNat b 0 1 = 1).map preloadBank) then .error 6
      else match contentsOf s p base preloads with
        | none => .error 7
        | some (xs, a3) => .ok { dir := d, starts, preloads := preloads.zip xs, acts := a0 ++ a1 ++ a2 ++ a3 }
    | _, _ => .error 7

/-- A core as LAUNCH starts it (R90). -/
def launchedCont (s : State) (p : Fin 16) (cid : Nat) (b : List Byte) (pre : List (List Byte × List Byte)) : Cont :=
  let mine := pre.filter fun x => recNat x.1 1 1 = recNat b 0 1
  let k := Cont.zero cid
  let k := { k with part := p, status := Vector.replicate 64 0, pc := BitVec.ofNat 32 (recNat b 4 4), tvec := BitVec.ofNat 32 (recNat b 8 4)
                    ts := BitVec.ofNat 64 (hubNow s)
                    s := Vector.ofFn fun i => if i.val < 4 then BitVec.ofNat 64 (recNat b (16 + 8 * i.val) 8) else 0 }
  mine.foldl (fun k x =>
    let ix := recNat x.1 2 1
    if recNat x.1 0 1 = 1 then { k with bmap := vset k.bmap (fin 255 ix) (attached (startCore b) (BitVec.ofNat 8 (recNat x.1 3 1))) }
    else { k with t := vset k.t (fin 31 ix) (BitVec.ofNat 256 (leNat x.2)) }) k

/-- The banks of a partition's quadrants. -/
def partBanks (s : State) (p : Fin 16) : List (Fin 4096) :=
  (List.range 16).flatMap fun q => if bitAt (s.parts[p]).qmask q then (List.range 256).map fun i => fin 4095 (256 * q + i) else []

/-- A bank is preloaded: its contents, with every full/empty bit set (R150). -/
def preloadActs (s : State) (x : List Byte × List Byte) : List Act :=
  let b := preloadBank x.1
  if recNat x.1 0 1 = 1 then
    writeActs (bankPa b 0) x.2 ++
      ((s.empties.filter fun w => decide (bankPa b 0 ≤ 4 * w) && decide (4 * w < bankPa b 0 + 65536)).map fun w => Act.empty w false)
  else []

/-- LAUNCH (R385): every named core starts together, or nothing does and LERR says why; BUSY stands until the first bundles
issue (log entry 57). -/
def launchWrite (s : State) (v : W64) : SysRes :=
  let p : Fin 16 := fin 15 (bits v 0 4).toNat
  let base := (bits v 12 36).toNat * 4096
  match launchPlan s p base with
  | .error x => .refused 4 [.hub fun h => { h with lerr := BitVec.ofNat 4 x }]
  | .ok l =>
    let banks := (partBanks s p).map fun b => Act.bank b fun x => { x with ts := 0 }
    let seats := slotsActs s (l.starts.map startCore) ++ (List.range l.starts.length).flatMap fun i =>
      let b := l.starts.getD i []
      [.core (startCore b) fun x => x.sit (launchedCont s p (s.nextId + i) b l.preloads) s (s.clock + 64)]
    .ok (l.acts ++ imageActs p base l.dir ++ banks ++ l.preloads.flatMap (preloadActs s) ++ seats ++
      [.ids 256, .hub fun h => { h with busyEnd := s.clock + 64 }])

/-! ### Doorbells (R330) -/

/-- DOORBELL (R330): the records up to the new TAIL are offered, all or none; their sectors are read, and those of the headers and
of TAIL written (R196, R299). -/
def doorbellWrite (s : State) (q : Fin 131072) (master : Half) (tail : W32) : SysRes :=
  let d := queueAt s q
  let new := tail.toNat % d.slots
  let n := (new + d.slots - d.tail) % d.slots
  let recs := (List.range n).map fun i => (ringSlot d (d.tail + i), memBytes s.mem (ringSlot d (d.tail + i)) 64)
  if !(aciGrants s d master) then .refused 1 []
  else if !d.en then refuse
  else if d.slots - 1 - d.count < n then refuse
  else
    let reads := touchEach s (recs.map fun r => (r.1, 64))
    if recs.any fun r => recBad r.2 0 (s.parts[d.part]).qmask || hCarry (recHeader r.2) != 0 then .refused 4 reads
    else .ok (recs.flatMap (fun r => writeActs r.1 ((recFor d r.2).take 8)) ++ (if n = 0 then [] else wordActs (queueAddr s q + 12) new) ++
      reads ++ touchEach (applyActs s reads) ((recs.map fun r => (r.1, 8)) ++ if n = 0 then [] else [(queueAddr s q + 12, 4)]))

/-! ### Gating (R390) -/

/-- Some partition holds a quadrant. -/
def heldQuad (s : State) (q : Nat) : Bool := (List.finRange 16).any fun p => bitAt (s.parts[p]).qmask q

/-- Some partition holds a quadrant of a die. -/
def heldDie (s : State) (d : Nat) : Bool := (List.range 4).any fun i => heldQuad s (4 * d + i)

/-- A die is without power in the present power state. -/
def dieDown (s : State) (d : Nat) : Bool := s.hub.pwr == 4 || (s.hub.pwr == 3 && !heldDie s d)

/-- A core is gated in the present power state. -/
def coreGated (s : State) (c : Fin 256) : Bool :=
  dieDown s (c.val / 64) || (s.hub.pwr == 2 && !heldQuad s (c.val / 16))

/-- The bytes of a die's stones. -/
def stoneRange (d : Nat) : Nat × Nat := (Config.stoneBase + d * 2 ^ 27, Config.stoneBase + (d + 1) * 2 ^ 27)

/-- The bytes of a die's banks. -/
def bankRange (d : Nat) : Nat × Nat := (Config.padBase + d * 2 ^ 26, Config.padBase + (d + 1) * 2 ^ 26)

/-- A die loses power: its stones hold nothing, and zeros when it returns, as do its banks (R390; log entry 89). -/
def dieOff (d : Fin 4) : List Act :=
  [.wipe (stoneRange d.val).1 (stoneRange d.val).2, .wipe (bankRange d.val).1 (bankRange d.val).2] ++
    (List.range 1024).map fun b => .bank (fin 4095 (1024 * d.val + b)) fun _ => BankSt.zero

/-- Cores and dies are gated as the power state and the partitions say. -/
def gateActs (s : State) : List Act :=
  ((List.finRange 256).filterMap fun c => let g := coreGated s c
    if (s.cores[c]).gated = g then none else some (.core c fun x => { x with gated := g })) ++
  (List.finRange 4).flatMap fun d => let g := dieDown s d.val
    if (s.dies[d]).poweredDown = g then []
    else [.die d fun x => { x with poweredDown := g }] ++ (if g then dieOff d else [])

/-- PARTCFG_WRITE (R331): a quadrant may not lie in two partitions; under PROMPT continuations on removed quadrants are
pre-empted at once. What was picked or reserved for their cores leaves them. -/
def partcfgWrite (s : State) (p : Fin 16) (v : W64) : SysRes :=
  let q : Half := bits v 0 16
  let prompt := bitAt v 16
  if (List.finRange 16).any fun o => o != p && ((s.parts[o]).qmask &&& q) != 0 then refuse
  else
    let gone := (s.parts[p]).qmask &&& ~~~q
    let stop := if prompt then (List.finRange 256).flatMap fun c =>
        if bitAt gone (quadOf c).val && (s.cores[c]).phase != .vacant && (s.cores[c]).cont.part == p then preemptActs s c else []
      else []
    let unseat := unseatActs s fun c => bitAt gone (quadOf c).val
    let back (s1 : State) : List Act := (List.finRange 4).flatMap fun d => putBackAll gone d (s1.dies[d]).seating.length s1
    .ok (andThen s (andThen s ((.part p fun x => { x with qmask := q, prompt }) :: (stop ++ unseat)) back) gateActs)

/-- A continuation still runs on a quadrant that has left the partition (R331). -/
def partBusy (s : State) (p : Fin 16) : Bool :=
  (List.finRange 256).any fun c => let x := s.cores[c]
    x.phase != .vacant && x.phase != .saved && x.cont.part == p && !inPart s p c

/-! ### Power (R390) -/

/-- Every OFFSET and STRETCH set on entry to P1. -/
def marginsP1 : List Act :=
  ((List.finRange 256).map fun c => .core c fun x => { x with tent := tentSet x.tent 20 true }) ++
    (List.finRange 64).map fun i => .stone i fun x => { x with tent := tentSet x.tent 20 true }

/-- Every OFFSET restored to its SWOFF. -/
def marginsP0 : List Act :=
  ((List.finRange 256).map fun c => .core c fun x => { x with tent := tentSet x.tent (tentSwoff x.tent).toNat (tentStretch x.tent) }) ++
    (List.finRange 64).map fun i => .stone i fun x => { x with tent := tentSet x.tent (tentSwoff x.tent).toNat (tentStretch x.tent) }

/-- Any partition holds a quadrant. -/
def anyHeld (s : State) : Bool := (List.finRange 16).any fun p => (s.parts[p]).qmask != 0

/-- A core is halted. -/
def anyHalted (s : State) : Bool := (List.finRange 256).any fun c => (s.cores[c]).phase == .halted

/-- A power request (R390): `host` says that it comes from the host, which may write in any state. -/
def powerRequest (s : State) (host : Bool) (t : BitVec 3) : SysRes :=
  let active := s.hub.pwr == 0 || s.hub.pwr == 1
  if !(active || host) then .ok []
  else if s.hub.chg || decide (5 ≤ t.toNat) || (t == 4 && anyHeld s) || (decide (2 ≤ t.toNat) && anyHalted s) then refuse
  else .ok [.hub fun h => { h with pend := some t, chg := true }]

/-- The margins as a power state is entered: P1 from another state, or P0 from P1 (R390). -/
def enterMargins (old new : BitVec 3) : List Act :=
  if new = 1 ∧ old ≠ 1 then marginsP1 else if new = 0 ∧ old = 1 then marginsP0 else []

/-- Banks, stones, full/empty bits and slot tables as D3 and boot leave them. -/
def clearStore : List Act :=
  [.wipe Config.padBase (Config.padBase + Config.padBytes), .wipe Config.stoneBase (Config.stoneBase + Config.stoneBytes)] ++
    ((List.finRange 4096).map fun b => .bank b fun _ => BankSt.zero) ++ (List.finRange 16).map fun q => .quad q fun _ => QuadSt.zero

end Sys2Proof.Machine
end

