-- ==== Sys2Proof/Machine/System.lean ====
section
/-! DEFINITION. System space (R2, R19, R21, R384): every register of the configuration aperture as it is read and
written, accesses to device physical addresses, `ldx` and `stx` (R159, R160); boot (R387), security states (R388,
R389) and temperature (R392). -/

namespace Sys2Proof.Machine

/-- The registers of the configuration aperture (R384). -/
inductive SysReg
  | launch | lmode | fabcfg | tstat | reddl | rowcfg | ltest | qdbase | inval | pager | acclogA | acclogB | plat | preq
  | pagerent (d : Fin 4) | partcfg (p : Fin 16) | table (p : Fin 16) | rise (p : Fin 16) | rowlog (x : Fin 8)
  | stktest (x : Fin 8) | imgbase (p : Fin 16) | stent (x : Fin 64) | descriptor (i : Fin 32)
  | act (i : Fin 4096) (hi : Bool) | margin (d : Fin 4) (k : Nat) | suspect (d : Fin 4) (k : Nat)
  | freeb (q : Fin 16) (i : Fin 4) | slottab (q : Fin 16) (i : Fin 16) | bmap (c : Fin 256) (w : Fin 256) | keep (k : Nat)
  | doorbell (q : Fin 131072)
  deriving DecidableEq, Repr

/-- The registers of a die's range, at an offset in it. -/
def dieReg (d : Fin 4) (o : Nat) : Option SysReg :=
  if o < 0x408 then some (.margin d (o / 8))
  else if 0x1000 ≤ o ∧ o < 0x1000 + 0x1088 then some (.suspect d ((o - 0x1000) / 8))
  else if 0x8000 ≤ o ∧ o < 0x8080 then some (.freeb (fin 15 (4 * d.val + (o - 0x8000) / 32)) (fin 3 (o % 32 / 8)))
  else if 0x9000 ≤ o ∧ o < 0x9200 then some (.slottab (fin 15 (4 * d.val + (o - 0x9000) / 128)) (fin 15 (o % 128 / 8)))
  else none

/-- The register at an offset of the configuration aperture (R384). -/
def sysRegOf (o : Nat) : Option SysReg :=
  if o % 8 ≠ 0 then none
  else if o < 0x70 then
    ([SysReg.launch, .lmode, .fabcfg, .tstat, .reddl, .rowcfg, .ltest, .qdbase, .inval, .pager, .acclogA, .acclogB, .plat,
      .preq])[o / 8]?
  else if o < 0x90 then some (.pagerent (fin 3 ((o - 0x70) / 8)))
  else if 0x100 ≤ o ∧ o < 0x180 then some (.partcfg (fin 15 ((o - 0x100) / 8)))
  else if 0x180 ≤ o ∧ o < 0x200 then some (.table (fin 15 ((o - 0x180) / 8)))
  else if 0x200 ≤ o ∧ o < 0x280 then some (.rise (fin 15 ((o - 0x200) / 8)))
  else if 0x280 ≤ o ∧ o < 0x2C0 then some (.rowlog (fin 7 ((o - 0x280) / 8)))
  else if 0x2C0 ≤ o ∧ o < 0x300 then some (.stktest (fin 7 ((o - 0x2C0) / 8)))
  else if 0x300 ≤ o ∧ o < 0x380 then some (.imgbase (fin 15 ((o - 0x300) / 8)))
  else if 0x400 ≤ o ∧ o < 0x600 then some (.stent (fin 63 ((o - 0x400) / 8)))
  else if 0x1000 ≤ o ∧ o < 0x1100 then some (.descriptor (fin 31 ((o - 0x1000) / 8)))
  else if 0x10000 ≤ o ∧ o < 0x20000 then some (.act (fin 4095 ((o - 0x10000) / 16)) (o % 16 == 8))
  else if 0x100000 ≤ o ∧ o < 0x140000 then dieReg (fin 3 ((o - 0x100000) / 0x10000)) (o % 0x10000)
  else if 0x1000000 ≤ o ∧ o < 0x1080000 then
    some (.bmap (fin 255 ((o - 0x1000000) / 0x800)) (fin 255 (o % 0x800 / 8)))
  else if 0x2000000 ≤ o ∧ o < 0x2010000 then some (.keep ((o - 0x2000000) / 8))
  else if 0x10000000 ≤ o ∧ o < 0x10100000 then some (.doorbell (fin 131071 ((o - 0x10000000) / 8)))
  else none

/-- The security states as PLAT shows them (R388). -/
def secCode : Sec → BitVec 2
  | .locked => 0 | .tenant => 1 | .vendorDebug => 2

/-- PLAT (R388). -/
def platWord (s : State) : W64 := (bit s.hub.chg ++ s.hub.pwr ++ s.hub.dbg ++ secCode s.hub.sec : Byte).setWidth 64

/-- Eight bytes of a list as a word. -/
def wordAt (b : List Byte) (i : Nat) : W64 := BitVec.ofNat 64 (recNat b (8 * i) 8)

/-- The entry that slot `i` of a ring of `n` holds, of which the latest `xs` are kept and `count` were ever written. -/
def ringEntry (xs : List (List Byte)) (count n i : Nat) : List Byte :=
  (((List.range xs.length).find? fun j => (count - xs.length + j) % n == i).bind fun j => xs[j]?).getD []

/-- A register as it is read; none where the manual gives a read no value. -/
def sysRead (s : State) (c : Option (Fin 256)) (r : SysReg) : Option W64 :=
  let h := s.hub
  match r with
  | .launch => some (bit (decide (s.clock < h.busyEnd)) ++ 0#51 ++ h.lerr ++ 0#8)
  | .lmode => some (ofMask fun i => decide (i < 16) && (s.parts[fin 15 i]).queued)
  | .fabcfg => some ((h.rlim ++ 0#4 ++ h.node : BitVec 24).setWidth 64)
  | .tstat => some (bit h.lock ++ 0#15 ++ h.timeMaster ++ h.offs)
  | .reddl => some (h.reddl.setWidth 64)
  | .rowcfg => some (h.thresh.setWidth 64)
  | .ltest => some h.ltest
  | .qdbase => some h.qdbase
  | .inval => some (h.inval.setWidth 64)
  | .acclogA => some h.accA
  | .acclogB => some h.accB
  | .plat => some (platWord s)
  | .preq => some (bit h.pend.isSome ++ 0#63)
  | .pagerent d => some ((h.pagerent[d]).setWidth 64)
  | .partcfg p => let x := s.parts[p]; some ((bit (partBusy s p) ++ bit x.prompt ++ x.qmask : BitVec 18).setWidth 64)
  | .table p => some (s.parts[p]).table
  | .rise p => some (s.parts[p]).rise
  | .rowlog x => some h.rowlog[x]
  | .stktest x => some h.stktest[x]
  | .imgbase p => let x := s.parts[p]; some (0#16 ++ x.imgBase ++ 0#11 ++ bit x.imgV)
  | .stent x => some (s.stones[x]).tent
  | .descriptor i => some (wordAt h.descriptor i.val)
  | .act i hi => some (bits h.act[i] (if hi then 64 else 0) 64)
  | .margin d k =>
    let x := s.dies[d]
    some (if k = 0 then BitVec.ofNat 64 x.marginCount else wordAt (ringEntry x.margin x.marginCount 64 ((k - 1) / 2)) ((k - 1) % 2))
  | .suspect d k =>
    let x := s.dies[d]
    some (if k = 0 then BitVec.ofNat 64 x.suspectCount
      else wordAt (ringEntry x.suspects x.suspectCount 4 ((k - 1) / 132)) ((k - 1) % 132))
  | .freeb q i => some (s.quads[q]).freeb[i]
  | .slottab q i => some (s.quads[q]).slotNew[i]
  | .bmap c w => some ((bmapBits (s.cores[c]).cont.bmap[w]).setWidth 64)
  | .keep k => c.map fun c => (s.cores[c]).keepRead k
  | .pager | .doorbell _ => none

/-- A bank is mapped by an entry other than the one written, by an image to be restored, or is in transit (R140). -/
def bankTaken (s : State) (c : Fin 256) (w : Fin 256) (b : Fin 4096) : Bool :=
  let id := bankId b
  let maps (k : Cont) (skip : Bool) : Bool := (List.finRange 256).any fun x =>
    !(skip && x == w) && (k.bmap[x]).v && (k.bmap[x]).bank == id
  (s.banks[b]).transit.isSome ||
    (List.range 16).any (fun i =>
      let o := quadCore (quadOf c) (fin 15 i)
      maps (s.cores[o]).cont (o == c) || ((s.cores[o]).keep.map fun k => maps k (o == c)).getD false) ||
    (s.dies[dieOf c]).resume.any fun r => quadOf r.core == quadOf c && maps r.cont false

/-- BMAP_WRITE (R140); what a fabric request may not map (R139) is refused where it is made. -/
def bmapWrite (s : State) (c : Fin 256) (w : Fin 256) (v : W64) : SysRes :=
  let e : BEntry := { bmapOf v with lat := latBits c (bits v 8 8) }
  let old := (s.cores[c]).cont.bmap[w]
  if e.v && bankTaken s c w (bankOf c e.bank) then refuse
  else
    let lost : Cont → Cont := if old.v && (!e.v || e.bank != old.bank) then fun k => k.loseBank (bankOf c old.bank) else id
    .ok [.cont c fun k => { lost k with bmap := vset k.bmap w e }]

/-- What an `act` entry keeps of a written word: reserved bits read as zero (R2, R375). -/
def actMask (hi : Bool) : W64 := if hi then 0xFFFFFFFFFFFFF000 else 0xF800FFFFFFFF0000

/-- A register written (R2). `c` is the writing core, `master` the identity presented, `host` whether that is the
host's. -/
def sysWrite (s : State) (c : Option (Fin 256)) (master : Half) (host : Bool) (r : SysReg) (v : W64) : SysRes :=
  let hub (f : HubSt → HubSt) : SysRes := .ok [.hub f]
  match r with
  | .launch => launchWrite s v
  | .lmode => .ok ((List.finRange 16).map fun p => .part p fun x => { x with queued := bitAt v p.val })
  | .fabcfg => hub fun h => { h with rlim := bits v 20 4, node := bits v 0 16 }
  | .reddl => hub fun h => { h with reddl := bits v 0 32 }
  | .rowcfg => hub fun h => { h with thresh := let t : BitVec 14 := bits v 0 14; if t.toNat < 512 then 512 else t }
  | .ltest => hub fun h => { h with ltest := v &&& 0x8F00 }
  | .qdbase => hub fun h => { h with qdbase := (bits v 0 46).setWidth 64 }
  | .inval => hub fun h => { h with inval := bits v 0 32 }
  | .pager =>
    let handle := (bits v 8 56).toNat
    if pagerAccepts s handle (bits v 0 8) then .ok (pagerResolve s handle (bits v 0 4)) else refuse
  | .acclogA => hub fun h => if bitAt v 63 then { h with accA := setBits h.accA 48 0#16 } else h
  | .preq => powerRequest s host (bits v 0 3)
  | .pagerent d => hub fun h => { h with pagerent := vset h.pagerent d (bits v 0 32) }
  | .partcfg p => partcfgWrite s p v
  | .table p => .ok [.part p fun x => { x with table := v &&& 0x3FFFFFFFF000 }]
  | .rise p => .ok [.part p fun x => { x with rise := BitVec.ofNat 64 (max 16 (min 1024 (bits v 0 11).toNat)) }]
  | .rowlog x => hub fun h => if bitAt v 47 then
      { h with rowlog := vset h.rowlog x (setBits (setBits h.rowlog[x] 48 0#16) 47 0#1) } else h
  | .stktest x => hub fun h =>
      let w := setBits (setBits h.stktest[x] 15 (bits v 15 1)) 8 (bits v 8 4)
      { h with stktest := vset h.stktest x (if bitAt v 31 then setBits w 31 0#1 else w) }
  | .imgbase p => imgbaseWrite s p v
  | .stent x => .ok [.stone x fun y => { y with tent := tentWrite y.tent v }]
  | .act i hi => hub fun h => { h with act := vset h.act i (setBits h.act[i] (if hi then 64 else 0) (v &&& actMask hi)) }
  | .freeb q i => .ok [.quad q fun u => { u with freeb := vset u.freeb i (u.freeb[i] &&& ~~~v) }]
  | .slottab q i =>
    if heldQuad s q.val || (List.range 16).any fun j => (s.cores[quadCore q (fin 15 j)]).phase != .vacant then refuse
    else .ok [.quad q fun u => { u with slotNew := vset u.slotNew i v }]
  | .bmap o w => if c.isNone && sysWindow (BitVec.ofNat 8 w.val) && (bmapOf v).v then refuse else bmapWrite s o w v
  | .keep k => match c with
    | none => .refused 2 []
    | some c => .ok [.core c fun x => x.keepWrite k v]
  | .doorbell q => doorbellWrite s q master (bits v 0 32)
  | .tstat | .acclogB | .plat | .descriptor _ | .margin _ _ | .suspect _ _ => .ok []

/-! ### Device physical addresses -/

/-- What an access to `n` bytes of the device physical space reaches (R19). -/
inductive Reach | memory | register (r : SysReg) | held | closed | nothing
  deriving DecidableEq, Repr

/-- The banks among bytes. -/
def banksAt (a n : Nat) : List (Fin 4096) := banksOf ((List.range n).map fun i => .here (a + i) 1)

/-- The places of an access: every byte must be there; a bank must take it as an engine access (R155), a stone that is
executing a job holds it (R19), and both must be powered (R390). -/
def reach (s : State) (c : Option (Fin 256)) (a n : Nat) (write : Bool) : Reach :=
  match placeOf a with
  | .config o =>
    if n ≠ 8 then .nothing
    else match sysRegOf o with
      | some (.keep k) => if c.isSome then .register (.keep k) else .nothing
      | some r => .register r
      | none => .nothing
  | .nothing => .nothing
  | .main => if a + n ≤ Config.mainBytes then .memory else .nothing
  | .bank _ _ =>
    if Config.padBase + Config.padBytes < a + n || (banksAt a n).any (fun b => !(bankPowered s b)) then .nothing
    else if (banksAt a n).any fun b => ((s.banks[b]).engBegin write 0).isNone then .closed else .memory
  | .stone _ _ =>
    let ps := (List.range n).map fun i => placeOf (a + i)
    if ps.any fun p => match p with | .stone x _ => !stonePowered s x | _ => true then .nothing
    else if (stonesBusy s ((List.range n).map fun i => .here (a + i) 1)).isEmpty then .memory else .held

/-- Bytes of memory read as an engine reads them: the banks pass, and DRAM rows are accessed. -/
def readTouch (s : State) (a n : Nat) : List Act :=
  let xs := (List.range n).map (a + ·)
  passBanks xs false 0 0 ++ accessRows s (rowsOf xs)

/-- Bytes of memory written as an engine writes them, `bad` sectors poisoned (R184, R373), by a node under an identity. -/
def writeTouch (s : State) (a : Nat) (data : List Byte) (bad : List Nat) (ts : W64)
    (from_ : Half × Half := (s.hub.node, s.hub.node)) : List Act :=
  let xs := (List.range data.length).map (a + ·)
  engineWrite s (xs.zip data) bad from_ ++ passBanks xs true 0 ts ++ accessRows s (rowsOf xs)

/-! ### `ldx` and `stx` (R159, R160) -/

/-- The bytes of a system-space access. -/
def xBytes : XWidth → Nat
  | .b => 1 | .h => 2 | .w => 4 | .d => 8

/-- The system address (R159). -/
def xAddr (k : Cont) (e : Fin 64) (off : BitVec 24) : W64 := k.s[e] + off.signExtend 64

/-- The checks of a system access before it is made (R160): TINFO holds the address. -/
def xTrap (k : Cont) (e : Fin 64) (off : BitVec 24) (w : XWidth) : Option Trap :=
  let a := xAddr k e off
  if e.val % 2 = 1 ∨ bits k.s[e + 1] 16 48 ≠ 0 then some ⟨.descr, a⟩
  else if a.toNat % xBytes w ≠ 0 then some ⟨.align, a⟩ else none

/-- `ldx`'s checks. -/
def effLdx (e : Fin 64) (off : BitVec 24) (w : XWidth) : Eff := fun v =>
  match xTrap v.k e off w with | some t => .error t | none => .ok {}

/-- `stx`'s checks. -/
def effStx (e : Fin 64) (_src : Spec) (off : BitVec 24) (w : XWidth) : Eff := fun v =>
  match xTrap v.k e off w with | some t => .error t | none => .ok {}

/-- The hold of `ldx` and `stx`: every earlier access of the core has performed (R160). -/
def holdX : Hold := fun e => holdWhile (!e.x.accs.isEmpty)

/-- The identity a system access presents elsewhere: s(E+1)[15:0], or the device's own (R159, R375). -/
def xMaster (e : Env) (r : Fin 64) : Half := let m : Half := bits e.k.s[r + 1] 0 16; if m = 0 then e.s.hub.node else m

/-- A system access to another node (R160, R370): its packet is sent once, to an address there, and it waits for its answer, which
alone decides once it is sent. -/
def stageRemote (e : Env) (a : W64) (p : Packet) (done : W64 → Stage) (at_ : BitVec 46) : Stage :=
  let bad : Stage := .trap ⟨.descr, a⟩
  match e.answer with
  | some none => .wait [] false
  | some (some (x, v, poison)) =>
    if x ≠ 0 then bad
    else if poison then .trap ⟨.poison, poisonInfo 5 e.slot (bits a 0 24)⟩ else done v
  | none =>
    if bits a 48 16 = e.s.hub.node ∨ e.s.hub.node = 0 ∨ bits a 46 2 ≠ 0 then bad
    else .wait (sendHeld e { p with dst := bits a 48 16, addr := at_ }) true

/-- A value enters qs, valid (R160). -/
def pushQs (e : Env) (v : W64) : List Act :=
  let id := e.id
  [.cont e.c fun k => { k with qs := k.qs ++ [{ id, valid := true, data := wide v, poison := none }] }]

/-- The value that an access of this slot to this node gave when it was made. -/
def Env.madeValue (e : Env) : Option W64 := (e.answer.bind fun a => a).map fun x => x.2.1

/-- The access of `ldx` (R160). -/
def stageLdx (r : Fin 64) (off : BitVec 24) (w : XWidth) : Env → Stage := fun e =>
  let a := xAddr e.k r off
  let n := xBytes w
  if bits a 48 16 ≠ 0 then
    stageRemote e a { kind := 1, len := BitVec.ofNat 13 n, master := xMaster e r } (fun v => .go [] (pushQs e v)) (bits a 0 46)
  else
    match e.madeValue with
    | some v => .go [] (pushQs e v)
    | none =>
      let made (now : List Act) (v : W64) : Stage := .made now (pushQs e v) v
      match reach e.s (some e.c) a.toNat n false with
      | .memory =>
        if (poisonIn e.s.poisoned a.toNat n).isSome then .trap ⟨.poison, poisonInfo 5 e.slot (bits a 0 24)⟩
        else made (readTouch e.s a.toNat n) (BitVec.ofNat 64 (memNat e.s.mem a.toNat n))
      | .register x =>
        match sysRead e.s (some e.c) x with
        | some v => made [] v
        | none => made [.drawn 1] (Config.freeWord e.s.free)
      | .held => .wait [] false
      | _ => .trap ⟨.descr, a⟩

/-- The access of `stx` (R160): a refused one traps DESCR; what the refusal records stays recorded. A write to the ABSTAIN
word of a context on another node leaves as ABST (R371; log entry 88). -/
def stageStx (r : Fin 64) (src : Spec) (off : BitVec 24) (w : XWidth) : Env → Stage := fun e =>
  let a := xAddr e.k r off
  let n := xBytes w
  let v := e.k.scalar src
  if bits a 48 16 ≠ 0 then
    let there := (bits a 0 46).toNat
    match if w = .w then abstainsFrom e.s (bits a 48 16) there (bits v 0 32) else none with
    | some ctx =>
      stageRemote e a { abstPacket ctx (bits a 0 46) (bits v 0 32) with master := xMaster e r } (fun _ => .go [] []) ctx
    | none => stageRemote e a { kind := 2, data := leBytes n v.toNat, master := xMaster e r } (fun _ => .go [] []) (bits a 0 46)
  else if e.madeValue.isSome then .go [] []
  else
    match reach e.s (some e.c) a.toNat n true with
    | .memory => .made (writeTouch e.s a.toNat (leBytes n v.toNat) [] e.k.ts) [] 0
    | .register x =>
      match sysWrite e.s (some e.c) e.s.hub.node false x v with
      | .ok acts => .made acts [] 0
      | .refused _ acts => if acts.isEmpty then .trap ⟨.descr, a⟩ else .refused ⟨.descr, a⟩ acts
    | .held => .wait [] false
    | _ => .trap ⟨.descr, a⟩

/-! ### Boot (R387) -/

/-- The bytes of a public key whose digest is fused (R387): its two coordinates, their first bytes the highest. -/
def keyBytes (k : Nat × Nat) : List Byte := (leBytes 48 k.1).reverse ++ (leBytes 48 k.2).reverse

/-- Step 1 of boot (R387): the vendor's key is the one that is fused, and the signature of the firmware image verifies under
it. -/
def BootPlan.verified (p : BootPlan) : Bool :=
  sha384 (keyBytes p.key) == p.fused && ecdsaVerify p.key (sha384 p.image) p.signature

/-- Every part of the machine but its clock, its counters and what the environment has chosen, as at power-on. -/
def powerOnActs : List Act :=
  clearStore ++ [.wipe 0 (2 ^ 46)] ++
    ((List.finRange 256).map fun c => .core c fun _ => CoreSt.zero) ++
    ((List.finRange 16).map fun p => .part p fun _ => PartSt.zero) ++
    ((List.finRange 4).map fun d => .die d fun _ => DieSt.zero) ++
    ((List.finRange 64).flatMap fun t => [.tile t fun _ => TileSt.zero, .stone t fun _ => StoneSt.zero]) ++
    ((List.finRange 512).map fun h => .home h fun _ => HomeSt.zero) ++
    ((List.finRange 8).map fun x => .stack x fun _ => ⟨none, 0, false⟩) ++
    [.barriers fun _ => [], .releases fun _ => [], .spawned fun _ => [], .jobs fun _ => [], .faults fun _ => [],
     .invals fun _ => [], .hub fun h => { HubSt.zero with plan := h.plan }]

/-- The mask of good parts, from those that fail. -/
def goodMask (bad : W64) : W64 := ~~~bad

/-- A pseudo-channel's banks that fail in built-in self-test, each once: the spare takes one of them (R302, R387). -/
def failingBanks (p : BootPlan) (h : Fin 512) : List (Fin 32) := ((p.badBanks.filter fun x => x.1 == h).map Prod.snd).eraseDups

/-- The stacks that fail at boot: also those with a pseudo-channel in which more banks fail than it has spares (R387; log
entry 5). -/
def failingStacks (p : BootPlan) : Byte :=
  p.badStacks ||| BitVec.ofNat 8 ((p.badBanks.filter fun x => decide (1 < (failingBanks p x.1).length)).foldl
    (fun n x => n ||| 2 ^ (x.1.val / 64)) 0)

/-- The device descriptor (R387). -/
def descriptorBytes (p : BootPlan) (node : Half) (digest : List Byte) : List Byte :=
  leBytes 4 0x48444553 ++ leBytes 2 1 ++ leBytes 2 node.toNat ++ leBytes 8 (goodMask p.badTiles).toNat ++
    leBytes 8 (goodMask p.badStones).toNat ++ leBytes 1 (~~~(failingStacks p)).toNat ++ leBytes 7 0 ++ leBytes 8 p.version.toNat ++
    digest ++ List.replicate 168 0

/-- ACT0 as boot writes it for the host (R387): every permission over the whole device physical space. -/
def hostEntry (host : Half) : W128 :=
  setBits (setBits (setBits (setBits 0 76 46#6) 59 31#5) 32 host) 16 0xFFFF#16

/-- Steps 2 and 3 of boot (R387): the measurement, the stacks, and failing banks remapped to their spares. -/
def bootStacks (s : State) : List Act :=
  let p := s.hub.plan
  [.hub fun h => { h with measurement := BitVec.ofNat 384 (leNat (sha384 p.image)), version := p.version }] ++
    ((List.finRange 8).filter fun x => bitAt (failingStacks p) x.val).flatMap (fun x =>
      [.stack x fun y => { y with failed := true }, .report (.stack x.val)]) ++
    (p.badBanks.filter fun x => (failingBanks p x.1).length == 1).map fun x => .home x.1 fun h => { h with failedBank := some x.2 }

/-- Tiles that fail their test at boot (R363, R387): each is braked and its suspect record written. -/
def bootFailed (s : State) : List (Fin 64) → List Act
  | [] => []
  | t :: ts =>
    let acts := andThen s (brakeTile s t true) fun s1 => tileFailed s1 t
    acts ++ bootFailed (applyActs s acts) ts

/-- Step 4 of boot (R387): compute and stone dies are powered, banks, stone SRAM and slot tables cleared, and every tile is
tested (R363); failing tiles and stones are braked. -/
def bootFloors (s : State) : List Act :=
  let p := s.hub.plan
  let which (m : W64) (on : Bool) : List (Fin 64) := (List.finRange 64).filter fun i => bitAt m i.val == on
  clearStore ++ ((List.finRange 4).map fun d => .die d fun x => { x with poweredDown := false }) ++
    ((List.finRange 256).map fun c => .core c fun x => { x with gated := false }) ++
    (which p.badTiles false).flatMap (fun t =>
      [.tile t fun x => { x with passed := x.passed + 1, nodes := [], overflow := false },
       .hub fun h => { h with lastPass := vset h.lastPass t (hubNow s) }]) ++
    bootFailed s (which p.badTiles true) ++
    (which p.badStones true).flatMap fun x => brakeStone s x true

/-- Steps 5 and 6 of boot (R387): the node and ACT0, the device descriptor, PARTCFG, LMODE and RISE at reset; Tenant, Off,
P0. -/
def bootEnds (s : State) : List Act :=
  let p := s.hub.plan
  let node := if p.host.isSome then p.node else 0
  [.hub fun h => { h with
    sec := .tenant, dbg := 0, pwr := 0, pend := none, chg := false, booted := true, node
    descriptor := descriptorBytes p node (sha384 p.image)
    act := match p.host with | some x => vset h.act 0 (hostEntry x) | none => h.act }] ++
    (List.finRange 16).map fun p => .part p fun x =>
      { x with qmask := 0, prompt := false, queued := false, rise := PartSt.zero.rise }

/-- Steps 2 to 6 of boot (R387), on a machine just powered on. -/
def bootActs (s : State) : List Act := bootStacks s ++ bootFloors s ++ bootEnds s

/-- POWER_ON_RESET (R387): boot from the hub alone to Tenant, Off, P0; firmware that does not verify leaves the device
Locked in D3. -/
def powerOn (s : State) : List Act :=
  andThen s powerOnActs fun s1 =>
    if s1.hub.plan.verified then bootActs s1
    else [.hub fun h => { h with booted := true }, .report .boot]

/-! ### Security (R389) -/

/-- Engine work, releases, exchanges and what waits at stacks, stones and dispatchers are gone, and no completion is
reported. -/
def stopWork : List Act :=
  ((List.finRange 4).map fun d => .die d fun x => { x with resume := [], seating := [], reserved := [] }) ++
    ((List.finRange 64).map fun x => .stone x fun y => { y with jobs := [], running := false }) ++
    ((List.finRange 512).map fun h => .home h fun x => { x with jobs := [], reqs := [], suspended := false }) ++
    [.barriers fun _ => [], .releases fun _ => [], .spawned fun _ => [], .jobs fun _ => [], .faults fun _ => [],
     .invals fun _ => [], .hub fun h => { h with awaits := [], stalled := [] }]

/-- All tile state cleared, work aborted and no completion reported (R389); what belongs to a core's margins stays. -/
def clearTiles (s : State) : List Act :=
  clearStore ++
    ((List.finRange 256).map fun c => .core c fun x =>
      { CoreSt.zero with tent := x.tent, rplcnt := x.rplcnt, tmrcnt := x.tmrcnt, snapcnt := x.snapcnt, braked := x.braked
                         failed := x.failed, gated := x.gated, clk := x.clk, stretchEnd := x.stretchEnd, windowEnd := x.windowEnd }) ++
    stopWork ++
    ((List.finRange 16).map fun p => .part p fun x => { x with qmask := 0, prompt := false, queued := false }) ++
    (activeQueues s).map fun q => let a := queueAddr s q + 18; .byte a (memGet s.mem a &&& 0x7F)

/-- What D3 takes from the machine (R390): everything but the hub and main memory, which refreshes itself. -/
def powerLoss (s : State) : List Act :=
  clearStore ++ ((List.finRange 256).map fun c => .core c fun x =>
      { CoreSt.zero with clk := x.clk, windowEnd := x.windowEnd }) ++
    ((List.finRange 64).flatMap fun t => [.tile t fun _ => TileSt.zero, .stone t fun _ => StoneSt.zero]) ++
    ((List.finRange 4).map fun d => .die d fun x => { x with tlb := [], testing := false }) ++
    ((List.finRange 512).map fun h => .home h (refreshAll s.hub.thresh.toNat)) ++ stopWork

/-- POWER_TRANSITION_END (R390): the requested state is reached, and PEND and CHG clear. D3 is left by boot from step 4, in the
Tenant state, which main memory enters zeroed from VendorDebug (R389). -/
def powerEnd (s : State) : List Act :=
  match s.hub.pend with
  | none => []
  | some t =>
    let arrive : List Act := [.hub fun h => { h with pwr := t, pend := none, chg := false }]
    andThen s
      ((if t = 4 then powerLoss s
        else if s.hub.pwr = 4 then
          bootFloors s ++ bootEnds s ++ (if s.hub.sec = .vendorDebug then [.wipe 0 Config.mainBytes] else [])
        else []) ++ arrive ++ enterMargins s.hub.pwr t) gateActs

/-- The combinations of security, debug and power states that exist (R389). -/
def comboOk (sec : Sec) (dbg : BitVec 2) (pwr : BitVec 3) : Bool :=
  match sec with
  | .locked => dbg == 0 && (pwr == 3 || pwr == 4)
  | .tenant => decide (dbg.toNat ≤ 1)
  | .vendorDebug => decide (dbg.toNat ≤ 1) || (dbg == 2 && (pwr == 0 || pwr == 1))

/-- A change of security state is one that R389 lists. -/
def secMove (a b : Sec) : Bool :=
  match a, b with
  | .vendorDebug, .tenant => true
  | .tenant, .vendorDebug => true
  | .locked, .vendorDebug => true
  | _, .locked => true
  | _, _ => false

/-- A debug token opens VendorDebug (R389): it is signed under the vendor's key that is fused, names this node, and carries a nonce
that no token has carried (log entry 104). -/
def tokenOk (h : HubSt) (t : DebugToken) : Bool :=
  t.node == h.node && !(h.nonces.contains t.nonce) && sha384 (keyBytes h.plan.key) == h.plan.fused &&
    ecdsaVerify h.plan.key (sha384 (leBytes 2 t.node.toNat ++ t.nonce)) t.signature

/-- The token presented last, where it opens VendorDebug. -/
def HubSt.goodToken (h : HubSt) : Option DebugToken := h.token.filter (tokenOk h)

/-- SECURITY_STATE_CHANGE (R389): refused where no such combination exists; VendorDebug is entered with a debug token, which is used
then. -/
def securityChange (s : State) (t : Sec) : List Act :=
  let dbg : BitVec 2 := if t = .locked then 0 else s.hub.dbg
  let token := if t = .vendorDebug then s.hub.goodToken else none
  if !(secMove s.hub.sec t) || s.hub.chg || !comboOk t dbg s.hub.pwr || (t == .vendorDebug && token.isNone) then []
  else
    let used (h : HubSt) : HubSt := match token with
      | some x => { h with token := none, nonces := x.nonce :: h.nonces }
      | none => h
    andThen s (clearTiles s ++ [.hub fun h => { used h with sec := t, dbg }] ++
      (if t = .vendorDebug ∨ s.hub.sec = .vendorDebug then [.wipe 0 Config.mainBytes] else [])) gateActs

/-- HALT (R389): in VendorDebug, in P0 or P1, a core freezes as at a pre-emption and is not offered; a coupled gang is
halted whole. None freezes while its bundle waits for an access that it has made (log entry 107). -/
def haltCore (s : State) (c : Fin 256) : List Act :=
  if s.hub.sec != .vendorDebug || !comboOk .vendorDebug 2 s.hub.pwr || (s.cores[c]).phase != .running ||
    (frozenWith s c).any fun o => (s.cores[o]).cont.asked.isSome then []
  else
    (.hub fun h => { h with dbg := 2 }) :: ((frozenWith s c).filter fun o => (s.cores[o]).phase == .running).flatMap fun o =>
      let x := s.cores[o]
      let ps := parkedOf s o x.cont
      [.core o fun x => let y := x.takePreempt ps; { y with phase := .halted, preempt := x.preempt }] ++ withdrawActs ps ++
        [dropExchange o]

/-- What the management core does to debug (R389): Off and Trace are entered where such a combination exists and no core is
halted, a token is kept until it is used, and a halted core's image is read and written through its keep bank. -/
def manageActs (s : State) : Manage → List Act
  | .debug trace =>
    let dbg : BitVec 2 := if trace then 1 else 0
    if !s.hub.booted || !comboOk s.hub.sec dbg s.hub.pwr || anyHalted s then [] else [.hub fun h => { h with dbg }]
  | .token t => [.hub fun h => { h with token := some t }]
  | .read c w =>
    if (s.cores[c]).phase == .halted then [.report (.haltedWord c w ((s.cores[c]).keepRead w))] else []
  | .write c w v => if (s.cores[c]).phase == .halted then [.core c fun x => x.keepWrite w v] else []

/-- OVERTEMP_P1 (R392): the package goes to P1 from any state but D3, and a request for another state is dropped. -/
def overtempP1 (s : State) : List Act :=
  if s.hub.pwr = 4 ∨ s.hub.sec = .locked then []
  else andThen s ([.hub fun h => { h with pwr := 1, pend := none, chg := false }] ++ enterMargins s.hub.pwr 1) gateActs

/-- OVERTEMP_SHUTDOWN (R392): the package stops in D3, which keeps what it keeps (R390), and it is reported. -/
def overtempShutdown (s : State) : List Act :=
  andThen s (powerLoss s ++ [.hub fun h => { h with pwr := 4, pend := none, chg := false, dbg := 0 }, .report .temperature]) gateActs

end Sys2Proof.Machine
end

