-- ==== Sys2Proof/Machine/Fabric.lean ====
section
/-! DEFINITION. The fabric (R370-R382): packets as they arrive, in the order of their numbers, access control, responses and
their limit, RED, ABST and RESULT, fabric-scope release, time, and attestation (R391). -/

namespace Sys2Proof.Machine

/-! ### Serving requests -/

/-- The fabric is served beyond MGMT (R389). -/
def fabricServed (s : State) : Bool := s.hub.booted && s.hub.sec != .locked

/-- An ERR response (R373). -/
def errTo (s : State) (p : Packet) (status : BitVec 4) : List Act :=
  respond s { ts := p.ts, addr := p.addr, dst := p.src, kind := 0x1F, status }

/-- A request that the access table refuses (R376). -/
def accessRefused (s : State) (p : Packet) : List Act := accessLog p p.addr.toNat ++ errTo s p 1

/-- The status of an ERR response to an access that reaches nothing it may. -/
def reachError : Reach → Option (BitVec 4)
  | .nothing => some 2
  | .closed => some 4
  | _ => none

/-- A request waits for the job that the stone it addresses is executing (R19). -/
def stall (p : Packet) : List Act := [.hub fun h => { h with stalled := h.stalled ++ [p] }]

/-- RD (R371): answered with the data, poison with it, or with ERR. -/
def packetRd (s : State) (p : Packet) : List Act :=
  let a := p.addr.toNat
  let n := p.len.toNat
  let answer (data : List Byte) (poison : List Bool) : List Act :=
    respond s { ts := p.ts, addr := p.addr, dst := p.src, kind := 0x10, data, poison }
  if !fabricServed s then []
  else if n = 0 ∨ 4096 < n then errTo s p 4
  else if !granted s p.master .rd a n then accessRefused s p
  else match reach s none a n false with
    | .memory =>
      readTouch s a n ++ answer (memBytes s.mem a n) (packetPoison ((List.range n).map fun i => poisonedAt s (a + i)))
    | .register r =>
      match sysRead s none r with
      | some v => answer (leBytes 8 v.toNat) [false]
      | none => .drawn 1 :: answer (leBytes 8 (Config.freeWord s.free).toNat) [false]
    | .held => stall p
    | .nothing => errTo s p 2
    | .closed => errTo s p 4

/-- The sectors of memory that a packet's poison bits mark. -/
def poisonedSectors (p : Packet) (a : Nat) : List Nat :=
  blocksOf 32 (((List.range p.data.length).filter fun i => packetBad p i).map (a + ·))

/-- Bytes written at a place for a packet: what is done, or the ERR status; none while the access is held. -/
def writeFor (s : State) (p : Packet) (a : Nat) : Option (List Act × Option (BitVec 4)) :=
  match reach s none a p.data.length true with
  | .memory => some (writeTouch s a p.data (poisonedSectors p a) p.ts (p.src, p.master), none)
  | .register r =>
    match sysWrite s none p.master (s.hub.plan.host == some p.src) r (BitVec.ofNat 64 (leNat p.data)) with
    | .ok acts => some (acts, none)
    | .refused x acts => some (acts ++ (if x = 1 then accessLog p a else []), some x)
  | .held => none
  | .nothing => some ([], some 2)
  | .closed => some ([], some 4)

/-- The queue whose doorbell an address is. -/
def doorbellAt (a : Nat) : Option (Fin 131072) :=
  match placeOf a with
  | .config o => match sysRegOf o with | some (.doorbell q) => some q | _ => none
  | _ => none

/-- A WR is granted (R375): a doorbell by the entry that its queue names. -/
def wrGranted (s : State) (master : Half) (a n : Nat) : Bool :=
  match doorbellAt a with
  | some q => aciGrants s (queueAt s q) master
  | none => granted s master .wr a n

/-- The context whose ABSTAIN word a WR writes (R378). -/
def packetAbstains (s : State) (p : Packet) : Option (BitVec 46 × W32) :=
  let v : W32 := BitVec.ofNat 32 (leNat p.data)
  if p.data.length = 4 then (abstainsFrom s s.hub.node p.addr.toNat v).map fun ctx => (ctx, v) else none

/-- A WR that abstains (R378, R379): checked with AT, as every arrival is; the abstainer is its source. -/
def packetAbstain (s : State) (p : Packet) (ctx : BitVec 46) (v : W32) : List Act :=
  if !granted s p.master .at ctx.toNat 64 then accessRefused s p
  else
    let acts := arrive s ctx (abstention p.src ctx v)
    acts ++ respond (applyActs s acts) { ts := p.ts, addr := p.addr, dst := p.src, kind := 0x11 }

/-- WR (R371, R373): acknowledged once it has performed. -/
def packetWr (s : State) (p : Packet) : List Act :=
  let a := p.addr.toNat
  if !fabricServed s then []
  else if p.data.isEmpty || decide (4096 < p.data.length) then errTo s p 4
  else match packetAbstains s p with
  | some (ctx, v) => packetAbstain s p ctx v
  | none =>
  if !(wrGranted s p.master a p.data.length) then accessRefused s p
  else match writeFor s p a with
    | none => stall p
    | some (acts, none) => acts ++ respond (applyActs s acts) { ts := p.ts, addr := p.addr, dst := p.src, kind := 0x11 }
    | some (acts, some x) => acts ++ errTo (applyActs s acts) p x

/-- The number that the next request of a source carries (R372). -/
def HubSt.expected (h : HubSt) (src : Half) : W32 := ((h.expect.find? fun x => x.1 == src).map Prod.snd).getD 0

/-- A write of a register from the fabric (R374): a WR of its eight bytes, the next request of its source. -/
def registerPacket (s : State) (src : Half) (offset : Nat) (v : W64) : Packet :=
  { addr := BitVec.ofNat 46 (Config.cfgBase + offset), src, master := src, kind := 2, data := leBytes 8 v.toNat
    seq := s.hub.expected src }

/-- The operation of an ATOM (R371). -/
def atomOp (arg : BitVec 24) : Option AtomOp :=
  ([AtomOp.add, .min, .max, .swap, .cas, .and, .or])[(bits arg 21 3).toNat]?

/-- The elements of an ATOM in increasing order (R194): the old values and which elements are poisoned. -/
def atomPacketSteps (op : AtomOp) (value expect : Nat → W32) (bad : Nat → Bool) (a : Nat) :
    Nat → Nat → State → List Act × List (W32 × Bool)
  | 0, _, _ => ([], [])
  | n + 1, i, s =>
    let t := a + 4 * i
    if poisonedAt s t then
      let (acts, rest) := atomPacketSteps op value expect bad a n (i + 1) s
      (acts, (0, true) :: rest)
    else
      let old := word32 s.mem t
      let new := atomNew op old (value i) (expect i)
      let acts := engineWrite s ((List.range 4).map fun k => (t + k, bits new (8 * k) 8)) (if bad i then [t / 32] else [])
      let (more, rest) := atomPacketSteps op value expect bad a n (i + 1) (applyActs s acts)
      (acts ++ more, (old, false) :: rest)

/-- ATOM (R371): the data are the values and, for `cas`, the expected values after them; the old values return. -/
def packetAtom (s : State) (p : Packet) : List Act :=
  let a := p.addr.toNat
  if !fabricServed s then []
  else match atomOp p.arg with
    | none => errTo s p 4
    | some op =>
      let size := if op = .cas then 8 else 4
      let n := p.data.length / size
      if n = 0 ∨ p.data.length % size ≠ 0 ∨ 4096 < p.data.length ∨ a % 4 ≠ 0 then errTo s p 4
      else if !granted s p.master .at a (4 * n) then accessRefused s p
      else match placeOf a with
        | .main =>
          if Config.mainBytes < a + 4 * n then errTo s p 2
          else
            let word (i : Nat) : W32 := BitVec.ofNat 32 (recNat p.data (4 * i) 4)
            let bad (i : Nat) : Bool := packetBad p (4 * i) || (op == .cas && packetBad p (4 * (n + i)))
            let (acts, old) := atomPacketSteps op word (fun i => word (n + i)) bad a n 0 s
            let touch := accessRows (applyActs s acts) (rowsOf ((List.range (4 * n)).map (a + ·)))
            acts ++ touch ++ respond s
              { ts := p.ts, addr := p.addr, dst := p.src, kind := 0x12, data := old.flatMap fun x => leBytes 4 x.1.toNat
                poison := packetPoison (old.flatMap fun x => List.replicate 4 x.2) }
        | _ => errTo s p 2

/-- The address of flag `f` of core `c` in the configuration aperture (R375). -/
def flagAddr (c : Fin 256) (f : Fin 32) : Nat := Config.cfgBase + 0x08000000 + 0x100 * c.val + 8 * f.val

/-- POST (R375): delivered, or discarded and recorded. -/
def packetPost (s : State) (p : Packet) : List Act :=
  let c : Fin 256 := fin 255 (bits p.arg 16 8).toNat
  let f : Fin 32 := fin 31 (bits p.arg 11 5).toNat
  if !fabricServed s then []
  else if granted s p.master .po (flagAddr c f) 8 then deliverFlag s c f (bits p.arg 0 11).toNat
  else accessLog p (flagAddr c f)

/-- The record of an accepted SPAWN, as a local `spawn` appends it (R316, R374). -/
def packetRecord (p : Packet) : List Byte :=
  let r := p.data
  recBytes (recHeader r) (recEntry r) ((List.range 4).map (recBank r)) p.ts (recCompletion r) ((List.range 4).map (recArg r))

/-- SPAWN (R374): the SPRSP carries the status of R316; a sector that travels poisoned is stored poisoned (R373). -/
def packetSpawn (s : State) (p : Packet) : List Act :=
  let q : Fin 131072 := fin 131071 (bits p.addr 0 17).toNat
  if !fabricServed s then []
  else if p.data.length ≠ 64 then errTo s p 4
  else
    let st := offer s q p.master true false 0 p.data
    let slot := ringSlot (queueAt s q) (queueAt s q).tail
    let acts := if st = 0 then appendActs s q (recFor (queueAt s q) (packetRecord p)) ++
        (poisonedSectors p slot).map fun n => .sector n true
      else if (queueAt s q).en && !(aciGrants s (queueAt s q) p.master) then accessLog p p.addr.toNat else []
    acts ++ respond s { ts := p.ts, addr := p.addr, dst := p.src, kind := 0x13, status := BitVec.ofNat 4 st }

/-- MCW (R381): every entry of this node is written and acknowledged on its own. -/
def packetMcw (s : State) (p : Packet) : List Act :=
  if !fabricServed s then []
  else
    ((p.list.filter fun d => d.1 == s.hub.node).foldl (fun (acc : List Act × State) d =>
      let acts := packetWr acc.2 { p with addr := d.2, kind := 0x0D }
      (acc.1 ++ acts, applyActs acc.2 acts)) ([], s)).1

/-- Requests served one after another. -/
def serveAll : List Packet → State → List Act
  | [], _ => []
  | p :: ps, s =>
    let acts := if p.kind = 1 then packetRd s p else packetWr s p
    acts ++ serveAll ps (applyActs s acts)

/-- The requests that waited for a stone are performed in the order they came; those to a stone that still runs wait
on (R19). A RESULT waits for no stone. -/
def releaseStalled (s : State) : List Act :=
  let stone := s.hub.stalled.filter fun p => p.kind != 8
  if stone.isEmpty then []
  else
    let clear : Act := .hub fun h => { h with stalled := h.stalled.filter fun p => p.kind == 8 }
    clear :: serveAll stone (applyActs s [clear])

/-- STONE_JOB (R228): the job runs, and what waited for it is performed (R19). -/
def stoneRuns (s : State) (x : Fin 64) : List Act :=
  let acts := stoneJob s x
  if acts.isEmpty then [] else acts ++ releaseStalled (applyActs s acts)

/-- A packet of a KIND that is not listed (R371). -/
def packetUnknown (s : State) (p : Packet) : List Act := if !fabricServed s then [] else errTo s p 4

/-! ### Responses (R373) -/

/-- The response limit of a request has not passed (R370, R373). -/
def inTime (s : State) (a : Await) : Bool := decide (hubNow s < a.sent + 2 ^ s.hub.rlim.toNat * 1000)

/-- The oldest request that a response answers: responses carry no number, and name the request's address. One that arrives
after its limit is discarded (R373). -/
def awaited (s : State) (p : Packet) (kinds : List (BitVec 6)) : Option Await :=
  s.hub.awaits.find? fun a => a.node == p.src && a.addr == p.addr && kinds.contains a.kind && inTime s a

/-- A request is no longer awaited. -/
def answeredAct (a : Await) : Act := .hub fun h => { h with awaits := h.awaits.filter fun o => o.id != a.id }

/-- A piece under way is cut short with a code. -/
def cutPiece (s : State) (job ix : Nat) (x : BitVec 4) : List Act :=
  match s.job job with
  | none => []
  | some j =>
    match j.pieces[ix]? with
    | none => []
    | some p => if p.st == .started then pieceCut s j ix p x else []

/-- A held slot's request has its answer. -/
def answerHeld (c : Fin 256) (cid : Nat) (slot : Slot) (v : BitVec 4 × W64 × Bool) : Act :=
  .byCid c cid fun k => { k with remote := k.remote.map fun r => if r.slot = slot then { r with answer := some v } else r }

/-- Bytes that a response brings to a piece, from position `pos`. -/
def pieceGot (a : Await) (job ix pos : Nat) (p : Packet) : Act :=
  .piece job ix fun q =>
    let ix := List.range p.data.length
    { q with awaiting := q.awaiting.filter (· != a.id)
             got := q.got ++ ix.map fun i => (pos + i, p.data.getD i 0)
             lost := q.lost ++ (ix.filter fun i => packetBad p i).map (pos + ·) }

/-- A response other than ERR reaches its requester. -/
def response (s : State) (p : Packet) (kinds : List (BitVec 6)) : List Act :=
  match awaited s p kinds with
  | none => []
  | some a =>
    answeredAct a :: match a.who with
      | .piece job ix pos => [pieceGot a job ix pos p]
      | .core c cid slot =>
        let poison := (List.range p.data.length).any fun i => packetBad p i
        [answerHeld c cid slot (p.status, BitVec.ofNat 64 (leNat p.data), poison)]
      | .reduction _ | .nobody => []

/-- RDRSP (R373). -/
def packetRdrsp (s : State) (p : Packet) : List Act := response s p [1]
/-- WRACK (R373). -/
def packetWrack (s : State) (p : Packet) : List Act := response s { p with data := [] } [2, 0x0D]
/-- ATRSP (R373). -/
def packetAtrsp (s : State) (p : Packet) : List Act := response s p [3]
/-- SPRSP (R373). -/
def packetSprsp (s : State) (p : Packet) : List Act := response s { p with data := [] } [5]

/-- A requester meets an error: a piece its code, `ldx` and `stx` a trap, `spawn` status REMOTE. -/
def failed (s : State) (a : Await) (code : BitVec 4) : List Act :=
  answeredAct a :: match a.who with
    | .piece job ix _ => cutPiece s job ix code
    | .core c cid slot => [answerHeld c cid slot (5, 0, false)]
    | .reduction job => cutPiece s job 0 code
    | .nobody => []

/-- ERR (R373). -/
def packetErr (s : State) (p : Packet) : List Act :=
  match awaited s p [1, 2, 3, 5, 6, 7, 0x0D] with
  | none => []
  | some a => failed s a (if p.status = 1 then codeAccess else codeRemote)

/-- RESPONSE_TIMEOUT (R373): no response came within 2^RLIM microseconds. -/
def responseTimeout (s : State) (id : Nat) : List Act :=
  match s.hub.awaits.find? fun a => a.id == id with
  | none => []
  | some a => if inTime s a then [] else failed s a codeTimeout

/-! ### In-network reduction (R378-R380) -/

/-- RED and ABST (R379): checked with AT against the context record. -/
def packetArrival (s : State) (p : Packet) : List Act :=
  let a := p.addr.toNat
  let n := (p.list.head?.map fun x => x.1.toNat).getD 0
  if !fabricServed s then []
  else if a % 64 ≠ 0 ∨ p.data.length % 4 ≠ 0 ∨ 4096 < p.data.length ∨ (p.kind = 6 ∧ bits p.arg 17 2 = 3#2) ∨
      (n ≠ 0 ∧ n ≤ (bits p.arg 19 5).toNat) then errTo s p 4
  else if !granted s p.master .at a 64 then accessRefused s p
  else match placeOf a with
    | .main | .bank _ _ => arrive s p.addr (arrivalOf p)
    | _ => errTo s p 2


/-- The destination bytes of a reduction's job, in order. -/
def reductionBytes (s : State) (j : Job) : List Nat :=
  match j.pieces[0]? with
  | none => []
  | some p => spotBytes (pieceSpots s j p false).2

/-- The destination of a reduction is still where it was when its piece started (R390). -/
def reductionThere (s : State) (j : Job) (p : Piece) : Bool := unitsThere s (j.target p) p.tr (p.pairs.map Prod.snd) p.quarter

/-- A reduction's tag ends: data, if any, are written first, in an access of its own unless they were `asked` for; where the
destination has lost its power nothing is written and the code is ACCESS (R390). -/
def endReduction (s : State) (j : Job) (data : List Byte) (asked : Bool) (word : Option W128) (sat tmo : Bool) (x : BitVec 4) :
    List Act :=
  match j.pieces[0]? with
  | none => []
  | some q =>
    let xs := reductionBytes s j
    let gone := !data.isEmpty && !(reductionThere s j q)
    let wrote := !data.isEmpty && !gone
    (if wrote then engineWrite s (xs.zip data) [] ++ (if asked then [] else accessRows s (rowsOf xs)) else []) ++
      endBanks q.opened j.ts wrote ++
      [.job j.id fun j => { j with word := if gone then none else word, sat, tmo }] ++
      pieceEnded j 0 { q with opened := [] } (if gone then codeAccess else x)

/-- A RESULT names the index and the destination of a reduction's job. -/
def resultNames (s : State) (p : Packet) (j : Job) : Bool :=
  ctxIndex j.b.d == (bits p.arg 19 5).toNat && BitVec.ofNat 46 ((reductionBytes s j).headD 0) == p.addr

/-- The request that a RESULT answers (R373, R380): the contribution of this node with its index whose destination it names, or
the ABST of a write of ABSTAIN. -/
def resultFor (s : State) (p : Packet) : Option Await :=
  s.hub.awaits.find? fun a => a.node == p.src && (a.kind == 6 || a.kind == 7) && inTime s a &&
    (match a.who with
      | .reduction id => ((s.job id).map (resultNames s p)).getD false
      | .core _ _ _ | .piece _ _ _ => a.kind == 7 && a.addr + 4 == p.addr
      | .nobody => false)

/-- The bytes that a RESULT writes: the destination of the contribution it answers, else what it names; none without data. -/
def resultBytes (s : State) (p : Packet) (a : Option Await) : List Nat :=
  if p.data.isEmpty then [] else
  match a.map Await.who with
  | some (.reduction id) => ((s.job id).map (reductionBytes s)).getD []
  | _ => (List.range p.data.length).map (p.addr.toNat + ·)

/-- The acknowledgement of a RESULT. -/
def resultAck (s : State) (p : Packet) : List Act := respond s { ts := p.ts, addr := p.addr, dst := p.src, kind := 0x11 }

/-- A RESULT performs (R380): the contributor's tag ends with the code and membership it brings; `asked` says that its write has
waited at the pseudo-channels. -/
def resultEnds (s : State) (p : Packet) (j : Job) (asked : Bool) : List Act :=
  let (lo, hi) := p.list.headD (0, 0)
  let m : W32 := bits hi 6 16 ++ lo
  let tmo := bitAt hi 5
  let sat := bitAt hi 4
  let code : BitVec 4 := bits hi 0 4
  let word : Option W128 := if code = codeRemote then none else
    some (BitVec.ofNat 128 (m.toNat * 2 ^ 96 + tmo.toNat * 2 ^ 81 + sat.toNat * 2 ^ 80 + code.toNat * 2 ^ 64 + j.ts.toNat))
  endReduction s j p.data asked word sat tmo code ++ resultAck s p

/-- The bytes of main memory among those a RESULT writes for a job. -/
def resultMain (s : State) (p : Packet) (j : Job) : List Nat :=
  if p.data.isEmpty then [] else (reductionBytes s j).filter fun a => decide (a < Config.mainBytes)

/-- RESULT (R380): checked with WR against the bytes it writes (R375, R376). Where an earlier access through another view to one of
its blocks has still to perform, its write asks the pseudo-channels, and it performs in its turn (R286, R288). -/
def packetResult (s : State) (p : Packet) : List Act :=
  let ack := resultAck s p
  let xs := resultBytes s p (resultFor s p)
  let allowed := (List.finRange 4096).any fun i =>
    actNames s.hub.act[i] p.master .wr && actSized s.hub.act[i] && xs.all fun x => actCovers s.hub.act[i] x 1
  if !fabricServed s then []
  else if !allowed then accessLog p (xs.foldl min (xs.headD p.addr.toNat)) ++ errTo s p 1
  else match resultFor s p with
    | none => ack
    | some a =>
      match a.who with
      | .core c cid slot => answeredAct a :: answerHeld c cid slot (0, 0, false) :: ack
      | .reduction id =>
        match s.job id with
        | none => answeredAct a :: ack
        | some j =>
          let main := resultMain s p j
          if viewFree s (dView j.dst.d) main then answeredAct a :: resultEnds s p j false
          else answeredAct a :: requestActs (id, 0) (dView j.dst.d) main ++ stall p
      | .piece job ix pos => answeredAct a :: pieceGot a job ix pos { p with data := [] } :: ack
      | .nobody => ack

/-- A RESULT whose write has waited at the pseudo-channels performs (R288). -/
def endRedf (s : State) (j : Job) (ix : Nat) : List Act :=
  match s.hub.stalled.find? fun p => p.kind == 8 && p.src == bits j.b.d 48 16 && resultNames s p j with
  | none => []
  | some p =>
    let main := resultMain s p j
    if !(requestsServed s (j.id, ix) main) || viewHeld s (j.id, ix) main then []
    else (.hub fun h => { h with stalled := h.stalled.erase p }) :: dropRequests (j.id, ix) main ++ resultEnds s p j true

/-- COPY_PIECE_END (R184, R185, R288, R380): a copy piece ends, or that of a `redf` whose RESULT has come. -/
def pieceEnd (s : State) (id ix : Nat) : List Act :=
  match s.job id with
  | none => []
  | some j => match j.work, (j.pieces[ix]?).map Piece.st with
    | .redf _, some .started => endRedf s j ix
    | _, _ => copyEnd s id ix

/-! ### Requests in order (R372) -/

/-- A request is served. -/
def servePacket (s : State) (p : Packet) : List Act :=
  match p.kind.toNat with
  | 1 => packetRd s p
  | 2 => packetWr s p
  | 3 => packetAtom s p
  | 4 => packetPost s p
  | 5 => packetSpawn s p
  | 6 | 7 => packetArrival s p
  | 8 => packetResult s p
  | 0x0D => packetMcw s p
  | _ => packetUnknown s p

/-- The numbers that a request takes of its source's: an MCW one for each of its destinations here (R372). -/
def numbersOf (s : State) (p : Packet) : Nat :=
  if p.kind = 0x0D then p.list.countP fun d => d.1 == s.hub.node else 1

/-- A source's next request carries the number after those of `p`. -/
def acceptAct (s : State) (p : Packet) : Act :=
  let n := BitVec.ofNat 32 (numbersOf s p)
  .hub fun h => { h with expect := (p.src, p.seq + n) :: h.expect.filter fun x => x.1 != p.src }

/-- The requests of a source that came early and are next are served, one after another (R372). -/
def serveEarly : Nat → Half → State → List Act
  | 0, _, _ => []
  | fuel + 1, src, s =>
    match s.hub.early.find? fun q => q.src == src && q.seq == s.hub.expected src with
    | none => []
    | some q =>
      let drop : Act := .hub fun h => { h with early := h.early.filter fun o => !(o.src == src && o.seq == q.seq) }
      let acts := drop :: acceptAct s q :: servePacket s q
      acts ++ serveEarly fuel src (applyActs s acts)

/-- A request is accepted and has been served; those that waited for it follow. -/
def accepted (s : State) (p : Packet) (served : List Act) : List Act :=
  let acts := acceptAct s p :: served
  acts ++ serveEarly s.hub.early.length p.src (applyActs s acts)

/-- A request arrives (R372): one source's requests are accepted in the order of their numbers. One that comes early waits; a
number that has been taken is not accepted again. -/
def acceptPacket (s : State) (p : Packet) : List Act :=
  if p.seq = s.hub.expected p.src then accepted s p (servePacket s p)
  else if (p.seq - s.hub.expected p.src).toNat < 2 ^ 31 then [.hub fun h => { h with early := h.early ++ [p] }]
  else []

/-- A packet of a KIND that is not listed is discarded and answered (R371); it takes the number it carries where that is its
source's next. -/
def acceptUnknown (s : State) (p : Packet) : List Act :=
  if p.seq = s.hub.expected p.src then accepted s p (packetUnknown s p) else packetUnknown s p

/-- A write of a register by a source, as its next request (R374). -/
def registerWrite (s : State) (src : Half) (offset : Nat) (v : W64) : List Act :=
  acceptPacket s (registerPacket s src offset v)

/-- ABSTAIN_WRITE (R378): a write of 0x8000_0000 | (epoch << 5) | i to a context's ABSTAIN word abstains contributor i;
any other value is a write of four bytes. The device itself writes without a packet. -/
def abstainWrite (s : State) (src : Half) (addr : BitVec 46) (v : W32) : List Act :=
  let know : List Act := if bits v 21 11 = 0x400#11 ∧ addr.toNat % 64 = 4 then [knowContext s.hub.node (addr - 4)] else []
  let s1 := applyActs s know
  if !fabricServed s then []
  else know ++
    if src = s.hub.node then
      match reach s1 none addr.toNat 4 true with
      | .memory => writeTouch s1 addr.toNat (leBytes 4 v.toNat) [] 0
      | _ => []
    else acceptPacket s1 { addr, src, master := src, kind := 2, data := leBytes 4 v.toNat, seq := s.hub.expected src }

/-! ### Fabric-scope release (R377) -/

/-- An update of a release. -/
def Act.release (id : Nat) (f : Release → Release) : Act := .releases fun rs => rs.map fun r => if r.id = id then f r else r

/-- A release delivers to its node, and is over; while NODE is not assigned no packet is sent (R370). -/
def releaseSent (s : State) (r : Release) : List Act :=
  match r.deliver with
  | .packet p => (if s.hub.node = 0 then [] else sendActs s (some r.src) p .nobody) ++ [.releases fun rs => rs.filter fun o => o.id != r.id]
  | _ => []

/-- FENCE to each switch that the outbound paths cross (R377): DST names the switch (log entry 67). -/
def fenceActs (s : State) : List Nat → List Act
  | [] => []
  | sw :: ws => respond s { dst := BitVec.ofNat 16 sw, kind := 9 } ++ fenceActs s ws

/-- FENCE_PACKET (R377): once the accesses of a core's oldest unsent release have performed, the hub sends FENCE to
every switch that the outbound paths cross; with none it is over. While NODE is not assigned no packet is sent: a POST is
dropped (R370). -/
def fencePacket (s : State) (c : Fin 256) : List Act :=
  match s.releases.find? fun r => r.src == c && r.fabric == .unsent with
  | none => []
  | some r =>
    if s.outstanding r.src r.needs then []
    else if s.hub.node = 0 then
      match r.deliver with
      | .packet _ => [.releases fun rs => rs.filter fun o => o.id != r.id]
      | _ => [.release r.id fun r => { r with fabric := .waiting [] }]
    else
      let acts := (.release r.id fun r => { r with fabric := .waiting s.hub.plan.switches }) :: fenceActs s s.hub.plan.switches
      acts ++ (if s.hub.plan.switches.isEmpty then releaseSent (applyActs s acts) r else [])

/-- FENCEDONE (R377): a switch has answered the oldest FENCE of a core that it has not answered yet. -/
def fenceDone (s : State) (c : Fin 256) (sw : Nat) : List Act :=
  match s.releases.find? fun r => r.src == c && (match r.fabric with | .waiting ws => ws.contains sw | _ => false) with
  | none => []
  | some r =>
    let left := match r.fabric with | .waiting ws => ws.filter (· != sw) | _ => []
    let acts : List Act := [.release r.id fun r => { r with fabric := .waiting left }]
    acts ++ (if left.isEmpty then releaseSent (applyActs s acts) r else [])

/-! ### Time, management and attestation -/

/-- A TIME packet to each of some nodes. -/
def timeTo (s : State) : List Half → List Act
  | [] => []
  | n :: ns => let acts := respond s { dst := n, kind := 0x0B }; acts ++ timeTo (applyActs s acts) ns

/-- TIME (R382): the offset is recorded, LOCK follows it, and from now on the time base is slewed by 1 ns in each microsecond
until the offset is gone, in the microseconds that began with the last correction; it never steps backwards. A node that is
not the master answers with a TIME packet, and the master sends its own to the nodes that it knows (R371; log entry 105). -/
def packetTime (s : State) (master : Half) (offset : W32) : List Act :=
  let o := offset.toInt
  let lock := decide (-20 ≤ o) && decide (o ≤ 20)
  let ns := clockNs s.clock
  if !fabricServed s then [] else
  [.hub fun h =>
    { h with timeMaster := master, offs := offset, lock
             timeOff := h.timeOff + h.slewNow ns, slewBy := -o, slewFrom := ns - (ns - h.slewFrom) % 1000 }] ++
    (if s.hub.lock && !lock then [.report (.lockLost offset)] else []) ++
    (if s.hub.node = 0 then [] else timeTo s
      (if master = s.hub.node then ((s.hub.plan.host.toList ++ s.hub.plan.named).eraseDups.filter (· != master)) else [master]))

/-- MGMT (R371): a packet for the management core. -/
def packetMgmt (p : Packet) : List Act := [.report (.mgmt p)]

/-- Bytes 0 to 159 of an attestation report (R391): what is signed. -/
def attested (s : State) (nonce : BitVec 256) : List Byte :=
  leBytes 32 nonce.toNat ++ leBytes 48 s.hub.measurement.toNat ++ sha384 s.hub.descriptor ++
    [bits (platWord s) 0 8] ++ List.replicate 7 0 ++ leBytes 8 (hubNow s) ++ List.replicate 16 0

/-- The report of an attestation (R391): what is attested and its signature under the device's key. The key, and the secret
number that each signature draws, are free values of 1 to q − 1 (log entry 70). -/
def attestationReport (s : State) (nonce : BitVec 256) : List Byte :=
  let (r, t) := ecdsaSign (secretOf Config.deviceKey) (secretOf (Config.freeSecret s.free)) (sha384 (attested s nonce))
  attested s nonce ++ leBytes 48 r ++ leBytes 48 t

/-- ATTESTATION_REQUEST (R391): a device whose firmware did not verify returns no report. -/
def attestation (s : State) (nonce : BitVec 256) : List Act :=
  if s.hub.booted && !(s.hub.sec == .locked && !s.hub.plan.verified) then
    [.drawn 1, .report (.attestation (attestationReport s nonce))] else []

end Sys2Proof.Machine
end

