-- ==== Sys2Proof/WellFormed.lean ====
section
/-! DEFINITION. Well-formed instructions: the conditions under which a slot instruction's term stands for
a slot word that passes steps 2 and 3 of the decode checks (R70). Events are well formed as they stand. -/

namespace Sys2Proof

/-- A guard of a slot other than V0 and V1 (R53): "always" is never negated. -/
def Guard.wf (g : Guard) : Bool := g.pred.isSome || !g.neg

/-- A guard of a vector slot names a predicate of the slot's own cluster (R53). -/
def Guard.wfV (g : Guard) (cl : Cluster) : Bool :=
  g.wf && match g.pred, cl with
    | none, _ => true
    | some p, .a => decide (p.val < 24)
    | some p, .b => decide (24 ≤ p.val)

/-- The guard "always" without a path, the only guard a `tree` may have (R53). -/
def Guard.always : Guard := ⟨none, false, none⟩

/-- A main-file or operand-file register. -/
def Spec.isReg : Spec → Bool
  | .main _ | .opf _ => true
  | _ => false

/-- Sources of the S slot (R59). -/
def Spec.srcS : Spec → Bool
  | .main _ | .opf _ | .ls | .la | .lb | .qs | .zero | .const _ => true
  | _ => false

/-- Destinations of the S slot (R59). -/
def Spec.dstS : Spec → Bool
  | .main _ | .opf _ | .none => true
  | _ => false

/-- Scalar operands of the L, K, C and Y slots (R59). -/
def Spec.srcX : Spec → Bool
  | .main _ | .opf _ | .ls | .zero | .const _ => true
  | _ => false

/-- Sources of a vector slot (R59). -/
def Spec.srcV : Spec → Cluster → Bool
  | .main _, _ | .opf _, _ | .ls, _ | .zero, _ | .const _, _ => true
  | .la, .a | .qa, .a | .lb, .b | .qb, .b => true
  | .z i, .a => decide (i.val < 4)
  | .z i, .b => decide (4 ≤ i.val)
  | _, _ => false

/-- Destinations of a vector slot (R59). -/
def Spec.dstV : Spec → Cluster → Bool
  | .main _, _ | .opf _, _ | .none, _ => true
  | .z i, .a => decide (i.val < 4)
  | .z i, .b => decide (4 ≤ i.val)
  | _, _ => false

/-- Destinations of a vector slot that are read as well (R59, R129): a stream register among them traps STREAM when it
executes (R63). -/
def Spec.modV (d : Spec) (cl : Cluster) : Bool := d.dstV cl && d != .none

/-- A source that pops when it is read: a load-data queue or a stream (R62, R63). -/
def Spec.pops : Spec → Bool
  | .qs | .qa | .qb | .z _ => true
  | _ => false

/-- Two source fields of one slot do not name one queue or one stream (R62). -/
def apart (a b : Spec) : Bool := !(a.pops && a == b)

/-- A predicate that a cluster's own slot may write (R56, R59). -/
def predOf (cl : Cluster) (p : Fin 48) : Bool :=
  match cl with
  | .a => decide (p.val < 24)
  | .b => decide (24 ≤ p.val)

/-- A scalar source of the K data map (R148). -/
def KData.scalar : KData → Bool
  | .s _ | .qs | .ls | .zero => true
  | _ => false

/-- A vector source of the K data map (R148). -/
def KData.vector : KData → Bool
  | .v _ | .w _ | .qa | .qb | .la | .lb => true
  | _ => false

/-- Scalar access widths. -/
def Width.scalar : Width → Bool
  | .b | .h | .w | .d => true
  | _ => false

/-- Data source and width of a store are paired as R148 gives; a stream element, whose binding may have the width w, d, hv
or v, is paired at execution with the width of its own binding. -/
def storePair (x : KData) (wd : Width) : Bool :=
  if x.scalar then wd.scalar else if x.vector then !wd.scalar else wd != .b && wd != .h

/-- Destination and width of a load are paired as R146 gives. -/
def loadPair (q : LoadTo) (wd : Width) : Bool :=
  match q, wd with
  | .qs _, .b | .qs _, .h | .qs _, .w | .qs _, .d => true
  | .qa, .v | .qa, .hv | .qb, .v | .qb, .hv => true
  | .desc _ _, .hv => true
  | _, _ => false

/-- The control-register numbers of R66. -/
def ctlListed (n : Byte) : Bool := decide (n.toNat < 32) || (decide (64 ≤ n.toNat) && decide (n.toNat < 128))

/-- A destination `mfc` may name for control register `n`: a tag status word needs an even main-file
register (R102). -/
def mfcDst (d : Spec) (n : Byte) : Bool :=
  if n.toNat < 32 then d.dstS
  else match d with
    | .main i => i.val % 2 == 0
    | _ => false

/-- The fields of a copy's flag are zero when it posts none (R176). -/
def FlagTo.wf (p : FlagTo) : Bool := p.mode != 0 || (p.core == 0 && p.flag == 0)

/-- No flag. -/
def FlagTo.none : FlagTo := ⟨0, 0, 0⟩

/-- The unused fields and the modifier of a tile operation (R210, R212, R215, R225). -/
def TileOp.wf (op : TileOp) (o : TOps) : Bool :=
  match op with
  | .add | .sub | .mul | .max | .min => o.c == 0
  | .abs | .cvt | .fill => o.b == 0 && o.c == 0 && o.pb == 0 && !bitAt o.mod 3
  | .scl | .lut => o.b == 0 && o.pb == 0 && !bitAt o.mod 3
  | .sel => true
  | .red => o.b == 0 && o.c == 0 && o.pb == 0 && bits o.mod 2 2 != 3#2
  | .mma | .spm => !bitAt o.mod 2 && (bitAt o.mod 3 || o.c == 0)

/-- One test of a tree: named within COUNT, zero beyond it (R108). -/
def Test.wf (t : Test) (i : Nat) (count : BitVec 2) : Bool :=
  if i < (if count == 0 then 4 else count.toNat) then decide (t.p.toNat < 48)
  else t.p == 0 && !t.neg

/-- The well-formed instructions. -/
def Instr.wf : Instr → Bool
  | .nop g => g.wf
  | .add g d a b | .sub g d a b | .and g d a b | .or g d a b | .xor g d a b | .shl g d a b
  | .shr g d a b | .sar g d a b | .mul g d a b | .mulh g d a b | .mulhu g d a b | .min g d a b
  | .max g d a b | .minu g d a b | .maxu g d a b =>
    g.wf && d.dstS && a.srcS && b.srcS && apart a b
  | .addi g d a _ | .andi g d a _ | .ori g d a _ | .xori g d a _ => g.wf && d.dstS && a.srcS
  | .shli g d a imm | .shri g d a imm | .sari g d a imm =>
    g.wf && d.dstS && a.srcS && decide (imm.toNat ≤ 63)
  | .lea g d a _ _ => g.wf && d.dstS && a.srcS
  | .li g d _ => g.wf && d.dstS
  | .lui g d _ => g.wf && d.isReg
  | .clz g d a | .popc g d a => g.wf && d.dstS && a.srcS
  | .bfx g d a pos len1 _ => g.wf && d.dstS && a.srcS && decide (pos.toNat + len1.toNat + 1 ≤ 64)
  | .bfi g d a b pos len1 =>
    g.wf && d.dstS && a.srcS && b.srcS && apart a b && decide (pos.toNat + len1.toNat + 1 ≤ 64)
  | .sel g d a b _ => g.wf && d.dstS && a.srcS && b.srcS && apart a b
  | .cmp g _ a b _ => g.wf && a.srcS && b.srcS && apart a b
  | .cmpi g _ a _ _ => g.wf && a.srcS
  | .pand g _ _ _ | .por g _ _ _ | .pxor g _ _ _ | .pandn g _ _ _ => g.wf
  | .pset g _ a => g.wf && a.srcS
  | .vext g d src _ _ => g.wf && d.dstS && (src == .la || src == .lb)
  | .mfc g d n => g.wf && ctlListed n && mfcDst d n
  | .mtc g n a => g.wf && ctlListed n && a.srcS
  | .setbtAddr g _ _ => g.wf
  | .setbtReg g _ a => g.wf && a.srcS
  | .tset g _ _ a => g.wf && a.srcS
  | .tget g d _ _ => g.wf && d.dstS
  | .vnop g cl => g.wfV cl
  | .vadd g cl d a b | .vsub g cl d a b | .vmul g cl d a b | .vmulh g cl d a b | .vmin g cl d a b
  | .vmax g cl d a b | .vand g cl d a b | .vor g cl d a b | .vxor g cl d a b | .vshl g cl d a b
  | .vshr g cl d a b | .vsar g cl d a b | .vadds g cl d a b | .vsubs g cl d a b | .vminu g cl d a b
  | .vmaxu g cl d a b | .fmin g cl d a b | .fmax g cl d a b | .vperm g cl d a b =>
    g.wfV cl && d.dstV cl && a.srcV cl && b.srcV cl && apart a b
  | .vabs g cl d a | .vneg g cl d a | .fabs g cl d a | .fneg g cl d a | .frcp g cl d a
  | .frsq g cl d a | .fclass g cl d a | .vmov g cl d a => g.wfV cl && d.dstV cl && a.srcV cl
  | .vcmp g cl pd a b _ => g.wfV cl && predOf cl pd && a.srcV cl && b.srcV cl && apart a b
  | .fadd g cl d a b _ | .fsub g cl d a b _ | .fmul g cl d a b _ | .fdiv g cl d a b _ =>
    g.wfV cl && d.dstV cl && a.srcV cl && b.srcV cl && apart a b
  | .fma g cl d a b c _ | .fms g cl d a b c _ | .fnma g cl d a b c _ =>
    g.wfV cl && d.dstV cl && a.srcV cl && b.srcV cl && c.srcV cl && apart a b && apart a c && apart b c
  | .fsqrt g cl d a _ => g.wfV cl && d.dstV cl && a.srcV cl
  | .fcmp g cl pd a b _ => g.wfV cl && predOf cl pd && a.srcV cl && b.srcV cl && apart a b
  | .cvt g cl d a src dst _ => g.wfV cl && d.dstV cl && a.srcV cl && src != dst
  | .vpack g cl d a b _ _ => g.wfV cl && d.dstV cl && a.srcV cl && b.srcV cl && apart a b
  | .vunpk g cl d a _ _ => g.wfV cl && d.dstV cl && a.srcV cl
  | .plext g cl d a k1 cen _ => g.wfV cl && d.dstV cl && a.srcV cl && !(cen && k1 == 7)
  | .plins g cl d a k1 cen _ _ => g.wfV cl && d.modV cl && a.srcV cl && !(cen && k1 == 7)
  | .vsel g cl d a b _ => g.wfV cl && d.dstV cl && a.srcV cl && b.srcV cl && apart a b
  | .vli g cl d _ | .viota g cl d _ _ => g.wfV cl && d.dstV cl
  | .vbcast g cl d a _ | .vrot g cl d a _ | .vbfly g cl d a _ => g.wfV cl && d.dstV cl && a.srcV cl
  | .vradd g cl d a _ _ | .vrmax g cl d a _ | .vrmin g cl d a _ | .frsum g cl d a _ _
  | .frmax g cl d a _ | .frmin g cl d a _ => g.wfV cl && d.dstV cl && a.srcV cl
  | .xmov g cl d a => g.wfV cl && d.isReg && a.srcV cl
  | .vins g cl d a _ => g.wfV cl && d.dstV cl && (match a with | .ls | .zero | .const _ => true | _ => false)
  | .vfromp g cl d _ => g.wfV cl && d.dstV cl
  | .vtop g cl pd a => g.wfV cl && predOf cl pd && a.srcV cl
  | .lnop g => g.wf
  | .ld g base index scale _ _ width q =>
    g.wf && base.srcX && index.srcX && loadPair q width &&
      (match q with | .desc _ _ => index == .zero && scale == 0 | _ => true)
  | .lde g base index _ _ _ _ | .ldf g base index _ _ _ _ => g.wf && base.srcX && index.srcX
  | .ldx g _ _ _ => g.wf
  | .amo g base val op _ _ =>
    g.wf && base.srcX && val.srcX && (match op with | .cas e => e.srcX | _ => true)
  | .lbst g base _ _ => g.wf && base.srcX
  | .knop g => g.wf
  | .st g base src _ _ width =>
    g.wf && base.srcX && (match src with | .data x => storePair x width | .desc _ _ => width == .hv)
  | .stf g base src _ _ | .ste g base src _ _ => g.wf && base.srcX && storePair src .w
  | .stx g _ src _ _ => g.wf && src.isReg
  | .bst g base _ _ _ => g.wf && base.srcX
  | .stm g base src _ _ width _ => g.wf && base.srcX && src.vector && !width.scalar
  | .tnop g => g.wf
  | .tadd g o => g.wf && TileOp.wf .add o
  | .tsub g o => g.wf && TileOp.wf .sub o
  | .tmul g o => g.wf && TileOp.wf .mul o
  | .tmax g o => g.wf && TileOp.wf .max o
  | .tmin g o => g.wf && TileOp.wf .min o
  | .tabs g o => g.wf && TileOp.wf .abs o
  | .tcvt g o => g.wf && TileOp.wf .cvt o
  | .tscl g o => g.wf && TileOp.wf .scl o
  | .tfill g o => g.wf && TileOp.wf .fill o
  | .tsel g o => g.wf && TileOp.wf .sel o
  | .tlut g o => g.wf && TileOp.wf .lut o
  | .tred g o => g.wf && TileOp.wf .red o
  | .tmma g o => g.wf && TileOp.wf .mma o
  | .tspm g o => g.wf && TileOp.wf .spm o
  | .place g op o => g.wf && TileOp.wf op o && o.cls == 0 && o.tq == 0
  | .cnop g => g.wf
  | .cpy g o | .flume g o | .wstat g o => g.wf && o.post.wf && o.aux == 0
  | .gath g o | .scat g o | .mcast g o | .wsa g o | .wred g o => g.wf && o.post.wf
  | .strm g _ _ _ _ _ _ => g.wf
  | .unstrm g _ _ _ _ fl => g.wf && fl.wf
  | .catom g o _ | .redf g o _ => g.wf && o.post == FlagTo.none
  | .hot g o _ => g.wf && o.post.wf && o.aux == 0
  | .tlbi g a _ _ _ => g.wf && a.srcX
  | .ynop g => g.wf
  | .tree g _ t1 t2 t3 t4 _ count =>
    g == Guard.always && t1.wf 0 count && t2.wf 1 count && t3.wf 2 count && t4.wf 3 count
  | .jmpBt g _ | .jmpAddr g _ | .callBt g _ _ | .callAddr g _ _ | .ret g _ | .loop g _ _ => g.wf
  | .loopSet g _ a => g.wf && a.srcX
  | .bsel g d a b => g.wf && d.isReg && a.srcX && b.srcX
  | .post g _ tgt _ n =>
    g.wf && n != 0 && (match tgt with | .own => true | .core x => x.srcX | .node x => x.srcX)
  | .waitf g _ _ _ => g.wf
  | .waitany g a | .waitall g a => g.wf && a.srcX
  | .ffr g d a => g.wf && d.isReg && a.srcX
  | .bar g _ => g.wf
  | .watch g base => g.wf && base.srcX
  | .waitm g d => g.wf && d.isReg
  | .fence g _ _ | .qfence g _ => g.wf
  | .send g data core =>
    g.wf && core.srcX && (match data with | .v _ | .w _ | .la | .lb => true | _ => false)
  | .recv g d core => g.wf && core.srcX && (match d with | .v _ | .w _ => true | _ => false)
  | .give g wsrc core wdst flag fe =>
    g.wf && core.srcX && decide (wsrc.toNat ≤ 251) && decide (wdst.toNat ≤ 251) && (fe || flag == 0)
  | .openw g w | .closew g w => g.wf && decide (w.toNat ≤ 251)
  | .fuse g _ => g.wf
  | .spawn g d q rec => g.wf && d.isReg && q.srcX && rec.srcX
  | .suspendQueue g q _ | .suspendWatch g q _ => g.wf && q.srcX
  | .suspendFlag g q _ _ count => g.wf && q.srcX && count != 0
  | .yield g | .done g => g.wf
  | .tstamp g d | .tstampHub g d => g.wf && d.isReg
  | .tstampSet g a => g.wf && a.srcX
  | .cmptScalar g a b =>
    g.wf && (a.srcX || a == .qs) && (b.srcX || b == .qs) && apart a b
  | .cmptVector g a b _ =>
    g.wf && a.vector && b.vector && !(a == b && (a == .qa || a == .qb))
  | .trap g _ | .rft g | .idle g => g.wf
  | .brake g _ t | .brakeClear g _ t => g.wf && t.srcX
  | .powerOnReset | .bundleIssue _ | .decouple | .rejoin | .windshaftRejoin _ | .resultLanding _
  | .loadDataValid _ | .ownerPortBeat _ | .parkSatisfy _ | .millerPlacement _ | .tilePieceEnd _ _ _
  | .stoneJob _ | .copyPieceStart _ _ | .pagerRecordAppend _ | .copyPieceEnd _ _ | .tagCompletion _
  | .streamFill _ _ | .streamDrain _ _ | .tlbiCompletion _ | .invalWatchdogExpiry _
  | .pagerResolveRestart _ | .pagerResolveNoframe _ | .pagerResolveAccess _ | .barArrival _
  | .circuitHeader _ | .circuitDataArrival _ | .giveAttach _ | .flagIncrementArrival _ | .parkAppend _ _
  | .trapEntry _ _ _ | .contextSaveComplete _ | .preemptionRequest _ | .preemptionTaken _
  | .contextSpill _ | .resume _ | .dispatchPick _ | .pickup _ | .lateTransition _ _ _
  | .replayWindowExpiry _ | .stretchExpiry _ | .issueWatchdogExpiry _ | .memoryRequest _ | .wheelStep _
  | .refreshInterval _ | .stackSelfTestStart _ | .selfTestParkRow _ | .selfTestMarchEnd _ _
  | .selfTestRestoreRow _ | .logicTestStart _ | .logicTestEnd _ _ | .launch _ _ | .doorbell _ _ _
  | .imgbaseWrite _ _ _ | .partcfgWrite _ _ _ | .slottabWrite _ _ _ _ | .bmapWrite _ _ _ _ | .powerP0 _
  | .powerP1 _ | .powerC1 _ | .powerC3 _ | .powerD3 _ | .powerTransitionEnd | .registerWrite _ _ _
  | .abstainWrite _ _ _ | .rd _ | .wr _ | .atom _ | .postPacket _ | .spawnPacket _ | .red _ | .abst _
  | .reductionDeadline _ | .result _ | .fencePacket _ | .fencedone _ _ | .time _ _ | .mgmt _
  | .attestationRequest _ | .mcw _ | .rdrsp _ | .wrack _ | .atrsp _ | .sprsp _ | .err _
  | .unknownPacket _ | .responseTimeout _ | .securityStateChange _ | .halt _ | .overtempP1
  | .overtempShutdown => true

end Sys2Proof
end

