-- ==== Sys2Proof/Decode.lean ====
section
/-! DEFINITION. The decoder of slot words and bundles (R47-R71 and each instruction's entry), total on
any bits and refusing by the reasons of R71, and after it the encoder, written from the same tables. -/

namespace Sys2Proof

/-- Why a slot word is refused: the REASON and DETAIL of R71. -/
structure DecodeError where
  reason : Nat
  detail : Byte
  deriving DecidableEq, Repr

/-- One slot of a bundle (R52). -/
abbrev SlotWord := BitVec 60

/-- A step of the decoder. -/
abbrev Dec := Except DecodeError

/-- OPCODE, slot bits [49:42] (R52). -/
def opcodeOf (w : SlotWord) : Byte := bits w 42 8

/-- Reason 7, a specifier (R71). -/
def bad7 {α : Type} (b : Byte) : Dec α := .error ⟨7, b⟩

/-- Reason 8, operand bits; DETAIL holds the opcode (R71). -/
def bad8 {α : Type} (w : SlotWord) : Dec α := .error ⟨8, opcodeOf w⟩

/-- Operand bits `[lo+len-1:lo]` must be zero (R68). -/
def zeros (w : SlotWord) (lo len : Nat) : Dec Unit := if bits w lo len = 0 then .ok () else bad8 w

/-- A condition on the operand bits (reason 8). -/
def need (w : SlotWord) (b : Bool) : Dec Unit := if b then .ok () else bad8 w

/-- A small number from the field `[lo+len-1:lo]`. -/
def num (w : SlotWord) (lo len : Nat) : Nat := (bits w lo len).toNat

/-- The special register codes (R58). -/
def specialOf (b : Byte) : Option Spec :=
  match b.toNat with
  | 0x80 => some .ls | 0x81 => some .la | 0x82 => some .lb
  | 0x88 => some .qs | 0x89 => some .qa | 0x8A => some .qb
  | 0x90 => some (.z 0) | 0x91 => some (.z 1) | 0x92 => some (.z 2) | 0x93 => some (.z 3)
  | 0x94 => some (.z 4) | 0x95 => some (.z 5) | 0x96 => some (.z 6) | 0x97 => some (.z 7)
  | 0xA0 => some .zero | 0xBF => some .none
  | _ => none

/-- An 8-bit register specifier (R57). -/
def decodeSpec (b : Byte) : Option Spec :=
  match (bits b 6 2).toNat with
  | 0 => some (.main (Fin.ofNat 64 (bits b 0 6).toNat))
  | 1 => if bits b 3 3 = 0 then some (.opf (Fin.ofNat 8 (bits b 0 3).toNat)) else none
  | 2 => specialOf b
  | _ => some (.const (bits b 0 6))

/-- A specifier field that must lie in the reach `ok` (R59). -/
def spec (w : SlotWord) (lo : Nat) (ok : Spec → Bool) : Dec Spec :=
  match decodeSpec (bits w lo 8) with
  | some s => if ok s then .ok s else bad7 (bits w lo 8)
  | none => bad7 (bits w lo 8)

/-- The K data map (R59). -/
def decodeKData (b : Byte) : Option KData :=
  match (bits b 6 2).toNat with
  | 0 => some (.s (Fin.ofNat 64 (bits b 0 6).toNat))
  | 1 => some (.v (Fin.ofNat 64 (bits b 0 6).toNat))
  | 2 => some (.w (Fin.ofNat 64 (bits b 0 6).toNat))
  | _ =>
    match (bits b 0 6).toNat with
    | 0x00 => some .ls | 0x01 => some .la | 0x02 => some .lb
    | 0x08 => some .qs | 0x09 => some .qa | 0x0A => some .qb
    | 0x10 => some (.z 0) | 0x11 => some (.z 1) | 0x12 => some (.z 2) | 0x13 => some (.z 3)
    | 0x14 => some (.z 4) | 0x15 => some (.z 5) | 0x16 => some (.z 6) | 0x17 => some (.z 7)
    | 0x20 => some .zero
    | _ => none

/-- A field of the K data map that must satisfy `ok`. -/
def kdata (w : SlotWord) (lo : Nat) (ok : KData → Bool) : Dec KData :=
  match decodeKData (bits w lo 8) with
  | some x => if ok x then .ok x else bad7 (bits w lo 8)
  | none => bad7 (bits w lo 8)

/-- A predicate index, 0 to 47 (R98-R100). -/
def predIx (w : SlotWord) (lo : Nat) : Dec (Fin 48) :=
  if h : num w lo 6 < 48 then .ok ⟨num w lo 6, h⟩ else bad7 (BitVec.ofNat 8 (num w lo 6))

/-- A predicate index, or 63 for every lane (R133, R351). -/
def predOrAll (w : SlotWord) (lo : Nat) : Dec (Option (Fin 48)) :=
  if num w lo 6 = 63 then .ok none else (predIx w lo).map some

/-- A predicate destination of the slot's own cluster (R59). -/
def predDst (w : SlotWord) (cl : Cluster) : Dec (Fin 48) :=
  match predIx w 36 with
  | .ok p => if predOf cl p then .ok p else bad7 (BitVec.ofNat 8 p.val)
  | .error e => .error e

/-- Rounding mode codes (R35). -/
def rmOf (x : BitVec 2) : Rm :=
  match x.toNat with
  | 0 => .rne | 1 => .rtz | 2 => .rup | _ => .rdn

/-- Integer condition codes (R99). -/
def condOf (w : SlotWord) (lo : Nat) : Dec Cond :=
  match num w lo 4 with
  | 0 => .ok .eq | 1 => .ok .ne | 2 => .ok .lt | 3 => .ok .le
  | 4 => .ok .ltu | 5 => .ok .leu | 6 => .ok .gt | 7 => .ok .ge
  | _ => bad8 w

/-- Floating condition codes (R38). -/
def fcondOf (w : SlotWord) (lo : Nat) : Dec FCond :=
  match num w lo 4 with
  | 0 => .ok .eq | 1 => .ok .ne | 2 => .ok .lt | 3 => .ok .le | 6 => .ok .gt | 7 => .ok .ge
  | 8 => .ok .un | 9 => .ok .ord | 10 => .ok .rk
  | _ => bad8 w

/-- FROM and TO of `cvt` (R127). -/
def vfmtOf (w : SlotWord) (lo : Nat) : Dec VFmt :=
  match num w lo 3 with
  | 0 => .ok .i32 | 1 => .ok .f32 | 2 => .ok .bf16 | 3 => .ok .f16
  | _ => bad8 w

/-- KIND of `vpack` and `vunpk` (R128). -/
def packOf (x : BitVec 2) : PackKind :=
  match x.toNat with
  | 0 => .low | 1 => .s16 | 2 => .bf16 | _ => .f16

/-- Access widths (R144). -/
def widthOf (w : SlotWord) (lo : Nat) : Dec Width :=
  match num w lo 3 with
  | 0 => .ok .b | 1 => .ok .h | 2 => .ok .w | 3 => .ok .d | 4 => .ok .v | 5 => .ok .hv
  | _ => bad8 w

/-- Widths of `ldx` and `stx` (R159). -/
def xwidthOf (x : BitVec 2) : XWidth :=
  match x.toNat with
  | 0 => .b | 1 => .h | 2 => .w | _ => .d

/-- A main-file scalar, as `ldx` and `stx` name their address pair (R159). -/
def mainReg (w : SlotWord) (lo : Nat) : Dec (Fin 64) :=
  if bits w (lo + 6) 2 = 0 then .ok (Fin.ofNat 64 (num w lo 6)) else bad7 (bits w lo 8)

/-- The guard fields that give ILLOP reason 6 (R53). -/
def decodeGuard (w : SlotWord) : Dec Guard :=
  let p := num w 54 6
  let path := num w 50 3
  let bad : Dec Guard := .error ⟨6, BitVec.ofNat 8 p⟩
  let leaf : Option (Fin 5) := if path = 0 then none else some (Fin.ofNat 5 (path - 1))
  if 6 ≤ path then bad
  else if h : p < 48 then .ok ⟨some ⟨p, h⟩, bitAt w 53, leaf⟩
  else if p = 63 ∧ bitAt w 53 = false then .ok ⟨none, false, leaf⟩
  else bad

/-- The RRR form of the S slot with c and the modifier zero (R92). -/
def rrr (w : SlotWord) : Dec (Spec × Spec × Spec) := do
  let d ← spec w 34 Spec.dstS
  let a ← spec w 26 Spec.srcS
  let b ← spec w 18 Spec.srcS
  if apart a b then zeros w 0 18 else bad7 (bits w 18 8)
  pure (d, a, b)

/-- The RRI form (R93). -/
def rri (w : SlotWord) : Dec (Spec × Spec) := do
  let d ← spec w 34 Spec.dstS
  let a ← spec w 26 Spec.srcS
  pure (d, a)

/-- An immediate shift: imm26 from 0 to 63 (R93). -/
def rriShift (w : SlotWord) : Dec (Spec × Spec) := do
  let r ← rri w
  need w (decide (num w 0 26 ≤ 63))
  pure r

/-- The predicate logic layout (R100). -/
def plog (w : SlotWord) : Dec (Fin 48 × Fin 48 × Fin 48) := do
  let pd ← predIx w 36
  let pa ← predIx w 30
  let pb ← predIx w 24
  zeros w 0 24
  pure (pd, pa, pb)

/-- The S slot (R69, R92-R105). -/
def decodeS (g : Guard) (w : SlotWord) : Dec Instr :=
  match (opcodeOf w).toNat with
  | 0x00 => .ok (.nop g)
  | 0x01 => do let (d, a, b) ← rrr w; pure (.add g d a b)
  | 0x02 => do let (d, a, b) ← rrr w; pure (.sub g d a b)
  | 0x03 => do let (d, a, b) ← rrr w; pure (.and g d a b)
  | 0x04 => do let (d, a, b) ← rrr w; pure (.or g d a b)
  | 0x05 => do let (d, a, b) ← rrr w; pure (.xor g d a b)
  | 0x06 => do let (d, a, b) ← rrr w; pure (.shl g d a b)
  | 0x07 => do let (d, a, b) ← rrr w; pure (.shr g d a b)
  | 0x08 => do let (d, a, b) ← rrr w; pure (.sar g d a b)
  | 0x09 => do let (d, a, b) ← rrr w; pure (.mul g d a b)
  | 0x0A => do let (d, a, b) ← rrr w; pure (.mulh g d a b)
  | 0x0B => do let (d, a, b) ← rrr w; pure (.mulhu g d a b)
  | 0x0C => do let (d, a, b) ← rrr w; pure (.min g d a b)
  | 0x0D => do let (d, a, b) ← rrr w; pure (.max g d a b)
  | 0x0E => do let (d, a, b) ← rrr w; pure (.minu g d a b)
  | 0x0F => do let (d, a, b) ← rrr w; pure (.maxu g d a b)
  | 0x10 => do let (d, a) ← rri w; pure (.addi g d a (bits w 0 26))
  | 0x11 => do let (d, a) ← rri w; pure (.andi g d a (bits w 0 26))
  | 0x12 => do let (d, a) ← rri w; pure (.ori g d a (bits w 0 26))
  | 0x13 => do let (d, a) ← rri w; pure (.xori g d a (bits w 0 26))
  | 0x14 => do let (d, a) ← rriShift w; pure (.shli g d a (bits w 0 26))
  | 0x15 => do let (d, a) ← rriShift w; pure (.shri g d a (bits w 0 26))
  | 0x16 => do let (d, a) ← rriShift w; pure (.sari g d a (bits w 0 26))
  | 0x17 => do let (d, a) ← rri w; zeros w 24 2; pure (.lea g d a (bits w 16 8) (bits w 0 16))
  | 0x18 => do let d ← spec w 34 Spec.dstS; pure (.li g d (bits w 0 34))
  | 0x19 => do let d ← spec w 34 Spec.isReg; zeros w 32 2; pure (.lui g d (bits w 0 32))
  | 0x1A => do let (d, a) ← rri w; zeros w 0 26; pure (.clz g d a)
  | 0x1B => do let (d, a) ← rri w; zeros w 0 26; pure (.popc g d a)
  | 0x1C => do
    let (d, a) ← rri w
    zeros w 18 8; zeros w 0 5
    need w (decide (num w 12 6 + num w 6 6 + 1 ≤ 64))
    pure (.bfx g d a (bits w 12 6) (bits w 6 6) (bitAt w 5))
  | 0x1D => do
    let (d, a) ← rri w
    let b ← spec w 18 Spec.srcS
    if apart a b then zeros w 0 6 else bad7 (bits w 18 8)
    need w (decide (num w 12 6 + num w 6 6 + 1 ≤ 64))
    pure (.bfi g d a b (bits w 12 6) (bits w 6 6))
  | 0x1E => do
    let (d, a) ← rri w
    let b ← spec w 18 Spec.srcS
    let p ← predIx w 12
    if apart a b then zeros w 0 12 else bad7 (bits w 18 8)
    pure (.sel g d a b p)
  | 0x20 => do
    let pd ← predIx w 36
    let a ← spec w 26 Spec.srcS
    let b ← spec w 18 Spec.srcS
    if apart a b then zeros w 34 2 else bad7 (bits w 18 8)
    zeros w 0 14
    let cond ← condOf w 14
    pure (.cmp g pd a b cond)
  | 0x21 => do
    let pd ← predIx w 36
    let a ← spec w 24 Spec.srcS
    let cond ← condOf w 32
    pure (.cmpi g pd a (bits w 0 24) cond)
  | 0x22 => do let (pd, pa, pb) ← plog w; pure (.pand g pd pa pb)
  | 0x23 => do let (pd, pa, pb) ← plog w; pure (.por g pd pa pb)
  | 0x24 => do let (pd, pa, pb) ← plog w; pure (.pxor g pd pa pb)
  | 0x25 => do let (pd, pa, pb) ← plog w; pure (.pandn g pd pa pb)
  | 0x26 => do
    let pd ← predIx w 36
    let a ← spec w 26 Spec.srcS
    zeros w 34 2; zeros w 0 26
    pure (.pset g pd a)
  | 0x28 => do
    let d ← spec w 34 Spec.dstS
    let src ← spec w 26 (fun x => x == .la || x == .lb)
    zeros w 0 19
    pure (.vext g d src (bits w 20 6) (bitAt w 19))
  | 0x30 => do
    let d ← spec w 34 Spec.dstS
    zeros w 8 26
    need w (ctlListed (bits w 0 8))
    need w (mfcDst d (bits w 0 8))
    pure (.mfc g d (bits w 0 8))
  | 0x31 => do
    let a ← spec w 26 Spec.srcS
    zeros w 34 8; zeros w 8 18
    need w (ctlListed (bits w 0 8))
    pure (.mtc g (bits w 0 8) a)
  | 0x32 =>
    if bitAt w 37 then do
      let a ← spec w 24 Spec.srcS
      zeros w 32 5; zeros w 0 24
      pure (.setbtReg g (Fin.ofNat 16 (num w 38 4)) a)
    else do
      zeros w 32 5
      pure (.setbtAddr g (Fin.ofNat 16 (num w 38 4)) (bits w 0 32))
  | 0x34 => do
    let a ← spec w 24 Spec.srcS
    zeros w 0 24
    need w (!bitAt w 36)
    pure (.tset g (Fin.ofNat 32 (num w 37 5)) (Fin.ofNat 16 (num w 32 4)) a)
  | 0x35 => do
    let d ← spec w 24 Spec.dstS
    zeros w 0 24
    need w (!bitAt w 36)
    pure (.tget g d (Fin.ofNat 32 (num w 37 5)) (Fin.ofNat 16 (num w 32 4)))
  | _ => .error ⟨5, opcodeOf w⟩

/-- d and a of a vector slot. -/
def vda (cl : Cluster) (w : SlotWord) : Dec (Spec × Spec) := do
  let d ← spec w 34 (Spec.dstV · cl)
  let a ← spec w 26 (Spec.srcV · cl)
  pure (d, a)

/-- d and a with b, c and the modifier zero. -/
def vrr (cl : Cluster) (w : SlotWord) : Dec (Spec × Spec) := do
  let r ← vda cl w
  zeros w 0 26
  pure r

/-- d, a and b of the RRR form. -/
def vdab (cl : Cluster) (w : SlotWord) : Dec (Spec × Spec × Spec) := do
  let (d, a) ← vda cl w
  let b ← spec w 18 (Spec.srcV · cl)
  if apart a b then pure (d, a, b) else bad7 (bits w 18 8)

/-- The RRR form of a vector slot with c and the modifier zero (R120). -/
def vrrr (cl : Cluster) (w : SlotWord) : Dec (Spec × Spec × Spec) := do
  let r ← vdab cl w
  zeros w 0 18
  pure r

/-- The RRR form with a rounding mode in [1:0] (R122). -/
def vrrrm (cl : Cluster) (w : SlotWord) : Dec (Spec × Spec × Spec × Rm) := do
  let (d, a, b) ← vdab cl w
  zeros w 2 16
  pure (d, a, b, rmOf (bits w 0 2))

/-- The fused forms with c and a rounding mode (R123). -/
def vfma (cl : Cluster) (w : SlotWord) : Dec (Spec × Spec × Spec × Spec × Rm) := do
  let (d, a, b) ← vdab cl w
  let c ← spec w 10 (Spec.srcV · cl)
  if apart a c && apart b c then zeros w 2 8 else bad7 (bits w 10 8)
  pure (d, a, b, c, rmOf (bits w 0 2))

/-- The compare-to-predicate form of a vector slot (R121, R126). -/
def vcmpForm (cl : Cluster) (w : SlotWord) : Dec (Fin 48 × Spec × Spec) := do
  let pd ← predDst w cl
  let a ← spec w 26 (Spec.srcV · cl)
  let b ← spec w 18 (Spec.srcV · cl)
  if apart a b then zeros w 34 2 else bad7 (bits w 18 8)
  zeros w 0 14
  pure (pd, a, b)

/-- The layout of the reductions (R133), less the modifier. -/
def vred (cl : Cluster) (w : SlotWord) : Dec (Spec × Spec × Option (Fin 48)) := do
  let (d, a) ← vda cl w
  let pm ← predOrAll w 12
  zeros w 18 8; zeros w 2 10
  pure (d, a, pm)

/-- The vector slots (R69, R117-R134). -/
def decodeV (cl : Cluster) (g : Guard) (w : SlotWord) : Dec Instr :=
  match (opcodeOf w).toNat with
  | 0x00 => .ok (.vnop g cl)
  | 0x01 => do let (d, a, b) ← vrrr cl w; pure (.vadd g cl d a b)
  | 0x02 => do let (d, a, b) ← vrrr cl w; pure (.vsub g cl d a b)
  | 0x03 => do let (d, a, b) ← vrrr cl w; pure (.vmul g cl d a b)
  | 0x04 => do let (d, a, b) ← vrrr cl w; pure (.vmulh g cl d a b)
  | 0x05 => do let (d, a, b) ← vrrr cl w; pure (.vmin g cl d a b)
  | 0x06 => do let (d, a, b) ← vrrr cl w; pure (.vmax g cl d a b)
  | 0x07 => do let (d, a, b) ← vrrr cl w; pure (.vand g cl d a b)
  | 0x08 => do let (d, a, b) ← vrrr cl w; pure (.vor g cl d a b)
  | 0x09 => do let (d, a, b) ← vrrr cl w; pure (.vxor g cl d a b)
  | 0x0A => do let (d, a, b) ← vrrr cl w; pure (.vshl g cl d a b)
  | 0x0B => do let (d, a, b) ← vrrr cl w; pure (.vshr g cl d a b)
  | 0x0C => do let (d, a, b) ← vrrr cl w; pure (.vsar g cl d a b)
  | 0x0D => do let (d, a) ← vrr cl w; pure (.vabs g cl d a)
  | 0x0E => do let (d, a) ← vrr cl w; pure (.vneg g cl d a)
  | 0x0F => do
    let (pd, a, b) ← vcmpForm cl w
    let cond ← condOf w 14
    pure (.vcmp g cl pd a b cond)
  | 0x10 => do let (d, a, b) ← vrrr cl w; pure (.vadds g cl d a b)
  | 0x11 => do let (d, a, b) ← vrrr cl w; pure (.vsubs g cl d a b)
  | 0x12 => do let (d, a, b) ← vrrr cl w; pure (.vminu g cl d a b)
  | 0x13 => do let (d, a, b) ← vrrr cl w; pure (.vmaxu g cl d a b)
  | 0x20 => do let (d, a, b, rm) ← vrrrm cl w; pure (.fadd g cl d a b rm)
  | 0x21 => do let (d, a, b, rm) ← vrrrm cl w; pure (.fsub g cl d a b rm)
  | 0x22 => do let (d, a, b, rm) ← vrrrm cl w; pure (.fmul g cl d a b rm)
  | 0x23 => do let (d, a, b, c, rm) ← vfma cl w; pure (.fma g cl d a b c rm)
  | 0x24 => do let (d, a, b, c, rm) ← vfma cl w; pure (.fms g cl d a b c rm)
  | 0x25 => do let (d, a, b, c, rm) ← vfma cl w; pure (.fnma g cl d a b c rm)
  | 0x26 => do let (d, a, b) ← vrrr cl w; pure (.fmin g cl d a b)
  | 0x27 => do let (d, a, b) ← vrrr cl w; pure (.fmax g cl d a b)
  | 0x28 => do let (d, a) ← vrr cl w; pure (.fabs g cl d a)
  | 0x29 => do let (d, a) ← vrr cl w; pure (.fneg g cl d a)
  | 0x2A => do let (d, a, b, rm) ← vrrrm cl w; pure (.fdiv g cl d a b rm)
  | 0x2B => do let (d, a) ← vda cl w; zeros w 2 24; pure (.fsqrt g cl d a (rmOf (bits w 0 2)))
  | 0x2C => do let (d, a) ← vrr cl w; pure (.frcp g cl d a)
  | 0x2D => do let (d, a) ← vrr cl w; pure (.frsq g cl d a)
  | 0x2E => do
    let (pd, a, b) ← vcmpForm cl w
    let cond ← fcondOf w 14
    pure (.fcmp g cl pd a b cond)
  | 0x2F => do let (d, a) ← vrr cl w; pure (.fclass g cl d a)
  | 0x30 => do
    let (d, a) ← vda cl w
    zeros w 10 16; zeros w 2 2
    let src ← vfmtOf w 7
    let dst ← vfmtOf w 4
    need w (src != dst)
    pure (.cvt g cl d a src dst (rmOf (bits w 0 2)))
  | 0x31 => do
    let (d, a, b) ← vdab cl w
    zeros w 4 14
    pure (.vpack g cl d a b (packOf (bits w 2 2)) (rmOf (bits w 0 2)))
  | 0x32 => do
    let (d, a) ← vda cl w
    zeros w 5 21; zeros w 0 2
    pure (.vunpk g cl d a (packOf (bits w 2 2)) (bitAt w 4))
  | 0x33 => do
    let (d, a) ← vda cl w
    zeros w 0 20
    need w (!(bitAt w 22 && num w 23 3 == 7))
    pure (.plext g cl d a (Fin.ofNat 8 (num w 23 3)) (bitAt w 22) (Fin.ofNat 4 (num w 20 2)))
  | 0x34 => do
    let d ← spec w 34 (Spec.modV · cl)
    let a ← spec w 26 (Spec.srcV · cl)
    zeros w 0 18
    need w (!(bitAt w 22 && num w 23 3 == 7))
    pure (.plins g cl d a (Fin.ofNat 8 (num w 23 3)) (bitAt w 22) (Fin.ofNat 4 (num w 20 2))
      (rmOf (bits w 18 2)))
  | 0x38 => do let (d, a) ← vrr cl w; pure (.vmov g cl d a)
  | 0x39 => do
    let (d, a, b) ← vdab cl w
    let p ← predIx w 12
    zeros w 0 12
    pure (.vsel g cl d a b p)
  | 0x3A => do
    let d ← spec w 34 (Spec.dstV · cl)
    zeros w 32 2
    pure (.vli g cl d (bits w 0 32))
  | 0x3B => do
    let d ← spec w 34 (Spec.dstV · cl)
    zeros w 0 10
    pure (.viota g cl d (bits w 18 16) (bits w 10 8))
  | 0x3C => do let (d, a) ← vda cl w; zeros w 0 20; pure (.vbcast g cl d a (bits w 20 6))
  | 0x3D => do let (d, a, b) ← vrrr cl w; pure (.vperm g cl d a b)
  | 0x3E => do let (d, a) ← vda cl w; zeros w 0 20; pure (.vrot g cl d a (bits w 20 6))
  | 0x3F => do
    let (d, a) ← vda cl w
    zeros w 0 23
    if h : num w 23 3 < 6 then pure (.vbfly g cl d a ⟨num w 23 3, h⟩) else bad8 w
  | 0x40 => do
    let (d, a, pm) ← vred cl w
    zeros w 1 1
    pure (.vradd g cl d a pm (bitAt w 0))
  | 0x41 => do let (d, a, pm) ← vred cl w; zeros w 0 2; pure (.vrmax g cl d a pm)
  | 0x42 => do let (d, a, pm) ← vred cl w; zeros w 0 2; pure (.vrmin g cl d a pm)
  | 0x43 => do let (d, a, pm) ← vred cl w; pure (.frsum g cl d a pm (rmOf (bits w 0 2)))
  | 0x44 => do let (d, a, pm) ← vred cl w; zeros w 0 2; pure (.frmax g cl d a pm)
  | 0x45 => do let (d, a, pm) ← vred cl w; zeros w 0 2; pure (.frmin g cl d a pm)
  | 0x48 => do
    let d ← spec w 34 Spec.isReg
    let a ← spec w 26 (Spec.srcV · cl)
    zeros w 0 26
    pure (.xmov g cl d a)
  | 0x49 => do
    let d ← spec w 34 (Spec.dstV · cl)
    let a ← spec w 26 (fun x => match x with | .ls | .zero | .const _ => true | _ => false)
    zeros w 0 20
    pure (.vins g cl d a (bits w 20 6))
  | 0x4A => do
    let d ← spec w 34 (Spec.dstV · cl)
    let p ← predIx w 28
    zeros w 0 28
    pure (.vfromp g cl d p)
  | 0x4B => do
    let pd ← predDst w cl
    let a ← spec w 26 (Spec.srcV · cl)
    zeros w 34 2; zeros w 0 26
    pure (.vtop g cl pd a)
  | _ => .error ⟨5, opcodeOf w⟩

/-- The address fields of the loads of R144 with an index register. -/
def loadAddr (w : SlotWord) : Dec (Spec × Spec) := do
  let base ← spec w 34 Spec.srcX
  let index ← spec w 26 Spec.srcX
  pure (base, index)

/-- The full/empty loads: width w and QUEUE qs (R151). -/
def feLoad (w : SlotWord) : Dec (Spec × Spec) := do
  let r ← loadAddr w
  zeros w 0 2
  need w (num w 5 3 == 2 && num w 3 2 == 0)
  pure r

/-- The L slot (R69, R144-R160). -/
def decodeL (g : Guard) (w : SlotWord) : Dec Instr :=
  match (opcodeOf w).toNat with
  | 0x00 => .ok (.lnop g)
  | 0x01 =>
    if num w 3 2 = 3 then do
      let base ← spec w 34 Spec.srcX
      zeros w 31 3; zeros w 24 2; zeros w 0 2
      need w (num w 5 3 == 5)
      pure (.ld g base .zero 0 (bits w 12 12) (bits w 8 4) .hv
        (.desc (Fin.ofNat 32 (num w 26 5)) (bitAt w 2)))
    else do
      let (base, index) ← loadAddr w
      zeros w 0 2
      let wd ← widthOf w 5
      let q : LoadTo := if num w 3 2 = 0 then .qs (bitAt w 2) else if num w 3 2 = 1 then .qa else .qb
      need w (num w 3 2 == 0 || !bitAt w 2)
      need w (loadPair q wd)
      pure (.ld g base index (bits w 24 2) (bits w 12 12) (bits w 8 4) wd q)
  | 0x02 => do
    let (base, index) ← feLoad w
    pure (.lde g base index (bits w 24 2) (bits w 12 12) (bits w 8 4) (bitAt w 2))
  | 0x03 => do
    let (base, index) ← feLoad w
    pure (.ldf g base index (bits w 24 2) (bits w 12 12) (bits w 8 4) (bitAt w 2))
  | 0x04 => do
    let e ← mainReg w 34
    zeros w 0 8
    pure (.ldx g e (bits w 10 24) (xwidthOf (bits w 8 2)))
  | 0x05 => do
    let base ← spec w 34 Spec.srcX
    let val ← spec w 26 Spec.srcX
    let op ← (match num w 15 3 with
      | 0 => .ok .add | 1 => .ok .min | 2 => .ok .max | 3 => .ok .swap
      | 4 => (spec w 18 Spec.srcX).map .cas
      | 5 => .ok .and | 6 => .ok .or
      | _ => bad8 w : Dec AmoOp)
    need w (num w 15 3 == 4 || num w 18 8 == 0)
    zeros w 12 3; zeros w 0 5
    need w (num w 5 3 == 2 || num w 5 3 == 3)
    pure (.amo g base val op (bits w 8 4) (num w 5 3 == 3))
  | 0x07 => do
    let base ← spec w 34 Spec.srcX
    zeros w 12 22; zeros w 3 5; zeros w 0 2
    pure (.lbst g base (bits w 8 4) (bitAt w 2))
  | _ => .error ⟨5, opcodeOf w⟩

/-- The K slot (R69, R148-R159). -/
def decodeK (g : Guard) (w : SlotWord) : Dec Instr :=
  match (opcodeOf w).toNat with
  | 0x00 => .ok (.knop g)
  | 0x01 =>
    if bitAt w 6 then do
      let base ← spec w 34 Spec.srcX
      zeros w 26 8
      need w (num w 7 3 == 5)
      pure (.st g base (.desc (Fin.ofNat 32 (num w 1 5)) (bitAt w 0)) (bits w 14 12) (bits w 10 4) .hv)
    else do
      let base ← spec w 34 Spec.srcX
      let x ← kdata w 26 (fun _ => true)
      zeros w 0 6
      let wd ← widthOf w 7
      need w (storePair x wd)
      pure (.st g base (.data x) (bits w 14 12) (bits w 10 4) wd)
  | 0x02 => do
    let base ← spec w 34 Spec.srcX
    let x ← kdata w 26 (fun _ => true)
    zeros w 0 7
    need w (num w 7 3 == 2 && storePair x .w)
    pure (.stf g base x (bits w 14 12) (bits w 10 4))
  | 0x03 => do
    let base ← spec w 34 Spec.srcX
    let x ← kdata w 26 (fun _ => true)
    zeros w 0 7
    need w (num w 7 3 == 2 && storePair x .w)
    pure (.ste g base x (bits w 14 12) (bits w 10 4))
  | 0x04 => do
    let e ← mainReg w 34
    let x ← spec w 26 Spec.isReg
    pure (.stx g e x (bits w 2 24) (xwidthOf (bits w 0 2)))
  | 0x05 => do
    let base ← spec w 34 Spec.srcX
    zeros w 26 8; zeros w 14 2; zeros w 0 10
    let mode ← (match num w 16 2 with
      | 0 => .ok .undeclare | 1 => .ok .empty | 2 => .ok .full
      | _ => bad8 w : Dec BstMode)
    pure (.bst g base (bits w 18 8) mode (bits w 10 4))
  | 0x06 => do
    let base ← spec w 34 Spec.srcX
    let x ← kdata w 26 (fun _ => true)
    let p ← predIx w 1
    zeros w 0 1
    let wd ← widthOf w 7
    need w (x.vector && !wd.scalar)
    pure (.stm g base x (bits w 14 12) (bits w 10 4) wd p)
  | _ => .error ⟨5, opcodeOf w⟩

/-- The operand field of the T slot (R210). -/
def tops (w : SlotWord) : TOps :=
  { dst := Fin.ofNat 32 (num w 37 5), a := Fin.ofNat 32 (num w 32 5), b := Fin.ofNat 32 (num w 27 5),
    c := Fin.ofNat 32 (num w 22 5), tag := Fin.ofNat 64 (num w 16 6), cls := bits w 12 4,
    tq := Fin.ofNat 4 (num w 10 2), pa := bits w 7 3, pb := bits w 4 3, mod := bits w 0 4 }

/-- The tile opcodes (R69), also the QOP codes of `place` (R237). -/
def tileOpOf (n : Nat) : Option TileOp :=
  match n with
  | 0x01 => some .add | 0x02 => some .sub | 0x03 => some .mul | 0x04 => some .max
  | 0x05 => some .min | 0x06 => some .abs | 0x07 => some .cvt | 0x08 => some .scl
  | 0x09 => some .fill | 0x0A => some .sel | 0x0B => some .lut | 0x0C => some .red
  | 0x10 => some .mma | 0x11 => some .spm
  | _ => none

/-- A tile operation with its unused fields and modifier checked (R210, R212). -/
def tile (op : TileOp) (w : SlotWord) : Dec TOps := do
  need w (op.wf (tops w))
  pure (tops w)

/-- The T slot (R69, R210-R237). -/
def decodeT (g : Guard) (w : SlotWord) : Dec Instr :=
  match (opcodeOf w).toNat with
  | 0x00 => .ok (.tnop g)
  | 0x01 => do let o ← tile .add w; pure (.tadd g o)
  | 0x02 => do let o ← tile .sub w; pure (.tsub g o)
  | 0x03 => do let o ← tile .mul w; pure (.tmul g o)
  | 0x04 => do let o ← tile .max w; pure (.tmax g o)
  | 0x05 => do let o ← tile .min w; pure (.tmin g o)
  | 0x06 => do let o ← tile .abs w; pure (.tabs g o)
  | 0x07 => do let o ← tile .cvt w; pure (.tcvt g o)
  | 0x08 => do let o ← tile .scl w; pure (.tscl g o)
  | 0x09 => do let o ← tile .fill w; pure (.tfill g o)
  | 0x0A => do let o ← tile .sel w; pure (.tsel g o)
  | 0x0B => do let o ← tile .lut w; pure (.tlut g o)
  | 0x0C => do let o ← tile .red w; pure (.tred g o)
  | 0x10 => do let o ← tile .mma w; pure (.tmma g o)
  | 0x11 => do let o ← tile .spm w; pure (.tspm g o)
  | 0x18 =>
    match tileOpOf (num w 11 5) with
    | none => bad8 w
    | some op => do
      let o : TOps := { tops w with cls := 0, tq := 0 }
      zeros w 10 1
      need w (op.wf o)
      pure (.place g op o)
  | _ => .error ⟨5, opcodeOf w⟩

/-- FCORE, FLAG and FMODE (R176). -/
def flagTo (w : SlotWord) : Dec FlagTo := do
  let f : FlagTo := ⟨Fin.ofNat 256 (num w 7 8), Fin.ofNat 32 (num w 2 5), Fin.ofNat 3 (num w 0 2)⟩
  need w (num w 0 2 != 3)
  need w f.wf
  pure f

/-- The descriptor, tag, class and queue fields of the C slot (R176) with the flag `f`. -/
def cops (w : SlotWord) (f : FlagTo) : COps :=
  { dst := Fin.ofNat 32 (num w 37 5), src := Fin.ofNat 32 (num w 32 5), aux := Fin.ofNat 32 (num w 27 5),
    tag := Fin.ofNat 64 (num w 21 6), cls := bits w 17 4, queue := Fin.ofNat 4 (num w 15 2), post := f }

/-- A copy with an auxiliary descriptor. -/
def copy3 (w : SlotWord) : Dec COps := do let f ← flagTo w; pure (cops w f)

/-- A copy whose AUX field is zero. -/
def copy2 (w : SlotWord) : Dec COps := do zeros w 27 5; copy3 w

/-- OP of `catom` (R194). -/
def atomOf (n : Nat) : Option AtomOp :=
  match n with
  | 0 => some .add | 1 => some .min | 2 => some .max | 3 => some .swap | 4 => some .cas
  | 5 => some .and | 6 => some .or
  | _ => none

/-- The C slot (R69, R176-R197, R289-R293). -/
def decodeC (g : Guard) (w : SlotWord) : Dec Instr :=
  match (opcodeOf w).toNat with
  | 0x00 => .ok (.cnop g)
  | 0x01 => do let o ← copy2 w; pure (.cpy g o)
  | 0x02 => do let o ← copy3 w; pure (.gath g o)
  | 0x03 => do let o ← copy3 w; pure (.scat g o)
  | 0x04 => do let o ← copy3 w; pure (.mcast g o)
  | 0x05 => do let o ← copy2 w; pure (.flume g o)
  | 0x06 => do
    zeros w 21 10; zeros w 0 15
    pure (.strm g (Fin.ofNat 32 (num w 37 5)) (Fin.ofNat 8 (num w 34 3)) (bitAt w 33) (bits w 31 2)
      (bits w 17 4) (Fin.ofNat 4 (num w 15 2)))
  | 0x07 => do
    zeros w 37 5; zeros w 27 7
    let f ← flagTo w
    pure (.unstrm g (Fin.ofNat 8 (num w 34 3)) (Fin.ofNat 64 (num w 21 6)) (bits w 17 4)
      (Fin.ofNat 4 (num w 15 2)) f)
  | 0x08 =>
    match atomOf (num w 12 3) with
    | none => bad8 w
    | some op => do
      zeros w 0 12
      pure (.catom g (cops w FlagTo.none) op)
  | 0x10 => do let o ← copy3 w; pure (.wsa g o)
  | 0x11 => do let o ← copy3 w; pure (.wred g o)
  | 0x12 => do let o ← copy2 w; pure (.wstat g o)
  | 0x18 => do
    zeros w 0 13
    let op ← (match num w 13 2 with
      | 0 => .ok .sum | 1 => .ok .max | 2 => .ok .min
      | _ => bad8 w : Dec RedOp)
    pure (.redf g (cops w FlagTo.none) op)
  | 0x1A => do
    zeros w 27 4
    let f ← flagTo w
    pure (.hot g { cops w f with aux := 0 } (bitAt w 31))
  | 0x1F => do
    let a ← spec w 34 Spec.srcX
    zeros w 27 1; zeros w 0 21
    let kind ← (match num w 32 2 with
      | 0 => .ok .page | 1 => .ok .part | 2 => .ok .all
      | _ => bad8 w : Dec TlbiKind)
    pure (.tlbi g a kind (bits w 28 4) (Fin.ofNat 64 (num w 21 6)))
  | _ => .error ⟨5, opcodeOf w⟩

/-- One test field of a `tree` (R108). -/
def test (w : SlotWord) (lo i : Nat) : Dec Test := do
  let t : Test := ⟨bits w (lo + 1) 6, bitAt w lo⟩
  need w (t.wf i (bits w 8 2))
  pure t

/-- The target form of `jmp` and `call`: FORM 1 holds a code address (R106). -/
def target (w : SlotWord) : Dec (Fin 16 ⊕ W32) :=
  if bitAt w 41 then do zeros w 32 4; pure (.inr (bits w 0 32))
  else do zeros w 0 32; pure (.inl (Fin.ofNat 16 (num w 32 4)))

/-- A window index that `give`, `openw` and `closew` may name (R166, R170). -/
def window (w : SlotWord) (lo : Nat) : Dec Byte := do
  need w (decide (num w lo 8 ≤ 251))
  pure (bits w lo 8)

/-- KIND and T of `brake` (R352). -/
def brakeForm (w : SlotWord) : Dec (BrakeKind × Spec) := do
  let t ← spec w 31 Spec.srcX
  zeros w 0 31
  let kind ← (match num w 40 2 with
    | 0 => .ok .core | 1 => .ok .stone | 2 => .ok .tile
    | _ => bad8 w : Dec BrakeKind)
  pure (kind, t)

/-- The Y slot (R69, R105-R113, R166-R170, R250-R268, R316-R326, R348-R352). -/
def decodeY (g : Guard) (w : SlotWord) : Dec Instr :=
  match (opcodeOf w).toNat with
  | 0x00 => .ok (.ynop g)
  | 0x01 => do
    let shape ← (match num w 40 2 with
      | 0 => .ok .chain | 1 => .ok .pairs | 2 => .ok .gate
      | _ => bad8 w : Dec Shape)
    zeros w 0 8
    let t1 ← test w 33 0
    let t2 ← test w 26 1
    let t3 ← test w 19 2
    let t4 ← test w 12 3
    pure (.tree g shape t1 t2 t3 t4 (bits w 10 2) (bits w 8 2))
  | 0x02 => do
    zeros w 36 5
    match ← target w with
    | .inl n => pure (.jmpBt g n)
    | .inr addr => pure (.jmpAddr g addr)
  | 0x03 => do
    zeros w 40 1
    match ← target w with
    | .inl n => pure (.callBt g (Fin.ofNat 16 (num w 36 4)) n)
    | .inr addr => pure (.callAddr g (Fin.ofNat 16 (num w 36 4)) addr)
  | 0x04 => do
    zeros w 36 6; zeros w 0 32
    pure (.ret g (Fin.ofNat 16 (num w 32 4)))
  | 0x05 =>
    if bitAt w 41 then do
      let a ← spec w 26 Spec.srcX
      zeros w 34 6; zeros w 0 26
      pure (.loopSet g (bitAt w 40) a)
    else do
      zeros w 0 36
      pure (.loop g (bitAt w 40) (Fin.ofNat 16 (num w 36 4)))
  | 0x06 => do
    let d ← spec w 34 Spec.isReg
    let a ← spec w 26 Spec.srcX
    let b ← spec w 18 Spec.srcX
    zeros w 0 18
    pure (.bsel g d a b)
  | 0x10 => do
    let tgt ← (match num w 35 2 with
      | 0 => if num w 27 8 = 0 then .ok .own else bad8 w
      | 1 => (spec w 27 Spec.srcX).map .core
      | 2 => (spec w 27 Spec.srcX).map .node
      | _ => bad8 w : Dec PostTo)
    need w (num w 0 11 != 0)
    pure (.post g (Fin.ofNat 32 (num w 37 5)) tgt (bits w 11 16) (bits w 0 11))
  | 0x11 => do
    zeros w 0 5
    pure (.waitf g (Fin.ofNat 32 (num w 37 5)) (bits w 21 16) (bits w 5 16))
  | 0x12 => do let a ← spec w 34 Spec.srcX; zeros w 0 34; pure (.waitany g a)
  | 0x13 => do let a ← spec w 34 Spec.srcX; zeros w 0 34; pure (.waitall g a)
  | 0x14 => do
    let d ← spec w 34 Spec.isReg
    let a ← spec w 26 Spec.srcX
    zeros w 0 26
    pure (.ffr g d a)
  | 0x15 => do zeros w 0 26; pure (.bar g (bits w 26 16))
  | 0x16 => do let b ← spec w 34 Spec.srcX; zeros w 0 34; pure (.watch g b)
  | 0x17 => do let d ← spec w 34 Spec.isReg; zeros w 0 34; pure (.waitm g d)
  | 0x18 => do
    zeros w 0 23
    let scope ← (match num w 23 3 with
      | 0 => .ok .core | 1 => .ok .quad | 2 => .ok .die | 3 => .ok .pkg | 4 => .ok .fabric
      | _ => bad8 w : Dec FenceScope)
    pure (.fence g (bits w 26 16) scope)
  | 0x19 => do zeros w 0 34; pure (.qfence g (bits w 34 8))
  | 0x1A => do
    let x ← kdata w 34 (fun x => match x with | .v _ | .w _ | .la | .lb => true | _ => false)
    let core ← spec w 26 Spec.srcX
    zeros w 0 26
    pure (.send g x core)
  | 0x1B => do
    let d ← kdata w 34 (fun x => match x with | .v _ | .w _ => true | _ => false)
    let core ← spec w 26 Spec.srcX
    zeros w 0 26
    pure (.recv g d core)
  | 0x1C => do
    let core ← spec w 26 Spec.srcX
    let wsrc ← window w 34
    let wdst ← window w 18
    zeros w 0 12
    need w (bitAt w 12 || num w 13 5 == 0)
    pure (.give g wsrc core wdst (Fin.ofNat 32 (num w 13 5)) (bitAt w 12))
  | 0x1D => do let x ← window w 34; zeros w 0 34; pure (.openw g x)
  | 0x1E => do let x ← window w 34; zeros w 0 34; pure (.closew g x)
  | 0x1F => do zeros w 0 38; pure (.fuse g (bits w 38 4))
  | 0x20 => do
    let d ← spec w 34 Spec.isReg
    let q ← spec w 26 Spec.srcX
    let r ← spec w 18 Spec.srcX
    zeros w 0 18
    pure (.spawn g d q r)
  | 0x21 => do
    let q ← spec w 34 Spec.srcX
    zeros w 0 12
    match num w 28 2 with
    | 0 => do zeros w 12 16; pure (.suspendQueue g q (Fin.ofNat 16 (num w 30 4)))
    | 1 => do
      need w (num w 12 11 != 0)
      pure (.suspendFlag g q (Fin.ofNat 16 (num w 30 4)) (Fin.ofNat 32 (num w 23 5)) (bits w 12 11))
    | 2 => do zeros w 12 16; pure (.suspendWatch g q (Fin.ofNat 16 (num w 30 4)))
    | _ => bad8 w
  | 0x22 => do zeros w 0 42; pure (.yield g)
  | 0x23 => do zeros w 0 42; pure (.done g)
  | 0x24 =>
    if bitAt w 25 then do
      let a ← spec w 26 Spec.srcX
      zeros w 34 8; zeros w 0 25
      pure (.tstampSet g a)
    else do
      let d ← spec w 34 Spec.isReg
      zeros w 26 8; zeros w 0 24
      pure (if bitAt w 24 then .tstampHub g d else .tstamp g d)
  | 0x30 => do
    if bitAt w 19 then
      let a ← kdata w 34 KData.vector
      let b ← kdata w 26 KData.vector
      let m ← predOrAll w 20
      if a == b && (a == .qa || a == .qb) then bad7 (bits w 26 8) else zeros w 0 19
      pure (.cmptVector g a b m)
    else
      let a ← spec w 34 (fun x => x.srcX || x == .qs)
      let b ← spec w 26 (fun x => x.srcX || x == .qs)
      if apart a b then zeros w 0 19 else bad7 (bits w 26 8)
      need w (num w 20 6 == 63)
      pure (.cmptScalar g a b)
  | 0x31 => do zeros w 0 26; pure (.trap g (bits w 26 16))
  | 0x32 => do zeros w 0 42; pure (.rft g)
  | 0x33 => do zeros w 0 42; pure (.idle g)
  | 0x34 => do
    let (kind, t) ← brakeForm w
    pure (if bitAt w 39 then .brakeClear g kind t else .brake g kind t)
  | _ => .error ⟨5, opcodeOf w⟩

/-- The opcodes that R69 assigns. -/
def assigned (k : Slot) (op : Byte) : Bool :=
  let n := op.toNat
  match k with
  | .s => n ≤ 0x1E || (0x20 ≤ n && n ≤ 0x26) || n == 0x28 || (0x30 ≤ n && n ≤ 0x32) || n == 0x34 || n == 0x35
  | .v0 | .v1 => n ≤ 0x13 || (0x20 ≤ n && n ≤ 0x34) || (0x38 ≤ n && n ≤ 0x45) || (0x48 ≤ n && n ≤ 0x4B)
  | .l => n ≤ 0x05 || n == 0x07
  | .k => n ≤ 0x06
  | .t => n ≤ 0x0C || n == 0x10 || n == 0x11 || n == 0x18
  | .c => n ≤ 0x08 || (0x10 ≤ n && n ≤ 0x12) || n == 0x18 || n == 0x1A || n == 0x1F
  | .y => n ≤ 0x06 || (0x10 ≤ n && n ≤ 0x24) || (0x30 ≤ n && n ≤ 0x34)

/-- Step 2 of R70 for one slot: opcode, guard, specifiers, operand bits. -/
def decodeSlot (k : Slot) (w : SlotWord) : Dec Instr :=
  if assigned k (opcodeOf w) then
    match decodeGuard w with
    | .error e => .error e
    | .ok g =>
      match k with
      | .s => decodeS g w
      | .v0 => decodeV .a g w
      | .v1 => decodeV .b g w
      | .l => decodeL g w
      | .k => decodeK g w
      | .t => decodeT g w
      | .c => decodeC g w
      | .y => decodeY g w
  else .error ⟨5, opcodeOf w⟩

/-- The index of a slot in TINFO (R52). -/
def Slot.index : Slot → Nat
  | .s => 0 | .v0 => 1 | .v1 => 2 | .l => 3 | .k => 4 | .t => 5 | .c => 6 | .y => 7

/-- The slots in TINFO order. -/
def Slot.all : List Slot := [.s, .v0, .v1, .l, .k, .t, .c, .y]

/-- The slot word of slot `k`: bundle bits from 60 times its index (R52). -/
def slotWord (w : BitVec 512) (k : Slot) : SlotWord := bits w (60 * k.index) 60

/-- The header word, bundle bits [511:480] (R48). -/
def headerOf (w : BitVec 512) : W32 := bits w 480 32

/-- The nop of any slot, guarded "always" (R81). -/
def nopWord : SlotWord := 0xFC0_0000_0000_0000#60

/-- A slot that holds its nop guarded "always", whatever its operand field (R68). -/
def isPlainNop (w : SlotWord) : Bool := bits w 42 18 == bits nopWord 42 18

/-- The slots that hold anything but their plain nop. -/
def busySlots (w : BitVec 512) : List Slot := Slot.all.filter fun k => !isPlainNop (slotWord w k)

/-- The instruction a bundle stands for: a bundle whose header is zero and all of whose slots but one
hold their plain nops is that one slot's instruction, a bundle that only decouples or rejoins is that
event, and every other bundle, one that fails a check included, is issued whole (R76). -/
def decodeBundle (w : BitVec 512) : Instr :=
  match busySlots w with
  | [] =>
    if headerOf w = 0 then .nop Guard.always
    else if headerOf w = 0x0001_0000#32 then .decouple
    else if headerOf w = 0x0002_0000#32 then .rejoin
    else .bundleIssue w
  | [k] =>
    match decodeSlot k (slotWord w k) with
    | .ok i =>
      if headerOf w = 0 ∧ bits (slotWord w k) 50 3 = 0 ∧ i.wf = true then i else .bundleIssue w
    | .error _ => .bundleIssue w
  | _ => .bundleIssue w

/-- The instruction at the head of a list of bytes, with the rest of the list: a bundle is 64 bytes,
stored little-endian (R47). -/
def decodeBytes (bs : List Byte) : Option (Instr × List Byte) :=
  if bs.length < 64 then none
  else some (decodeBundle (BitVec.ofNat 512 (leNat (bs.take 64))), bs.drop 64)

/-- The instruction read from a bundle whose bits are `w`. -/
def decodeTableWord (nbits w : Nat) : Option Instr :=
  if nbits ≤ 512 then (decodeBytes (leBytes 64 (w % 2 ^ nbits))).map Prod.fst else none

/-! ## The encoder -/

/-- A specifier's code (R57, R58). -/
def Spec.code : Spec → Byte
  | .main i => BitVec.ofNat 8 i.val
  | .opf i => BitVec.ofNat 8 (0x40 + i.val)
  | .ls => 0x80#8 | .la => 0x81#8 | .lb => 0x82#8 | .qs => 0x88#8 | .qa => 0x89#8 | .qb => 0x8A#8
  | .z i => BitVec.ofNat 8 (0x90 + i.val)
  | .zero => 0xA0#8 | .none => 0xBF#8
  | .const k => 3#2 ++ k

/-- A code of the K data map (R59). -/
def KData.code : KData → Byte
  | .s i => BitVec.ofNat 8 i.val
  | .v i => BitVec.ofNat 8 (0x40 + i.val)
  | .w i => BitVec.ofNat 8 (0x80 + i.val)
  | .ls => 0xC0#8 | .la => 0xC1#8 | .lb => 0xC2#8 | .qs => 0xC8#8 | .qa => 0xC9#8 | .qb => 0xCA#8
  | .z i => BitVec.ofNat 8 (0xD0 + i.val)
  | .zero => 0xE0#8

/-- A field of `n` bits holding a small number. -/
def fin {m : Nat} (n : Nat) (i : Fin m) : BitVec n := BitVec.ofNat n i.val

/-- A predicate index, or 63 (R133). -/
def predCode (p : Option (Fin 48)) : BitVec 6 :=
  match p with
  | none => 63#6
  | some i => fin 6 i

def Rm.code : Rm → BitVec 2
  | .rne => 0 | .rtz => 1 | .rup => 2 | .rdn => 3

def Cond.code : Cond → BitVec 4
  | .eq => 0 | .ne => 1 | .lt => 2 | .le => 3 | .ltu => 4 | .leu => 5 | .gt => 6 | .ge => 7

def FCond.code : FCond → BitVec 4
  | .eq => 0 | .ne => 1 | .lt => 2 | .le => 3 | .gt => 6 | .ge => 7 | .un => 8 | .ord => 9 | .rk => 10

def VFmt.code : VFmt → BitVec 3
  | .i32 => 0 | .f32 => 1 | .bf16 => 2 | .f16 => 3

def PackKind.code : PackKind → BitVec 2
  | .low => 0 | .s16 => 1 | .bf16 => 2 | .f16 => 3

def Width.code : Width → BitVec 3
  | .b => 0 | .h => 1 | .w => 2 | .d => 3 | .v => 4 | .hv => 5

def XWidth.code : XWidth → BitVec 2
  | .b => 0 | .h => 1 | .w => 2 | .d => 3

def AtomOp.code : AtomOp → BitVec 3
  | .add => 0 | .min => 1 | .max => 2 | .swap => 3 | .cas => 4 | .and => 5 | .or => 6

def RedOp.code : RedOp → BitVec 2
  | .sum => 0 | .max => 1 | .min => 2

def TileOp.code : TileOp → BitVec 5
  | .add => 0x01 | .sub => 0x02 | .mul => 0x03 | .max => 0x04 | .min => 0x05 | .abs => 0x06
  | .cvt => 0x07 | .scl => 0x08 | .fill => 0x09 | .sel => 0x0A | .lut => 0x0B | .red => 0x0C
  | .mma => 0x10 | .spm => 0x11

/-- A guard's bits [59:50] (R52). -/
def Guard.code (g : Guard) : BitVec 10 :=
  predCode g.pred ++ bit g.neg ++ (match g.path with | none => 0#3 | some l => BitVec.ofNat 3 (l.val + 1))

/-- A slot word from its guard, opcode and operand field (R52). -/
def word (g : Guard) (op : Byte) (x : BitVec 42) : SlotWord := g.code ++ op ++ x

/-- The operand fields of the forms of R68 and of the entries. -/
def encRRR (d a b : Spec) (rest : BitVec 18) : BitVec 42 := d.code ++ a.code ++ b.code ++ rest
def encRRI (d a : Spec) (imm : BitVec 26) : BitVec 42 := d.code ++ a.code ++ imm
def encRI (d : Spec) (imm : BitVec 34) : BitVec 42 := d.code ++ imm
def encPlog (pd pa pb : Fin 48) : BitVec 42 := fin 6 pd ++ fin 6 pa ++ fin 6 pb ++ 0#24
def encCmp (pd : Fin 48) (a b : Spec) (cond : BitVec 4) : BitVec 42 :=
  fin 6 pd ++ 0#2 ++ a.code ++ b.code ++ cond ++ 0#14
def encLane (d a : Spec) (x : BitVec 6) (rest : BitVec 20) : BitVec 42 := d.code ++ a.code ++ x ++ rest
def encRed (d a : Spec) (pm : Option (Fin 48)) (m : BitVec 2) : BitVec 42 :=
  d.code ++ a.code ++ 0#8 ++ predCode pm ++ 0#10 ++ m
def encLoad (base : Spec) (index : Byte) (scale : BitVec 2) (off : BitVec 12) (cls : BitVec 4)
    (wd : BitVec 3) (queue : BitVec 2) (x : Bool) : BitVec 42 :=
  base.code ++ index ++ scale ++ off ++ cls ++ wd ++ queue ++ bit x ++ 0#2
def encStore (base : Spec) (x : Byte) (off : BitVec 12) (cls : BitVec 4) (wd : BitVec 3)
    (rest : BitVec 7) : BitVec 42 := base.code ++ x ++ off ++ cls ++ wd ++ rest
def encTOps (o : TOps) : BitVec 42 :=
  fin 5 o.dst ++ fin 5 o.a ++ fin 5 o.b ++ fin 5 o.c ++ fin 6 o.tag ++ o.cls ++ fin 2 o.tq ++ o.pa ++ o.pb ++ o.mod
def encPlace (op : TileOp) (o : TOps) : BitVec 42 :=
  fin 5 o.dst ++ fin 5 o.a ++ fin 5 o.b ++ fin 5 o.c ++ fin 6 o.tag ++ op.code ++ 0#1 ++ o.pa ++ o.pb ++ o.mod
def encFlag (f : FlagTo) : BitVec 15 := fin 8 f.core ++ fin 5 f.flag ++ fin 2 f.mode
def encCOps (o : COps) (aux : BitVec 5) (rest : BitVec 15) : BitVec 42 :=
  fin 5 o.dst ++ fin 5 o.src ++ aux ++ fin 6 o.tag ++ o.cls ++ fin 2 o.queue ++ rest
def encTest (t : Test) : BitVec 7 := t.p ++ bit t.neg

/-- The slot and slot word of a well-formed slot instruction; events have none. -/
def encode : Instr → Option (Slot × SlotWord)
  | .nop g => some (.s, word g 0x00 0)
  | .add g d a b => some (.s, word g 0x01 (encRRR d a b 0))
  | .sub g d a b => some (.s, word g 0x02 (encRRR d a b 0))
  | .and g d a b => some (.s, word g 0x03 (encRRR d a b 0))
  | .or g d a b => some (.s, word g 0x04 (encRRR d a b 0))
  | .xor g d a b => some (.s, word g 0x05 (encRRR d a b 0))
  | .shl g d a b => some (.s, word g 0x06 (encRRR d a b 0))
  | .shr g d a b => some (.s, word g 0x07 (encRRR d a b 0))
  | .sar g d a b => some (.s, word g 0x08 (encRRR d a b 0))
  | .mul g d a b => some (.s, word g 0x09 (encRRR d a b 0))
  | .mulh g d a b => some (.s, word g 0x0A (encRRR d a b 0))
  | .mulhu g d a b => some (.s, word g 0x0B (encRRR d a b 0))
  | .min g d a b => some (.s, word g 0x0C (encRRR d a b 0))
  | .max g d a b => some (.s, word g 0x0D (encRRR d a b 0))
  | .minu g d a b => some (.s, word g 0x0E (encRRR d a b 0))
  | .maxu g d a b => some (.s, word g 0x0F (encRRR d a b 0))
  | .addi g d a imm => some (.s, word g 0x10 (encRRI d a imm))
  | .andi g d a imm => some (.s, word g 0x11 (encRRI d a imm))
  | .ori g d a imm => some (.s, word g 0x12 (encRRI d a imm))
  | .xori g d a imm => some (.s, word g 0x13 (encRRI d a imm))
  | .shli g d a imm => some (.s, word g 0x14 (encRRI d a imm))
  | .shri g d a imm => some (.s, word g 0x15 (encRRI d a imm))
  | .sari g d a imm => some (.s, word g 0x16 (encRRI d a imm))
  | .lea g d a wd od => some (.s, word g 0x17 (encRRI d a (0#2 ++ wd ++ od)))
  | .li g d imm => some (.s, word g 0x18 (encRI d imm))
  | .lui g d imm => some (.s, word g 0x19 (encRI d (0#2 ++ imm)))
  | .clz g d a => some (.s, word g 0x1A (encRRI d a 0))
  | .popc g d a => some (.s, word g 0x1B (encRRI d a 0))
  | .bfx g d a pos len1 sx => some (.s, word g 0x1C (d.code ++ a.code ++ 0#8 ++ pos ++ len1 ++ bit sx ++ 0#5))
  | .bfi g d a b pos len1 => some (.s, word g 0x1D (encRRR d a b (pos ++ len1 ++ 0#6)))
  | .sel g d a b p => some (.s, word g 0x1E (encRRR d a b (fin 6 p ++ 0#12)))
  | .cmp g pd a b cond => some (.s, word g 0x20 (encCmp pd a b cond.code))
  | .cmpi g pd a imm cond => some (.s, word g 0x21 (fin 6 pd ++ cond.code ++ a.code ++ imm))
  | .pand g pd pa pb => some (.s, word g 0x22 (encPlog pd pa pb))
  | .por g pd pa pb => some (.s, word g 0x23 (encPlog pd pa pb))
  | .pxor g pd pa pb => some (.s, word g 0x24 (encPlog pd pa pb))
  | .pandn g pd pa pb => some (.s, word g 0x25 (encPlog pd pa pb))
  | .pset g pd a => some (.s, word g 0x26 (fin 6 pd ++ 0#2 ++ a.code ++ 0#26))
  | .vext g d src l sx => some (.s, word g 0x28 (d.code ++ src.code ++ l ++ bit sx ++ 0#19))
  | .mfc g d n => some (.s, word g 0x30 (d.code ++ 0#26 ++ n))
  | .mtc g n a => some (.s, word g 0x31 (0#8 ++ a.code ++ 0#18 ++ n))
  | .setbtAddr g n addr => some (.s, word g 0x32 (fin 4 n ++ 0#6 ++ addr))
  | .setbtReg g n a => some (.s, word g 0x32 (fin 4 n ++ 1#1 ++ 0#5 ++ a.code ++ 0#24))
  | .tset g t f a => some (.s, word g 0x34 (fin 5 t ++ 0#1 ++ fin 4 f ++ a.code ++ 0#24))
  | .tget g d t f => some (.s, word g 0x35 (fin 5 t ++ 0#1 ++ fin 4 f ++ d.code ++ 0#24))
  | .vnop g cl => vec g cl 0x00 0
  | .vadd g cl d a b => vec g cl 0x01 (encRRR d a b 0)
  | .vsub g cl d a b => vec g cl 0x02 (encRRR d a b 0)
  | .vmul g cl d a b => vec g cl 0x03 (encRRR d a b 0)
  | .vmulh g cl d a b => vec g cl 0x04 (encRRR d a b 0)
  | .vmin g cl d a b => vec g cl 0x05 (encRRR d a b 0)
  | .vmax g cl d a b => vec g cl 0x06 (encRRR d a b 0)
  | .vand g cl d a b => vec g cl 0x07 (encRRR d a b 0)
  | .vor g cl d a b => vec g cl 0x08 (encRRR d a b 0)
  | .vxor g cl d a b => vec g cl 0x09 (encRRR d a b 0)
  | .vshl g cl d a b => vec g cl 0x0A (encRRR d a b 0)
  | .vshr g cl d a b => vec g cl 0x0B (encRRR d a b 0)
  | .vsar g cl d a b => vec g cl 0x0C (encRRR d a b 0)
  | .vabs g cl d a => vec g cl 0x0D (encRRI d a 0)
  | .vneg g cl d a => vec g cl 0x0E (encRRI d a 0)
  | .vcmp g cl pd a b cond => vec g cl 0x0F (encCmp pd a b cond.code)
  | .vadds g cl d a b => vec g cl 0x10 (encRRR d a b 0)
  | .vsubs g cl d a b => vec g cl 0x11 (encRRR d a b 0)
  | .vminu g cl d a b => vec g cl 0x12 (encRRR d a b 0)
  | .vmaxu g cl d a b => vec g cl 0x13 (encRRR d a b 0)
  | .fadd g cl d a b rm => vec g cl 0x20 (encRRR d a b (0#16 ++ rm.code))
  | .fsub g cl d a b rm => vec g cl 0x21 (encRRR d a b (0#16 ++ rm.code))
  | .fmul g cl d a b rm => vec g cl 0x22 (encRRR d a b (0#16 ++ rm.code))
  | .fma g cl d a b c rm => vec g cl 0x23 (encRRR d a b (c.code ++ 0#8 ++ rm.code))
  | .fms g cl d a b c rm => vec g cl 0x24 (encRRR d a b (c.code ++ 0#8 ++ rm.code))
  | .fnma g cl d a b c rm => vec g cl 0x25 (encRRR d a b (c.code ++ 0#8 ++ rm.code))
  | .fmin g cl d a b => vec g cl 0x26 (encRRR d a b 0)
  | .fmax g cl d a b => vec g cl 0x27 (encRRR d a b 0)
  | .fabs g cl d a => vec g cl 0x28 (encRRI d a 0)
  | .fneg g cl d a => vec g cl 0x29 (encRRI d a 0)
  | .fdiv g cl d a b rm => vec g cl 0x2A (encRRR d a b (0#16 ++ rm.code))
  | .fsqrt g cl d a rm => vec g cl 0x2B (encRRI d a (0#24 ++ rm.code))
  | .frcp g cl d a => vec g cl 0x2C (encRRI d a 0)
  | .frsq g cl d a => vec g cl 0x2D (encRRI d a 0)
  | .fcmp g cl pd a b cond => vec g cl 0x2E (encCmp pd a b cond.code)
  | .fclass g cl d a => vec g cl 0x2F (encRRI d a 0)
  | .cvt g cl d a src dst rm => vec g cl 0x30 (encRRI d a (0#16 ++ src.code ++ dst.code ++ 0#2 ++ rm.code))
  | .vpack g cl d a b k rm => vec g cl 0x31 (encRRR d a b (0#14 ++ k.code ++ rm.code))
  | .vunpk g cl d a k half => vec g cl 0x32 (encRRI d a (0#21 ++ bit half ++ k.code ++ 0#2))
  | .plext g cl d a k1 cen q =>
    vec g cl 0x33 (encRRI d a (fin 3 k1 ++ bit cen ++ fin 2 q ++ 0#20))
  | .plins g cl d a k1 cen q rm =>
    vec g cl 0x34 (encRRI d a (fin 3 k1 ++ bit cen ++ fin 2 q ++ rm.code ++ 0#18))
  | .vmov g cl d a => vec g cl 0x38 (encRRI d a 0)
  | .vsel g cl d a b p => vec g cl 0x39 (encRRR d a b (fin 6 p ++ 0#12))
  | .vli g cl d imm => vec g cl 0x3A (encRI d (0#2 ++ imm))
  | .viota g cl d start stride => vec g cl 0x3B (encRI d (start ++ stride ++ 0#10))
  | .vbcast g cl d a l => vec g cl 0x3C (encLane d a l 0)
  | .vperm g cl d a b => vec g cl 0x3D (encRRR d a b 0)
  | .vrot g cl d a n => vec g cl 0x3E (encLane d a n 0)
  | .vbfly g cl d a s => vec g cl 0x3F (encRRI d a (fin 3 s ++ 0#23))
  | .vradd g cl d a pm sat => vec g cl 0x40 (encRed d a pm (0#1 ++ bit sat))
  | .vrmax g cl d a pm => vec g cl 0x41 (encRed d a pm 0)
  | .vrmin g cl d a pm => vec g cl 0x42 (encRed d a pm 0)
  | .frsum g cl d a pm rm => vec g cl 0x43 (encRed d a pm rm.code)
  | .frmax g cl d a pm => vec g cl 0x44 (encRed d a pm 0)
  | .frmin g cl d a pm => vec g cl 0x45 (encRed d a pm 0)
  | .xmov g cl d a => vec g cl 0x48 (encRRI d a 0)
  | .vins g cl d a l => vec g cl 0x49 (encLane d a l 0)
  | .vfromp g cl d p => vec g cl 0x4A (d.code ++ fin 6 p ++ 0#28)
  | .vtop g cl pd a => vec g cl 0x4B (fin 6 pd ++ 0#2 ++ a.code ++ 0#26)
  | .lnop g => some (.l, word g 0x00 0)
  | .ld g base index scale off cls wd q =>
    match q with
    | .qs sx => some (.l, word g 0x01 (encLoad base index.code scale off cls wd.code 0 sx))
    | .qa => some (.l, word g 0x01 (encLoad base index.code scale off cls wd.code 1 false))
    | .qb => some (.l, word g 0x01 (encLoad base index.code scale off cls wd.code 2 false))
    | .desc t hi => some (.l, word g 0x01 (encLoad base (fin 8 t) scale off cls wd.code 3 hi))
  | .lde g base index scale off cls sx => some (.l, word g 0x02 (encLoad base index.code scale off cls 2 0 sx))
  | .ldf g base index scale off cls sx => some (.l, word g 0x03 (encLoad base index.code scale off cls 2 0 sx))
  | .ldx g e off wd => some (.l, word g 0x04 (fin 8 e ++ off ++ wd.code ++ 0#8))
  | .amo g base val op cls wide =>
    let (x, o) : Byte × BitVec 3 := match op with
      | .add => (0, 0) | .min => (0, 1) | .max => (0, 2) | .swap => (0, 3)
      | .cas e => (e.code, 4) | .and => (0, 5) | .or => (0, 6)
    some (.l, word g 0x05 (base.code ++ val.code ++ x ++ o ++ 0#3 ++ cls ++ (if wide then 3#3 else 2#3) ++ 0#5))
  | .lbst g base cls sel => some (.l, word g 0x07 (base.code ++ 0#22 ++ cls ++ 0#5 ++ bit sel ++ 0#2))
  | .knop g => some (.k, word g 0x00 0)
  | .st g base src off cls wd =>
    match src with
    | .data x => some (.k, word g 0x01 (encStore base x.code off cls wd.code 0))
    | .desc t hi => some (.k, word g 0x01 (encStore base 0 off cls wd.code (1#1 ++ fin 5 t ++ bit hi)))
  | .stf g base x off cls => some (.k, word g 0x02 (encStore base x.code off cls 2 0))
  | .ste g base x off cls => some (.k, word g 0x03 (encStore base x.code off cls 2 0))
  | .stx g e x off wd => some (.k, word g 0x04 (fin 8 e ++ x.code ++ off ++ wd.code))
  | .bst g base buf mode cls =>
    let m : BitVec 2 := match mode with | .undeclare => 0 | .empty => 1 | .full => 2
    some (.k, word g 0x05 (base.code ++ 0#8 ++ buf ++ m ++ 0#2 ++ cls ++ 0#10))
  | .stm g base x off cls wd p => some (.k, word g 0x06 (encStore base x.code off cls wd.code (fin 6 p ++ 0#1)))
  | .tnop g => some (.t, word g 0x00 0)
  | .tadd g o => some (.t, word g 0x01 (encTOps o))
  | .tsub g o => some (.t, word g 0x02 (encTOps o))
  | .tmul g o => some (.t, word g 0x03 (encTOps o))
  | .tmax g o => some (.t, word g 0x04 (encTOps o))
  | .tmin g o => some (.t, word g 0x05 (encTOps o))
  | .tabs g o => some (.t, word g 0x06 (encTOps o))
  | .tcvt g o => some (.t, word g 0x07 (encTOps o))
  | .tscl g o => some (.t, word g 0x08 (encTOps o))
  | .tfill g o => some (.t, word g 0x09 (encTOps o))
  | .tsel g o => some (.t, word g 0x0A (encTOps o))
  | .tlut g o => some (.t, word g 0x0B (encTOps o))
  | .tred g o => some (.t, word g 0x0C (encTOps o))
  | .tmma g o => some (.t, word g 0x10 (encTOps o))
  | .tspm g o => some (.t, word g 0x11 (encTOps o))
  | .place g op o => some (.t, word g 0x18 (encPlace op o))
  | .cnop g => some (.c, word g 0x00 0)
  | .cpy g o => some (.c, word g 0x01 (encCOps o 0 (encFlag o.post)))
  | .gath g o => some (.c, word g 0x02 (encCOps o (fin 5 o.aux) (encFlag o.post)))
  | .scat g o => some (.c, word g 0x03 (encCOps o (fin 5 o.aux) (encFlag o.post)))
  | .mcast g o => some (.c, word g 0x04 (encCOps o (fin 5 o.aux) (encFlag o.post)))
  | .flume g o => some (.c, word g 0x05 (encCOps o 0 (encFlag o.post)))
  | .strm g t z out wd cls q =>
    some (.c, word g 0x06 (fin 5 t ++ fin 3 z ++ bit out ++ wd ++ 0#10 ++ cls ++ fin 2 q ++ 0#15))
  | .unstrm g z tag cls q f =>
    some (.c, word g 0x07 (0#5 ++ fin 3 z ++ 0#7 ++ fin 6 tag ++ cls ++ fin 2 q ++ encFlag f))
  | .catom g o op => some (.c, word g 0x08 (encCOps o (fin 5 o.aux) (op.code ++ 0#12)))
  | .wsa g o => some (.c, word g 0x10 (encCOps o (fin 5 o.aux) (encFlag o.post)))
  | .wred g o => some (.c, word g 0x11 (encCOps o (fin 5 o.aux) (encFlag o.post)))
  | .wstat g o => some (.c, word g 0x12 (encCOps o 0 (encFlag o.post)))
  | .redf g o op => some (.c, word g 0x18 (encCOps o (fin 5 o.aux) (op.code ++ 0#13)))
  | .hot g o clr => some (.c, word g 0x1A (encCOps o (bit clr ++ 0#4) (encFlag o.post)))
  | .tlbi g a kind part tag =>
    let k : BitVec 2 := match kind with | .page => 0 | .part => 1 | .all => 2
    some (.c, word g 0x1F (a.code ++ k ++ part ++ 0#1 ++ fin 6 tag ++ 0#21))
  | .ynop g => some (.y, word g 0x00 0)
  | .tree g shape t1 t2 t3 t4 group count =>
    let s : BitVec 2 := match shape with | .chain => 0 | .pairs => 1 | .gate => 2
    some (.y, word g 0x01 (s ++ encTest t1 ++ encTest t2 ++ encTest t3 ++ encTest t4 ++ group ++ count ++ 0#8))
  | .jmpBt g n => some (.y, word g 0x02 (0#6 ++ fin 4 n ++ 0#32))
  | .jmpAddr g addr => some (.y, word g 0x02 (1#1 ++ 0#9 ++ addr))
  | .callBt g k n => some (.y, word g 0x03 (0#2 ++ fin 4 k ++ fin 4 n ++ 0#32))
  | .callAddr g k addr => some (.y, word g 0x03 (1#1 ++ 0#1 ++ fin 4 k ++ 0#4 ++ addr))
  | .ret g n => some (.y, word g 0x04 (0#6 ++ fin 4 n ++ 0#32))
  | .loop g j n => some (.y, word g 0x05 (0#1 ++ bit j ++ fin 4 n ++ 0#36))
  | .loopSet g j a => some (.y, word g 0x05 (1#1 ++ bit j ++ 0#6 ++ a.code ++ 0#26))
  | .bsel g d a b => some (.y, word g 0x06 (encRRR d a b 0))
  | .post g flag tgt mask n =>
    let (sc, x) : BitVec 2 × Byte := match tgt with
      | .own => (0, 0) | .core x => (1, x.code) | .node x => (2, x.code)
    some (.y, word g 0x10 (fin 5 flag ++ sc ++ x ++ mask ++ n))
  | .waitf g flag mask n => some (.y, word g 0x11 (fin 5 flag ++ mask ++ n ++ 0#5))
  | .waitany g a => some (.y, word g 0x12 (a.code ++ 0#34))
  | .waitall g a => some (.y, word g 0x13 (a.code ++ 0#34))
  | .ffr g d a => some (.y, word g 0x14 (encRRI d a 0))
  | .bar g mask => some (.y, word g 0x15 (mask ++ 0#26))
  | .watch g base => some (.y, word g 0x16 (base.code ++ 0#34))
  | .waitm g d => some (.y, word g 0x17 (d.code ++ 0#34))
  | .fence g mask scope =>
    let s : BitVec 3 := match scope with | .core => 0 | .quad => 1 | .die => 2 | .pkg => 3 | .fabric => 4
    some (.y, word g 0x18 (mask ++ s ++ 0#23))
  | .qfence g q => some (.y, word g 0x19 (q ++ 0#34))
  | .send g x core => some (.y, word g 0x1A (x.code ++ core.code ++ 0#26))
  | .recv g d core => some (.y, word g 0x1B (d.code ++ core.code ++ 0#26))
  | .give g wsrc core wdst flag fe =>
    some (.y, word g 0x1C (wsrc ++ core.code ++ wdst ++ fin 5 flag ++ bit fe ++ 0#12))
  | .openw g x => some (.y, word g 0x1D (x ++ 0#34))
  | .closew g x => some (.y, word g 0x1E (x ++ 0#34))
  | .fuse g m => some (.y, word g 0x1F (m ++ 0#38))
  | .spawn g d q r => some (.y, word g 0x20 (encRRR d q r 0))
  | .suspendQueue g q bt => some (.y, word g 0x21 (q.code ++ fin 4 bt ++ 0#2 ++ 0#28))
  | .suspendFlag g q bt flag n => some (.y, word g 0x21 (q.code ++ fin 4 bt ++ 1#2 ++ fin 5 flag ++ n ++ 0#12))
  | .suspendWatch g q bt => some (.y, word g 0x21 (q.code ++ fin 4 bt ++ 2#2 ++ 0#28))
  | .yield g => some (.y, word g 0x22 0)
  | .done g => some (.y, word g 0x23 0)
  | .tstamp g d => some (.y, word g 0x24 (d.code ++ 0#34))
  | .tstampHub g d => some (.y, word g 0x24 (d.code ++ 0#9 ++ 1#1 ++ 0#24))
  | .tstampSet g a => some (.y, word g 0x24 (0#8 ++ a.code ++ 1#1 ++ 0#25))
  | .cmptScalar g a b => some (.y, word g 0x30 (a.code ++ b.code ++ 63#6 ++ 0#20))
  | .cmptVector g a b m => some (.y, word g 0x30 (a.code ++ b.code ++ predCode m ++ 1#1 ++ 0#19))
  | .trap g imm => some (.y, word g 0x31 (imm ++ 0#26))
  | .rft g => some (.y, word g 0x32 0)
  | .idle g => some (.y, word g 0x33 0)
  | .brake g kind t => some (.y, word g 0x34 (encBrake kind false t))
  | .brakeClear g kind t => some (.y, word g 0x34 (encBrake kind true t))
  | _ => none
where
  vec (g : Guard) (cl : Cluster) (op : Byte) (x : BitVec 42) : Option (Slot × SlotWord) :=
    some ((match cl with | .a => .v0 | .b => .v1), word g op x)
  encBrake (kind : BrakeKind) (clr : Bool) (t : Spec) : BitVec 42 :=
    (match kind with | .core => 0#2 | .stone => 1#2 | .tile => 2#2) ++ bit clr ++ t.code ++ 0#31

/-- The bundle that holds one slot word, every other slot its nop and the header zero. -/
def bundleOf (k : Slot) (x : SlotWord) : BitVec 512 :=
  let at' (j : Slot) : SlotWord := if j = k then x else nopWord
  0#32 ++ at' .y ++ at' .c ++ at' .t ++ at' .k ++ at' .l ++ at' .v1 ++ at' .v0 ++ at' .s

/-- The 64 bytes of the bundle that holds a slot instruction alone. -/
def encodeBytes (i : Instr) : Option (List Byte) :=
  (encode i).map fun p => leBytes 64 (bundleOf p.1 p.2).toNat

end Sys2Proof
end

