-- ==== Sys2Proof/Machine/Control.lean ====
section
/-! DEFINITION. Control transfers (R106-R113): the condition tree, jumps, calls, hardware loops and bucket
select. -/

namespace Sys2Proof.Machine

/-- `ynop` (R69). -/
def effYnop : Eff := effNone

/-- `tree` (R108, R109): leaf 0 is the next bundle, leaf k goes to bt(4g + k - 1). -/
def effTree (shape : Shape) (t1 t2 t3 t4 : Test) (group count : BitVec 2) : Eff := fun e =>
  let l := e.k.leaf shape t1 t2 t3 t4 count
  .ok { jump := if l = 0 then none else some (e.k.bt[fin 15 (4 * group.toNat + l - 1)], 2) }

/-- `jmp` to a branch-target register (R106). -/
def effJmpBt (n : Fin 16) : Eff := fun e => .ok { jump := some (e.k.bt[n], 2) }
/-- `jmp` to a code address (R106). -/
def effJmpAddr (addr : W32) : Eff := fun _ => .ok { jump := some (addr, 2) }

/-- The link register receives the call bundle's code address plus 1 (R106). -/
def linkResult (e : Env) (k : Fin 16) : List Result :=
  [{ reg := .bt k, data := (e.pc + 1).setWidth 2048, lat := 1 }]

/-- `call` to a branch-target register, read before the bundle (R106). -/
def effCallBt (k n : Fin 16) : Eff := fun e => .ok { res := linkResult e k, jump := some (e.k.bt[n], 2) }
/-- `call` to a code address (R106). -/
def effCallAddr (k : Fin 16) (addr : W32) : Eff := fun e => .ok { res := linkResult e k, jump := some (addr, 2) }
/-- `ret` (R106). -/
def effRet (n : Fin 16) : Eff := fun e => .ok { jump := some (e.k.bt[n], 2) }

/-- `loop` (R110): a counter that is not zero is decremented and the transfer taken, with no bubble (R107). -/
def effLoop (j : Bool) (n : Fin 16) : Eff := fun e =>
  let i : Fin 2 := if j then 1 else 0
  if e.k.lc[i] = 0 then .ok {}
  else .ok { acts := [.cont e.c fun k => { k with lc := vset k.lc i (k.lc[i] - 1) }], jump := some (e.k.bt[n], 0) }

/-- `loop set` (R110). -/
def effLoopSet (j : Bool) (a : Spec) : Eff := fun e =>
  let i : Fin 2 := if j then 1 else 0
  let v : W32 := bits (e.k.scalar a) 0 32
  .ok { acts := [.cont e.c fun k => { k with lc := vset k.lc i v }] }

/-- Word `i` of a bucket table at a device physical address (R111). -/
def tableWord (m : List Host.Cell) (pa i : Nat) : W32 := BitVec.ofNat 32 (memNat m (pa + 4 * i) 4)

/-- The sizes of a table rise strictly. -/
def rising : List Nat → Bool
  | a :: b :: xs => decide (a < b) && rising (b :: xs)
  | _ => true

/-- A table's header and sizes are well formed (R111, R113). -/
def tableOk (h : W32) (sizes : List W32) : Bool :=
  let n := (bits h 0 6).toNat
  decide (1 ≤ n) && decide (n ≤ 62) && bits h 6 2 == 0 && bits h 11 21 == 0 &&
    sizes.all (fun x => bits x 16 16 == 0) && rising (sizes.map BitVec.toNat)

/-- What `bsel` selects (R112): dst, PADM and the target. -/
def bselValue (a : W64) (h : W32) (sizes entries : List W32) (overflow : W32) : W64 × W64 × W32 :=
  match (List.range sizes.length).find? fun i => decide (a.toNat ≤ (sizes.getD i 0).toNat) with
  | some i =>
    let size := sizes.getD i 0
    (size.setWidth 64,
      BitVec.ofNat 64 (a.toNat * 2 ^ 32 + size.toNat * 2 ^ 16 + (bits h 8 2).toNat * 4 + (bits h 10 1).toNat * 2 + 1),
      entries.getD i 0)
  | none => (a, 0, overflow)

/-- `bsel` (R111-R113): the table is checked and read at issue; dst and PADM land 9 cycles after it. -/
def effBsel (d a b : Spec) : Eff := fun e =>
  let w : BitVec 24 := bits (e.k.scalar b) 0 24
  let ent := e.k.entry (winOf w)
  let bank := bankOf e.c ent.bank
  let pa := bankPa bank (w.toNat % 65536)
  let h := tableWord e.mem pa 0
  let n := (bits h 0 6).toNat
  let bytes := 4 * (2 * n + 2)
  let sizes := (List.range n).map fun i => tableWord e.mem pa (i + 1)
  let entries := (List.range n).map fun i => tableWord e.mem pa (n + 1 + i)
  if w.toNat % 4 ≠ 0 then .error (winTrap .align w)
  else if ent.v ∧ 65536 < w.toNat % 65536 + bytes then .error (winTrap .align w)
  else if sysWindow (winOf w) && !cPriv e.k.cstat then .error (privTrap w)
  else if !ent.v then .error (winTrap .detached w)
  else if !ownerReads (e.s.banks[bank]).st then .error (winTrap .bufstate w)
  else if !tableOk h sizes then .error (winTrap .descr w)
  else match poisonIn e.s.poisoned pa bytes with
    | some x => .error ⟨.poison, poisonInfo 6 e.slot (BitVec.ofNat 24 (w.toNat / 65536 * 65536 + (x - bankPa bank 0)))⟩
    | none =>
      let (v, padm, target) := bselValue (e.k.scalar a) h sizes entries (tableWord e.mem pa (2 * n + 1))
      .ok { res := plainResult d v 9 ++ [{ reg := .padm, data := wide padm, lat := 9 }], jump := some (target, 8) }

/-- The hold of `bsel` (R77, R112): an earlier store of the core to the table's bank has not performed; nor, since the table
read is one class-0 load, an earlier access of class 0 or of a word of the table (R273, R274; log entry 83). -/
def holdBsel (b : Spec) : Env → Option (List Act) := fun e =>
  let a : BitVec 24 := bits (e.k.scalar b) 0 24
  let off := a.toNat % 65536
  let bank := bankOf e.c (e.k.entry (winOf a)).bank
  let n := (bits (tableWord e.mem (bankPa bank off) 0) 0 6).toNat
  if (e.k.entry (winOf a)).v && e.readWaits 0 bank off (4 * (2 * n + 2)) then some [] else none

end Sys2Proof.Machine
end

