-- ==== Sys2Proof/Machine/Slots.lean ====
section
/-! DEFINITION. The slot instructions by name: the effect, the hold and the last stage of each. -/

namespace Sys2Proof.Machine

/-- The effect of a slot instruction; an event has none. -/
def slotEff : Instr → Eff
  | .nop _ => effNop
  | .add _ d a b => effAdd d a b
  | .sub _ d a b => effSub d a b
  | .and _ d a b => effAnd d a b
  | .or _ d a b => effOr d a b
  | .xor _ d a b => effXor d a b
  | .shl _ d a b => effShl d a b
  | .shr _ d a b => effShr d a b
  | .sar _ d a b => effSar d a b
  | .mul _ d a b => effMul d a b
  | .mulh _ d a b => effMulh d a b
  | .mulhu _ d a b => effMulhu d a b
  | .min _ d a b => effMin d a b
  | .max _ d a b => effMax d a b
  | .minu _ d a b => effMinu d a b
  | .maxu _ d a b => effMaxu d a b
  | .addi _ d a imm => effAddi d a imm
  | .andi _ d a imm => effAndi d a imm
  | .ori _ d a imm => effOri d a imm
  | .xori _ d a imm => effXori d a imm
  | .shli _ d a imm => effShli d a imm
  | .shri _ d a imm => effShri d a imm
  | .sari _ d a imm => effSari d a imm
  | .lea _ d a wdelta odelta => effLea d a wdelta odelta
  | .li _ d imm => effLi d imm
  | .lui _ d imm => effLui d imm
  | .clz _ d a => effClz d a
  | .popc _ d a => effPopc d a
  | .bfx _ d a pos len1 sx => effBfx d a pos len1 sx
  | .bfi _ d a b pos len1 => effBfi d a b pos len1
  | .sel _ d a b p => effSel d a b p
  | .cmp _ pd a b cond => effCmp pd a b cond
  | .cmpi _ pd a imm cond => effCmpi pd a imm cond
  | .pand _ pd pa pb => effPand pd pa pb
  | .por _ pd pa pb => effPor pd pa pb
  | .pxor _ pd pa pb => effPxor pd pa pb
  | .pandn _ pd pa pb => effPandn pd pa pb
  | .pset _ pd a => effPset pd a
  | .vext _ d src lane sx => effVext d src lane sx
  | .mfc _ d n => effMfc d n
  | .mtc _ n a => effMtc n a
  | .setbtAddr _ n addr => effSetbtAddr n addr
  | .setbtReg _ n a => effSetbtReg n a
  | .tset _ t field a => effTset t field a
  | .tget _ d t field => effTget d t field
  | .vnop _ _ => effVnop
  | .vadd _ cl d a b => effVadd cl d a b
  | .vsub _ cl d a b => effVsub cl d a b
  | .vmul _ cl d a b => effVmul cl d a b
  | .vmulh _ cl d a b => effVmulh cl d a b
  | .vmin _ cl d a b => effVmin cl d a b
  | .vmax _ cl d a b => effVmax cl d a b
  | .vand _ cl d a b => effVand cl d a b
  | .vor _ cl d a b => effVor cl d a b
  | .vxor _ cl d a b => effVxor cl d a b
  | .vshl _ cl d a b => effVshl cl d a b
  | .vshr _ cl d a b => effVshr cl d a b
  | .vsar _ cl d a b => effVsar cl d a b
  | .vabs _ cl d a => effVabs cl d a
  | .vneg _ cl d a => effVneg cl d a
  | .vcmp _ cl pd a b cond => effVcmp cl pd a b cond
  | .vadds _ cl d a b => effVadds cl d a b
  | .vsubs _ cl d a b => effVsubs cl d a b
  | .vminu _ cl d a b => effVminu cl d a b
  | .vmaxu _ cl d a b => effVmaxu cl d a b
  | .fadd _ cl d a b rm => effFadd cl d a b rm
  | .fsub _ cl d a b rm => effFsub cl d a b rm
  | .fmul _ cl d a b rm => effFmul cl d a b rm
  | .fma _ cl d a b c rm => effFma cl d a b c rm
  | .fms _ cl d a b c rm => effFms cl d a b c rm
  | .fnma _ cl d a b c rm => effFnma cl d a b c rm
  | .fmin _ cl d a b => effFmin cl d a b
  | .fmax _ cl d a b => effFmax cl d a b
  | .fabs _ cl d a => effFabs cl d a
  | .fneg _ cl d a => effFneg cl d a
  | .fdiv _ cl d a b rm => effFdiv cl d a b rm
  | .fsqrt _ cl d a rm => effFsqrt cl d a rm
  | .frcp _ cl d a => effFrcp cl d a
  | .frsq _ cl d a => effFrsq cl d a
  | .fcmp _ cl pd a b cond => effFcmp cl pd a b cond
  | .fclass _ cl d a => effFclass cl d a
  | .cvt _ cl d a src dst rm => effCvt cl d a src dst rm
  | .vpack _ cl d a b kind rm => effVpack cl d a b kind rm
  | .vunpk _ cl d a kind half => effVunpk cl d a kind half
  | .plext _ cl d a k1 centred q => effPlext cl d a k1 centred q
  | .plins _ cl d a k1 centred q rm => effPlins cl d a k1 centred q rm
  | .vmov _ cl d a => effVmov cl d a
  | .vsel _ cl d a b p => effVsel cl d a b p
  | .vli _ cl d imm => effVli cl d imm
  | .viota _ cl d start stride => effViota cl d start stride
  | .vbcast _ cl d a lane => effVbcast cl d a lane
  | .vperm _ cl d a b => effVperm cl d a b
  | .vrot _ cl d a n => effVrot cl d a n
  | .vbfly _ cl d a s => effVbfly cl d a s
  | .vradd _ cl d a pm sat => effVradd cl d a pm sat
  | .vrmax _ cl d a pm => effVrmax cl d a pm
  | .vrmin _ cl d a pm => effVrmin cl d a pm
  | .frsum _ cl d a pm rm => effFrsum cl d a pm rm
  | .frmax _ cl d a pm => effFrmax cl d a pm
  | .frmin _ cl d a pm => effFrmin cl d a pm
  | .xmov _ cl d a => effXmov cl d a
  | .vins _ cl d a lane => effVins cl d a lane
  | .vfromp _ cl d p => effVfromp cl d p
  | .vtop _ cl pd a => effVtop cl pd a
  | .lnop _ => effLnop
  | .ld _ base index scale off cls width dest => effLd base index scale off cls width dest
  | .lde _ base index scale off cls sx => effLde base index scale off cls sx
  | .ldf _ base index scale off cls sx => effLdf base index scale off cls sx
  | .ldx _ e off width => effLdx e off width
  | .amo _ base val op cls wide => effAmo base val op cls wide
  | .lbst _ base cls sel => effLbst base cls sel
  | .knop _ => effKnop
  | .st _ base src off cls width => effSt base src off cls width
  | .stf _ base src off cls => effStf base src off cls
  | .ste _ base src off cls => effSte base src off cls
  | .stx _ e src off width => effStx e src off width
  | .bst _ base buf mode cls => effBst base buf mode cls
  | .stm _ base src off cls width p => effStm base src off cls width p
  | .tnop _ => effTnop
  | .tadd _ o => effTadd o
  | .tsub _ o => effTsub o
  | .tmul _ o => effTmul o
  | .tmax _ o => effTmax o
  | .tmin _ o => effTmin o
  | .tabs _ o => effTabs o
  | .tcvt _ o => effTcvt o
  | .tscl _ o => effTscl o
  | .tfill _ o => effTfill o
  | .tsel _ o => effTsel o
  | .tlut _ o => effTlut o
  | .tred _ o => effTred o
  | .tmma _ o => effTmma o
  | .tspm _ o => effTspm o
  | .place _ op o => effPlace op o
  | .cnop _ => effCnop
  | .cpy _ o => effCpy o
  | .gath _ o => effGath o
  | .scat _ o => effScat o
  | .mcast _ o => effMcast o
  | .flume _ o => effFlume o
  | .strm _ t z out width cls queue => effStrm t z out width cls queue
  | .unstrm _ z tag cls queue post => effUnstrm z tag cls queue post
  | .catom _ o op => effCatom o op
  | .wsa _ o => effWsa o
  | .wred _ o => effWred o
  | .wstat _ o => effWstat o
  | .redf _ o op => effRedf o op
  | .hot _ o clr => effHot o clr
  | .tlbi _ a kind part tag => effTlbi a kind part tag
  | .ynop _ => effYnop
  | .tree _ shape t1 t2 t3 t4 group count => effTree shape t1 t2 t3 t4 group count
  | .jmpBt _ n => effJmpBt n
  | .jmpAddr _ addr => effJmpAddr addr
  | .callBt _ k n => effCallBt k n
  | .callAddr _ k addr => effCallAddr k addr
  | .ret _ n => effRet n
  | .loop _ j n => effLoop j n
  | .loopSet _ j a => effLoopSet j a
  | .bsel _ d a b => effBsel d a b
  | .post _ flag target mask n => effPost flag target mask n
  | .waitf _ flag mask n => effWaitf flag mask n
  | .waitany _ a => effWaitany a
  | .waitall _ a => effWaitall a
  | .ffr _ d a => effFfr d a
  | .bar _ mask => effBar mask
  | .watch _ base => effWatch base
  | .waitm _ d => effWaitm d
  | .fence _ mask scope => effFence mask scope
  | .qfence _ qmask => effQfence qmask
  | .send _ data core => effSend data core
  | .recv _ d core => effRecv d core
  | .give _ wsrc core wdst flag fe => effGive wsrc core wdst flag fe
  | .openw _ w => effOpenw w
  | .closew _ w => effClosew w
  | .fuse _ members => effFuse members
  | .spawn _ d q rec => effSpawn d q rec
  | .suspendQueue _ q bt => effSuspendQueue q bt
  | .suspendFlag _ q bt flag count => effSuspendFlag q bt flag count
  | .suspendWatch _ q bt => effSuspendWatch q bt
  | .yield _ => effYield
  | .done _ => effDone
  | .tstamp _ d => effTstamp d
  | .tstampHub _ d => effTstampHub d
  | .tstampSet _ a => effTstampSet a
  | .cmptScalar _ a b => effCmptScalar a b
  | .cmptVector _ a b m => effCmptVector a b m
  | .trap _ imm => effTrap imm
  | .rft _ => effRft
  | .idle _ => effIdle
  | .brake _ kind t => effBrake kind t
  | .brakeClear _ kind t => effBrakeClear kind t
  | _ => effNone

/-- The hold of a slot instruction. -/
def slotHold : Instr → Hold
  | .mcast _ o => holdMcast o
  | .bsel _ _ _ b => holdBsel b
  | .bst _ base _ _ _ => holdBst base
  | .ldx _ _ _ _ => holdX
  | .stx _ _ _ _ _ => holdX
  | .waitf _ flag _ n => holdWaitf flag n
  | .waitany _ a => holdWaitany a
  | .waitall _ a => holdWaitall a
  | .bar _ mask => holdBar mask
  | .waitm _ _ => holdWaitm
  | .fence _ mask scope => holdFence mask scope
  | .send _ _ core => holdSend core
  | .recv _ _ core => holdRecv core
  | .fuse _ members => holdFuse members
  | .spawn _ _ _ _ => holdSpawn
  | .suspendQueue _ q _ => fun e => holdSuspend (some (e.k.scalar q)) .queue e
  | .suspendFlag _ q _ flag count => fun e => holdSuspend (some (e.k.scalar q)) (.flag flag count.toNat) e
  | .suspendWatch _ q _ => fun e => holdSuspend (some (e.k.scalar q)) .watch e
  | .yield _ => fun e => holdSuspend e.k.homeQueue .queue e
  | .done _ => holdDone
  | .rft _ => holdRft
  | _ => fun _ => none

/-- The last stage of a slot instruction (R393). -/
def slotStage : Instr → Option (Env → Stage)
  | .ldx _ e off width => some (stageLdx e off width)
  | .stx _ e src off width => some (stageStx e src off width)
  | .spawn _ d q r => some (stageSpawn d q r)
  | .suspendQueue _ q bt => some fun e => stageSuspend (some (e.k.scalar q)) (fun e => e.k.bt[bt]) e
  | .yield _ => some fun e => stageSuspend e.k.homeQueue (fun e => e.pc + 1) e
  | _ => none

end Sys2Proof.Machine
end

