-- ==== Sys2Proof/Machine/Issue.lean ====
section
/-! DEFINITION. A bundle from its checks to its commit (R47-R55, R70-R80, R393): fetch (R91), the checks at decode,
holds (R77, R261, R262), check mode (R80), the checks at execution, and commit (R76). -/

namespace Sys2Proof.Machine

/-! ### Bundles -/

/-- The bundle of one slot instruction, the other slots holding their nops. -/
def Bundle.single (i : Instr) : Bundle :=
  { ops := match instrSlot i with | some (x, _) => [(x, i)] | none => [] }

/-- A trap found at decode. -/
def decodeTrap (cause : Cause) (detail : Byte) (reason slot2 : Nat) (hdr : Bool) (slot : Nat) : Trap :=
  ⟨cause, decodeInfo detail reason slot2 hdr slot⟩

/-- Step 1 of R70 for the header (R49). -/
def headerTrap (h : W32) : Option Trap :=
  let triple : Byte := bits h 20 8
  let kind := (bits h 16 3).toNat
  if triple &&& 0x66 ≠ 0 then some (decodeTrap .illbundle triple 2 0 true 0)
  else if 2 < kind then some (decodeTrap .illbundle (BitVec.ofNat 8 kind) 3 0 true 0)
  else if bits h 0 16 ≠ 0 then some (decodeTrap .illbundle 0 4 0 true 0)
  else none

/-- Step 2 of R70: every slot is decoded, in slot order. -/
def decodeSlots (w : BitVec 512) : List Slot → Except Trap (List (Slot × Instr))
  | [] => .ok []
  | x :: xs =>
    match decodeSlot x (slotWord w x) with
    | .error e => .error (decodeTrap .illop e.detail e.reason 0 false (slotIx x))
    | .ok i =>
      match decodeSlots w xs with
      | .error t => .error t
      | .ok rest => .ok (if isPlainNop (slotWord w x) then rest else (x, i) :: rest)

/-- Steps 1 and 2 of R70 on the bits of a bundle. -/
def bundleOfWord (w : BitVec 512) : Except Trap Bundle :=
  let h := headerOf w
  match headerTrap h with
  | some t => .error t
  | none =>
    match decodeSlots w allSlots with
    | .error t => .error t
    | .ok ops =>
      .ok { stall := (bits h 28 4).toNat, qp := bitAt h 19, kind := (bits h 16 3).toNat, triple := bits h 20 8, ops }

/-- The Y slot holds `tree`. -/
def isTree : Instr → Bool
  | .tree _ _ _ _ _ _ _ _ => true
  | _ => false

/-- The number of a guard's predicate, as GPRED has it. -/
def gpred (g : Guard) : Byte := match g.pred with | some p => BitVec.ofNat 8 p.val | none => 63

/-- Step 3 of R70 for one slot (R53). -/
def guardTrap (trees : Bool) (x : Slot × Instr) : Option Trap :=
  match instrSlot x.2 with
  | none => none
  | some (_, g) =>
    let off := match x.1, g.pred with
      | .v0, some p => decide (24 ≤ p.val)
      | .v1, some p => decide (p.val < 24)
      | _, _ => false
    let bad (reason : Nat) : Option Trap := some (decodeTrap .illbundle (gpred g) reason 0 false (slotIx x.1))
    if off then bad 9
    else if g.path.isSome && !trees then bad 10
    else if isTree x.2 && g != Guard.always then bad 11
    else none

/-- A control register that only privileged code writes (R102). -/
def ctlPrivileged (n : Byte) : Bool := [1, 2, 3, 4, 8, 9, 10].contains n.toNat

/-- A privileged instruction (R102, R159, R190, R349, R352), with its opcode (R71). -/
def privileged : Instr → Option Byte
  | .mtc _ n _ => if ctlPrivileged n then some 0x31 else none
  | .ldx _ _ _ _ | .stx _ _ _ _ _ => some 0x04
  | .tlbi _ _ _ _ _ => some 0x1F
  | .rft _ => some 0x32
  | .brake _ _ _ | .brakeClear _ _ _ => some 0x34
  | _ => none

/-- Step 4 of R70 for one slot. -/
def privTrapOf (k : Cont) (x : Slot × Instr) : Option Trap :=
  match privileged x.2 with
  | some op => if cPriv k.cstat then none else some (decodeTrap .priv op 12 0 false (slotIx x.1))
  | none => none

/-- What two slots may not share (R64). -/
inductive Item | reg (r : Reg) | desc (t : Fin 32) | flag (f : Fin 32) | queue (q : Spec) | stream (z : Fin 8) | ctl (n : Byte)
  deriving DecidableEq, Repr

/-- DETAIL of a conflict (R71). -/
def Item.detail : Item → Byte
  | .reg r => r.code
  | .desc t => BitVec.ofNat 8 t.val
  | .flag f => BitVec.ofNat 8 f.val
  | .queue q => q.code
  | .stream z => (Spec.z z).code
  | .ctl n => n

/-- What a slot claims for itself (R64). -/
def claims (i : Instr) : List Item :=
  let u := instrUse i
  u.writes.map .reg ++ u.descs.map .desc ++ u.pops.map .queue ++ u.streams.map (fun x => .stream x.1) ++ u.ctl.map .ctl ++
    (match i with | .post _ f .own _ _ => [.flag f] | _ => [])

/-- Step 5 of R70: the first slot, in order, that shares something with a later one; of two things that they share DETAIL names
the one that the first slot claims first (log entry 99). -/
def conflictTrap : List (Slot × Instr) → Option Trap
  | [] => none
  | x :: xs =>
    match xs.findSome? fun y => ((claims x.2).find? (claims y.2).contains).map fun t =>
        decodeTrap .wconflict t.detail 13 (slotIx y.1) false (slotIx x.1) with
    | some t => some t
    | none => conflictTrap xs

/-- Steps 3 to 5 of R70. -/
def decodeChecks (k : Cont) (ops : List (Slot × Instr)) : Option Trap :=
  match ops.findSome? (guardTrap (ops.any fun x => isTree x.2)) with
  | some t => some t
  | none =>
    match ops.findSome? (privTrapOf k) with
    | some t => some t
    | none => conflictTrap ops

/-! ### Executing slots (R54, R55, R109) -/

/-- The leaf that the bundle's tree takes; 0 without a tree. -/
def bundleLeaf (k : Cont) (ops : List (Slot × Instr)) : Nat :=
  (ops.findSome? fun x => match x.2 with
    | .tree _ sh t1 t2 t3 t4 _ n => some (k.leaf sh t1 t2 t3 t4 n)
    | _ => none).getD 0

/-- A slot of the vector clusters. -/
def vectorSlot : Slot → Bool
  | .v0 | .v1 => true
  | _ => false

/-- A slot executes: its path test passes and, outside V0 and V1, its predicate test (R54). -/
def executes (k : Cont) (leaf : Nat) (x : Slot × Instr) : Bool :=
  match instrSlot x.2 with
  | none => false
  | some (_, g) =>
    (match g.path with | some l => l.val == leaf | none => true) && (vectorSlot x.1 || k.guardBit g)

/-- The tag that a C-slot instruction names. -/
def copyTagOf : Instr → Option (Fin 64)
  | .cpy _ o | .gath _ o | .scat _ o | .mcast _ o | .flume _ o | .wsa _ o | .wred _ o | .wstat _ o => some o.tag
  | .catom _ o _ => some o.tag
  | .redf _ o _ => some o.tag
  | .hot _ o _ => some o.tag
  | .unstrm _ _ tag _ _ _ => some tag
  | .tlbi _ _ _ _ tag => some tag
  | _ => none

/-- The class of an owner-port access that an instruction makes, and whether it is a full/empty load (R252, R271). -/
def ownAccess : Instr → Option (BitVec 4 × Bool)
  | .ld _ _ _ _ _ cls _ _ => some (cls, false)
  | .lde _ _ _ _ _ cls _ | .ldf _ _ _ _ _ cls _ => some (cls, true)
  | .amo _ _ _ _ cls _ | .lbst _ _ cls _ => some (cls, false)
  | .st _ _ _ _ cls _ | .stf _ _ _ _ cls | .ste _ _ _ _ cls | .stm _ _ _ _ cls _ _ => some (cls, false)
  | _ => none

/-- What a slot sees where the checks of its bundle have been made (R160, R316): memory, windows and descriptors as they were then,
no poison, and no declared buffer. -/
def Env.checked (e : Env) (a : Asked) : Env :=
  { e with s := { e.s with poisoned := [], banks := e.s.banks.map fun b => { b with st := .opened } }
           k := { e.k with bmap := a.bmap, t := a.t, tpoison := 0, rpoison := [] }
           mem := a.mem, was := e.was.map fun x => (x.1, memGet a.mem x.1), made := true }

/-- The bytes of this node that an `stx` of the bundle replaces, as they were (R78). -/
def replaced (k : Cont) (mem : List Host.Cell) (ops : List (Slot × Instr)) : List (Nat × Byte) :=
  ops.flatMap fun y => match y.2 with
    | .stx _ r _ off w =>
      let a := xAddr k r off
      if bits a 48 16 ≠ 0 then [] else (List.range (xBytes w)).map fun i => (a.toNat + i, memGet mem (a.toNat + i))
    | _ => []

/-- What an executing slot sees. -/
def envOf (s : State) (c : Fin 256) (ops : List (Slot × Instr)) (x : Slot × Instr) : Env :=
  let core := s.cores[c]
  { s, c, x := core, k := core.cont, slot := x.1
    e := match instrSlot x.2 with | some (_, g) => if vectorSlot x.1 then core.cont.enable g else 0 | none => 0
    copyTag := ops.findSome? fun y => copyTagOf y.2
    own := ops.filterMap fun y => (ownAccess y.2).map fun a => (a.1, a.2, s.nextId + slotIx y.1)
    was := replaced core.cont s.mem ops }

/-! ### Holds (R77) -/

/-- A load-data queue by its specifier. -/
def Cont.queue (k : Cont) : Spec → List QEntry
  | .qs => k.qs
  | .qa => k.qa
  | .qb => k.qb
  | _ => []

/-- A queue's head entry is not there, or not yet valid. -/
def headWaits (q : List QEntry) : Bool := match q with | [] => true | e :: _ => !e.valid

/-- The width of stream element that an instruction reads or writes: v in a vector slot, a store's own in K; none where
no binding has it. -/
def streamWidth : Instr → Option (BitVec 2)
  | .st _ _ _ _ _ w | .stm _ _ _ _ _ w _ =>
    match w with | .w => some 0 | .d => some 1 | .hv => some 2 | .v => some 3 | _ => none
  | .stf _ _ _ _ _ | .ste _ _ _ _ _ => some 0
  | _ => some 3

/-- A stream use that may go on waits: no element is ready, or the buffer is full (R77, R163, R164). -/
def streamWaits (k : Cont) (w : Option (BitVec 2)) (z : Fin 8 × Bool) : Bool :=
  match k.strm[z.1] with
  | none => false
  | some b => b.out == z.2 && w == some b.width && decide (b.pos < b.total) &&
      (if z.2 then decide (Config.streamDepth ≤ b.buf.length) else b.buf.isEmpty)

/-- The stream uses of an executing slot: a reduction that writes nothing pushes nothing (R133), and its destination is no use that
could trap (log entry 98). -/
def streamUses (e : Env) (i : Instr) : List (Fin 8 × Bool) :=
  (instrUse i).streams.filter fun z => !z.2 || (match slotEff i e with | .ok o => o.push | .error _ => true)

/-- A use of a stream that is read and written by one slot traps, and so waits for nothing (R63). -/
def streamHolds (e : Env) (i : Instr) : Bool :=
  let us := streamUses e i
  us.any fun z => !(us.contains (z.1, !z.2)) && streamWaits e.k (streamWidth i) z

/-- The queue in which an L-slot instruction allocates an entry (R147). -/
def allocates : Instr → Option (Spec × Nat)
  | .ld _ _ _ _ _ _ _ q => match q with | .qs _ => some (.qs, 0) | .qa => some (.qa, 1) | .qb => some (.qb, 2) | .desc _ _ => none
  | .lde _ _ _ _ _ _ _ | .ldf _ _ _ _ _ _ _ | .amo _ _ _ _ _ _ | .lbst _ _ _ _ | .ldx _ _ _ _ => some (.qs, 0)
  | _ => none

/-- A load that enters the load-address queue (R147). -/
def entersAddress : Instr → Bool
  | .ld _ _ _ _ _ _ _ _ | .lde _ _ _ _ _ _ _ | .ldf _ _ _ _ _ _ _ | .amo _ _ _ _ _ _ | .lbst _ _ _ _ => true
  | _ => false

/-- The timed hold of R147: which queue is full, counting what this bundle pops as freed. -/
def queueFull (k : Cont) (ops : List (Slot × Instr)) (i : Instr) : Option Nat :=
  let popped (q : Spec) : Nat := ops.countP fun x => (instrUse x.2).pops.contains q
  match allocates i with
  | some (q, n) => if Config.queueDepth ≤ (k.queue q).length - popped q then some n else address
  | none => address
where
  address : Option Nat :=
    if entersAddress i && decide (Config.addressDepth ≤ k.loads.countP fun r => !r.begun) then some 3 else none

/-- A held bundle: what happens meanwhile, and what the timed holds in force would trap with (R354). -/
structure Held where
  acts : List Act := []
  timed : List W64 := []

/-- An instruction of the Y slot other than its nop. -/
def isY (x : Slot × Instr) : Bool := x.1 == .y && (match x.2 with | .ynop _ => false | _ => true)

/-- The timed holds of one executing slot, by what they would trap with (R354). -/
def timedHolds (k : Cont) (ops : List (Slot × Instr)) (x : Slot × Instr) : List W64 :=
  ((queueFull k ops x.2).map fun n => BitVec.ofNat 64 (2 ^ 24 + n)).toList ++
    ((if isY x then k.give else none).map fun g => BitVec.ofNat 64 (g.2.val * 2 ^ 8 + g.1.toNat)).toList

/-- The hold of one executing slot. -/
def slotHeld (s : State) (c : Fin 256) (ops : List (Slot × Instr)) (x : Slot × Instr) : Option Held :=
  let e := envOf s c ops x
  let timed := timedHolds e.k ops x
  if ((instrUse x.2).pops.any fun q => headWaits (e.k.queue q)) || streamHolds e x.2 || !timed.isEmpty then some { timed }
  else (slotHold x.2 e).map fun acts => { acts }

/-- What holds a bundle (R77, R262). -/
def bundleHolds (s : State) (c : Fin 256) (kind : Nat) (exec : List (Slot × Instr)) : List Held :=
  let rejoin := if kind = 2 then holdRejoin (envOf s c exec (.s, .nop Guard.always)) else none
  (rejoin.map fun acts => ({ acts } : Held)).toList ++ exec.filterMap (slotHeld s c exec)

/-- The cycles for which each of the timed holds in force has lasted (R354). -/
def countHolds (old : List (W64 × Nat)) (timed : List W64) : List (W64 × Nat) :=
  timed.eraseDups.map fun t => (t, ((old.find? fun x => x.1 == t).map Prod.snd).getD 0 + 1)

/-- A held cycle: the core's clock advances, the timed holds are counted, and nothing else of it moves (R72, R354). -/
def heldActs (s : State) (c : Fin 256) (h : Held) : List Act :=
  h.acts ++
    [.core c fun x =>
      { x with clk := x.clk + 1, holds := countHolds x.holds h.timed },
     .clock ((s.cores[c]).clk + 1)]

/-! ### Check mode (R80) -/

/-- Registers with a write pending, last-result registers among them (R75). -/
def pendingRegs (k : Cont) : List Reg :=
  k.pend.flatMap (fun p => p.reg :: (if p.lr then (match p.reg with
      | .v cl _ | .o cl _ => [.la cl]
      | .strm z _ => [.la (clusterOfStream z)]
      | .s _ | .os _ => [.ls]
      | _ => []) else [])) ++
    k.loads.filterMap fun r => match r.dest with | .desc t hi => some (.t t hi) | _ => none

/-- A descriptor register is pending when any of it is (R80). -/
def descPending (ps : List Reg) (t : Fin 32) : Bool :=
  ps.any fun r => match r with | .t u _ => u == t | .field u _ => u == t | _ => false

/-- The descriptor registers that an executing slot names (R80): those of SCALE and META with them in T and C. -/
def namedDescs (k : Cont) (x : Slot × Instr) : List (Fin 32) :=
  match x.2 with
  | .tset _ t _ _ => [t]
  | .tget _ _ t _ => [t]
  | .st _ _ (.desc t _) _ _ _ => [t]
  | i =>
    let ns := (instrUse i).names
    ns ++ ns.flatMap fun t => ((List.range 2).map fun j => fin 31 (bits k.t[t] (222 + 5 * j) 5).toNat).filter (· != 0)

/-- The first read of a pending write by one slot. -/
def stallRead (k : Cont) (ps : List Reg) (runs : Bool) (x : Slot × Instr) : Option Byte :=
  let guard := match instrSlot x.2 with
    | some (_, g) => (g.pred.toList).map Reg.p
    | none => []
  match (guard ++ (if runs then (instrUse x.2).reads else [])).find? ps.contains with
  | some r => some r.code
  | none => if runs then ((namedDescs k x).find? (descPending ps)).map fun t => BitVec.ofNat 8 t.val else none

/-- Step 6 of R70. -/
def stallTrap (k : Cont) (leaf : Nat) (ops : List (Slot × Instr)) : Option Trap :=
  if !cChk k.cstat then none
  else ops.findSome? fun x => (stallRead k (pendingRegs k) (executes k leaf x) x).map fun d =>
    decodeTrap .stallchk d 14 0 false (slotIx x.1)

/-! ### Execution (R393) -/

/-- A stream use that traps STREAM (R63, R163, R164, R195). -/
def streamUseTrap (k : Cont) (slot : Slot) (w : Option (BitVec 2)) (z : Fin 8 × Bool) : Option Trap :=
  let bad : Option Trap := some ⟨.stream, BitVec.ofNat 64 (slotIx slot)⟩
  match k.strm[z.1] with
  | none => bad
  | some b =>
    if b.out != z.2 || w != some b.width || decide (b.total ≤ b.pos) then bad
    else if z.2 then none
    else match b.buf.head? with
      | some e => if e.failed then some ⟨.stream, BitVec.ofNat 64 (z.1.val + 2 ^ 8 * (bits e.data 0 4).toNat)⟩ else none
      | none => none

/-- POISON of what a slot pops (R393 row 9). -/
def popPoison (k : Cont) (slot : Slot) (u : Use) : Option Trap :=
  match u.pops.findSome? fun q => ((k.queue q).head?.bind QEntry.poison) with
  | some a => some ⟨.poison, poisonInfo 0 slot a⟩
  | none =>
    ((u.streams.filter fun z => !z.2).findSome? fun z => ((k.elem z.1).bind Elem.poison)).map fun a =>
      ⟨.poison, poisonInfo 1 slot a⟩

/-- The trap of a register whose contents are lost (R361, R362). -/
def registerTrap (slot : Slot) (r : Reg) : Trap := ⟨.poison, poisonInfo 4 slot (r.code.setWidth 24)⟩

/-- A guard reads a poisoned predicate (R362): of every slot, since the guard is decoded for every slot (R53). -/
def guardPoison (k : Cont) (x : Slot × Instr) : Option Trap :=
  (instrSlot x.2).bind fun g => (g.2.pred.bind fun p => if k.rpoison.contains (.p p) then some (.p p) else none).map
    (registerTrap x.1)

/-- A slot that holds its nop, whatever its guard: a TRIPLE bit has no effect on it (R49). -/
def isNop : Instr → Bool
  | .nop _ | .vnop _ _ | .lnop _ | .knop _ | .tnop _ | .cnop _ | .ynop _ => true
  | _ => false

/-- A slot is computed on three units (R49). -/
def tripled (triple : Byte) (x : Slot × Instr) : Bool := bitAt triple (slotIx x.1) && !(isNop x.2)

/-- The bundle's slot is computed on three units that find three different results (R115, R360). -/
def voteLost (x : CoreSt) (triple : Byte) (y : Slot × Instr) : Bool :=
  tripled triple y && x.votes.contains (y.1, false)

/-- NOVOTE, with the slot's index (R337). -/
def voteTrap (slot : Slot) : Trap := ⟨.novote, BitVec.ofNat 64 (slotIx slot)⟩

/-- The branch-target registers that an executing slot reads: those of a transfer that is taken, and the entry of a record
(R106, R108, R110, R322; log entry 84). -/
def targetReads (k : Cont) : Instr → List Reg
  | .jmpBt _ n | .callBt _ _ n | .ret _ n => [.bt n]
  | .loop _ j n => if k.lc[(if j then 1 else 0 : Fin 2)] = 0 then [] else [.bt n]
  | .tree _ shape t1 t2 t3 t4 group count =>
    match k.leaf shape t1 t2 t3 t4 count with
    | 0 => []
    | l + 1 => [.bt (fin 15 (4 * group.toNat + l))]
  | .suspendQueue _ _ n | .suspendFlag _ _ n _ _ | .suspendWatch _ _ n => [.bt n]
  | _ => []

/-- The arguments of the record of a continuation that leaves (R322, R324). -/
def recordReads : Instr → List Reg
  | .suspendQueue _ _ _ | .suspendFlag _ _ _ _ _ | .suspendWatch _ _ _ | .yield _ => [.s 0, .s 1, .s 2, .s 3]
  | _ => []

/-- The registers that an executing slot reads. -/
def slotReads (k : Cont) (i : Instr) : List Reg := (instrUse i).reads ++ targetReads k i ++ recordReads i

/-- One executing slot is checked and runs, its causes in the order of R393. -/
def checkSlot (e : Env) (triple : Byte) (i : Instr) : Except Trap Out :=
  let u := instrUse i
  match (slotReads e.k i).find? e.k.rpoison.contains with
  | some r => .error (registerTrap e.slot r)
  | none =>
    match (streamUses e i).findSome? (streamUseTrap e.k e.slot (streamWidth i)) with
    | some t => .error t
    | none =>
      match slotEff i e with
      | .error t => .error t
      | .ok o =>
        match popPoison e.k e.slot u with
        | some t => .error t
        | none =>
          match o.late with
          | some t => .error t
          | none => if voteLost e.x triple (e.slot, i) then .error (voteTrap e.slot) else .ok o

/-- The slots of a bundle in order, up to the first trap: the guards of all are read, and the executing ones run. -/
def runSlots (s : State) (c : Fin 256) (triple : Byte) (exec : List (Slot × Instr)) :
    List (Slot × Instr) → Except Trap (List ((Slot × Instr) × Out))
  | [] => .ok []
  | x :: xs =>
    match guardPoison (s.cores[c]).cont x with
    | some t => .error t
    | none =>
      if !(exec.any fun y => y.1 == x.1) then runSlots s c triple exec xs
      else match checkSlot (envOf s c exec x) triple x.2 with
        | .error t => .error t
        | .ok o =>
          match runSlots s c triple exec xs with
          | .error t => .error t
          | .ok rest => .ok ((x, o) :: rest)

/-- The access of a slot has been made, and gave a value. -/
def madeAct (c : Fin 256) (slot : Slot) (v : W64) : Act :=
  .cont c fun k => { k with remote := k.remote ++ [⟨slot, some (0, v, false)⟩] }

/-- The owner-port accesses of a bundle are made before the rest of it (R271). -/
def earlyActs (c : Fin 256) (outs : List ((Slot × Instr) × Out)) : List Act :=
  .ids 8 :: (outs.filter fun x => (ownAccess x.1.2).isSome).flatMap (fun x => x.2.acts) ++
    [.cont c fun k => { k with asked := k.asked.map fun a => { a with early := true } }]

/-- The last stages in slot order (R393): each sees the state that the earlier ones leave in `s`, and otherwise what its slot
`found`. Where a later one waits, an access that is made stands. -/
def runStages (found : Slot × Instr → Env) (s : State) (c : Fin 256) (early : List Act) : List (Slot × Instr) → Stage
  | [] => .go [] []
  | x :: xs =>
    match slotStage x.2 with
    | none => runStages found s c early xs
    | some f =>
      match f { found x with s := s } with
      | .go res acts =>
        match runStages found (applyActs s acts) c early xs with
        | .go res2 acts2 => .go (res ++ res2) (acts ++ acts2)
        | r => r
      | .made now acts v =>
        match runStages found (applyActs s now) c early xs with
        | .go res2 acts2 => .go res2 (now ++ acts ++ acts2)
        | .wait acts2 _ => .wait (now ++ [madeAct c x.1 v] ++ acts2) true
        | r => r
      | .first => .wait early true
      | r => r

/-! ### Commit (R76) -/

/-- A result as it waits to land; a stream element is found by its name. -/
def Result.pend (r : Result) (k : Cont) (slot : Slot) (token : Nat) : Pend :=
  { reg := match r.reg with | .strm z _ => .strm z token | x => x
    data := r.data, lanes := r.lanes, due := k.acyc + r.lat, order := k.order, lr := r.lr, flags := r.flags, bad := false
    pc := k.pc, slot, lat := r.lat }

/-- The pops and pushes of an executing slot (R76); `push` is off where it writes no element (R133). -/
def Cont.popPush (k : Cont) (token : Nat) (u : Use) (push : Bool) : Cont :=
  let k := u.pops.foldl (fun k q => match q with
    | .qs => { k with qs := k.qs.tail }
    | .qa => { k with qa := k.qa.tail }
    | .qb => { k with qb := k.qb.tail }
    | _ => k) k
  (u.streams.filter fun z => !z.2 || push).foldl (fun k z => { k with strm := vset k.strm z.1 ((k.strm[z.1]).map fun b =>
    if z.2 then { b with pos := b.pos + 1, buf := b.buf ++ [⟨token, 0, false, none, false, false⟩] }
    else { b with pos := b.pos + 1, buf := b.buf.tail }) }) k

/-- The transfer of a bundle: its target and bubbles; the next bundle without one (R107). -/
def transferOf (k : Cont) (outs : List Out) : W32 × Nat := (outs.findSome? Out.jump).getD (k.pc + 1, 0)

/-- A multiply in S. -/
def isMul : Instr → Bool
  | .mul _ _ _ _ | .mulh _ _ _ _ | .mulhu _ _ _ _ => true
  | _ => false

/-- The cycles for which the vote on a multiply holds the core before commit (R115). -/
def voteHold (b : Bundle) (exec : List (Slot × Instr)) : Nat :=
  if bitAt b.triple 0 && exec.any fun x => isMul x.2 then 2 else 0

/-- The units that an executing bundle outvotes (R115, R360). -/
def outvoted (x : CoreSt) (b : Bundle) (exec : List (Slot × Instr)) : Nat :=
  x.votes.countP fun v => v.2 && exec.any fun y => y.1 == v.1 && tripled b.triple y

/-- The continuation after a bundle has issued: pops and pushes, results on their way, the next code address, and the
STALL and bubble cycles still owed (R73, R75, R76, R107). -/
def Cont.issued (k : Cont) (b : Bundle) (token : Nat) (outs : List ((Slot × Instr) × Out)) (more : List Result) : Cont :=
  let (pc, bubbles) := transferOf k (outs.map Prod.snd)
  let name (x : Slot) : Nat := token + slotIx x
  let k1 := outs.foldl (fun k x => k.popPush (name x.1.1) (instrUse x.1.2) x.2.push) k
  { k1 with
    pend := k1.pend ++ outs.flatMap (fun x => x.2.res.map fun r => r.pend k x.1.1 (name x.1.1)) ++
      more.map fun r => r.pend k .y token
    pc, owed := b.stall + bubbles, acyc := k.acyc + 1, order := k.order + 1, remote := [], asked := none }

/-- A core after a bundle has issued; the dissents that its vote corrected are counted in TMRCNT, which saturates (R360). -/
def CoreSt.issued (x : CoreSt) (b : Bundle) (hold token : Nat) (exec : List (Slot × Instr))
    (outs : List ((Slot × Instr) × Out)) (more : List Result) : CoreSt :=
  { x with
    cont := x.cont.issued b token outs more, clk := x.clk + 1 + hold, holds := [], votes := []
    tmrcnt := BitVec.ofNat 32 (min (x.tmrcnt.toNat + outvoted x b exec) (2 ^ 32 - 1)) }

/-- The bundle holds an engine instruction. -/
def usesEngine (exec : List (Slot × Instr)) : Bool := exec.any fun x => x.1 == .t || x.1 == .c

/-- The updates of a bundle that commits; in Trace its code address and TS go to the trace buffer (R389). -/
def commitActs (s : State) (c : Fin 256) (b : Bundle) (exec : List (Slot × Instr)) (outs : List ((Slot × Instr) × Out))
    (more : List Result) (stage : List Act) : List Act :=
  let fused := ((s.cores[c]).cont.fused).isSome
  let acts := [.ids 8, .core c fun x => x.issued b (voteHold b exec) s.nextId exec outs more] ++
    outs.flatMap (fun x => x.2.acts) ++ stage
  acts ++ (if s.hub.dbg = 1 then [.report (.traced c (s.cores[c]).cont.pc (s.cores[c]).cont.ts)] else []) ++
    (if usesEngine exec then bundleFollows (applyActs s acts) c s.jobs.length ((List.range 8).map (s.nextId + ·)) else []) ++
    (if b.kind = 1 && fused then [decoupleAct c] else if b.kind = 2 && fused then [rejoinedAct c] else []) ++
    (if b.qp then qpAcks s c else []) ++ outs.flatMap (fun x => x.2.last) ++
    [.clock ((s.cores[c]).clk + 1 + voteHold b exec)]

/-- What a bundle that passed the checks of decode may do, its gang aside. -/
inductive Verdict
  | held (h : Held)
  | trap (t : Trap)
  | refused (t : Trap) (acts : List Act)
  | wait (acts : List Act) (asked : Bool)
  | commit (exec : List (Slot × Instr)) (outs : List ((Slot × Instr) × Out)) (more : List Result) (stage : List Act)

/-- What the last stages say of a bundle. -/
def Stage.verdict (exec : List (Slot × Instr)) (outs : List ((Slot × Instr) × Out)) : Stage → Verdict
  | .trap t => .trap t
  | .refused t acts => .refused t acts
  | .wait acts asked => .wait acts asked
  | .go more acts => .commit exec outs more acts
  | .made now acts _ => .commit exec outs [] (now ++ acts)
  | .first => .wait [] true

/-- A bundle that has made an access whose effect stands goes on with it: its checks were made before, nothing holds it but its last
stages, and only what the access returns traps (R160, R316; log entry 107). -/
def askedVerdict (s : State) (c : Fin 256) (a : Asked) : Verdict :=
  let exec := a.bundle.ops.filter (executes (s.cores[c]).cont (bundleLeaf (s.cores[c]).cont a.bundle.ops))
  let outs := exec.map fun x =>
    let o : Out := match slotEff x.2 ((envOf s c exec x).checked a) with | .ok o => o | .error _ => {}
    (x, if a.early && (ownAccess x.2).isSome then { o with acts := [] } else o)
  (runStages (fun x => (envOf s c exec x).checked a) s c (earlyActs c outs) exec).verdict exec outs

/-- A bundle that passed the checks of decode is held, traps, or may commit. A hold that does something, such as an arrival
at a barrier, does it only while every other check passes (R257); a bundle that traps has no effect (R76). -/
def checkedVerdict (s : State) (c : Fin 256) (b : Bundle) : Verdict :=
  let k := (s.cores[c]).cont
  let leaf := bundleLeaf k b.ops
  let exec := b.ops.filter (executes k leaf)
  let holds := bundleHolds s c b.kind exec
  match holds.find? fun h => h.acts.isEmpty with
  | some h => .held { h with timed := holds.flatMap Held.timed }
  | none =>
    match stallTrap k leaf b.ops with
    | some t => .trap t
    | none =>
      match runSlots s c b.triple exec b.ops with
      | .error t => .trap t
      | .ok outs =>
        match outs.findSome? fun x => x.2.after with
        | some t => .trap t
        | none =>
          match holds with
          | h :: _ => .held h
          | [] => (runStages (envOf s c exec) s c (earlyActs c outs) exec).verdict exec outs

/-- What the bundle of a core may do: the one presented, or the one that has made an access. -/
def verdict (s : State) (c : Fin 256) (b : Bundle) : Verdict :=
  match (s.cores[c]).cont.asked with
  | some a => askedVerdict s c a
  | none => checkedVerdict s c b

/-! ### Fetch (R91) -/

/-- What fetching a bundle gives; `made` where the core's bundle has made an access, and is there still. -/
inductive Fetched | word (w : BitVec 512) (acts : List Act) | trap (t : Trap) (acts : List Act) | made

/-- The device virtual address of a core's next bundle. -/
def codeAddr (s : State) (k : Cont) : Nat := (s.parts[k.part]).imgBase.toNat * 4096 + 64 * k.pc.toNat

/-- The bytes of a bundle come into a core's fetch buffer, whose sectors are counted the first time (R196, R299; log entry 87). -/
def bufferActs (s : State) (c : Fin 256) (pa : Nat) : List Act :=
  if (s.cores[c]).inBuf.contains pa then []
  else touchBytes s pa 64 ++ [.core c fun x => { x with inBuf := pa :: x.inBuf }]

/-- The bundle at the code address of a core (R91): its bytes are those the core's fetch buffer holds. A poisoned one names the
code address in TINFO, and slot 0, since the cause is no slot's (log entry 87). -/
def fetch (s : State) (c : Fin 256) : Fetched :=
  let x := s.cores[c]
  let k := x.cont
  if k.asked.isSome then .made
  else if k.pc.toNat < 1 ∨ (s.parts[k.part]).imgN < k.pc.toNat then .trap (decodeTrap .illbundle 0 1 0 true 0) []
  else match engineWalk s k.part (codeAddr s k) false with
    | (.ok pa _ _ _, acts) =>
      let acts := acts ++ bufferActs (applyActs s acts) c pa
      if (poisonIn x.codeBad pa 64).isSome then .trap ⟨.poison, poisonInfo 3 .s (k.pc.setWidth 24)⟩ acts
      else .word (BitVec.ofNat 512 (memNat x.code pa 64)) acts
    | (_, acts) => .trap (decodeTrap .illbundle 0 15 0 true 0) acts

/-! ### The members of a gang (R261) -/

/-- A coupled member lets its gang spend a cycle (R261): it has stopped, spends a STALL or bubble cycle of its own, or its
next bundle is neither held nor traps. -/
def memberReady (s : State) (c : Fin 256) : Bool :=
  let x := s.cores[c]
  if x.cont.stopped || x.cont.owed != 0 then true
  else
    let s1 := applyActs s [.cont c Cont.landDue]
    match fetch s1 c with
    | .trap _ _ => false
    | .made => match verdict s1 c { ops := [] } with | .commit _ _ _ _ => true | _ => false
    | .word w acts =>
      match bundleOfWord w with
      | .error _ => false
      | .ok b =>
        (decodeChecks (s1.cores[c]).cont b.ops).isNone &&
          (match verdict (applyActs s1 acts) c b with | .commit _ _ _ _ => true | _ => false)

/-- Every other coupled member that has still to spend this cycle lets it be spent (R261). -/
def gangReady (s : State) (c : Fin 256) : Bool :=
  (coupledWith s c).all fun o => decide ((s.cores[c]).cont.acyc < (s.cores[o]).cont.acyc) || memberReady s o

/-- A bundle makes an access whose effect stands: what its slots found is kept while it waits (R78). -/
def askAct (s : State) (c : Fin 256) (b : Bundle) : Act :=
  .cont c fun k => { k with asked := k.asked <|> some ⟨b, s.mem, k.bmap, k.t, false⟩ }

/-- A bundle that passed the checks of decode: it is held, traps, or commits. -/
def issueChecked (s : State) (c : Fin 256) (b : Bundle) : List Act :=
  match verdict s c b with
  | .held h => heldActs s c h
  | .trap t => trapActs s c t
  | .refused t acts => acts ++ trapActs (applyActs s acts) c t
  | .wait acts asked => heldActs s c { acts := if asked then askAct s c b :: acts else acts }
  | .commit exec outs more stage =>
    if gangReady s c then commitActs s c b exec outs more stage else heldActs s c {}

/-- A bundle is presented: what is due lands, then the checks of R70 are made, unless the gang is held (R261); one that has made an
access goes on instead (R160, R316). -/
def issueBundle (s : State) (c : Fin 256) (b : Except Trap Bundle) : List Act :=
  let land : List Act := [.cont c Cont.landDue]
  let s1 := applyActs s land
  land ++
    if gangHeld s1 c then heldActs s1 c {}
    else match (s1.cores[c]).cont.asked, b with
      | some a, _ => issueChecked s1 c a.bundle
      | none, .error t => trapActs s1 c t
      | none, .ok b =>
        match decodeChecks (s1.cores[c]).cont b.ops with
        | some t => trapActs s1 c t
        | none => issueChecked s1 c b

/-- A core may issue: its continuation runs, is not stopped, owes no cycle, is not ahead of its gang (R261), and stands at
no boundary at which a requested pre-emption takes it (R345). -/
def canIssue (s : State) (c : Fin 256) : Bool :=
  let x := s.cores[c]
  x.phase == .running && !x.cont.stopped && x.cont.owed == 0 && !x.gated && !(gangAhead s c) &&
    (!(preemptable x) || gangBehind s c)

/-- The bundle of a core that has its turn; a core that may not issue does nothing. -/
def issueOn (s : State) (b : Except Trap Bundle) : Host.Outcome State Fault Refusal :=
  if canIssue s s.focus then perform s (issueBundle s s.focus b) else perform s []

/-- The meaning of a slot instruction as a step: its bundle is issued by the core that has its turn. -/
def issueOne (s : State) (i : Instr) : Host.Outcome State Fault Refusal := issueOn s (.ok (Bundle.single i))

/-! ### Cycles in which nothing issues -/

/-- RESULT_LANDING (R73, R75, R107, R350): a core spends one of the STALL or bubble cycles it owes, or a stopped core
one cycle while results are in flight; the results due in it land. A cycle that is held for its gang is held for it (R261). -/
def resultLanding (s : State) (c : Fin 256) : List Act :=
  let x := s.cores[c]
  if x.phase != .running then []
  else if x.cont.owed = 0 && !(x.cont.stopped && !x.cont.pend.isEmpty) then []
  else if !x.cont.stopped && gangAhead s c then []
  else if !x.cont.stopped && (gangHeld s c || !(gangReady s c)) then heldActs s c {}
  else
    [.core c fun x => { x with clk := x.clk + 1
                               cont := let k := x.cont.landDue; { k with acyc := k.acyc + 1, owed := k.owed - 1 } },
     .clock (x.clk + 1)]

/-! ### A trap as a step of its own (R339) -/

/-- A core's next bundle executes the slot of an index with its TRIPLE bit set, so that a vote on it can be lost (R337). -/
def votesOn (s : State) (c : Fin 256) (slot : W64) : Bool :=
  match fetch s c with
  | .trap _ _ | .made => false
  | .word w _ =>
    match bundleOfWord w with
    | .error _ => false
    | .ok b =>
      let k := (s.cores[c]).cont
      b.ops.any fun x => slot == BitVec.ofNat 64 (slotIx x.1) && tripled b.triple x && executes k (bundleLeaf k b.ops) x

/-- TRAP_ENTRY (R339): a trap whose cause lies outside the instructions, such as a lost vote, is taken; a bundle that has made an
access completes first (log entry 107). -/
def trapEntry (s : State) (c : Fin 256) (cause : Cause) (info : W64) : List Act :=
  if (s.cores[c]).phase == .running && (s.cores[c]).cont.asked.isNone && (cause != .novote || votesOn s c info) then trapActs s c ⟨cause, info⟩ else []

end Sys2Proof.Machine
end

