-- ==== Sys2Proof/Machine/EventCore.lean ====
section
/-! DEFINITION. The events of the core and its banks, each as a step; one that is not enabled changes nothing. -/

namespace Sys2Proof.Machine

/-- POWER_ON_RESET (R387). -/
def execPowerOnReset (s : State) : Host.Outcome State Fault Refusal :=
  perform s (powerOn s)

/-- BUNDLE_ISSUE (R76). -/
def execBundleIssue (w : BitVec 512) (s : State) : Host.Outcome State Fault Refusal :=
  issueOn s (bundleOfWord w)

/-- DECOUPLE (R262). -/
def execDecouple (s : State) : Host.Outcome State Fault Refusal :=
  issueOn s (.ok { kind := 1, ops := [] })

/-- REJOIN (R262). -/
def execRejoin (s : State) : Host.Outcome State Fault Refusal :=
  issueOn s (.ok { kind := 2, ops := [] })

/-- WINDSHAFT_REJOIN (R262). -/
def execWindshaftRejoin (tile : Fin 64) (s : State) : Host.Outcome State Fault Refusal :=
  perform s (windshaft s tile)

/-- RESULT_LANDING (R75). -/
def execResultLanding (c : Fin 256) (s : State) : Host.Outcome State Fault Refusal :=
  perform s (resultLanding s c)

/-- LOAD_DATA_VALID (R141). -/
def execLoadDataValid (c : Fin 256) (s : State) : Host.Outcome State Fault Refusal :=
  perform s (loadValid s c)

/-- OWNER_PORT_BEAT (R141). -/
def execOwnerPortBeat (b : Fin 4096) (s : State) : Host.Outcome State Fault Refusal :=
  perform s (ownerBeat s b)

/-- PARK_SATISFY (R152). -/
def execParkSatisfy (b : Fin 4096) (s : State) : Host.Outcome State Fault Refusal :=
  perform s (parkSatisfied s b)

end Sys2Proof.Machine
end

