-- ==== Sys2Proof/Machine/EventEngine.lean ====
section
/-! DEFINITION. The events of the engines, each as a step; one that is not enabled changes nothing. -/

namespace Sys2Proof.Machine

/-- MILLER_PLACEMENT (R230). -/
def execMillerPlacement (job : Nat) (s : State) : Host.Outcome State Fault Refusal :=
  perform s (millerPlacement s job)

/-- TILE_PIECE_END (R239). -/
def execTilePieceEnd (job : Nat) (piece : Nat) (shipErr : Option Nat) (s : State) : Host.Outcome State Fault Refusal :=
  perform s (tilePieceEnd s job piece shipErr)

/-- STONE_JOB (R228). -/
def execStoneJob (stone : Fin 64) (s : State) : Host.Outcome State Fault Refusal :=
  perform s (stoneRuns s stone)

/-- COPY_PIECE_START (R187). -/
def execCopyPieceStart (job : Nat) (piece : Nat) (s : State) : Host.Outcome State Fault Refusal :=
  perform s (copyStart s job piece)

/-- PAGER_RECORD_APPEND (R189). -/
def execPagerRecordAppend (handle : Nat) (s : State) : Host.Outcome State Fault Refusal :=
  perform s (pagerAppend s handle)

/-- COPY_PIECE_END (R184). -/
def execCopyPieceEnd (job : Nat) (piece : Nat) (s : State) : Host.Outcome State Fault Refusal :=
  perform s (pieceEnd s job piece)

/-- TAG_COMPLETION (R201). -/
def execTagCompletion (job : Nat) (s : State) : Host.Outcome State Fault Refusal :=
  perform s (tagComplete s job)

/-- STREAM_FILL (R163). -/
def execStreamFill (c : Fin 256) (z : Fin 8) (s : State) : Host.Outcome State Fault Refusal :=
  perform s (streamFill s c z)

/-- STREAM_DRAIN (R164). -/
def execStreamDrain (c : Fin 256) (z : Fin 8) (s : State) : Host.Outcome State Fault Refusal :=
  perform s (streamDrain s c z)

/-- TLBI_COMPLETION (R191). -/
def execTlbiCompletion (job : Nat) (s : State) : Host.Outcome State Fault Refusal :=
  perform s (tlbiComplete s job)

/-- INVAL_WATCHDOG_EXPIRY (R192). -/
def execInvalWatchdogExpiry (job : Nat) (s : State) : Host.Outcome State Fault Refusal :=
  perform s (invalExpire s job)

/-- PAGER_RESOLVE_RESTART (R188). -/
def execPagerResolveRestart (handle : Nat) (s : State) : Host.Outcome State Fault Refusal :=
  perform s (pagerResolve s handle codeOk)

/-- PAGER_RESOLVE_NOFRAME (R188). -/
def execPagerResolveNoframe (handle : Nat) (s : State) : Host.Outcome State Fault Refusal :=
  perform s (pagerResolve s handle codeNoframe)

/-- PAGER_RESOLVE_ACCESS (R188). -/
def execPagerResolveAccess (handle : Nat) (s : State) : Host.Outcome State Fault Refusal :=
  perform s (pagerResolve s handle codeAccess)

end Sys2Proof.Machine
end

