-- ==== Sys2Proof/Machine/EventFabric.lean ====
section
/-! DEFINITION. The events of system space, the fabric and the platform, each as a step; one that is not enabled changes nothing. -/

namespace Sys2Proof.Machine

/-- LAUNCH (R385). -/
def execLaunch (src : Half) (v : W64) (s : State) : Host.Outcome State Fault Refusal :=
  perform s (registerWrite s src (0) v)

/-- DOORBELL (R330). -/
def execDoorbell (src : Half) (q : Fin 131072) (tail : W32) (s : State) : Host.Outcome State Fault Refusal :=
  perform s (registerWrite s src (0x10000000 + 8 * q.val) (tail.setWidth 64))

/-- IMGBASE_WRITE (R394). -/
def execImgbaseWrite (src : Half) (p : Fin 16) (v : W64) (s : State) : Host.Outcome State Fault Refusal :=
  perform s (registerWrite s src (0x300 + 8 * p.val) v)

/-- PARTCFG_WRITE (R331). -/
def execPartcfgWrite (src : Half) (p : Fin 16) (v : W64) (s : State) : Host.Outcome State Fault Refusal :=
  perform s (registerWrite s src (0x100 + 8 * p.val) v)

/-- SLOTTAB_WRITE (R265). -/
def execSlottabWrite (src : Half) (quad : Fin 16) (core : Fin 16) (v : W64) (s : State) : Host.Outcome State Fault Refusal :=
  perform s (registerWrite s src (0x109000 + 0x10000 * (quad.val / 4) + 0x80 * (quad.val % 4) + 8 * core.val) v)

/-- BMAP_WRITE (R140). -/
def execBmapWrite (src : Half) (c : Fin 256) (w : Byte) (v : W64) (s : State) : Host.Outcome State Fault Refusal :=
  perform s (registerWrite s src (0x1000000 + 0x800 * c.val + 8 * w.toNat) v)

/-- POWER_P0 (R390). -/
def execPowerP0 (src : Half) (s : State) : Host.Outcome State Fault Refusal :=
  perform s (registerWrite s src (0x68) 0)

/-- POWER_P1 (R390). -/
def execPowerP1 (src : Half) (s : State) : Host.Outcome State Fault Refusal :=
  perform s (registerWrite s src (0x68) 1)

/-- POWER_C1 (R390). -/
def execPowerC1 (src : Half) (s : State) : Host.Outcome State Fault Refusal :=
  perform s (registerWrite s src (0x68) 2)

/-- POWER_C3 (R390). -/
def execPowerC3 (src : Half) (s : State) : Host.Outcome State Fault Refusal :=
  perform s (registerWrite s src (0x68) 3)

/-- POWER_D3 (R390). -/
def execPowerD3 (src : Half) (s : State) : Host.Outcome State Fault Refusal :=
  perform s (registerWrite s src (0x68) 4)

/-- POWER_TRANSITION_END (R390). -/
def execPowerTransitionEnd (s : State) : Host.Outcome State Fault Refusal :=
  perform s (powerEnd s)

/-- REGISTER_WRITE (R2). -/
def execRegisterWrite (src : Half) (offset : W32) (v : W64) (s : State) : Host.Outcome State Fault Refusal :=
  perform s (registerWrite s src (offset.toNat) v)

/-- ABSTAIN_WRITE (R378). -/
def execAbstainWrite (src : Half) (addr : BitVec 46) (v : W32) (s : State) : Host.Outcome State Fault Refusal :=
  perform s (abstainWrite s src addr v)

/-- RD (R371). -/
def execRd (p : Packet) (s : State) : Host.Outcome State Fault Refusal :=
  perform s (acceptPacket s { p with kind := 1 })

/-- WR (R371). -/
def execWr (p : Packet) (s : State) : Host.Outcome State Fault Refusal :=
  perform s (acceptPacket s { p with kind := 2 })

/-- ATOM (R371). -/
def execAtom (p : Packet) (s : State) : Host.Outcome State Fault Refusal :=
  perform s (acceptPacket s { p with kind := 3 })

/-- POST_PACKET (R371). -/
def execPostPacket (p : Packet) (s : State) : Host.Outcome State Fault Refusal :=
  perform s (acceptPacket s { p with kind := 4 })

/-- SPAWN_PACKET (R374). -/
def execSpawnPacket (p : Packet) (s : State) : Host.Outcome State Fault Refusal :=
  perform s (acceptPacket s { p with kind := 5 })

/-- RED (R379). -/
def execRed (p : Packet) (s : State) : Host.Outcome State Fault Refusal :=
  perform s (acceptPacket s { p with kind := 6 })

/-- ABST (R379). -/
def execAbst (p : Packet) (s : State) : Host.Outcome State Fault Refusal :=
  perform s (acceptPacket s { p with kind := 7 })

/-- REDUCTION_DEADLINE (R379). -/
def execReductionDeadline (ctx : BitVec 46) (s : State) : Host.Outcome State Fault Refusal :=
  perform s (reductionDeadline s ctx)

/-- RESULT (R380). -/
def execResult (p : Packet) (s : State) : Host.Outcome State Fault Refusal :=
  perform s (acceptPacket s { p with kind := 8 })

/-- FENCE_PACKET (R377). -/
def execFencePacket (c : Fin 256) (s : State) : Host.Outcome State Fault Refusal :=
  perform s (fencePacket s c)

/-- FENCEDONE (R377). -/
def execFencedone (c : Fin 256) (sw : Nat) (s : State) : Host.Outcome State Fault Refusal :=
  perform s (fenceDone s c sw)

/-- TIME (R382). -/
def execTime (master : Half) (offset : W32) (s : State) : Host.Outcome State Fault Refusal :=
  perform s (packetTime s master offset)

/-- MGMT (R371). -/
def execMgmt (p : Packet) (s : State) : Host.Outcome State Fault Refusal :=
  perform s (packetMgmt p)

/-- ATTESTATION_REQUEST (R391). -/
def execAttestationRequest (nonce : BitVec 256) (s : State) : Host.Outcome State Fault Refusal :=
  perform s (attestation s nonce)

/-- MCW (R381). -/
def execMcw (p : Packet) (s : State) : Host.Outcome State Fault Refusal :=
  perform s (acceptPacket s { p with kind := 0x0D })

/-- RDRSP (R373). -/
def execRdrsp (p : Packet) (s : State) : Host.Outcome State Fault Refusal :=
  perform s (packetRdrsp s p)

/-- WRACK (R373). -/
def execWrack (p : Packet) (s : State) : Host.Outcome State Fault Refusal :=
  perform s (packetWrack s p)

/-- ATRSP (R373). -/
def execAtrsp (p : Packet) (s : State) : Host.Outcome State Fault Refusal :=
  perform s (packetAtrsp s p)

/-- SPRSP (R373). -/
def execSprsp (p : Packet) (s : State) : Host.Outcome State Fault Refusal :=
  perform s (packetSprsp s p)

/-- ERR (R373). -/
def execErr (p : Packet) (s : State) : Host.Outcome State Fault Refusal :=
  perform s (packetErr s p)

/-- UNKNOWN_PACKET (R371). -/
def execUnknownPacket (p : Packet) (s : State) : Host.Outcome State Fault Refusal :=
  perform s (acceptUnknown s p)

/-- RESPONSE_TIMEOUT (R373). -/
def execResponseTimeout (req : Nat) (s : State) : Host.Outcome State Fault Refusal :=
  perform s (responseTimeout s req)

/-- SECURITY_STATE_CHANGE (R389). -/
def execSecurityStateChange (target : Sec) (s : State) : Host.Outcome State Fault Refusal :=
  perform s (securityChange s target)

/-- HALT (R389). -/
def execHalt (c : Fin 256) (s : State) : Host.Outcome State Fault Refusal :=
  perform s (haltCore s c)

/-- OVERTEMP_P1 (R392). -/
def execOvertempP1 (s : State) : Host.Outcome State Fault Refusal :=
  perform s (overtempP1 s)

/-- OVERTEMP_SHUTDOWN (R392). -/
def execOvertempShutdown (s : State) : Host.Outcome State Fault Refusal :=
  perform s (overtempShutdown s)

end Sys2Proof.Machine
end

