-- ==== Sys2Proof/Machine/EventStack.lean ====
section
/-! DEFINITION. The events of the stacks and tests, each as a step; one that is not enabled changes nothing. -/

namespace Sys2Proof.Machine

/-- MEMORY_REQUEST (R286). -/
def execMemoryRequest (home : Fin 512) (s : State) : Host.Outcome State Fault Refusal :=
  perform s (memoryRequest s home)

/-- WHEEL_STEP (R295). -/
def execWheelStep (home : Fin 512) (s : State) : Host.Outcome State Fault Refusal :=
  perform s (wheelStep s home)

/-- REFRESH_INTERVAL (R296). -/
def execRefreshInterval (home : Fin 512) (s : State) : Host.Outcome State Fault Refusal :=
  perform s (refreshInterval s home)

/-- STACK_SELF_TEST_START (R302). -/
def execStackSelfTestStart (stack : Fin 8) (s : State) : Host.Outcome State Fault Refusal :=
  perform s (selfTestStart s stack)

/-- SELF_TEST_PARK_ROW (R302). -/
def execSelfTestParkRow (stack : Fin 8) (s : State) : Host.Outcome State Fault Refusal :=
  perform s (selfTestPark s stack)

/-- SELF_TEST_MARCH_END (R302). -/
def execSelfTestMarchEnd (stack : Fin 8) (pass : Bool) (s : State) : Host.Outcome State Fault Refusal :=
  perform s (selfTestMarch s stack pass)

/-- SELF_TEST_RESTORE_ROW (R302). -/
def execSelfTestRestoreRow (stack : Fin 8) (s : State) : Host.Outcome State Fault Refusal :=
  perform s (selfTestRestore s stack)

/-- LOGIC_TEST_START (R363). -/
def execLogicTestStart (die : Fin 4) (s : State) : Host.Outcome State Fault Refusal :=
  perform s (logicTestStart s die)

/-- LOGIC_TEST_END (R363). -/
def execLogicTestEnd (die : Fin 4) (pass : Bool) (s : State) : Host.Outcome State Fault Refusal :=
  perform s (logicTestEnd s die pass)

end Sys2Proof.Machine
end

