-- ==== Sys2Proof/Machine/EventSync.lean ====
section
/-! DEFINITION. The events of synchronisation, each as a step; one that is not enabled changes nothing. -/

namespace Sys2Proof.Machine

/-- BAR_ARRIVAL (R257). -/
def execBarArrival (c : Fin 256) (s : State) : Host.Outcome State Fault Refusal :=
  perform s (barArrive s c)

/-- CIRCUIT_HEADER (R266). -/
def execCircuitHeader (c : Fin 256) (s : State) : Host.Outcome State Fault Refusal :=
  perform s (circuitHeader s c)

/-- CIRCUIT_DATA_ARRIVAL (R266). -/
def execCircuitDataArrival (c : Fin 256) (s : State) : Host.Outcome State Fault Refusal :=
  perform s (circuitData s c)

/-- GIVE_ATTACH (R167). -/
def execGiveAttach (b : Fin 4096) (s : State) : Host.Outcome State Fault Refusal :=
  perform s (giveAttach s b)

/-- FLAG_INCREMENT_ARRIVAL (R251). -/
def execFlagIncrementArrival (i : Nat) (s : State) : Host.Outcome State Fault Refusal :=
  perform s (flagArrival s i)

/-- PARK_APPEND (R323). -/
def execParkAppend (quad : Fin 16) (i : Nat) (s : State) : Host.Outcome State Fault Refusal :=
  perform s (parkAppend s quad i)

end Sys2Proof.Machine
end

