-- ==== Sys2Proof/Machine/EventTask.lean ====
section
/-! DEFINITION. The events of freezes, the dispatcher and margins, each as a step; one that is not enabled changes nothing. -/

namespace Sys2Proof.Machine

/-- TRAP_ENTRY (R339). -/
def execTrapEntry (c : Fin 256) (cause : Cause) (tinfo : W64) (s : State) : Host.Outcome State Fault Refusal :=
  perform s (trapEntry s c cause tinfo)

/-- CONTEXT_SAVE_COMPLETE (R339). -/
def execContextSaveComplete (c : Fin 256) (s : State) : Host.Outcome State Fault Refusal :=
  perform s (saveComplete s c)

/-- PREEMPTION_REQUEST (R345). -/
def execPreemptionRequest (c : Fin 256) (s : State) : Host.Outcome State Fault Refusal :=
  perform s (preemptionRequest s c)

/-- PREEMPTION_TAKEN (R345). -/
def execPreemptionTaken (c : Fin 256) (s : State) : Host.Outcome State Fault Refusal :=
  perform s (preemptionTaken s c)

/-- CONTEXT_SPILL (R347). -/
def execContextSpill (c : Fin 256) (s : State) : Host.Outcome State Fault Refusal :=
  perform s (contextSpill s c)

/-- RESUME (R343). -/
def execResume (c : Fin 256) (s : State) : Host.Outcome State Fault Refusal :=
  perform s (resumeSeat s c)

/-- DISPATCH_PICK (R327). -/
def execDispatchPick (die : Fin 4) (s : State) : Host.Outcome State Fault Refusal :=
  perform s (dispatchPick s die)

/-- PICKUP (R319). -/
def execPickup (c : Fin 256) (s : State) : Host.Outcome State Fault Refusal :=
  perform s (pickup s c)

/-- LATE_TRANSITION (R355). -/
def execLateTransition (unit : LateUnit) (op : LateOp) (attempt : Fin 3) (s : State) : Host.Outcome State Fault Refusal :=
  perform s (lateTransition s unit op attempt)

/-- REPLAY_WINDOW_EXPIRY (R358). -/
def execReplayWindowExpiry (c : Fin 256) (s : State) : Host.Outcome State Fault Refusal :=
  perform s (replayWindowExpiry s c)

/-- STRETCH_EXPIRY (R357). -/
def execStretchExpiry (c : Fin 256) (s : State) : Host.Outcome State Fault Refusal :=
  perform s (stretchExpiry s c)

/-- ISSUE_WATCHDOG_EXPIRY (R354). -/
def execIssueWatchdogExpiry (c : Fin 256) (s : State) : Host.Outcome State Fault Refusal :=
  perform s (watchdogExpiry s c)

end Sys2Proof.Machine
end

