-- ==== Sys2Proof/Machine/ExecControl.lean ====
section
/-! DEFINITION. The instructions of the Y slot, each as a step: its bundle is issued by the core that has its turn. -/

namespace Sys2Proof.Machine

/-- YNOP (R69). -/
def execYnop (g : Guard) (s : State) : Host.Outcome State Fault Refusal :=
  issueOne s (.ynop g)

/-- TREE (R109). -/
def execTree (g : Guard) (shape : Shape) (t1 : Test) (t2 : Test) (t3 : Test) (t4 : Test) (group : BitVec 2) (count : BitVec 2) (s : State) : Host.Outcome State Fault Refusal :=
  issueOne s (.tree g shape t1 t2 t3 t4 group count)

/-- JMP_BT (R106). -/
def execJmpBt (g : Guard) (n : Fin 16) (s : State) : Host.Outcome State Fault Refusal :=
  issueOne s (.jmpBt g n)

/-- JMP_ADDR (R106). -/
def execJmpAddr (g : Guard) (addr : W32) (s : State) : Host.Outcome State Fault Refusal :=
  issueOne s (.jmpAddr g addr)

/-- CALL_BT (R106). -/
def execCallBt (g : Guard) (k : Fin 16) (n : Fin 16) (s : State) : Host.Outcome State Fault Refusal :=
  issueOne s (.callBt g k n)

/-- CALL_ADDR (R106). -/
def execCallAddr (g : Guard) (k : Fin 16) (addr : W32) (s : State) : Host.Outcome State Fault Refusal :=
  issueOne s (.callAddr g k addr)

/-- RET (R106). -/
def execRet (g : Guard) (n : Fin 16) (s : State) : Host.Outcome State Fault Refusal :=
  issueOne s (.ret g n)

/-- LOOP (R110). -/
def execLoop (g : Guard) (j : Bool) (n : Fin 16) (s : State) : Host.Outcome State Fault Refusal :=
  issueOne s (.loop g j n)

/-- LOOP_SET (R110). -/
def execLoopSet (g : Guard) (j : Bool) (a : Spec) (s : State) : Host.Outcome State Fault Refusal :=
  issueOne s (.loopSet g j a)

/-- BSEL (R112). -/
def execBsel (g : Guard) (d : Spec) (a : Spec) (b : Spec) (s : State) : Host.Outcome State Fault Refusal :=
  issueOne s (.bsel g d a b)

/-- POST (R252). -/
def execPost (g : Guard) (flag : Fin 32) (target : PostTo) (mask : Half) (n : BitVec 11) (s : State) : Host.Outcome State Fault Refusal :=
  issueOne s (.post g flag target mask n)

/-- WAITF (R253). -/
def execWaitf (g : Guard) (flag : Fin 32) (mask : Half) (n : Half) (s : State) : Host.Outcome State Fault Refusal :=
  issueOne s (.waitf g flag mask n)

/-- WAITANY (R254). -/
def execWaitany (g : Guard) (a : Spec) (s : State) : Host.Outcome State Fault Refusal :=
  issueOne s (.waitany g a)

/-- WAITALL (R254). -/
def execWaitall (g : Guard) (a : Spec) (s : State) : Host.Outcome State Fault Refusal :=
  issueOne s (.waitall g a)

/-- FFR (R254). -/
def execFfr (g : Guard) (d : Spec) (a : Spec) (s : State) : Host.Outcome State Fault Refusal :=
  issueOne s (.ffr g d a)

/-- BAR (R257). -/
def execBar (g : Guard) (mask : Half) (s : State) : Host.Outcome State Fault Refusal :=
  issueOne s (.bar g mask)

/-- WATCH (R258). -/
def execWatch (g : Guard) (base : Spec) (s : State) : Host.Outcome State Fault Refusal :=
  issueOne s (.watch g base)

/-- WAITM (R259). -/
def execWaitm (g : Guard) (d : Spec) (s : State) : Host.Outcome State Fault Refusal :=
  issueOne s (.waitm g d)

/-- FENCE (R255). -/
def execFence (g : Guard) (mask : Half) (scope : FenceScope) (s : State) : Host.Outcome State Fault Refusal :=
  issueOne s (.fence g mask scope)

/-- QFENCE (R256). -/
def execQfence (g : Guard) (qmask : Byte) (s : State) : Host.Outcome State Fault Refusal :=
  issueOne s (.qfence g qmask)

/-- SEND (R266). -/
def execSend (g : Guard) (data : KData) (core : Spec) (s : State) : Host.Outcome State Fault Refusal :=
  issueOne s (.send g data core)

/-- RECV (R267). -/
def execRecv (g : Guard) (d : KData) (core : Spec) (s : State) : Host.Outcome State Fault Refusal :=
  issueOne s (.recv g d core)

/-- GIVE (R167). -/
def execGive (g : Guard) (wsrc : Byte) (core : Spec) (wdst : Byte) (flag : Fin 32) (fe : Bool) (s : State) : Host.Outcome State Fault Refusal :=
  issueOne s (.give g wsrc core wdst flag fe)

/-- OPENW (R170). -/
def execOpenw (g : Guard) (w : Byte) (s : State) : Host.Outcome State Fault Refusal :=
  issueOne s (.openw g w)

/-- CLOSEW (R170). -/
def execClosew (g : Guard) (w : Byte) (s : State) : Host.Outcome State Fault Refusal :=
  issueOne s (.closew g w)

/-- FUSE (R260). -/
def execFuse (g : Guard) (members : BitVec 4) (s : State) : Host.Outcome State Fault Refusal :=
  issueOne s (.fuse g members)

/-- SPAWN (R316). -/
def execSpawn (g : Guard) (d : Spec) (q : Spec) (rec : Spec) (s : State) : Host.Outcome State Fault Refusal :=
  issueOne s (.spawn g d q rec)

/-- SUSPEND_QUEUE (R322). -/
def execSuspendQueue (g : Guard) (q : Spec) (bt : Fin 16) (s : State) : Host.Outcome State Fault Refusal :=
  issueOne s (.suspendQueue g q bt)

/-- SUSPEND_FLAG (R323). -/
def execSuspendFlag (g : Guard) (q : Spec) (bt : Fin 16) (flag : Fin 32) (count : BitVec 11) (s : State) : Host.Outcome State Fault Refusal :=
  issueOne s (.suspendFlag g q bt flag count)

/-- SUSPEND_WATCH (R323). -/
def execSuspendWatch (g : Guard) (q : Spec) (bt : Fin 16) (s : State) : Host.Outcome State Fault Refusal :=
  issueOne s (.suspendWatch g q bt)

/-- YIELD (R324). -/
def execYield (g : Guard) (s : State) : Host.Outcome State Fault Refusal :=
  issueOne s (.yield g)

/-- DONE (R325). -/
def execDone (g : Guard) (s : State) : Host.Outcome State Fault Refusal :=
  issueOne s (.done g)

/-- TSTAMP (R326). -/
def execTstamp (g : Guard) (d : Spec) (s : State) : Host.Outcome State Fault Refusal :=
  issueOne s (.tstamp g d)

/-- TSTAMP_HUB (R326). -/
def execTstampHub (g : Guard) (d : Spec) (s : State) : Host.Outcome State Fault Refusal :=
  issueOne s (.tstampHub g d)

/-- TSTAMP_SET (R326). -/
def execTstampSet (g : Guard) (a : Spec) (s : State) : Host.Outcome State Fault Refusal :=
  issueOne s (.tstampSet g a)

/-- CMPT_SCALAR (R351). -/
def execCmptScalar (g : Guard) (a : Spec) (b : Spec) (s : State) : Host.Outcome State Fault Refusal :=
  issueOne s (.cmptScalar g a b)

/-- CMPT_VECTOR (R351). -/
def execCmptVector (g : Guard) (a : KData) (b : KData) (m : Option (Fin 48)) (s : State) : Host.Outcome State Fault Refusal :=
  issueOne s (.cmptVector g a b m)

/-- TRAP (R348). -/
def execTrap (g : Guard) (imm : Half) (s : State) : Host.Outcome State Fault Refusal :=
  issueOne s (.trap g imm)

/-- RFT (R349). -/
def execRft (g : Guard) (s : State) : Host.Outcome State Fault Refusal :=
  issueOne s (.rft g)

/-- IDLE (R350). -/
def execIdle (g : Guard) (s : State) : Host.Outcome State Fault Refusal :=
  issueOne s (.idle g)

/-- BRAKE (R352). -/
def execBrake (g : Guard) (kind : BrakeKind) (t : Spec) (s : State) : Host.Outcome State Fault Refusal :=
  issueOne s (.brake g kind t)

/-- BRAKE_CLEAR (R352). -/
def execBrakeClear (g : Guard) (kind : BrakeKind) (t : Spec) (s : State) : Host.Outcome State Fault Refusal :=
  issueOne s (.brakeClear g kind t)

end Sys2Proof.Machine
end

