-- ==== Sys2Proof/Machine/ExecCopy.lean ====
section
/-! DEFINITION. The instructions of the C slot, each as a step: its bundle is issued by the core that has its turn. -/

namespace Sys2Proof.Machine

/-- CNOP (R69). -/
def execCnop (g : Guard) (s : State) : Host.Outcome State Fault Refusal :=
  issueOne s (.cnop g)

/-- CPY (R182). -/
def execCpy (g : Guard) (o : COps) (s : State) : Host.Outcome State Fault Refusal :=
  issueOne s (.cpy g o)

/-- GATH (R182). -/
def execGath (g : Guard) (o : COps) (s : State) : Host.Outcome State Fault Refusal :=
  issueOne s (.gath g o)

/-- SCAT (R182). -/
def execScat (g : Guard) (o : COps) (s : State) : Host.Outcome State Fault Refusal :=
  issueOne s (.scat g o)

/-- MCAST (R182). -/
def execMcast (g : Guard) (o : COps) (s : State) : Host.Outcome State Fault Refusal :=
  issueOne s (.mcast g o)

/-- FLUME (R193). -/
def execFlume (g : Guard) (o : COps) (s : State) : Host.Outcome State Fault Refusal :=
  issueOne s (.flume g o)

/-- STRM (R195). -/
def execStrm (g : Guard) (t : Fin 32) (z : Fin 8) (out : Bool) (width : BitVec 2) (cls : BitVec 4) (queue : Fin 4) (s : State) : Host.Outcome State Fault Refusal :=
  issueOne s (.strm g t z out width cls queue)

/-- UNSTRM (R195). -/
def execUnstrm (g : Guard) (z : Fin 8) (tag : Fin 64) (cls : BitVec 4) (queue : Fin 4) (post : FlagTo) (s : State) : Host.Outcome State Fault Refusal :=
  issueOne s (.unstrm g z tag cls queue post)

/-- CATOM (R194). -/
def execCatom (g : Guard) (o : COps) (op : AtomOp) (s : State) : Host.Outcome State Fault Refusal :=
  issueOne s (.catom g o op)

/-- WSA (R290). -/
def execWsa (g : Guard) (o : COps) (s : State) : Host.Outcome State Fault Refusal :=
  issueOne s (.wsa g o)

/-- WRED (R291). -/
def execWred (g : Guard) (o : COps) (s : State) : Host.Outcome State Fault Refusal :=
  issueOne s (.wred g o)

/-- WSTAT (R293). -/
def execWstat (g : Guard) (o : COps) (s : State) : Host.Outcome State Fault Refusal :=
  issueOne s (.wstat g o)

/-- REDF (R197). -/
def execRedf (g : Guard) (o : COps) (op : RedOp) (s : State) : Host.Outcome State Fault Refusal :=
  issueOne s (.redf g o op)

/-- HOT (R196). -/
def execHot (g : Guard) (o : COps) (clr : Bool) (s : State) : Host.Outcome State Fault Refusal :=
  issueOne s (.hot g o clr)

/-- TLBI (R190). -/
def execTlbi (g : Guard) (a : Spec) (kind : TlbiKind) (part : BitVec 4) (tag : Fin 64) (s : State) : Host.Outcome State Fault Refusal :=
  issueOne s (.tlbi g a kind part tag)

end Sys2Proof.Machine
end

