-- ==== Sys2Proof/Machine/ExecMemory.lean ====
section
/-! DEFINITION. The instructions of the L and K slots, each as a step: its bundle is issued by the core that has its turn. -/

namespace Sys2Proof.Machine

/-- LNOP (R69). -/
def execLnop (g : Guard) (s : State) : Host.Outcome State Fault Refusal :=
  issueOne s (.lnop g)

/-- LD (R146). -/
def execLd (g : Guard) (base : Spec) (index : Spec) (scale : BitVec 2) (off : BitVec 12) (cls : BitVec 4) (width : Width) (dest : LoadTo) (s : State) : Host.Outcome State Fault Refusal :=
  issueOne s (.ld g base index scale off cls width dest)

/-- LDE (R151). -/
def execLde (g : Guard) (base : Spec) (index : Spec) (scale : BitVec 2) (off : BitVec 12) (cls : BitVec 4) (sx : Bool) (s : State) : Host.Outcome State Fault Refusal :=
  issueOne s (.lde g base index scale off cls sx)

/-- LDF (R151). -/
def execLdf (g : Guard) (base : Spec) (index : Spec) (scale : BitVec 2) (off : BitVec 12) (cls : BitVec 4) (sx : Bool) (s : State) : Host.Outcome State Fault Refusal :=
  issueOne s (.ldf g base index scale off cls sx)

/-- LDX (R160). -/
def execLdx (g : Guard) (e : Fin 64) (off : BitVec 24) (width : XWidth) (s : State) : Host.Outcome State Fault Refusal :=
  issueOne s (.ldx g e off width)

/-- AMO (R153). -/
def execAmo (g : Guard) (base : Spec) (val : Spec) (op : AmoOp) (cls : BitVec 4) (wide : Bool) (s : State) : Host.Outcome State Fault Refusal :=
  issueOne s (.amo g base val op cls wide)

/-- LBST (R157). -/
def execLbst (g : Guard) (base : Spec) (cls : BitVec 4) (sel : Bool) (s : State) : Host.Outcome State Fault Refusal :=
  issueOne s (.lbst g base cls sel)

/-- KNOP (R69). -/
def execKnop (g : Guard) (s : State) : Host.Outcome State Fault Refusal :=
  issueOne s (.knop g)

/-- ST (R148). -/
def execSt (g : Guard) (base : Spec) (src : StoreFrom) (off : BitVec 12) (cls : BitVec 4) (width : Width) (s : State) : Host.Outcome State Fault Refusal :=
  issueOne s (.st g base src off cls width)

/-- STF (R151). -/
def execStf (g : Guard) (base : Spec) (src : KData) (off : BitVec 12) (cls : BitVec 4) (s : State) : Host.Outcome State Fault Refusal :=
  issueOne s (.stf g base src off cls)

/-- STE (R151). -/
def execSte (g : Guard) (base : Spec) (src : KData) (off : BitVec 12) (cls : BitVec 4) (s : State) : Host.Outcome State Fault Refusal :=
  issueOne s (.ste g base src off cls)

/-- STX (R160). -/
def execStx (g : Guard) (e : Fin 64) (src : Spec) (off : BitVec 24) (width : XWidth) (s : State) : Host.Outcome State Fault Refusal :=
  issueOne s (.stx g e src off width)

/-- BST (R154). -/
def execBst (g : Guard) (base : Spec) (buf : Byte) (mode : BstMode) (cls : BitVec 4) (s : State) : Host.Outcome State Fault Refusal :=
  issueOne s (.bst g base buf mode cls)

/-- STM (R149). -/
def execStm (g : Guard) (base : Spec) (src : KData) (off : BitVec 12) (cls : BitVec 4) (width : Width) (p : Fin 48) (s : State) : Host.Outcome State Fault Refusal :=
  issueOne s (.stm g base src off cls width p)

end Sys2Proof.Machine
end

