-- ==== Sys2Proof/Machine/ExecScalar.lean ====
section
/-! DEFINITION. The instructions of the S slot, each as a step: its bundle is issued by the core that has its turn. -/

namespace Sys2Proof.Machine

/-- NOP (R69). -/
def execNop (g : Guard) (s : State) : Host.Outcome State Fault Refusal :=
  issueOne s (.nop g)

/-- ADD (R92). -/
def execAdd (g : Guard) (d : Spec) (a : Spec) (b : Spec) (s : State) : Host.Outcome State Fault Refusal :=
  issueOne s (.add g d a b)

/-- SUB (R92). -/
def execSub (g : Guard) (d : Spec) (a : Spec) (b : Spec) (s : State) : Host.Outcome State Fault Refusal :=
  issueOne s (.sub g d a b)

/-- AND (R92). -/
def execAnd (g : Guard) (d : Spec) (a : Spec) (b : Spec) (s : State) : Host.Outcome State Fault Refusal :=
  issueOne s (.and g d a b)

/-- OR (R92). -/
def execOr (g : Guard) (d : Spec) (a : Spec) (b : Spec) (s : State) : Host.Outcome State Fault Refusal :=
  issueOne s (.or g d a b)

/-- XOR (R92). -/
def execXor (g : Guard) (d : Spec) (a : Spec) (b : Spec) (s : State) : Host.Outcome State Fault Refusal :=
  issueOne s (.xor g d a b)

/-- SHL (R92). -/
def execShl (g : Guard) (d : Spec) (a : Spec) (b : Spec) (s : State) : Host.Outcome State Fault Refusal :=
  issueOne s (.shl g d a b)

/-- SHR (R92). -/
def execShr (g : Guard) (d : Spec) (a : Spec) (b : Spec) (s : State) : Host.Outcome State Fault Refusal :=
  issueOne s (.shr g d a b)

/-- SAR (R92). -/
def execSar (g : Guard) (d : Spec) (a : Spec) (b : Spec) (s : State) : Host.Outcome State Fault Refusal :=
  issueOne s (.sar g d a b)

/-- MUL (R92). -/
def execMul (g : Guard) (d : Spec) (a : Spec) (b : Spec) (s : State) : Host.Outcome State Fault Refusal :=
  issueOne s (.mul g d a b)

/-- MULH (R92). -/
def execMulh (g : Guard) (d : Spec) (a : Spec) (b : Spec) (s : State) : Host.Outcome State Fault Refusal :=
  issueOne s (.mulh g d a b)

/-- MULHU (R92). -/
def execMulhu (g : Guard) (d : Spec) (a : Spec) (b : Spec) (s : State) : Host.Outcome State Fault Refusal :=
  issueOne s (.mulhu g d a b)

/-- MIN (R92). -/
def execMin (g : Guard) (d : Spec) (a : Spec) (b : Spec) (s : State) : Host.Outcome State Fault Refusal :=
  issueOne s (.min g d a b)

/-- MAX (R92). -/
def execMax (g : Guard) (d : Spec) (a : Spec) (b : Spec) (s : State) : Host.Outcome State Fault Refusal :=
  issueOne s (.max g d a b)

/-- MINU (R92). -/
def execMinu (g : Guard) (d : Spec) (a : Spec) (b : Spec) (s : State) : Host.Outcome State Fault Refusal :=
  issueOne s (.minu g d a b)

/-- MAXU (R92). -/
def execMaxu (g : Guard) (d : Spec) (a : Spec) (b : Spec) (s : State) : Host.Outcome State Fault Refusal :=
  issueOne s (.maxu g d a b)

/-- ADDI (R93). -/
def execAddi (g : Guard) (d : Spec) (a : Spec) (imm : BitVec 26) (s : State) : Host.Outcome State Fault Refusal :=
  issueOne s (.addi g d a imm)

/-- ANDI (R93). -/
def execAndi (g : Guard) (d : Spec) (a : Spec) (imm : BitVec 26) (s : State) : Host.Outcome State Fault Refusal :=
  issueOne s (.andi g d a imm)

/-- ORI (R93). -/
def execOri (g : Guard) (d : Spec) (a : Spec) (imm : BitVec 26) (s : State) : Host.Outcome State Fault Refusal :=
  issueOne s (.ori g d a imm)

/-- XORI (R93). -/
def execXori (g : Guard) (d : Spec) (a : Spec) (imm : BitVec 26) (s : State) : Host.Outcome State Fault Refusal :=
  issueOne s (.xori g d a imm)

/-- SHLI (R93). -/
def execShli (g : Guard) (d : Spec) (a : Spec) (imm : BitVec 26) (s : State) : Host.Outcome State Fault Refusal :=
  issueOne s (.shli g d a imm)

/-- SHRI (R93). -/
def execShri (g : Guard) (d : Spec) (a : Spec) (imm : BitVec 26) (s : State) : Host.Outcome State Fault Refusal :=
  issueOne s (.shri g d a imm)

/-- SARI (R93). -/
def execSari (g : Guard) (d : Spec) (a : Spec) (imm : BitVec 26) (s : State) : Host.Outcome State Fault Refusal :=
  issueOne s (.sari g d a imm)

/-- LEA (R94). -/
def execLea (g : Guard) (d : Spec) (a : Spec) (wdelta : Byte) (odelta : Half) (s : State) : Host.Outcome State Fault Refusal :=
  issueOne s (.lea g d a wdelta odelta)

/-- LI (R95). -/
def execLi (g : Guard) (d : Spec) (imm : BitVec 34) (s : State) : Host.Outcome State Fault Refusal :=
  issueOne s (.li g d imm)

/-- LUI (R95). -/
def execLui (g : Guard) (d : Spec) (imm : W32) (s : State) : Host.Outcome State Fault Refusal :=
  issueOne s (.lui g d imm)

/-- CLZ (R96). -/
def execClz (g : Guard) (d : Spec) (a : Spec) (s : State) : Host.Outcome State Fault Refusal :=
  issueOne s (.clz g d a)

/-- POPC (R96). -/
def execPopc (g : Guard) (d : Spec) (a : Spec) (s : State) : Host.Outcome State Fault Refusal :=
  issueOne s (.popc g d a)

/-- BFX (R97). -/
def execBfx (g : Guard) (d : Spec) (a : Spec) (pos : BitVec 6) (len1 : BitVec 6) (sx : Bool) (s : State) : Host.Outcome State Fault Refusal :=
  issueOne s (.bfx g d a pos len1 sx)

/-- BFI (R97). -/
def execBfi (g : Guard) (d : Spec) (a : Spec) (b : Spec) (pos : BitVec 6) (len1 : BitVec 6) (s : State) : Host.Outcome State Fault Refusal :=
  issueOne s (.bfi g d a b pos len1)

/-- SEL (R98). -/
def execSel (g : Guard) (d : Spec) (a : Spec) (b : Spec) (p : Fin 48) (s : State) : Host.Outcome State Fault Refusal :=
  issueOne s (.sel g d a b p)

/-- CMP (R99). -/
def execCmp (g : Guard) (pd : Fin 48) (a : Spec) (b : Spec) (cond : Cond) (s : State) : Host.Outcome State Fault Refusal :=
  issueOne s (.cmp g pd a b cond)

/-- CMPI (R99). -/
def execCmpi (g : Guard) (pd : Fin 48) (a : Spec) (imm : BitVec 24) (cond : Cond) (s : State) : Host.Outcome State Fault Refusal :=
  issueOne s (.cmpi g pd a imm cond)

/-- PAND (R100). -/
def execPand (g : Guard) (pd : Fin 48) (pa : Fin 48) (pb : Fin 48) (s : State) : Host.Outcome State Fault Refusal :=
  issueOne s (.pand g pd pa pb)

/-- POR (R100). -/
def execPor (g : Guard) (pd : Fin 48) (pa : Fin 48) (pb : Fin 48) (s : State) : Host.Outcome State Fault Refusal :=
  issueOne s (.por g pd pa pb)

/-- PXOR (R100). -/
def execPxor (g : Guard) (pd : Fin 48) (pa : Fin 48) (pb : Fin 48) (s : State) : Host.Outcome State Fault Refusal :=
  issueOne s (.pxor g pd pa pb)

/-- PANDN (R100). -/
def execPandn (g : Guard) (pd : Fin 48) (pa : Fin 48) (pb : Fin 48) (s : State) : Host.Outcome State Fault Refusal :=
  issueOne s (.pandn g pd pa pb)

/-- PSET (R100). -/
def execPset (g : Guard) (pd : Fin 48) (a : Spec) (s : State) : Host.Outcome State Fault Refusal :=
  issueOne s (.pset g pd a)

/-- VEXT (R101). -/
def execVext (g : Guard) (d : Spec) (src : Spec) (lane : BitVec 6) (sx : Bool) (s : State) : Host.Outcome State Fault Refusal :=
  issueOne s (.vext g d src lane sx)

/-- MFC (R102). -/
def execMfc (g : Guard) (d : Spec) (n : Byte) (s : State) : Host.Outcome State Fault Refusal :=
  issueOne s (.mfc g d n)

/-- MTC (R102). -/
def execMtc (g : Guard) (n : Byte) (a : Spec) (s : State) : Host.Outcome State Fault Refusal :=
  issueOne s (.mtc g n a)

/-- SETBT_ADDR (R105). -/
def execSetbtAddr (g : Guard) (n : Fin 16) (addr : W32) (s : State) : Host.Outcome State Fault Refusal :=
  issueOne s (.setbtAddr g n addr)

/-- SETBT_REG (R105). -/
def execSetbtReg (g : Guard) (n : Fin 16) (a : Spec) (s : State) : Host.Outcome State Fault Refusal :=
  issueOne s (.setbtReg g n a)

/-- TSET (R104). -/
def execTset (g : Guard) (t : Fin 32) (field : Fin 16) (a : Spec) (s : State) : Host.Outcome State Fault Refusal :=
  issueOne s (.tset g t field a)

/-- TGET (R104). -/
def execTget (g : Guard) (d : Spec) (t : Fin 32) (field : Fin 16) (s : State) : Host.Outcome State Fault Refusal :=
  issueOne s (.tget g d t field)

end Sys2Proof.Machine
end

