-- ==== Sys2Proof/Machine/ExecTile.lean ====
section
/-! DEFINITION. The instructions of the T slot, each as a step: its bundle is issued by the core that has its turn. -/

namespace Sys2Proof.Machine

/-- TNOP (R210). -/
def execTnop (g : Guard) (s : State) : Host.Outcome State Fault Refusal :=
  issueOne s (.tnop g)

/-- TADD (R217). -/
def execTadd (g : Guard) (o : TOps) (s : State) : Host.Outcome State Fault Refusal :=
  issueOne s (.tadd g o)

/-- TSUB (R217). -/
def execTsub (g : Guard) (o : TOps) (s : State) : Host.Outcome State Fault Refusal :=
  issueOne s (.tsub g o)

/-- TMUL (R217). -/
def execTmul (g : Guard) (o : TOps) (s : State) : Host.Outcome State Fault Refusal :=
  issueOne s (.tmul g o)

/-- TMAX (R217). -/
def execTmax (g : Guard) (o : TOps) (s : State) : Host.Outcome State Fault Refusal :=
  issueOne s (.tmax g o)

/-- TMIN (R217). -/
def execTmin (g : Guard) (o : TOps) (s : State) : Host.Outcome State Fault Refusal :=
  issueOne s (.tmin g o)

/-- TABS (R218). -/
def execTabs (g : Guard) (o : TOps) (s : State) : Host.Outcome State Fault Refusal :=
  issueOne s (.tabs g o)

/-- TCVT (R218). -/
def execTcvt (g : Guard) (o : TOps) (s : State) : Host.Outcome State Fault Refusal :=
  issueOne s (.tcvt g o)

/-- TSCL (R219). -/
def execTscl (g : Guard) (o : TOps) (s : State) : Host.Outcome State Fault Refusal :=
  issueOne s (.tscl g o)

/-- TFILL (R220). -/
def execTfill (g : Guard) (o : TOps) (s : State) : Host.Outcome State Fault Refusal :=
  issueOne s (.tfill g o)

/-- TSEL (R221). -/
def execTsel (g : Guard) (o : TOps) (s : State) : Host.Outcome State Fault Refusal :=
  issueOne s (.tsel g o)

/-- TLUT (R222). -/
def execTlut (g : Guard) (o : TOps) (s : State) : Host.Outcome State Fault Refusal :=
  issueOne s (.tlut g o)

/-- TRED (R223). -/
def execTred (g : Guard) (o : TOps) (s : State) : Host.Outcome State Fault Refusal :=
  issueOne s (.tred g o)

/-- TMMA (R225). -/
def execTmma (g : Guard) (o : TOps) (s : State) : Host.Outcome State Fault Refusal :=
  issueOne s (.tmma g o)

/-- TSPM (R226). -/
def execTspm (g : Guard) (o : TOps) (s : State) : Host.Outcome State Fault Refusal :=
  issueOne s (.tspm g o)

/-- PLACE (R237). -/
def execPlace (g : Guard) (op : TileOp) (o : TOps) (s : State) : Host.Outcome State Fault Refusal :=
  issueOne s (.place g op o)

end Sys2Proof.Machine
end

