-- ==== Sys2Proof/Machine/ExecVector.lean ====
section
/-! DEFINITION. The instructions of the V0 and V1 slots, each as a step: its bundle is issued by the core that has its turn. -/

namespace Sys2Proof.Machine

/-- VNOP (R69). -/
def execVnop (g : Guard) (cl : Cluster) (s : State) : Host.Outcome State Fault Refusal :=
  issueOne s (.vnop g cl)

/-- VADD (R120). -/
def execVadd (g : Guard) (cl : Cluster) (d : Spec) (a : Spec) (b : Spec) (s : State) : Host.Outcome State Fault Refusal :=
  issueOne s (.vadd g cl d a b)

/-- VSUB (R120). -/
def execVsub (g : Guard) (cl : Cluster) (d : Spec) (a : Spec) (b : Spec) (s : State) : Host.Outcome State Fault Refusal :=
  issueOne s (.vsub g cl d a b)

/-- VMUL (R120). -/
def execVmul (g : Guard) (cl : Cluster) (d : Spec) (a : Spec) (b : Spec) (s : State) : Host.Outcome State Fault Refusal :=
  issueOne s (.vmul g cl d a b)

/-- VMULH (R120). -/
def execVmulh (g : Guard) (cl : Cluster) (d : Spec) (a : Spec) (b : Spec) (s : State) : Host.Outcome State Fault Refusal :=
  issueOne s (.vmulh g cl d a b)

/-- VMIN (R120). -/
def execVmin (g : Guard) (cl : Cluster) (d : Spec) (a : Spec) (b : Spec) (s : State) : Host.Outcome State Fault Refusal :=
  issueOne s (.vmin g cl d a b)

/-- VMAX (R120). -/
def execVmax (g : Guard) (cl : Cluster) (d : Spec) (a : Spec) (b : Spec) (s : State) : Host.Outcome State Fault Refusal :=
  issueOne s (.vmax g cl d a b)

/-- VAND (R120). -/
def execVand (g : Guard) (cl : Cluster) (d : Spec) (a : Spec) (b : Spec) (s : State) : Host.Outcome State Fault Refusal :=
  issueOne s (.vand g cl d a b)

/-- VOR (R120). -/
def execVor (g : Guard) (cl : Cluster) (d : Spec) (a : Spec) (b : Spec) (s : State) : Host.Outcome State Fault Refusal :=
  issueOne s (.vor g cl d a b)

/-- VXOR (R120). -/
def execVxor (g : Guard) (cl : Cluster) (d : Spec) (a : Spec) (b : Spec) (s : State) : Host.Outcome State Fault Refusal :=
  issueOne s (.vxor g cl d a b)

/-- VSHL (R120). -/
def execVshl (g : Guard) (cl : Cluster) (d : Spec) (a : Spec) (b : Spec) (s : State) : Host.Outcome State Fault Refusal :=
  issueOne s (.vshl g cl d a b)

/-- VSHR (R120). -/
def execVshr (g : Guard) (cl : Cluster) (d : Spec) (a : Spec) (b : Spec) (s : State) : Host.Outcome State Fault Refusal :=
  issueOne s (.vshr g cl d a b)

/-- VSAR (R120). -/
def execVsar (g : Guard) (cl : Cluster) (d : Spec) (a : Spec) (b : Spec) (s : State) : Host.Outcome State Fault Refusal :=
  issueOne s (.vsar g cl d a b)

/-- VABS (R120). -/
def execVabs (g : Guard) (cl : Cluster) (d : Spec) (a : Spec) (s : State) : Host.Outcome State Fault Refusal :=
  issueOne s (.vabs g cl d a)

/-- VNEG (R120). -/
def execVneg (g : Guard) (cl : Cluster) (d : Spec) (a : Spec) (s : State) : Host.Outcome State Fault Refusal :=
  issueOne s (.vneg g cl d a)

/-- VCMP (R121). -/
def execVcmp (g : Guard) (cl : Cluster) (pd : Fin 48) (a : Spec) (b : Spec) (cond : Cond) (s : State) : Host.Outcome State Fault Refusal :=
  issueOne s (.vcmp g cl pd a b cond)

/-- VADDS (R120). -/
def execVadds (g : Guard) (cl : Cluster) (d : Spec) (a : Spec) (b : Spec) (s : State) : Host.Outcome State Fault Refusal :=
  issueOne s (.vadds g cl d a b)

/-- VSUBS (R120). -/
def execVsubs (g : Guard) (cl : Cluster) (d : Spec) (a : Spec) (b : Spec) (s : State) : Host.Outcome State Fault Refusal :=
  issueOne s (.vsubs g cl d a b)

/-- VMINU (R120). -/
def execVminu (g : Guard) (cl : Cluster) (d : Spec) (a : Spec) (b : Spec) (s : State) : Host.Outcome State Fault Refusal :=
  issueOne s (.vminu g cl d a b)

/-- VMAXU (R120). -/
def execVmaxu (g : Guard) (cl : Cluster) (d : Spec) (a : Spec) (b : Spec) (s : State) : Host.Outcome State Fault Refusal :=
  issueOne s (.vmaxu g cl d a b)

/-- FADD (R123). -/
def execFadd (g : Guard) (cl : Cluster) (d : Spec) (a : Spec) (b : Spec) (rm : Rm) (s : State) : Host.Outcome State Fault Refusal :=
  issueOne s (.fadd g cl d a b rm)

/-- FSUB (R123). -/
def execFsub (g : Guard) (cl : Cluster) (d : Spec) (a : Spec) (b : Spec) (rm : Rm) (s : State) : Host.Outcome State Fault Refusal :=
  issueOne s (.fsub g cl d a b rm)

/-- FMUL (R123). -/
def execFmul (g : Guard) (cl : Cluster) (d : Spec) (a : Spec) (b : Spec) (rm : Rm) (s : State) : Host.Outcome State Fault Refusal :=
  issueOne s (.fmul g cl d a b rm)

/-- FMA (R123). -/
def execFma (g : Guard) (cl : Cluster) (d : Spec) (a : Spec) (b : Spec) (c : Spec) (rm : Rm) (s : State) : Host.Outcome State Fault Refusal :=
  issueOne s (.fma g cl d a b c rm)

/-- FMS (R123). -/
def execFms (g : Guard) (cl : Cluster) (d : Spec) (a : Spec) (b : Spec) (c : Spec) (rm : Rm) (s : State) : Host.Outcome State Fault Refusal :=
  issueOne s (.fms g cl d a b c rm)

/-- FNMA (R123). -/
def execFnma (g : Guard) (cl : Cluster) (d : Spec) (a : Spec) (b : Spec) (c : Spec) (rm : Rm) (s : State) : Host.Outcome State Fault Refusal :=
  issueOne s (.fnma g cl d a b c rm)

/-- FMIN (R124). -/
def execFmin (g : Guard) (cl : Cluster) (d : Spec) (a : Spec) (b : Spec) (s : State) : Host.Outcome State Fault Refusal :=
  issueOne s (.fmin g cl d a b)

/-- FMAX (R124). -/
def execFmax (g : Guard) (cl : Cluster) (d : Spec) (a : Spec) (b : Spec) (s : State) : Host.Outcome State Fault Refusal :=
  issueOne s (.fmax g cl d a b)

/-- FABS (R124). -/
def execFabs (g : Guard) (cl : Cluster) (d : Spec) (a : Spec) (s : State) : Host.Outcome State Fault Refusal :=
  issueOne s (.fabs g cl d a)

/-- FNEG (R124). -/
def execFneg (g : Guard) (cl : Cluster) (d : Spec) (a : Spec) (s : State) : Host.Outcome State Fault Refusal :=
  issueOne s (.fneg g cl d a)

/-- FDIV (R123). -/
def execFdiv (g : Guard) (cl : Cluster) (d : Spec) (a : Spec) (b : Spec) (rm : Rm) (s : State) : Host.Outcome State Fault Refusal :=
  issueOne s (.fdiv g cl d a b rm)

/-- FSQRT (R123). -/
def execFsqrt (g : Guard) (cl : Cluster) (d : Spec) (a : Spec) (rm : Rm) (s : State) : Host.Outcome State Fault Refusal :=
  issueOne s (.fsqrt g cl d a rm)

/-- FRCP (R125). -/
def execFrcp (g : Guard) (cl : Cluster) (d : Spec) (a : Spec) (s : State) : Host.Outcome State Fault Refusal :=
  issueOne s (.frcp g cl d a)

/-- FRSQ (R125). -/
def execFrsq (g : Guard) (cl : Cluster) (d : Spec) (a : Spec) (s : State) : Host.Outcome State Fault Refusal :=
  issueOne s (.frsq g cl d a)

/-- FCMP (R126). -/
def execFcmp (g : Guard) (cl : Cluster) (pd : Fin 48) (a : Spec) (b : Spec) (cond : FCond) (s : State) : Host.Outcome State Fault Refusal :=
  issueOne s (.fcmp g cl pd a b cond)

/-- FCLASS (R124). -/
def execFclass (g : Guard) (cl : Cluster) (d : Spec) (a : Spec) (s : State) : Host.Outcome State Fault Refusal :=
  issueOne s (.fclass g cl d a)

/-- CVT (R127). -/
def execCvt (g : Guard) (cl : Cluster) (d : Spec) (a : Spec) (src : VFmt) (dst : VFmt) (rm : Rm) (s : State) : Host.Outcome State Fault Refusal :=
  issueOne s (.cvt g cl d a src dst rm)

/-- VPACK (R128). -/
def execVpack (g : Guard) (cl : Cluster) (d : Spec) (a : Spec) (b : Spec) (kind : PackKind) (rm : Rm) (s : State) : Host.Outcome State Fault Refusal :=
  issueOne s (.vpack g cl d a b kind rm)

/-- VUNPK (R128). -/
def execVunpk (g : Guard) (cl : Cluster) (d : Spec) (a : Spec) (kind : PackKind) (half : Bool) (s : State) : Host.Outcome State Fault Refusal :=
  issueOne s (.vunpk g cl d a kind half)

/-- PLEXT (R129). -/
def execPlext (g : Guard) (cl : Cluster) (d : Spec) (a : Spec) (k1 : Fin 8) (centred : Bool) (q : Fin 4) (s : State) : Host.Outcome State Fault Refusal :=
  issueOne s (.plext g cl d a k1 centred q)

/-- PLINS (R129). -/
def execPlins (g : Guard) (cl : Cluster) (d : Spec) (a : Spec) (k1 : Fin 8) (centred : Bool) (q : Fin 4) (rm : Rm) (s : State) : Host.Outcome State Fault Refusal :=
  issueOne s (.plins g cl d a k1 centred q rm)

/-- VMOV (R130). -/
def execVmov (g : Guard) (cl : Cluster) (d : Spec) (a : Spec) (s : State) : Host.Outcome State Fault Refusal :=
  issueOne s (.vmov g cl d a)

/-- VSEL (R130). -/
def execVsel (g : Guard) (cl : Cluster) (d : Spec) (a : Spec) (b : Spec) (p : Fin 48) (s : State) : Host.Outcome State Fault Refusal :=
  issueOne s (.vsel g cl d a b p)

/-- VLI (R130). -/
def execVli (g : Guard) (cl : Cluster) (d : Spec) (imm : W32) (s : State) : Host.Outcome State Fault Refusal :=
  issueOne s (.vli g cl d imm)

/-- VIOTA (R130). -/
def execViota (g : Guard) (cl : Cluster) (d : Spec) (start : Half) (stride : Byte) (s : State) : Host.Outcome State Fault Refusal :=
  issueOne s (.viota g cl d start stride)

/-- VBCAST (R130). -/
def execVbcast (g : Guard) (cl : Cluster) (d : Spec) (a : Spec) (lane : BitVec 6) (s : State) : Host.Outcome State Fault Refusal :=
  issueOne s (.vbcast g cl d a lane)

/-- VPERM (R130). -/
def execVperm (g : Guard) (cl : Cluster) (d : Spec) (a : Spec) (b : Spec) (s : State) : Host.Outcome State Fault Refusal :=
  issueOne s (.vperm g cl d a b)

/-- VROT (R130). -/
def execVrot (g : Guard) (cl : Cluster) (d : Spec) (a : Spec) (n : BitVec 6) (s : State) : Host.Outcome State Fault Refusal :=
  issueOne s (.vrot g cl d a n)

/-- VBFLY (R130). -/
def execVbfly (g : Guard) (cl : Cluster) (d : Spec) (a : Spec) (st : Fin 6) (s : State) : Host.Outcome State Fault Refusal :=
  issueOne s (.vbfly g cl d a st)

/-- VRADD (R133). -/
def execVradd (g : Guard) (cl : Cluster) (d : Spec) (a : Spec) (pm : Option (Fin 48)) (sat : Bool) (s : State) : Host.Outcome State Fault Refusal :=
  issueOne s (.vradd g cl d a pm sat)

/-- VRMAX (R133). -/
def execVrmax (g : Guard) (cl : Cluster) (d : Spec) (a : Spec) (pm : Option (Fin 48)) (s : State) : Host.Outcome State Fault Refusal :=
  issueOne s (.vrmax g cl d a pm)

/-- VRMIN (R133). -/
def execVrmin (g : Guard) (cl : Cluster) (d : Spec) (a : Spec) (pm : Option (Fin 48)) (s : State) : Host.Outcome State Fault Refusal :=
  issueOne s (.vrmin g cl d a pm)

/-- FRSUM (R133). -/
def execFrsum (g : Guard) (cl : Cluster) (d : Spec) (a : Spec) (pm : Option (Fin 48)) (rm : Rm) (s : State) : Host.Outcome State Fault Refusal :=
  issueOne s (.frsum g cl d a pm rm)

/-- FRMAX (R133). -/
def execFrmax (g : Guard) (cl : Cluster) (d : Spec) (a : Spec) (pm : Option (Fin 48)) (s : State) : Host.Outcome State Fault Refusal :=
  issueOne s (.frmax g cl d a pm)

/-- FRMIN (R133). -/
def execFrmin (g : Guard) (cl : Cluster) (d : Spec) (a : Spec) (pm : Option (Fin 48)) (s : State) : Host.Outcome State Fault Refusal :=
  issueOne s (.frmin g cl d a pm)

/-- XMOV (R134). -/
def execXmov (g : Guard) (cl : Cluster) (d : Spec) (a : Spec) (s : State) : Host.Outcome State Fault Refusal :=
  issueOne s (.xmov g cl d a)

/-- VINS (R131). -/
def execVins (g : Guard) (cl : Cluster) (d : Spec) (a : Spec) (lane : BitVec 6) (s : State) : Host.Outcome State Fault Refusal :=
  issueOne s (.vins g cl d a lane)

/-- VFROMP (R132). -/
def execVfromp (g : Guard) (cl : Cluster) (d : Spec) (p : Fin 48) (s : State) : Host.Outcome State Fault Refusal :=
  issueOne s (.vfromp g cl d p)

/-- VTOP (R132). -/
def execVtop (g : Guard) (cl : Cluster) (pd : Fin 48) (a : Spec) (s : State) : Host.Outcome State Fault Refusal :=
  issueOne s (.vtop g cl pd a)

end Sys2Proof.Machine
end

