-- ==== Sys2Proof/Machine/Dispatch.lean ====
section
/-! DEFINITION. The dispatch: one arm for each constructor of `Instr`, each a call of its meaning. -/

namespace Sys2Proof.Machine

/-- What an instruction or event does to the machine. -/
def exec (i : Instr) (s : State) : Host.Outcome State Fault Refusal :=
  match i with
  | .powerOnReset => Sys2Proof.Machine.execPowerOnReset s
  | .bundleIssue w => Sys2Proof.Machine.execBundleIssue w s
  | .decouple => Sys2Proof.Machine.execDecouple s
  | .rejoin => Sys2Proof.Machine.execRejoin s
  | .windshaftRejoin tile => Sys2Proof.Machine.execWindshaftRejoin tile s
  | .resultLanding c => Sys2Proof.Machine.execResultLanding c s
  | .loadDataValid c => Sys2Proof.Machine.execLoadDataValid c s
  | .ownerPortBeat b => Sys2Proof.Machine.execOwnerPortBeat b s
  | .parkSatisfy b => Sys2Proof.Machine.execParkSatisfy b s
  | .nop g => Sys2Proof.Machine.execNop g s
  | .add g d a b => Sys2Proof.Machine.execAdd g d a b s
  | .sub g d a b => Sys2Proof.Machine.execSub g d a b s
  | .and g d a b => Sys2Proof.Machine.execAnd g d a b s
  | .or g d a b => Sys2Proof.Machine.execOr g d a b s
  | .xor g d a b => Sys2Proof.Machine.execXor g d a b s
  | .shl g d a b => Sys2Proof.Machine.execShl g d a b s
  | .shr g d a b => Sys2Proof.Machine.execShr g d a b s
  | .sar g d a b => Sys2Proof.Machine.execSar g d a b s
  | .mul g d a b => Sys2Proof.Machine.execMul g d a b s
  | .mulh g d a b => Sys2Proof.Machine.execMulh g d a b s
  | .mulhu g d a b => Sys2Proof.Machine.execMulhu g d a b s
  | .min g d a b => Sys2Proof.Machine.execMin g d a b s
  | .max g d a b => Sys2Proof.Machine.execMax g d a b s
  | .minu g d a b => Sys2Proof.Machine.execMinu g d a b s
  | .maxu g d a b => Sys2Proof.Machine.execMaxu g d a b s
  | .addi g d a imm => Sys2Proof.Machine.execAddi g d a imm s
  | .andi g d a imm => Sys2Proof.Machine.execAndi g d a imm s
  | .ori g d a imm => Sys2Proof.Machine.execOri g d a imm s
  | .xori g d a imm => Sys2Proof.Machine.execXori g d a imm s
  | .shli g d a imm => Sys2Proof.Machine.execShli g d a imm s
  | .shri g d a imm => Sys2Proof.Machine.execShri g d a imm s
  | .sari g d a imm => Sys2Proof.Machine.execSari g d a imm s
  | .lea g d a wdelta odelta => Sys2Proof.Machine.execLea g d a wdelta odelta s
  | .li g d imm => Sys2Proof.Machine.execLi g d imm s
  | .lui g d imm => Sys2Proof.Machine.execLui g d imm s
  | .clz g d a => Sys2Proof.Machine.execClz g d a s
  | .popc g d a => Sys2Proof.Machine.execPopc g d a s
  | .bfx g d a pos len1 sx => Sys2Proof.Machine.execBfx g d a pos len1 sx s
  | .bfi g d a b pos len1 => Sys2Proof.Machine.execBfi g d a b pos len1 s
  | .sel g d a b p => Sys2Proof.Machine.execSel g d a b p s
  | .cmp g pd a b cond => Sys2Proof.Machine.execCmp g pd a b cond s
  | .cmpi g pd a imm cond => Sys2Proof.Machine.execCmpi g pd a imm cond s
  | .pand g pd pa pb => Sys2Proof.Machine.execPand g pd pa pb s
  | .por g pd pa pb => Sys2Proof.Machine.execPor g pd pa pb s
  | .pxor g pd pa pb => Sys2Proof.Machine.execPxor g pd pa pb s
  | .pandn g pd pa pb => Sys2Proof.Machine.execPandn g pd pa pb s
  | .pset g pd a => Sys2Proof.Machine.execPset g pd a s
  | .vext g d src lane sx => Sys2Proof.Machine.execVext g d src lane sx s
  | .mfc g d n => Sys2Proof.Machine.execMfc g d n s
  | .mtc g n a => Sys2Proof.Machine.execMtc g n a s
  | .setbtAddr g n addr => Sys2Proof.Machine.execSetbtAddr g n addr s
  | .setbtReg g n a => Sys2Proof.Machine.execSetbtReg g n a s
  | .tset g t field a => Sys2Proof.Machine.execTset g t field a s
  | .tget g d t field => Sys2Proof.Machine.execTget g d t field s
  | .vnop g cl => Sys2Proof.Machine.execVnop g cl s
  | .vadd g cl d a b => Sys2Proof.Machine.execVadd g cl d a b s
  | .vsub g cl d a b => Sys2Proof.Machine.execVsub g cl d a b s
  | .vmul g cl d a b => Sys2Proof.Machine.execVmul g cl d a b s
  | .vmulh g cl d a b => Sys2Proof.Machine.execVmulh g cl d a b s
  | .vmin g cl d a b => Sys2Proof.Machine.execVmin g cl d a b s
  | .vmax g cl d a b => Sys2Proof.Machine.execVmax g cl d a b s
  | .vand g cl d a b => Sys2Proof.Machine.execVand g cl d a b s
  | .vor g cl d a b => Sys2Proof.Machine.execVor g cl d a b s
  | .vxor g cl d a b => Sys2Proof.Machine.execVxor g cl d a b s
  | .vshl g cl d a b => Sys2Proof.Machine.execVshl g cl d a b s
  | .vshr g cl d a b => Sys2Proof.Machine.execVshr g cl d a b s
  | .vsar g cl d a b => Sys2Proof.Machine.execVsar g cl d a b s
  | .vabs g cl d a => Sys2Proof.Machine.execVabs g cl d a s
  | .vneg g cl d a => Sys2Proof.Machine.execVneg g cl d a s
  | .vcmp g cl pd a b cond => Sys2Proof.Machine.execVcmp g cl pd a b cond s
  | .vadds g cl d a b => Sys2Proof.Machine.execVadds g cl d a b s
  | .vsubs g cl d a b => Sys2Proof.Machine.execVsubs g cl d a b s
  | .vminu g cl d a b => Sys2Proof.Machine.execVminu g cl d a b s
  | .vmaxu g cl d a b => Sys2Proof.Machine.execVmaxu g cl d a b s
  | .fadd g cl d a b rm => Sys2Proof.Machine.execFadd g cl d a b rm s
  | .fsub g cl d a b rm => Sys2Proof.Machine.execFsub g cl d a b rm s
  | .fmul g cl d a b rm => Sys2Proof.Machine.execFmul g cl d a b rm s
  | .fma g cl d a b c rm => Sys2Proof.Machine.execFma g cl d a b c rm s
  | .fms g cl d a b c rm => Sys2Proof.Machine.execFms g cl d a b c rm s
  | .fnma g cl d a b c rm => Sys2Proof.Machine.execFnma g cl d a b c rm s
  | .fmin g cl d a b => Sys2Proof.Machine.execFmin g cl d a b s
  | .fmax g cl d a b => Sys2Proof.Machine.execFmax g cl d a b s
  | .fabs g cl d a => Sys2Proof.Machine.execFabs g cl d a s
  | .fneg g cl d a => Sys2Proof.Machine.execFneg g cl d a s
  | .fdiv g cl d a b rm => Sys2Proof.Machine.execFdiv g cl d a b rm s
  | .fsqrt g cl d a rm => Sys2Proof.Machine.execFsqrt g cl d a rm s
  | .frcp g cl d a => Sys2Proof.Machine.execFrcp g cl d a s
  | .frsq g cl d a => Sys2Proof.Machine.execFrsq g cl d a s
  | .fcmp g cl pd a b cond => Sys2Proof.Machine.execFcmp g cl pd a b cond s
  | .fclass g cl d a => Sys2Proof.Machine.execFclass g cl d a s
  | .cvt g cl d a src dst rm => Sys2Proof.Machine.execCvt g cl d a src dst rm s
  | .vpack g cl d a b kind rm => Sys2Proof.Machine.execVpack g cl d a b kind rm s
  | .vunpk g cl d a kind half => Sys2Proof.Machine.execVunpk g cl d a kind half s
  | .plext g cl d a k1 centred q => Sys2Proof.Machine.execPlext g cl d a k1 centred q s
  | .plins g cl d a k1 centred q rm => Sys2Proof.Machine.execPlins g cl d a k1 centred q rm s
  | .vmov g cl d a => Sys2Proof.Machine.execVmov g cl d a s
  | .vsel g cl d a b p => Sys2Proof.Machine.execVsel g cl d a b p s
  | .vli g cl d imm => Sys2Proof.Machine.execVli g cl d imm s
  | .viota g cl d start stride => Sys2Proof.Machine.execViota g cl d start stride s
  | .vbcast g cl d a lane => Sys2Proof.Machine.execVbcast g cl d a lane s
  | .vperm g cl d a b => Sys2Proof.Machine.execVperm g cl d a b s
  | .vrot g cl d a n => Sys2Proof.Machine.execVrot g cl d a n s
  | .vbfly g cl d a st => Sys2Proof.Machine.execVbfly g cl d a st s
  | .vradd g cl d a pm sat => Sys2Proof.Machine.execVradd g cl d a pm sat s
  | .vrmax g cl d a pm => Sys2Proof.Machine.execVrmax g cl d a pm s
  | .vrmin g cl d a pm => Sys2Proof.Machine.execVrmin g cl d a pm s
  | .frsum g cl d a pm rm => Sys2Proof.Machine.execFrsum g cl d a pm rm s
  | .frmax g cl d a pm => Sys2Proof.Machine.execFrmax g cl d a pm s
  | .frmin g cl d a pm => Sys2Proof.Machine.execFrmin g cl d a pm s
  | .xmov g cl d a => Sys2Proof.Machine.execXmov g cl d a s
  | .vins g cl d a lane => Sys2Proof.Machine.execVins g cl d a lane s
  | .vfromp g cl d p => Sys2Proof.Machine.execVfromp g cl d p s
  | .vtop g cl pd a => Sys2Proof.Machine.execVtop g cl pd a s
  | .lnop g => Sys2Proof.Machine.execLnop g s
  | .ld g base index scale off cls width dest => Sys2Proof.Machine.execLd g base index scale off cls width dest s
  | .lde g base index scale off cls sx => Sys2Proof.Machine.execLde g base index scale off cls sx s
  | .ldf g base index scale off cls sx => Sys2Proof.Machine.execLdf g base index scale off cls sx s
  | .ldx g e off width => Sys2Proof.Machine.execLdx g e off width s
  | .amo g base val op cls wide => Sys2Proof.Machine.execAmo g base val op cls wide s
  | .lbst g base cls sel => Sys2Proof.Machine.execLbst g base cls sel s
  | .knop g => Sys2Proof.Machine.execKnop g s
  | .st g base src off cls width => Sys2Proof.Machine.execSt g base src off cls width s
  | .stf g base src off cls => Sys2Proof.Machine.execStf g base src off cls s
  | .ste g base src off cls => Sys2Proof.Machine.execSte g base src off cls s
  | .stx g e src off width => Sys2Proof.Machine.execStx g e src off width s
  | .bst g base buf mode cls => Sys2Proof.Machine.execBst g base buf mode cls s
  | .stm g base src off cls width p => Sys2Proof.Machine.execStm g base src off cls width p s
  | .tnop g => Sys2Proof.Machine.execTnop g s
  | .tadd g o => Sys2Proof.Machine.execTadd g o s
  | .tsub g o => Sys2Proof.Machine.execTsub g o s
  | .tmul g o => Sys2Proof.Machine.execTmul g o s
  | .tmax g o => Sys2Proof.Machine.execTmax g o s
  | .tmin g o => Sys2Proof.Machine.execTmin g o s
  | .tabs g o => Sys2Proof.Machine.execTabs g o s
  | .tcvt g o => Sys2Proof.Machine.execTcvt g o s
  | .tscl g o => Sys2Proof.Machine.execTscl g o s
  | .tfill g o => Sys2Proof.Machine.execTfill g o s
  | .tsel g o => Sys2Proof.Machine.execTsel g o s
  | .tlut g o => Sys2Proof.Machine.execTlut g o s
  | .tred g o => Sys2Proof.Machine.execTred g o s
  | .tmma g o => Sys2Proof.Machine.execTmma g o s
  | .tspm g o => Sys2Proof.Machine.execTspm g o s
  | .place g op o => Sys2Proof.Machine.execPlace g op o s
  | .millerPlacement job => Sys2Proof.Machine.execMillerPlacement job s
  | .tilePieceEnd job piece shipErr => Sys2Proof.Machine.execTilePieceEnd job piece shipErr s
  | .stoneJob stone => Sys2Proof.Machine.execStoneJob stone s
  | .cnop g => Sys2Proof.Machine.execCnop g s
  | .cpy g o => Sys2Proof.Machine.execCpy g o s
  | .gath g o => Sys2Proof.Machine.execGath g o s
  | .scat g o => Sys2Proof.Machine.execScat g o s
  | .mcast g o => Sys2Proof.Machine.execMcast g o s
  | .flume g o => Sys2Proof.Machine.execFlume g o s
  | .strm g t z out width cls queue => Sys2Proof.Machine.execStrm g t z out width cls queue s
  | .unstrm g z tag cls queue post => Sys2Proof.Machine.execUnstrm g z tag cls queue post s
  | .catom g o op => Sys2Proof.Machine.execCatom g o op s
  | .wsa g o => Sys2Proof.Machine.execWsa g o s
  | .wred g o => Sys2Proof.Machine.execWred g o s
  | .wstat g o => Sys2Proof.Machine.execWstat g o s
  | .redf g o op => Sys2Proof.Machine.execRedf g o op s
  | .hot g o clr => Sys2Proof.Machine.execHot g o clr s
  | .tlbi g a kind part tag => Sys2Proof.Machine.execTlbi g a kind part tag s
  | .copyPieceStart job piece => Sys2Proof.Machine.execCopyPieceStart job piece s
  | .pagerRecordAppend handle => Sys2Proof.Machine.execPagerRecordAppend handle s
  | .copyPieceEnd job piece => Sys2Proof.Machine.execCopyPieceEnd job piece s
  | .tagCompletion job => Sys2Proof.Machine.execTagCompletion job s
  | .streamFill c z => Sys2Proof.Machine.execStreamFill c z s
  | .streamDrain c z => Sys2Proof.Machine.execStreamDrain c z s
  | .tlbiCompletion job => Sys2Proof.Machine.execTlbiCompletion job s
  | .invalWatchdogExpiry job => Sys2Proof.Machine.execInvalWatchdogExpiry job s
  | .pagerResolveRestart handle => Sys2Proof.Machine.execPagerResolveRestart handle s
  | .pagerResolveNoframe handle => Sys2Proof.Machine.execPagerResolveNoframe handle s
  | .pagerResolveAccess handle => Sys2Proof.Machine.execPagerResolveAccess handle s
  | .ynop g => Sys2Proof.Machine.execYnop g s
  | .tree g shape t1 t2 t3 t4 group count => Sys2Proof.Machine.execTree g shape t1 t2 t3 t4 group count s
  | .jmpBt g n => Sys2Proof.Machine.execJmpBt g n s
  | .jmpAddr g addr => Sys2Proof.Machine.execJmpAddr g addr s
  | .callBt g k n => Sys2Proof.Machine.execCallBt g k n s
  | .callAddr g k addr => Sys2Proof.Machine.execCallAddr g k addr s
  | .ret g n => Sys2Proof.Machine.execRet g n s
  | .loop g j n => Sys2Proof.Machine.execLoop g j n s
  | .loopSet g j a => Sys2Proof.Machine.execLoopSet g j a s
  | .bsel g d a b => Sys2Proof.Machine.execBsel g d a b s
  | .post g flag target mask n => Sys2Proof.Machine.execPost g flag target mask n s
  | .waitf g flag mask n => Sys2Proof.Machine.execWaitf g flag mask n s
  | .waitany g a => Sys2Proof.Machine.execWaitany g a s
  | .waitall g a => Sys2Proof.Machine.execWaitall g a s
  | .ffr g d a => Sys2Proof.Machine.execFfr g d a s
  | .bar g mask => Sys2Proof.Machine.execBar g mask s
  | .barArrival c => Sys2Proof.Machine.execBarArrival c s
  | .watch g base => Sys2Proof.Machine.execWatch g base s
  | .waitm g d => Sys2Proof.Machine.execWaitm g d s
  | .fence g mask scope => Sys2Proof.Machine.execFence g mask scope s
  | .qfence g qmask => Sys2Proof.Machine.execQfence g qmask s
  | .send g data core => Sys2Proof.Machine.execSend g data core s
  | .recv g d core => Sys2Proof.Machine.execRecv g d core s
  | .circuitHeader c => Sys2Proof.Machine.execCircuitHeader c s
  | .circuitDataArrival c => Sys2Proof.Machine.execCircuitDataArrival c s
  | .give g wsrc core wdst flag fe => Sys2Proof.Machine.execGive g wsrc core wdst flag fe s
  | .giveAttach b => Sys2Proof.Machine.execGiveAttach b s
  | .openw g w => Sys2Proof.Machine.execOpenw g w s
  | .closew g w => Sys2Proof.Machine.execClosew g w s
  | .fuse g members => Sys2Proof.Machine.execFuse g members s
  | .flagIncrementArrival n => Sys2Proof.Machine.execFlagIncrementArrival n s
  | .parkAppend quad n => Sys2Proof.Machine.execParkAppend quad n s
  | .spawn g d q rec => Sys2Proof.Machine.execSpawn g d q rec s
  | .suspendQueue g q bt => Sys2Proof.Machine.execSuspendQueue g q bt s
  | .suspendFlag g q bt flag count => Sys2Proof.Machine.execSuspendFlag g q bt flag count s
  | .suspendWatch g q bt => Sys2Proof.Machine.execSuspendWatch g q bt s
  | .yield g => Sys2Proof.Machine.execYield g s
  | .done g => Sys2Proof.Machine.execDone g s
  | .tstamp g d => Sys2Proof.Machine.execTstamp g d s
  | .tstampHub g d => Sys2Proof.Machine.execTstampHub g d s
  | .tstampSet g a => Sys2Proof.Machine.execTstampSet g a s
  | .cmptScalar g a b => Sys2Proof.Machine.execCmptScalar g a b s
  | .cmptVector g a b m => Sys2Proof.Machine.execCmptVector g a b m s
  | .trap g imm => Sys2Proof.Machine.execTrap g imm s
  | .rft g => Sys2Proof.Machine.execRft g s
  | .idle g => Sys2Proof.Machine.execIdle g s
  | .brake g kind t => Sys2Proof.Machine.execBrake g kind t s
  | .brakeClear g kind t => Sys2Proof.Machine.execBrakeClear g kind t s
  | .trapEntry c cause tinfo => Sys2Proof.Machine.execTrapEntry c cause tinfo s
  | .contextSaveComplete c => Sys2Proof.Machine.execContextSaveComplete c s
  | .preemptionRequest c => Sys2Proof.Machine.execPreemptionRequest c s
  | .preemptionTaken c => Sys2Proof.Machine.execPreemptionTaken c s
  | .contextSpill c => Sys2Proof.Machine.execContextSpill c s
  | .resume c => Sys2Proof.Machine.execResume c s
  | .dispatchPick die => Sys2Proof.Machine.execDispatchPick die s
  | .pickup c => Sys2Proof.Machine.execPickup c s
  | .lateTransition unit op attempt => Sys2Proof.Machine.execLateTransition unit op attempt s
  | .replayWindowExpiry c => Sys2Proof.Machine.execReplayWindowExpiry c s
  | .stretchExpiry c => Sys2Proof.Machine.execStretchExpiry c s
  | .issueWatchdogExpiry c => Sys2Proof.Machine.execIssueWatchdogExpiry c s
  | .memoryRequest home => Sys2Proof.Machine.execMemoryRequest home s
  | .wheelStep home => Sys2Proof.Machine.execWheelStep home s
  | .refreshInterval home => Sys2Proof.Machine.execRefreshInterval home s
  | .stackSelfTestStart stack => Sys2Proof.Machine.execStackSelfTestStart stack s
  | .selfTestParkRow stack => Sys2Proof.Machine.execSelfTestParkRow stack s
  | .selfTestMarchEnd stack pass => Sys2Proof.Machine.execSelfTestMarchEnd stack pass s
  | .selfTestRestoreRow stack => Sys2Proof.Machine.execSelfTestRestoreRow stack s
  | .logicTestStart die => Sys2Proof.Machine.execLogicTestStart die s
  | .logicTestEnd die pass => Sys2Proof.Machine.execLogicTestEnd die pass s
  | .launch src v => Sys2Proof.Machine.execLaunch src v s
  | .doorbell src q tail => Sys2Proof.Machine.execDoorbell src q tail s
  | .imgbaseWrite src p v => Sys2Proof.Machine.execImgbaseWrite src p v s
  | .partcfgWrite src p v => Sys2Proof.Machine.execPartcfgWrite src p v s
  | .slottabWrite src quad core v => Sys2Proof.Machine.execSlottabWrite src quad core v s
  | .bmapWrite src c w v => Sys2Proof.Machine.execBmapWrite src c w v s
  | .powerP0 src => Sys2Proof.Machine.execPowerP0 src s
  | .powerP1 src => Sys2Proof.Machine.execPowerP1 src s
  | .powerC1 src => Sys2Proof.Machine.execPowerC1 src s
  | .powerC3 src => Sys2Proof.Machine.execPowerC3 src s
  | .powerD3 src => Sys2Proof.Machine.execPowerD3 src s
  | .powerTransitionEnd => Sys2Proof.Machine.execPowerTransitionEnd s
  | .registerWrite src offset v => Sys2Proof.Machine.execRegisterWrite src offset v s
  | .abstainWrite src addr v => Sys2Proof.Machine.execAbstainWrite src addr v s
  | .rd p => Sys2Proof.Machine.execRd p s
  | .wr p => Sys2Proof.Machine.execWr p s
  | .atom p => Sys2Proof.Machine.execAtom p s
  | .postPacket p => Sys2Proof.Machine.execPostPacket p s
  | .spawnPacket p => Sys2Proof.Machine.execSpawnPacket p s
  | .red p => Sys2Proof.Machine.execRed p s
  | .abst p => Sys2Proof.Machine.execAbst p s
  | .reductionDeadline ctx => Sys2Proof.Machine.execReductionDeadline ctx s
  | .result p => Sys2Proof.Machine.execResult p s
  | .fencePacket c => Sys2Proof.Machine.execFencePacket c s
  | .fencedone c sw => Sys2Proof.Machine.execFencedone c sw s
  | .time master offset => Sys2Proof.Machine.execTime master offset s
  | .mgmt p => Sys2Proof.Machine.execMgmt p s
  | .attestationRequest nonce => Sys2Proof.Machine.execAttestationRequest nonce s
  | .mcw p => Sys2Proof.Machine.execMcw p s
  | .rdrsp p => Sys2Proof.Machine.execRdrsp p s
  | .wrack p => Sys2Proof.Machine.execWrack p s
  | .atrsp p => Sys2Proof.Machine.execAtrsp p s
  | .sprsp p => Sys2Proof.Machine.execSprsp p s
  | .err p => Sys2Proof.Machine.execErr p s
  | .unknownPacket p => Sys2Proof.Machine.execUnknownPacket p s
  | .responseTimeout req => Sys2Proof.Machine.execResponseTimeout req s
  | .securityStateChange target => Sys2Proof.Machine.execSecurityStateChange target s
  | .halt c => Sys2Proof.Machine.execHalt c s
  | .overtempP1 => Sys2Proof.Machine.execOvertempP1 s
  | .overtempShutdown => Sys2Proof.Machine.execOvertempShutdown s

end Sys2Proof.Machine
end

