-- ==== Sys2Proof/Machine/Turn.lean ====
section
/-! DEFINITION. Whose turn it is (log entry 4): the environment's choice, or, when it makes none, the first internal
event that is enabled, in a fixed order, and then the next core that can go on. -/

namespace Sys2Proof.Machine

/-- The events, as opposed to what a bundle holds: these come from units and from outside, not from fetch. -/
def isEvent (i : Instr) : Bool :=
  (instrSlot i).isNone && (match i with | .bundleIssue _ | .decouple | .rejoin => false | _ => true)

/-- The first index for which an event is enabled. -/
def firstOf {n : Nat} (f : Fin n → List Act) (i : Fin n → Instr) : Option Instr :=
  ((List.finRange n).find? fun x => !(f x).isEmpty).map i

/-- The first name in a list for which an event is enabled. -/
def firstIn {α : Type} (xs : List α) (f : α → List Act) (i : α → Instr) : Option Instr :=
  (xs.find? fun x => !(f x).isEmpty).map i

/-- Every piece of every instruction under way. -/
def pieceNames (s : State) : List (Nat × Nat) := s.jobs.flatMap fun j => (List.range j.pieces.length).map fun p => (j.id, p)

/-- The instructions under way, with the first piece of one not yet cut. -/
def startNames (s : State) : List (Nat × Nat) :=
  s.jobs.flatMap fun j => (List.range (max 1 j.pieces.length)).map fun p => (j.id, p)

/-- Every core with every stream. -/
def streamNames : List (Fin 256 × Fin 8) := (List.finRange 256).flatMap fun c => (List.finRange 8).map fun z => (c, z)

/-- Every quadrant with every entry of its wait table. -/
def parkNames (s : State) : List (Fin 16 × Nat) :=
  (List.finRange 16).flatMap fun q => (List.range (s.quads[q]).parks.length).map fun i => (q, i)

/-- The first internal event of the tiles that is enabled. -/
def tileEvent (s : State) : Option Instr :=
  firstOf (ownerBeat s) .ownerPortBeat <|> firstOf (parkSatisfied s) .parkSatisfy <|>
  firstOf (loadValid s) .loadDataValid <|>
  firstIn streamNames (fun x => streamFill s x.1 x.2) (fun x => .streamFill x.1 x.2) <|>
  firstIn streamNames (fun x => streamDrain s x.1 x.2) (fun x => .streamDrain x.1 x.2) <|>
  firstIn (List.range s.releases.length) (flagArrival s) .flagIncrementArrival <|>
  firstOf (barArrive s) .barArrival <|> firstOf (circuitHeader s) .circuitHeader <|>
  firstOf (circuitData s) .circuitDataArrival <|> firstOf (giveAttach s) .giveAttach <|>
  firstOf (windshaft s) .windshaftRejoin <|>
  firstOf (saveComplete s) .contextSaveComplete <|> firstOf (preemptionTaken s) .preemptionTaken <|>
  firstOf (contextSpill s) .contextSpill <|> firstOf (replayWindowExpiry s) .replayWindowExpiry <|>
  firstOf (stretchExpiry s) .stretchExpiry <|> firstOf (watchdogExpiry s) .issueWatchdogExpiry

/-- The first internal event of the engines and stacks that is enabled. -/
def engineEvent (s : State) : Option Instr :=
  firstIn s.jobs (fun j => millerPlacement s j.id) (fun j => .millerPlacement j.id) <|>
  firstIn (startNames s) (fun p => copyStart s p.1 p.2) (fun p => .copyPieceStart p.1 p.2) <|>
  firstOf (stoneJob s) .stoneJob <|> firstOf (wheelStep s) .wheelStep <|> firstOf (memoryRequest s) .memoryRequest <|>
  firstIn (pieceNames s) (fun p => tilePieceEnd s p.1 p.2 none) (fun p => .tilePieceEnd p.1 p.2 none) <|>
  firstIn (pieceNames s) (fun p => pieceEnd s p.1 p.2) (fun p => .copyPieceEnd p.1 p.2) <|>
  firstIn s.jobs (fun j => tagComplete s j.id) (fun j => .tagCompletion j.id) <|>
  firstIn s.invals (fun v => tlbiComplete s v.id) (fun v => .tlbiCompletion v.id) <|>
  firstIn s.invals (fun v => invalExpire s v.id) (fun v => .invalWatchdogExpiry v.id) <|>
  firstIn s.faults (fun f => pagerAppend s f.handle) (fun f => .pagerRecordAppend f.handle) <|>
  firstOf (selfTestPark s) .selfTestParkRow <|> firstOf (selfTestRestore s) .selfTestRestoreRow

/-- The first internal event of the dispatchers and the hub that is enabled. -/
def platformEvent (s : State) : Option Instr :=
  firstIn (parkNames s) (fun p => parkAppend s p.1 p.2) (fun p => .parkAppend p.1 p.2) <|>
  firstOf (resumeSeat s) .resume <|> firstOf (pickup s) .pickup <|> firstOf (dispatchPick s) .dispatchPick <|>
  firstOf (fencePacket s) .fencePacket <|>
  firstIn s.hub.epochs (fun e => reductionDeadline s e.ctx) (fun e => .reductionDeadline e.ctx) <|>
  firstIn s.hub.awaits (fun a => responseTimeout s a.id) (fun a => .responseTimeout a.id) <|>
  (if (powerEnd s).isEmpty then none else some .powerTransitionEnd)

/-- A core that has its turn does something: it issues, or spends a cycle. -/
def coreGoes (s : State) (c : Fin 256) : Bool := canIssue s c || !(resultLanding s c).isEmpty

/-- The next core, after the one that had its turn, that can go on. -/
def nextCore (s : State) : Option (Fin 256) :=
  ((List.range 256).map fun i => fin 255 ((s.focus.val + 1 + i) % 256)).find? (coreGoes s)

/-- The turn when the environment chooses none. -/
def nextTurn (s : State) : Option Turn :=
  if !s.hub.booted then some (.event .powerOnReset)
  else match tileEvent s <|> engineEvent s <|> platformEvent s with
    | some i => some (.event i)
    | none => (nextCore s).map .core

/-- An error strikes (R115, R360, R361): a corrected one is counted in its die, a lost sector is poisoned, for fetch too
(R91), or a register is, a vote is found when the core's next bundle executes, and a row counter's parity fails at its next
check (R299). -/
def Upset.acts : Upset → List Act
  | .corrected d => [.die d fun x => { x with ecc := x.ecc + 1 }]
  | .sector n => .sector n true :: (List.finRange 256).map fun c => .core c fun x => { x with codeBad := n :: x.codeBad }
  | .register c (.t i hi) => [.cont c fun k => k.halfPoison i hi true]
  | .register _ (.field _ _) | .register _ (.strm _ _) | .register _ .padm => []
  | .register c r => [.cont c fun k => { k with rpoison := if k.rpoison.contains r then k.rpoison else k.rpoison ++ [r] }]
  | .vote c slot majority => [.core c fun x => { x with votes := x.votes ++ [(slot, majority)] }]
  | .parity h b row => [.home h fun x => setCounter x b row (counterOf x b row).1 false]

/-- The state with the turn at the head of the agenda taken off it. -/
def State.popAgenda (s : State) : State := { s with agenda := s.agenda.tail }

/-- The state in which a core has its turn. -/
def State.withFocus (s : State) (c : Fin 256) : State := { s with focus := c }

/-- A core's fetch fails: what is due lands and the bundle traps (R91). -/
def fetchTrap (s : State) (c : Fin 256) (t : Trap) (acts : List Act) : Host.Outcome State Fault Refusal :=
  perform s (acts ++ issueBundle (applyActs s acts) c (.error t))

/-! ### Placing a bundle where the next step fetches -/

/-- The bytes of a page table of two entries that maps the first GiB of device virtual addresses to the first GiB of
main memory (R186), and of a bundle at code address 1 of an image that begins there. -/
def placedBytes (w : Nat) : List (Nat × Byte) :=
  let at' (a : Nat) (bs : List Byte) : List (Nat × Byte) := (List.range bs.length).map fun i => (a + i, bs.getD i 0)
  at' 64 (leBytes 64 w) ++ at' 0x1000 (leBytes 8 0x2021) ++ at' 0x2000 (leBytes 8 0x25)

/-- The core that fetches the placed bundle: seated and running at code address 1 of partition 0's image, its fetch
buffer holding the bundle's bytes. -/
def CoreSt.placed (x : CoreSt) (w : Nat) : CoreSt :=
  { x with
    phase := .running, gated := false, preempt := false, votes := []
    code := (placedBytes w).foldl (fun m p => memPut m p.1 p.2) [], codeBad := [], inBuf := []
    cont := { x.cont with part := 0, image := true, pc := 1, owed := 0, stopped := false, fused := none
                          remote := [], asked := none } }

/-- The machine with a bundle placed where core 0's next turn, which is the next step, fetches it. -/
def State.placed (s : State) (w : Nat) : State :=
  { s with
    mem := (placedBytes w).foldl (fun m p => memPut m p.1 p.2) s.mem
    poisoned := s.poisoned.filter fun n => n != 2 && n != 3 && n != 128 && n != 256
    cores := vset s.cores 0 ((s.cores[0]).placed w)
    parts := vset s.parts 0 { s.parts[0] with imgBase := 0, imgV := true, imgN := max 1 (s.parts[0]).imgN, table := 0x1000 }
    hub := { s.hub with booted := true }
    focus := 0
    agenda := [.core 0] }

end Sys2Proof.Machine
end

