-- ==== Sys2Proof/Machine/Step.lean ====
section
/-! DEFINITION. One step of the machine: the turn of a core, or an event. -/

namespace Sys2Proof.Machine

/-- A core's turn: it fetches its next bundle and issues it, or goes on with the one that has made an access, or spends a cycle in
which nothing issues (R73, R91, R160). -/
def coreTurn (s : State) (c : Fin 256) : Host.Outcome State Fault Refusal :=
  if canIssue s c then
    match fetch s c with
    | .word w acts => exec (decodeBundle w) (applyActs (s.withFocus c) acts)
    | .trap t acts => fetchTrap (s.withFocus c) c t acts
    | .made => perform (s.withFocus c) (issueBundle (s.withFocus c) c (.ok { ops := [] }))
  else exec (.resultLanding c) (s.withFocus c)

/-- A turn is taken (R272, R361); a choice of the environment that is no event changes nothing. -/
def takeTurn (s : State) : Turn → Host.Outcome State Fault Refusal
  | .core c => coreTurn s c
  | .event i => if isEvent i then exec i s else .next s
  | .upset u => perform s u.acts
  | .manage m => perform s (manageActs s m)
  | .part job piece lo hi => perform s (movePart s job piece lo hi)

/-- One step: the turn at the head of the agenda, else the machine's own choice, else a cycle passes (log entry 4). -/
def step (s : State) : Host.Outcome State Fault Refusal :=
  match s.agenda with
  | t :: _ => takeTurn s.popAgenda t
  | [] =>
    match nextTurn s with
    | some t => takeTurn s t
    | none => perform s [.clock (s.clock + 1)]

/-- The machine with the bundle whose bits are `w` placed where the next step fetches it. -/
def State.withFetchWord (s : State) (nbits w : Nat) : State := s.placed (w % 2 ^ nbits)

end Sys2Proof.Machine
end

