-- ==== Sys2Proof/Laws/Encoding.lean ====
section
/-! SUPPORT. Reading fields out of encoded slot words: a range of a concatenation, the guard, opcode and operand field of
a slot word, and the codes of specifiers, of the K data map and of small fields. -/

namespace Sys2Proof

/-! ### Bit ranges of concatenations -/

/-- A range that lies in the low part. -/
theorem bits_append_lo {m n : Nat} (a : BitVec m) (b : BitVec n) (lo len : Nat) (h : lo + len ≤ n) :
    bits (a ++ b) lo len = bits b lo len := by
  apply BitVec.eq_of_getLsbD_eq
  intro i hi
  have : lo + i < n := by omega
  simp [bits, BitVec.getLsbD_append, this]

/-- A range that lies in the high part. -/
theorem bits_append_hi {m n : Nat} (a : BitVec m) (b : BitVec n) (lo len : Nat) (h : n ≤ lo) :
    bits (a ++ b) lo len = bits a (lo - n) len := by
  apply BitVec.eq_of_getLsbD_eq
  intro i hi
  have h1 : ¬ lo + i < n := by omega
  have h2 : lo + i - n = lo - n + i := by omega
  simp [bits, BitVec.getLsbD_append, h1, h2]

/-- A whole word. -/
@[simp] theorem bits_whole {n : Nat} (a : BitVec n) : bits a 0 n = a := by simp [bits]

/-- A range of zeros. -/
@[simp] theorem bits_of_zero (n lo len : Nat) : bits (0#n) lo len = 0#len := by simp [bits]

/-- A range of a range. -/
theorem bits_bits {n : Nat} (a : BitVec n) (lo len lo' len' : Nat) (h : lo' + len' ≤ len) :
    bits (bits a lo len) lo' len' = bits a (lo + lo') len' := by
  apply BitVec.eq_of_getLsbD_eq
  intro i hi
  have h1 : lo' + i < len := by omega
  simp [bits, h1, Nat.add_assoc, hi]

/-- A bit as a range of one. -/
theorem bits_one {n : Nat} (a : BitVec n) (i : Nat) : bits a i 1 = bit (bitAt a i) := by
  apply BitVec.eq_of_getLsbD_eq
  intro j hj
  have : j = 0 := by omega
  subst this
  simp [bits, bit, bitAt]

/-- A bit written and read back. -/
@[simp] theorem bit_inj (a b : Bool) : bit a = bit b ↔ a = b := by cases a <;> cases b <;> decide

/-! ### A slot word -/

/-- The opcode of a slot word. -/
@[simp] theorem opcodeOf_word (g : Guard) (op : Byte) (x : BitVec 42) : opcodeOf (word g op x) = op := by
  have h1 := bits_append_hi (g.code ++ op) x 42 8 (by omega)
  have h2 := bits_append_lo g.code op (42 - 42) 8 (by omega)
  exact h1.trans (h2.trans (bits_whole op))

/-- A range of the operand field. -/
theorem bits_word_field (g : Guard) (op : Byte) (x : BitVec 42) (lo len : Nat) (h : lo + len ≤ 42) :
    bits (word g op x) lo len = bits x lo len := bits_append_lo (g.code ++ op) x lo len h

/-- A range of the guard's bits. -/
theorem bits_word_guard (g : Guard) (op : Byte) (x : BitVec 42) (lo len : Nat) (h : 50 ≤ lo) :
    bits (word g op x) lo len = bits g.code (lo - 50) len := by
  have h1 := bits_append_hi (g.code ++ op) x lo len (by omega)
  have h2 := bits_append_hi g.code op (lo - 42) len (by omega)
  have h3 : lo - 42 - 8 = lo - 50 := by omega
  exact h1.trans (h2.trans (by rw [h3]))

/-! ### Codes -/

/-- A specifier's code stands for it. -/
@[simp] theorem decodeSpec_code (x : Spec) : decodeSpec x.code = some x := by
  cases x with
  | main i => revert i; decide
  | opf i => revert i; decide
  | z i => revert i; decide
  | const k => revert k; decide
  | _ => rfl

/-- A code of the K data map stands for its source. -/
@[simp] theorem decodeKData_code (x : KData) : decodeKData x.code = some x := by
  cases x with
  | s i => revert i; decide
  | v i => revert i; decide
  | w i => revert i; decide
  | z i => revert i; decide
  | _ => rfl

/-- A specifier field that holds an admitted specifier's code reads as it. -/
theorem spec_code {w : SlotWord} {lo : Nat} {ok : Spec → Bool} {x : Spec} (h : bits w lo 8 = x.code) (hx : ok x = true) :
    spec w lo ok = .ok x := by
  simp [spec, h, hx]

/-- A field of the K data map that holds an admitted source's code reads as it. -/
theorem kdata_code {w : SlotWord} {lo : Nat} {ok : KData → Bool} {x : KData} (h : bits w lo 8 = x.code)
    (hx : ok x = true) : kdata w lo ok = .ok x := by
  simp [kdata, h, hx]

/-- A small number that fits a field reads back from it. -/
theorem fin_toNat {m : Nat} (n : Nat) (i : Fin m) (h : m ≤ 2 ^ n) : (fin n i).toNat = i.val := by
  have := i.isLt
  simp [fin, BitVec.toNat_ofNat, Nat.mod_eq_of_lt (by omega : i.val < 2 ^ n)]

/-- A predicate field that holds a predicate's number reads as it. -/
theorem predIx_code {w : SlotWord} {lo : Nat} {p : Fin 48} (h : bits w lo 6 = fin 6 p) : predIx w lo = .ok p := by
  have hn : num w lo 6 = p.val := by
    unfold num
    rw [h]
    exact fin_toNat 6 p (by decide)
  have : num w lo 6 < 48 := by have := p.isLt; omega
  simp [predIx, hn]

/-- Bits that are zero pass the check. -/
theorem zeros_ok {w : SlotWord} {lo len : Nat} (h : bits w lo len = 0) : zeros w lo len = .ok () := by
  simp [zeros, h]

/-- The guard's bits of a slot word read back as the guard. -/
theorem decodeGuard_word {g : Guard} (op : Byte) (x : BitVec 42) (h : g.wf = true) :
    decodeGuard (word g op x) = .ok g := by
  have e1 : bits (word g op x) 54 6 = bits g.code 4 6 := bits_word_guard g op x 54 6 (by omega)
  have e2 : bits (word g op x) 50 3 = bits g.code 0 3 := bits_word_guard g op x 50 3 (by omega)
  have e3 : bit (bitAt (word g op x) 53) = bit (bitAt g.code 3) := by
    rw [← bits_one, ← bits_one]
    exact bits_word_guard g op x 53 1 (by omega)
  have e3' := (bit_inj _ _).1 e3
  have key : decodeGuard (word g op x) = decodeGuard (g.code ++ 0#50) := by
    have f1 : bits (g.code ++ 0#50) 54 6 = bits g.code 4 6 := bits_append_hi g.code 0#50 54 6 (by omega)
    have f2 : bits (g.code ++ 0#50) 50 3 = bits g.code 0 3 := bits_append_hi g.code 0#50 50 3 (by omega)
    have f3 : bitAt (g.code ++ 0#50) 53 = bitAt g.code 3 := by
      rw [← bit_inj, ← bits_one, ← bits_one]
      exact bits_append_hi g.code 0#50 53 1 (by omega)
    have n1 : num (word g op x) 54 6 = num (g.code ++ 0#50) 54 6 := by unfold num; rw [e1]; exact congrArg _ f1.symm
    have n2 : num (word g op x) 50 3 = num (g.code ++ 0#50) 50 3 := by unfold num; rw [e2]; exact congrArg _ f2.symm
    have n3 : bitAt (word g op x) 53 = bitAt (g.code ++ 0#50) 53 := e3'.trans f3.symm
    simp only [decodeGuard, n1, n2, n3]
  rw [key]
  clear key e1 e2 e3 e3'
  obtain ⟨p, n, l⟩ := g
  revert h
  cases p with
  | none => revert n l; decide
  | some p => revert p n l; decide

end Sys2Proof
end

