-- ==== Sys2Proof/Laws/PerInstr.lean ====
section
/-! SUPPORT. For each instruction as syntax: the encoder gives it an opcode that its slot assigns (R69). -/

namespace Sys2Proof.Laws.Assigned

/-- The encoder gives an opcode that R69 assigns in the slot. -/
def Statement (i : Instr) : Prop := ∀ x w, encode i = some (x, w) → assigned x (opcodeOf w) = true

/-- A slot word whose opcode is assigned. -/
theorem of_word {i : Instr} {x : Slot} {g : Guard} {op : Byte} {f : BitVec 42} (h : encode i = some (x, word g op f))
    (ha : assigned x op = true) : Statement i := by
  intro y w hw
  rw [h] at hw
  cases hw
  simpa using ha

/-- An event has no slot word. -/
theorem of_none {i : Instr} (h : encode i = none) : Statement i := by
  intro y w hw
  rw [h] at hw
  cases hw

theorem powerOnReset : Statement .powerOnReset := of_none rfl
theorem bundleIssue (w : BitVec 512) : Statement (.bundleIssue w) := of_none rfl
theorem decouple : Statement .decouple := of_none rfl
theorem rejoin : Statement .rejoin := of_none rfl
theorem windshaftRejoin (tile : Fin 64) : Statement (.windshaftRejoin tile) := of_none rfl
theorem resultLanding (c : Fin 256) : Statement (.resultLanding c) := of_none rfl
theorem loadDataValid (c : Fin 256) : Statement (.loadDataValid c) := of_none rfl
theorem ownerPortBeat (b : Fin 4096) : Statement (.ownerPortBeat b) := of_none rfl
theorem parkSatisfy (b : Fin 4096) : Statement (.parkSatisfy b) := of_none rfl
theorem nop (g : Guard) : Statement (.nop g) := of_word rfl (by decide)
theorem add (g : Guard) (d : Spec) (a : Spec) (b : Spec) : Statement (.add g d a b) := of_word rfl (by decide)
theorem sub (g : Guard) (d : Spec) (a : Spec) (b : Spec) : Statement (.sub g d a b) := of_word rfl (by decide)
theorem and (g : Guard) (d : Spec) (a : Spec) (b : Spec) : Statement (.and g d a b) := of_word rfl (by decide)
theorem or (g : Guard) (d : Spec) (a : Spec) (b : Spec) : Statement (.or g d a b) := of_word rfl (by decide)
theorem xor (g : Guard) (d : Spec) (a : Spec) (b : Spec) : Statement (.xor g d a b) := of_word rfl (by decide)
theorem shl (g : Guard) (d : Spec) (a : Spec) (b : Spec) : Statement (.shl g d a b) := of_word rfl (by decide)
theorem shr (g : Guard) (d : Spec) (a : Spec) (b : Spec) : Statement (.shr g d a b) := of_word rfl (by decide)
theorem sar (g : Guard) (d : Spec) (a : Spec) (b : Spec) : Statement (.sar g d a b) := of_word rfl (by decide)
theorem mul (g : Guard) (d : Spec) (a : Spec) (b : Spec) : Statement (.mul g d a b) := of_word rfl (by decide)
theorem mulh (g : Guard) (d : Spec) (a : Spec) (b : Spec) : Statement (.mulh g d a b) := of_word rfl (by decide)
theorem mulhu (g : Guard) (d : Spec) (a : Spec) (b : Spec) : Statement (.mulhu g d a b) := of_word rfl (by decide)
theorem min (g : Guard) (d : Spec) (a : Spec) (b : Spec) : Statement (.min g d a b) := of_word rfl (by decide)
theorem max (g : Guard) (d : Spec) (a : Spec) (b : Spec) : Statement (.max g d a b) := of_word rfl (by decide)
theorem minu (g : Guard) (d : Spec) (a : Spec) (b : Spec) : Statement (.minu g d a b) := of_word rfl (by decide)
theorem maxu (g : Guard) (d : Spec) (a : Spec) (b : Spec) : Statement (.maxu g d a b) := of_word rfl (by decide)
theorem addi (g : Guard) (d : Spec) (a : Spec) (imm : BitVec 26) : Statement (.addi g d a imm) := of_word rfl (by decide)
theorem andi (g : Guard) (d : Spec) (a : Spec) (imm : BitVec 26) : Statement (.andi g d a imm) := of_word rfl (by decide)
theorem ori (g : Guard) (d : Spec) (a : Spec) (imm : BitVec 26) : Statement (.ori g d a imm) := of_word rfl (by decide)
theorem xori (g : Guard) (d : Spec) (a : Spec) (imm : BitVec 26) : Statement (.xori g d a imm) := of_word rfl (by decide)
theorem shli (g : Guard) (d : Spec) (a : Spec) (imm : BitVec 26) : Statement (.shli g d a imm) := of_word rfl (by decide)
theorem shri (g : Guard) (d : Spec) (a : Spec) (imm : BitVec 26) : Statement (.shri g d a imm) := of_word rfl (by decide)
theorem sari (g : Guard) (d : Spec) (a : Spec) (imm : BitVec 26) : Statement (.sari g d a imm) := of_word rfl (by decide)
theorem lea (g : Guard) (d : Spec) (a : Spec) (wdelta : Byte) (odelta : Half) : Statement (.lea g d a wdelta odelta) := of_word rfl (by decide)
theorem li (g : Guard) (d : Spec) (imm : BitVec 34) : Statement (.li g d imm) := of_word rfl (by decide)
theorem lui (g : Guard) (d : Spec) (imm : W32) : Statement (.lui g d imm) := of_word rfl (by decide)
theorem clz (g : Guard) (d : Spec) (a : Spec) : Statement (.clz g d a) := of_word rfl (by decide)
theorem popc (g : Guard) (d : Spec) (a : Spec) : Statement (.popc g d a) := of_word rfl (by decide)
theorem bfx (g : Guard) (d : Spec) (a : Spec) (pos : BitVec 6) (len1 : BitVec 6) (sx : Bool) : Statement (.bfx g d a pos len1 sx) := of_word rfl (by decide)
theorem bfi (g : Guard) (d : Spec) (a : Spec) (b : Spec) (pos : BitVec 6) (len1 : BitVec 6) : Statement (.bfi g d a b pos len1) := of_word rfl (by decide)
theorem sel (g : Guard) (d : Spec) (a : Spec) (b : Spec) (p : Fin 48) : Statement (.sel g d a b p) := of_word rfl (by decide)
theorem cmp (g : Guard) (pd : Fin 48) (a : Spec) (b : Spec) (cond : Cond) : Statement (.cmp g pd a b cond) := of_word rfl (by decide)
theorem cmpi (g : Guard) (pd : Fin 48) (a : Spec) (imm : BitVec 24) (cond : Cond) : Statement (.cmpi g pd a imm cond) := of_word rfl (by decide)
theorem pand (g : Guard) (pd : Fin 48) (pa : Fin 48) (pb : Fin 48) : Statement (.pand g pd pa pb) := of_word rfl (by decide)
theorem por (g : Guard) (pd : Fin 48) (pa : Fin 48) (pb : Fin 48) : Statement (.por g pd pa pb) := of_word rfl (by decide)
theorem pxor (g : Guard) (pd : Fin 48) (pa : Fin 48) (pb : Fin 48) : Statement (.pxor g pd pa pb) := of_word rfl (by decide)
theorem pandn (g : Guard) (pd : Fin 48) (pa : Fin 48) (pb : Fin 48) : Statement (.pandn g pd pa pb) := of_word rfl (by decide)
theorem pset (g : Guard) (pd : Fin 48) (a : Spec) : Statement (.pset g pd a) := of_word rfl (by decide)
theorem vext (g : Guard) (d : Spec) (src : Spec) (lane : BitVec 6) (sx : Bool) : Statement (.vext g d src lane sx) := of_word rfl (by decide)
theorem mfc (g : Guard) (d : Spec) (n : Byte) : Statement (.mfc g d n) := of_word rfl (by decide)
theorem mtc (g : Guard) (n : Byte) (a : Spec) : Statement (.mtc g n a) := of_word rfl (by decide)
theorem setbtAddr (g : Guard) (n : Fin 16) (addr : W32) : Statement (.setbtAddr g n addr) := of_word rfl (by decide)
theorem setbtReg (g : Guard) (n : Fin 16) (a : Spec) : Statement (.setbtReg g n a) := of_word rfl (by decide)
theorem tset (g : Guard) (t : Fin 32) (field : Fin 16) (a : Spec) : Statement (.tset g t field a) := of_word rfl (by decide)
theorem tget (g : Guard) (d : Spec) (t : Fin 32) (field : Fin 16) : Statement (.tget g d t field) := of_word rfl (by decide)
theorem vnop (g : Guard) (cl : Cluster) : Statement (.vnop g cl) := by cases cl <;> exact of_word rfl (by decide)
theorem vadd (g : Guard) (cl : Cluster) (d : Spec) (a : Spec) (b : Spec) : Statement (.vadd g cl d a b) := by cases cl <;> exact of_word rfl (by decide)
theorem vsub (g : Guard) (cl : Cluster) (d : Spec) (a : Spec) (b : Spec) : Statement (.vsub g cl d a b) := by cases cl <;> exact of_word rfl (by decide)
theorem vmul (g : Guard) (cl : Cluster) (d : Spec) (a : Spec) (b : Spec) : Statement (.vmul g cl d a b) := by cases cl <;> exact of_word rfl (by decide)
theorem vmulh (g : Guard) (cl : Cluster) (d : Spec) (a : Spec) (b : Spec) : Statement (.vmulh g cl d a b) := by cases cl <;> exact of_word rfl (by decide)
theorem vmin (g : Guard) (cl : Cluster) (d : Spec) (a : Spec) (b : Spec) : Statement (.vmin g cl d a b) := by cases cl <;> exact of_word rfl (by decide)
theorem vmax (g : Guard) (cl : Cluster) (d : Spec) (a : Spec) (b : Spec) : Statement (.vmax g cl d a b) := by cases cl <;> exact of_word rfl (by decide)
theorem vand (g : Guard) (cl : Cluster) (d : Spec) (a : Spec) (b : Spec) : Statement (.vand g cl d a b) := by cases cl <;> exact of_word rfl (by decide)
theorem vor (g : Guard) (cl : Cluster) (d : Spec) (a : Spec) (b : Spec) : Statement (.vor g cl d a b) := by cases cl <;> exact of_word rfl (by decide)
theorem vxor (g : Guard) (cl : Cluster) (d : Spec) (a : Spec) (b : Spec) : Statement (.vxor g cl d a b) := by cases cl <;> exact of_word rfl (by decide)
theorem vshl (g : Guard) (cl : Cluster) (d : Spec) (a : Spec) (b : Spec) : Statement (.vshl g cl d a b) := by cases cl <;> exact of_word rfl (by decide)
theorem vshr (g : Guard) (cl : Cluster) (d : Spec) (a : Spec) (b : Spec) : Statement (.vshr g cl d a b) := by cases cl <;> exact of_word rfl (by decide)
theorem vsar (g : Guard) (cl : Cluster) (d : Spec) (a : Spec) (b : Spec) : Statement (.vsar g cl d a b) := by cases cl <;> exact of_word rfl (by decide)
theorem vabs (g : Guard) (cl : Cluster) (d : Spec) (a : Spec) : Statement (.vabs g cl d a) := by cases cl <;> exact of_word rfl (by decide)
theorem vneg (g : Guard) (cl : Cluster) (d : Spec) (a : Spec) : Statement (.vneg g cl d a) := by cases cl <;> exact of_word rfl (by decide)
theorem vcmp (g : Guard) (cl : Cluster) (pd : Fin 48) (a : Spec) (b : Spec) (cond : Cond) : Statement (.vcmp g cl pd a b cond) := by cases cl <;> exact of_word rfl (by decide)
theorem vadds (g : Guard) (cl : Cluster) (d : Spec) (a : Spec) (b : Spec) : Statement (.vadds g cl d a b) := by cases cl <;> exact of_word rfl (by decide)
theorem vsubs (g : Guard) (cl : Cluster) (d : Spec) (a : Spec) (b : Spec) : Statement (.vsubs g cl d a b) := by cases cl <;> exact of_word rfl (by decide)
theorem vminu (g : Guard) (cl : Cluster) (d : Spec) (a : Spec) (b : Spec) : Statement (.vminu g cl d a b) := by cases cl <;> exact of_word rfl (by decide)
theorem vmaxu (g : Guard) (cl : Cluster) (d : Spec) (a : Spec) (b : Spec) : Statement (.vmaxu g cl d a b) := by cases cl <;> exact of_word rfl (by decide)
theorem fadd (g : Guard) (cl : Cluster) (d : Spec) (a : Spec) (b : Spec) (rm : Rm) : Statement (.fadd g cl d a b rm) := by cases cl <;> exact of_word rfl (by decide)
theorem fsub (g : Guard) (cl : Cluster) (d : Spec) (a : Spec) (b : Spec) (rm : Rm) : Statement (.fsub g cl d a b rm) := by cases cl <;> exact of_word rfl (by decide)
theorem fmul (g : Guard) (cl : Cluster) (d : Spec) (a : Spec) (b : Spec) (rm : Rm) : Statement (.fmul g cl d a b rm) := by cases cl <;> exact of_word rfl (by decide)
theorem fma (g : Guard) (cl : Cluster) (d : Spec) (a : Spec) (b : Spec) (c : Spec) (rm : Rm) : Statement (.fma g cl d a b c rm) := by cases cl <;> exact of_word rfl (by decide)
theorem fms (g : Guard) (cl : Cluster) (d : Spec) (a : Spec) (b : Spec) (c : Spec) (rm : Rm) : Statement (.fms g cl d a b c rm) := by cases cl <;> exact of_word rfl (by decide)
theorem fnma (g : Guard) (cl : Cluster) (d : Spec) (a : Spec) (b : Spec) (c : Spec) (rm : Rm) : Statement (.fnma g cl d a b c rm) := by cases cl <;> exact of_word rfl (by decide)
theorem fmin (g : Guard) (cl : Cluster) (d : Spec) (a : Spec) (b : Spec) : Statement (.fmin g cl d a b) := by cases cl <;> exact of_word rfl (by decide)
theorem fmax (g : Guard) (cl : Cluster) (d : Spec) (a : Spec) (b : Spec) : Statement (.fmax g cl d a b) := by cases cl <;> exact of_word rfl (by decide)
theorem fabs (g : Guard) (cl : Cluster) (d : Spec) (a : Spec) : Statement (.fabs g cl d a) := by cases cl <;> exact of_word rfl (by decide)
theorem fneg (g : Guard) (cl : Cluster) (d : Spec) (a : Spec) : Statement (.fneg g cl d a) := by cases cl <;> exact of_word rfl (by decide)
theorem fdiv (g : Guard) (cl : Cluster) (d : Spec) (a : Spec) (b : Spec) (rm : Rm) : Statement (.fdiv g cl d a b rm) := by cases cl <;> exact of_word rfl (by decide)
theorem fsqrt (g : Guard) (cl : Cluster) (d : Spec) (a : Spec) (rm : Rm) : Statement (.fsqrt g cl d a rm) := by cases cl <;> exact of_word rfl (by decide)
theorem frcp (g : Guard) (cl : Cluster) (d : Spec) (a : Spec) : Statement (.frcp g cl d a) := by cases cl <;> exact of_word rfl (by decide)
theorem frsq (g : Guard) (cl : Cluster) (d : Spec) (a : Spec) : Statement (.frsq g cl d a) := by cases cl <;> exact of_word rfl (by decide)
theorem fcmp (g : Guard) (cl : Cluster) (pd : Fin 48) (a : Spec) (b : Spec) (cond : FCond) : Statement (.fcmp g cl pd a b cond) := by cases cl <;> exact of_word rfl (by decide)
theorem fclass (g : Guard) (cl : Cluster) (d : Spec) (a : Spec) : Statement (.fclass g cl d a) := by cases cl <;> exact of_word rfl (by decide)
theorem cvt (g : Guard) (cl : Cluster) (d : Spec) (a : Spec) (src : VFmt) (dst : VFmt) (rm : Rm) : Statement (.cvt g cl d a src dst rm) := by cases cl <;> exact of_word rfl (by decide)
theorem vpack (g : Guard) (cl : Cluster) (d : Spec) (a : Spec) (b : Spec) (kind : PackKind) (rm : Rm) : Statement (.vpack g cl d a b kind rm) := by cases cl <;> exact of_word rfl (by decide)
theorem vunpk (g : Guard) (cl : Cluster) (d : Spec) (a : Spec) (kind : PackKind) (half : Bool) : Statement (.vunpk g cl d a kind half) := by cases cl <;> exact of_word rfl (by decide)
theorem plext (g : Guard) (cl : Cluster) (d : Spec) (a : Spec) (k1 : Fin 8) (centred : Bool) (q : Fin 4) : Statement (.plext g cl d a k1 centred q) := by cases cl <;> exact of_word rfl (by decide)
theorem plins (g : Guard) (cl : Cluster) (d : Spec) (a : Spec) (k1 : Fin 8) (centred : Bool) (q : Fin 4) (rm : Rm) : Statement (.plins g cl d a k1 centred q rm) := by cases cl <;> exact of_word rfl (by decide)
theorem vmov (g : Guard) (cl : Cluster) (d : Spec) (a : Spec) : Statement (.vmov g cl d a) := by cases cl <;> exact of_word rfl (by decide)
theorem vsel (g : Guard) (cl : Cluster) (d : Spec) (a : Spec) (b : Spec) (p : Fin 48) : Statement (.vsel g cl d a b p) := by cases cl <;> exact of_word rfl (by decide)
theorem vli (g : Guard) (cl : Cluster) (d : Spec) (imm : W32) : Statement (.vli g cl d imm) := by cases cl <;> exact of_word rfl (by decide)
theorem viota (g : Guard) (cl : Cluster) (d : Spec) (start : Half) (stride : Byte) : Statement (.viota g cl d start stride) := by cases cl <;> exact of_word rfl (by decide)
theorem vbcast (g : Guard) (cl : Cluster) (d : Spec) (a : Spec) (lane : BitVec 6) : Statement (.vbcast g cl d a lane) := by cases cl <;> exact of_word rfl (by decide)
theorem vperm (g : Guard) (cl : Cluster) (d : Spec) (a : Spec) (b : Spec) : Statement (.vperm g cl d a b) := by cases cl <;> exact of_word rfl (by decide)
theorem vrot (g : Guard) (cl : Cluster) (d : Spec) (a : Spec) (n : BitVec 6) : Statement (.vrot g cl d a n) := by cases cl <;> exact of_word rfl (by decide)
theorem vbfly (g : Guard) (cl : Cluster) (d : Spec) (a : Spec) (s : Fin 6) : Statement (.vbfly g cl d a s) := by cases cl <;> exact of_word rfl (by decide)
theorem vradd (g : Guard) (cl : Cluster) (d : Spec) (a : Spec) (pm : Option (Fin 48)) (sat : Bool) : Statement (.vradd g cl d a pm sat) := by cases cl <;> exact of_word rfl (by decide)
theorem vrmax (g : Guard) (cl : Cluster) (d : Spec) (a : Spec) (pm : Option (Fin 48)) : Statement (.vrmax g cl d a pm) := by cases cl <;> exact of_word rfl (by decide)
theorem vrmin (g : Guard) (cl : Cluster) (d : Spec) (a : Spec) (pm : Option (Fin 48)) : Statement (.vrmin g cl d a pm) := by cases cl <;> exact of_word rfl (by decide)
theorem frsum (g : Guard) (cl : Cluster) (d : Spec) (a : Spec) (pm : Option (Fin 48)) (rm : Rm) : Statement (.frsum g cl d a pm rm) := by cases cl <;> exact of_word rfl (by decide)
theorem frmax (g : Guard) (cl : Cluster) (d : Spec) (a : Spec) (pm : Option (Fin 48)) : Statement (.frmax g cl d a pm) := by cases cl <;> exact of_word rfl (by decide)
theorem frmin (g : Guard) (cl : Cluster) (d : Spec) (a : Spec) (pm : Option (Fin 48)) : Statement (.frmin g cl d a pm) := by cases cl <;> exact of_word rfl (by decide)
theorem xmov (g : Guard) (cl : Cluster) (d : Spec) (a : Spec) : Statement (.xmov g cl d a) := by cases cl <;> exact of_word rfl (by decide)
theorem vins (g : Guard) (cl : Cluster) (d : Spec) (a : Spec) (lane : BitVec 6) : Statement (.vins g cl d a lane) := by cases cl <;> exact of_word rfl (by decide)
theorem vfromp (g : Guard) (cl : Cluster) (d : Spec) (p : Fin 48) : Statement (.vfromp g cl d p) := by cases cl <;> exact of_word rfl (by decide)
theorem vtop (g : Guard) (cl : Cluster) (pd : Fin 48) (a : Spec) : Statement (.vtop g cl pd a) := by cases cl <;> exact of_word rfl (by decide)
theorem lnop (g : Guard) : Statement (.lnop g) := of_word rfl (by decide)
theorem ld (g : Guard) (base : Spec) (index : Spec) (scale : BitVec 2) (off : BitVec 12) (cls : BitVec 4) (width : Width) (dest : LoadTo) : Statement (.ld g base index scale off cls width dest) := by cases dest <;> exact of_word rfl (by decide)
theorem lde (g : Guard) (base : Spec) (index : Spec) (scale : BitVec 2) (off : BitVec 12) (cls : BitVec 4) (sx : Bool) : Statement (.lde g base index scale off cls sx) := of_word rfl (by decide)
theorem ldf (g : Guard) (base : Spec) (index : Spec) (scale : BitVec 2) (off : BitVec 12) (cls : BitVec 4) (sx : Bool) : Statement (.ldf g base index scale off cls sx) := of_word rfl (by decide)
theorem ldx (g : Guard) (e : Fin 64) (off : BitVec 24) (width : XWidth) : Statement (.ldx g e off width) := of_word rfl (by decide)
theorem amo (g : Guard) (base : Spec) (val : Spec) (op : AmoOp) (cls : BitVec 4) (wide : Bool) : Statement (.amo g base val op cls wide) := of_word rfl (by decide)
theorem lbst (g : Guard) (base : Spec) (cls : BitVec 4) (sel : Bool) : Statement (.lbst g base cls sel) := of_word rfl (by decide)
theorem knop (g : Guard) : Statement (.knop g) := of_word rfl (by decide)
theorem st (g : Guard) (base : Spec) (src : StoreFrom) (off : BitVec 12) (cls : BitVec 4) (width : Width) : Statement (.st g base src off cls width) := by cases src <;> exact of_word rfl (by decide)
theorem stf (g : Guard) (base : Spec) (src : KData) (off : BitVec 12) (cls : BitVec 4) : Statement (.stf g base src off cls) := of_word rfl (by decide)
theorem ste (g : Guard) (base : Spec) (src : KData) (off : BitVec 12) (cls : BitVec 4) : Statement (.ste g base src off cls) := of_word rfl (by decide)
theorem stx (g : Guard) (e : Fin 64) (src : Spec) (off : BitVec 24) (width : XWidth) : Statement (.stx g e src off width) := of_word rfl (by decide)
theorem bst (g : Guard) (base : Spec) (buf : Byte) (mode : BstMode) (cls : BitVec 4) : Statement (.bst g base buf mode cls) := of_word rfl (by decide)
theorem stm (g : Guard) (base : Spec) (src : KData) (off : BitVec 12) (cls : BitVec 4) (width : Width) (p : Fin 48) : Statement (.stm g base src off cls width p) := of_word rfl (by decide)
theorem tnop (g : Guard) : Statement (.tnop g) := of_word rfl (by decide)
theorem tadd (g : Guard) (o : TOps) : Statement (.tadd g o) := of_word rfl (by decide)
theorem tsub (g : Guard) (o : TOps) : Statement (.tsub g o) := of_word rfl (by decide)
theorem tmul (g : Guard) (o : TOps) : Statement (.tmul g o) := of_word rfl (by decide)
theorem tmax (g : Guard) (o : TOps) : Statement (.tmax g o) := of_word rfl (by decide)
theorem tmin (g : Guard) (o : TOps) : Statement (.tmin g o) := of_word rfl (by decide)
theorem tabs (g : Guard) (o : TOps) : Statement (.tabs g o) := of_word rfl (by decide)
theorem tcvt (g : Guard) (o : TOps) : Statement (.tcvt g o) := of_word rfl (by decide)
theorem tscl (g : Guard) (o : TOps) : Statement (.tscl g o) := of_word rfl (by decide)
theorem tfill (g : Guard) (o : TOps) : Statement (.tfill g o) := of_word rfl (by decide)
theorem tsel (g : Guard) (o : TOps) : Statement (.tsel g o) := of_word rfl (by decide)
theorem tlut (g : Guard) (o : TOps) : Statement (.tlut g o) := of_word rfl (by decide)
theorem tred (g : Guard) (o : TOps) : Statement (.tred g o) := of_word rfl (by decide)
theorem tmma (g : Guard) (o : TOps) : Statement (.tmma g o) := of_word rfl (by decide)
theorem tspm (g : Guard) (o : TOps) : Statement (.tspm g o) := of_word rfl (by decide)
theorem place (g : Guard) (op : TileOp) (o : TOps) : Statement (.place g op o) := of_word rfl (by decide)
theorem millerPlacement (job : Nat) : Statement (.millerPlacement job) := of_none rfl
theorem tilePieceEnd (job : Nat) (piece : Nat) (shipErr : Option Nat) : Statement (.tilePieceEnd job piece shipErr) := of_none rfl
theorem stoneJob (stone : Fin 64) : Statement (.stoneJob stone) := of_none rfl
theorem cnop (g : Guard) : Statement (.cnop g) := of_word rfl (by decide)
theorem cpy (g : Guard) (o : COps) : Statement (.cpy g o) := of_word rfl (by decide)
theorem gath (g : Guard) (o : COps) : Statement (.gath g o) := of_word rfl (by decide)
theorem scat (g : Guard) (o : COps) : Statement (.scat g o) := of_word rfl (by decide)
theorem mcast (g : Guard) (o : COps) : Statement (.mcast g o) := of_word rfl (by decide)
theorem flume (g : Guard) (o : COps) : Statement (.flume g o) := of_word rfl (by decide)
theorem strm (g : Guard) (t : Fin 32) (z : Fin 8) (out : Bool) (width : BitVec 2) (cls : BitVec 4) (queue : Fin 4) : Statement (.strm g t z out width cls queue) := of_word rfl (by decide)
theorem unstrm (g : Guard) (z : Fin 8) (tag : Fin 64) (cls : BitVec 4) (queue : Fin 4) (post : FlagTo) : Statement (.unstrm g z tag cls queue post) := of_word rfl (by decide)
theorem catom (g : Guard) (o : COps) (op : AtomOp) : Statement (.catom g o op) := of_word rfl (by decide)
theorem wsa (g : Guard) (o : COps) : Statement (.wsa g o) := of_word rfl (by decide)
theorem wred (g : Guard) (o : COps) : Statement (.wred g o) := of_word rfl (by decide)
theorem wstat (g : Guard) (o : COps) : Statement (.wstat g o) := of_word rfl (by decide)
theorem redf (g : Guard) (o : COps) (op : RedOp) : Statement (.redf g o op) := of_word rfl (by decide)
theorem hot (g : Guard) (o : COps) (clr : Bool) : Statement (.hot g o clr) := of_word rfl (by decide)
theorem tlbi (g : Guard) (a : Spec) (kind : TlbiKind) (part : BitVec 4) (tag : Fin 64) : Statement (.tlbi g a kind part tag) := of_word rfl (by decide)
theorem copyPieceStart (job : Nat) (piece : Nat) : Statement (.copyPieceStart job piece) := of_none rfl
theorem pagerRecordAppend (handle : Nat) : Statement (.pagerRecordAppend handle) := of_none rfl
theorem copyPieceEnd (job : Nat) (piece : Nat) : Statement (.copyPieceEnd job piece) := of_none rfl
theorem tagCompletion (job : Nat) : Statement (.tagCompletion job) := of_none rfl
theorem streamFill (c : Fin 256) (z : Fin 8) : Statement (.streamFill c z) := of_none rfl
theorem streamDrain (c : Fin 256) (z : Fin 8) : Statement (.streamDrain c z) := of_none rfl
theorem tlbiCompletion (job : Nat) : Statement (.tlbiCompletion job) := of_none rfl
theorem invalWatchdogExpiry (job : Nat) : Statement (.invalWatchdogExpiry job) := of_none rfl
theorem pagerResolveRestart (handle : Nat) : Statement (.pagerResolveRestart handle) := of_none rfl
theorem pagerResolveNoframe (handle : Nat) : Statement (.pagerResolveNoframe handle) := of_none rfl
theorem pagerResolveAccess (handle : Nat) : Statement (.pagerResolveAccess handle) := of_none rfl
theorem ynop (g : Guard) : Statement (.ynop g) := of_word rfl (by decide)
theorem tree (g : Guard) (shape : Shape) (t1 : Test) (t2 : Test) (t3 : Test) (t4 : Test) (group : BitVec 2) (count : BitVec 2) : Statement (.tree g shape t1 t2 t3 t4 group count) := of_word rfl (by decide)
theorem jmpBt (g : Guard) (n : Fin 16) : Statement (.jmpBt g n) := of_word rfl (by decide)
theorem jmpAddr (g : Guard) (addr : W32) : Statement (.jmpAddr g addr) := of_word rfl (by decide)
theorem callBt (g : Guard) (k : Fin 16) (n : Fin 16) : Statement (.callBt g k n) := of_word rfl (by decide)
theorem callAddr (g : Guard) (k : Fin 16) (addr : W32) : Statement (.callAddr g k addr) := of_word rfl (by decide)
theorem ret (g : Guard) (n : Fin 16) : Statement (.ret g n) := of_word rfl (by decide)
theorem loop (g : Guard) (j : Bool) (n : Fin 16) : Statement (.loop g j n) := of_word rfl (by decide)
theorem loopSet (g : Guard) (j : Bool) (a : Spec) : Statement (.loopSet g j a) := of_word rfl (by decide)
theorem bsel (g : Guard) (d : Spec) (a : Spec) (b : Spec) : Statement (.bsel g d a b) := of_word rfl (by decide)
theorem post (g : Guard) (flag : Fin 32) (target : PostTo) (mask : Half) (n : BitVec 11) : Statement (.post g flag target mask n) := of_word rfl (by decide)
theorem waitf (g : Guard) (flag : Fin 32) (mask : Half) (n : Half) : Statement (.waitf g flag mask n) := of_word rfl (by decide)
theorem waitany (g : Guard) (a : Spec) : Statement (.waitany g a) := of_word rfl (by decide)
theorem waitall (g : Guard) (a : Spec) : Statement (.waitall g a) := of_word rfl (by decide)
theorem ffr (g : Guard) (d : Spec) (a : Spec) : Statement (.ffr g d a) := of_word rfl (by decide)
theorem bar (g : Guard) (mask : Half) : Statement (.bar g mask) := of_word rfl (by decide)
theorem barArrival (c : Fin 256) : Statement (.barArrival c) := of_none rfl
theorem watch (g : Guard) (base : Spec) : Statement (.watch g base) := of_word rfl (by decide)
theorem waitm (g : Guard) (d : Spec) : Statement (.waitm g d) := of_word rfl (by decide)
theorem fence (g : Guard) (mask : Half) (scope : FenceScope) : Statement (.fence g mask scope) := of_word rfl (by decide)
theorem qfence (g : Guard) (qmask : Byte) : Statement (.qfence g qmask) := of_word rfl (by decide)
theorem send (g : Guard) (data : KData) (core : Spec) : Statement (.send g data core) := of_word rfl (by decide)
theorem recv (g : Guard) (d : KData) (core : Spec) : Statement (.recv g d core) := of_word rfl (by decide)
theorem circuitHeader (c : Fin 256) : Statement (.circuitHeader c) := of_none rfl
theorem circuitDataArrival (c : Fin 256) : Statement (.circuitDataArrival c) := of_none rfl
theorem give (g : Guard) (wsrc : Byte) (core : Spec) (wdst : Byte) (flag : Fin 32) (fe : Bool) : Statement (.give g wsrc core wdst flag fe) := of_word rfl (by decide)
theorem giveAttach (b : Fin 4096) : Statement (.giveAttach b) := of_none rfl
theorem openw (g : Guard) (w : Byte) : Statement (.openw g w) := of_word rfl (by decide)
theorem closew (g : Guard) (w : Byte) : Statement (.closew g w) := of_word rfl (by decide)
theorem fuse (g : Guard) (members : BitVec 4) : Statement (.fuse g members) := of_word rfl (by decide)
theorem flagIncrementArrival (i : Nat) : Statement (.flagIncrementArrival i) := of_none rfl
theorem parkAppend (quad : Fin 16) (i : Nat) : Statement (.parkAppend quad i) := of_none rfl
theorem spawn (g : Guard) (d : Spec) (q : Spec) (rec : Spec) : Statement (.spawn g d q rec) := of_word rfl (by decide)
theorem suspendQueue (g : Guard) (q : Spec) (bt : Fin 16) : Statement (.suspendQueue g q bt) := of_word rfl (by decide)
theorem suspendFlag (g : Guard) (q : Spec) (bt : Fin 16) (flag : Fin 32) (count : BitVec 11) : Statement (.suspendFlag g q bt flag count) := of_word rfl (by decide)
theorem suspendWatch (g : Guard) (q : Spec) (bt : Fin 16) : Statement (.suspendWatch g q bt) := of_word rfl (by decide)
theorem yield (g : Guard) : Statement (.yield g) := of_word rfl (by decide)
theorem done (g : Guard) : Statement (.done g) := of_word rfl (by decide)
theorem tstamp (g : Guard) (d : Spec) : Statement (.tstamp g d) := of_word rfl (by decide)
theorem tstampHub (g : Guard) (d : Spec) : Statement (.tstampHub g d) := of_word rfl (by decide)
theorem tstampSet (g : Guard) (a : Spec) : Statement (.tstampSet g a) := of_word rfl (by decide)
theorem cmptScalar (g : Guard) (a : Spec) (b : Spec) : Statement (.cmptScalar g a b) := of_word rfl (by decide)
theorem cmptVector (g : Guard) (a : KData) (b : KData) (m : Option (Fin 48)) : Statement (.cmptVector g a b m) := of_word rfl (by decide)
theorem trap (g : Guard) (imm : Half) : Statement (.trap g imm) := of_word rfl (by decide)
theorem rft (g : Guard) : Statement (.rft g) := of_word rfl (by decide)
theorem idle (g : Guard) : Statement (.idle g) := of_word rfl (by decide)
theorem brake (g : Guard) (kind : BrakeKind) (t : Spec) : Statement (.brake g kind t) := of_word rfl (by decide)
theorem brakeClear (g : Guard) (kind : BrakeKind) (t : Spec) : Statement (.brakeClear g kind t) := of_word rfl (by decide)
theorem reductionDeadline (ctx : BitVec 46) : Statement (.reductionDeadline ctx) := of_none rfl
theorem fencePacket (c : Fin 256) : Statement (.fencePacket c) := of_none rfl
theorem responseTimeout (req : Nat) : Statement (.responseTimeout req) := of_none rfl
theorem trapEntry (c : Fin 256) (cause : Cause) (tinfo : W64) : Statement (.trapEntry c cause tinfo) := of_none rfl
theorem contextSaveComplete (c : Fin 256) : Statement (.contextSaveComplete c) := of_none rfl
theorem preemptionRequest (c : Fin 256) : Statement (.preemptionRequest c) := of_none rfl
theorem preemptionTaken (c : Fin 256) : Statement (.preemptionTaken c) := of_none rfl
theorem contextSpill (c : Fin 256) : Statement (.contextSpill c) := of_none rfl
theorem resume (c : Fin 256) : Statement (.resume c) := of_none rfl
theorem dispatchPick (die : Fin 4) : Statement (.dispatchPick die) := of_none rfl
theorem pickup (c : Fin 256) : Statement (.pickup c) := of_none rfl
theorem lateTransition (unit : LateUnit) (op : LateOp) (attempt : Fin 3) : Statement (.lateTransition unit op attempt) := of_none rfl
theorem replayWindowExpiry (c : Fin 256) : Statement (.replayWindowExpiry c) := of_none rfl
theorem stretchExpiry (c : Fin 256) : Statement (.stretchExpiry c) := of_none rfl
theorem issueWatchdogExpiry (c : Fin 256) : Statement (.issueWatchdogExpiry c) := of_none rfl
theorem memoryRequest (home : Fin 512) : Statement (.memoryRequest home) := of_none rfl
theorem wheelStep (home : Fin 512) : Statement (.wheelStep home) := of_none rfl
theorem refreshInterval (home : Fin 512) : Statement (.refreshInterval home) := of_none rfl
theorem stackSelfTestStart (stack : Fin 8) : Statement (.stackSelfTestStart stack) := of_none rfl
theorem selfTestParkRow (stack : Fin 8) : Statement (.selfTestParkRow stack) := of_none rfl
theorem selfTestMarchEnd (stack : Fin 8) (pass : Bool) : Statement (.selfTestMarchEnd stack pass) := of_none rfl
theorem selfTestRestoreRow (stack : Fin 8) : Statement (.selfTestRestoreRow stack) := of_none rfl
theorem logicTestStart (die : Fin 4) : Statement (.logicTestStart die) := of_none rfl
theorem logicTestEnd (die : Fin 4) (pass : Bool) : Statement (.logicTestEnd die pass) := of_none rfl
theorem launch (src : Half) (v : W64) : Statement (.launch src v) := of_none rfl
theorem doorbell (src : Half) (q : Fin 131072) (tail : W32) : Statement (.doorbell src q tail) := of_none rfl
theorem imgbaseWrite (src : Half) (p : Fin 16) (v : W64) : Statement (.imgbaseWrite src p v) := of_none rfl
theorem partcfgWrite (src : Half) (p : Fin 16) (v : W64) : Statement (.partcfgWrite src p v) := of_none rfl
theorem slottabWrite (src : Half) (quad : Fin 16) (core : Fin 16) (v : W64) : Statement (.slottabWrite src quad core v) := of_none rfl
theorem bmapWrite (src : Half) (c : Fin 256) (w : Byte) (v : W64) : Statement (.bmapWrite src c w v) := of_none rfl
theorem powerP0 (src : Half) : Statement (.powerP0 src) := of_none rfl
theorem powerP1 (src : Half) : Statement (.powerP1 src) := of_none rfl
theorem powerC1 (src : Half) : Statement (.powerC1 src) := of_none rfl
theorem powerC3 (src : Half) : Statement (.powerC3 src) := of_none rfl
theorem powerD3 (src : Half) : Statement (.powerD3 src) := of_none rfl
theorem powerTransitionEnd : Statement .powerTransitionEnd := of_none rfl
theorem registerWrite (src : Half) (offset : W32) (v : W64) : Statement (.registerWrite src offset v) := of_none rfl
theorem abstainWrite (src : Half) (addr : BitVec 46) (v : W32) : Statement (.abstainWrite src addr v) := of_none rfl
theorem rd (p : Packet) : Statement (.rd p) := of_none rfl
theorem wr (p : Packet) : Statement (.wr p) := of_none rfl
theorem atom (p : Packet) : Statement (.atom p) := of_none rfl
theorem postPacket (p : Packet) : Statement (.postPacket p) := of_none rfl
theorem spawnPacket (p : Packet) : Statement (.spawnPacket p) := of_none rfl
theorem red (p : Packet) : Statement (.red p) := of_none rfl
theorem abst (p : Packet) : Statement (.abst p) := of_none rfl
theorem result (p : Packet) : Statement (.result p) := of_none rfl
theorem fencedone (c : Fin 256) (sw : Nat) : Statement (.fencedone c sw) := of_none rfl
theorem time (master : Half) (offset : W32) : Statement (.time master offset) := of_none rfl
theorem mgmt (p : Packet) : Statement (.mgmt p) := of_none rfl
theorem attestationRequest (nonce : BitVec 256) : Statement (.attestationRequest nonce) := of_none rfl
theorem mcw (p : Packet) : Statement (.mcw p) := of_none rfl
theorem rdrsp (p : Packet) : Statement (.rdrsp p) := of_none rfl
theorem wrack (p : Packet) : Statement (.wrack p) := of_none rfl
theorem atrsp (p : Packet) : Statement (.atrsp p) := of_none rfl
theorem sprsp (p : Packet) : Statement (.sprsp p) := of_none rfl
theorem err (p : Packet) : Statement (.err p) := of_none rfl
theorem unknownPacket (p : Packet) : Statement (.unknownPacket p) := of_none rfl
theorem securityStateChange (target : Sec) : Statement (.securityStateChange target) := of_none rfl
theorem halt (c : Fin 256) : Statement (.halt c) := of_none rfl
theorem overtempP1 : Statement .overtempP1 := of_none rfl
theorem overtempShutdown : Statement .overtempShutdown := of_none rfl

end Sys2Proof.Laws.Assigned
end

