-- ==== Sys2Proof/Safety.lean ====
section
/-! DEFINITION. The terms in which claims about the machine are stated: when an instruction issues and executes, the
state it leaves when it commits, the trap it takes, and the invariants that every step keeps. -/

namespace Sys2Proof.Machine

/-! ### A slot instruction on the core that has its turn -/

/-- The slot of an instruction. -/
def slotOf (i : Instr) : Slot := match instrSlot i with | some (x, _) => x | none => .s

/-- The bundle of an instruction, as its slots. -/
def opsOf (i : Instr) : List (Slot × Instr) := [(slotOf i, i)]

/-- The state in which a bundle is presented: what is due on the core that has its turn has landed (R75). -/
def State.landed (s : State) : State := (Act.cont s.focus Cont.landDue).apply s

/-- The continuation that has its turn, what is due landed. -/
def State.now (s : State) : Cont := (s.landed.cores[s.focus]).cont

/-- What an instruction sees when it is presented on the core that has its turn. -/
def State.env (s : State) (i : Instr) : Env := envOf s.landed s.focus (opsOf i) (slotOf i, i)

/-- The core that has its turn may issue, no trap of another member holds its gang (R261), no bundle of it waits for an access
that it has made, and the instruction passes what comes before its own row of R393: the checks of decode (R70) and check mode
(R80). -/
structure Presented (s : State) (i : Instr) : Prop where
  slot : (instrSlot i).isSome = true
  issues : canIssue s s.focus = true
  alone : gangHeld s.landed s.focus = false
  unasked : s.now.asked = none
  decoded : decodeChecks s.now (opsOf i) = none
  settled : stallTrap s.now (bundleLeaf s.now (opsOf i)) (opsOf i) = none

/-- The instruction is presented, nothing holds it, it executes (R54), and nothing that it reads or pops is poisoned or
a stream that may not be used (R393 rows 1, 2 and 9). -/
structure Checked (s : State) (i : Instr) : Prop extends Presented s i where
  runs : executes s.now (bundleLeaf s.now (opsOf i)) (slotOf i, i) = true
  free : bundleHolds s.landed s.focus 0 (opsOf i) = []
  guard : guardPoison s.now (slotOf i, i) = none
  clean : (slotReads s.now i).find? s.now.rpoison.contains = none
  streams : (streamUses (s.env i) i).findSome? (streamUseTrap s.now (slotOf i) (streamWidth i)) = none
  sound : popPoison s.now (slotOf i) (instrUse i) = none

/-- The instruction passes every check but those of its own row, and no coupled member holds its gang (R261); a core that
is not fused has none. -/
structure Goes (s : State) (i : Instr) : Prop extends Checked s i where
  gang : gangReady s.landed s.focus = true

/-- The state after an instruction has committed with an effect, and with what its last stage adds (R76). -/
def State.done (s : State) (i : Instr) (o : Out) (more : List Result := []) (stage : List Act := []) : State :=
  applyActs s.landed
    (commitActs s.landed s.focus (Bundle.single i) (opsOf i) [((slotOf i, i), o)] more stage)

/-- The state after the core that has its turn has taken a trap in place of issuing (R339, R344). -/
def State.trapped (s : State) (t : Trap) : State := applyActs s.landed (trapActs s.landed s.focus t)

/-- The state after a cycle in which a bundle was held (R72). -/
def State.heldFor (s : State) (h : Held) : State := applyActs s.landed (heldActs s.landed s.focus h)

/-- The state after `n` cycles in which a core issues nothing (R73). -/
def State.idle (s : State) (c : Fin 256) : Nat → State
  | 0 => s
  | n + 1 => State.idle (applyActs s (resultLanding s c)) c n

/-! ### Invariants -/

/-- A list of numbers rises strictly. -/
def rises? : List Nat → Bool
  | a :: b :: xs => decide (a < b) && rises? (b :: xs)
  | _ => true

/-- Memory is in its canonical form, and the sets of empty words and poisoned sectors are strictly rising lists. -/
def State.Inv (s : State) : Prop := memWf s.mem = true ∧ rises? s.empties = true ∧ rises? s.poisoned = true

end Sys2Proof.Machine
end

