-- ==== Sys2Proof/Certificates/Slice0/Obligations.lean ====
section
/-! DEFINITION. What is claimed of the machine, one proposition for each obligation. -/

open Sys2Proof Sys2Proof.Machine

/-! ### The S slot -/

/-- R92: each two-operand scalar instruction that executes gives the value and the latency of its row, computed from
its operands as they stand before the bundle; the outcome is the commit of that one result. -/
def Obligations.ScalarTwoOperand : Prop :=
  ∀ (s : State) (g : Guard) (d a b : Spec),
    let x := s.now.scalar a
    let y := s.now.scalar b
    ∀ p ∈ ([
      (.add g d a b, x + y, 1), (.sub g d a b, x - y, 1), (.and g d a b, x &&& y, 1), (.or g d a b, x ||| y, 1),
      (.xor g d a b, x ^^^ y, 1), (.shl g d a b, x <<< (y.toNat % 64), 1), (.shr g d a b, x >>> (y.toNat % 64), 1),
      (.sar g d a b, x.sshiftRight (y.toNat % 64), 1), (.mul g d a b, x * y, 3),
      (.mulh g d a b, BitVec.ofInt 64 (x.toInt * y.toInt / 2 ^ 64), 3),
      (.mulhu g d a b, BitVec.ofNat 64 (x.toNat * y.toNat / 2 ^ 64), 3),
      (.min g d a b, (if x.toInt < y.toInt then x else y), 1), (.max g d a b, (if y.toInt ≤ x.toInt then x else y), 1),
      (.minu g d a b, (if x.toNat < y.toNat then x else y), 1),
      (.maxu g d a b, (if y.toNat ≤ x.toNat then x else y), 1)] : List (Instr × W64 × Nat)),
      Goes s p.1 → exec p.1 s = .next (s.done p.1 (scalarResult d p.2.1 p.2.2))

/-- R94 and R95: `lea` adds to the window index and to the offset apart, with no carry from one to the other; `li`
gives its immediate sign-extended, and `lui` replaces the high half of its destination. R96 to R98, R101: `clz` gives
the number of zero bits above the highest set bit, `popc` the number of set bits, `bfx` and `bfi` read and replace the
field of LEN bits at POS, `sel` chooses by bit 0 of a predicate, `vext` a lane of a last-result register. -/
def Obligations.ScalarBits : Prop :=
  (∀ (s : State) (g : Guard) (d a : Spec) (wd : Byte) (od : Half) (i34 : BitVec 34) (i32 : W32),
     let x := s.now.scalar a
     ∀ p ∈ ([
       (.lea g d a wd od,
         BitVec.ofNat 64 ((x.toNat / 65536 + wd.toNat) % 256 * 65536 + (x.toNat + od.toNat) % 65536)),
       (.li g d i34, i34.signExtend 64), (.lui g d i32, BitVec.ofNat 64 (i32.toNat * 2 ^ 32 + (s.now.scalar d).toNat % 2 ^ 32))]
         : List (Instr × W64)),
       Goes s p.1 → exec p.1 s = .next (s.done p.1 (scalarResult d p.2 1))) ∧
  (∀ (s : State) (g : Guard) (d a b : Spec) (pos len1 ln : BitVec 6) (p : Fin 48),
     let x := s.now.scalar a
     let f := x.toNat / 2 ^ pos.toNat % 2 ^ (len1.toNat + 1)
     let v := (if a = .la then s.now.va.last else s.now.vb.last).toNat / 2 ^ (32 * ln.toNat) % 2 ^ 32
     (∀ n : Nat, n ≤ 64 → x.toNat < 2 ^ (64 - n) → (n = 64 ∨ 2 ^ (63 - n) ≤ x.toNat) → Goes s (.clz g d a) →
       exec (.clz g d a) s = .next (s.done (.clz g d a) (scalarResult d (BitVec.ofNat 64 n) 1))) ∧
     ∀ q ∈ ([
       (.popc g d a, BitVec.ofNat 64 ((List.range 64).countP fun i => x.getLsbD i)),
       (.bfx g d a pos len1 false, BitVec.ofNat 64 f),
       (.bfx g d a pos len1 true,
         if x.getLsbD (pos.toNat + len1.toNat) then BitVec.ofInt 64 (f - 2 ^ (len1.toNat + 1)) else BitVec.ofNat 64 f),
       (.sel g d a b p, if (s.now.p[p]).getLsbD 0 then x else s.now.scalar b),
       (.vext g d a ln false, BitVec.ofNat 64 v),
       (.vext g d a ln true, if 2 ^ 31 ≤ v then BitVec.ofInt 64 (v - 2 ^ 32) else BitVec.ofNat 64 v)] : List (Instr × W64)),
       Goes s q.1 → exec q.1 s = .next (s.done q.1 (scalarResult d q.2 1)))

/-- R97: `bfi` completes, and bit by bit its result is bit i - POS of the inserted operand inside the field and the bit
of the other operand outside. -/
def Obligations.FieldInsert : Prop :=
  ∀ (s : State) (g : Guard) (d a b : Spec) (pos len1 : BitVec 6), Goes s (.bfi g d a b pos len1) →
    ∃ v : W64,
      exec (.bfi g d a b pos len1) s = .next (s.done (.bfi g d a b pos len1) (scalarResult d v 1)) ∧
      ∀ i : Nat, i < 64 →
        v.getLsbD i =
          if pos.toNat ≤ i ∧ i ≤ pos.toNat + len1.toNat then (s.now.scalar a).getLsbD (i - pos.toNat)
          else (s.now.scalar b).getLsbD i

/-! ### Predicates, control registers and descriptor fields -/

/-- R99 and R100: a compare writes all 64 bits of its predicate alike, by the condition named; predicate logic works on
all 64 bits; `pset` copies a scalar. Each lands after one cycle, and no last-result register is written. -/
def Obligations.ScalarPredicates : Prop :=
  ∀ (s : State) (g : Guard) (pd pa pb : Fin 48) (a b : Spec) (imm : BitVec 24),
    let x := s.now.scalar a
    let all (c : Prop) [Decidable c] : W64 := if c then BitVec.allOnes 64 else 0
    let holds (y : W64) : List (Cond × W64) :=
      [(.eq, all (x = y)), (.ne, all (x ≠ y)), (.lt, all (x.toInt < y.toInt)), (.le, all (x.toInt ≤ y.toInt)),
       (.ltu, all (x.toNat < y.toNat)), (.leu, all (x.toNat ≤ y.toNat)), (.gt, all (y.toInt < x.toInt)),
       (.ge, all (y.toInt ≤ x.toInt))]
    let lands (i : Instr) (v : W64) : Prop :=
      Goes s i → exec i s = .next (s.done i { res := [{ reg := .p pd, data := v.setWidth 2048, lat := 1 }] })
    (∀ c ∈ holds (s.now.scalar b), lands (.cmp g pd a b c.1) c.2) ∧
    (∀ c ∈ holds (imm.signExtend 64), lands (.cmpi g pd a imm c.1) c.2) ∧
    lands (.pand g pd pa pb) (s.now.p[pa] &&& s.now.p[pb]) ∧ lands (.por g pd pa pb) (s.now.p[pa] ||| s.now.p[pb]) ∧
    lands (.pxor g pd pa pb) (s.now.p[pa] ^^^ s.now.p[pb]) ∧ lands (.pandn g pd pa pb) (s.now.p[pa] &&& ~~~s.now.p[pb]) ∧
    lands (.pset g pd a) x

/-- R66 and R102, `mfc`: each control register by its number, the core's identifier and the partition's RISE among
them; a tag's status word goes to a pair of registers, its low word to ls too. R102 and R103 with the access rules of
R2, `mtc`: it completes, and the register then reads as written, its read-only fields and the read-only registers as
before; CSTAT.OVF is cleared by a 1 (R67), a LIMIT of 0 is stored as 1 (R358), and SWOFF follows OFFSET (R357); TINFO takes all 64 bits
(the model's choice, log entry 95: R66 gives the register RW, R71 and R338 its fields RO). -/
def Obligations.ControlRegisters : Prop :=
  (∀ (s : State) (g : Guard) (d : Spec),
     let k := s.now
     let x := s.landed.cores[s.focus]
     (∀ r ∈ ([(0, k.cstat), (1, k.tvec.setWidth 64), (2, k.tpc.setWidth 64), (3, k.tcause), (4, k.tinfo), (5, k.tags),
         (6, k.padm), (7, k.ts), (8, x.tent), (9, x.rplcnt), (10, x.tmrcnt.setWidth 64), (11, k.vflaga), (12, k.vflagb),
         (13, BitVec.ofNat 64 s.focus.val), (14, x.snapcnt), (15, (s.parts[k.part]).rise), (16, k.err[0]), (17, k.err[1]),
         (18, k.err[2]), (19, k.err[3])] : List (Byte × W64)),
       Goes s (.mfc g d r.1) → exec (.mfc g d r.1) s = .next (s.done (.mfc g d r.1) (scalarResult d r.2 1))) ∧
     ∀ (i : Fin 64) (t : Fin 64),
       let m : Instr := .mfc g (.main i) (BitVec.ofNat 8 (64 + t.val))
       Goes s m → exec m s = .next (s.done m { res :=
         [{ reg := .s i, data := (k.status[t].setWidth 64).setWidth 2048, lat := 1, lr := true },
          { reg := .s (i + 1), data := (k.status[t] >>> 64 |>.setWidth 64).setWidth 2048, lat := 1 }] })) ∧
  (∀ (s : State) (g : Guard) (a : Spec),
     let v := s.now.scalar a
     let old (n : Nat) : W64 := ctlRead s.landed s.focus n
     let low : W64 := v &&& 0xFFFFFFFF
     ∀ r ∈ ([(0, (if v.getLsbD 1 then old 0 &&& ~~~(2 : W64) else old 0) &&& ~~~(1 : W64) ||| (v &&& 1)), (1, low), (2, low),
         (3, old 3 &&& ~~~(0x11F : W64) ||| (v &&& 0x11F)), (4, v), (5, v), (6, v &&& 0x0000FFFFFFFF000F), (7, v),
         (8, old 8 &&& ~~~(0x1F3F : W64) ||| (v &&& (0x3F : W64)) ||| ((v &&& (0x1F : W64)) <<< (8 : Nat))),
         (9, old 9 &&& ~~~(0xF : W64) ||| (if v &&& 0xF = 0 then 1 else v &&& 0xF)), (10, low), (11, v &&& 0x1F), (12, v &&& 0x1F),
         (13, old 13), (14, old 14), (15, old 15), (16, old 16), (17, old 17), (18, old 18), (19, old 19)] : List (Nat × W64)),
       let m : Instr := .mtc g (BitVec.ofNat 8 r.1) a
       Goes s m → ∃ t, exec m s = .next t ∧ ctlRead t s.focus r.1 = r.2)

/-- R104 and R105: `tset` and `setbt` complete with the operand on its way to the field or the branch target, and
`tget` gives the field of a half that is not poisoned, zero-extended. R104: a descriptor's field reads as it was
written, cut to its width, and writing one field leaves every other as it was. -/
def Obligations.DescriptorFields : Prop :=
  (∀ (s : State) (g : Guard) (d a : Spec) (t : Fin 32) (f n : Fin 16) (addr : W32),
     let x := s.now.scalar a
     let (lo, len) := fieldPos f
     (Goes s (.tset g t f a) → exec (.tset g t f a) s =
       .next (s.done (.tset g t f a) { res := [{ reg := .field t f, data := x.setWidth 2048, lat := 1 }] })) ∧
     (Goes s (.setbtAddr g n addr) → exec (.setbtAddr g n addr) s =
       .next (s.done (.setbtAddr g n addr) { res := [{ reg := .bt n, data := addr.setWidth 2048, lat := 1 }] })) ∧
     (Goes s (.setbtReg g n a) → exec (.setbtReg g n a) s =
       .next (s.done (.setbtReg g n a) { res := [{ reg := .bt n, data := x.setWidth 2048, lat := 1 }] })) ∧
     (Goes s (.tget g d t f) → (∀ hi : Fin 2, s.now.tpoison.getLsbD (2 * t.val + hi.val) = false) →
       exec (.tget g d t f) s =
         .next (s.done (.tget g d t f) (scalarResult d (BitVec.ofNat 64 ((s.now.t[t]).toNat / 2 ^ lo % 2 ^ len)) 1)))) ∧
  (∀ (t : Desc) (f h : Fin 16) (x : W64),
     getField (setField t f x) f = BitVec.ofNat 64 (x.toNat % 2 ^ (fieldPos f).2) ∧
     (f ≠ h → getField (setField t f x) h = getField t h))

/-! ### The V0 and V1 slots -/

/-- R120 with R118: each lane-wise integer instruction gives, in the lanes of the enable set E, the value of its row from
the operands' lanes before the bundle, two cycles after issue. -/
def Obligations.VectorInteger : Prop :=
  ∀ (s : State) (g : Guard) (cl : Cluster) (d a b : Spec),
    let x (i : Nat) : W32 := lane (s.now.vector cl false a) i
    let y (i : Nat) : W32 := lane (s.now.vector cl false b) i
    let sat (z : Int) : W32 := BitVec.ofInt 32 (if z < -(2 ^ 31) then -(2 ^ 31) else if 2 ^ 31 - 1 < z then 2 ^ 31 - 1 else z)
    ∀ p ∈ ([
      (.vadd g cl d a b, fun i => x i + y i), (.vsub g cl d a b, fun i => x i - y i),
      (.vmul g cl d a b, fun i => x i * y i),
      (.vmulh g cl d a b, fun i => BitVec.ofInt 32 ((x i).toInt * (y i).toInt / 2 ^ 32)),
      (.vmin g cl d a b, fun i => if (x i).toInt < (y i).toInt then x i else y i),
      (.vmax g cl d a b, fun i => if (y i).toInt ≤ (x i).toInt then x i else y i),
      (.vminu g cl d a b, fun i => if (x i).toNat < (y i).toNat then x i else y i),
      (.vmaxu g cl d a b, fun i => if (y i).toNat ≤ (x i).toNat then x i else y i),
      (.vand g cl d a b, fun i => x i &&& y i), (.vor g cl d a b, fun i => x i ||| y i),
      (.vxor g cl d a b, fun i => x i ^^^ y i), (.vshl g cl d a b, fun i => x i <<< ((y i).toNat % 32)),
      (.vshr g cl d a b, fun i => x i >>> ((y i).toNat % 32)),
      (.vsar g cl d a b, fun i => (x i).sshiftRight ((y i).toNat % 32)),
      (.vadds g cl d a b, fun i => sat ((x i).toInt + (y i).toInt)),
      (.vsubs g cl d a b, fun i => sat ((x i).toInt - (y i).toInt)),
      (.vabs g cl d a, fun i => if (x i).toInt < 0 then -x i else x i), (.vneg g cl d a, fun i => -x i)]
        : List (Instr × (Nat → W32))),
      Goes s p.1 → exec p.1 s = .next (s.done p.1 (vectorResult cl d (s.now.enable g) (ofLanes p.2) 2))

/-- R121, R126, R130 and R132: the compares and `vtop` write the bits of E of a predicate, `vsel` and `vfromp` read one,
each bit beside its lane; a floating compare raises the flags of the lanes of E. -/
def Obligations.VectorPredicates : Prop :=
  ∀ (s : State) (g : Guard) (cl : Cluster) (d a b : Spec) (p : Fin 48) (c : Cond) (fc : FCond),
    let e := s.now.enable g
    let x (i : Nat) : W32 := lane (s.now.vector cl false a) i
    let y (i : Nat) : W32 := lane (s.now.vector cl false b) i
    let r (i : Nat) : Bool × FFlags :=
      fcmpV fc (FFmt.f32.dec (lane (s.now.vector cl true a) i)) (FFmt.f32.dec (lane (s.now.vector cl true b) i))
    let on (i : Nat) : Bool := (s.now.p[p]).getLsbD i
    ∀ q ∈ ([
      (.vcmp g cl p a b c, vpredResult p e (fun i => condHolds c (x i) (y i)) 2),
      (.fcmp g cl p a b fc, vpredResult p e (fun i => (r i).1) 4 (laneFlags e fun i => (r i).2)),
      (.vtop g cl p a, vpredResult p e (fun i => decide (x i ≠ 0)) 2),
      (.vsel g cl d a b p, vectorResult cl d e (ofLanes fun i => if on i then x i else y i) 2),
      (.vfromp g cl d p, vectorResult cl d e (ofLanes fun i => if on i then 0xFFFFFFFF else 0) 2)] : List (Instr × Out)),
      Goes s q.1 → exec q.1 s = .next (s.done q.1 q.2)

/-- R122 to R125: each floating instruction gives in every lane of E the exact result of its lane rounded once, and
raises the flags of the lanes of E alone. R124: `fabs` and `fneg` work on the sign bit, a NaN giving the canonical
NaN; `fclass` gives one of ten bits by the kind of the operand. None of them raises a flag. -/
def Obligations.VectorFloat : Prop :=
  (∀ (s : State) (g : Guard) (cl : Cluster) (d a b c : Spec) (rm : Rm),
     let e := s.now.enable g
     let raw (o : Spec) (i : Nat) : W32 := lane (s.now.vector cl true o) i
     let x (i : Nat) : FVal := FFmt.f32.dec (raw a i)
     let y (i : Nat) : FVal := FFmt.f32.dec (raw b i)
     let z (i : Nat) : FVal := FFmt.f32.dec (raw c i)
     ∀ p ∈ ([
       (.fadd g cl d a b rm, 4, fun i => addV rnd32 rm (x i) (y i)),
       (.fsub g cl d a b rm, 4, fun i => addV rnd32 rm (x i) (y i).neg),
       (.fmul g cl d a b rm, 4, fun i => mulV rnd32 rm (x i) (y i)),
       (.fma g cl d a b c rm, 4, fun i => fmaV rnd32 rm (x i) (y i) (z i)),
       (.fms g cl d a b c rm, 4, fun i => fmaV rnd32 rm (x i) (y i) (z i).neg),
       (.fnma g cl d a b c rm, 4, fun i => fmaV rnd32 rm (x i).neg (y i) (z i)),
       (.fmin g cl d a b, 4, fun i => minmax32 false (raw a i) (raw b i)),
       (.fmax g cl d a b, 4, fun i => minmax32 true (raw a i) (raw b i)),
       (.fdiv g cl d a b rm, 14, fun i => divV rm (x i) (y i)), (.fsqrt g cl d a rm, 14, fun i => sqrtV rm (x i)),
       (.frcp g cl d a, 6, fun i => rcpV (x i)), (.frsq g cl d a, 6, fun i => rsqV (x i))]
         : List (Instr × Nat × (Nat → W32 × FFlags))),
       Goes s p.1 → exec p.1 s =
         .next (s.done p.1 (vectorResult cl d e (ofLanes fun i => (p.2.2 i).1) p.2.1 (laneFlags e fun i => (p.2.2 i).2)))) ∧
  (∀ (s : State) (g : Guard) (cl : Cluster) (d a : Spec),
     let raw (i : Nat) : W32 := lane (s.now.vector cl true a) i
     let nan (w : W32) : Prop := 0x7F800000 < w.toNat % 2 ^ 31
     let cls (w : W32) : Nat :=
       let m := w.toNat % 2 ^ 31
       let neg := w.getLsbD 31
       if nan w then (if m < 0x7FC00000 then 0 else 1)
       else if m = 0x7F800000 then (if neg then 2 else 9)
       else if m = 0 then (if neg then 5 else 6)
       else if m < 0x800000 then (if neg then 4 else 7)
       else if neg then 3 else 8
     ∀ p ∈ ([
       (.fabs g cl d a, fun i => if nan (raw i) then 0x7FC00000 else raw i &&& 0x7FFFFFFF),
       (.fneg g cl d a, fun i => if nan (raw i) then 0x7FC00000 else raw i ^^^ 0x80000000),
       (.fclass g cl d a, fun i => BitVec.ofNat 32 (2 ^ cls (raw i)))] : List (Instr × (Nat → W32))),
       Goes s p.1 → exec p.1 s = .next (s.done p.1 (vectorResult cl d (s.now.enable g) (ofLanes p.2) 2)))

/-- R127 to R129: the conversions. `cvt` converts the value of each lane once; `vpack` narrows two lanes into the halves
of one, `vunpk` widens one half; `plext` gives the values of a quarter of an NI group; `plins` writes every lane of its
destination: the top k planes of the quarter's elements in E hold the integer that R31 stores for the lane, and every other bit of
the group is unchanged. -/
def Obligations.VectorConvert : Prop :=
  ∀ (s : State) (g : Guard) (cl : Cluster) (d a b : Spec) (src dst : VFmt) (kind : PackKind) (half c : Bool) (k1 : Fin 8)
    (q : Fin 4) (rm : Rm),
    let e := s.now.enable g
    let x (fp : Bool) (o : Spec) (i : Nat) : W32 := lane (s.now.vector cl fp o) i
    let fp := decide (kind = .bf16 ∨ kind = .f16)
    let lanes (i : Instr) (f : Nat → W32 × FFlags) : Prop :=
      Goes s i → exec i s =
        .next (s.done i (vectorResult cl d e (ofLanes fun i => (f i).1) 3 (laneFlags e fun i => (f i).2)))
    let group := s.now.vector cl false a
    let k := k1.val + 1
    lanes (.cvt g cl d a src dst rm) (fun i => cvtLane src dst rm (x (decide (src = .f32)) a i)) ∧
    lanes (.vpack g cl d a b kind rm) (fun i =>
      let lo := narrow kind rm (x fp a i)
      let hi := narrow kind rm (x fp b i)
      (hi.1 <<< 16 ||| lo.1, lo.2 ||| hi.2)) ∧
    lanes (.vunpk g cl d a kind half) (fun i =>
      widen kind (BitVec.ofNat 32 ((x false a i).toNat / (if half then 2 ^ 16 else 1) % 2 ^ 16))) ∧
    (Goes s (.plext g cl d a k1 c q) → exec (.plext g cl d a k1 c q) s =
      .next (s.done (.plext g cl d a k1 c q) (vectorResult cl d e (ofLanes fun j =>
        BitVec.ofInt 32 (if c then (2 * niRead group k (64 * q.val + j) + 1) * 2 ^ (7 - k)
          else niRead group k (64 * q.val + j) * 2 ^ (8 - k))) 3))) ∧
    (Goes s (.plins g cl d a k1 c q rm) → ∃ v : VReg,
      exec (.plins g cl d a k1 c q rm) s = .next (s.done (.plins g cl d a k1 c q rm) (vectorResult cl d e v 3 0 true)) ∧
      (∀ j : Nat, j < 64 → e.getLsbD j = false → ∀ p : Nat, p < 8 →
        v.getLsbD (planePos p (64 * q.val + j)) = (s.now.vector cl false d).getLsbD (planePos p (64 * q.val + j))) ∧
      (∀ j : Nat, j < 64 → e.getLsbD j = true → ∀ p : Nat, p < 8 →
        v.getLsbD (planePos p (64 * q.val + j)) =
          if 8 - k ≤ p then
            (BitVec.ofInt k (niClamp k (niSelect c k rm (x false a j).toInt 0 false)).1).getLsbD (p - (8 - k))
          else (s.now.vector cl false d).getLsbD (planePos p (64 * q.val + j))) ∧
      ∀ i : Nat, i < 256 → i / 64 ≠ q.val → ∀ p : Nat, p < 8 →
        v.getLsbD (planePos p i) = (s.now.vector cl false d).getLsbD (planePos p i))

/-- R130, R131 and R134: moves, permutes and inserts. `xmov` writes the other cluster's register and no last-result
register; `vins` writes one lane, where E has it. -/
def Obligations.VectorMoves : Prop :=
  ∀ (s : State) (g : Guard) (cl : Cluster) (d a b : Spec) (imm : W32) (start : Half) (stride : Byte) (n : BitVec 6)
    (st : Fin 6),
    let e := s.now.enable g
    let v := s.now.vector cl false a
    let idx := s.now.vector cl false b
    (∀ p ∈ ([
      (.vmov g cl d a, 2, fun i => lane v i), (.vli g cl d imm, 2, fun _ => imm),
      (.viota g cl d start stride, 2, fun i => BitVec.ofInt 32 (start.toInt + i * stride.toInt)),
      (.vbcast g cl d a n, 3, fun _ => lane v n.toNat), (.vperm g cl d a b, 3, fun i => lane v ((lane idx i).toNat % 64)),
      (.vrot g cl d a n, 3, fun i => lane v ((i + n.toNat) % 64)), (.vbfly g cl d a st, 3, fun i => lane v (i ^^^ 2 ^ st.val))]
        : List (Instr × Nat × (Nat → W32))),
      Goes s p.1 → exec p.1 s = .next (s.done p.1 (vectorResult cl d e (ofLanes p.2.2) p.2.1))) ∧
    (Goes s (.vins g cl d a n) → exec (.vins g cl d a n) s =
      .next (s.done (.vins g cl d a n)
        (vectorResult cl d (e &&& (1#64 <<< n.toNat)) (splat ((s.now.scalar a).setWidth 32)) 2))) ∧
    (Goes s (.xmov g cl d a) → exec (.xmov g cl d a) s =
      .next (s.done (.xmov g cl d a)
        { res := ((specRegV (otherCl cl) d).map fun r => { reg := r, data := v, lanes := e, lat := 3 : Result }).toList }))

/-- R45 and R133: a reduction takes the lanes that take part, those of the predicate named that are not padding, and puts its
result into every lane of E six cycles later; with E empty it writes nothing and raises no flag. The floating ones combine by the
pairwise tree, in which an absent lane passes its partner through: the flags are those of the combinations made, NV is raised
for a signalling NaN that takes part, and a NaN is delivered canonical. With no lane taking part the result is the operation's
own for none. -/
def Obligations.VectorReductions : Prop :=
  ∀ (s : State) (g : Guard) (cl : Cluster) (d a : Spec) (pm : Option (Fin 48)) (sat : Bool) (rm : Rm),
    let e := s.now.enable g
    let part (i : Nat) : Bool :=
      (match pm with | none => true | some p => (s.now.p[p]).getLsbD i) && !padLane s.now.padm i
    let lanes := (List.range 64).filter part
    let ints := lanes.map fun i => (lane (s.now.vector cl false a) i).toInt
    let sum := ints.sum
    let res (v : W32) (f : FFlags) : Out := if e = 0 then { push := false } else vectorResult cl d e (splat v) 6 f
    let gives (i : Instr) (v : W32) : Prop := Goes s i → exec i s = .next (s.done i (res v 0))
    let raw (i : Nat) : W32 := lane (s.now.vector cl true a) i
    let dec (w : W32) : FVal := FFmt.f32.dec w
    -- a member of the tree is its value with the flags raised so far
    let tree (f : W32 → W32 → W32 × FFlags) : Option (W32 × FFlags) :=
      treeFold (fun x y => ((f x.1 y.1).1, (f x.1 y.1).2 ||| x.2 ||| y.2)) 6
        ((List.range 64).map fun i => if part i then some (raw i, 0) else none)
    gives (.vradd g cl d a pm sat)
      (if sat then BitVec.ofInt 32 (if sum < -(2 ^ 31) then -(2 ^ 31) else if 2 ^ 31 - 1 < sum then 2 ^ 31 - 1 else sum)
        else BitVec.ofInt 32 sum) ∧
    gives (.vrmax g cl d a pm) (BitVec.ofInt 32 (ints.foldl max (-(2 ^ 31)))) ∧
    gives (.vrmin g cl d a pm) (BitVec.ofInt 32 (ints.foldl min (2 ^ 31 - 1))) ∧
    ∀ r ∈ ([(.frsum g cl d a pm rm, 0, fun x y => addV rnd32 rm (dec x) (dec y)), (.frmax g cl d a pm, 0xFF800000, minmax32 true),
        (.frmin g cl d a pm, 0x7F800000, minmax32 false)] : List (Instr × W32 × (W32 → W32 → W32 × FFlags))),
      Goes s r.1 →
        (∀ v f, tree r.2.2 = some (v, f) → exec r.1 s = .next (s.done r.1
          (res (if (dec v).isNan then 0x7FC00000 else v) (f ||| snanFlag (lanes.map fun i => dec (raw i)))))) ∧
        (lanes = [] → exec r.1 s = .next (s.done r.1 (res r.2.1 0))) ∧
        ∀ i, lanes = [i] → ¬ (dec (raw i)).isNan → exec r.1 s = .next (s.done r.1 (res (raw i) 0))

/-! ### Nops and control transfers -/

/-- R69: a nop commits with no effect of its own, whatever stands in its operand field. R110 and R107: `loop` with a
counter of zero falls through and leaves it, and otherwise decrements it and transfers without a bubble; `loop set`
sets the counter to the low 32 bits of its operand. -/
def Obligations.NopsAndLoops : Prop :=
  (∀ (s : State) (g : Guard) (cl : Cluster),
     ∀ i ∈ ([.nop g, .vnop g cl, .lnop g, .knop g, .tnop g, .cnop g, .ynop g] : List Instr),
       Goes s i → exec i s = .next (s.done i {})) ∧
  (∀ (s : State) (g : Guard) (j : Bool) (n : Fin 16) (a : Spec),
     let i : Fin 2 := if j then 1 else 0
     (Goes s (.loop g j n) → s.now.lc[i] = 0 → exec (.loop g j n) s = .next (s.done (.loop g j n) {})) ∧
     (Goes s (.loop g j n) → s.now.lc[i] ≠ 0 → ∃ t, exec (.loop g j n) s = .next t ∧
       (t.cores[s.focus]).cont.lc[i] = s.now.lc[i] - 1 ∧ (t.cores[s.focus]).cont.pc = s.now.bt[n] ∧
       (t.cores[s.focus]).cont.owed = 0) ∧
     (Goes s (.loopSet g j a) → ∃ t, exec (.loopSet g j a) s = .next t ∧
       (t.cores[s.focus]).cont.lc[i] = (s.now.scalar a).setWidth 32 ∧ (t.cores[s.focus]).cont.pc = s.now.pc + 1))

/-- R106 and R107: a jump, a call and a return go to the branch target read before the bundle, or to the address in
the instruction, with two bubbles; a call leaves its own code address plus 1 in the link register. R108 and R109:
`tree` evaluates its four tests, those beyond COUNT false, and takes the leaf of its shape: leaf 0 is the next bundle,
leaf l goes to the branch target 4·GROUP + l - 1. -/
def Obligations.TransfersAndTrees : Prop :=
  (∀ (s : State) (g : Guard) (n k : Fin 16) (addr : W32),
     let link : List Result := [{ reg := .bt k, data := (s.now.pc + 1).setWidth 2048, lat := 1 }]
     ∀ p ∈ ([
       (.jmpBt g n, { jump := some (s.now.bt[n], 2) }), (.jmpAddr g addr, { jump := some (addr, 2) }),
       (.callBt g k n, { res := link, jump := some (s.now.bt[n], 2) }),
       (.callAddr g k addr, { res := link, jump := some (addr, 2) }), (.ret g n, { jump := some (s.now.bt[n], 2) })]
         : List (Instr × Out)),
       Goes s p.1 → exec p.1 s = .next (s.done p.1 p.2)) ∧
  (∀ (s : State) (g : Guard) (sh : Shape) (t1 t2 t3 t4 : Test) (group count : BitVec 2),
     let n := if count = 0 then 4 else count.toNat
     let test (j : Nat) (t : Test) : Bool := decide (j ≤ n) && ((s.now.p[t.p.toNat % 48]'(by omega)).getLsbD 0 != t.neg)
     let b1 := test 1 t1
     let b2 := test 2 t2
     let b3 := test 3 t3
     let b4 := test 4 t4
     let leaf : Nat := match sh with
       | .chain => if b1 then 1 else if b2 then 2 else if b3 then 3 else if b4 then 4 else 0
       | .pairs => if b1 && b2 then 1 else if b1 then 2 else if b3 then 3 else if b4 then 4 else 0
       | .gate => if b1 && b2 then 1 else if b1 then 2 else if b3 && b4 then 3 else if b3 then 4 else 0
     Goes s (.tree g sh t1 t2 t3 t4 group count) →
       (leaf = 0 → exec (.tree g sh t1 t2 t3 t4 group count) s = .next (s.done (.tree g sh t1 t2 t3 t4 group count) {})) ∧
       ∀ m : Fin 16, 0 < leaf → m.val = 4 * group.toNat + leaf - 1 →
         exec (.tree g sh t1 t2 t3 t4 group count) s =
           .next (s.done (.tree g sh t1 t2 t3 t4 group count) { jump := some (s.now.bt[m], 2) }))

/-- R111 to R113: `bsel` on a table that its checks pass gives the first size not below its operand, the PADM of that
bucket and the bucket's entry; an operand above every size gives itself, a PADM of 0 and the overflow entry. dst and
PADM land 9 cycles after issue, and the transfer has 8 bubbles. -/
def Obligations.BucketSelect : Prop :=
  ∀ (s : State) (g : Guard) (d a b : Spec),
    let w : BitVec 24 := (s.now.scalar b).setWidth 24
    let bank := bankOf s.focus (s.now.entry (winOf w)).bank
    let word (i : Nat) : W32 := BitVec.ofNat 32 (memNat s.mem (bankPa bank (w.toNat % 65536) + 4 * i) 4)
    let n := (word 0).toNat % 64
    let sizes := (List.range n).map fun i => word (i + 1)
    let x := s.now.scalar a
    let m : Instr := .bsel g d a b
    Goes s m → w.toNat % 4 = 0 → w.toNat % 65536 + 4 * (2 * n + 2) ≤ 65536 →
      ((winOf w).toNat < 252 ∨ (s.now.cstat).getLsbD 2 = true) → (s.now.entry (winOf w)).v = true →
      ownerReads (s.banks[bank]).st = true → tableOk (word 0) sizes = true →
      poisonIn s.poisoned (bankPa bank (w.toNat % 65536)) (4 * (2 * n + 2)) = none →
      let out (v padm : W64) (target : W32) : Out :=
        { res := plainResult d v 9 ++ [{ reg := .padm, data := padm.setWidth 2048, lat := 9 }], jump := some (target, 8) }
      (∀ i : Nat, i < n → x.toNat ≤ (word (i + 1)).toNat → (∀ j : Nat, j < i → (word (j + 1)).toNat < x.toNat) →
        exec m s = .next (s.done m (out ((word (i + 1)).setWidth 64)
          (BitVec.ofNat 64 (x.toNat * 2 ^ 32 + (word (i + 1)).toNat * 2 ^ 16 + (word 0).toNat / 2 ^ 8 % 4 * 4 +
            (word 0).toNat / 2 ^ 10 % 2 * 2 + 1)) (word (n + 1 + i))))) ∧
      ((∀ i : Nat, i < n → (word (i + 1)).toNat < x.toNat) → exec m s = .next (s.done m (out x 0 (word (2 * n + 1)))))

/-! ### The L and K slots -/

/-- R144 to R147 and R393: a load whose effective address passes its checks commits: it joins the owner port's queue of
its bank, or of both banks it reaches, and takes an entry of its load-data queue, or none for a descriptor half. The
address is base + index · scale · width + offset, cut to 24 bits. -/
def Obligations.Loads : Prop :=
  ∀ (s : State) (g : Guard) (base index : Spec) (scale : BitVec 2) (off : BitVec 12) (cls : BitVec 4) (width : Width)
    (dest : LoadTo) (sx : Bool),
    let ea (n : Nat) : BitVec 24 :=
      (s.now.scalar base + s.now.scalar index * BitVec.ofNat 64 (2 ^ scale.toNat * n) + off.signExtend 64).setWidth 24
    (∀ ps, let i : Instr := .ld g base index scale off cls width dest
      Goes s i → checkAccess (s.env i) (ea (widthBytes width)) (loadLen dest width) (loadAlign dest width) true false = .ok ps →
        exec i s = .next (s.done i { acts := (
          enqueue (s.env i) (s.env i).id cls ps (fun _ => .load) (isDesc dest) false false ++
            allocate (s.env i) (s.env i).id dest width 0 ps) })) ∧
    (∀ ps, let i : Instr := .lde g base index scale off cls sx
      Goes s i → checkAccess (s.env i) (ea 4) 4 4 true true = .ok ps →
        exec i s = .next (s.done i { acts := (
          enqueue (s.env i) (s.env i).id cls ps (fun _ => .lde) false true true ++
            allocate (s.env i) (s.env i).id (.qs sx) .w 0 ps) })) ∧
    ∀ ps, let i : Instr := .ldf g base index scale off cls sx
      Goes s i → checkAccess (s.env i) (ea 4) 4 4 true false = .ok ps →
        exec i s = .next (s.done i { acts := (
          enqueue (s.env i) (s.env i).id cls ps (fun _ => .ldf) false false true ++
            allocate (s.env i) (s.env i).id (.qs sx) .w 0 ps) })

/-- R153 and R157: `amo` and `lbst` whose addresses pass their checks commit: the owner port performs them later, and an
entry of qs waits for the value that the word held, or the state of the bank. -/
def Obligations.AtomicsAndStates : Prop :=
  ∀ (s : State) (g : Guard) (base val : Spec) (op : AmoOp) (cls : BitVec 4) (wide sel : Bool),
    let a : BitVec 24 := (s.now.scalar base).setWidth 24
    let n := if wide then 8 else 4
    let expect := match op with | .cas x => s.now.scalar x | _ => 0
    (∀ ps, let i : Instr := .amo g base val op cls wide
      Goes s i → checkAccess (s.env i) a n n true true = .ok ps →
        exec i s = .next (s.done i { acts := (
          enqueue (s.env i) (s.env i).id cls ps (fun _ => .amo op (s.now.scalar val) expect) false true false ++
            allocate (s.env i) (s.env i).id (.qs true) (if wide then .d else .w) 2 ps) })) ∧
    ∀ ps, let i : Instr := .lbst g base cls sel
      Goes s i → checkAccess (s.env i) a 1 1 false false = .ok ps →
        exec i s = .next (s.done i { acts := (
          enqueue (s.env i) (s.env i).id cls ps (fun _ => .lbst sel) false false false ++
            allocate (s.env i) (s.env i).id (.qs false) .d 0 ps) })

/-- R148, R149 and R151: a store whose address passes its checks commits with its data as it was read at issue: every
byte of a register, the half of a descriptor that is not poisoned, a word with its full/empty bit, or the lanes set in
a predicate that are not padding. R154: `bst` on a bank that is neither filling nor draining commits, and the bank
then has the state declared and the buffer number. -/
def Obligations.Stores : Prop :=
  (∀ (s : State) (g : Guard) (base : Spec) (x : KData) (t : Fin 32) (hi : Bool) (off : BitVec 12) (cls : BitVec 4)
     (width : Width) (p : Fin 48),
     let a : BitVec 24 := (s.now.scalar base + off.signExtend 64).setWidth 24
     let v := s.now.kdata x
     let every : Nat → Bool := fun _ => true
     let on (i : Nat) : Bool := (s.now.p[p]).getLsbD (i / 4) && !padLane s.now.padm (i / 4)
     let stores (i : Instr) (n align : Nat) (desc fe : Bool) (op : Part → AccOp) : Prop :=
       ∀ ps, Goes s i → checkAccess (s.env i) a n align false true = .ok ps →
         exec i s = .next (s.done i { acts := enqueue (s.env i) (s.env i).id cls ps op desc true fe })
     stores (.st g base (.data x) off cls width) (widthBytes width) (widthAlign width) false false
       (fun q => .store (shareBytes v every q)) ∧
     (s.now.tpoison.getLsbD (2 * t.val + hi.toNat) = false →
       stores (.st g base (.desc t hi) off cls width) 16 16 true false
         (fun q => .store (shareBytes (s.now.get (.t t hi)) every q))) ∧
     stores (.stf g base x off cls) 4 4 false false (fun q => .storeFE true (shareBytes v every q)) ∧
     stores (.ste g base x off cls) 4 4 false false (fun q => .storeFE false (shareBytes v every q)) ∧
     stores (.stm g base x off cls width p) (widthBytes width) 4 false false (fun q => .store (shareBytes v on q))) ∧
  (∀ (s : State) (g : Guard) (base : Spec) (buf : Byte) (mode : BstMode) (cls : BitVec 4) (b : Fin 4096),
     let a : BitVec 24 := (s.now.scalar base).setWidth 24
     let i : Instr := .bst g base buf mode cls
     Goes s i → checkAccess (s.env i) a 1 1 false false = .ok [⟨b, a.toNat % 65536, 1, 0, a⟩] →
       (s.banks[b]).st ≠ .filling → (s.banks[b]).st ≠ .draining →
       ∃ t, exec i s = .next t ∧ (t.banks[b]).buf = buf ∧
         (t.banks[b]).st = (match mode with | .undeclare => .opened | .empty => .empty | .full => .full))

/-- R159 and R160: an `ldx` of readable memory of this node commits with the value, zero-extended (a reading of the model, log
entry 62, DEDUCED), in qs; an `stx` to it commits with the write of its bytes. The address is s(E) plus the offset, E even and
s(E+1)[63:16] zero. No access of the bundle has been made before. -/
def Obligations.SystemAccess : Prop :=
  ∀ (s : State) (g : Guard) (e : Fin 64) (src : Spec) (off : BitVec 24) (w : XWidth),
    let a := (s.now.s[e] + off.signExtend 64).toNat
    let n := match w with | .b => 1 | .h => 2 | .w => 4 | .d => 8
    s.now.remote = [] → e.val % 2 = 0 → (s.now.s[e + 1]).toNat < 2 ^ 16 → a % n = 0 → a < 2 ^ 48 →
      (∀ i : Instr, i = .ldx g e off w → Goes s i → reach s.landed (some s.focus) a n false = .memory →
        poisonIn s.poisoned a n = none →
        exec i s = .next (s.done i {} [] (readTouch s.landed a n ++
          pushQs (s.env i) (BitVec.ofNat 64 (memNat s.mem a n))))) ∧
      (∀ i : Instr, i = .stx g e src off w → Goes s i → reach s.landed (some s.focus) a n true = .memory →
        exec i s = .next (s.done i {} [] (writeTouch s.landed a (leBytes n (s.now.scalar src).toNat) [] s.now.ts)))

/-! ### The T and C slots -/

/-- R201, R210, R211, R216 and R237: a tile instruction, or a `place` of one, whose checks find nothing starts at commit:
one instruction under its tag joins those of the machine, with its operands as resolved (the destination and whichever of A,
B, C, the scales and the mask it names; `tfill` keeps its value's descriptor) and PADM and TS as they stand before the bundle,
nothing of it cut yet; its TAGS bit is cleared and its tag is busy. -/
def Obligations.TileStart : Prop :=
  ∀ (s : State) (g : Guard) (o : TOps),
    let found (t : Fin 32) : Opnd := resolve s.now s.focus s.now.padm s.now.t[t]
    let starts (i : Instr) (w : Work) (op : TileOp) : Prop :=
      Goes s i → namedPoison (s.env i) (tileNamed s.now op o) (tileHolder op o) = none → firstBad (tileBads (s.env i) op o) = none →
        windowTrap s.now s.now.padm ((tileRoles s.now op o).map fun x => s.now.t[x.2]) = none →
        ∃ t j, exec i s = .next t ∧ t.jobs = s.jobs ++ [j] ∧ j.work = w ∧ j.core = s.focus ∧ j.cid = s.now.cid ∧
          j.tag = o.tag ∧ j.queue.val = o.tq.val ∧ j.padm = s.now.padm ∧ j.ts = s.now.ts ∧ j.mod = o.mod ∧ j.pieces = [] ∧
          j.dst = found o.dst ∧ (op = .fill → j.a.d = s.now.t[o.a]) ∧
          (∀ x ∈ tileRoles s.now op o, (x.1 = .a → op ≠ .fill → j.a = found x.2) ∧ (x.1 = .b → j.b = found x.2) ∧
            (x.1 = .c → j.c = found x.2) ∧ (x.1 = .sa → j.sa = some (found x.2)) ∧ (x.1 = .sb → j.sb = some (found x.2)) ∧
            (x.1 = .md → j.metaOp = some (found x.2))) ∧
          (t.cores[s.focus]).cont.tags = s.now.tags &&& ~~~(1#64 <<< o.tag.val) ∧
          (t.cores[s.focus]).cont.busy = s.now.busy ||| (1#64 <<< o.tag.val)
    (∀ p ∈ ([(.tadd g o, .add), (.tsub g o, .sub), (.tmul g o, .mul), (.tmax g o, .max), (.tmin g o, .min),
        (.tabs g o, .abs), (.tcvt g o, .cvt), (.tscl g o, .scl), (.tfill g o, .fill), (.tsel g o, .sel), (.tlut g o, .lut),
        (.tred g o, .red), (.tmma g o, .mma), (.tspm g o, .spm)] : List (Instr × TileOp)), starts p.1 (.tile p.2) p.2) ∧
    ∀ op, starts (.place g op o) (.place op) op

/-- R176, R181, R199 and R201: a copy instruction none of whose own checks traps (R393) starts at commit: it joins the
instructions of the machine under its tag and in its copy queue, with the flag it posts; its TAGS bit is cleared and its
tag is busy. -/
def Obligations.CopyStart : Prop :=
  ∀ (s : State) (g : Guard) (o : COps) (aop : AtomOp) (rop : RedOp) (clr : Bool),
    ∀ p ∈ ([(.cpy g o, some .cpy), (.gath g o, some .gath), (.scat g o, some .scat), (.mcast g o, none),
        (.flume g o, some .flume), (.catom g o aop, some (.catom aop)), (.wsa g o, some .wsa), (.wred g o, some .wred),
        (.wstat g o, some .wstat), (.redf g o rop, some (.redf rop)), (.hot g o clr, some (.hot clr))]
          : List (Instr × Option Work)),
      Goes s p.1 → (∀ t, slotEff p.1 (s.env p.1) ≠ .error t) →
        ∃ t j, exec p.1 s = .next t ∧ t.jobs = s.jobs ++ [j] ∧ (∀ w, p.2 = some w → j.work = w) ∧ j.core = s.focus ∧
          j.tag = o.tag ∧ j.queue.val = 4 + o.queue.val ∧ j.cls = 1#16 <<< o.cls.toNat ∧ j.post = o.post ∧
          j.ts = s.now.ts ∧ j.pieces = [] ∧
          (t.cores[s.focus]).cont.tags = s.now.tags &&& ~~~(1#64 <<< o.tag.val) ∧
          (t.cores[s.focus]).cont.busy = s.now.busy ||| (1#64 <<< o.tag.val)

/-- R195: a `strm` none of whose checks traps binds its stream at commit, at position 0 of its pattern, with nothing
filled; an `unstrm` of a bound stream with a tag that is not busy unbinds it and starts under the tag, and the elements
still to be drained of an output binding go on being drained, in the class and the queue that the `unstrm` names (a reading of the
model, log entry 80, DEDUCED from R274 and R276: R195 does not say which); R190 and R191: a `tlbi` with a tag that is not busy starts,
and no die's engines hold a translation that it covers any more. -/
def Obligations.StreamsAndInvalidation : Prop :=
  ∀ (s : State) (g : Guard) (d : Fin 32) (z : Fin 8) (out : Bool) (w : BitVec 2) (cls : BitVec 4) (q : Fin 4)
    (tag : Fin 64) (post : FlagTo) (a : Spec) (kind : TlbiKind) (part : BitVec 4),
    (∀ i : Instr, i = .strm g d z out w cls q → Goes s i → (∀ t, slotEff i (s.env i) ≠ .error t) →
      ∃ t b, exec i s = .next t ∧ (t.cores[s.focus]).cont.strm[z] = some b ∧ b.out = out ∧ b.width = w ∧ b.pos = 0 ∧
        b.buf = [] ∧ b.base = s.now.t[d].setWidth 64) ∧
    (∀ i : Instr, i = .unstrm g z tag cls q post → Goes s i → ∀ b, s.now.strm[z] = some b →
      s.now.busy.getLsbD tag.val = false →
      ∃ t j, exec i s = .next t ∧ t.jobs = s.jobs ++ [j] ∧ j.tag = tag ∧ j.queue.val = 4 + q.val ∧
        (t.cores[s.focus]).cont.strm[z] = none ∧ (t.cores[s.focus]).cont.tags = s.now.tags &&& ~~~(1#64 <<< tag.val) ∧
        (b.out = true → (t.cores[s.focus]).cont.drains.length = s.now.drains.length + 1 ∧
          ∃ n y, (n, z, y) ∈ (t.cores[s.focus]).cont.drains ∧ y.buf = b.buf ∧ y.fetched = b.fetched ∧ y.base = b.base ∧
            y.failure = b.failure ∧ y.cls = cls ∧ y.queue = q)) ∧
    ∀ i : Instr, i = .tlbi g a kind part tag → Goes s i → s.now.busy.getLsbD tag.val = false →
      ∃ t v, exec i s = .next t ∧ v ∈ t.invals ∧ v.kind = kind ∧ v.tag = tag ∧ v.part.val = part.toNat ∧
        v.va = (s.now.scalar a).toNat ∧ v.core = s.focus ∧
        ∀ m : Fin 4, ∀ y ∈ (t.dies[m]).tlb, v.covers y.part y.va y.size = false

/-! ### Flags, waits and barriers -/

/-- R250 to R252 and R278: a `post` on the issuing core, named as such or by its number, with nothing to wait for and no release of
the core to itself still on its way, increments its flag at commit, or the park that holds it (a reading of the model, log entry
15, DEDUCED); otherwise, and to another core or node, one release is on its way that names the accesses of its classes that
are outstanding, and to another core or node those too that the core has acquired. What a post to the own core covers is noted
with its flag. -/
def Obligations.Posts : Prop :=
  ∀ (s : State) (g : Guard) (f : Fin 32) (x : Spec) (mask : Half) (n : BitVec 11),
    let v := s.now.scalar x
    let mine (c : Fin 256) : CoreSt := s.landed.cores[c]
    let covers : List Nat := ((mine s.focus).accs.filter fun a => !a.watch && mask.getLsbD a.cls.toNat).map OutAcc.id ++
      (mine s.focus).acquired
    let own (i : Instr) : Prop := i = .post g f .own mask n ∨ i = .post g f (.core x) mask n ∧ v = BitVec.ofNat 64 s.focus.val ∧
      (s.parts[s.now.part]).qmask.getLsbD (s.focus.val / 16) = true
    (∀ i : Instr, own i → Goes s i →
      let waits := (mine s.focus).accs.filter fun a => a.fullEmpty && !a.watch && mask.getLsbD a.cls.toNat
      let earlier : Prop := ∃ o ∈ s.releases, o.engine = false ∧ o.src = s.focus ∧ o.deliver.target = some s.focus
      let noted (k : Cont) : Cont := { k with given := k.given ++ [(f, covers)] }
      (waits = [] → ¬ earlier →
        exec i s = .next (s.done i { last := .cont s.focus noted :: deliverFlag s.landed s.focus f n.toNat })) ∧
      (waits ≠ [] ∨ earlier → ∃ t r, exec i s = .next t ∧ t.releases = s.releases ++ [r] ∧ r.src = s.focus ∧
        r.deliver = .flag s.focus f n.toNat ∧ r.fabric = .unneeded ∧ r.needs = waits.map OutAcc.id ∧
        (t.cores[s.focus]).cont.given = s.now.given ++ [(f, covers)])) ∧
    (∀ i : Instr, i = .post g f (.core x) mask n → Goes s i → ∀ c : Fin 256, v = BitVec.ofNat 64 c.val → c ≠ s.focus →
      (s.parts[s.now.part]).qmask.getLsbD (c.val / 16) = true →
      ∃ t r, exec i s = .next t ∧ t.releases = s.releases ++ [r] ∧ r.src = s.focus ∧ r.deliver = .flag c f n.toNat ∧
        r.fabric = .unneeded ∧ r.needs = covers) ∧
    (∀ i : Instr, i = .post g f (.node x) mask n → Goes s i → v.toNat < 2 ^ 24 →
      ∃ t r p, exec i s = .next t ∧ t.releases = s.releases ++ [r] ∧ r.deliver = .packet p ∧ r.fabric = .unsent ∧
        r.needs = covers ∧ p.kind = 4 ∧ p.dst.toNat = v.toNat % 2 ^ 16 ∧ p.ts = s.now.ts ∧
        p.arg.toNat = v.toNat / 2 ^ 16 * 2 ^ 16 + f.val * 2 ^ 11 + n.toNat)

/-- R203, R253 and R254: `waitf` that goes on takes N from its flag, and while the flag is below N it is held, a cycle
passing; `waitany` and `waitall` write nothing, and hold until a tag named, or every one, has completed; `ffr` gives the
index of the lowest completed tag named, or 64. -/
def Obligations.FlagAndTagWaits : Prop :=
  ∀ (s : State) (g : Guard) (f : Fin 32) (mask n : Half) (d a : Spec),
    let m := s.now.tags &&& s.now.scalar a
    (∀ i : Instr, i = .waitf g f mask n → Goes s i → ∃ t, exec i s = .next t ∧
      (t.cores[s.focus]).cont.f[f] = s.now.f[f] - n ∧ n.toNat ≤ (s.now.f[f]).toNat) ∧
    (∀ i : Instr, i = .waitf g f mask n → Presented s i → executes s.now (bundleLeaf s.now (opsOf i)) (slotOf i, i) = true →
      s.now.give = none → (s.now.f[f]).toNat < n.toNat →
      exec i s = .next (s.heldFor {})) ∧
    (∀ i : Instr, i = .waitany g a → Goes s i → exec i s = .next (s.done i {}) ∧ m ≠ 0) ∧
    (∀ i : Instr, i = .waitall g a → Goes s i → exec i s = .next (s.done i {}) ∧ m = s.now.scalar a) ∧
    (∀ i : Instr, i = .ffr g d a → Goes s i → ∀ k : Nat, k ≤ 64 → (∀ j, j < k → m.getLsbD j = false) →
      (k < 64 → m.getLsbD k = true) →
      exec i s = .next (s.done i { res := plainResult d (BitVec.ofNat 64 k) 1 }))

/-- R255 to R259: `bar` of a continuation that is no job drops the generation it waited for; `fence` has no effect of
its own; `qfence` orders later instructions of its queues after those in them; `watch` whose address passes its checks
sets the monitor, not yet armed; `waitm` gives RECHECK, WRITTEN or LOST. -/
def Obligations.SyncInstructions : Prop :=
  ∀ (s : State) (g : Guard) (mask : Half) (qmask : Byte) (base d : Spec) (sc : FenceScope),
    let a : BitVec 24 := (s.now.scalar base).setWidth 24
    (∀ i : Instr, i = .bar g mask → Goes s i → s.now.level ≠ 3 →
      ∃ t, exec i s = .next t ∧ (t.cores[s.focus]).cont.barrier = none ∧ (t.cores[s.focus]).cont.barWait = none) ∧
    (∀ i : Instr, i = .fence g mask sc → Goes s i → sc ≠ .fabric → exec i s = .next (s.done i {})) ∧
    (∀ i : Instr, i = .fence g mask .fabric → Goes s i → ∃ t, exec i s = .next t ∧
      t.releases = s.releases.filter fun r => !(r.src == s.focus && r.deliver == .nothing)) ∧
    (∀ i : Instr, i = .qfence g qmask → Goes s i → ∃ t, exec i s = .next t ∧
      ∀ q : Fin 8, qmask.getLsbD q.val = true → ∀ j ∈ s.jobs, j.cid = s.now.cid →
        qmask.getLsbD j.queue.val = true → (∀ op, j.work ≠ .place op) → (q, j.id) ∈ (t.cores[s.focus]).cont.fences) ∧
    (∀ i : Instr, i = .watch g base → Goes s i → ∀ p ps, checkAccess (s.env i) a 4 4 false false = .ok (p :: ps) →
      ∃ t n, exec i s = .next t ∧ (t.cores[s.focus]).cont.mon = some ⟨n, a, p.bank, false, false, false⟩ ∧
        (t.banks[p.bank]).q.length = (s.banks[p.bank]).q.length + 1) ∧
    (∀ i : Instr, i = .waitm g d → Goes s i → ∃ t, exec i s = .next t ∧ ∃ v : W64,
      (s.now.recheck = true → v = 1) ∧ (s.now.recheck = false → s.now.mon = none → v = 2) ∧
      (s.now.recheck = false → ∀ m, s.now.mon = some m → (m.triggered = true → v = 0) ∧ (m.triggered = false → v = 2)) ∧
      ∃ acts, t = s.done i { res := plainResult d v 1, acts })

/-! ### Circuits, hand-over and gangs -/

/-- R266 and R267: a `send` that goes on puts its value into the send buffer of the core it names; a `recv` that goes on
empties the receive entry, whose value is on its way to the register named, every lane, two cycles after issue. -/
def Obligations.Circuits : Prop :=
  ∀ (s : State) (g : Guard) (x d : KData) (core : Spec) (q : Fin 16),
    s.now.scalar core = BitVec.ofNat 64 (s.focus.val / 16 * 16 + q.val) →
    (∀ i : Instr, i = .send g x core → Goes s i → ∃ t, exec i s = .next t ∧
      (t.cores[s.focus]).cont.send[q] = some (s.now.kdata x) ∧ s.now.send[q] = none) ∧
    (∀ i : Instr, i = .recv g d core → Goes s i → ∃ t v, exec i s = .next t ∧ s.now.recv[q] = some v ∧
      (t.cores[s.focus]).cont.recv[q] = none ∧
      ∃ acts, t = s.done i { acts, res := ((kReg d).map fun r => bareResult r v (BitVec.allOnes 64) 2).toList })

/-- R166, R167 and R170: a `give` to a core of the quadrant of a window that is valid invalidates the window at commit
and puts its bank in transit, with the giver's TS and the accesses that it has acquired (R278); `openw` and `closew` set and clear a window's OPEN bit. R260: a
`fuse` that its checks pass joins: the core is a coupled member of the gang named and CSTAT.FUSED is set; with no
member named a decoupled member leaves, and CSTAT.FUSED is cleared. -/
def Obligations.HandOverAndGangs : Prop :=
  (∀ (s : State) (g : Guard) (w wd : Byte) (core : Spec) (f : Fin 32) (fe : Bool) (dst : Fin 256),
     let b := bankOf s.focus (s.now.entry w).bank
     (∀ i : Instr, i = .give g w core wd f fe → Goes s i → s.now.scalar core = BitVec.ofNat 64 dst.val →
       dst.val / 16 = s.focus.val / 16 → (s.now.entry w).v = true →
       ∃ t at_, exec i s = .next t ∧ (t.banks[b]).transit = some (.give s.focus dst wd f fe s.now.cid at_ (s.landed.cores[s.focus]).acquired) ∧
         (t.banks[b]).ts = s.now.ts ∧ ((t.cores[s.focus]).cont.entry w).v = false ∧
         ((t.cores[s.focus]).cont.entry w).opened = false ∧ (t.cores[s.focus]).cont.give = some (w, dst)) ∧
     (∀ i : Instr, i = .openw g w → Goes s i → ∃ t, exec i s = .next t ∧
       ((t.cores[s.focus]).cont.entry w).opened = true ∧ ((t.cores[s.focus]).cont.entry w).v = (s.now.entry w).v) ∧
     (∀ i : Instr, i = .closew g w → Goes s i → ∃ t, exec i s = .next t ∧
       ((t.cores[s.focus]).cont.entry w).opened = false ∧ ((t.cores[s.focus]).cont.entry w).v = (s.now.entry w).v)) ∧
  (∀ (s : State) (g : Guard) (m : BitVec 4),
     let i : Instr := .fuse g m
     Goes s i → fuseBad s.landed s.focus s.now m = false →
       ∃ t, exec i s = .next t ∧
         (m ≠ 0 → (∃ f, (t.cores[s.focus]).cont.fused = some f ∧ f.members = m ∧
             (s.now.fused = none → f = ⟨m, true, false, none⟩)) ∧
           (t.cores[s.focus]).cont.cstat.getLsbD 3 = true) ∧
         (m = 0 → (t.cores[s.focus]).cont.fused = none ∧ (t.cores[s.focus]).cont.cstat.getLsbD 3 = false))

/-! ### Task instructions -/

/-- R316: a `spawn` to a queue of this node whose checks find nothing gives the status of the offer; an accepted record
is written to the ring at TAIL, a refused one changes nothing but the register. -/
def Obligations.Spawn : Prop :=
  ∀ (s : State) (g : Guard) (d q r : Spec) (qu : Fin 131072),
    let i : Instr := .spawn g d q r
    let e := s.env i
    let rec_ := recordAt e ((s.now.scalar r).setWidth 24)
    let status := offer s.landed qu s.hub.node (s.now.cstat.getLsbD 2) true (quadOf s.focus) rec_
    Goes s i → s.now.scalar q = BitVec.ofNat 64 qu.val → slotEff i e = .ok {} →
      (status ≠ 0 → exec i s = .next (s.done i {} (plainResult d (BitVec.ofNat 64 status) 1))) ∧
      (status = 0 → exec i s = .next (s.done i {} (plainResult d 0 1)
        (appendActs s.landed qu (recFor (queueAt s.landed qu) (spawnRecord e rec_)) ++
          carryActs e ((carriedWindows rec_).map Prod.snd))))

/-- R321 to R325: `suspend` in its three modes, `yield` and `done`, where their checks find nothing, leave the core
vacant: its next continuation comes from the dispatcher. R322: a continuation that suspends to a queue of its node is
written back there: its record of STATE 1, with the branch target as ENTRY, stands at the ring's TAIL. -/
def Obligations.LeavingACore : Prop :=
  (∀ (s : State) (g : Guard) (q : Spec) (bt : Fin 16) (f : Fin 32) (n : BitVec 11),
     (∀ p ∈ ([(.suspendQueue g q bt, some (s.now.scalar q), .queue),
         (.suspendFlag g q bt f n, some (s.now.scalar q), .flag f n.toNat), (.suspendWatch g q bt, some (s.now.scalar q), .watch),
         (.yield g, s.now.homeQueue, .queue)] : List (Instr × Option W64 × SusMode)),
       Goes s p.1 → susTrap (s.env p.1) p.2.1 p.2.2 = none →
         ∃ t, exec p.1 s = .next t ∧ (t.cores[s.focus]).phase = .vacant ∧ (t.cores[s.focus]).keep = none) ∧
     (Goes s (.done g) → (∀ z : Fin 8, s.now.strm[z] = none) →
       ∃ t, exec (.done g) s = .next t ∧ (t.cores[s.focus]).phase = .vacant ∧ (t.cores[s.focus]).keep = none)) ∧
  (∀ (s : State) (g : Guard) (q : Spec) (bt : Fin 16) (qu : Fin 131072),
     let i : Instr := .suspendQueue g q bt
     let e := s.env i
     let r := leaveRecord e s.now.bt[bt]
     Goes s i → s.now.scalar q = BitVec.ofNat 64 qu.val → susTrap e (some (s.now.scalar q)) .queue = none →
       exec i s = .next (s.done i { last := carryActs e (keptWindows s.now) ++ leaveActs s.focus } []
         (appendActs s.landed qu (recFor (queueAt s.landed qu) r))) ∧
       hState (recHeader r) = 1 ∧ recEntry r = s.now.bt[bt] ∧ recTs r = s.now.ts)

/-! ### Trap, system and margin instructions -/

/-- R348 and R351: `trap` takes TRAPI with its immediate; `cmpt` with equal operands has no effect, and otherwise takes
CMPT, with the lowest lane that differs among those compared. -/
def Obligations.TrapsAndCompares : Prop :=
  ∀ (s : State) (g : Guard) (imm : Half) (a b : Spec) (x y : KData) (m : Option (Fin 48)),
    let differ (j : Nat) : Prop := (∀ p, m = some p → (s.now.p[p]).getLsbD j = true) ∧ lane (s.now.kdata x) j ≠ lane (s.now.kdata y) j
    (∀ i : Instr, i = .trap g imm → Checked s i → exec i s = .next (s.trapped ⟨.trapi, imm.setWidth 64⟩)) ∧
    (∀ i : Instr, i = .cmptScalar g a b → Checked s i →
      (s.now.scalar a = s.now.scalar b → Goes s i → exec i s = .next (s.done i {})) ∧
      (s.now.scalar a ≠ s.now.scalar b → exec i s = .next (s.trapped ⟨.cmpt, 0⟩))) ∧
    (∀ i : Instr, i = .cmptVector g x y m → Checked s i →
      ((∀ j, j < 64 → ¬ differ j) → Goes s i → exec i s = .next (s.done i {})) ∧
      ∀ j, j < 64 → differ j → (∀ k, k < j → ¬ differ k) → exec i s = .next (s.trapped ⟨.cmpt, BitVec.ofNat 64 (64 + j)⟩))

/-- R349 with HND = 0, R350 and R352: an `rft` outside a handler jumps to TPC and PRIV takes PPRIV; `idle` stops the
continuation at its own bundle; `brake` and its clearing form set and clear the brake of the core, stone or tile
named. R326: `tstamp` gives the timestamp register, or with HUB the hub's time in nanoseconds at commit; `tstamp set`
replaces the register at commit. The hub's time, an offset and the ninths of the clock read one cycle after the issue, is the
model's choice (log entry 71, DESIGN CHOICE). -/
def Obligations.SystemInstructions : Prop :=
  (∀ (s : State) (g : Guard) (x : Spec),
     let v := s.now.scalar x
     (∀ i : Instr, i = .rft g → Goes s i → s.now.tcause.getLsbD 9 = false → ∃ t, exec i s = .next t ∧
       (t.cores[s.focus]).cont.pc = s.now.tpc ∧
       (t.cores[s.focus]).cont.cstat.getLsbD 2 = s.now.tcause.getLsbD 8) ∧
     (∀ i : Instr, i = .idle g → Goes s i → ∃ t, exec i s = .next t ∧
       (t.cores[s.focus]).cont.stopped = true ∧ (t.cores[s.focus]).cont.pc = s.now.pc) ∧
     (∀ p ∈ ([(fun k => .brake g k x, true), (fun k => .brakeClear g k x, false)] : List ((BrakeKind → Instr) × Bool)),
       (∀ c : Fin 256, Goes s (p.1 .core) → v = BitVec.ofNat 64 c.val → ∃ t, exec (p.1 .core) s = .next t ∧
         (t.cores[c]).braked = p.2 ∧ (t.cores[c]).tent.getLsbD 16 = p.2) ∧
       (∀ n : Fin 64, v = BitVec.ofNat 64 n.val →
         (Goes s (p.1 .stone) → ∃ t, exec (p.1 .stone) s = .next t ∧ (t.stones[n]).braked = p.2) ∧
         (Goes s (p.1 .tile) → ∃ t, exec (p.1 .tile) s = .next t ∧ (t.tiles[n]).braked = p.2)))) ∧
  (∀ (s : State) (g : Guard) (d a : Spec),
     (Goes s (.tstamp g d) → exec (.tstamp g d) s = .next (s.done (.tstamp g d) { res := plainResult d s.now.ts 1 })) ∧
     (Goes s (.tstampHub g d) → exec (.tstampHub g d) s = .next (s.done (.tstampHub g d)
       { res := plainResult d (BitVec.ofNat 64 (hubAt s.hub ((s.landed.cores[s.focus]).clk + 1))) 1 })) ∧
     (Goes s (.tstampSet g a) → ∃ t, exec (.tstampSet g a) s = .next t ∧
       (t.cores[s.focus]).cont.ts = s.now.scalar a))

/-- R342, R343 and R349, return from a handler: an `rft` with HND = 1 restores the image, with what the handler wrote to
it, but for TPC, TCAUSE, TINFO, TVEC, the flags and the tag state, which keep the handler's values; PRIV takes PPRIV, HND
becomes 0, and TPC is the code address. An image to which nothing was written is restored as it was taken. -/
def Obligations.HandlerReturn : Prop :=
  ∀ (s : State) (g : Guard) (saved : Cont),
    let i : Instr := .rft g
    let img := (s.landed.cores[s.focus]).written saved
    ((s.landed.cores[s.focus]).kwords = [] → img = saved) ∧
    (Goes s i → s.now.tcause.getLsbD 9 = true → (s.landed.cores[s.focus]).keep = some saved →
      ∃ t, exec i s = .next t ∧
        let k := (t.cores[s.focus]).cont
        k.s = img.s ∧ k.os = img.os ∧ k.ls = img.ls ∧ k.va = img.va ∧ k.vb = img.vb ∧ k.p = img.p ∧ k.bt = img.bt ∧
        k.lc = img.lc ∧ k.t = img.t ∧ k.padm = img.padm ∧ k.ts = img.ts ∧ k.vflaga = img.vflaga ∧ k.vflagb = img.vflagb ∧
        k.qs = img.qs ∧ k.qa = img.qa ∧ k.qb = img.qb ∧ k.pend = img.pend ∧
        k.tpc = s.now.tpc ∧ k.tinfo = s.now.tinfo ∧ k.tvec = s.now.tvec ∧ k.f = s.now.f ∧ k.tags = s.now.tags ∧
        k.status = s.now.status ∧ k.err = s.now.err ∧ k.pc = s.now.tpc ∧ k.tcause.getLsbD 9 = false ∧
        k.cstat.getLsbD 2 = s.now.tcause.getLsbD 8 ∧ (t.cores[s.focus]).keep = none)

/-! ### Events of cores and banks -/

/-- R51, R73, R76, R262 and R387: `powerOnReset`, `bundleIssue`, `decouple`, `rejoin`, `windshaftRejoin` and
`resultLanding` complete. A full bundle that nothing holds and none of whose slots traps or waits commits, every slot's
effect with it; of one without effects at commit the results are on their way and the transfer is taken. A bundle that
decouples lets its member run on its own clock; one that rejoins goes on among coupled members, and otherwise pulls the
line and is held until the line has released it; on a core that is not fused both are normal bundles. A core whose bundle has made
an access goes on with that bundle, whatever is fetched (the model's choice, log entry 107, DEDUCED from R160 and R316). The line of a tile
whose gang, of one core to four, pulls whole releases its members together, on one clock. A cycle in which nothing issues spends one owed cycle, or
a cycle of a stopped core with results in flight. Boot ends in Tenant, Off and P0, or, with firmware that does not verify,
Locked in D3; every byte then reads as zero, which in the second case is the model's choice (log entry 1, DESIGN CHOICE). -/
def Obligations.CoreEvents : Prop :=
  ∀ (s : State) (w : BitVec 512) (b : Bundle) (outs : List ((Slot × Instr) × Out)) (more : List Result) (stage : List Act)
    (c : Fin 256) (tl : Fin 64) (members : BitVec 4) (a : Asked),
    let k := s.now
    let run := b.ops.filter (executes k (bundleLeaf k b.ops))
    let x := s.cores[c]
    let mine (t : State) : Cont := (t.cores[s.focus]).cont
    let issues : Prop := canIssue s s.focus = true ∧ gangHeld s.landed s.focus = false ∧ k.asked = none
    (issues → bundleOfWord w = .ok b → decodeChecks k b.ops = none → bundleHolds s.landed s.focus b.kind run = [] →
      stallTrap k (bundleLeaf k b.ops) b.ops = none → runSlots s.landed s.focus b.triple run b.ops = .ok outs →
      (∀ y ∈ outs, y.2.after = none) → runStages (envOf s.landed s.focus run) s.landed s.focus (earlyActs s.focus outs) run = .go more stage →
      gangReady s.landed s.focus = true →
      ∃ t, exec (.bundleIssue w) s = .next t ∧
        t = applyActs s.landed (commitActs s.landed s.focus b run outs more stage) ∧
        (b.kind = 0 → b.qp = false → more = [] → stage = [] → (∀ y ∈ outs, y.2.acts = [] ∧ y.2.last = []) →
          usesEngine run = false → (mine t).acyc = k.acyc + 1 ∧
          (mine t).pc = (transferOf k (outs.map Prod.snd)).1 ∧ (mine t).owed = b.stall + (transferOf k (outs.map Prod.snd)).2 ∧
          (mine t).pend.length = k.pend.length + (outs.map fun y => y.2.res.length).sum ∧ (mine t).s = k.s)) ∧
    (canIssue s s.focus = true → gangHeld s.landed s.focus = false → k.asked = some a →
      exec (.bundleIssue w) s = .next (applyActs s.landed (issueChecked s.landed s.focus a.bundle))) ∧
    (issues → gangReady s.landed s.focus = true →
      (∃ t, exec .decouple s = .next t ∧ (mine t).acyc = k.acyc + 1 ∧ (mine t).pc = k.pc + 1 ∧
        (mine t).fused = k.fused.map fun f => { f with coupled := false, release := none }) ∧
      ((∀ f, k.fused = some f → (∃ n, f.release = some n ∧ n ≤ (s.landed.cores[s.focus]).clk) ∨
          f.release = none ∧ decoupled s.landed s.focus f = false) →
        ∃ t, exec .rejoin s = .next t ∧ (mine t).acyc = k.acyc + 1 ∧ (mine t).pc = k.pc + 1 ∧
          (mine t).fused = k.fused.map fun f => { f with coupled := true, pull := false, release := none })) ∧
    (∀ f, issues → k.fused = some f → f.release = none → f.pull = false → decoupled s.landed s.focus f = true →
      ∃ t, exec .rejoin s = .next t ∧ (mine t).fused = some { f with pull := true } ∧ (mine t).acyc = k.acyc) ∧
    (x.phase = .running →
      (x.cont.stopped = true ∧ x.cont.pend ≠ [] ∨
        x.cont.stopped = false ∧ 0 < x.cont.owed ∧ gangHeld s c = false ∧ gangAhead s c = false ∧ gangReady s c = true) →
      ∃ t, exec (.resultLanding c) s = .next t ∧ (t.cores[c]).cont.owed = x.cont.owed - 1 ∧
        (t.cores[c]).cont.acyc = x.cont.acyc + 1 ∧ (t.cores[c]).clk = x.clk + 1 ∧
        ∀ p, p ∈ (t.cores[c]).cont.pend ↔ p ∈ x.cont.pend ∧ x.cont.acyc < p.due) ∧
    (members ≠ 0 → (∀ j : Fin 256, j.val / 4 = tl.val →
        (members.getLsbD (j.val % 4) = true → ∃ cp, (s.cores[j]).cont.fused = some ⟨members, cp, true, none⟩) ∧
        (members.getLsbD (j.val % 4) = false → ∀ f, (s.cores[j]).cont.fused = some f → f.pull = false)) →
      ∃ t n a, exec (.windshaftRejoin tl) s = .next t ∧
        ∀ j : Fin 256, j.val / 4 = tl.val → members.getLsbD (j.val % 4) = true →
        (s.cores[j]).clk ≤ n ∧ (t.cores[j]).cont.fused = some ⟨members, true, true, some (n + 2)⟩ ∧
        (t.cores[j]).cont.acyc = a ∧ (s.cores[j]).cont.acyc ≤ a) ∧
    (∃ t, exec .powerOnReset s = .next t ∧ t.hub.booted = true ∧ t.jobs = [] ∧ t.releases = [] ∧ t.barriers = [] ∧
      (∀ a, a < 2 ^ 46 → memGet t.mem a = 0) ∧
      (s.hub.plan.verified = true → t.hub.sec = .tenant ∧ t.hub.dbg = 0 ∧ t.hub.pwr = 0 ∧ t.hub.chg = false ∧
        t.hub.version = s.hub.plan.version) ∧
      (s.hub.plan.verified = false → t.hub.sec = .locked ∧ t.hub.pwr = 4 ∧ t.reports = s.reports ++ [.boot]))

/-- R141, R146, R149 and R152, the owner port (ownerPortBeat, parkSatisfy, loadDataValid): a bank's first access that may go on takes its beat in the first free
cycle; at its last beat a store writes its bytes and leaves the queue, an `lde` of a full word empties it, and one of an
empty word waits, parked, until the word is full; a load whose data is due fills its entry or its descriptor half. -/
def Obligations.OwnerPort : Prop :=
  ∀ (s : State) (b : Fin 4096) (a : Access) (c : Fin 256) (r : LoadRec),
    let t0 := max a.earliest (s.banks[b]).clear
    let w := bankPa b a.off / 4
    let gone (t : State) : Prop := ∀ y ∈ (t.banks[b]).q, y.id ≠ a.id
    ((s.banks[b]).q.find? (fun y => !y.parked && !(y.blocked s b)) = some a →
      (1 < a.beats → ∃ t, exec (.ownerPortBeat b) s = .next t ∧ (t.banks[b]).clear = t0 + 1 ∧ t.mem = s.mem ∧
        { a with beats := a.beats - 1 } ∈ (t.banks[b]).q) ∧
      (a.beats ≤ 1 → ∀ data, a.op = .store data → ∃ t, exec (.ownerPortBeat b) s = .next t ∧ (t.banks[b]).clear = t0 + 1 ∧
        t.mem = data.foldl (fun m d => memPut m (bankPa b d.1) d.2) s.mem ∧ gone t) ∧
      (a.beats ≤ 1 → a.op = .lde → s.empties.contains w = false → ∃ t, exec (.ownerPortBeat b) s = .next t ∧
        t.empties = setIns s.empties w ∧ t.mem = s.mem ∧ gone t) ∧
      (a.beats ≤ 1 → a.op = .lde → s.empties.contains w = true → (s.cores[a.core]).cont.cid = a.cid →
        (∃ l ∈ (s.cores[a.core]).cont.loads, l.id = a.id) → ∃ t, exec (.ownerPortBeat b) s = .next t ∧
          t.empties = s.empties ∧ { a with parked := true } ∈ (t.banks[b]).q)) ∧
    ((s.banks[b]).q.find? (fun y => y.parked && s.full (y.word b)) = some a → a.op = .lde →
      ∃ t, exec (.parkSatisfy b) s = .next t ∧ t.empties = setIns s.empties w ∧ gone t) ∧
    ((s.cores[c]).cont.loads.find? (fun l => l.due (s.cores[c]).clk) = some r →
      ∃ t, exec (.loadDataValid c) s = .next t ∧
        (let filled (q : List QEntry) : Prop := ∀ z ∈ q, z.id = r.id → z.valid = true ∧ z.data = loadValue r ∧ z.poison = r.poison
         ((∃ sx, r.dest = .qs sx) → filled (t.cores[c]).cont.qs) ∧ (r.dest = .qa → filled (t.cores[c]).cont.qa) ∧
           (r.dest = .qb → filled (t.cores[c]).cont.qb)) ∧
        (∀ d hi, r.dest = .desc d hi →
          bits ((t.cores[c]).cont.t[d]) (if hi then 128 else 0) 128 = bits (loadValue r) 0 128 ∧
          (t.cores[c]).cont.tpoison.getLsbD (2 * d.val + hi.toNat) = r.poison.isSome) ∧
        ∀ l ∈ (t.cores[c]).cont.loads, l.id ≠ r.id)

/-- R167, R251, R257, R266 and R323, arrivals (flagIncrementArrival, barArrival, circuitHeader, circuitDataArrival,
giveAttach, parkAppend): a release that is ready, an engine's or that of a `post` which no earlier release of its core to the same
target precedes (R252), increments its flag, where no park has taken the flag over, and is gone; a barrier's last member clears it
and moves its generation on; a circuit's header takes the value of a full send buffer at its slot's phase, once the receive entry
is free, and the data is in the entry 7 cycles later, counted on the package's clock from the cycles of the `send` and the `recv`
(the model's choice, log entry 78, DESIGN CHOICE within R264 and R266); a bank in transit attaches to an open, invalid window once its drain
is over and what the giver had acquired has performed (R278); a released park is appended to its queue. -/
def Obligations.Arrivals : Prop :=
  ∀ (s : State) (i : Nat) (r : Release) (c d : Fin 256) (f : Fin 32) (n : Nat) (bar : Barrier) (mask : Half)
    (b : Fin 4096) (src : Fin 256) (wd : Byte) (fe : Bool) (cid at_ : Nat) (needs : List Nat) (x : Transfer) (q : Fin 16) (p : Park),
    let y := s.cores[d]
    let ring := queueAt s p.queue
    let first : Prop := ∀ k o, k < i → s.releases[k]? = some o → o.engine = true ∨ o.src ≠ r.src ∨ o.deliver.target ≠ some d
    (s.releases[i]? = some r → r.deliver = .flag d f n → r.ready? s = true → (r.engine = true ∨ first) → y.phase = .running →
      (∀ p ∈ (s.quads[quadOf d]).parks, p.holds d f = false) →
      ∃ t, exec (.flagIncrementArrival i) s = .next t ∧ (∀ o ∈ t.releases, o.id ≠ r.id) ∧
        ((t.cores[d]).cont.f[f]).toNat = min ((y.cont.f[f]).toNat + n) 0xFFFF) ∧
    (y.cont.barWait = some mask → y.cont.barrier = none → barrierOf s y.cont = some bar → y.phase = .running →
      y.needs mask = [] → bar.arrived.contains d = false →
      ∃ t, exec (.barArrival d) s = .next t ∧ (t.cores[d]).cont.barrier = some bar.gen ∧ (t.cores[d]).cont.barWait = none ∧
        ((∀ m ∈ bar.members, m = d ∨ m ∈ bar.arrived) → { bar with arrived := [], gen := bar.gen + 1 } ∈ t.barriers) ∧
        ((∃ m ∈ bar.members, m ≠ d ∧ m ∉ bar.arrived) → { bar with arrived := bar.arrived ++ [d] } ∈ t.barriers)) ∧
    (∀ (v : VReg) (k : Nat), c.val / 16 = d.val / 16 → (s.cores[c]).cont.send[quadIx d] = some v →
      (∀ j : Fin 16, j ≠ quadIx d → (s.cores[c]).cont.send[j] = none) → (s.cores[c]).phase = .running → y.phase = .running →
      y.cont.recv[quadIx c] = none → (∀ o ∈ (s.quads[quadOf c]).moving, ¬ (o.src = quadIx c ∧ o.dst = quadIx d)) →
      pairSlot (s.quads[quadOf c]).slottab (quadIx c) (quadIx d) = some k →
      let first := headerCycle k (max (s.cores[c]).cont.sendAt[quadIx d] y.cont.recvAt[quadIx c])
      first ≤ s.clock →
      ∃ t, exec (.circuitHeader c) s = .next t ∧ (t.cores[c]).cont.send[quadIx d] = none ∧
        (t.quads[quadOf c]).moving = (s.quads[quadOf c]).moving ++ [⟨quadIx c, quadIx d, v, first + 7⟩]) ∧
    ((s.quads[quadOf d]).moving.find? (fun o => o.dst == quadIx d && decide (o.at_ ≤ s.clock)) = some x → y.phase = .running →
      ∃ t, exec (.circuitDataArrival d) s = .next t ∧ (t.cores[d]).cont.recv[x.src] = some x.data ∧
        (t.quads[quadOf d]).moving = (s.quads[quadOf d]).moving.erase x) ∧
    ((s.banks[b]).transit = some (.give src d wd f fe cid at_ needs) → drained s b cid = true →
      s.outstanding src needs = false → max at_ (s.banks[b]).clear ≤ s.clock → y.phase = .running → (y.cont.entry wd).v = false →
      (y.cont.entry wd).opened = true →
      ∃ t, exec (.giveAttach b) s = .next t ∧ (t.banks[b]).transit = none ∧ ((t.cores[d]).cont.entry wd).v = true ∧
        ((t.cores[d]).cont.entry wd).bank = bankId b ∧ ((t.cores[d]).cont.entry wd).opened = false ∧
        (fe = true → ∃ o, t.releases = s.releases ++ [o] ∧ o.deliver = .flag d f 1)) ∧
    ((s.quads[q]).parks[i]? = some p → p.released = true → p.appended = false → s.outstanding p.core p.needs = false → ring.en = true →
      aciGrants s ring s.hub.node = true → ring.full = false →
      ∃ t, exec (.parkAppend q i) s = .next t ∧
        t.mem = (applyActs s (appendActs s p.queue (recFor ring p.record))).mem ∧
        (p.flag = none → (t.quads[q]).parks = ((applyActs s (appendActs s p.queue (recFor ring p.record))).quads[q]).parks.eraseIdx i) ∧
        (p.flag.isSome = true → ∃ o, (t.quads[q]).parks[i]? = some o ∧ o.appended = true ∧ o.slot = ring.tail))

/-! ### Events of engines, streams and the pager -/

/-- R19, R184 to R188, R201, R228, R230, R237 and R239: `millerPlacement`, `tilePieceEnd`, `stoneJob`, `copyPieceStart`,
`copyPieceEnd` and `tagCompletion` complete. An instruction is placed, its pieces start and end, a stone runs its first job
and the requests that waited for it are served, one that is braked (R353), or whose die is gated (R390), turns away the pieces whose
B it holds, a piece of which a bank or a stone has lost its power ends with ACCESS (R390), a copy leaves the bits of padding positions
as they are (R114), and a prepared
instruction all of whose pieces have ended completes its tag, with its status word, and posts its flag (R176): always in mode 1,
and in mode 2 when its status is OK. -/
def Obligations.EngineEvents : Prop :=
  ∀ (s : State) (id ix : Nat) (j : Job) (p : Piece) (op : TileOp) (tr : List Trans) (acts : List Act) (code : BitVec 4)
    (prev : List W32) (data : List (Nat × Byte)) (acc : List W32) (sat fr : Bool) (st : Fin 64) (rest : List (Nat × Nat))
    (src dst : List Spot) (opened : List (Fin 4096 × Bool)),
    s.job id = some j →
    let piece (t : State) (f : Piece → Prop) : Prop := ∃ j' p', t.job id = some j' ∧ j'.pieces[ix]? = some p' ∧ f p'
    let done : Computed := .done data acc sat fr
    -- the bytes that a copy piece moves, whole, and those of which it moves the bits of a mask
    let moved : List (Nat × Byte × Byte) := (spotBytes dst).zip ((pieceData s p src).zipWith (fun d m => (d.1, m)) (pieceMask j p))
    let whole : List (Nat × Byte) := (moved.filter fun x => x.2.2 == 0xFF).map fun x => (x.1, x.2.1)
    let part : List (Nat × Byte) := (moved.filter fun x => x.2.2 != 0xFF).map fun x =>
      (x.1, (x.2.1 &&& x.2.2) ||| (memGet s.mem x.1 &&& ~~~x.2.2))
    -- a `place` query is answered; a tile instruction is cut
    (j.prepared = false → placementFaulted s id = false → translateUnits s j.core j.part (tileUnits j) = (.ok tr, acts) →
      (j.work = .place op → ∃ t j', exec (.millerPlacement id) s = .next t ∧ t.job id = some j' ∧ j'.prepared = true ∧
        j'.word = some (placeWord j (placeAll (applyActs s acts) { j with tr }) 0)) ∧
      (j.work = .tile op → j.ready s = true → ∃ t j', exec (.millerPlacement id) s = .next t ∧ t.job id = some j' ∧
        j'.prepared = true ∧ j'.pieces.length = (placeAll (applyActs s acts) { j with tr }).length)) ∧
    (j.pieces[ix]? = some p →
      (j.work = .tile op → p.st = .performed code → p.clear s = true → (∀ x, linkBefore j ix p ≠ .failed x) →
        (code = 0 → spotsPowered s (p.got.map fun g => .here g.1 1) = true ∧ (p.got = [] ∨ tileViews s j p true = true)) →
        ∃ t, exec (.tilePieceEnd id ix none) s = .next t ∧ piece t fun q => q.st = .ended code) ∧
      (j.work = .tile op → p.st = .performed 0 → p.clear s = true → (∀ x, linkBefore j ix p ≠ .failed x) →
        spotsPowered s (p.got.map fun g => .here g.1 1) = false →
        ∃ t, exec (.tilePieceEnd id ix none) s = .next t ∧ t.mem = s.mem ∧ piece t fun q => q.st = .ended 4) ∧
      (j.work = .tile op → (p.st = .started ∨ ∃ x, p.st = .performed x) → linkBefore j ix p = .failed code →
        ∃ t, exec (.tilePieceEnd id ix none) s = .next t ∧ piece t fun q => q.st = .ended code) ∧
      (∀ n, j.work = .tile op → p.st = .started → linkBefore j ix p = .ready prev → p.exec = .quern n →
        p.clear s = true → tileViews s j p false = true → (p.last = true → tileViews s j p true = true) →
        computePiece s j p prev = done →
        ∃ t, exec (.tilePieceEnd id ix none) s = .next t ∧ piece t fun q => q.st = .ended 0 ∧ q.acc = acc) ∧
      ((s.stones[st]).jobs = (id, ix) :: rest → (stoneStops s st = true → (s.stones[st]).running = true) →
        stoneRefuses s st = [] → p.st = .started → linkBefore j ix p = .ready prev → tileViews s j p false = true →
        computePiece s j p prev = done →
        ∃ t, (t.stones[st]).jobs = rest ∧ (t.stones[st]).running = false ∧
          (piece t fun q => q.st = .performed 0 ∧ q.acc = acc ∧ q.got = data) ∧
          exec (.stoneJob st) s = .next (applyActs t (releaseStalled t))) ∧
      (stoneStops s st = true → (s.stones[st]).running = false → (id, ix) ∈ (s.stones[st]).jobs → p.st = .started →
        dSpace j.b.d = 2 → ∃ t, (id, ix) ∉ (t.stones[st]).jobs ∧ (piece t fun q => q.st = .performed 4) ∧
          exec (.stoneJob st) s = .next (applyActs t (releaseStalled t))) ∧
      (4 ≤ j.queue.val → j.ready s = true → j.prepared = true → j.work = .cpy → p.fixed = none → p.st = .waiting →
        (recut s j p).length ≤ 1 → beginPiece s j ix false (p.pairs.map fun x => (j.a, x.1)) (p.pairs.map fun x => (j.dst, x.2)) p.quarter =
          .ok tr src dst opened acts → awayRuns (pieceSpots s j { p with tr } false).1 = [] →
        awayRuns (pieceSpots s j { p with tr } false).2 = [] →
        ∃ t, exec (.copyPieceStart id ix) s = .next t ∧ piece t fun q => q.st = .started ∧ q.tr = tr ∧ q.opened = opened) ∧
      (4 ≤ j.queue.val → p.st = .started → p.awaiting = [] → j.work = .cpy → pieceSpots s j p false = (src, dst) →
        awayRuns dst = [] → p.clear s = true → rowBefore j ix p = false → p.whole = true → p.lost = [] → pieceThere s j p = true →
        requested s (id, ix) (mainBytesOf src ++ mainBytesOf dst) = true → requestsServed s (id, ix) (mainBytesOf src ++ mainBytesOf dst) = true →
        viewHeld s (id, ix) (mainBytesOf src ++ mainBytesOf dst) = false → (∀ x ∈ pieceData s p src, x.2 = false) →
        abstainWords s whole = [] → abstainWords s part = [] →
        ∃ t, exec (.copyPieceEnd id ix) s = .next t ∧ (piece t fun q => q.st = .ended 0) ∧
          t.mem = (whole ++ part).foldl (fun m x => memPut m x.1 x.2) s.mem) ∧
      (4 ≤ j.queue.val → p.st = .started → p.awaiting = [] → j.work = .cpy → pieceSpots s j p false = (src, dst) → p.clear s = true →
        rowBefore j ix p = false → p.sent = false → pieceThere s j p = false →
        ∃ t, exec (.copyPieceEnd id ix) s = .next t ∧ t.mem = s.mem ∧ piece t fun q => q.st = .ended 4)) ∧
    (j.completes s = true → (s.cores[j.core]).cont.cid = j.cid →
      ∃ t, exec (.tagCompletion id) s = .next t ∧ (∀ o ∈ t.jobs, o.id ≠ id) ∧
        let k := (t.cores[j.core]).cont
        k.tags = (s.cores[j.core]).cont.tags ||| (1#64 <<< j.tag.val) ∧ k.status[j.tag] = j.status ∧
        k.busy = (s.cores[j.core]).cont.busy &&& ~~~(1#64 <<< j.tag.val) ∧
        (let ok : Prop := (∀ y ∈ j.pieces, y.st = .ended 0) ∧ ∀ w, j.word = some w → bits w 64 4 = (0 : BitVec 4)
         (j.post.mode = 1 ∨ j.post.mode = 2 ∧ ok →
           ∃ r, t.releases = s.releases ++ [r] ∧ r.deliver = .flag j.post.core j.post.flag 1) ∧
           (j.post.mode = 0 ∨ j.post.mode = 2 ∧ ¬ ok → t.releases = s.releases)))

/-- R163, R164, R188 to R192 and R195: `streamFill`, `streamDrain`, `tlbiCompletion`, `invalWatchdogExpiry`,
`pagerRecordAppend`, `pagerResolveRestart`, `pagerResolveNoframe` and `pagerResolveAccess` complete. An input stream reads its next element up to eight ahead; an output stream writes
its oldest landed element; an invalidation that every core and every piece has answered completes its tag, and at the
watchdog the engines answer for the cores that have not and their matching pieces end with INVAL; the pager's record is appended once there is room, and its
answer restarts the piece or ends it with NOFRAME or ACCESS; the contributor of a `redf` whose source it ends abstains (R379). -/
def Obligations.StreamAndPagerEvents : Prop :=
  ∀ (s : State) (c : Fin 256) (z : Fin 8) (b b' : Binding) (xs : List Nat) (v : Inval) (id handle : Nat) (f : PagerFault)
    (q : Fin 131072) (j : Job) (jid ix : Nat) (acts : List Act) (op : RedOp) (p : Piece) (tr : List Trans) (src dst : List Spot)
    (opened : List (Fin 4096 × Bool)),
    let k := (s.cores[c]).cont
    (k.strm[z] = some b → b.out = false → b.device = false → b.buf.length < 8 → b.fetched < b.total → b.ready s = true →
      elemFaulted s b b.fetched = false → elemSpots b [] b.fetched = .ok xs → lowestPoison s xs = none →
      (∀ n ∈ banksOf (xs.map fun a => .here a 1), ((s.banks[n]).engBegin false b.bufNo).isSome = true) →
      ∃ t y, exec (.streamFill c z) s = .next t ∧ (t.cores[c]).cont.strm[z] = some y ∧ y.pos = b.pos ∧
        y.fetched = b.fetched + 1 ∧ y.buf = b.buf ++ [{ n := b.fetched, data := BitVec.ofNat 2048 (leNat (xs.map (memGet s.mem)))
                                                        ready := true, poison := none, failed := false, written := false }]) ∧
    ((∀ o ∈ s.contsOf c, o.drains = []) → (s.cores[c]).keep = none → k.strm[z] = some b → b.out = true →
      drainElem s c b false = some (acts, b') →
      ∃ t, exec (.streamDrain c z) s = .next t ∧ (t.cores[c]).cont.strm[z] = some b') ∧
    (s.invals.find? (fun o => o.id == id) = some v →
      (v.waiting = [] → (∀ h ∈ v.pieces, s.job h.1 = none) → (s.cores[v.core]).cont.cid = v.cid →
        ∃ t, exec (.tlbiCompletion id) s = .next t ∧ (∀ o ∈ t.invals, o.id ≠ id) ∧
          (t.cores[v.core]).cont.tags = (s.cores[v.core]).cont.tags ||| (1#64 <<< v.tag.val) ∧
          ((t.cores[v.core]).cont.status[v.tag]).toNat / 2 ^ 64 % 16 = 0) ∧
      (v.start + s.hub.inval.toNat ≤ s.clock →
        ∃ t o, exec (.invalWatchdogExpiry id) s = .next t ∧ o ∈ t.invals ∧ o.id = id ∧ o.waiting = [] ∧
          ∀ x ∈ v.waiting, ∀ h ∈ v.holders s x, ∀ i p, s.job h.1 = some i → i.prepared = true → i.pieces[h.2]? = some p →
            wheelWriting s i p = false → ∃ i' p', t.job h.1 = some i' ∧ i'.pieces[h.2]? = some p' ∧ p'.st = .ended 5)) ∧
    (s.faults.find? (fun o => o.handle == handle && !o.appended) = some f → pagerQueue s f.part = some q →
      (queueAt s q).full = false →
      ∃ t, exec (.pagerRecordAppend handle) s = .next t ∧
        t.mem = (applyActs s (appendActs s q (pagerRecord s (queueAt s q) f))).mem ∧
        ∀ o ∈ t.faults, o.handle = handle → o.appended = true) ∧
    (s.faults.find? (fun o => o.handle == handle) = some f → f.who = .piece jid ix → s.job jid = some j →
      j.prepared = true → ix < j.pieces.length →
      ∀ e ∈ ([(.pagerResolveRestart handle, .waiting), (.pagerResolveNoframe handle, .ended 3),
          (.pagerResolveAccess handle, .ended 4)] : List (Instr × PieceSt)),
        (e.2 = .waiting ∨ f.write = true ∨ (∀ op, j.work ≠ .redf op) →
          ∃ t j' p', exec e.1 s = .next t ∧ (∀ o ∈ t.faults, o.handle ≠ handle) ∧ t.job jid = some j' ∧
            j'.pieces[ix]? = some p' ∧ p'.st = e.2) ∧
        (e.2 ≠ .waiting → f.write = false → j.work = .redf op → j.pieces[ix]? = some p → s.hub.node ≠ 0 →
          beginPiece s j ix false [] (p.pairs.map fun x => (j.dst, x.2)) = .ok tr src dst opened acts →
          ∃ t m, exec e.1 s = .next t ∧ t.hub.out = (applyActs s acts).hub.out ++ [m] ∧ m.kind = 7 ∧ m.dst = bits j.b.d 48 16 ∧
            m.addr = bits j.b.d 0 46))

/-! ### Events of the stacks, of freezes and of the dispatcher -/

/-- R286, R293, R295, R296, R299, R302, R303, R353 and R363: `memoryRequest`, `wheelStep`, `refreshInterval`,
`stackSelfTestStart`, `selfTestParkRow`, `selfTestMarchEnd`, `selfTestRestoreRow`, `logicTestStart` and `logicTestEnd`
complete. The oldest request is served; with none there, the wheel takes a step of its first job: a reading is over, a row of `wsa` is
accumulated, a row of a bag of `wred` is added; a refresh is performed
in a quiet interval or after eight postponements, and postponed while requests wait; a self-test parks, tests and restores
a bank row by row; a logic test brakes its tile, and lifts the brake of one that passes and that no earlier test failed. -/
def Obligations.StackEvents : Prop :=
  ∀ (s : State) (h : Fin 512) (i : Nat) (r : MemReq) (w : WheelJob) (rest : List WheelJob) (j : Job) (p : Piece)
    (x : Fin 8) (pc : Fin 64) (b : Fin 32) (row : Nat) (d : Fin 4),
    let u := s.homes[h]
    let y := s.memStacks[x]
    let tested := s.homes[fin 511 (x.val * 64 + pc.val)]
    let quiet : Prop := tested.jobs = [] ∧ tested.reqs = [] ∧ tested.postponed = 0 ∧ tested.owed = []
    -- the machine with the refreshes done that a window brings first
    let v := applyActs s (windowActs s h)
    let counted (t : State) : Prop := (t.homes[h]).steps = min (u.steps + 1) 0xFFFFFFFF
    let tile := testedTile s d
    (u.reqs[i]? = some r → r.served = false → (∀ k o, k < i → u.reqs[k]? = some o → o.served = true) →
      ∃ t, exec (.memoryRequest h) s = .next t ∧ (t.homes[h]).reqs[i]? = some { r with served := true }) ∧
    (u.reqs = [] → u.jobs = w :: rest → s.job w.job = some j → j.work = .wstat →
      j.pieces[w.piece]? = some p → p.st = .started →
      ∃ t j' p', exec (.wheelStep h) s = .next t ∧ (t.homes[h]).jobs = rest ∧ (t.homes[h]).steps = min (u.steps + 1) 0xFFFFFFFF ∧
        t.job w.job = some j' ∧ j'.pieces[w.piece]? = some p' ∧ p'.st = .performed 0) ∧
    (u.reqs = [] → u.jobs = w :: rest → s.job w.job = some j → j.pieces[w.piece]? = some p → p.st = .started →
      (j.work = .wsa →
        let src := unitHeads v j.a p.tr (p.pairs.map Prod.fst)
        let dst := unitHeads v j.dst p.tr (p.pairs.map Prod.snd)
        let word (a : Nat) : FVal := FFmt.f32.dec (BitVec.ofNat 32 (memNat v.mem a 4))
        let new (a : Nat × Nat) : List (Nat × Byte) := (List.range 4).map fun i =>
          (a.2 + i, bits (fmaV rnd32 .rne (FFmt.f32.dec j.scale) (word a.1) (word a.2)).1 (8 * i) 8)
        ∃ t j' p', exec (.wheelStep h) s = .next t ∧ (t.homes[h]).jobs = rest ∧ counted t ∧ t.job w.job = some j' ∧
          j'.pieces[w.piece]? = some p' ∧ (p'.st = .performed 0 ∨ p'.st = .performed 2 ∧ t.mem = v.mem) ∧
          (v.poisoned = [] → abstainWords v ((src.zip dst).flatMap new) = [] → p'.st = .performed 0 ∧
            t.mem = ((src.zip dst).flatMap new).foldl (fun m d => memPut m d.1 d.2) v.mem)) ∧
      (j.work = .wred →
        let row := (unitHeads v j.a p.tr (rowUnits (bagCols j) ((w.rows.getD w.pos (0, 0)).1))).map fun a =>
          (BitVec.ofNat 32 (memNat v.mem a 4) : W32)
        let acc := match w.acc with
          | none => row
          | some a => List.zipWith (fun y z => (addV rnd32 .rne (FFmt.f32.dec y) (FFmt.f32.dec z)).1) a row
        (w.pos + 1 < w.len → ∃ t y, exec (.wheelStep h) s = .next t ∧ (t.homes[h]).jobs = y :: rest ∧ y.pos = w.pos + 1 ∧
          y.acc = some acc ∧ counted t ∧ t.mem = v.mem) ∧
        (w.len ≤ w.pos + 1 → ∃ t j' p', exec (.wheelStep h) s = .next t ∧ (t.homes[h]).jobs = rest ∧ counted t ∧
          t.mem = v.mem ∧ t.job w.job = some j' ∧ j'.pieces[w.piece]? = some p' ∧ p'.st = .started ∧
          p'.sums = p.sums ++ [(h.val, acc)]))) ∧
    ((∃ t, exec (.refreshInterval h) s = .next t ∧
      (u.reqs = [] ∧ (u.jobs = [] ∨ 8 ≤ u.postponed) → (t.homes[h]).owed = [] ∧ (t.homes[h]).postponed = 0) ∧
      (¬ (u.reqs = [] ∧ (u.jobs = [] ∨ 8 ≤ u.postponed)) → (t.homes[h]).postponed = u.postponed + 1))) ∧
    ((s.hub.stktest[x]).getLsbD 15 = true → y.test = none → y.failed = false → y.next < 2048 →
      (s.homes[fin 511 (x.val * 64 + y.next / 32)]).failedBank = none →
      ∃ t, exec (.stackSelfTestStart x) s = .next t ∧ (t.memStacks[x]).next = (y.next + 1) % 2048 ∧
        (t.memStacks[x]).test = some (fin 63 (y.next / 32), fin 31 (y.next % 32), 0, 0)) ∧
    (y.test = some (pc, b, 0, row) → quiet → ∃ t, exec (.selfTestParkRow x) s = .next t ∧
      (t.memStacks[x]).test = (if row + 1 < 8192 then some (pc, b, 0, row + 1) else some (pc, b, 1, 0))) ∧
    (y.test = some (pc, b, 1, row) →
      (∃ t, exec (.selfTestMarchEnd x true) s = .next t ∧ (t.memStacks[x]).test = some (pc, b, 2, 0)) ∧
      ∃ t, exec (.selfTestMarchEnd x false) s = .next t ∧ (t.memStacks[x]).test = none ∧
        (t.homes[fin 511 (x.val * 64 + pc.val)]).failedBank = some b ∧ (t.hub.stktest[x]).getLsbD 31 = true ∧
        t.reports = s.reports ++ [.bank x.val (pc.val * 32 + b.val)]) ∧
    (y.test = some (pc, b, 2, row) → quiet → ∃ t, exec (.selfTestRestoreRow x) s = .next t ∧
      (t.memStacks[x]).test = (if row + 1 < 8192 then some (pc, b, 2, row + 1) else none)) ∧
    (s.hub.ltest.getLsbD 15 = true → (s.dies[d]).testing = false → (s.dies[d]).poweredDown = false →
      ∃ t, exec (.logicTestStart d) s = .next t ∧ (t.dies[d]).testing = true ∧ (t.tiles[tile]).braked = true) ∧
    ((s.dies[d]).testing = true →
      (∃ t, exec (.logicTestEnd d true) s = .next t ∧ (t.dies[d]).testing = false ∧
        (t.tiles[tile]).braked = ((s.tiles[tile]).failed && (s.tiles[tile]).braked) ∧ (t.tiles[tile]).nodes = [] ∧ (t.dies[d]).testTile = (s.dies[d]).testTile + 1) ∧
      ∃ t, exec (.logicTestEnd d false) s = .next t ∧ (t.dies[d]).testing = false ∧
        (t.dies[d]).suspectCount = (s.dies[d]).suspectCount + 1 ∧ (t.tiles[tile]).failed = true ∧
        ∀ c : Fin 256, c.val / 4 = tile.val → (t.cores[c]).failed = true)

/-- R339, R345, R347, R354, R355, R357 and R358, freezes and margins (trapEntry, contextSaveComplete, preemptionRequest,
preemptionTaken, contextSpill, lateTransition, replayWindowExpiry, stretchExpiry, issueWatchdogExpiry): a trap from outside
the instructions is taken, a lost vote only where the next bundle votes, once no bundle waits for an access that it has made (the
model's choice, log entry 107); a saved image lets the handler start at TVEC with
HND and PRIV set, or frees the core; a requested pre-emption is taken with TPC at the next bundle to issue; a saved
continuation spills with the words written to its image, the image and the circuit entries in memory at its context area, whose address is the model's choice (log
entry 50); a late transition within the limit is counted, costs a core the operation's latency and two cycles, and changes
nothing of a stone but its count; windows and stretches end. Memory reads back under InvariantStep's invariant. -/
def Obligations.FreezeEvents : Prop :=
  ∀ (s : State) (c : Fin 256) (cause : Cause) (info : W64) (code : BitVec 5) (img : Cont) (op : LateOp) (n : Fin 3)
    (lat : Nat) (pc : W32) (x : Slot) (st : Fin 64),
    let y := s.cores[c]
    let k := y.cont
    let now := k.atStop
    let z := s.stones[st]
    let zr := rplTotal (if s.clock / 65536 = z.window then z.rplcnt else setBits z.rplcnt 8 0#4)
    (k.asked ≠ none → exec (.trapEntry c cause info) s = .next s ∧ exec (.lateTransition (.core c) op n) s = .next s) ∧
    (y.phase = .running → k.asked = none → (cause = .novote → votesOn s c info = true) → k.tcause.getLsbD 9 = false → k.tvec ≠ 0 → ∃ t im, exec (.trapEntry c cause info) s = .next t ∧
      (t.cores[c]).phase = .trapSave 1 ∧ (t.cores[c]).keep = some im ∧ im.tpc = k.pc ∧ im.tinfo = info ∧ im.s = now.s ∧
      im.pend = now.pend ∧ (im.tcause.setWidth 5 : BitVec 5) = causeCode cause ∧
      im.tcause.getLsbD 8 = k.cstat.getLsbD 2) ∧
    (savable s c = true → y.phase = .trapSave code → code ≠ 0 → ∃ t, exec (.contextSaveComplete c) s = .next t ∧
      (t.cores[c]).phase = .running ∧ (t.cores[c]).cont.pc = k.tvec ∧ (t.cores[c]).cont.tcause.getLsbD 9 = true ∧
      (t.cores[c]).cont.cstat.getLsbD 2 = true) ∧
    (savable s c = true → y.phase = .preemptSave → ∃ t, exec (.contextSaveComplete c) s = .next t ∧
      (t.cores[c]).phase = .saved ∧ (t.cores[c]).keep = y.keep) ∧
    (y.phase ≠ .vacant → k.team = none → ∃ t, exec (.preemptionRequest c) s = .next t ∧ (t.cores[c]).preempt = true) ∧
    (preemptable y = true → k.fused = none → ∃ t im, exec (.preemptionTaken c) s = .next t ∧
      (t.cores[c]).phase = .preemptSave ∧ (t.cores[c]).preempt = false ∧ (t.cores[c]).keep = some im ∧ im.tpc = k.pc ∧
      im.s = now.s ∧ im.pend = now.pend ∧ im.f = k.f) ∧
    (y.phase = .saved → y.keep = some img → (∀ o ∈ (s.quads[quadOf c]).moving, o.dst ≠ quadIx c) →
      (∀ a ∈ img.acc, ∃ p ∈ img.parks, p.2.id = a.id) → ∃ t r, exec (.contextSpill c) s = .next t ∧
        (t.cores[c]).phase = .vacant ∧ (t.cores[c]).keep = none ∧
        (t.dies[dieOf c]).resume = (s.dies[dieOf c]).resume ++ [r] ∧ r.cont = y.written img ∧ r.spilt = r.cont ∧
        r.core = c ∧ r.area = contextArea s.free ∧
        (s.Inv → memBytes t.mem r.area (contextBytes y img).length = contextBytes y img)) ∧
    (y.phase = .running → k.asked = none → lateOperation k op = some (lat, pc, x) → n.val < 2 → k.fused = none →
      rplWin (rplTotal y.rplcnt) < rplLimit (rplTotal y.rplcnt) →
      ∃ t, exec (.lateTransition (.core c) op n) s = .next t ∧ (t.cores[c]).clk = y.clk + lat + 2 ∧ (t.cores[c]).cont = k ∧
        rplWin (t.cores[c]).rplcnt = rplWin (rplTotal y.rplcnt) + 1 ∧ (t.cores[c]).tent = y.tent) ∧
    (n.val < 2 → rplWin zr < rplLimit zr → ∃ t, exec (.lateTransition (.stone st) op n) s = .next t ∧
      rplWin (t.stones[st]).rplcnt = rplWin zr + 1 ∧ (t.stones[st]).tent = z.tent ∧ t.banks = s.banks ∧ t.mem = s.mem ∧
      t.jobs = s.jobs) ∧
    (y.windowEnd ≤ y.clk → ∃ t, exec (.replayWindowExpiry c) s = .next t ∧ rplWin (t.cores[c]).rplcnt = 0 ∧
      (t.cores[c]).windowEnd = y.windowEnd + 65536) ∧
    (y.stretchEnd ≠ 0 → y.stretchEnd ≤ y.clk → ∃ t, exec (.stretchExpiry c) s = .next t ∧ (t.cores[c]).stretchEnd = 0) ∧
    (∀ w : W64 × Nat, y.phase = .running → y.holds.find? (fun o => decide (2 ^ 20 ≤ o.2)) = some w → k.tcause.getLsbD 9 = false → k.tvec ≠ 0 →
      ∃ t im, exec (.issueWatchdogExpiry c) s = .next t ∧ (t.cores[c]).phase = .trapSave 1 ∧ (t.cores[c]).keep = some im ∧
        im.tpc = k.pc ∧ (im.tcause.setWidth 5 : BitVec 5) = 16 ∧ im.tinfo = w.1)

/-- R319, R327, R331, R343 and R347, the dispatcher (dispatchPick, pickup, resume): with an idle core it takes the resumed
record, or the queue's head, that the rules choose at the highest priority; a record that was picked before and lost its cores comes
first (the model's choice, log entry 103, DESIGN CHOICE: R327 and R331 give it no place); a picked record, its cores still in its
partition and unbraked and its carried banks drained, is seated with its ENTRY, arguments, partition, TVEC and TS; a resumed
continuation issues at TPC with the registers of the image that its context area holds, read back by its changed words (the model's
choice, log entry 50), which are those of the spilled image, with the completions that have arrived since, where no word of the area
has changed. -/
def Obligations.DispatchEvents : Prop :=
  ∀ (s : State) (d : Fin 4) (c : Fin 256) (q : Fin 131072) (t : Seating) (rs : List ResumeRec) (cs : List (Fin 256))
    (r : ResumeRec),
    let y := s.dies[d]
    let ready := y.resume.filter fun o => hPrio (recHeader o.record) == 7
    let ring := queueAt s q
    let head := memBytes s.mem (ringSlot ring ring.head) 64
    let h := recHeader t.record
    let placed : Prop := ∀ o ∈ y.seating, o.cores ≠ []
    ((dieCores d).any (idleCore s d) = true → y.seating = [t] → t.cores = [] → t.queue = some q →
      seatsFor s d q (hPrio h) t.record = cs → cs ≠ [] →
      ∃ t', exec (.dispatchPick d) s = .next t' ∧ (t'.dies[d]).seating = [{ t with cores := cs }]) ∧
    (placed → (dieCores d).any (idleCore s d) = true → ready.findSome? (resumeSeats s d) = some (rs, cs) →
      ∃ t' w, exec (.dispatchPick d) s = .next t' ∧ (t'.dies[d]).seating = y.seating ++ [w] ∧ w.cores = cs ∧ w.resume = rs ∧
        w.queue = none) ∧
    (placed → (dieCores d).any (idleCore s d) = true → ready.findSome? (resumeSeats s d) = none → servedQueues s d 7 = [q] →
      creditOf y q.val ring.weight ≠ 0 → headBad head = false → seatsFor s d q 7 head = cs → cs ≠ [] →
      ∃ t' w, exec (.dispatchPick d) s = .next t' ∧ (t'.dies[d]).seating = y.seating ++ [w] ∧ w.cores = cs ∧
        w.record = head ∧ w.queue = some q ∧
        creditOf (t'.dies[d]) q.val ring.weight = creditOf y q.val ring.weight - 1) ∧
    (seatingOf s c = some t → t.queue = some q → t.cores = [c] → t.parkFlag = none → hLevel h = 0 →
      stillIn s (hPart h) [c] = true →
      carriedDrained s (((List.range 4).filter fun j => bitAt (hCarry h) j).map fun j => bankOf c (recBank t.record j)) = true →
      ∃ t', exec (.pickup c) s = .next t' ∧ (t'.cores[c]).phase = .running ∧
        let k := (t'.cores[c]).cont
        k.pc = recEntry t.record ∧ k.part = hPart h ∧ k.ts = recTs t.record ∧ k.tvec = ring.tvec ∧ k.team = none ∧
        (∀ i : Fin 64, k.s[i] = if i.val < 4 then recArg t.record i.val else 0) ∧ seatingOf t' c = none) ∧
    (seatingOf s c = some t → t.queue = none → t.cores = [c] → t.resume = [r] → stillIn s r.cont.part [c] = true →
      let im := r.cont.loaded r.spilt s.mem r.area
      let same (k m : Cont) : Prop := k.s = m.s ∧ k.va = m.va ∧ k.vb = m.vb ∧ k.p = m.p ∧ k.bt = m.bt ∧ k.t = m.t ∧
        k.pend = m.pend ∧ k.tags = m.tags
      (∃ t', exec (.resume c) s = .next t' ∧ (t'.cores[c]).phase = .running ∧ (t'.cores[c]).cont.pc = im.tpc ∧
        same (t'.cores[c]).cont im) ∧
      (areaWrites s.mem r.area r.spilt = [] → im.tpc = r.cont.tpc ∧ same im r.cont))

/-! ### Events of the platform and the fabric -/

/-- R90, R140, R265, R330, R331, R385, R390 and R394, register writes from the fabric that find what they need (doorbell, launch,
imgbaseWrite, partcfgWrite, slottabWrite, bmapWrite, powerP0, powerP1, powerC1, powerC3, powerD3, powerTransitionEnd,
registerWrite): each is the next request of its source (R372), has its effect and is acknowledged. A doorbell moves TAIL; a launch of one core seats it with ENTRY, TVEC and arguments, every other scalar register and every tag's
status zero; image,
partition, slot-table, window and power registers take the value written; a power state is reached with its margins, and D3
left in the Tenant state with no partition. A written TAIL reads back under InvariantStep's
invariant, memory in its canonical form. -/
def Obligations.RegisterEvents : Prop :=
  ∀ (s : State) (src : Half) (v : W64) (p q : Fin 16) (i : Fin 16) (c : Fin 256) (w : Byte) (qu : Fin 131072) (tail : W32)
    (d : Directory) (acts : List Act) (l : Plan) (b : List Byte),
    fabricServed s = true → (∀ m ∈ s.hub.early, m.src ≠ src) →
    let may (o : Nat) : Prop := granted s src .wr (Config.cfgBase + o) 8 = true
    let acked (t : State) : Prop := ∃ r, t.hub.out = s.hub.out ++ [r] ∧ r.kind = 0x11 ∧ r.dst = src
    let base := (bits v 12 36).toNat * 4096
    let quad : Fin 16 := q
    (may 0 → launchPlan s (fin 15 (bits v 0 4).toNat) base = .ok l → l.starts = [b] →
      ∃ t, exec (.launch src v) s = .next t ∧ acked t ∧ (t.cores[startCore b]).phase = .running ∧
        let k := (t.cores[startCore b]).cont
        k.pc = BitVec.ofNat 32 (recNat b 4 4) ∧ k.tvec = BitVec.ofNat 32 (recNat b 8 4) ∧
        k.part = fin 15 (bits v 0 4).toNat ∧ k.ts = BitVec.ofNat 64 (hubNow s) ∧
        (∀ j : Fin 64, k.s[j] = if j.val < 4 then BitVec.ofNat 64 (recNat b (16 + 8 * j.val) 8) else 0) ∧
        ∀ j : Fin 64, k.status[j] = 0) ∧
    (doorbellWrite s qu src tail = .ok acts → ∃ t, exec (.doorbell src qu tail) s = .next t ∧ acked t ∧
      (s.Inv → (queueAt s qu).tail ≠ tail.toNat % (queueAt s qu).slots →
        memNat t.mem (queueAddr s qu + 12) 4 = tail.toNat % (queueAt s qu).slots)) ∧
    (may (0x300 + 8 * p.val) → partSeated s p = false → directoryAt s p base = .ok (d, acts) →
      ∃ t, exec (.imgbaseWrite src p v) s = .next t ∧ acked t ∧ (t.parts[p]).imgBase = bits v 12 36 ∧
        (t.parts[p]).imgV = true ∧ (t.parts[p]).imgN = d.n) ∧
    (may (0x100 + 8 * p.val) → (∀ o : Fin 16, o ≠ p → (s.parts[o]).qmask &&& v.setWidth 16 = 0) →
      ∃ t, exec (.partcfgWrite src p v) s = .next t ∧ acked t ∧ (t.parts[p]).qmask = v.setWidth 16 ∧
        (t.parts[p]).prompt = v.getLsbD 16) ∧
    (may (0x109000 + 0x10000 * (quad.val / 4) + 0x80 * (quad.val % 4) + 8 * i.val) → heldQuad s quad.val = false →
      (∀ o : Fin 256, o.val / 16 = quad.val → (s.cores[o]).phase = .vacant) →
      ∃ t, exec (.slottabWrite src quad i v) s = .next t ∧ acked t ∧ (t.quads[quad]).slotNew[i] = v) ∧
    (may (0x1000000 + 0x800 * c.val + 8 * w.toNat) → w.toNat < 252 →
      ((bmapOf v).v = false ∨ bankTaken s c (fin 255 w.toNat) (bankOf c (bits v 8 8)) = false) →
      ∃ t, exec (.bmapWrite src c w v) s = .next t ∧ acked t ∧ ((t.cores[c]).cont.entry w).v = (bmapOf v).v ∧
        ((t.cores[c]).cont.entry w).bank = bits v 8 8 ∧ ((t.cores[c]).cont.entry w).opened = (bmapOf v).opened) ∧
    (may 0x68 → (s.hub.pwr = 0 ∨ s.hub.pwr = 1) → s.hub.chg = false → (∀ o : Fin 256, (s.cores[o]).phase ≠ .halted) →
      ∀ e ∈ ([(.powerP0 src, 0), (.powerP1 src, 1), (.powerC1 src, 2), (.powerC3 src, 3), (.powerD3 src, 4)]
          : List (Instr × BitVec 3)),
        (e.2 = 4 → ∀ o : Fin 16, (s.parts[o]).qmask = 0) →
          ∃ t, exec e.1 s = .next t ∧ acked t ∧ t.hub.pend = some e.2 ∧ t.hub.chg = true ∧ t.hub.pwr = s.hub.pwr) ∧
    (∀ n, s.hub.pend = some n → ∃ t, exec .powerTransitionEnd s = .next t ∧ t.hub.pwr = n ∧ t.hub.pend = none ∧
      t.hub.chg = false ∧ (n = 1 → s.hub.pwr ≠ 1 → ∀ o : Fin 256, tentOff (t.cores[o]).tent = 20) ∧
      (s.hub.pwr = 4 → n ≠ 4 → t.hub.sec = .tenant ∧ t.hub.dbg = 0 ∧ ∀ o : Fin 16, (t.parts[o]).qmask = 0) ∧
      (n = 4 → ∀ o : Fin 256, (t.cores[o]).phase = .vacant)) ∧
    (may 0x20 → ∃ t, exec (.registerWrite src 0x20 v) s = .next t ∧ acked t ∧ t.hub.reddl = v.setWidth 32) ∧
    (may 0x10 → ∃ t, exec (.registerWrite src 0x10 v) s = .next t ∧ acked t ∧ t.hub.node = v.setWidth 16 ∧
      t.hub.rlim = bits v 20 4)

/-- R371 to R376 and R381, requests from the fabric that the access table grants (rd, wr, atom, postPacket, spawnPacket, mcw,
unknownPacket): the next request of its source is accepted, one that comes early waits, and one whose number has been taken is
not accepted again; main memory is read, written and updated atomically, each with its response; a POST increments its flag;
a SPAWN is answered with its status; an entry of an MCW that names this node is served as a WR; a packet of an unlisted KIND is
answered ERR 4. Memory written reads back under InvariantStep's invariant, memory in its canonical form. Model's choices: the
data layout of ATOM (log entry 41), that a response carries its request's address (log entry 65), what a number that was taken
does (log entry 64), all DESIGN CHOICE. -/
def Obligations.FabricRequests : Prop :=
  ∀ (s : State) (p : Packet) (f : Fin 32) (c : Fin 256),
    fabricServed s = true → (∀ m ∈ s.hub.early, m.src ≠ p.src) →
    let a := p.addr.toNat
    let n := p.data.length
    let ahead := (p.seq - s.hub.expected p.src).toNat
    -- a write of bytes that abstains from no reduction (R378)
    let plain (data : List Byte) : Prop := abstainWords s (((List.range data.length).map (a + ·)).zip data) = []
    let sent (t : State) (r : Packet → Prop) : Prop := ∃ m, t.hub.out = s.hub.out ++ [m] ∧ m.dst = p.src ∧ r m
    let arg := c.val * 2 ^ 16 + f.val * 2 ^ 11
    (0 < ahead → ahead < 2 ^ 31 → ∃ t m, exec (.wr p) s = .next t ∧ t.mem = s.mem ∧ t.hub.out = s.hub.out ∧
      t.hub.early = s.hub.early ++ [m] ∧ m.src = p.src ∧ m.seq = p.seq ∧ m.data = p.data) ∧
    (2 ^ 31 ≤ ahead → exec (.wr p) s = .next s) ∧
    (ahead = 0 → 1 ≤ p.len.toNat → p.len.toNat ≤ 4096 → granted s p.master .rd a p.len.toNat = true →
      a + p.len.toNat ≤ Config.mainBytes →
      ∃ t, exec (.rd p) s = .next t ∧ t.mem = s.mem ∧
        sent t fun m => m.kind = 0x10 ∧ m.addr = p.addr ∧ m.data = memBytes s.mem a p.len.toNat) ∧
    (ahead = 0 → 1 ≤ n → n ≤ 4096 → a + n ≤ Config.mainBytes → plain p.data → packetAbstains s p = none →
      let wrote (t : State) : Prop :=
        (s.Inv → ∀ i, i < n → memGet t.mem (a + i) = p.data.getD i 0) ∧ ∀ x, (x < a ∨ a + n ≤ x) → memGet t.mem x = memGet s.mem x
      (granted s p.master .wr a n = true → ∃ t, exec (.wr p) s = .next t ∧ wrote t ∧ sent t fun m => m.kind = 0x11) ∧
      (granted s p.master .wr a n = true → p.list = [(s.hub.node, p.addr)] →
        ∃ t, exec (.mcw p) s = .next t ∧ wrote t ∧ sent t fun m => m.kind = 0x11)) ∧
    (ahead = 0 → n = 4 → plain (leBytes 4 ((memNat s.mem a 4 + leNat p.data) % 2 ^ 32)) → p.arg.toNat / 2 ^ 21 = 0 → a % 4 = 0 → a + 4 ≤ Config.mainBytes → granted s p.master .at a 4 = true →
      poisonedAt s a = false → packetBad p 0 = false →
      ∃ t, exec (.atom p) s = .next t ∧
        (s.Inv → memNat t.mem a 4 = (memNat s.mem a 4 + leNat p.data) % 2 ^ 32) ∧
        sent t fun m => m.kind = 0x12 ∧ m.data = memBytes s.mem a 4) ∧
    (ahead = 0 → p.arg.toNat / 2 ^ 11 = arg / 2 ^ 11 → granted s p.master .po (flagAddr c f) 8 = true → (s.cores[c]).phase = .running →
      (∀ x ∈ (s.quads[quadOf c]).parks, x.holds c f = false) →
      ∃ t, exec (.postPacket p) s = .next t ∧
        ((t.cores[c]).cont.f[f]).toNat = min (((s.cores[c]).cont.f[f]).toNat + p.arg.toNat % 2 ^ 11) 0xFFFF) ∧
    (∀ q : Fin 131072, ahead = 0 → n = 64 → p.addr.toNat % 2 ^ 17 = q.val →
      let st := offer s q p.master true false 0 p.data
      ∃ t, exec (.spawnPacket p) s = .next t ∧ (sent t fun m => m.kind = 0x13 ∧ m.status.toNat = st) ∧
        (st = 0 → t.mem = (applyActs s (appendActs s q (recFor (queueAt s q) (packetRecord p)))).mem) ∧
        (st ≠ 0 → t.mem = s.mem)) ∧
    (∃ t, exec (.unknownPacket p) s = .next t ∧ t.mem = s.mem ∧ sent t fun m => m.kind = 0x1F ∧ m.status = 4)

/-- R373, responses (rdrsp, wrack, atrsp, sprsp, err, responseTimeout): the request that a response answers is no longer awaited,
and its data, or its error, reach the piece or the held slot that made it; the limit RLIM ends a request likewise, and a
response that comes after it is discarded. Which request a response answers, the oldest of its node, address and kind, is the
model's choice (log entry 65, DESIGN CHOICE). -/
def Obligations.FabricResponses : Prop :=
  ∀ (s : State) (p : Packet) (a : Await) (c : Fin 256) (cid : Nat) (x : Slot) (job ix pos : Nat) (j : Job) (q : Piece),
    let closed (t : State) : Prop := t.hub.awaits = s.hub.awaits.filter fun o => o.id != a.id
    let answer (t : State) (st : BitVec 4) (v : W64) : Prop :=
      ∀ r ∈ (t.cores[c]).cont.remote, r.slot = x → ∃ bad, r.answer = some (st, v, bad)
    let got (t : State) (data : List Byte) : Prop := ∃ j' q', t.job job = some j' ∧ j'.pieces[ix]? = some q' ∧
      q'.awaiting = q.awaiting.filter (· != a.id) ∧
      q'.got = q.got ++ (List.range data.length).map fun i => (pos + i, data.getD i 0)
    let ended (t : State) (e : BitVec 4) : Prop := ∃ j' q', t.job job = some j' ∧ j'.pieces[ix]? = some q' ∧ q'.st = .ended e
    ((∀ o ∈ s.hub.awaits, o.sent + 2 ^ s.hub.rlim.toNat * 1000 ≤ hubNow s) →
      ∀ i ∈ ([.rdrsp p, .wrack p, .atrsp p, .sprsp p, .err p] : List Instr), exec i s = .next s) ∧
    ((s.cores[c]).cont.cid = cid → s.job job = some j → j.pieces[ix]? = some q →
    (∀ e ∈ ([(.rdrsp p, [1], p.data), (.wrack p, [2, 0x0D], []), (.atrsp p, [3], p.data), (.sprsp p, [5], [])]
        : List (Instr × List (BitVec 6) × List Byte)),
      awaited s p e.2.1 = some a →
        (a.who = .core c cid x → ∃ t, exec e.1 s = .next t ∧ closed t ∧ answer t p.status (BitVec.ofNat 64 (leNat e.2.2))) ∧
        (a.who = .piece job ix pos → ∃ t, exec e.1 s = .next t ∧ closed t ∧ got t e.2.2)) ∧
    (awaited s p [1, 2, 3, 5, 6, 7, 0x0D] = some a →
      (a.who = .core c cid x → ∃ t, exec (.err p) s = .next t ∧ closed t ∧ answer t 5 0) ∧
      (a.who = .piece job ix pos → q.st = .started →
        ∃ t, exec (.err p) s = .next t ∧ closed t ∧ ended t (if p.status = 1 then 4 else 7))) ∧
    (∀ n, s.hub.awaits.find? (fun o => o.id == n) = some a → a.sent + 2 ^ s.hub.rlim.toNat * 1000 ≤ hubNow s →
      (a.who = .core c cid x → ∃ t, exec (.responseTimeout n) s = .next t ∧ closed t ∧ answer t 5 0) ∧
      (a.who = .piece job ix pos → q.st = .started → ∃ t, exec (.responseTimeout n) s = .next t ∧ closed t ∧ ended t 9)))

/-- R288 and R375 to R380, in-network reduction and release (red, abst, abstainWrite, reductionDeadline, result, copyPieceEnd,
fencePacket, fencedone):
the first arrival of the next epoch at a context opens it, whether it is a packet, a write of ABSTAIN of this device, or one
from another node, which is acknowledged, where no such write came before its context was known; at the deadline an open epoch
closes, its number written; a RESULT that may write ends the contributor's tag, at once, or, where an earlier access through another
view to one of its blocks has still to perform, once its own requests are served, and one that no entry allows is refused; the hub sends FENCE to each switch for an unsent release
whose accesses have performed, and the last FENCEDONE ends it. The number written reads back under InvariantStep's invariant,
memory in its canonical form. Model's choices: the contributor count and the RESULT's code beside the packet (log entry 40), the
next epoch as the number written plus 1 (log entry 66), the switches of the environment and their FENCE's DST (log entry 67),
the writes that abstain (log entry 88). -/
def Obligations.ReductionsAndFences : Prop :=
  ∀ (s : State) (p : Packet) (ctx : BitVec 46) (e : Epoch) (a : Await) (j : Job) (id : Nat) (q : Piece) (c : Fin 256)
    (r : Release) (sw : Nat) (v : W32),
    fabricServed s = true →
    let n := (p.list.head?.map fun x => x.1.toNat).getD 0
    let next : Half := BitVec.ofNat 16 (memNat s.mem p.addr.toNat 4 + 1)
    let opens (t : State) (at_ : BitVec 46) (arr : Arrival → Prop) : Prop := ∃ o b, t.hub.epochs = s.hub.epochs ++ [o] ∧
      o.ctx = at_ ∧ o.arrivals = [b] ∧ arr b
    let comes : Prop := p.seq = s.hub.expected p.src ∧ ∀ m ∈ s.hub.early, m.src ≠ p.src
    let finishes (t : State) : Prop := ∃ j' q', t.job id = some j' ∧ j'.pieces[0]? = some q' ∧
      q'.st = .ended (bits (p.list.headD (0, 0)).2 0 4)
    -- the destination has not lost its power (R390)
    let lands : Prop := p.data = [] ∨ reductionThere s j q = true
    (comes → (∀ x ∈ s.hub.unsure, x.1 ≠ p.addr) → p.addr.toNat % 64 = 0 → p.data.length % 4 = 0 → p.data.length ≤ 4096 → p.addr.toNat < Config.mainBytes →
      granted s p.master .at p.addr.toNat 64 = true → epochAt s p.addr = none → p.arg.setWidth 16 = next →
      (n = 0 ∨ (2 ≤ n ∧ p.arg.toNat / 2 ^ 19 < n)) →
      (p.arg.toNat / 2 ^ 17 % 4 ≠ 3 → ∃ t, exec (.red p) s = .next t ∧
        opens t p.addr fun b => b.red.isSome = true ∧ b.index.val = p.arg.toNat / 2 ^ 19 ∧ b.node = p.src) ∧
      ∃ t, exec (.abst p) s = .next t ∧ opens t p.addr fun b => b.red = none ∧ b.index.val = p.arg.toNat / 2 ^ 19) ∧
    (v.toNat / 2 ^ 21 = 0x400 → ctx.toNat % 64 = 0 → epochAt s ctx = none → (∀ x ∈ s.hub.unsure, x.1 ≠ ctx) →
      (bits v 5 16 : Half) = BitVec.ofNat 16 (memNat s.mem ctx.toNat 4 + 1) →
      let abstains (t : State) (n : Half) : Prop := opens t ctx fun b => b.red = none ∧ b.index.val = v.toNat % 32 ∧ b.node = n
      (reach s none (ctx.toNat + 4) 4 true = .memory → granted s s.hub.node .at ctx.toNat 64 = true →
        ∃ t, exec (.abstainWrite s.hub.node (ctx + 4) v) s = .next t ∧ abstains t s.hub.node) ∧
      ∀ src, src ≠ s.hub.node → (∀ m ∈ s.hub.early, m.src ≠ src) → granted s src .at ctx.toNat 64 = true →
        ∃ t m, exec (.abstainWrite src (ctx + 4) v) s = .next t ∧ abstains t src ∧ t.hub.out = s.hub.out ++ [m] ∧
          m.kind = 0x11 ∧ m.dst = src) ∧
    (epochAt s ctx = some e → e.held = [] → s.hub.reddl ≠ 0 → e.since + s.hub.reddl.toNat ≤ hubNow s →
      ∃ t, exec (.reductionDeadline ctx) s = .next t ∧ epochAt t ctx = none ∧
        (s.Inv → memNat t.mem ctx.toNat 4 = e.epoch.toNat)) ∧
    (comes → resultFor s p = some a → a.who = .reduction id → s.job id = some j → j.pieces[0]? = some q →
      (∃ i : Fin 4096, actNames s.hub.act[i] p.master .wr = true ∧ actSized s.hub.act[i] = true ∧
        ∀ x ∈ resultBytes s p (some a), actCovers s.hub.act[i] x 1 = true) →
      let answered (t : State) : Prop := t.hub.awaits = s.hub.awaits.filter fun o => o.id != a.id
      (viewFree s (dView j.dst.d) (resultMain s p j) = true → lands →
        ∃ t, exec (.result p) s = .next t ∧ answered t ∧ finishes t) ∧
      (viewFree s (dView j.dst.d) (resultMain s p j) = false →
        ∃ t, exec (.result p) s = .next t ∧ answered t ∧ t.mem = s.mem ∧ t.jobs = s.jobs ∧ t.hub.stalled = s.hub.stalled ++ [{ p with kind := 8 }])) ∧
    (∀ rop, s.job id = some j → j.work = .redf rop → j.pieces[0]? = some q → q.st = .started →
      s.hub.stalled.find? (fun o => o.kind == 8 && o.src == bits j.b.d 48 16 && resultNames s o j) = some p →
      requestsServed s (id, 0) (resultMain s p j) = true → viewHeld s (id, 0) (resultMain s p j) = false → lands →
      ∃ t, exec (.copyPieceEnd id 0) s = .next t ∧ finishes t ∧ t.hub.stalled = s.hub.stalled.erase p) ∧
    (comes → (∀ i : Fin 4096, (actNames s.hub.act[i] p.master .wr && actSized s.hub.act[i]) = false) →
      ∃ t m, exec (.result p) s = .next t ∧ t.mem = s.mem ∧ t.hub.awaits = s.hub.awaits ∧ t.hub.out = s.hub.out ++ [m] ∧
        m.kind = 0x1F ∧ m.status = 1) ∧
    (s.releases.find? (fun o => o.src == c && o.fabric == .unsent) = some r → s.outstanding r.src r.needs = false →
      s.hub.node ≠ 0 → s.hub.plan.switches ≠ [] →
      ∃ t ms, exec (.fencePacket c) s = .next t ∧ { r with fabric := .waiting s.hub.plan.switches } ∈ t.releases ∧
        t.hub.out = s.hub.out ++ ms ∧
        ms.map (fun m => (m.kind, m.dst)) = s.hub.plan.switches.map fun x => (9, BitVec.ofNat 16 x)) ∧
    (s.releases = [r] → r.src = c → r.fabric = .waiting [sw] →
      (r.deliver = .nothing → ∃ t, exec (.fencedone c sw) s = .next t ∧ t.releases = [{ r with fabric := .waiting [] }]) ∧
      ∀ m, r.deliver = .packet m → s.hub.node ≠ 0 → ∃ t o, exec (.fencedone c sw) s = .next t ∧ t.releases = [] ∧
        t.hub.out = s.hub.out ++ [o] ∧ o.kind = m.kind ∧ o.dst = m.dst ∧ o.arg = m.arg)

/-- R371, R382, R389, R391 and R392, management (mgmt, time, attestationRequest, securityStateChange, halt, overtempP1,
overtempShutdown): a management packet, an attestation report and a temperature stop are
reported; TIME sets OFFS, LOCK and the master, and the hub's time neither steps then nor runs backwards after it (the time base it
goes on from is the model's choice, log entry 68); the security state changes as R389 lists, to VendorDebug with a debug token, which
is used then (what a token is signed over is the model's choice, log entry 104): cores, banks, window entries, keep banks and circuits are as after reset, stone SRAM and banks read
as zero, and main memory too on entry to or from VendorDebug; HALT freezes a running core, whose bundle does not wait for an access that
it has made (log entry 107); overtemperature goes to P1 from any state but D3, and a pending request is dropped (the model's reading,
log entry 61, DEDUCED: R392 says only that P1 is forced), or stops the package in D3, which keeps the partitions. -/
def Obligations.PlatformEvents : Prop :=
  ∀ (s : State) (p : Packet) (master : Half) (offset : W32) (nonce : BitVec 256) (to_ : Sec) (c : Fin 256),
    (∃ t, exec (.mgmt p) s = .next t ∧ t.reports = s.reports ++ [.mgmt p]) ∧
    (fabricServed s = true → ∃ t, exec (.time master offset) s = .next t ∧ t.hub.timeMaster = master ∧ t.hub.offs = offset ∧
      t.hub.lock = decide (-20 ≤ offset.toInt ∧ offset.toInt ≤ 20) ∧ hubNow t = hubNow s ∧
      ∀ m n, s.clock ≤ m → m ≤ n → hubAt t.hub m ≤ hubAt t.hub n) ∧
    (s.hub.booted = true → s.hub.sec ≠ .locked → ∃ t x, exec (.attestationRequest nonce) s = .next t ∧
      t.reports = s.reports ++ [.attestation x] ∧ x.take 32 = leBytes 32 nonce.toNat) ∧
    (secMove s.hub.sec to_ = true → s.hub.chg = false →
      comboOk to_ (if to_ = .locked then 0 else s.hub.dbg) s.hub.pwr = true →
      (to_ = .vendorDebug → s.hub.goodToken = none → exec (.securityStateChange to_) s = .next s) ∧
      ((to_ = .vendorDebug → s.hub.goodToken.isSome = true) →
      ∃ t, exec (.securityStateChange to_) s = .next t ∧ t.hub.sec = to_ ∧ t.jobs = [] ∧ t.releases = [] ∧
        (to_ = .vendorDebug → t.hub.token = none ∧ ∀ x, s.hub.token = some x → x.nonce ∈ t.hub.nonces) ∧
        (∀ o : Fin 256, (t.cores[o]).phase = .vacant ∧ (t.cores[o]).keep = none ∧ (t.cores[o]).stale = none ∧
          (t.cores[o]).kwords = [] ∧ (t.cores[o]).cont = Cont.zero 0) ∧
        (∀ o : Fin 4096, t.banks[o] = BankSt.zero) ∧ (∀ o : Fin 16, t.quads[o] = QuadSt.zero) ∧
        (∀ o : Fin 64, (t.stones[o]).jobs = []) ∧ (∀ o : Fin 16, (t.parts[o]).qmask = 0 ∧ (t.parts[o]).queued = false) ∧
        ((bits s.hub.qdbase 0 46 : BitVec 46).toNat + 2 ^ 22 ≤ Config.mainBytes → ∀ a,
          (Config.padBase ≤ a ∧ a < Config.padBase + Config.padBytes ∨
            Config.stoneBase ≤ a ∧ a < Config.stoneBase + Config.stoneBytes) → memGet t.mem a = 0) ∧
        (to_ = .vendorDebug ∨ s.hub.sec = .vendorDebug → ∀ a, a < Config.mainBytes → memGet t.mem a = 0))) ∧
    (s.hub.sec = .vendorDebug → (s.hub.pwr = 0 ∨ s.hub.pwr = 1) → (s.cores[c]).phase = .running →
      (s.cores[c]).cont.fused = none → (s.cores[c]).cont.asked = none →
      ∃ t im, exec (.halt c) s = .next t ∧ t.hub.dbg = 2 ∧ (t.cores[c]).phase = .halted ∧ (t.cores[c]).keep = some im ∧
        im.s = (s.cores[c]).cont.atStop.s ∧ im.tpc = (s.cores[c]).cont.pc) ∧
    (s.hub.pwr ≠ 4 → s.hub.sec ≠ .locked → ∃ t, exec .overtempP1 s = .next t ∧ t.hub.pwr = 1 ∧ t.hub.pend = none ∧ t.hub.chg = false) ∧
    (∃ t, exec .overtempShutdown s = .next t ∧ t.hub.pwr = 4 ∧ t.hub.chg = false ∧
      t.reports = s.reports ++ [.temperature] ∧ t.jobs = [] ∧ t.hub.sec = s.hub.sec ∧ t.parts = s.parts ∧
      (∀ o : Fin 256, (t.cores[o]).phase = .vacant))

/-! ### Rules of bundles, guards and landing -/

/-- R65: the two bundles of the rule trap WCONFLICT: a scalar and a vector compare that write one predicate, and a
vector add and a store that pop one queue. -/
def Obligations.ConflictBundles : Prop :=
  ∀ (s : State), canIssue s s.focus = true → gangHeld s.landed s.focus = false → s.now.asked = none →
    let always : Guard := Guard.always
    let traps (ops : List (Slot × Instr)) : Prop := ∃ t, t.cause = .wconflict ∧ issueOn s (.ok { ops }) = .next (s.trapped t)
    traps [(.s, .cmp always 3 (.main 1) (.main 2) .lt), (.v0, .vcmp always .a 3 (.main 1) (.main 2) .lt)] ∧
    traps [(.v0, .vadd always .a (.main 3) .qa (.main 4)), (.k, .st always (.main 8) (.data .qa) 0 0 .v)]

/-- R93: opcodes 0x10 to 0x16 are the seven instructions with a sign-extended 26-bit immediate; each computes a OP imm,
and its result is on its way with a latency of 1 cycle; an immediate of a shift outside 0 to 63 traps ILLOP with reason
8. -/
def Obligations.ImmediateForms : Prop :=
  ∀ (s : State) (g : Guard) (d a : Spec) (imm : BitVec 26),
    let x := s.now.scalar a
    let k : W64 := imm.signExtend 64
    let n := imm.toNat
    (∀ p ∈ ([
      (.addi g d a imm, 0x10, x + k), (.andi g d a imm, 0x11, x &&& k), (.ori g d a imm, 0x12, x ||| k),
      (.xori g d a imm, 0x13, x ^^^ k)] : List (Instr × Byte × W64)),
      (Goes s p.1 → exec p.1 s = .next (s.done p.1 (scalarResult d p.2.2 1))) ∧
      encode p.1 = some (.s, word g p.2.1 (d.code ++ a.code ++ imm))) ∧
    (∀ p ∈ ([(.shli g d a imm, 0x14, x <<< n), (.shri g d a imm, 0x15, x >>> n), (.sari g d a imm, 0x16, x.sshiftRight n)]
        : List (Instr × Byte × W64)),
      (n < 64 → Goes s p.1 → exec p.1 s = .next (s.done p.1 (scalarResult d p.2.2 1))) ∧
      encode p.1 = some (.s, word g p.2.1 (d.code ++ a.code ++ imm)) ∧
      (64 ≤ n → d.dstS = true → a.srcS = true → (∃ h, decodeGuard (word g p.2.1 (d.code ++ a.code ++ imm)) = .ok h) →
        ∃ e, decodeSlot .s (word g p.2.1 (d.code ++ a.code ++ imm)) = .error e ∧ e.reason = 8))

/-- R73: a bundle that issues in architectural cycle c leaves its STALL count and its bubble cycles owed; the core may not
issue while it owes a cycle; each cycle in which nothing issues is an architectural cycle, and after all that are owed
the core stands at cycle c + 1 + n and owes none. -/
def Obligations.StallCycles : Prop :=
  ∀ (s : State) (c : Fin 256) (k : Cont) (b : Bundle) (token : Nat) (outs : List ((Slot × Instr) × Out)) (more : List Result),
    let x := s.cores[c]
    let owed := b.stall + (transferOf k (outs.map Prod.snd)).2
    (k.issued b token outs more).owed = owed ∧ (k.issued b token outs more).acyc = k.acyc + 1 ∧
    (x.cont.owed ≠ 0 → canIssue s c = false) ∧
    (x.phase = .running → x.cont.fused = none → x.cont = k.issued b token outs more →
      let y := (s.idle c owed).cores[c]
      y.cont.acyc = k.acyc + 1 + owed ∧ y.cont.owed = 0 ∧ y.cont.pc = x.cont.pc ∧
        (x.cont.stopped = false → x.gated = false → x.preempt = false → canIssue (s.idle c owed) c = true))

/-- R75: the results due by a core's architectural cycle land, and no others. A register that none of them writes keeps
its value; one that they write holds what landed in it last: by cycle, and within a cycle from the later-issued bundle.
It is said of every register a result lands in: scalar registers, operand registers, branch targets and PADM; vector and
vector operand registers and predicates, where all lanes are written; descriptor halves where no result writes a field; and
the last-result registers, which a result marked so writes with its own. -/
def Obligations.Landing : Prop :=
  ∀ (k : Cont) (r : Fin 64) (n : Fin 16) (cl : Cluster) (o : Fin 8) (pr : Fin 48) (d : Fin 32) (hi : Bool),
    let due (p : Pend) : Prop := p.due ≤ k.acyc
    -- the results that write a register: its own, and for a last-result register those marked
    let writes (g : Reg) (p : Pend) : Prop := p.reg = g ∨ p.last = some g
    let desc (p : Pend) : Prop := (∃ h, p.reg = .t d h) ∨ ∃ f, p.reg = .field d f
    let kept (w : Pend → Prop) : Prop := ∀ p ∈ k.pend, w p → k.acyc < p.due
    let last (w : Pend → Prop) (xs ys : List Pend) (p : Pend) : Prop := k.pend = xs ++ p :: ys ∧ due p ∧ w p ∧
      (∀ q ∈ xs, w q → due q → q.due ≤ p.due) ∧ ∀ q ∈ ys, w q → due q → q.due < p.due
    let j := k.landDue
    (∀ p, p ∈ j.pend ↔ p ∈ k.pend ∧ k.acyc < p.due) ∧
    ((kept (writes (.s r)) → j.s[r] = k.s[r]) ∧ (kept (writes (.os o)) → j.os[o] = k.os[o]) ∧
      (kept (writes (.bt n)) → j.bt[n] = k.bt[n]) ∧ (kept (writes .padm) → j.padm = k.padm) ∧
      (kept (writes (.p pr)) → j.p[pr] = k.p[pr]) ∧ (kept (writes (.v cl r)) → (j.file cl).r[r] = (k.file cl).r[r]) ∧
      (kept (writes (.o cl o)) → (j.file cl).o[o] = (k.file cl).o[o]) ∧ (kept (writes .ls) → j.ls = k.ls) ∧
      (kept (writes (.la cl)) → (j.file cl).last = (k.file cl).last) ∧ (kept desc → j.t[d] = k.t[d])) ∧
    ∀ xs ys p,
      (last (writes (.s r)) xs ys p → j.s[r] = p.data.setWidth 64) ∧ (last (writes (.os o)) xs ys p → j.os[o] = p.data.setWidth 64) ∧
      (last (writes (.bt n)) xs ys p → j.bt[n] = p.data.setWidth 32) ∧
      (last (writes .padm) xs ys p → j.padm = p.data.setWidth 64 &&& 0x0000FFFFFFFF000F) ∧
      (last (writes .ls) xs ys p → j.ls = p.data.setWidth 64) ∧
      ((∀ q ∈ k.pend, ∀ f, q.reg ≠ .field d f) → last (writes (.t d hi)) xs ys p →
        bits j.t[d] (if hi then 128 else 0) 128 = bits p.data 0 128) ∧
      (p.lanes = BitVec.allOnes 64 →
        (last (writes (.p pr)) xs ys p → j.p[pr] = p.data.setWidth 64) ∧
        (last (writes (.v cl r)) xs ys p → (j.file cl).r[r] = p.data) ∧
        (last (writes (.o cl o)) xs ys p → (j.file cl).o[o] = p.data) ∧
        (last (writes (.la cl)) xs ys p → (j.file cl).last = p.data))

/-- R54: a slot executes if its path test passes and, outside V0 and V1, its predicate test does; a slot of V0 or V1
executes whatever its mask holds. A bundle none of whose slots executes has no effect but its own issue: nothing is
popped, written or accessed. -/
def Obligations.GuardOff : Prop :=
  (∀ (k : Cont) (leaf : Nat) (i : Instr) (x : Slot) (g : Guard), instrSlot i = some (x, g) →
    (executes k leaf (x, i) = true ↔ (∀ l, g.path = some l → l.val = leaf) ∧
      (x = .v0 ∨ x = .v1 ∨ ∀ p, g.pred = some p → (k.p[p]).getLsbD 0 = !g.neg))) ∧
  ∀ (s : State) (b : Bundle), canIssue s s.focus = true → gangHeld s.landed s.focus = false → s.now.asked = none →
    gangReady s.landed s.focus = true → b.kind = 0 → b.qp = false → decodeChecks s.now b.ops = none →
    stallTrap s.now (bundleLeaf s.now b.ops) b.ops = none → (∀ y ∈ b.ops, guardPoison s.now y = none) →
    (∀ y ∈ b.ops, executes s.now (bundleLeaf s.now b.ops) y = false) →
      ∃ t, issueOn s (.ok b) = .next t ∧ t.mem = s.mem ∧ t.banks = s.banks ∧ t.jobs = s.jobs ∧ t.releases = s.releases ∧
        t.hub = s.hub ∧ (t.cores[s.focus]).cont =
          { s.now with pc := s.now.pc + 1, acyc := s.now.acyc + 1, order := s.now.order + 1, owed := b.stall, remote := [] }

/-! ### Frames -/

/-- What an instruction of S, V0 or V1 other than `mtc` leaves unchanged, when it commits (R61, R76, R78): every register
(a result reaches one only by landing, and every result it leaves is for a register that it names as written, for its
slot's last-result register, for a field of the descriptor it names, or for the stream it writes), the control and
exception registers, the flags, every other core, every bank and all memory. -/
def Obligations.RegisterFrame : Prop :=
  ∀ (s t : State) (i : Instr), Goes s i → (slotOf i = .s ∨ slotOf i = .v0 ∨ slotOf i = .v1) → (∀ g n a, i ≠ .mtc g n a) →
    exec i s = .next t →
    (∃ tr, t = s.trapped tr) ∨
    ((∀ a, memGet t.mem a = memGet s.mem a) ∧ t.mem = s.mem ∧ t.empties = s.empties ∧ t.poisoned = s.poisoned ∧
      t.banks = s.banks ∧ t.quads = s.quads ∧ t.parts = s.parts ∧ t.dies = s.dies ∧ t.tiles = s.tiles ∧ t.jobs = s.jobs ∧
      t.releases = s.releases ∧ t.hub = s.hub ∧ (∀ c : Fin 256, c ≠ s.focus → t.cores[c] = s.cores[c]) ∧
      let x := t.cores[s.focus]
      let k := x.cont
      let u := instrUse i
      x.keep = (s.cores[s.focus]).keep ∧ x.phase = (s.cores[s.focus]).phase ∧ x.tent = (s.cores[s.focus]).tent ∧
      k.s = s.now.s ∧ k.os = s.now.os ∧ k.ls = s.now.ls ∧ k.va = s.now.va ∧ k.vb = s.now.vb ∧ k.p = s.now.p ∧
      k.bt = s.now.bt ∧ k.lc = s.now.lc ∧ k.t = s.now.t ∧ k.f = s.now.f ∧ k.cstat = s.now.cstat ∧ k.tvec = s.now.tvec ∧
      k.tpc = s.now.tpc ∧ k.tcause = s.now.tcause ∧ k.tinfo = s.now.tinfo ∧ k.tags = s.now.tags ∧ k.padm = s.now.padm ∧
      k.ts = s.now.ts ∧ k.vflaga = s.now.vflaga ∧ k.vflagb = s.now.vflagb ∧ k.err = s.now.err ∧ k.status = s.now.status ∧
      k.bmap = s.now.bmap ∧ k.pc = s.now.pc + 1 ∧
      ∃ new, k.pend = s.now.pend ++ new ∧ ∀ p ∈ new,
        p.reg ∈ u.writes ∨ p.reg = .ls ∨ (∃ cl, p.reg = .la cl) ∨ (∃ f, ∃ d ∈ u.descs, p.reg = .field d f) ∨
          ∃ z n, p.reg = .strm z n ∧ (z, true) ∈ u.streams)

/-- Where memory may change (R76, R141, R160): issuing an instruction of S, V0, V1, L, K, T or C other than `stx`, and of
Y other than `spawn`, `suspend` and `yield`, writes no byte of memory, whatever its form and whether it is held, traps or
commits; an `stx` that commits to memory writes the bytes from its address on and no others, unless it abstains from a reduction (R378); at its last
beat a store, `stf`, `ste` or `stm` writes the bytes of its share that no lane test left out, at the address that issue
resolved, and no others, and an `amo` the bytes of its word, unless they are poisoned, from the word as it stands, or as it stood
before an `stx` of its own bundle replaced it, whose bytes stay (R78). What is stored reads back under
InvariantStep's invariant, memory in its canonical form. -/
def Obligations.MemoryFrame : Prop :=
  ∀ (s t : State) (i : Instr),
    ((instrSlot i).isSome = true → s.now.asked = none → (∀ g e src off w, i ≠ .stx g e src off w) → (∀ g d q r, i ≠ .spawn g d q r) →
      (∀ g q bt, i ≠ .suspendQueue g q bt) → (∀ g q bt f n, i ≠ .suspendFlag g q bt f n) →
      (∀ g q bt, i ≠ .suspendWatch g q bt) → (∀ g, i ≠ .yield g) → exec i s = .next t →
      t.mem = s.mem ∧ ∀ a, memGet t.mem a = memGet s.mem a) ∧
    (∀ g e src off w, i = .stx g e src off w → Goes s i → s.now.remote = [] → e.val % 2 = 0 → (s.now.s[e + 1]).toNat < 2 ^ 16 →
      let a := (s.now.s[e] + off.signExtend 64).toNat
      let n := match w with | .b => 1 | .h => 2 | .w => 4 | .d => 8
      a % n = 0 → a < 2 ^ 48 → reach s.landed (some s.focus) a n true = .memory →
      abstainWords s (((List.range n).map (a + ·)).zip (leBytes n (s.now.scalar src).toNat)) = [] → exec i s = .next t →
        (s.Inv → ∀ j, j < n → memGet t.mem (a + j) = (s.now.scalar src >>> (8 * j)).setWidth 8) ∧
        ∀ x, (x < a ∨ a + n ≤ x) → memGet t.mem x = memGet s.mem x) ∧
    ∀ (b : Fin 4096) (y : Access) (v : VReg) (p : Part) (keep : Nat → Bool) (op : AmoOp) (val ex : W64),
      (s.banks[b]).q.find? (fun z => !z.parked && !(z.blocked s b)) = some y → y.beats ≤ 1 → exec (.ownerPortBeat b) s = .next t →
      ((y.op = .store (shareBytes v keep p) ∨ ∃ full, y.op = .storeFE full (shareBytes v keep p)) →
        (s.Inv → ∀ j, j < p.len → keep (p.pos + j) = true →
          memGet t.mem (bankPa b (p.off + j)) = bits v (8 * (p.pos + j)) 8) ∧
        ∀ x, (∀ j, j < p.len → keep (p.pos + j) = true → x ≠ bankPa b (p.off + j)) → memGet t.mem x = memGet s.mem x) ∧
      (y.op = .amo op val ex →
        let a := bankPa b y.off
        ((poisonIn s.poisoned a y.len).isSome = true → t.mem = s.mem) ∧
        let old := leNat (y.bytes s.mem b)
        let new (n : Nat) (x : BitVec n) : Prop := ∀ j, j < y.len → memGet t.mem (a + j) =
          if y.was.any (fun x => x.1 == y.off + j) then memGet s.mem (a + j) else (x >>> (8 * j)).setWidth 8
        ((poisonIn s.poisoned a y.len) = none → s.Inv →
          (y.len = 4 → new 32 (amoNew 32 op (BitVec.ofNat 32 old) val ex)) ∧
          (y.len = 8 → new 64 (amoNew 64 op (BitVec.ofNat 64 old) val ex))) ∧
        (y.was = [] → y.len = 4 → poisonIn s.poisoned a 4 = none → s.Inv →
          memNat t.mem a 4 = (amoNew 32 op (BitVec.ofNat 32 (memNat s.mem a 4)) val ex).toNat) ∧
        (y.was = [] → y.len = 8 → poisonIn s.poisoned a 8 = none → s.Inv →
          memNat t.mem a 8 = (amoNew 64 op (BitVec.ofNat 64 (memNat s.mem a 8)) val ex).toNat) ∧
        ((y.len = 4 ∨ y.len = 8) → ∀ x, (x < a ∨ a + y.len ≤ x) → memGet t.mem x = memGet s.mem x))

/-! ### Exceptions -/

/-- R339 steps 1 to 5 and R344, taking a trap: in place of the trapping bundle's issue the core freezes; what is due has landed, and every other result stays in the image; TPC, TCAUSE and TINFO are written and PPRIV receives PRIV, and the
live queues, streams and monitor are emptied. With TVEC = 0, or while a handler runs, no handler is reached: the
continuation is stopped, and the event is reported; in the second case the three registers keep their values. -/
def Obligations.TrapTaken : Prop :=
  ∀ (s : State) (tr : Trap), canIssue s s.focus = true →
    let k := s.now
    let t := s.trapped tr
    let live := (t.cores[s.focus]).cont
    let hnd := k.tcause.getLsbD 9
    (∀ i, Checked s i → slotEff i (s.env i) = .error tr → exec i s = .next t) ∧
    (t.mem = s.mem ∧ live.s = k.s ∧ live.va = k.va ∧ live.vb = k.vb ∧ live.p = k.p ∧ live.t = k.t ∧ live.f = k.f ∧
      live.tags = k.tags ∧ live.acyc = k.acyc ∧ live.pend = [] ∧ live.qs = [] ∧ live.qa = [] ∧ live.qb = [] ∧
      live.mon = none ∧ (∀ z : Fin 8, live.strm[z] = none) ∧
      ∃ img, (t.cores[s.focus]).keep = some img ∧ img.pend = k.pend ∧ img.s = k.s ∧ img.qs = k.qs ∧ img.owed = k.owed ∧
        img.acyc = k.acyc ∧ img.cstat = k.cstat) ∧
    (hnd = false → live.tpc = k.pc ∧ live.tinfo = tr.info ∧ (live.tcause.setWidth 5 : BitVec 5) = causeCode tr.cause ∧
      live.tcause.getLsbD 8 = k.cstat.getLsbD 2 ∧ live.tcause.getLsbD 9 = false) ∧
    (hnd = false → k.tvec ≠ 0 → (t.cores[s.focus]).phase = .trapSave 1 ∧ live.stopped = false ∧ t.reports = s.reports) ∧
    (hnd = true → live.tpc = k.tpc ∧ live.tcause = k.tcause ∧ live.tinfo = k.tinfo) ∧
    ((hnd = true ∨ k.tvec = 0) → (t.cores[s.focus]).phase = .trapSave 0 ∧ live.stopped = true ∧
      ∃ c, t.reports = s.reports ++ [.trap s.focus k.pc c tr.info])

/-- The traps of an access and of privilege (R70 step 4, R102, R137, R139, R156, R393): an access is checked in the order
ALIGN, PRIV, DETACHED, BUFSTATE, each with its window address, and a load or a store whose check fails takes that trap
and does nothing else; a privileged instruction in user mode traps PRIV with its opcode: `ldx`, `stx`, `tlbi`, `rft`, `brake`, and an `mtc` to TVEC,
TPC, TCAUSE, TINFO, TENT, RPLCNT or TMRCNT. -/
def Obligations.AccessTraps : Prop :=
  ∀ (s : State) (g : Guard) (base index : Spec) (scale : BitVec 2) (off : BitVec 12) (cls : BitVec 4) (width : Width)
    (dest : LoadTo) (x : KData) (tr : Trap),
    let ea : BitVec 24 :=
      (s.now.scalar base + s.now.scalar index * BitVec.ofNat 64 (2 ^ scale.toNat * widthBytes width) +
        off.signExtend 64).setWidth 24
    let sa : BitVec 24 := (s.now.scalar base + off.signExtend 64).setWidth 24
    (∀ i : Instr, i = .ld g base index scale off cls width dest → Checked s i →
      checkAccess (s.env i) ea (loadLen dest width) (loadAlign dest width) true false = .error tr →
        exec i s = .next (s.trapped tr)) ∧
    (∀ i : Instr, i = .st g base (.data x) off cls width → Checked s i →
      checkAccess (s.env i) sa (widthBytes width) (widthAlign width) false true = .error tr →
        exec i s = .next (s.trapped tr)) ∧
    (∀ (e : Env) (a : BitVec 24) (n : Nat) (rd wr : Bool), 1 ≤ n → a.toNat % 65536 + n ≤ 65536 →
      let w := winOf a
      let bank := bankOf e.c (e.k.entry w).bank
      let user := e.k.cstat.getLsbD 2 = false
      let shut : Prop := (rd = true ∧ ownerReads (e.s.banks[bank]).st = false) ∨ (wr = true ∧ ownerWrites (e.s.banks[bank]).st = false)
      let check := checkAccess e a n n rd wr
      (a.toNat % n ≠ 0 → check = .error ⟨.align, a.setWidth 64⟩) ∧
      (a.toNat % n = 0 → 252 ≤ w.toNat → user → check = .error ⟨.priv, a.setWidth 64 ||| 0x8000000000000000⟩) ∧
      (a.toNat % n = 0 → (w.toNat < 252 ∨ ¬ user) → (e.k.entry w).v = false → check = .error ⟨.detached, a.setWidth 64⟩) ∧
      (a.toNat % n = 0 → (w.toNat < 252 ∨ ¬ user) → (e.k.entry w).v = true → shut →
        check = .error ⟨.bufstate, a.setWidth 64⟩) ∧
      (a.toNat % n = 0 → (w.toNat < 252 ∨ ¬ user) → (e.k.entry w).v = true → ¬ shut →
        check = .ok [⟨bank, a.toNat % 65536, n, 0, a⟩])) ∧
    ∀ (e : Fin 64) (o24 : BitVec 24) (xw : XWidth) (src : Spec) (kind : TlbiKind) (part : BitVec 4) (tag : Fin 64)
      (bk : BrakeKind),
      ∀ p ∈ ([(.ldx g e o24 xw, 0x04), (.stx g e src o24 xw, 0x04), (.tlbi g src kind part tag, 0x1F), (.rft g, 0x32),
          (.brake g bk src, 0x34), (.brakeClear g bk src, 0x34), (.mtc g 1 src, 0x31), (.mtc g 2 src, 0x31),
          (.mtc g 3 src, 0x31), (.mtc g 4 src, 0x31), (.mtc g 8 src, 0x31), (.mtc g 9 src, 0x31), (.mtc g 10 src, 0x31)]
            : List (Instr × Byte)),
        g.path = none → canIssue s s.focus = true → gangHeld s.landed s.focus = false → s.now.asked = none → s.now.cstat.getLsbD 2 = false →
          ∃ t, exec p.1 s = .next (s.trapped t) ∧ t.cause = .priv ∧ t.info.toNat / 2 ^ 16 = p.2.toNat

/-! ### Arithmetic, reset, steps and encodings -/

/-- R34 to R37, rounding: an integer quotient is rounded to one of its two neighbours, to the exact value when there is
one, to the nearer in rne with ties to even, and by sign in the other modes; a number that binary32 represents rounds to
itself in every mode with no flag. -/
def Obligations.Rounding : Prop :=
  (∀ (rm : Rm) (neg : Bool) (m d : Nat),
    let n := (roundNat rm neg m d).1
    let e := 2 ^ d
    (roundNat rm neg m d).2 = decide (m % e ≠ 0) ∧ n * e < m + e ∧ m < n * e + e ∧ (m % e = 0 → n * e = m) ∧
      (rm = .rne → 2 * (n * e) ≤ 2 * m + e ∧ 2 * m ≤ 2 * (n * e) + e ∧
        ((2 * (n * e) = 2 * m + e ∨ 2 * m = 2 * (n * e) + e) → n % 2 = 0)) ∧
      (rm = .rtz → n * e ≤ m) ∧ (rm = .rup → if neg then n * e ≤ m else m ≤ n * e) ∧
      (rm = .rdn → if neg then m ≤ n * e else n * e ≤ m)) ∧
  ∀ (rm : Rm) (x : W32) (neg : Bool) (m : Nat) (e : Int), FFmt.f32.dec x = .fin neg m e → FFmt.f32.round rm neg m e = (x, 0)

/-- Reset (R192, R231, R300, R303, R331, R357, R360, R363, R370, R379, R388, R394): Locked, Off and D3 with a change in progress
and no power request; no core runs, its counters and margins at their reset values; every register of a core is zero and every
tag's status empty (zero where the manual gives no value: log entry 2, DESIGN CHOICE); memory lists nothing (log entry 1, DESIGN
CHOICE); the registers that have a reset value hold it; and the invariant holds. -/
def Obligations.ResetState : Prop :=
  let s := State.reset
  s.Inv ∧ s.mem = [] ∧ s.hub.sec = .locked ∧ s.hub.dbg = 0 ∧ s.hub.pwr = 4 ∧ s.hub.chg = true ∧ s.hub.pend = none ∧
  s.hub.rlim = 8 ∧ s.hub.thresh = 4096 ∧ s.hub.inval = 1048576 ∧ s.hub.node = 0 ∧ s.hub.qdbase = 0 ∧ s.hub.reddl = 0 ∧
  s.hub.ltest = 0x8400 ∧ (∀ x : Fin 8, s.hub.stktest[x] = 0x8600) ∧ s.jobs = [] ∧
  (∀ p : Fin 16, (s.parts[p]).rise = 64 ∧ (s.parts[p]).qmask = 0 ∧ (s.parts[p]).imgV = false ∧ (s.parts[p]).queued = false) ∧
  ∀ c : Fin 256, (s.cores[c]).phase = .vacant ∧ (s.cores[c]).keep = none ∧ canIssue s c = false ∧ (s.cores[c]).tmrcnt = 0 ∧
    (s.cores[c]).snapcnt = 0 ∧ (s.cores[c]).tent = 0xC2C ∧ (s.cores[c]).rplcnt = 8 ∧
    let k := (s.cores[c]).cont
    (∀ r : Fin 64, k.s[r] = 0 ∧ k.va.r[r] = 0 ∧ k.vb.r[r] = 0 ∧ k.status[r] = 0xFFFFFFFF000000000000000000000000) ∧
    (∀ r : Fin 8, k.os[r] = 0 ∧ k.va.o[r] = 0 ∧ k.vb.o[r] = 0) ∧ k.ls = 0 ∧ k.va.last = 0 ∧ k.vb.last = 0 ∧
    (∀ r : Fin 48, k.p[r] = 0) ∧ (∀ r : Fin 16, k.bt[r] = 0) ∧ (∀ r : Fin 2, k.lc[r] = 0) ∧
    (∀ r : Fin 32, k.t[r] = 0 ∧ k.f[r] = 0) ∧ (∀ r : Fin 4, k.err[r] = 0) ∧ k.cstat = 0 ∧ k.tvec = 0 ∧ k.tpc = 0 ∧
    k.tcause = 0 ∧ k.tinfo = 0 ∧ k.tags = 0 ∧ k.padm = 0 ∧ k.ts = 0 ∧ k.vflaga = 0 ∧ k.vflagb = 0 ∧
    k.qs = [] ∧ k.qa = [] ∧ k.qb = [] ∧ ∀ w : Fin 256, k.bmap[w] = ⟨0, false, false, 0⟩

/-- A step runs the decoded instruction (R47, R91): when a core has its turn, may issue, and its code address lies in the
image and translates, the 64 bytes there are its bundle, and the step is the execution of what they decode to, on the
state with that core in focus, the walk's updates made and the bundle's sectors counted the first time (log entry 87); a failed fetch
traps in place of it, and a core whose bundle has made an access goes on with that bundle instead (log entry 107). An event that the
environment has chosen is executed as it is, an error that strikes (R361) and a debug command (R389) have their effect, and with
nothing chosen the machine takes the turn that is next, and with none a cycle passes. The agenda, the turn that is next and the
passing cycle are the model's choice (log entry 4, DESIGN CHOICE). -/
def Obligations.StepRunsDecoded : Prop :=
  ∀ (s : State) (c : Fin 256) (rest : List Turn) (i : Instr) (pa : Nat) (w v : Bool) (size : Nat) (acts : List Act)
    (u : Upset) (m : Manage) (job ix lo hi : Nat) (a : Asked),
    let x := s.cores[c]
    let k := x.cont
    let s1 := s.popAgenda.withFocus c
    (s.agenda = .core c :: rest → canIssue s c = true → k.asked = none → 1 ≤ k.pc.toNat → k.pc.toNat ≤ (s.parts[k.part]).imgN →
      engineWalk s.popAgenda k.part ((s.parts[k.part]).imgBase.toNat * 4096 + 64 * k.pc.toNat) false = (.ok pa w v size, acts) →
      poisonIn x.codeBad pa 64 = none →
      decodeBundle (BitVec.ofNat 512 (memNat x.code pa 64)) = i →
      step s = exec i (applyActs s1 (acts ++ bufferActs (applyActs s.popAgenda acts) c pa))) ∧
    (s.agenda = .core c :: rest → canIssue s c = true → k.asked = some a → gangHeld s1.landed c = false →
      step s = .next (applyActs s1.landed (issueChecked s1.landed c a.bundle))) ∧
    (s.agenda = .core c :: rest → canIssue s c = true → k.asked = none → (k.pc = 0 ∨ (s.parts[k.part]).imgN < k.pc.toNat) →
      ∃ t, t.cause = .illbundle ∧ step s = .next (applyActs s1 (issueBundle s1 c (.error t)))) ∧
    (s.agenda = .core c :: rest → canIssue s c = false → step s = exec (.resultLanding c) s1) ∧
    (s.agenda = .event i :: rest → isEvent i = true → step s = exec i s.popAgenda) ∧
    (s.agenda = .upset u :: rest → step s = .next (applyActs s.popAgenda u.acts)) ∧
    (s.agenda = .manage m :: rest → step s = .next (applyActs s.popAgenda (manageActs s.popAgenda m))) ∧
    (s.agenda = .part job ix lo hi :: rest → step s = .next (applyActs s.popAgenda (movePart s.popAgenda job ix lo hi))) ∧
    (s.agenda = [] → step s = match nextTurn s with
      | some t => takeTurn s t
      | none => .next { s with clock := s.clock + 1 })

/-- Words written out from the encodings of the manual (R69, R122, R144, R148, R253, R254, R324, R348) decode to the
instructions they stand for. -/
def Obligations.DecodedWords : Prop :=
  let g := Guard.always
  decodeSlot .s 0xFC0040C04080000 = .ok (.add g (.main 3) (.main 1) (.main 2)) ∧
  decodeSlot .v0 0xFC0800407040000 = .ok (.fadd g .a (.main 1) (.main 1) (.const 1) .rne) ∧
  decodeSlot .l 0xFC0042E80000088 = .ok (.ld g (.main 11) .zero 0 0 0 .v .qa) ∧
  decodeSlot .k 0xFC0041104000200 = .ok (.st g (.main 4) (.data (.v 1)) 0 0 .v) ∧
  decodeSlot .y 0xFC04C2400000000 = .ok (.waitall g (.main 9)) ∧
  decodeSlot .y 0xFC0501C24000000 = .ok (.ffr g (.main 7) (.main 9)) ∧
  decodeSlot .y 0xFC0447FFFE00020 = .ok (.waitf g 3 0xFFFF 1) ∧
  decodeSlot .y 0xFC0C40108000000 = .ok (.trap g 0x42) ∧
  decodeSlot .y 0xFC0880000000000 = .ok (.yield g)

/-- Decoding and encoding agree: the slot word that the encoder gives a well-formed instruction decodes, in its slot, to
that instruction, with every operand at every value that its encoding admits (R51 to R69 and the layout of every
entry). -/
def Obligations.DecodeEncode : Prop :=
  ∀ (i : Instr) (x : Slot) (w : SlotWord), i.wf = true → encode i = some (x, w) → decodeSlot x w = .ok i

/-- Every step keeps the invariant: memory stays in its canonical form, addresses rising and no byte listed that reads as
an unlisted one, and the sets of empty words (R150) and poisoned sectors (R361) stay strictly rising lists. -/
def Obligations.InvariantStep : Prop := ∀ (s t : State), s.Inv → step s = .next t → t.Inv
end

