-- ==== Sys2Proof/Laws/Issue.lean ====
section
/-! SUPPORT. What issuing one instruction does: it commits, traps or is held. -/

namespace Sys2Proof.Machine

/-- Acting on a concatenation is acting on one list after the other. -/
theorem applyActs_append (s : State) (xs ys : List Act) :
    applyActs s (xs ++ ys) = applyActs (applyActs s xs) ys := by
  simp [applyActs, List.foldl_append]

@[simp] theorem applyActs_nil (s : State) : applyActs s [] = s := rfl

@[simp] theorem applyActs_cons (s : State) (a : Act) (xs : List Act) :
    applyActs s (a :: xs) = applyActs (a.apply s) xs := rfl

/-- The bundle of one instruction holds it in its slot. -/
theorem single_ops {i : Instr} (h : (instrSlot i).isSome = true) : (Bundle.single i).ops = opsOf i := by
  unfold Bundle.single opsOf slotOf
  cases hi : instrSlot i with
  | none => simp [hi] at h
  | some x => rfl

/-- An instruction that is presented is checked no further by decode. -/
theorem issueOne_presented {s : State} {i : Instr} (h : Presented s i) :
    issueOne s i = .next (applyActs s.landed (issueChecked s.landed s.focus (Bundle.single i))) := by
  have hd : decodeChecks ((Act.cont s.focus Cont.landDue).apply s).cores[s.focus].cont (Bundle.single i).ops = none := by
    rw [single_ops h.slot]; exact h.decoded
  have hg : gangHeld ((Act.cont s.focus Cont.landDue).apply s) s.focus = false := h.alone
  have ha : ((Act.cont s.focus Cont.landDue).apply s).cores[s.focus].cont.asked = none := h.unasked
  simp only [issueOne, issueOn, h.issues, if_true, perform, issueBundle, applyActs_append, applyActs_cons, applyActs_nil, hd,
    hg, ha, Bool.false_eq_true, if_false]
  rfl

/-- What an instruction does once nothing holds it and it passes check mode. -/
theorem issueChecked_free {s : State} {c : Fin 256} {b : Bundle} {ops : List (Slot × Instr)} (hb : b.ops = ops)
    (ha : s.cores[c].cont.asked = none)
    (hx : ops.filter (executes s.cores[c].cont (bundleLeaf s.cores[c].cont ops)) = ops)
    (hh : bundleHolds s c b.kind ops = [])
    (ht : stallTrap s.cores[c].cont (bundleLeaf s.cores[c].cont ops) ops = none) :
    issueChecked s c b =
      match runSlots s c b.triple ops ops with
      | .error t => trapActs s c t
      | .ok outs =>
        match outs.findSome? fun x => x.2.after with
        | some t => trapActs s c t
        | none =>
          match (runStages (envOf s c ops) s c (earlyActs c outs) ops).verdict ops outs with
          | .held h => heldActs s c h
          | .trap t => trapActs s c t
          | .refused t acts => acts ++ trapActs (applyActs s acts) c t
          | .wait acts asked => heldActs s c { acts := if asked then askAct s c b :: acts else acts }
          | .commit run outs more acts => if gangReady s c then commitActs s c b run outs more acts else heldActs s c {} := by
  unfold issueChecked verdict checkedVerdict
  simp only [hb, ha, hx, hh, ht, List.find?_nil]
  cases runSlots s c b.triple ops ops with
  | error t => rfl
  | ok outs =>
    simp only
    cases outs.findSome? fun x => x.2.after with
    | some t => rfl
    | none => rfl

theorem Checked.exec_ops {s : State} {i : Instr} (h : Checked s i) :
    (opsOf i).filter (executes s.now (bundleLeaf s.now (opsOf i))) = opsOf i := by
  simp [opsOf]; exact h.runs

/-- The rows of R393 for the one instruction of a bundle. -/
theorem Checked.check {s : State} {i : Instr} (h : Checked s i) :
    checkSlot (s.env i) 0 i =
      match slotEff i (s.env i) with
      | .error t => .error t
      | .ok o => match o.late with | some t => .error t | none => .ok o := by
  have h1 : (slotReads (s.env i).k i).find? (s.env i).k.rpoison.contains = none := h.clean
  have h2 : (streamUses (s.env i) i).findSome? (streamUseTrap (s.env i).k (s.env i).slot (streamWidth i)) = none := h.streams
  have h3 : popPoison (s.env i).k (s.env i).slot (instrUse i) = none := h.sound
  have h4 : ∀ x y, voteLost x 0 y = false := fun x y => by simp [voteLost, tripled, bitAt]
  simp only [checkSlot, h1, h2, h3, h4, Bool.false_eq_true, if_false]
  all_goals rfl

/-- An instruction that passes its checks runs. -/
theorem Checked.run {s : State} {i : Instr} {o : Out} (h : Checked s i) (he : slotEff i (s.env i) = .ok o)
    (hl : o.late = none) : checkSlot (s.env i) 0 i = .ok o := by
  rw [h.check, he]
  simp only [hl]

/-- The outcome of an instruction that passes every check but its own. -/
theorem issueOne_checked {s : State} {i : Instr} (h : Checked s i) :
    issueOne s i = .next (applyActs s.landed (
      match checkSlot (s.env i) 0 i with
      | .error t => trapActs s.landed s.focus t
      | .ok o =>
        match o.after with
        | some t => trapActs s.landed s.focus t
        | none =>
          match (runStages (envOf s.landed s.focus (opsOf i)) s.landed s.focus (earlyActs s.focus [((slotOf i, i), o)]) (opsOf i)).verdict
              (opsOf i) [((slotOf i, i), o)] with
          | .held h => heldActs s.landed s.focus h
          | .trap t => trapActs s.landed s.focus t
          | .refused t acts => acts ++ trapActs (applyActs s.landed acts) s.focus t
          | .wait acts asked =>
            heldActs s.landed s.focus { acts := if asked then askAct s.landed s.focus (Bundle.single i) :: acts else acts }
          | .commit run outs more acts =>
            if gangReady s.landed s.focus then commitActs s.landed s.focus (Bundle.single i) run outs more acts
            else heldActs s.landed s.focus {})) := by
  rw [issueOne_presented h.toPresented]
  have hc := issueChecked_free (s := s.landed) (c := s.focus) (b := Bundle.single i) (single_ops h.slot) h.unasked
    h.exec_ops h.free h.settled
  rw [hc]
  have hr : runSlots s.landed s.focus (Bundle.single i).triple (opsOf i) (opsOf i) =
      match checkSlot (s.env i) 0 i with
      | .error t => .error t
      | .ok o => .ok [((slotOf i, i), o)] := by
    show runSlots s.landed s.focus 0 (opsOf i) [(slotOf i, i)] = _
    have hx : (opsOf i).any (fun y => y.1 == slotOf i) = true := by simp [opsOf]
    have hg : guardPoison (s.landed.cores[s.focus]).cont (slotOf i, i) = none := h.guard
    unfold runSlots
    simp only [hg, hx, Bool.not_true, Bool.false_eq_true, if_false]
    show (match checkSlot (s.env i) 0 i with | .error t => _ | .ok o => _) = _
    cases checkSlot (s.env i) 0 i <;> rfl
  rw [hr]
  cases checkSlot (s.env i) 0 i with
  | error t => rfl
  | ok o => cases ha : o.after <;> simp [ha]

/-- An instruction without a last stage commits with its effect. -/
theorem issueOne_commits {s : State} {i : Instr} {o : Out} (h : Goes s i) (he : slotEff i (s.env i) = .ok o)
    (hl : o.late = none) (ha : o.after = none) (hs : slotStage i = none) :
    issueOne s i = .next (s.done i o) := by
  rw [issueOne_checked h.toChecked, h.toChecked.run he hl]
  have : ∀ e, runStages (envOf s.landed s.focus (opsOf i)) s.landed s.focus e (opsOf i) = .go [] [] := fun e => by
    simp [opsOf, runStages, hs]
  simp only [ha, this, Stage.verdict, h.gang, if_true]
  rfl

/-- An instruction whose last stage lets it go on commits with what that stage adds. -/
theorem issueOne_commits_stage {s : State} {i : Instr} {o : Out} {f : Env → Stage} {more : List Result}
    {acts : List Act} (h : Goes s i) (he : slotEff i (s.env i) = .ok o)
    (hl : o.late = none) (ha : o.after = none) (hs : slotStage i = some f) (hf : f (s.env i) = .go more acts) :
    issueOne s i = .next (s.done i o more acts) := by
  rw [issueOne_checked h.toChecked, h.toChecked.run he hl]
  have : ∀ e, runStages (envOf s.landed s.focus (opsOf i)) s.landed s.focus e (opsOf i) = .go more acts := fun e => by
    show runStages (envOf s.landed s.focus (opsOf i)) s.landed s.focus e [(slotOf i, i)] = _
    have hf' : f { envOf s.landed s.focus (opsOf i) (slotOf i, i) with s := s.landed } = _ := hf
    simp only [runStages, hs, hf', List.append_nil]
  simp only [ha, this, Stage.verdict, h.gang, if_true]
  rfl

/-- An instruction whose last stage makes its access at once commits with it. -/
theorem issueOne_commits_made {s : State} {i : Instr} {o : Out} {f : Env → Stage} {now acts : List Act} {v : W64}
    (h : Goes s i) (he : slotEff i (s.env i) = .ok o) (hl : o.late = none) (ha : o.after = none)
    (hs : slotStage i = some f) (hf : f (s.env i) = .made now acts v) :
    issueOne s i = .next (s.done i o [] (now ++ acts)) := by
  rw [issueOne_checked h.toChecked, h.toChecked.run he hl]
  have : ∀ e, runStages (envOf s.landed s.focus (opsOf i)) s.landed s.focus e (opsOf i) = .go [] (now ++ acts) := fun e => by
    show runStages (envOf s.landed s.focus (opsOf i)) s.landed s.focus e [(slotOf i, i)] = _
    have hf' : f { envOf s.landed s.focus (opsOf i) (slotOf i, i) with s := s.landed } = _ := hf
    simp only [runStages, hs, hf', List.append_nil]
  simp only [ha, this, Stage.verdict, h.gang, if_true]
  rfl

/-- An instruction whose own checks trap takes the trap. -/
theorem issueOne_traps {s : State} {i : Instr} {t : Trap} (h : Checked s i)
    (he : slotEff i (s.env i) = .error t) : issueOne s i = .next (s.trapped t) := by
  rw [issueOne_checked h, h.check, he]
  rfl

/-- An instruction whose effect is to trap takes the trap. -/
theorem issueOne_late {s : State} {i : Instr} {o : Out} {t : Trap} (h : Checked s i)
    (he : slotEff i (s.env i) = .ok o) (hl : o.late = some t) : issueOne s i = .next (s.trapped t) := by
  rw [issueOne_checked h, h.check, he]
  simp only [hl]
  rfl

/-- A core whose bundle has made an access goes on with that bundle, whatever is presented (R160, R316). -/
theorem issueOne_asked {s : State} {i : Instr} {a : Asked} (hc : canIssue s s.focus = true)
    (hg : gangHeld s.landed s.focus = false) (ha : s.now.asked = some a) :
    issueOne s i = .next (applyActs s.landed (issueChecked s.landed s.focus a.bundle)) := by
  have hg : gangHeld ((Act.cont s.focus Cont.landDue).apply s) s.focus = false := hg
  have ha : ((Act.cont s.focus Cont.landDue).apply s).cores[s.focus].cont.asked = some a := ha
  simp only [issueOne, issueOn, hc, if_true, perform, issueBundle, applyActs_append, applyActs_cons, applyActs_nil,
    hg, ha, Bool.false_eq_true, if_false]
  rfl

end Sys2Proof.Machine
end

