-- ==== Sys2Proof/Laws/State.lean ====
section
/-! SUPPORT. What each primitive update does to each field of the state. -/

namespace Sys2Proof.Machine

/-! ### `core` -/

@[simp] theorem apply_core_mem (c : Fin 256) (f : CoreSt → CoreSt) (s : State) : (Act.apply (.core c f) s).mem = s.mem := rfl
@[simp] theorem apply_core_empties (c : Fin 256) (f : CoreSt → CoreSt) (s : State) : (Act.apply (.core c f) s).empties = s.empties := rfl
@[simp] theorem apply_core_poisoned (c : Fin 256) (f : CoreSt → CoreSt) (s : State) : (Act.apply (.core c f) s).poisoned = s.poisoned := rfl
@[simp] theorem apply_core_cores (c : Fin 256) (f : CoreSt → CoreSt) (s : State) : (Act.apply (.core c f) s).cores = vset s.cores c (f s.cores[c]) := rfl
@[simp] theorem apply_core_banks (c : Fin 256) (f : CoreSt → CoreSt) (s : State) : (Act.apply (.core c f) s).banks = s.banks := rfl
@[simp] theorem apply_core_quads (c : Fin 256) (f : CoreSt → CoreSt) (s : State) : (Act.apply (.core c f) s).quads = s.quads := rfl
@[simp] theorem apply_core_parts (c : Fin 256) (f : CoreSt → CoreSt) (s : State) : (Act.apply (.core c f) s).parts = s.parts := rfl
@[simp] theorem apply_core_dies (c : Fin 256) (f : CoreSt → CoreSt) (s : State) : (Act.apply (.core c f) s).dies = s.dies := rfl
@[simp] theorem apply_core_tiles (c : Fin 256) (f : CoreSt → CoreSt) (s : State) : (Act.apply (.core c f) s).tiles = s.tiles := rfl
@[simp] theorem apply_core_barriers (c : Fin 256) (f : CoreSt → CoreSt) (s : State) : (Act.apply (.core c f) s).barriers = s.barriers := rfl
@[simp] theorem apply_core_releases (c : Fin 256) (f : CoreSt → CoreSt) (s : State) : (Act.apply (.core c f) s).releases = s.releases := rfl
@[simp] theorem apply_core_spawned (c : Fin 256) (f : CoreSt → CoreSt) (s : State) : (Act.apply (.core c f) s).spawned = s.spawned := rfl
@[simp] theorem apply_core_reports (c : Fin 256) (f : CoreSt → CoreSt) (s : State) : (Act.apply (.core c f) s).reports = s.reports := rfl
@[simp] theorem apply_core_nextId (c : Fin 256) (f : CoreSt → CoreSt) (s : State) : (Act.apply (.core c f) s).nextId = s.nextId := rfl
@[simp] theorem apply_core_free (c : Fin 256) (f : CoreSt → CoreSt) (s : State) : (Act.apply (.core c f) s).free = s.free := rfl
@[simp] theorem apply_core_clock (c : Fin 256) (f : CoreSt → CoreSt) (s : State) : (Act.apply (.core c f) s).clock = s.clock := rfl
@[simp] theorem apply_core_focus (c : Fin 256) (f : CoreSt → CoreSt) (s : State) : (Act.apply (.core c f) s).focus = s.focus := rfl
@[simp] theorem apply_core_homes (c : Fin 256) (f : CoreSt → CoreSt) (s : State) : (Act.apply (.core c f) s).homes = s.homes := rfl
@[simp] theorem apply_core_memStacks (c : Fin 256) (f : CoreSt → CoreSt) (s : State) : (Act.apply (.core c f) s).memStacks = s.memStacks := rfl
@[simp] theorem apply_core_stones (c : Fin 256) (f : CoreSt → CoreSt) (s : State) : (Act.apply (.core c f) s).stones = s.stones := rfl
@[simp] theorem apply_core_jobs (c : Fin 256) (f : CoreSt → CoreSt) (s : State) : (Act.apply (.core c f) s).jobs = s.jobs := rfl
@[simp] theorem apply_core_faults (c : Fin 256) (f : CoreSt → CoreSt) (s : State) : (Act.apply (.core c f) s).faults = s.faults := rfl
@[simp] theorem apply_core_invals (c : Fin 256) (f : CoreSt → CoreSt) (s : State) : (Act.apply (.core c f) s).invals = s.invals := rfl
@[simp] theorem apply_core_hub (c : Fin 256) (f : CoreSt → CoreSt) (s : State) : (Act.apply (.core c f) s).hub = s.hub := rfl
@[simp] theorem apply_core_agenda (c : Fin 256) (f : CoreSt → CoreSt) (s : State) : (Act.apply (.core c f) s).agenda = s.agenda := rfl

/-! ### `bank` -/

@[simp] theorem apply_bank_mem (b : Fin 4096) (f : BankSt → BankSt) (s : State) : (Act.apply (.bank b f) s).mem = s.mem := rfl
@[simp] theorem apply_bank_empties (b : Fin 4096) (f : BankSt → BankSt) (s : State) : (Act.apply (.bank b f) s).empties = s.empties := rfl
@[simp] theorem apply_bank_poisoned (b : Fin 4096) (f : BankSt → BankSt) (s : State) : (Act.apply (.bank b f) s).poisoned = s.poisoned := rfl
@[simp] theorem apply_bank_cores (b : Fin 4096) (f : BankSt → BankSt) (s : State) : (Act.apply (.bank b f) s).cores = s.cores := rfl
@[simp] theorem apply_bank_banks (b : Fin 4096) (f : BankSt → BankSt) (s : State) : (Act.apply (.bank b f) s).banks = vset s.banks b (f s.banks[b]) := rfl
@[simp] theorem apply_bank_quads (b : Fin 4096) (f : BankSt → BankSt) (s : State) : (Act.apply (.bank b f) s).quads = s.quads := rfl
@[simp] theorem apply_bank_parts (b : Fin 4096) (f : BankSt → BankSt) (s : State) : (Act.apply (.bank b f) s).parts = s.parts := rfl
@[simp] theorem apply_bank_dies (b : Fin 4096) (f : BankSt → BankSt) (s : State) : (Act.apply (.bank b f) s).dies = s.dies := rfl
@[simp] theorem apply_bank_tiles (b : Fin 4096) (f : BankSt → BankSt) (s : State) : (Act.apply (.bank b f) s).tiles = s.tiles := rfl
@[simp] theorem apply_bank_barriers (b : Fin 4096) (f : BankSt → BankSt) (s : State) : (Act.apply (.bank b f) s).barriers = s.barriers := rfl
@[simp] theorem apply_bank_releases (b : Fin 4096) (f : BankSt → BankSt) (s : State) : (Act.apply (.bank b f) s).releases = s.releases := rfl
@[simp] theorem apply_bank_spawned (b : Fin 4096) (f : BankSt → BankSt) (s : State) : (Act.apply (.bank b f) s).spawned = s.spawned := rfl
@[simp] theorem apply_bank_reports (b : Fin 4096) (f : BankSt → BankSt) (s : State) : (Act.apply (.bank b f) s).reports = s.reports := rfl
@[simp] theorem apply_bank_nextId (b : Fin 4096) (f : BankSt → BankSt) (s : State) : (Act.apply (.bank b f) s).nextId = s.nextId := rfl
@[simp] theorem apply_bank_free (b : Fin 4096) (f : BankSt → BankSt) (s : State) : (Act.apply (.bank b f) s).free = s.free := rfl
@[simp] theorem apply_bank_clock (b : Fin 4096) (f : BankSt → BankSt) (s : State) : (Act.apply (.bank b f) s).clock = s.clock := rfl
@[simp] theorem apply_bank_focus (b : Fin 4096) (f : BankSt → BankSt) (s : State) : (Act.apply (.bank b f) s).focus = s.focus := rfl
@[simp] theorem apply_bank_homes (b : Fin 4096) (f : BankSt → BankSt) (s : State) : (Act.apply (.bank b f) s).homes = s.homes := rfl
@[simp] theorem apply_bank_memStacks (b : Fin 4096) (f : BankSt → BankSt) (s : State) : (Act.apply (.bank b f) s).memStacks = s.memStacks := rfl
@[simp] theorem apply_bank_stones (b : Fin 4096) (f : BankSt → BankSt) (s : State) : (Act.apply (.bank b f) s).stones = s.stones := rfl
@[simp] theorem apply_bank_jobs (b : Fin 4096) (f : BankSt → BankSt) (s : State) : (Act.apply (.bank b f) s).jobs = s.jobs := rfl
@[simp] theorem apply_bank_faults (b : Fin 4096) (f : BankSt → BankSt) (s : State) : (Act.apply (.bank b f) s).faults = s.faults := rfl
@[simp] theorem apply_bank_invals (b : Fin 4096) (f : BankSt → BankSt) (s : State) : (Act.apply (.bank b f) s).invals = s.invals := rfl
@[simp] theorem apply_bank_hub (b : Fin 4096) (f : BankSt → BankSt) (s : State) : (Act.apply (.bank b f) s).hub = s.hub := rfl
@[simp] theorem apply_bank_agenda (b : Fin 4096) (f : BankSt → BankSt) (s : State) : (Act.apply (.bank b f) s).agenda = s.agenda := rfl

/-! ### `quad` -/

@[simp] theorem apply_quad_mem (q : Fin 16) (f : QuadSt → QuadSt) (s : State) : (Act.apply (.quad q f) s).mem = s.mem := rfl
@[simp] theorem apply_quad_empties (q : Fin 16) (f : QuadSt → QuadSt) (s : State) : (Act.apply (.quad q f) s).empties = s.empties := rfl
@[simp] theorem apply_quad_poisoned (q : Fin 16) (f : QuadSt → QuadSt) (s : State) : (Act.apply (.quad q f) s).poisoned = s.poisoned := rfl
@[simp] theorem apply_quad_cores (q : Fin 16) (f : QuadSt → QuadSt) (s : State) : (Act.apply (.quad q f) s).cores = s.cores := rfl
@[simp] theorem apply_quad_banks (q : Fin 16) (f : QuadSt → QuadSt) (s : State) : (Act.apply (.quad q f) s).banks = s.banks := rfl
@[simp] theorem apply_quad_quads (q : Fin 16) (f : QuadSt → QuadSt) (s : State) : (Act.apply (.quad q f) s).quads = vset s.quads q (f s.quads[q]) := rfl
@[simp] theorem apply_quad_parts (q : Fin 16) (f : QuadSt → QuadSt) (s : State) : (Act.apply (.quad q f) s).parts = s.parts := rfl
@[simp] theorem apply_quad_dies (q : Fin 16) (f : QuadSt → QuadSt) (s : State) : (Act.apply (.quad q f) s).dies = s.dies := rfl
@[simp] theorem apply_quad_tiles (q : Fin 16) (f : QuadSt → QuadSt) (s : State) : (Act.apply (.quad q f) s).tiles = s.tiles := rfl
@[simp] theorem apply_quad_barriers (q : Fin 16) (f : QuadSt → QuadSt) (s : State) : (Act.apply (.quad q f) s).barriers = s.barriers := rfl
@[simp] theorem apply_quad_releases (q : Fin 16) (f : QuadSt → QuadSt) (s : State) : (Act.apply (.quad q f) s).releases = s.releases := rfl
@[simp] theorem apply_quad_spawned (q : Fin 16) (f : QuadSt → QuadSt) (s : State) : (Act.apply (.quad q f) s).spawned = s.spawned := rfl
@[simp] theorem apply_quad_reports (q : Fin 16) (f : QuadSt → QuadSt) (s : State) : (Act.apply (.quad q f) s).reports = s.reports := rfl
@[simp] theorem apply_quad_nextId (q : Fin 16) (f : QuadSt → QuadSt) (s : State) : (Act.apply (.quad q f) s).nextId = s.nextId := rfl
@[simp] theorem apply_quad_free (q : Fin 16) (f : QuadSt → QuadSt) (s : State) : (Act.apply (.quad q f) s).free = s.free := rfl
@[simp] theorem apply_quad_clock (q : Fin 16) (f : QuadSt → QuadSt) (s : State) : (Act.apply (.quad q f) s).clock = s.clock := rfl
@[simp] theorem apply_quad_focus (q : Fin 16) (f : QuadSt → QuadSt) (s : State) : (Act.apply (.quad q f) s).focus = s.focus := rfl
@[simp] theorem apply_quad_homes (q : Fin 16) (f : QuadSt → QuadSt) (s : State) : (Act.apply (.quad q f) s).homes = s.homes := rfl
@[simp] theorem apply_quad_memStacks (q : Fin 16) (f : QuadSt → QuadSt) (s : State) : (Act.apply (.quad q f) s).memStacks = s.memStacks := rfl
@[simp] theorem apply_quad_stones (q : Fin 16) (f : QuadSt → QuadSt) (s : State) : (Act.apply (.quad q f) s).stones = s.stones := rfl
@[simp] theorem apply_quad_jobs (q : Fin 16) (f : QuadSt → QuadSt) (s : State) : (Act.apply (.quad q f) s).jobs = s.jobs := rfl
@[simp] theorem apply_quad_faults (q : Fin 16) (f : QuadSt → QuadSt) (s : State) : (Act.apply (.quad q f) s).faults = s.faults := rfl
@[simp] theorem apply_quad_invals (q : Fin 16) (f : QuadSt → QuadSt) (s : State) : (Act.apply (.quad q f) s).invals = s.invals := rfl
@[simp] theorem apply_quad_hub (q : Fin 16) (f : QuadSt → QuadSt) (s : State) : (Act.apply (.quad q f) s).hub = s.hub := rfl
@[simp] theorem apply_quad_agenda (q : Fin 16) (f : QuadSt → QuadSt) (s : State) : (Act.apply (.quad q f) s).agenda = s.agenda := rfl

/-! ### `part` -/

@[simp] theorem apply_part_mem (p : Fin 16) (f : PartSt → PartSt) (s : State) : (Act.apply (.part p f) s).mem = s.mem := rfl
@[simp] theorem apply_part_empties (p : Fin 16) (f : PartSt → PartSt) (s : State) : (Act.apply (.part p f) s).empties = s.empties := rfl
@[simp] theorem apply_part_poisoned (p : Fin 16) (f : PartSt → PartSt) (s : State) : (Act.apply (.part p f) s).poisoned = s.poisoned := rfl
@[simp] theorem apply_part_cores (p : Fin 16) (f : PartSt → PartSt) (s : State) : (Act.apply (.part p f) s).cores = s.cores := rfl
@[simp] theorem apply_part_banks (p : Fin 16) (f : PartSt → PartSt) (s : State) : (Act.apply (.part p f) s).banks = s.banks := rfl
@[simp] theorem apply_part_quads (p : Fin 16) (f : PartSt → PartSt) (s : State) : (Act.apply (.part p f) s).quads = s.quads := rfl
@[simp] theorem apply_part_parts (p : Fin 16) (f : PartSt → PartSt) (s : State) : (Act.apply (.part p f) s).parts = vset s.parts p (f s.parts[p]) := rfl
@[simp] theorem apply_part_dies (p : Fin 16) (f : PartSt → PartSt) (s : State) : (Act.apply (.part p f) s).dies = s.dies := rfl
@[simp] theorem apply_part_tiles (p : Fin 16) (f : PartSt → PartSt) (s : State) : (Act.apply (.part p f) s).tiles = s.tiles := rfl
@[simp] theorem apply_part_barriers (p : Fin 16) (f : PartSt → PartSt) (s : State) : (Act.apply (.part p f) s).barriers = s.barriers := rfl
@[simp] theorem apply_part_releases (p : Fin 16) (f : PartSt → PartSt) (s : State) : (Act.apply (.part p f) s).releases = s.releases := rfl
@[simp] theorem apply_part_spawned (p : Fin 16) (f : PartSt → PartSt) (s : State) : (Act.apply (.part p f) s).spawned = s.spawned := rfl
@[simp] theorem apply_part_reports (p : Fin 16) (f : PartSt → PartSt) (s : State) : (Act.apply (.part p f) s).reports = s.reports := rfl
@[simp] theorem apply_part_nextId (p : Fin 16) (f : PartSt → PartSt) (s : State) : (Act.apply (.part p f) s).nextId = s.nextId := rfl
@[simp] theorem apply_part_free (p : Fin 16) (f : PartSt → PartSt) (s : State) : (Act.apply (.part p f) s).free = s.free := rfl
@[simp] theorem apply_part_clock (p : Fin 16) (f : PartSt → PartSt) (s : State) : (Act.apply (.part p f) s).clock = s.clock := rfl
@[simp] theorem apply_part_focus (p : Fin 16) (f : PartSt → PartSt) (s : State) : (Act.apply (.part p f) s).focus = s.focus := rfl
@[simp] theorem apply_part_homes (p : Fin 16) (f : PartSt → PartSt) (s : State) : (Act.apply (.part p f) s).homes = s.homes := rfl
@[simp] theorem apply_part_memStacks (p : Fin 16) (f : PartSt → PartSt) (s : State) : (Act.apply (.part p f) s).memStacks = s.memStacks := rfl
@[simp] theorem apply_part_stones (p : Fin 16) (f : PartSt → PartSt) (s : State) : (Act.apply (.part p f) s).stones = s.stones := rfl
@[simp] theorem apply_part_jobs (p : Fin 16) (f : PartSt → PartSt) (s : State) : (Act.apply (.part p f) s).jobs = s.jobs := rfl
@[simp] theorem apply_part_faults (p : Fin 16) (f : PartSt → PartSt) (s : State) : (Act.apply (.part p f) s).faults = s.faults := rfl
@[simp] theorem apply_part_invals (p : Fin 16) (f : PartSt → PartSt) (s : State) : (Act.apply (.part p f) s).invals = s.invals := rfl
@[simp] theorem apply_part_hub (p : Fin 16) (f : PartSt → PartSt) (s : State) : (Act.apply (.part p f) s).hub = s.hub := rfl
@[simp] theorem apply_part_agenda (p : Fin 16) (f : PartSt → PartSt) (s : State) : (Act.apply (.part p f) s).agenda = s.agenda := rfl

/-! ### `die` -/

@[simp] theorem apply_die_mem (d : Fin 4) (f : DieSt → DieSt) (s : State) : (Act.apply (.die d f) s).mem = s.mem := rfl
@[simp] theorem apply_die_empties (d : Fin 4) (f : DieSt → DieSt) (s : State) : (Act.apply (.die d f) s).empties = s.empties := rfl
@[simp] theorem apply_die_poisoned (d : Fin 4) (f : DieSt → DieSt) (s : State) : (Act.apply (.die d f) s).poisoned = s.poisoned := rfl
@[simp] theorem apply_die_cores (d : Fin 4) (f : DieSt → DieSt) (s : State) : (Act.apply (.die d f) s).cores = s.cores := rfl
@[simp] theorem apply_die_banks (d : Fin 4) (f : DieSt → DieSt) (s : State) : (Act.apply (.die d f) s).banks = s.banks := rfl
@[simp] theorem apply_die_quads (d : Fin 4) (f : DieSt → DieSt) (s : State) : (Act.apply (.die d f) s).quads = s.quads := rfl
@[simp] theorem apply_die_parts (d : Fin 4) (f : DieSt → DieSt) (s : State) : (Act.apply (.die d f) s).parts = s.parts := rfl
@[simp] theorem apply_die_dies (d : Fin 4) (f : DieSt → DieSt) (s : State) : (Act.apply (.die d f) s).dies = vset s.dies d (f s.dies[d]) := rfl
@[simp] theorem apply_die_tiles (d : Fin 4) (f : DieSt → DieSt) (s : State) : (Act.apply (.die d f) s).tiles = s.tiles := rfl
@[simp] theorem apply_die_barriers (d : Fin 4) (f : DieSt → DieSt) (s : State) : (Act.apply (.die d f) s).barriers = s.barriers := rfl
@[simp] theorem apply_die_releases (d : Fin 4) (f : DieSt → DieSt) (s : State) : (Act.apply (.die d f) s).releases = s.releases := rfl
@[simp] theorem apply_die_spawned (d : Fin 4) (f : DieSt → DieSt) (s : State) : (Act.apply (.die d f) s).spawned = s.spawned := rfl
@[simp] theorem apply_die_reports (d : Fin 4) (f : DieSt → DieSt) (s : State) : (Act.apply (.die d f) s).reports = s.reports := rfl
@[simp] theorem apply_die_nextId (d : Fin 4) (f : DieSt → DieSt) (s : State) : (Act.apply (.die d f) s).nextId = s.nextId := rfl
@[simp] theorem apply_die_free (d : Fin 4) (f : DieSt → DieSt) (s : State) : (Act.apply (.die d f) s).free = s.free := rfl
@[simp] theorem apply_die_clock (d : Fin 4) (f : DieSt → DieSt) (s : State) : (Act.apply (.die d f) s).clock = s.clock := rfl
@[simp] theorem apply_die_focus (d : Fin 4) (f : DieSt → DieSt) (s : State) : (Act.apply (.die d f) s).focus = s.focus := rfl
@[simp] theorem apply_die_homes (d : Fin 4) (f : DieSt → DieSt) (s : State) : (Act.apply (.die d f) s).homes = s.homes := rfl
@[simp] theorem apply_die_memStacks (d : Fin 4) (f : DieSt → DieSt) (s : State) : (Act.apply (.die d f) s).memStacks = s.memStacks := rfl
@[simp] theorem apply_die_stones (d : Fin 4) (f : DieSt → DieSt) (s : State) : (Act.apply (.die d f) s).stones = s.stones := rfl
@[simp] theorem apply_die_jobs (d : Fin 4) (f : DieSt → DieSt) (s : State) : (Act.apply (.die d f) s).jobs = s.jobs := rfl
@[simp] theorem apply_die_faults (d : Fin 4) (f : DieSt → DieSt) (s : State) : (Act.apply (.die d f) s).faults = s.faults := rfl
@[simp] theorem apply_die_invals (d : Fin 4) (f : DieSt → DieSt) (s : State) : (Act.apply (.die d f) s).invals = s.invals := rfl
@[simp] theorem apply_die_hub (d : Fin 4) (f : DieSt → DieSt) (s : State) : (Act.apply (.die d f) s).hub = s.hub := rfl
@[simp] theorem apply_die_agenda (d : Fin 4) (f : DieSt → DieSt) (s : State) : (Act.apply (.die d f) s).agenda = s.agenda := rfl

/-! ### `tile` -/

@[simp] theorem apply_tile_mem (t : Fin 64) (f : TileSt → TileSt) (s : State) : (Act.apply (.tile t f) s).mem = s.mem := rfl
@[simp] theorem apply_tile_empties (t : Fin 64) (f : TileSt → TileSt) (s : State) : (Act.apply (.tile t f) s).empties = s.empties := rfl
@[simp] theorem apply_tile_poisoned (t : Fin 64) (f : TileSt → TileSt) (s : State) : (Act.apply (.tile t f) s).poisoned = s.poisoned := rfl
@[simp] theorem apply_tile_cores (t : Fin 64) (f : TileSt → TileSt) (s : State) : (Act.apply (.tile t f) s).cores = s.cores := rfl
@[simp] theorem apply_tile_banks (t : Fin 64) (f : TileSt → TileSt) (s : State) : (Act.apply (.tile t f) s).banks = s.banks := rfl
@[simp] theorem apply_tile_quads (t : Fin 64) (f : TileSt → TileSt) (s : State) : (Act.apply (.tile t f) s).quads = s.quads := rfl
@[simp] theorem apply_tile_parts (t : Fin 64) (f : TileSt → TileSt) (s : State) : (Act.apply (.tile t f) s).parts = s.parts := rfl
@[simp] theorem apply_tile_dies (t : Fin 64) (f : TileSt → TileSt) (s : State) : (Act.apply (.tile t f) s).dies = s.dies := rfl
@[simp] theorem apply_tile_tiles (t : Fin 64) (f : TileSt → TileSt) (s : State) : (Act.apply (.tile t f) s).tiles = vset s.tiles t (f s.tiles[t]) := rfl
@[simp] theorem apply_tile_barriers (t : Fin 64) (f : TileSt → TileSt) (s : State) : (Act.apply (.tile t f) s).barriers = s.barriers := rfl
@[simp] theorem apply_tile_releases (t : Fin 64) (f : TileSt → TileSt) (s : State) : (Act.apply (.tile t f) s).releases = s.releases := rfl
@[simp] theorem apply_tile_spawned (t : Fin 64) (f : TileSt → TileSt) (s : State) : (Act.apply (.tile t f) s).spawned = s.spawned := rfl
@[simp] theorem apply_tile_reports (t : Fin 64) (f : TileSt → TileSt) (s : State) : (Act.apply (.tile t f) s).reports = s.reports := rfl
@[simp] theorem apply_tile_nextId (t : Fin 64) (f : TileSt → TileSt) (s : State) : (Act.apply (.tile t f) s).nextId = s.nextId := rfl
@[simp] theorem apply_tile_free (t : Fin 64) (f : TileSt → TileSt) (s : State) : (Act.apply (.tile t f) s).free = s.free := rfl
@[simp] theorem apply_tile_clock (t : Fin 64) (f : TileSt → TileSt) (s : State) : (Act.apply (.tile t f) s).clock = s.clock := rfl
@[simp] theorem apply_tile_focus (t : Fin 64) (f : TileSt → TileSt) (s : State) : (Act.apply (.tile t f) s).focus = s.focus := rfl
@[simp] theorem apply_tile_homes (t : Fin 64) (f : TileSt → TileSt) (s : State) : (Act.apply (.tile t f) s).homes = s.homes := rfl
@[simp] theorem apply_tile_memStacks (t : Fin 64) (f : TileSt → TileSt) (s : State) : (Act.apply (.tile t f) s).memStacks = s.memStacks := rfl
@[simp] theorem apply_tile_stones (t : Fin 64) (f : TileSt → TileSt) (s : State) : (Act.apply (.tile t f) s).stones = s.stones := rfl
@[simp] theorem apply_tile_jobs (t : Fin 64) (f : TileSt → TileSt) (s : State) : (Act.apply (.tile t f) s).jobs = s.jobs := rfl
@[simp] theorem apply_tile_faults (t : Fin 64) (f : TileSt → TileSt) (s : State) : (Act.apply (.tile t f) s).faults = s.faults := rfl
@[simp] theorem apply_tile_invals (t : Fin 64) (f : TileSt → TileSt) (s : State) : (Act.apply (.tile t f) s).invals = s.invals := rfl
@[simp] theorem apply_tile_hub (t : Fin 64) (f : TileSt → TileSt) (s : State) : (Act.apply (.tile t f) s).hub = s.hub := rfl
@[simp] theorem apply_tile_agenda (t : Fin 64) (f : TileSt → TileSt) (s : State) : (Act.apply (.tile t f) s).agenda = s.agenda := rfl

/-! ### `barriers` -/

@[simp] theorem apply_barriers_mem (f : List Barrier → List Barrier) (s : State) : (Act.apply (.barriers f) s).mem = s.mem := rfl
@[simp] theorem apply_barriers_empties (f : List Barrier → List Barrier) (s : State) : (Act.apply (.barriers f) s).empties = s.empties := rfl
@[simp] theorem apply_barriers_poisoned (f : List Barrier → List Barrier) (s : State) : (Act.apply (.barriers f) s).poisoned = s.poisoned := rfl
@[simp] theorem apply_barriers_cores (f : List Barrier → List Barrier) (s : State) : (Act.apply (.barriers f) s).cores = s.cores := rfl
@[simp] theorem apply_barriers_banks (f : List Barrier → List Barrier) (s : State) : (Act.apply (.barriers f) s).banks = s.banks := rfl
@[simp] theorem apply_barriers_quads (f : List Barrier → List Barrier) (s : State) : (Act.apply (.barriers f) s).quads = s.quads := rfl
@[simp] theorem apply_barriers_parts (f : List Barrier → List Barrier) (s : State) : (Act.apply (.barriers f) s).parts = s.parts := rfl
@[simp] theorem apply_barriers_dies (f : List Barrier → List Barrier) (s : State) : (Act.apply (.barriers f) s).dies = s.dies := rfl
@[simp] theorem apply_barriers_tiles (f : List Barrier → List Barrier) (s : State) : (Act.apply (.barriers f) s).tiles = s.tiles := rfl
@[simp] theorem apply_barriers_barriers (f : List Barrier → List Barrier) (s : State) : (Act.apply (.barriers f) s).barriers = f s.barriers := rfl
@[simp] theorem apply_barriers_releases (f : List Barrier → List Barrier) (s : State) : (Act.apply (.barriers f) s).releases = s.releases := rfl
@[simp] theorem apply_barriers_spawned (f : List Barrier → List Barrier) (s : State) : (Act.apply (.barriers f) s).spawned = s.spawned := rfl
@[simp] theorem apply_barriers_reports (f : List Barrier → List Barrier) (s : State) : (Act.apply (.barriers f) s).reports = s.reports := rfl
@[simp] theorem apply_barriers_nextId (f : List Barrier → List Barrier) (s : State) : (Act.apply (.barriers f) s).nextId = s.nextId := rfl
@[simp] theorem apply_barriers_free (f : List Barrier → List Barrier) (s : State) : (Act.apply (.barriers f) s).free = s.free := rfl
@[simp] theorem apply_barriers_clock (f : List Barrier → List Barrier) (s : State) : (Act.apply (.barriers f) s).clock = s.clock := rfl
@[simp] theorem apply_barriers_focus (f : List Barrier → List Barrier) (s : State) : (Act.apply (.barriers f) s).focus = s.focus := rfl
@[simp] theorem apply_barriers_homes (f : List Barrier → List Barrier) (s : State) : (Act.apply (.barriers f) s).homes = s.homes := rfl
@[simp] theorem apply_barriers_memStacks (f : List Barrier → List Barrier) (s : State) : (Act.apply (.barriers f) s).memStacks = s.memStacks := rfl
@[simp] theorem apply_barriers_stones (f : List Barrier → List Barrier) (s : State) : (Act.apply (.barriers f) s).stones = s.stones := rfl
@[simp] theorem apply_barriers_jobs (f : List Barrier → List Barrier) (s : State) : (Act.apply (.barriers f) s).jobs = s.jobs := rfl
@[simp] theorem apply_barriers_faults (f : List Barrier → List Barrier) (s : State) : (Act.apply (.barriers f) s).faults = s.faults := rfl
@[simp] theorem apply_barriers_invals (f : List Barrier → List Barrier) (s : State) : (Act.apply (.barriers f) s).invals = s.invals := rfl
@[simp] theorem apply_barriers_hub (f : List Barrier → List Barrier) (s : State) : (Act.apply (.barriers f) s).hub = s.hub := rfl
@[simp] theorem apply_barriers_agenda (f : List Barrier → List Barrier) (s : State) : (Act.apply (.barriers f) s).agenda = s.agenda := rfl

/-! ### `releases` -/

@[simp] theorem apply_releases_mem (f : List Release → List Release) (s : State) : (Act.apply (.releases f) s).mem = s.mem := rfl
@[simp] theorem apply_releases_empties (f : List Release → List Release) (s : State) : (Act.apply (.releases f) s).empties = s.empties := rfl
@[simp] theorem apply_releases_poisoned (f : List Release → List Release) (s : State) : (Act.apply (.releases f) s).poisoned = s.poisoned := rfl
@[simp] theorem apply_releases_cores (f : List Release → List Release) (s : State) : (Act.apply (.releases f) s).cores = s.cores := rfl
@[simp] theorem apply_releases_banks (f : List Release → List Release) (s : State) : (Act.apply (.releases f) s).banks = s.banks := rfl
@[simp] theorem apply_releases_quads (f : List Release → List Release) (s : State) : (Act.apply (.releases f) s).quads = s.quads := rfl
@[simp] theorem apply_releases_parts (f : List Release → List Release) (s : State) : (Act.apply (.releases f) s).parts = s.parts := rfl
@[simp] theorem apply_releases_dies (f : List Release → List Release) (s : State) : (Act.apply (.releases f) s).dies = s.dies := rfl
@[simp] theorem apply_releases_tiles (f : List Release → List Release) (s : State) : (Act.apply (.releases f) s).tiles = s.tiles := rfl
@[simp] theorem apply_releases_barriers (f : List Release → List Release) (s : State) : (Act.apply (.releases f) s).barriers = s.barriers := rfl
@[simp] theorem apply_releases_releases (f : List Release → List Release) (s : State) : (Act.apply (.releases f) s).releases = f s.releases := rfl
@[simp] theorem apply_releases_spawned (f : List Release → List Release) (s : State) : (Act.apply (.releases f) s).spawned = s.spawned := rfl
@[simp] theorem apply_releases_reports (f : List Release → List Release) (s : State) : (Act.apply (.releases f) s).reports = s.reports := rfl
@[simp] theorem apply_releases_nextId (f : List Release → List Release) (s : State) : (Act.apply (.releases f) s).nextId = s.nextId := rfl
@[simp] theorem apply_releases_free (f : List Release → List Release) (s : State) : (Act.apply (.releases f) s).free = s.free := rfl
@[simp] theorem apply_releases_clock (f : List Release → List Release) (s : State) : (Act.apply (.releases f) s).clock = s.clock := rfl
@[simp] theorem apply_releases_focus (f : List Release → List Release) (s : State) : (Act.apply (.releases f) s).focus = s.focus := rfl
@[simp] theorem apply_releases_homes (f : List Release → List Release) (s : State) : (Act.apply (.releases f) s).homes = s.homes := rfl
@[simp] theorem apply_releases_memStacks (f : List Release → List Release) (s : State) : (Act.apply (.releases f) s).memStacks = s.memStacks := rfl
@[simp] theorem apply_releases_stones (f : List Release → List Release) (s : State) : (Act.apply (.releases f) s).stones = s.stones := rfl
@[simp] theorem apply_releases_jobs (f : List Release → List Release) (s : State) : (Act.apply (.releases f) s).jobs = s.jobs := rfl
@[simp] theorem apply_releases_faults (f : List Release → List Release) (s : State) : (Act.apply (.releases f) s).faults = s.faults := rfl
@[simp] theorem apply_releases_invals (f : List Release → List Release) (s : State) : (Act.apply (.releases f) s).invals = s.invals := rfl
@[simp] theorem apply_releases_hub (f : List Release → List Release) (s : State) : (Act.apply (.releases f) s).hub = s.hub := rfl
@[simp] theorem apply_releases_agenda (f : List Release → List Release) (s : State) : (Act.apply (.releases f) s).agenda = s.agenda := rfl

/-! ### `spawned` -/

@[simp] theorem apply_spawned_mem (f : List Spawned → List Spawned) (s : State) : (Act.apply (.spawned f) s).mem = s.mem := rfl
@[simp] theorem apply_spawned_empties (f : List Spawned → List Spawned) (s : State) : (Act.apply (.spawned f) s).empties = s.empties := rfl
@[simp] theorem apply_spawned_poisoned (f : List Spawned → List Spawned) (s : State) : (Act.apply (.spawned f) s).poisoned = s.poisoned := rfl
@[simp] theorem apply_spawned_cores (f : List Spawned → List Spawned) (s : State) : (Act.apply (.spawned f) s).cores = s.cores := rfl
@[simp] theorem apply_spawned_banks (f : List Spawned → List Spawned) (s : State) : (Act.apply (.spawned f) s).banks = s.banks := rfl
@[simp] theorem apply_spawned_quads (f : List Spawned → List Spawned) (s : State) : (Act.apply (.spawned f) s).quads = s.quads := rfl
@[simp] theorem apply_spawned_parts (f : List Spawned → List Spawned) (s : State) : (Act.apply (.spawned f) s).parts = s.parts := rfl
@[simp] theorem apply_spawned_dies (f : List Spawned → List Spawned) (s : State) : (Act.apply (.spawned f) s).dies = s.dies := rfl
@[simp] theorem apply_spawned_tiles (f : List Spawned → List Spawned) (s : State) : (Act.apply (.spawned f) s).tiles = s.tiles := rfl
@[simp] theorem apply_spawned_barriers (f : List Spawned → List Spawned) (s : State) : (Act.apply (.spawned f) s).barriers = s.barriers := rfl
@[simp] theorem apply_spawned_releases (f : List Spawned → List Spawned) (s : State) : (Act.apply (.spawned f) s).releases = s.releases := rfl
@[simp] theorem apply_spawned_spawned (f : List Spawned → List Spawned) (s : State) : (Act.apply (.spawned f) s).spawned = f s.spawned := rfl
@[simp] theorem apply_spawned_reports (f : List Spawned → List Spawned) (s : State) : (Act.apply (.spawned f) s).reports = s.reports := rfl
@[simp] theorem apply_spawned_nextId (f : List Spawned → List Spawned) (s : State) : (Act.apply (.spawned f) s).nextId = s.nextId := rfl
@[simp] theorem apply_spawned_free (f : List Spawned → List Spawned) (s : State) : (Act.apply (.spawned f) s).free = s.free := rfl
@[simp] theorem apply_spawned_clock (f : List Spawned → List Spawned) (s : State) : (Act.apply (.spawned f) s).clock = s.clock := rfl
@[simp] theorem apply_spawned_focus (f : List Spawned → List Spawned) (s : State) : (Act.apply (.spawned f) s).focus = s.focus := rfl
@[simp] theorem apply_spawned_homes (f : List Spawned → List Spawned) (s : State) : (Act.apply (.spawned f) s).homes = s.homes := rfl
@[simp] theorem apply_spawned_memStacks (f : List Spawned → List Spawned) (s : State) : (Act.apply (.spawned f) s).memStacks = s.memStacks := rfl
@[simp] theorem apply_spawned_stones (f : List Spawned → List Spawned) (s : State) : (Act.apply (.spawned f) s).stones = s.stones := rfl
@[simp] theorem apply_spawned_jobs (f : List Spawned → List Spawned) (s : State) : (Act.apply (.spawned f) s).jobs = s.jobs := rfl
@[simp] theorem apply_spawned_faults (f : List Spawned → List Spawned) (s : State) : (Act.apply (.spawned f) s).faults = s.faults := rfl
@[simp] theorem apply_spawned_invals (f : List Spawned → List Spawned) (s : State) : (Act.apply (.spawned f) s).invals = s.invals := rfl
@[simp] theorem apply_spawned_hub (f : List Spawned → List Spawned) (s : State) : (Act.apply (.spawned f) s).hub = s.hub := rfl
@[simp] theorem apply_spawned_agenda (f : List Spawned → List Spawned) (s : State) : (Act.apply (.spawned f) s).agenda = s.agenda := rfl

/-! ### `report` -/

@[simp] theorem apply_report_mem (r : Report) (s : State) : (Act.apply (.report r) s).mem = s.mem := rfl
@[simp] theorem apply_report_empties (r : Report) (s : State) : (Act.apply (.report r) s).empties = s.empties := rfl
@[simp] theorem apply_report_poisoned (r : Report) (s : State) : (Act.apply (.report r) s).poisoned = s.poisoned := rfl
@[simp] theorem apply_report_cores (r : Report) (s : State) : (Act.apply (.report r) s).cores = s.cores := rfl
@[simp] theorem apply_report_banks (r : Report) (s : State) : (Act.apply (.report r) s).banks = s.banks := rfl
@[simp] theorem apply_report_quads (r : Report) (s : State) : (Act.apply (.report r) s).quads = s.quads := rfl
@[simp] theorem apply_report_parts (r : Report) (s : State) : (Act.apply (.report r) s).parts = s.parts := rfl
@[simp] theorem apply_report_dies (r : Report) (s : State) : (Act.apply (.report r) s).dies = s.dies := rfl
@[simp] theorem apply_report_tiles (r : Report) (s : State) : (Act.apply (.report r) s).tiles = s.tiles := rfl
@[simp] theorem apply_report_barriers (r : Report) (s : State) : (Act.apply (.report r) s).barriers = s.barriers := rfl
@[simp] theorem apply_report_releases (r : Report) (s : State) : (Act.apply (.report r) s).releases = s.releases := rfl
@[simp] theorem apply_report_spawned (r : Report) (s : State) : (Act.apply (.report r) s).spawned = s.spawned := rfl
@[simp] theorem apply_report_reports (r : Report) (s : State) : (Act.apply (.report r) s).reports = s.reports ++ [r] := rfl
@[simp] theorem apply_report_nextId (r : Report) (s : State) : (Act.apply (.report r) s).nextId = s.nextId := rfl
@[simp] theorem apply_report_free (r : Report) (s : State) : (Act.apply (.report r) s).free = s.free := rfl
@[simp] theorem apply_report_clock (r : Report) (s : State) : (Act.apply (.report r) s).clock = s.clock := rfl
@[simp] theorem apply_report_focus (r : Report) (s : State) : (Act.apply (.report r) s).focus = s.focus := rfl
@[simp] theorem apply_report_homes (r : Report) (s : State) : (Act.apply (.report r) s).homes = s.homes := rfl
@[simp] theorem apply_report_memStacks (r : Report) (s : State) : (Act.apply (.report r) s).memStacks = s.memStacks := rfl
@[simp] theorem apply_report_stones (r : Report) (s : State) : (Act.apply (.report r) s).stones = s.stones := rfl
@[simp] theorem apply_report_jobs (r : Report) (s : State) : (Act.apply (.report r) s).jobs = s.jobs := rfl
@[simp] theorem apply_report_faults (r : Report) (s : State) : (Act.apply (.report r) s).faults = s.faults := rfl
@[simp] theorem apply_report_invals (r : Report) (s : State) : (Act.apply (.report r) s).invals = s.invals := rfl
@[simp] theorem apply_report_hub (r : Report) (s : State) : (Act.apply (.report r) s).hub = s.hub := rfl
@[simp] theorem apply_report_agenda (r : Report) (s : State) : (Act.apply (.report r) s).agenda = s.agenda := rfl

/-! ### `byte` -/

@[simp] theorem apply_byte_mem (a : Nat) (v : Byte) (s : State) : (Act.apply (.byte a v) s).mem = memPut s.mem a v := rfl
@[simp] theorem apply_byte_empties (a : Nat) (v : Byte) (s : State) : (Act.apply (.byte a v) s).empties = s.empties := rfl
@[simp] theorem apply_byte_poisoned (a : Nat) (v : Byte) (s : State) : (Act.apply (.byte a v) s).poisoned = s.poisoned := rfl
@[simp] theorem apply_byte_cores (a : Nat) (v : Byte) (s : State) : (Act.apply (.byte a v) s).cores = s.cores := rfl
@[simp] theorem apply_byte_banks (a : Nat) (v : Byte) (s : State) : (Act.apply (.byte a v) s).banks = s.banks := rfl
@[simp] theorem apply_byte_quads (a : Nat) (v : Byte) (s : State) : (Act.apply (.byte a v) s).quads = s.quads := rfl
@[simp] theorem apply_byte_parts (a : Nat) (v : Byte) (s : State) : (Act.apply (.byte a v) s).parts = s.parts := rfl
@[simp] theorem apply_byte_dies (a : Nat) (v : Byte) (s : State) : (Act.apply (.byte a v) s).dies = s.dies := rfl
@[simp] theorem apply_byte_tiles (a : Nat) (v : Byte) (s : State) : (Act.apply (.byte a v) s).tiles = s.tiles := rfl
@[simp] theorem apply_byte_barriers (a : Nat) (v : Byte) (s : State) : (Act.apply (.byte a v) s).barriers = s.barriers := rfl
@[simp] theorem apply_byte_releases (a : Nat) (v : Byte) (s : State) : (Act.apply (.byte a v) s).releases = s.releases := rfl
@[simp] theorem apply_byte_spawned (a : Nat) (v : Byte) (s : State) : (Act.apply (.byte a v) s).spawned = s.spawned := rfl
@[simp] theorem apply_byte_reports (a : Nat) (v : Byte) (s : State) : (Act.apply (.byte a v) s).reports = s.reports := rfl
@[simp] theorem apply_byte_nextId (a : Nat) (v : Byte) (s : State) : (Act.apply (.byte a v) s).nextId = s.nextId := rfl
@[simp] theorem apply_byte_free (a : Nat) (v : Byte) (s : State) : (Act.apply (.byte a v) s).free = s.free := rfl
@[simp] theorem apply_byte_clock (a : Nat) (v : Byte) (s : State) : (Act.apply (.byte a v) s).clock = s.clock := rfl
@[simp] theorem apply_byte_focus (a : Nat) (v : Byte) (s : State) : (Act.apply (.byte a v) s).focus = s.focus := rfl
@[simp] theorem apply_byte_homes (a : Nat) (v : Byte) (s : State) : (Act.apply (.byte a v) s).homes = s.homes := rfl
@[simp] theorem apply_byte_memStacks (a : Nat) (v : Byte) (s : State) : (Act.apply (.byte a v) s).memStacks = s.memStacks := rfl
@[simp] theorem apply_byte_stones (a : Nat) (v : Byte) (s : State) : (Act.apply (.byte a v) s).stones = s.stones := rfl
@[simp] theorem apply_byte_jobs (a : Nat) (v : Byte) (s : State) : (Act.apply (.byte a v) s).jobs = s.jobs := rfl
@[simp] theorem apply_byte_faults (a : Nat) (v : Byte) (s : State) : (Act.apply (.byte a v) s).faults = s.faults := rfl
@[simp] theorem apply_byte_invals (a : Nat) (v : Byte) (s : State) : (Act.apply (.byte a v) s).invals = s.invals := rfl
@[simp] theorem apply_byte_hub (a : Nat) (v : Byte) (s : State) : (Act.apply (.byte a v) s).hub = s.hub := rfl
@[simp] theorem apply_byte_agenda (a : Nat) (v : Byte) (s : State) : (Act.apply (.byte a v) s).agenda = s.agenda := rfl

/-! ### `empty` -/

@[simp] theorem apply_empty_mem (w : Nat) (b : Bool) (s : State) : (Act.apply (.empty w b) s).mem = s.mem := rfl
@[simp] theorem apply_empty_empties (w : Nat) (b : Bool) (s : State) : (Act.apply (.empty w b) s).empties = if b then setIns s.empties w else setDel s.empties w := rfl
@[simp] theorem apply_empty_poisoned (w : Nat) (b : Bool) (s : State) : (Act.apply (.empty w b) s).poisoned = s.poisoned := rfl
@[simp] theorem apply_empty_cores (w : Nat) (b : Bool) (s : State) : (Act.apply (.empty w b) s).cores = s.cores := rfl
@[simp] theorem apply_empty_banks (w : Nat) (b : Bool) (s : State) : (Act.apply (.empty w b) s).banks = s.banks := rfl
@[simp] theorem apply_empty_quads (w : Nat) (b : Bool) (s : State) : (Act.apply (.empty w b) s).quads = s.quads := rfl
@[simp] theorem apply_empty_parts (w : Nat) (b : Bool) (s : State) : (Act.apply (.empty w b) s).parts = s.parts := rfl
@[simp] theorem apply_empty_dies (w : Nat) (b : Bool) (s : State) : (Act.apply (.empty w b) s).dies = s.dies := rfl
@[simp] theorem apply_empty_tiles (w : Nat) (b : Bool) (s : State) : (Act.apply (.empty w b) s).tiles = s.tiles := rfl
@[simp] theorem apply_empty_barriers (w : Nat) (b : Bool) (s : State) : (Act.apply (.empty w b) s).barriers = s.barriers := rfl
@[simp] theorem apply_empty_releases (w : Nat) (b : Bool) (s : State) : (Act.apply (.empty w b) s).releases = s.releases := rfl
@[simp] theorem apply_empty_spawned (w : Nat) (b : Bool) (s : State) : (Act.apply (.empty w b) s).spawned = s.spawned := rfl
@[simp] theorem apply_empty_reports (w : Nat) (b : Bool) (s : State) : (Act.apply (.empty w b) s).reports = s.reports := rfl
@[simp] theorem apply_empty_nextId (w : Nat) (b : Bool) (s : State) : (Act.apply (.empty w b) s).nextId = s.nextId := rfl
@[simp] theorem apply_empty_free (w : Nat) (b : Bool) (s : State) : (Act.apply (.empty w b) s).free = s.free := rfl
@[simp] theorem apply_empty_clock (w : Nat) (b : Bool) (s : State) : (Act.apply (.empty w b) s).clock = s.clock := rfl
@[simp] theorem apply_empty_focus (w : Nat) (b : Bool) (s : State) : (Act.apply (.empty w b) s).focus = s.focus := rfl
@[simp] theorem apply_empty_homes (w : Nat) (b : Bool) (s : State) : (Act.apply (.empty w b) s).homes = s.homes := rfl
@[simp] theorem apply_empty_memStacks (w : Nat) (b : Bool) (s : State) : (Act.apply (.empty w b) s).memStacks = s.memStacks := rfl
@[simp] theorem apply_empty_stones (w : Nat) (b : Bool) (s : State) : (Act.apply (.empty w b) s).stones = s.stones := rfl
@[simp] theorem apply_empty_jobs (w : Nat) (b : Bool) (s : State) : (Act.apply (.empty w b) s).jobs = s.jobs := rfl
@[simp] theorem apply_empty_faults (w : Nat) (b : Bool) (s : State) : (Act.apply (.empty w b) s).faults = s.faults := rfl
@[simp] theorem apply_empty_invals (w : Nat) (b : Bool) (s : State) : (Act.apply (.empty w b) s).invals = s.invals := rfl
@[simp] theorem apply_empty_hub (w : Nat) (b : Bool) (s : State) : (Act.apply (.empty w b) s).hub = s.hub := rfl
@[simp] theorem apply_empty_agenda (w : Nat) (b : Bool) (s : State) : (Act.apply (.empty w b) s).agenda = s.agenda := rfl

/-! ### `sector` -/

@[simp] theorem apply_sector_mem (n : Nat) (b : Bool) (s : State) : (Act.apply (.sector n b) s).mem = s.mem := rfl
@[simp] theorem apply_sector_empties (n : Nat) (b : Bool) (s : State) : (Act.apply (.sector n b) s).empties = s.empties := rfl
@[simp] theorem apply_sector_poisoned (n : Nat) (b : Bool) (s : State) : (Act.apply (.sector n b) s).poisoned = if b then setIns s.poisoned n else setDel s.poisoned n := rfl
@[simp] theorem apply_sector_cores (n : Nat) (b : Bool) (s : State) : (Act.apply (.sector n b) s).cores = s.cores := rfl
@[simp] theorem apply_sector_banks (n : Nat) (b : Bool) (s : State) : (Act.apply (.sector n b) s).banks = s.banks := rfl
@[simp] theorem apply_sector_quads (n : Nat) (b : Bool) (s : State) : (Act.apply (.sector n b) s).quads = s.quads := rfl
@[simp] theorem apply_sector_parts (n : Nat) (b : Bool) (s : State) : (Act.apply (.sector n b) s).parts = s.parts := rfl
@[simp] theorem apply_sector_dies (n : Nat) (b : Bool) (s : State) : (Act.apply (.sector n b) s).dies = s.dies := rfl
@[simp] theorem apply_sector_tiles (n : Nat) (b : Bool) (s : State) : (Act.apply (.sector n b) s).tiles = s.tiles := rfl
@[simp] theorem apply_sector_barriers (n : Nat) (b : Bool) (s : State) : (Act.apply (.sector n b) s).barriers = s.barriers := rfl
@[simp] theorem apply_sector_releases (n : Nat) (b : Bool) (s : State) : (Act.apply (.sector n b) s).releases = s.releases := rfl
@[simp] theorem apply_sector_spawned (n : Nat) (b : Bool) (s : State) : (Act.apply (.sector n b) s).spawned = s.spawned := rfl
@[simp] theorem apply_sector_reports (n : Nat) (b : Bool) (s : State) : (Act.apply (.sector n b) s).reports = s.reports := rfl
@[simp] theorem apply_sector_nextId (n : Nat) (b : Bool) (s : State) : (Act.apply (.sector n b) s).nextId = s.nextId := rfl
@[simp] theorem apply_sector_free (n : Nat) (b : Bool) (s : State) : (Act.apply (.sector n b) s).free = s.free := rfl
@[simp] theorem apply_sector_clock (n : Nat) (b : Bool) (s : State) : (Act.apply (.sector n b) s).clock = s.clock := rfl
@[simp] theorem apply_sector_focus (n : Nat) (b : Bool) (s : State) : (Act.apply (.sector n b) s).focus = s.focus := rfl
@[simp] theorem apply_sector_homes (n : Nat) (b : Bool) (s : State) : (Act.apply (.sector n b) s).homes = s.homes := rfl
@[simp] theorem apply_sector_memStacks (n : Nat) (b : Bool) (s : State) : (Act.apply (.sector n b) s).memStacks = s.memStacks := rfl
@[simp] theorem apply_sector_stones (n : Nat) (b : Bool) (s : State) : (Act.apply (.sector n b) s).stones = s.stones := rfl
@[simp] theorem apply_sector_jobs (n : Nat) (b : Bool) (s : State) : (Act.apply (.sector n b) s).jobs = s.jobs := rfl
@[simp] theorem apply_sector_faults (n : Nat) (b : Bool) (s : State) : (Act.apply (.sector n b) s).faults = s.faults := rfl
@[simp] theorem apply_sector_invals (n : Nat) (b : Bool) (s : State) : (Act.apply (.sector n b) s).invals = s.invals := rfl
@[simp] theorem apply_sector_hub (n : Nat) (b : Bool) (s : State) : (Act.apply (.sector n b) s).hub = s.hub := rfl
@[simp] theorem apply_sector_agenda (n : Nat) (b : Bool) (s : State) : (Act.apply (.sector n b) s).agenda = s.agenda := rfl

/-! ### `ids` -/

@[simp] theorem apply_ids_mem (n : Nat) (s : State) : (Act.apply (.ids n) s).mem = s.mem := rfl
@[simp] theorem apply_ids_empties (n : Nat) (s : State) : (Act.apply (.ids n) s).empties = s.empties := rfl
@[simp] theorem apply_ids_poisoned (n : Nat) (s : State) : (Act.apply (.ids n) s).poisoned = s.poisoned := rfl
@[simp] theorem apply_ids_cores (n : Nat) (s : State) : (Act.apply (.ids n) s).cores = s.cores := rfl
@[simp] theorem apply_ids_banks (n : Nat) (s : State) : (Act.apply (.ids n) s).banks = s.banks := rfl
@[simp] theorem apply_ids_quads (n : Nat) (s : State) : (Act.apply (.ids n) s).quads = s.quads := rfl
@[simp] theorem apply_ids_parts (n : Nat) (s : State) : (Act.apply (.ids n) s).parts = s.parts := rfl
@[simp] theorem apply_ids_dies (n : Nat) (s : State) : (Act.apply (.ids n) s).dies = s.dies := rfl
@[simp] theorem apply_ids_tiles (n : Nat) (s : State) : (Act.apply (.ids n) s).tiles = s.tiles := rfl
@[simp] theorem apply_ids_barriers (n : Nat) (s : State) : (Act.apply (.ids n) s).barriers = s.barriers := rfl
@[simp] theorem apply_ids_releases (n : Nat) (s : State) : (Act.apply (.ids n) s).releases = s.releases := rfl
@[simp] theorem apply_ids_spawned (n : Nat) (s : State) : (Act.apply (.ids n) s).spawned = s.spawned := rfl
@[simp] theorem apply_ids_reports (n : Nat) (s : State) : (Act.apply (.ids n) s).reports = s.reports := rfl
@[simp] theorem apply_ids_nextId (n : Nat) (s : State) : (Act.apply (.ids n) s).nextId = s.nextId + n := rfl
@[simp] theorem apply_ids_free (n : Nat) (s : State) : (Act.apply (.ids n) s).free = s.free := rfl
@[simp] theorem apply_ids_clock (n : Nat) (s : State) : (Act.apply (.ids n) s).clock = s.clock := rfl
@[simp] theorem apply_ids_focus (n : Nat) (s : State) : (Act.apply (.ids n) s).focus = s.focus := rfl
@[simp] theorem apply_ids_homes (n : Nat) (s : State) : (Act.apply (.ids n) s).homes = s.homes := rfl
@[simp] theorem apply_ids_memStacks (n : Nat) (s : State) : (Act.apply (.ids n) s).memStacks = s.memStacks := rfl
@[simp] theorem apply_ids_stones (n : Nat) (s : State) : (Act.apply (.ids n) s).stones = s.stones := rfl
@[simp] theorem apply_ids_jobs (n : Nat) (s : State) : (Act.apply (.ids n) s).jobs = s.jobs := rfl
@[simp] theorem apply_ids_faults (n : Nat) (s : State) : (Act.apply (.ids n) s).faults = s.faults := rfl
@[simp] theorem apply_ids_invals (n : Nat) (s : State) : (Act.apply (.ids n) s).invals = s.invals := rfl
@[simp] theorem apply_ids_hub (n : Nat) (s : State) : (Act.apply (.ids n) s).hub = s.hub := rfl
@[simp] theorem apply_ids_agenda (n : Nat) (s : State) : (Act.apply (.ids n) s).agenda = s.agenda := rfl

/-! ### `drawn` -/

@[simp] theorem apply_drawn_mem (n : Nat) (s : State) : (Act.apply (.drawn n) s).mem = s.mem := rfl
@[simp] theorem apply_drawn_empties (n : Nat) (s : State) : (Act.apply (.drawn n) s).empties = s.empties := rfl
@[simp] theorem apply_drawn_poisoned (n : Nat) (s : State) : (Act.apply (.drawn n) s).poisoned = s.poisoned := rfl
@[simp] theorem apply_drawn_cores (n : Nat) (s : State) : (Act.apply (.drawn n) s).cores = s.cores := rfl
@[simp] theorem apply_drawn_banks (n : Nat) (s : State) : (Act.apply (.drawn n) s).banks = s.banks := rfl
@[simp] theorem apply_drawn_quads (n : Nat) (s : State) : (Act.apply (.drawn n) s).quads = s.quads := rfl
@[simp] theorem apply_drawn_parts (n : Nat) (s : State) : (Act.apply (.drawn n) s).parts = s.parts := rfl
@[simp] theorem apply_drawn_dies (n : Nat) (s : State) : (Act.apply (.drawn n) s).dies = s.dies := rfl
@[simp] theorem apply_drawn_tiles (n : Nat) (s : State) : (Act.apply (.drawn n) s).tiles = s.tiles := rfl
@[simp] theorem apply_drawn_barriers (n : Nat) (s : State) : (Act.apply (.drawn n) s).barriers = s.barriers := rfl
@[simp] theorem apply_drawn_releases (n : Nat) (s : State) : (Act.apply (.drawn n) s).releases = s.releases := rfl
@[simp] theorem apply_drawn_spawned (n : Nat) (s : State) : (Act.apply (.drawn n) s).spawned = s.spawned := rfl
@[simp] theorem apply_drawn_reports (n : Nat) (s : State) : (Act.apply (.drawn n) s).reports = s.reports := rfl
@[simp] theorem apply_drawn_nextId (n : Nat) (s : State) : (Act.apply (.drawn n) s).nextId = s.nextId := rfl
@[simp] theorem apply_drawn_free (n : Nat) (s : State) : (Act.apply (.drawn n) s).free = s.free + n := rfl
@[simp] theorem apply_drawn_clock (n : Nat) (s : State) : (Act.apply (.drawn n) s).clock = s.clock := rfl
@[simp] theorem apply_drawn_focus (n : Nat) (s : State) : (Act.apply (.drawn n) s).focus = s.focus := rfl
@[simp] theorem apply_drawn_homes (n : Nat) (s : State) : (Act.apply (.drawn n) s).homes = s.homes := rfl
@[simp] theorem apply_drawn_memStacks (n : Nat) (s : State) : (Act.apply (.drawn n) s).memStacks = s.memStacks := rfl
@[simp] theorem apply_drawn_stones (n : Nat) (s : State) : (Act.apply (.drawn n) s).stones = s.stones := rfl
@[simp] theorem apply_drawn_jobs (n : Nat) (s : State) : (Act.apply (.drawn n) s).jobs = s.jobs := rfl
@[simp] theorem apply_drawn_faults (n : Nat) (s : State) : (Act.apply (.drawn n) s).faults = s.faults := rfl
@[simp] theorem apply_drawn_invals (n : Nat) (s : State) : (Act.apply (.drawn n) s).invals = s.invals := rfl
@[simp] theorem apply_drawn_hub (n : Nat) (s : State) : (Act.apply (.drawn n) s).hub = s.hub := rfl
@[simp] theorem apply_drawn_agenda (n : Nat) (s : State) : (Act.apply (.drawn n) s).agenda = s.agenda := rfl

/-! ### `clock` -/

@[simp] theorem apply_clock_mem (n : Nat) (s : State) : (Act.apply (.clock n) s).mem = s.mem := rfl
@[simp] theorem apply_clock_empties (n : Nat) (s : State) : (Act.apply (.clock n) s).empties = s.empties := rfl
@[simp] theorem apply_clock_poisoned (n : Nat) (s : State) : (Act.apply (.clock n) s).poisoned = s.poisoned := rfl
@[simp] theorem apply_clock_cores (n : Nat) (s : State) : (Act.apply (.clock n) s).cores = s.cores := rfl
@[simp] theorem apply_clock_banks (n : Nat) (s : State) : (Act.apply (.clock n) s).banks = s.banks := rfl
@[simp] theorem apply_clock_quads (n : Nat) (s : State) : (Act.apply (.clock n) s).quads = s.quads := rfl
@[simp] theorem apply_clock_parts (n : Nat) (s : State) : (Act.apply (.clock n) s).parts = s.parts := rfl
@[simp] theorem apply_clock_dies (n : Nat) (s : State) : (Act.apply (.clock n) s).dies = s.dies := rfl
@[simp] theorem apply_clock_tiles (n : Nat) (s : State) : (Act.apply (.clock n) s).tiles = s.tiles := rfl
@[simp] theorem apply_clock_barriers (n : Nat) (s : State) : (Act.apply (.clock n) s).barriers = s.barriers := rfl
@[simp] theorem apply_clock_releases (n : Nat) (s : State) : (Act.apply (.clock n) s).releases = s.releases := rfl
@[simp] theorem apply_clock_spawned (n : Nat) (s : State) : (Act.apply (.clock n) s).spawned = s.spawned := rfl
@[simp] theorem apply_clock_reports (n : Nat) (s : State) : (Act.apply (.clock n) s).reports = s.reports := rfl
@[simp] theorem apply_clock_nextId (n : Nat) (s : State) : (Act.apply (.clock n) s).nextId = s.nextId := rfl
@[simp] theorem apply_clock_free (n : Nat) (s : State) : (Act.apply (.clock n) s).free = s.free := rfl
@[simp] theorem apply_clock_clock (n : Nat) (s : State) : (Act.apply (.clock n) s).clock = max s.clock n := rfl
@[simp] theorem apply_clock_focus (n : Nat) (s : State) : (Act.apply (.clock n) s).focus = s.focus := rfl
@[simp] theorem apply_clock_homes (n : Nat) (s : State) : (Act.apply (.clock n) s).homes = s.homes := rfl
@[simp] theorem apply_clock_memStacks (n : Nat) (s : State) : (Act.apply (.clock n) s).memStacks = s.memStacks := rfl
@[simp] theorem apply_clock_stones (n : Nat) (s : State) : (Act.apply (.clock n) s).stones = s.stones := rfl
@[simp] theorem apply_clock_jobs (n : Nat) (s : State) : (Act.apply (.clock n) s).jobs = s.jobs := rfl
@[simp] theorem apply_clock_faults (n : Nat) (s : State) : (Act.apply (.clock n) s).faults = s.faults := rfl
@[simp] theorem apply_clock_invals (n : Nat) (s : State) : (Act.apply (.clock n) s).invals = s.invals := rfl
@[simp] theorem apply_clock_hub (n : Nat) (s : State) : (Act.apply (.clock n) s).hub = s.hub := rfl
@[simp] theorem apply_clock_agenda (n : Nat) (s : State) : (Act.apply (.clock n) s).agenda = s.agenda := rfl

/-! ### `focus` -/

@[simp] theorem apply_focus_mem (c : Fin 256) (s : State) : (Act.apply (.focus c) s).mem = s.mem := rfl
@[simp] theorem apply_focus_empties (c : Fin 256) (s : State) : (Act.apply (.focus c) s).empties = s.empties := rfl
@[simp] theorem apply_focus_poisoned (c : Fin 256) (s : State) : (Act.apply (.focus c) s).poisoned = s.poisoned := rfl
@[simp] theorem apply_focus_cores (c : Fin 256) (s : State) : (Act.apply (.focus c) s).cores = s.cores := rfl
@[simp] theorem apply_focus_banks (c : Fin 256) (s : State) : (Act.apply (.focus c) s).banks = s.banks := rfl
@[simp] theorem apply_focus_quads (c : Fin 256) (s : State) : (Act.apply (.focus c) s).quads = s.quads := rfl
@[simp] theorem apply_focus_parts (c : Fin 256) (s : State) : (Act.apply (.focus c) s).parts = s.parts := rfl
@[simp] theorem apply_focus_dies (c : Fin 256) (s : State) : (Act.apply (.focus c) s).dies = s.dies := rfl
@[simp] theorem apply_focus_tiles (c : Fin 256) (s : State) : (Act.apply (.focus c) s).tiles = s.tiles := rfl
@[simp] theorem apply_focus_barriers (c : Fin 256) (s : State) : (Act.apply (.focus c) s).barriers = s.barriers := rfl
@[simp] theorem apply_focus_releases (c : Fin 256) (s : State) : (Act.apply (.focus c) s).releases = s.releases := rfl
@[simp] theorem apply_focus_spawned (c : Fin 256) (s : State) : (Act.apply (.focus c) s).spawned = s.spawned := rfl
@[simp] theorem apply_focus_reports (c : Fin 256) (s : State) : (Act.apply (.focus c) s).reports = s.reports := rfl
@[simp] theorem apply_focus_nextId (c : Fin 256) (s : State) : (Act.apply (.focus c) s).nextId = s.nextId := rfl
@[simp] theorem apply_focus_free (c : Fin 256) (s : State) : (Act.apply (.focus c) s).free = s.free := rfl
@[simp] theorem apply_focus_clock (c : Fin 256) (s : State) : (Act.apply (.focus c) s).clock = s.clock := rfl
@[simp] theorem apply_focus_focus (c : Fin 256) (s : State) : (Act.apply (.focus c) s).focus = c := rfl
@[simp] theorem apply_focus_homes (c : Fin 256) (s : State) : (Act.apply (.focus c) s).homes = s.homes := rfl
@[simp] theorem apply_focus_memStacks (c : Fin 256) (s : State) : (Act.apply (.focus c) s).memStacks = s.memStacks := rfl
@[simp] theorem apply_focus_stones (c : Fin 256) (s : State) : (Act.apply (.focus c) s).stones = s.stones := rfl
@[simp] theorem apply_focus_jobs (c : Fin 256) (s : State) : (Act.apply (.focus c) s).jobs = s.jobs := rfl
@[simp] theorem apply_focus_faults (c : Fin 256) (s : State) : (Act.apply (.focus c) s).faults = s.faults := rfl
@[simp] theorem apply_focus_invals (c : Fin 256) (s : State) : (Act.apply (.focus c) s).invals = s.invals := rfl
@[simp] theorem apply_focus_hub (c : Fin 256) (s : State) : (Act.apply (.focus c) s).hub = s.hub := rfl
@[simp] theorem apply_focus_agenda (c : Fin 256) (s : State) : (Act.apply (.focus c) s).agenda = s.agenda := rfl

/-! ### `home` -/

@[simp] theorem apply_home_mem (h : Fin 512) (f : HomeSt → HomeSt) (s : State) : (Act.apply (.home h f) s).mem = s.mem := rfl
@[simp] theorem apply_home_empties (h : Fin 512) (f : HomeSt → HomeSt) (s : State) : (Act.apply (.home h f) s).empties = s.empties := rfl
@[simp] theorem apply_home_poisoned (h : Fin 512) (f : HomeSt → HomeSt) (s : State) : (Act.apply (.home h f) s).poisoned = s.poisoned := rfl
@[simp] theorem apply_home_cores (h : Fin 512) (f : HomeSt → HomeSt) (s : State) : (Act.apply (.home h f) s).cores = s.cores := rfl
@[simp] theorem apply_home_banks (h : Fin 512) (f : HomeSt → HomeSt) (s : State) : (Act.apply (.home h f) s).banks = s.banks := rfl
@[simp] theorem apply_home_quads (h : Fin 512) (f : HomeSt → HomeSt) (s : State) : (Act.apply (.home h f) s).quads = s.quads := rfl
@[simp] theorem apply_home_parts (h : Fin 512) (f : HomeSt → HomeSt) (s : State) : (Act.apply (.home h f) s).parts = s.parts := rfl
@[simp] theorem apply_home_dies (h : Fin 512) (f : HomeSt → HomeSt) (s : State) : (Act.apply (.home h f) s).dies = s.dies := rfl
@[simp] theorem apply_home_tiles (h : Fin 512) (f : HomeSt → HomeSt) (s : State) : (Act.apply (.home h f) s).tiles = s.tiles := rfl
@[simp] theorem apply_home_barriers (h : Fin 512) (f : HomeSt → HomeSt) (s : State) : (Act.apply (.home h f) s).barriers = s.barriers := rfl
@[simp] theorem apply_home_releases (h : Fin 512) (f : HomeSt → HomeSt) (s : State) : (Act.apply (.home h f) s).releases = s.releases := rfl
@[simp] theorem apply_home_spawned (h : Fin 512) (f : HomeSt → HomeSt) (s : State) : (Act.apply (.home h f) s).spawned = s.spawned := rfl
@[simp] theorem apply_home_reports (h : Fin 512) (f : HomeSt → HomeSt) (s : State) : (Act.apply (.home h f) s).reports = s.reports := rfl
@[simp] theorem apply_home_nextId (h : Fin 512) (f : HomeSt → HomeSt) (s : State) : (Act.apply (.home h f) s).nextId = s.nextId := rfl
@[simp] theorem apply_home_free (h : Fin 512) (f : HomeSt → HomeSt) (s : State) : (Act.apply (.home h f) s).free = s.free := rfl
@[simp] theorem apply_home_clock (h : Fin 512) (f : HomeSt → HomeSt) (s : State) : (Act.apply (.home h f) s).clock = s.clock := rfl
@[simp] theorem apply_home_focus (h : Fin 512) (f : HomeSt → HomeSt) (s : State) : (Act.apply (.home h f) s).focus = s.focus := rfl
@[simp] theorem apply_home_homes (h : Fin 512) (f : HomeSt → HomeSt) (s : State) : (Act.apply (.home h f) s).homes = vset s.homes h (f s.homes[h]) := rfl
@[simp] theorem apply_home_memStacks (h : Fin 512) (f : HomeSt → HomeSt) (s : State) : (Act.apply (.home h f) s).memStacks = s.memStacks := rfl
@[simp] theorem apply_home_stones (h : Fin 512) (f : HomeSt → HomeSt) (s : State) : (Act.apply (.home h f) s).stones = s.stones := rfl
@[simp] theorem apply_home_jobs (h : Fin 512) (f : HomeSt → HomeSt) (s : State) : (Act.apply (.home h f) s).jobs = s.jobs := rfl
@[simp] theorem apply_home_faults (h : Fin 512) (f : HomeSt → HomeSt) (s : State) : (Act.apply (.home h f) s).faults = s.faults := rfl
@[simp] theorem apply_home_invals (h : Fin 512) (f : HomeSt → HomeSt) (s : State) : (Act.apply (.home h f) s).invals = s.invals := rfl
@[simp] theorem apply_home_hub (h : Fin 512) (f : HomeSt → HomeSt) (s : State) : (Act.apply (.home h f) s).hub = s.hub := rfl
@[simp] theorem apply_home_agenda (h : Fin 512) (f : HomeSt → HomeSt) (s : State) : (Act.apply (.home h f) s).agenda = s.agenda := rfl

/-! ### `stack` -/

@[simp] theorem apply_stack_mem (x : Fin 8) (f : StackSt → StackSt) (s : State) : (Act.apply (.stack x f) s).mem = s.mem := rfl
@[simp] theorem apply_stack_empties (x : Fin 8) (f : StackSt → StackSt) (s : State) : (Act.apply (.stack x f) s).empties = s.empties := rfl
@[simp] theorem apply_stack_poisoned (x : Fin 8) (f : StackSt → StackSt) (s : State) : (Act.apply (.stack x f) s).poisoned = s.poisoned := rfl
@[simp] theorem apply_stack_cores (x : Fin 8) (f : StackSt → StackSt) (s : State) : (Act.apply (.stack x f) s).cores = s.cores := rfl
@[simp] theorem apply_stack_banks (x : Fin 8) (f : StackSt → StackSt) (s : State) : (Act.apply (.stack x f) s).banks = s.banks := rfl
@[simp] theorem apply_stack_quads (x : Fin 8) (f : StackSt → StackSt) (s : State) : (Act.apply (.stack x f) s).quads = s.quads := rfl
@[simp] theorem apply_stack_parts (x : Fin 8) (f : StackSt → StackSt) (s : State) : (Act.apply (.stack x f) s).parts = s.parts := rfl
@[simp] theorem apply_stack_dies (x : Fin 8) (f : StackSt → StackSt) (s : State) : (Act.apply (.stack x f) s).dies = s.dies := rfl
@[simp] theorem apply_stack_tiles (x : Fin 8) (f : StackSt → StackSt) (s : State) : (Act.apply (.stack x f) s).tiles = s.tiles := rfl
@[simp] theorem apply_stack_barriers (x : Fin 8) (f : StackSt → StackSt) (s : State) : (Act.apply (.stack x f) s).barriers = s.barriers := rfl
@[simp] theorem apply_stack_releases (x : Fin 8) (f : StackSt → StackSt) (s : State) : (Act.apply (.stack x f) s).releases = s.releases := rfl
@[simp] theorem apply_stack_spawned (x : Fin 8) (f : StackSt → StackSt) (s : State) : (Act.apply (.stack x f) s).spawned = s.spawned := rfl
@[simp] theorem apply_stack_reports (x : Fin 8) (f : StackSt → StackSt) (s : State) : (Act.apply (.stack x f) s).reports = s.reports := rfl
@[simp] theorem apply_stack_nextId (x : Fin 8) (f : StackSt → StackSt) (s : State) : (Act.apply (.stack x f) s).nextId = s.nextId := rfl
@[simp] theorem apply_stack_free (x : Fin 8) (f : StackSt → StackSt) (s : State) : (Act.apply (.stack x f) s).free = s.free := rfl
@[simp] theorem apply_stack_clock (x : Fin 8) (f : StackSt → StackSt) (s : State) : (Act.apply (.stack x f) s).clock = s.clock := rfl
@[simp] theorem apply_stack_focus (x : Fin 8) (f : StackSt → StackSt) (s : State) : (Act.apply (.stack x f) s).focus = s.focus := rfl
@[simp] theorem apply_stack_homes (x : Fin 8) (f : StackSt → StackSt) (s : State) : (Act.apply (.stack x f) s).homes = s.homes := rfl
@[simp] theorem apply_stack_memStacks (x : Fin 8) (f : StackSt → StackSt) (s : State) : (Act.apply (.stack x f) s).memStacks = vset s.memStacks x (f s.memStacks[x]) := rfl
@[simp] theorem apply_stack_stones (x : Fin 8) (f : StackSt → StackSt) (s : State) : (Act.apply (.stack x f) s).stones = s.stones := rfl
@[simp] theorem apply_stack_jobs (x : Fin 8) (f : StackSt → StackSt) (s : State) : (Act.apply (.stack x f) s).jobs = s.jobs := rfl
@[simp] theorem apply_stack_faults (x : Fin 8) (f : StackSt → StackSt) (s : State) : (Act.apply (.stack x f) s).faults = s.faults := rfl
@[simp] theorem apply_stack_invals (x : Fin 8) (f : StackSt → StackSt) (s : State) : (Act.apply (.stack x f) s).invals = s.invals := rfl
@[simp] theorem apply_stack_hub (x : Fin 8) (f : StackSt → StackSt) (s : State) : (Act.apply (.stack x f) s).hub = s.hub := rfl
@[simp] theorem apply_stack_agenda (x : Fin 8) (f : StackSt → StackSt) (s : State) : (Act.apply (.stack x f) s).agenda = s.agenda := rfl

/-! ### `stone` -/

@[simp] theorem apply_stone_mem (x : Fin 64) (f : StoneSt → StoneSt) (s : State) : (Act.apply (.stone x f) s).mem = s.mem := rfl
@[simp] theorem apply_stone_empties (x : Fin 64) (f : StoneSt → StoneSt) (s : State) : (Act.apply (.stone x f) s).empties = s.empties := rfl
@[simp] theorem apply_stone_poisoned (x : Fin 64) (f : StoneSt → StoneSt) (s : State) : (Act.apply (.stone x f) s).poisoned = s.poisoned := rfl
@[simp] theorem apply_stone_cores (x : Fin 64) (f : StoneSt → StoneSt) (s : State) : (Act.apply (.stone x f) s).cores = s.cores := rfl
@[simp] theorem apply_stone_banks (x : Fin 64) (f : StoneSt → StoneSt) (s : State) : (Act.apply (.stone x f) s).banks = s.banks := rfl
@[simp] theorem apply_stone_quads (x : Fin 64) (f : StoneSt → StoneSt) (s : State) : (Act.apply (.stone x f) s).quads = s.quads := rfl
@[simp] theorem apply_stone_parts (x : Fin 64) (f : StoneSt → StoneSt) (s : State) : (Act.apply (.stone x f) s).parts = s.parts := rfl
@[simp] theorem apply_stone_dies (x : Fin 64) (f : StoneSt → StoneSt) (s : State) : (Act.apply (.stone x f) s).dies = s.dies := rfl
@[simp] theorem apply_stone_tiles (x : Fin 64) (f : StoneSt → StoneSt) (s : State) : (Act.apply (.stone x f) s).tiles = s.tiles := rfl
@[simp] theorem apply_stone_barriers (x : Fin 64) (f : StoneSt → StoneSt) (s : State) : (Act.apply (.stone x f) s).barriers = s.barriers := rfl
@[simp] theorem apply_stone_releases (x : Fin 64) (f : StoneSt → StoneSt) (s : State) : (Act.apply (.stone x f) s).releases = s.releases := rfl
@[simp] theorem apply_stone_spawned (x : Fin 64) (f : StoneSt → StoneSt) (s : State) : (Act.apply (.stone x f) s).spawned = s.spawned := rfl
@[simp] theorem apply_stone_reports (x : Fin 64) (f : StoneSt → StoneSt) (s : State) : (Act.apply (.stone x f) s).reports = s.reports := rfl
@[simp] theorem apply_stone_nextId (x : Fin 64) (f : StoneSt → StoneSt) (s : State) : (Act.apply (.stone x f) s).nextId = s.nextId := rfl
@[simp] theorem apply_stone_free (x : Fin 64) (f : StoneSt → StoneSt) (s : State) : (Act.apply (.stone x f) s).free = s.free := rfl
@[simp] theorem apply_stone_clock (x : Fin 64) (f : StoneSt → StoneSt) (s : State) : (Act.apply (.stone x f) s).clock = s.clock := rfl
@[simp] theorem apply_stone_focus (x : Fin 64) (f : StoneSt → StoneSt) (s : State) : (Act.apply (.stone x f) s).focus = s.focus := rfl
@[simp] theorem apply_stone_homes (x : Fin 64) (f : StoneSt → StoneSt) (s : State) : (Act.apply (.stone x f) s).homes = s.homes := rfl
@[simp] theorem apply_stone_memStacks (x : Fin 64) (f : StoneSt → StoneSt) (s : State) : (Act.apply (.stone x f) s).memStacks = s.memStacks := rfl
@[simp] theorem apply_stone_stones (x : Fin 64) (f : StoneSt → StoneSt) (s : State) : (Act.apply (.stone x f) s).stones = vset s.stones x (f s.stones[x]) := rfl
@[simp] theorem apply_stone_jobs (x : Fin 64) (f : StoneSt → StoneSt) (s : State) : (Act.apply (.stone x f) s).jobs = s.jobs := rfl
@[simp] theorem apply_stone_faults (x : Fin 64) (f : StoneSt → StoneSt) (s : State) : (Act.apply (.stone x f) s).faults = s.faults := rfl
@[simp] theorem apply_stone_invals (x : Fin 64) (f : StoneSt → StoneSt) (s : State) : (Act.apply (.stone x f) s).invals = s.invals := rfl
@[simp] theorem apply_stone_hub (x : Fin 64) (f : StoneSt → StoneSt) (s : State) : (Act.apply (.stone x f) s).hub = s.hub := rfl
@[simp] theorem apply_stone_agenda (x : Fin 64) (f : StoneSt → StoneSt) (s : State) : (Act.apply (.stone x f) s).agenda = s.agenda := rfl

/-! ### `jobs` -/

@[simp] theorem apply_jobs_mem (f : List Job → List Job) (s : State) : (Act.apply (.jobs f) s).mem = s.mem := rfl
@[simp] theorem apply_jobs_empties (f : List Job → List Job) (s : State) : (Act.apply (.jobs f) s).empties = s.empties := rfl
@[simp] theorem apply_jobs_poisoned (f : List Job → List Job) (s : State) : (Act.apply (.jobs f) s).poisoned = s.poisoned := rfl
@[simp] theorem apply_jobs_cores (f : List Job → List Job) (s : State) : (Act.apply (.jobs f) s).cores = s.cores := rfl
@[simp] theorem apply_jobs_banks (f : List Job → List Job) (s : State) : (Act.apply (.jobs f) s).banks = s.banks := rfl
@[simp] theorem apply_jobs_quads (f : List Job → List Job) (s : State) : (Act.apply (.jobs f) s).quads = s.quads := rfl
@[simp] theorem apply_jobs_parts (f : List Job → List Job) (s : State) : (Act.apply (.jobs f) s).parts = s.parts := rfl
@[simp] theorem apply_jobs_dies (f : List Job → List Job) (s : State) : (Act.apply (.jobs f) s).dies = s.dies := rfl
@[simp] theorem apply_jobs_tiles (f : List Job → List Job) (s : State) : (Act.apply (.jobs f) s).tiles = s.tiles := rfl
@[simp] theorem apply_jobs_barriers (f : List Job → List Job) (s : State) : (Act.apply (.jobs f) s).barriers = s.barriers := rfl
@[simp] theorem apply_jobs_releases (f : List Job → List Job) (s : State) : (Act.apply (.jobs f) s).releases = s.releases := rfl
@[simp] theorem apply_jobs_spawned (f : List Job → List Job) (s : State) : (Act.apply (.jobs f) s).spawned = s.spawned := rfl
@[simp] theorem apply_jobs_reports (f : List Job → List Job) (s : State) : (Act.apply (.jobs f) s).reports = s.reports := rfl
@[simp] theorem apply_jobs_nextId (f : List Job → List Job) (s : State) : (Act.apply (.jobs f) s).nextId = s.nextId := rfl
@[simp] theorem apply_jobs_free (f : List Job → List Job) (s : State) : (Act.apply (.jobs f) s).free = s.free := rfl
@[simp] theorem apply_jobs_clock (f : List Job → List Job) (s : State) : (Act.apply (.jobs f) s).clock = s.clock := rfl
@[simp] theorem apply_jobs_focus (f : List Job → List Job) (s : State) : (Act.apply (.jobs f) s).focus = s.focus := rfl
@[simp] theorem apply_jobs_homes (f : List Job → List Job) (s : State) : (Act.apply (.jobs f) s).homes = s.homes := rfl
@[simp] theorem apply_jobs_memStacks (f : List Job → List Job) (s : State) : (Act.apply (.jobs f) s).memStacks = s.memStacks := rfl
@[simp] theorem apply_jobs_stones (f : List Job → List Job) (s : State) : (Act.apply (.jobs f) s).stones = s.stones := rfl
@[simp] theorem apply_jobs_jobs (f : List Job → List Job) (s : State) : (Act.apply (.jobs f) s).jobs = f s.jobs := rfl
@[simp] theorem apply_jobs_faults (f : List Job → List Job) (s : State) : (Act.apply (.jobs f) s).faults = s.faults := rfl
@[simp] theorem apply_jobs_invals (f : List Job → List Job) (s : State) : (Act.apply (.jobs f) s).invals = s.invals := rfl
@[simp] theorem apply_jobs_hub (f : List Job → List Job) (s : State) : (Act.apply (.jobs f) s).hub = s.hub := rfl
@[simp] theorem apply_jobs_agenda (f : List Job → List Job) (s : State) : (Act.apply (.jobs f) s).agenda = s.agenda := rfl

/-! ### `faults` -/

@[simp] theorem apply_faults_mem (f : List PagerFault → List PagerFault) (s : State) : (Act.apply (.faults f) s).mem = s.mem := rfl
@[simp] theorem apply_faults_empties (f : List PagerFault → List PagerFault) (s : State) : (Act.apply (.faults f) s).empties = s.empties := rfl
@[simp] theorem apply_faults_poisoned (f : List PagerFault → List PagerFault) (s : State) : (Act.apply (.faults f) s).poisoned = s.poisoned := rfl
@[simp] theorem apply_faults_cores (f : List PagerFault → List PagerFault) (s : State) : (Act.apply (.faults f) s).cores = s.cores := rfl
@[simp] theorem apply_faults_banks (f : List PagerFault → List PagerFault) (s : State) : (Act.apply (.faults f) s).banks = s.banks := rfl
@[simp] theorem apply_faults_quads (f : List PagerFault → List PagerFault) (s : State) : (Act.apply (.faults f) s).quads = s.quads := rfl
@[simp] theorem apply_faults_parts (f : List PagerFault → List PagerFault) (s : State) : (Act.apply (.faults f) s).parts = s.parts := rfl
@[simp] theorem apply_faults_dies (f : List PagerFault → List PagerFault) (s : State) : (Act.apply (.faults f) s).dies = s.dies := rfl
@[simp] theorem apply_faults_tiles (f : List PagerFault → List PagerFault) (s : State) : (Act.apply (.faults f) s).tiles = s.tiles := rfl
@[simp] theorem apply_faults_barriers (f : List PagerFault → List PagerFault) (s : State) : (Act.apply (.faults f) s).barriers = s.barriers := rfl
@[simp] theorem apply_faults_releases (f : List PagerFault → List PagerFault) (s : State) : (Act.apply (.faults f) s).releases = s.releases := rfl
@[simp] theorem apply_faults_spawned (f : List PagerFault → List PagerFault) (s : State) : (Act.apply (.faults f) s).spawned = s.spawned := rfl
@[simp] theorem apply_faults_reports (f : List PagerFault → List PagerFault) (s : State) : (Act.apply (.faults f) s).reports = s.reports := rfl
@[simp] theorem apply_faults_nextId (f : List PagerFault → List PagerFault) (s : State) : (Act.apply (.faults f) s).nextId = s.nextId := rfl
@[simp] theorem apply_faults_free (f : List PagerFault → List PagerFault) (s : State) : (Act.apply (.faults f) s).free = s.free := rfl
@[simp] theorem apply_faults_clock (f : List PagerFault → List PagerFault) (s : State) : (Act.apply (.faults f) s).clock = s.clock := rfl
@[simp] theorem apply_faults_focus (f : List PagerFault → List PagerFault) (s : State) : (Act.apply (.faults f) s).focus = s.focus := rfl
@[simp] theorem apply_faults_homes (f : List PagerFault → List PagerFault) (s : State) : (Act.apply (.faults f) s).homes = s.homes := rfl
@[simp] theorem apply_faults_memStacks (f : List PagerFault → List PagerFault) (s : State) : (Act.apply (.faults f) s).memStacks = s.memStacks := rfl
@[simp] theorem apply_faults_stones (f : List PagerFault → List PagerFault) (s : State) : (Act.apply (.faults f) s).stones = s.stones := rfl
@[simp] theorem apply_faults_jobs (f : List PagerFault → List PagerFault) (s : State) : (Act.apply (.faults f) s).jobs = s.jobs := rfl
@[simp] theorem apply_faults_faults (f : List PagerFault → List PagerFault) (s : State) : (Act.apply (.faults f) s).faults = f s.faults := rfl
@[simp] theorem apply_faults_invals (f : List PagerFault → List PagerFault) (s : State) : (Act.apply (.faults f) s).invals = s.invals := rfl
@[simp] theorem apply_faults_hub (f : List PagerFault → List PagerFault) (s : State) : (Act.apply (.faults f) s).hub = s.hub := rfl
@[simp] theorem apply_faults_agenda (f : List PagerFault → List PagerFault) (s : State) : (Act.apply (.faults f) s).agenda = s.agenda := rfl

/-! ### `invals` -/

@[simp] theorem apply_invals_mem (f : List Inval → List Inval) (s : State) : (Act.apply (.invals f) s).mem = s.mem := rfl
@[simp] theorem apply_invals_empties (f : List Inval → List Inval) (s : State) : (Act.apply (.invals f) s).empties = s.empties := rfl
@[simp] theorem apply_invals_poisoned (f : List Inval → List Inval) (s : State) : (Act.apply (.invals f) s).poisoned = s.poisoned := rfl
@[simp] theorem apply_invals_cores (f : List Inval → List Inval) (s : State) : (Act.apply (.invals f) s).cores = s.cores := rfl
@[simp] theorem apply_invals_banks (f : List Inval → List Inval) (s : State) : (Act.apply (.invals f) s).banks = s.banks := rfl
@[simp] theorem apply_invals_quads (f : List Inval → List Inval) (s : State) : (Act.apply (.invals f) s).quads = s.quads := rfl
@[simp] theorem apply_invals_parts (f : List Inval → List Inval) (s : State) : (Act.apply (.invals f) s).parts = s.parts := rfl
@[simp] theorem apply_invals_dies (f : List Inval → List Inval) (s : State) : (Act.apply (.invals f) s).dies = s.dies := rfl
@[simp] theorem apply_invals_tiles (f : List Inval → List Inval) (s : State) : (Act.apply (.invals f) s).tiles = s.tiles := rfl
@[simp] theorem apply_invals_barriers (f : List Inval → List Inval) (s : State) : (Act.apply (.invals f) s).barriers = s.barriers := rfl
@[simp] theorem apply_invals_releases (f : List Inval → List Inval) (s : State) : (Act.apply (.invals f) s).releases = s.releases := rfl
@[simp] theorem apply_invals_spawned (f : List Inval → List Inval) (s : State) : (Act.apply (.invals f) s).spawned = s.spawned := rfl
@[simp] theorem apply_invals_reports (f : List Inval → List Inval) (s : State) : (Act.apply (.invals f) s).reports = s.reports := rfl
@[simp] theorem apply_invals_nextId (f : List Inval → List Inval) (s : State) : (Act.apply (.invals f) s).nextId = s.nextId := rfl
@[simp] theorem apply_invals_free (f : List Inval → List Inval) (s : State) : (Act.apply (.invals f) s).free = s.free := rfl
@[simp] theorem apply_invals_clock (f : List Inval → List Inval) (s : State) : (Act.apply (.invals f) s).clock = s.clock := rfl
@[simp] theorem apply_invals_focus (f : List Inval → List Inval) (s : State) : (Act.apply (.invals f) s).focus = s.focus := rfl
@[simp] theorem apply_invals_homes (f : List Inval → List Inval) (s : State) : (Act.apply (.invals f) s).homes = s.homes := rfl
@[simp] theorem apply_invals_memStacks (f : List Inval → List Inval) (s : State) : (Act.apply (.invals f) s).memStacks = s.memStacks := rfl
@[simp] theorem apply_invals_stones (f : List Inval → List Inval) (s : State) : (Act.apply (.invals f) s).stones = s.stones := rfl
@[simp] theorem apply_invals_jobs (f : List Inval → List Inval) (s : State) : (Act.apply (.invals f) s).jobs = s.jobs := rfl
@[simp] theorem apply_invals_faults (f : List Inval → List Inval) (s : State) : (Act.apply (.invals f) s).faults = s.faults := rfl
@[simp] theorem apply_invals_invals (f : List Inval → List Inval) (s : State) : (Act.apply (.invals f) s).invals = f s.invals := rfl
@[simp] theorem apply_invals_hub (f : List Inval → List Inval) (s : State) : (Act.apply (.invals f) s).hub = s.hub := rfl
@[simp] theorem apply_invals_agenda (f : List Inval → List Inval) (s : State) : (Act.apply (.invals f) s).agenda = s.agenda := rfl

/-! ### `hub` -/

@[simp] theorem apply_hub_mem (f : HubSt → HubSt) (s : State) : (Act.apply (.hub f) s).mem = s.mem := rfl
@[simp] theorem apply_hub_empties (f : HubSt → HubSt) (s : State) : (Act.apply (.hub f) s).empties = s.empties := rfl
@[simp] theorem apply_hub_poisoned (f : HubSt → HubSt) (s : State) : (Act.apply (.hub f) s).poisoned = s.poisoned := rfl
@[simp] theorem apply_hub_cores (f : HubSt → HubSt) (s : State) : (Act.apply (.hub f) s).cores = s.cores := rfl
@[simp] theorem apply_hub_banks (f : HubSt → HubSt) (s : State) : (Act.apply (.hub f) s).banks = s.banks := rfl
@[simp] theorem apply_hub_quads (f : HubSt → HubSt) (s : State) : (Act.apply (.hub f) s).quads = s.quads := rfl
@[simp] theorem apply_hub_parts (f : HubSt → HubSt) (s : State) : (Act.apply (.hub f) s).parts = s.parts := rfl
@[simp] theorem apply_hub_dies (f : HubSt → HubSt) (s : State) : (Act.apply (.hub f) s).dies = s.dies := rfl
@[simp] theorem apply_hub_tiles (f : HubSt → HubSt) (s : State) : (Act.apply (.hub f) s).tiles = s.tiles := rfl
@[simp] theorem apply_hub_barriers (f : HubSt → HubSt) (s : State) : (Act.apply (.hub f) s).barriers = s.barriers := rfl
@[simp] theorem apply_hub_releases (f : HubSt → HubSt) (s : State) : (Act.apply (.hub f) s).releases = s.releases := rfl
@[simp] theorem apply_hub_spawned (f : HubSt → HubSt) (s : State) : (Act.apply (.hub f) s).spawned = s.spawned := rfl
@[simp] theorem apply_hub_reports (f : HubSt → HubSt) (s : State) : (Act.apply (.hub f) s).reports = s.reports := rfl
@[simp] theorem apply_hub_nextId (f : HubSt → HubSt) (s : State) : (Act.apply (.hub f) s).nextId = s.nextId := rfl
@[simp] theorem apply_hub_free (f : HubSt → HubSt) (s : State) : (Act.apply (.hub f) s).free = s.free := rfl
@[simp] theorem apply_hub_clock (f : HubSt → HubSt) (s : State) : (Act.apply (.hub f) s).clock = s.clock := rfl
@[simp] theorem apply_hub_focus (f : HubSt → HubSt) (s : State) : (Act.apply (.hub f) s).focus = s.focus := rfl
@[simp] theorem apply_hub_homes (f : HubSt → HubSt) (s : State) : (Act.apply (.hub f) s).homes = s.homes := rfl
@[simp] theorem apply_hub_memStacks (f : HubSt → HubSt) (s : State) : (Act.apply (.hub f) s).memStacks = s.memStacks := rfl
@[simp] theorem apply_hub_stones (f : HubSt → HubSt) (s : State) : (Act.apply (.hub f) s).stones = s.stones := rfl
@[simp] theorem apply_hub_jobs (f : HubSt → HubSt) (s : State) : (Act.apply (.hub f) s).jobs = s.jobs := rfl
@[simp] theorem apply_hub_faults (f : HubSt → HubSt) (s : State) : (Act.apply (.hub f) s).faults = s.faults := rfl
@[simp] theorem apply_hub_invals (f : HubSt → HubSt) (s : State) : (Act.apply (.hub f) s).invals = s.invals := rfl
@[simp] theorem apply_hub_hub (f : HubSt → HubSt) (s : State) : (Act.apply (.hub f) s).hub = f s.hub := rfl
@[simp] theorem apply_hub_agenda (f : HubSt → HubSt) (s : State) : (Act.apply (.hub f) s).agenda = s.agenda := rfl

/-! ### `agenda` -/

@[simp] theorem apply_agenda_mem (f : List Turn → List Turn) (s : State) : (Act.apply (.agenda f) s).mem = s.mem := rfl
@[simp] theorem apply_agenda_empties (f : List Turn → List Turn) (s : State) : (Act.apply (.agenda f) s).empties = s.empties := rfl
@[simp] theorem apply_agenda_poisoned (f : List Turn → List Turn) (s : State) : (Act.apply (.agenda f) s).poisoned = s.poisoned := rfl
@[simp] theorem apply_agenda_cores (f : List Turn → List Turn) (s : State) : (Act.apply (.agenda f) s).cores = s.cores := rfl
@[simp] theorem apply_agenda_banks (f : List Turn → List Turn) (s : State) : (Act.apply (.agenda f) s).banks = s.banks := rfl
@[simp] theorem apply_agenda_quads (f : List Turn → List Turn) (s : State) : (Act.apply (.agenda f) s).quads = s.quads := rfl
@[simp] theorem apply_agenda_parts (f : List Turn → List Turn) (s : State) : (Act.apply (.agenda f) s).parts = s.parts := rfl
@[simp] theorem apply_agenda_dies (f : List Turn → List Turn) (s : State) : (Act.apply (.agenda f) s).dies = s.dies := rfl
@[simp] theorem apply_agenda_tiles (f : List Turn → List Turn) (s : State) : (Act.apply (.agenda f) s).tiles = s.tiles := rfl
@[simp] theorem apply_agenda_barriers (f : List Turn → List Turn) (s : State) : (Act.apply (.agenda f) s).barriers = s.barriers := rfl
@[simp] theorem apply_agenda_releases (f : List Turn → List Turn) (s : State) : (Act.apply (.agenda f) s).releases = s.releases := rfl
@[simp] theorem apply_agenda_spawned (f : List Turn → List Turn) (s : State) : (Act.apply (.agenda f) s).spawned = s.spawned := rfl
@[simp] theorem apply_agenda_reports (f : List Turn → List Turn) (s : State) : (Act.apply (.agenda f) s).reports = s.reports := rfl
@[simp] theorem apply_agenda_nextId (f : List Turn → List Turn) (s : State) : (Act.apply (.agenda f) s).nextId = s.nextId := rfl
@[simp] theorem apply_agenda_free (f : List Turn → List Turn) (s : State) : (Act.apply (.agenda f) s).free = s.free := rfl
@[simp] theorem apply_agenda_clock (f : List Turn → List Turn) (s : State) : (Act.apply (.agenda f) s).clock = s.clock := rfl
@[simp] theorem apply_agenda_focus (f : List Turn → List Turn) (s : State) : (Act.apply (.agenda f) s).focus = s.focus := rfl
@[simp] theorem apply_agenda_homes (f : List Turn → List Turn) (s : State) : (Act.apply (.agenda f) s).homes = s.homes := rfl
@[simp] theorem apply_agenda_memStacks (f : List Turn → List Turn) (s : State) : (Act.apply (.agenda f) s).memStacks = s.memStacks := rfl
@[simp] theorem apply_agenda_stones (f : List Turn → List Turn) (s : State) : (Act.apply (.agenda f) s).stones = s.stones := rfl
@[simp] theorem apply_agenda_jobs (f : List Turn → List Turn) (s : State) : (Act.apply (.agenda f) s).jobs = s.jobs := rfl
@[simp] theorem apply_agenda_faults (f : List Turn → List Turn) (s : State) : (Act.apply (.agenda f) s).faults = s.faults := rfl
@[simp] theorem apply_agenda_invals (f : List Turn → List Turn) (s : State) : (Act.apply (.agenda f) s).invals = s.invals := rfl
@[simp] theorem apply_agenda_hub (f : List Turn → List Turn) (s : State) : (Act.apply (.agenda f) s).hub = s.hub := rfl
@[simp] theorem apply_agenda_agenda (f : List Turn → List Turn) (s : State) : (Act.apply (.agenda f) s).agenda = f s.agenda := rfl

/-! ### `wipe` -/

@[simp] theorem apply_wipe_mem (lo hi : Nat) (s : State) : (Act.apply (.wipe lo hi) s).mem = s.mem.filter fun x => x.1 < lo || hi ≤ x.1 := rfl
@[simp] theorem apply_wipe_empties (lo hi : Nat) (s : State) : (Act.apply (.wipe lo hi) s).empties = s.empties.filter fun w => w * 4 < lo || hi ≤ w * 4 := rfl
@[simp] theorem apply_wipe_poisoned (lo hi : Nat) (s : State) : (Act.apply (.wipe lo hi) s).poisoned = s.poisoned.filter fun n => n * 32 < lo || hi ≤ n * 32 := rfl
@[simp] theorem apply_wipe_cores (lo hi : Nat) (s : State) : (Act.apply (.wipe lo hi) s).cores = s.cores := rfl
@[simp] theorem apply_wipe_banks (lo hi : Nat) (s : State) : (Act.apply (.wipe lo hi) s).banks = s.banks := rfl
@[simp] theorem apply_wipe_quads (lo hi : Nat) (s : State) : (Act.apply (.wipe lo hi) s).quads = s.quads := rfl
@[simp] theorem apply_wipe_parts (lo hi : Nat) (s : State) : (Act.apply (.wipe lo hi) s).parts = s.parts := rfl
@[simp] theorem apply_wipe_dies (lo hi : Nat) (s : State) : (Act.apply (.wipe lo hi) s).dies = s.dies := rfl
@[simp] theorem apply_wipe_tiles (lo hi : Nat) (s : State) : (Act.apply (.wipe lo hi) s).tiles = s.tiles := rfl
@[simp] theorem apply_wipe_barriers (lo hi : Nat) (s : State) : (Act.apply (.wipe lo hi) s).barriers = s.barriers := rfl
@[simp] theorem apply_wipe_releases (lo hi : Nat) (s : State) : (Act.apply (.wipe lo hi) s).releases = s.releases := rfl
@[simp] theorem apply_wipe_spawned (lo hi : Nat) (s : State) : (Act.apply (.wipe lo hi) s).spawned = s.spawned := rfl
@[simp] theorem apply_wipe_reports (lo hi : Nat) (s : State) : (Act.apply (.wipe lo hi) s).reports = s.reports := rfl
@[simp] theorem apply_wipe_nextId (lo hi : Nat) (s : State) : (Act.apply (.wipe lo hi) s).nextId = s.nextId := rfl
@[simp] theorem apply_wipe_free (lo hi : Nat) (s : State) : (Act.apply (.wipe lo hi) s).free = s.free := rfl
@[simp] theorem apply_wipe_clock (lo hi : Nat) (s : State) : (Act.apply (.wipe lo hi) s).clock = s.clock := rfl
@[simp] theorem apply_wipe_focus (lo hi : Nat) (s : State) : (Act.apply (.wipe lo hi) s).focus = s.focus := rfl
@[simp] theorem apply_wipe_homes (lo hi : Nat) (s : State) : (Act.apply (.wipe lo hi) s).homes = s.homes := rfl
@[simp] theorem apply_wipe_memStacks (lo hi : Nat) (s : State) : (Act.apply (.wipe lo hi) s).memStacks = s.memStacks := rfl
@[simp] theorem apply_wipe_stones (lo hi : Nat) (s : State) : (Act.apply (.wipe lo hi) s).stones = s.stones := rfl
@[simp] theorem apply_wipe_jobs (lo hi : Nat) (s : State) : (Act.apply (.wipe lo hi) s).jobs = s.jobs := rfl
@[simp] theorem apply_wipe_faults (lo hi : Nat) (s : State) : (Act.apply (.wipe lo hi) s).faults = s.faults := rfl
@[simp] theorem apply_wipe_invals (lo hi : Nat) (s : State) : (Act.apply (.wipe lo hi) s).invals = s.invals := rfl
@[simp] theorem apply_wipe_hub (lo hi : Nat) (s : State) : (Act.apply (.wipe lo hi) s).hub = s.hub := rfl
@[simp] theorem apply_wipe_agenda (lo hi : Nat) (s : State) : (Act.apply (.wipe lo hi) s).agenda = s.agenda := rfl

/-! ### `popAgenda` -/

@[simp] theorem popAgenda_mem (s : State) : s.popAgenda.mem = s.mem := rfl
@[simp] theorem popAgenda_empties (s : State) : s.popAgenda.empties = s.empties := rfl
@[simp] theorem popAgenda_poisoned (s : State) : s.popAgenda.poisoned = s.poisoned := rfl
@[simp] theorem popAgenda_cores (s : State) : s.popAgenda.cores = s.cores := rfl
@[simp] theorem popAgenda_banks (s : State) : s.popAgenda.banks = s.banks := rfl
@[simp] theorem popAgenda_quads (s : State) : s.popAgenda.quads = s.quads := rfl
@[simp] theorem popAgenda_parts (s : State) : s.popAgenda.parts = s.parts := rfl
@[simp] theorem popAgenda_dies (s : State) : s.popAgenda.dies = s.dies := rfl
@[simp] theorem popAgenda_tiles (s : State) : s.popAgenda.tiles = s.tiles := rfl
@[simp] theorem popAgenda_barriers (s : State) : s.popAgenda.barriers = s.barriers := rfl
@[simp] theorem popAgenda_releases (s : State) : s.popAgenda.releases = s.releases := rfl
@[simp] theorem popAgenda_spawned (s : State) : s.popAgenda.spawned = s.spawned := rfl
@[simp] theorem popAgenda_reports (s : State) : s.popAgenda.reports = s.reports := rfl
@[simp] theorem popAgenda_nextId (s : State) : s.popAgenda.nextId = s.nextId := rfl
@[simp] theorem popAgenda_free (s : State) : s.popAgenda.free = s.free := rfl
@[simp] theorem popAgenda_clock (s : State) : s.popAgenda.clock = s.clock := rfl
@[simp] theorem popAgenda_focus (s : State) : s.popAgenda.focus = s.focus := rfl
@[simp] theorem popAgenda_homes (s : State) : s.popAgenda.homes = s.homes := rfl
@[simp] theorem popAgenda_memStacks (s : State) : s.popAgenda.memStacks = s.memStacks := rfl
@[simp] theorem popAgenda_stones (s : State) : s.popAgenda.stones = s.stones := rfl
@[simp] theorem popAgenda_jobs (s : State) : s.popAgenda.jobs = s.jobs := rfl
@[simp] theorem popAgenda_faults (s : State) : s.popAgenda.faults = s.faults := rfl
@[simp] theorem popAgenda_invals (s : State) : s.popAgenda.invals = s.invals := rfl
@[simp] theorem popAgenda_hub (s : State) : s.popAgenda.hub = s.hub := rfl
@[simp] theorem popAgenda_agenda (s : State) : s.popAgenda.agenda = s.agenda.tail := rfl

/-! ### `withFocus` -/

@[simp] theorem withFocus_mem (c : Fin 256) (s : State) : (s.withFocus c).mem = s.mem := rfl
@[simp] theorem withFocus_empties (c : Fin 256) (s : State) : (s.withFocus c).empties = s.empties := rfl
@[simp] theorem withFocus_poisoned (c : Fin 256) (s : State) : (s.withFocus c).poisoned = s.poisoned := rfl
@[simp] theorem withFocus_cores (c : Fin 256) (s : State) : (s.withFocus c).cores = s.cores := rfl
@[simp] theorem withFocus_banks (c : Fin 256) (s : State) : (s.withFocus c).banks = s.banks := rfl
@[simp] theorem withFocus_quads (c : Fin 256) (s : State) : (s.withFocus c).quads = s.quads := rfl
@[simp] theorem withFocus_parts (c : Fin 256) (s : State) : (s.withFocus c).parts = s.parts := rfl
@[simp] theorem withFocus_dies (c : Fin 256) (s : State) : (s.withFocus c).dies = s.dies := rfl
@[simp] theorem withFocus_tiles (c : Fin 256) (s : State) : (s.withFocus c).tiles = s.tiles := rfl
@[simp] theorem withFocus_barriers (c : Fin 256) (s : State) : (s.withFocus c).barriers = s.barriers := rfl
@[simp] theorem withFocus_releases (c : Fin 256) (s : State) : (s.withFocus c).releases = s.releases := rfl
@[simp] theorem withFocus_spawned (c : Fin 256) (s : State) : (s.withFocus c).spawned = s.spawned := rfl
@[simp] theorem withFocus_reports (c : Fin 256) (s : State) : (s.withFocus c).reports = s.reports := rfl
@[simp] theorem withFocus_nextId (c : Fin 256) (s : State) : (s.withFocus c).nextId = s.nextId := rfl
@[simp] theorem withFocus_free (c : Fin 256) (s : State) : (s.withFocus c).free = s.free := rfl
@[simp] theorem withFocus_clock (c : Fin 256) (s : State) : (s.withFocus c).clock = s.clock := rfl
@[simp] theorem withFocus_focus (c : Fin 256) (s : State) : (s.withFocus c).focus = c := rfl
@[simp] theorem withFocus_homes (c : Fin 256) (s : State) : (s.withFocus c).homes = s.homes := rfl
@[simp] theorem withFocus_memStacks (c : Fin 256) (s : State) : (s.withFocus c).memStacks = s.memStacks := rfl
@[simp] theorem withFocus_stones (c : Fin 256) (s : State) : (s.withFocus c).stones = s.stones := rfl
@[simp] theorem withFocus_jobs (c : Fin 256) (s : State) : (s.withFocus c).jobs = s.jobs := rfl
@[simp] theorem withFocus_faults (c : Fin 256) (s : State) : (s.withFocus c).faults = s.faults := rfl
@[simp] theorem withFocus_invals (c : Fin 256) (s : State) : (s.withFocus c).invals = s.invals := rfl
@[simp] theorem withFocus_hub (c : Fin 256) (s : State) : (s.withFocus c).hub = s.hub := rfl
@[simp] theorem withFocus_agenda (c : Fin 256) (s : State) : (s.withFocus c).agenda = s.agenda := rfl

end Sys2Proof.Machine
end

