-- ==== Sys2Proof/Laws/Memory.lean ====
section
/-! SUPPORT. Memory: a byte reads as it was last written, and every update keeps memory and its two sets in canonical
form. -/

namespace Sys2Proof.Machine

/-! ### Reading after writing -/

/-- A byte written reads back. -/
@[simp] theorem memGet_memPut_same (m : List Host.Cell) (a : Nat) (v : Byte) (h : memWf m = true) :
    memGet (memPut m a v) a = v := by
  suffices H : ∀ (m : List Host.Cell) (lo : Nat), memWfFrom lo m = true → memGet (memPut m a v) a = v from H m 0 h
  intro m
  induction m with
  | nil =>
    intro lo _
    by_cases hv : v = unlisted <;> simp [memPut, memGet, hv]
  | cons x m ih =>
    obtain ⟨b, w⟩ := x
    intro lo hw
    simp only [memWfFrom, Bool.and_eq_true, decide_eq_true_eq] at hw
    have above : ∀ (l : List Host.Cell) (n : Nat), memWfFrom n l = true → a < n →
        l.find? (fun x => x.1 == a) = none := by
      intro l
      induction l with
      | nil => simp
      | cons y l ihl =>
        intro n hn ha
        obtain ⟨c, u⟩ := y
        simp only [memWfFrom, Bool.and_eq_true, decide_eq_true_eq] at hn
        rw [List.find?_cons_of_neg (by simp; omega)]
        exact ihl _ hn.2 (by omega)
    simp only [memPut]
    by_cases h1 : a < b
    · have hn := above m (b + 1) hw.2 (by omega)
      by_cases hv : v = unlisted
      · have : (b == a) = false := by simp; omega
        simp [h1, hv, memGet, this, hn]
      · simp [h1, hv, memGet]
    · by_cases h2 : a = b
      · subst h2
        have hn := above m (a + 1) hw.2 (by omega)
        by_cases hv : v = unlisted
        · simp [hv, memGet, hn]
        · simp [hv, memGet]
      · have : (b == a) = false := by simp; omega
        simp only [h1, h2, if_false]
        have := ih (b + 1) hw.2
        simpa [memGet, List.find?, ‹(b == a) = false›] using this

/-- Writing one byte leaves every other address as it reads. -/
@[simp] theorem memGet_memPut_other (m : List Host.Cell) (a b : Nat) (v : Byte) (h : b ≠ a) :
    memGet (memPut m a v) b = memGet m b := by
  induction m with
  | nil =>
    have h' : (a == b) = false := by simp; omega
    by_cases hv : v = unlisted <;> simp [memPut, memGet, hv, h']
  | cons x m ih =>
    obtain ⟨c, w⟩ := x
    have h' : (a == b) = false := by simp; omega
    simp only [memPut]
    by_cases h1 : a < c
    · by_cases hv : v = unlisted <;> simp [h1, hv, memGet, h']
    · by_cases h2 : a = c
      · subst h2
        by_cases hv : v = unlisted <;> simp [hv, memGet, h']
      · simp only [h1, h2, if_false]
        by_cases hc : c = b
        · subst hc; simp [memGet]
        · have hc' : (c == b) = false := by simp [hc]
          simpa [memGet, List.find?, hc'] using ih

/-! ### The canonical form -/

/-- Writing a byte at or above a bound keeps the form from that bound on. -/
theorem memPut_wfFrom (m : List Host.Cell) (a : Nat) (v : Byte) :
    ∀ lo, lo ≤ a → memWfFrom lo m = true → memWfFrom lo (memPut m a v) = true := by
  induction m with
  | nil =>
    intro lo hlo _
    by_cases hv : v = unlisted <;> simp [memPut, memWfFrom, hv, hlo]
  | cons x m ih =>
    obtain ⟨b, w⟩ := x
    intro lo hlo hw
    simp only [memWfFrom, Bool.and_eq_true, decide_eq_true_eq] at hw
    have wider : ∀ (l : List Host.Cell) (p q : Nat), p ≤ q → memWfFrom q l = true → memWfFrom p l = true := by
      intro l p q hpq hq
      cases l with
      | nil => rfl
      | cons y l =>
        obtain ⟨c, u⟩ := y
        simp only [memWfFrom, Bool.and_eq_true, decide_eq_true_eq] at hq ⊢
        exact ⟨⟨by omega, hq.1.2⟩, hq.2⟩
    simp only [memPut]
    by_cases h1 : a < b
    · by_cases hv : v = unlisted
      · simp only [h1, hv, if_true, memWfFrom, Bool.and_eq_true, decide_eq_true_eq]; exact hw
      · simp only [h1, hv, if_true, if_false, memWfFrom, Bool.and_eq_true, decide_eq_true_eq, bne_iff_ne, ne_eq,
          not_false_eq_true, and_true]
        exact ⟨hlo, ⟨by omega, by simpa using hw.1.2⟩, hw.2⟩
    · by_cases h2 : a = b
      · subst h2
        by_cases hv : v = unlisted
        · simp only [h1, hv, if_true, if_false]
          exact wider m lo (a + 1) (by omega) hw.2
        · simp only [h1, hv, if_true, if_false, memWfFrom, Bool.and_eq_true, decide_eq_true_eq, bne_iff_ne, ne_eq,
            not_false_eq_true, and_true]
          exact ⟨hlo, hw.2⟩
      · simp only [h1, h2, if_false, memWfFrom, Bool.and_eq_true, decide_eq_true_eq]
        exact ⟨hw.1, ih (b + 1) (by omega) hw.2⟩

/-- Writing a byte keeps memory in its canonical form. -/
theorem memPut_wf (m : List Host.Cell) (a : Nat) (v : Byte) (h : memWf m = true) : memWf (memPut m a v) = true :=
  memPut_wfFrom m a v 0 (by omega) h

/-- Leaving cells out keeps memory in its canonical form. -/
theorem filter_wf (m : List Host.Cell) (f : Host.Cell → Bool) (h : memWf m = true) : memWf (m.filter f) = true := by
  suffices H : ∀ (m : List Host.Cell) (lo q : Nat), lo ≤ q → memWfFrom q m = true → memWfFrom lo (m.filter f) = true from
    H m 0 0 (by omega) h
  intro m
  induction m with
  | nil => intros; rfl
  | cons x m ih =>
    obtain ⟨b, w⟩ := x
    intro lo q hq hw
    simp only [memWfFrom, Bool.and_eq_true, decide_eq_true_eq] at hw
    by_cases hf : f (b, w) = true
    · simp only [hf, List.filter_cons_of_pos, memWfFrom, Bool.and_eq_true, decide_eq_true_eq]
      exact ⟨⟨by omega, hw.1.2⟩, ih _ _ (by omega) hw.2⟩
    · simp only [Bool.not_eq_true] at hf
      rw [List.filter_cons_of_neg (by simp [hf])]
      exact ih _ _ (by omega) hw.2

/-! ### The sets of empty words and of poisoned sectors -/

/-- A strictly rising list is a pairwise strictly rising one. -/
theorem rises_iff (xs : List Nat) : rises? xs = true ↔ xs.Pairwise (· < ·) := by
  induction xs with
  | nil => simp [rises?]
  | cons a xs ih =>
    cases xs with
    | nil => simp [rises?]
    | cons b xs =>
      simp only [rises?, Bool.and_eq_true, decide_eq_true_eq, ih, List.pairwise_cons, List.mem_cons]
      constructor
      · rintro ⟨hab, hb, ht⟩
        exact ⟨fun x hx => hx.elim (fun e => e ▸ hab) fun h => Nat.lt_trans hab (hb x h), hb, ht⟩
      · rintro ⟨ha, hb, ht⟩
        exact ⟨ha b (Or.inl rfl), hb, ht⟩

/-- Insertion adds exactly its element. -/
@[simp] theorem mem_setIns (xs : List Nat) (a x : Nat) : x ∈ setIns xs a ↔ x = a ∨ x ∈ xs := by
  induction xs with
  | nil => simp [setIns]
  | cons b xs ih =>
    simp only [setIns]
    split
    · simp
    · split
      · subst_vars; simp
      · simp only [List.mem_cons, ih]; tauto

/-- Removal takes away exactly its element. -/
@[simp] theorem mem_setDel (xs : List Nat) (a x : Nat) : x ∈ setDel xs a ↔ x ≠ a ∧ x ∈ xs := by
  simp [setDel, and_comm]

/-- Insertion keeps a set strictly rising. -/
theorem setIns_rises (xs : List Nat) (a : Nat) (h : rises? xs = true) : rises? (setIns xs a) = true := by
  rw [rises_iff] at h ⊢
  induction xs with
  | nil => simp [setIns]
  | cons b xs ih =>
    rw [List.pairwise_cons] at h
    simp only [setIns]
    split
    · rename_i hab
      rw [List.pairwise_cons]
      refine ⟨?_, List.pairwise_cons.2 h⟩
      intro x hx
      rcases List.mem_cons.1 hx with rfl | hx
      · exact hab
      · exact Nat.lt_trans hab (h.1 x hx)
    · split
      · exact List.pairwise_cons.2 h
      · rw [List.pairwise_cons]
        refine ⟨?_, ih h.2⟩
        intro x hx
        rcases (mem_setIns xs a x).1 hx with rfl | hx
        · omega
        · exact h.1 x hx

/-- Leaving members out keeps a set strictly rising. -/
theorem filter_rises (xs : List Nat) (f : Nat → Bool) (h : rises? xs = true) : rises? (xs.filter f) = true := by
  rw [rises_iff] at h ⊢
  exact h.filter f

/-! ### Every update keeps the invariant -/

/-- One primitive update keeps the invariant. -/
theorem apply_inv (a : Act) (s : State) (h : s.Inv) : (a.apply s).Inv := by
  obtain ⟨hm, he, hp⟩ := h
  cases a with
  | byte a v => exact ⟨memPut_wf _ _ _ hm, he, hp⟩
  | empty w b =>
    refine ⟨hm, ?_, hp⟩
    cases b
    · exact filter_rises _ _ he
    · exact setIns_rises _ _ he
  | sector n b =>
    refine ⟨hm, he, ?_⟩
    cases b
    · exact filter_rises _ _ hp
    · exact setIns_rises _ _ hp
  | wipe lo hi => exact ⟨filter_wf _ _ hm, filter_rises _ _ he, filter_rises _ _ hp⟩
  | _ => exact ⟨hm, he, hp⟩

/-- A list of updates keeps the invariant. -/
theorem applyActs_inv (acts : List Act) (s : State) (h : s.Inv) : (applyActs s acts).Inv := by
  induction acts generalizing s with
  | nil => exact h
  | cons a acts ih => exact ih _ (apply_inv a s h)

/-! ### Frames -/

/-- An update that leaves the bytes of memory alone. -/
def Act.quiet : Act → Bool
  | .byte _ _ | .wipe _ _ => false
  | _ => true

/-- A quiet update leaves memory alone. -/
@[simp] theorem apply_quiet (a : Act) (s : State) (h : a.quiet = true) : (a.apply s).mem = s.mem := by
  cases a <;> first | rfl | simp [Act.quiet] at h

/-- Quiet updates leave memory alone. -/
theorem applyActs_quiet (acts : List Act) (s : State) (h : acts.all Act.quiet = true) :
    (applyActs s acts).mem = s.mem := by
  induction acts generalizing s with
  | nil => rfl
  | cons a acts ih =>
    simp only [List.all_cons, Bool.and_eq_true] at h
    rw [applyActs_cons, ih _ h.2, apply_quiet a s h.1]

/-- An update of one element leaves the others alone. -/
theorem vset_other {α : Type} {n : Nat} (v : Vector α n) (i j : Fin n) (x : α) (h : j ≠ i) : (vset v i x)[j] = v[j] := by
  have h' : i.val ≠ j.val := fun e => h (Fin.ext e.symm)
  simp [vset, h']

/-- An element updated reads back. -/
@[simp] theorem vset_same {α : Type} {n : Nat} (v : Vector α n) (i : Fin n) (x : α) : (vset v i x)[i] = x := by
  simp [vset]

end Sys2Proof.Machine
end

