-- ==== Sys2Proof/Laws/Exec.lean ====
section
/-! SUPPORT. What any instruction or event can do: it performs a list of primitive updates, and nothing else. -/

namespace Sys2Proof.Machine

/-- Performing updates gives a next state. -/
@[simp] theorem perform_next (s : State) (acts : List Act) : perform s acts = .next (applyActs s acts) := rfl

/-- A bundle is issued by performing updates. -/
theorem issueOn_performs (s : State) (b : Except Trap Bundle) : ∃ acts, issueOn s b = perform s acts := by
  unfold issueOn
  split
  · exact ⟨_, rfl⟩
  · exact ⟨_, rfl⟩

/-- A slot instruction is issued by performing updates. -/
theorem issueOne_performs (s : State) (i : Instr) : ∃ acts, issueOne s i = perform s acts := issueOn_performs s _

/-- Every instruction and event performs updates. -/
theorem exec_performs (i : Instr) (s : State) : ∃ acts, exec i s = perform s acts := by
  cases i <;> first | exact issueOne_performs s _ | exact issueOn_performs s _ | exact ⟨_, rfl⟩

/-- A core's turn performs updates on the state with that core in focus. -/
theorem coreTurn_performs (s : State) (c : Fin 256) : ∃ acts, coreTurn s c = perform (s.withFocus c) acts := by
  unfold coreTurn
  split
  · split
    · rename_i w acts _
      obtain ⟨more, h⟩ := exec_performs (decodeBundle w) (applyActs (s.withFocus c) acts)
      exact ⟨acts ++ more, by rw [h, perform, perform, applyActs_append]⟩
    · exact ⟨_, rfl⟩
    · exact ⟨_, rfl⟩
  · exact exec_performs _ _

/-- A turn performs updates, on a state that differs at most in the core that has its turn. -/
theorem takeTurn_performs (s : State) (t : Turn) : ∃ c acts, takeTurn s t = perform (s.withFocus c) acts := by
  cases t with
  | core c => exact ⟨c, coreTurn_performs s c⟩
  | event i =>
    have hs : s.withFocus s.focus = s := rfl
    refine ⟨s.focus, ?_⟩
    rw [hs]
    simp only [takeTurn]
    split
    · exact exec_performs i s
    · exact ⟨[], rfl⟩
  | upset u => exact ⟨s.focus, u.acts, rfl⟩
  | manage m => exact ⟨s.focus, manageActs s m, rfl⟩
  | part j p lo hi => exact ⟨s.focus, movePart s j p lo hi, rfl⟩

/-- A state's invariant does not depend on the core that has its turn. -/
@[simp] theorem withFocus_inv (s : State) (c : Fin 256) : (s.withFocus c).Inv ↔ s.Inv := Iff.rfl

/-- Nor on the agenda. -/
@[simp] theorem popAgenda_inv (s : State) : s.popAgenda.Inv ↔ s.Inv := Iff.rfl

/-- A turn keeps the invariant. -/
theorem takeTurn_inv {s t : State} {u : Turn} (h : takeTurn s u = .next t) (hs : s.Inv) : t.Inv := by
  obtain ⟨c, acts, ht⟩ := takeTurn_performs s u
  rw [ht] at h
  cases h
  exact applyActs_inv acts _ hs

end Sys2Proof.Machine
end

