-- ==== Sys2Proof/Laws/Commit.lean ====
section
/-! SUPPORT. What a commit leaves: the list of updates of one instruction that commits, the core it leaves, and what it
does not touch. -/

namespace Sys2Proof.Machine

/-- An element updated reads back, in the form simp prefers. -/
@[simp] theorem vset_val {α : Type} {n : Nat} (v : Vector α n) (i : Fin n) (x : α) : (vset v i x)[i.val] = x := by
  simp [vset]

/-- The other elements are as before, in the form simp prefers. -/
theorem vset_val_other {α : Type} {n : Nat} (v : Vector α n) (i j : Fin n) (x : α) (h : j ≠ i) :
    (vset v i x)[j.val] = v[j.val] := vset_other v i j x h

/-- One instruction commits by the updates of its core, its own, those of its last stage, those that its bundle's accesses
put before what it gives an engine, what follows, and the clock. -/
theorem done_eq (s : State) (i : Instr) (o : Out) (more : List Result) (stage : List Act) :
    s.done i o more stage = applyActs s.landed (
      let acts := [.ids 8, .core s.focus fun x => x.issued (Bundle.single i) 0 s.landed.nextId (opsOf i) [((slotOf i, i), o)] more] ++
        o.acts ++ stage
      acts ++ (if s.landed.hub.dbg = 1 then [.report (.traced s.focus s.now.pc s.now.ts)] else []) ++ (if usesEngine (opsOf i) then
          bundleFollows (applyActs s.landed acts) s.focus s.landed.jobs.length ((List.range 8).map (s.landed.nextId + ·)) else []) ++
        o.last ++ [.clock ((s.landed.cores[s.focus]).clk + 1)]) := by
  have hv : voteHold (Bundle.single i) (opsOf i) = 0 := by
    have : bitAt (Bundle.single i).triple 0 = false := by simp [Bundle.single, bitAt]
    simp [voteHold, this]
  have hq : (Bundle.single i).qp = false := rfl
  have hk : (Bundle.single i).kind = 0 := rfl
  simp only [State.done, commitActs, hv, hq, hk]
  simp [State.now]

/-- The core after an instruction of no engine that commits with one update of its own core. -/
theorem done_core {s : State} {i : Instr} {res : List Result} {jump : Option (W32 × Nat)} (f : CoreSt → CoreSt)
    (hu : usesEngine (opsOf i) = false) :
    (s.done i { res, jump, acts := [.core s.focus f] }).cores[s.focus] =
      f ((s.landed.cores[s.focus]).issued (Bundle.single i) 0 s.landed.nextId (opsOf i)
        [((slotOf i, i), { res, jump, acts := [.core s.focus f] })] []) := by
  rw [done_eq]
  by_cases hd : s.landed.hub.dbg = 1
  · rw [if_pos hd]
    simp [applyActs, Act.apply, hu]
  · rw [if_neg hd]
    simp [applyActs, Act.apply, hu]

/-- The core after an instruction of no engine that commits with results alone. -/
theorem done_core_res {s : State} {i : Instr} {o : Out} (hu : usesEngine (opsOf i) = false) (ha : o.acts = []) (hl : o.last = [])
    (more : List Result) :
    (s.done i o more).cores[s.focus] =
      (s.landed.cores[s.focus]).issued (Bundle.single i) 0 s.landed.nextId (opsOf i) [((slotOf i, i), o)] more := by
  rw [done_eq]
  by_cases hd : s.landed.hub.dbg = 1
  · rw [if_pos hd]
    simp [applyActs, Act.apply, ha, hl, hu]
  · rw [if_neg hd]
    simp [applyActs, Act.apply, ha, hl, hu]

/-- Pops touch the load-data queues only. -/
theorem pops_frame (xs : List Spec) (k : Cont) : ∃ qs qa qb,
    xs.foldl (fun k q => match q with
      | .qs => { k with qs := k.qs.tail }
      | .qa => { k with qa := k.qa.tail }
      | .qb => { k with qb := k.qb.tail }
      | _ => k) k = { k with qs, qa, qb } := by
  induction xs generalizing k with
  | nil => exact ⟨k.qs, k.qa, k.qb, rfl⟩
  | cons x xs ih =>
    rw [List.foldl_cons]
    split <;> (obtain ⟨a, b, c, h⟩ := ih _; exact ⟨a, b, c, h⟩)

/-- Pops and pushes touch the load-data queues and the streams only. -/
theorem popPush_frame (k : Cont) (token : Nat) (u : Use) (push : Bool) : ∃ qs qa qb strm,
    k.popPush token u push = { k with qs, qa, qb, strm } := by
  unfold Cont.popPush
  obtain ⟨qs, qa, qb, h⟩ := pops_frame u.pops k
  have : ∀ (zs : List (Fin 8 × Bool)) (k : Cont), ∃ strm, zs.foldl (fun k z => { k with strm := vset k.strm z.1 ((k.strm[z.1]).map fun b =>
      if z.2 then { b with pos := b.pos + 1, buf := b.buf ++ [⟨token, 0, false, none, false, false⟩] }
      else { b with pos := b.pos + 1, buf := b.buf.tail }) }) k = { k with strm } := by
    intro zs
    induction zs with
    | nil => intro k; exact ⟨k.strm, rfl⟩
    | cons z zs ih => intro k; rw [List.foldl_cons]; obtain ⟨x, h⟩ := ih _; exact ⟨x, h⟩
  obtain ⟨strm, h2⟩ := this (u.streams.filter fun z => !z.2 || push) { k with qs, qa, qb }
  exact ⟨qs, qa, qb, strm, by rw [← h2, ← h]; all_goals rfl⟩

/-- What issuing a bundle leaves of its continuation: only queues, streams, results on their way, the code address, the
cycles owed, the counters and the answers of its requests change. -/
theorem issued_frame (k : Cont) (b : Bundle) (token : Nat) (outs : List ((Slot × Instr) × Out)) (more : List Result) :
    ∃ qs qa qb strm, k.issued b token outs more =
      { k with qs, qa, qb, strm
               pend := k.pend ++
                 outs.flatMap (fun x => x.2.res.map fun r => r.pend k x.1.1 (token + slotIx x.1.1)) ++
                 more.map fun r => r.pend k .y token
               pc := (transferOf k (outs.map Prod.snd)).1
               owed := b.stall + (transferOf k (outs.map Prod.snd)).2, acyc := k.acyc + 1, order := k.order + 1, remote := []
               asked := none } := by
  have : ∀ (xs : List ((Slot × Instr) × Out)) (k : Cont), ∃ qs qa qb strm,
      xs.foldl (fun k x => k.popPush (token + slotIx x.1.1) (instrUse x.1.2) x.2.push) k = { k with qs, qa, qb, strm } := by
    intro xs
    induction xs with
    | nil => intro k; exact ⟨k.qs, k.qa, k.qb, k.strm, rfl⟩
    | cons x xs ih =>
      intro k
      obtain ⟨a, b, c, d, h⟩ := popPush_frame k (token + slotIx x.1.1) (instrUse x.1.2) x.2.push
      rw [List.foldl_cons, h]
      obtain ⟨a, b, c, d, h⟩ := ih { k with qs := a, qa := b, qb := c, strm := d }
      exact ⟨a, b, c, d, h⟩
  obtain ⟨qs, qa, qb, strm, h⟩ := this outs k
  exact ⟨qs, qa, qb, strm, by unfold Cont.issued; simp only [h]⟩

end Sys2Proof.Machine
end

