-- ==== Sys2Proof/Laws/Landing.lean ====
section
/-! SUPPORT. What landing leaves alone: results due touch registers, streams, sticky flags and the poison of registers,
and nothing else of a continuation. -/

namespace Sys2Proof.Machine

/-- A continuation without what a landing can reach: registers, streams, drains, sticky flags, the poison of registers
and the results on their way. -/
def Cont.fixedPart (k : Cont) : Cont :=
  { k with s := Vector.replicate 64 0, os := Vector.replicate 8 0, ls := 0, va := VFile.zero, vb := VFile.zero
           p := Vector.replicate 48 0, bt := Vector.replicate 16 0, t := Vector.replicate 32 0, tpoison := 0, padm := 0
           strm := Vector.replicate 8 none, drains := [], vflaga := 0, vflagb := 0, rpoison := [], pend := [] }

/-- A register written. -/
theorem put_fixed (k : Cont) (r : Reg) (m : W64) (x : VReg) : (k.put r m x).fixedPart = k.fixedPart := by
  cases r <;> first
    | rfl
    | (rename_i cl _; cases cl <;> rfl)
    | (rename_i cl; cases cl <;> rfl)

/-- Flags ORed. -/
theorem stick_fixed (k : Cont) (r : Reg) (f : FFlags) : (k.stick r f).fixedPart = k.fixedPart := by
  unfold Cont.stick
  split
  · rfl
  · split <;> rfl

/-- A last-result register written. -/
theorem putLast_fixed (k : Cont) (p : Pend) : (k.putLast p).fixedPart = k.fixedPart := by
  unfold Cont.putLast
  split <;> first | exact put_fixed _ _ _ _ | rfl

/-- One result lands. -/
theorem land_fixed (k : Cont) (p : Pend) : (k.land p).fixedPart = k.fixedPart := by
  have half : ∀ j : Cont, (match p.reg with | .t i hi => j.halfPoison i hi p.bad | _ => j).fixedPart = j.fixedPart := by
    intro j
    split <;> rfl
  have last : ∀ j : Cont, (if p.lr then j.putLast p else j).fixedPart = j.fixedPart := by
    intro j
    split
    · exact putLast_fixed _ _
    · rfl
  have clean : ∀ j : Cont, (if j.rpoison.isEmpty then j else
      { j with rpoison := j.rpoison.filter fun r => !p.wholes.contains r }).fixedPart = j.fixedPart := by
    intro j
    split <;> rfl
  unfold Cont.land
  exact (clean _).trans ((stick_fixed _ _ _).trans ((last _).trans ((half _).trans (put_fixed _ _ _ _))))

/-- What reads only the fixed part reads the same. -/
theorem of_fixed {α : Type} (f : Cont → α) (hf : ∀ k, f k = f k.fixedPart) {a b : Cont} (h : a.fixedPart = b.fixedPart) :
    f a = f b := by
  rw [hf a, hf b, h]

/-- Results land one after another. -/
theorem lands_fixed (ps : List Pend) (k : Cont) : (ps.foldl Cont.land k).fixedPart = k.fixedPart := by
  induction ps generalizing k with
  | nil => rfl
  | cons p ps ih => rw [List.foldl_cons, ih, land_fixed]

/-- What is due lands (R75, R118): the rest of the continuation is as before. -/
theorem landDue_fixed (k : Cont) : k.landDue.fixedPart = k.fixedPart := by
  unfold Cont.landDue
  split
  · rfl
  · exact lands_fixed _ k

/-- What is still on its way after a landing is what is not due. -/
theorem landDue_pend (k : Cont) : k.landDue.pend = k.pend.filter fun p => !decide (p.due ≤ k.acyc) := by
  unfold Cont.landDue
  split
  · rename_i h
    rw [List.isEmpty_iff.mp h]
    rfl
  · rfl

/-- With nothing on its way nothing lands. -/
theorem landDue_nil {k : Cont} (h : k.pend = []) : k.landDue = k := by simp [Cont.landDue, h]

@[simp] theorem landDue_acyc (k : Cont) : k.landDue.acyc = k.acyc :=
  of_fixed Cont.acyc (fun _ => rfl) (landDue_fixed k)
@[simp] theorem landDue_owed (k : Cont) : k.landDue.owed = k.owed :=
  of_fixed Cont.owed (fun _ => rfl) (landDue_fixed k)
@[simp] theorem landDue_pc (k : Cont) : k.landDue.pc = k.pc :=
  of_fixed Cont.pc (fun _ => rfl) (landDue_fixed k)
@[simp] theorem landDue_cid (k : Cont) : k.landDue.cid = k.cid :=
  of_fixed Cont.cid (fun _ => rfl) (landDue_fixed k)
@[simp] theorem landDue_cstat (k : Cont) : k.landDue.cstat = k.cstat :=
  of_fixed Cont.cstat (fun _ => rfl) (landDue_fixed k)
@[simp] theorem landDue_tvec (k : Cont) : k.landDue.tvec = k.tvec :=
  of_fixed Cont.tvec (fun _ => rfl) (landDue_fixed k)
@[simp] theorem landDue_tpc (k : Cont) : k.landDue.tpc = k.tpc :=
  of_fixed Cont.tpc (fun _ => rfl) (landDue_fixed k)
@[simp] theorem landDue_tcause (k : Cont) : k.landDue.tcause = k.tcause :=
  of_fixed Cont.tcause (fun _ => rfl) (landDue_fixed k)
@[simp] theorem landDue_tinfo (k : Cont) : k.landDue.tinfo = k.tinfo :=
  of_fixed Cont.tinfo (fun _ => rfl) (landDue_fixed k)
@[simp] theorem landDue_f (k : Cont) : k.landDue.f = k.f :=
  of_fixed Cont.f (fun _ => rfl) (landDue_fixed k)
@[simp] theorem landDue_lc (k : Cont) : k.landDue.lc = k.lc :=
  of_fixed Cont.lc (fun _ => rfl) (landDue_fixed k)
@[simp] theorem landDue_bmap (k : Cont) : k.landDue.bmap = k.bmap :=
  of_fixed Cont.bmap (fun _ => rfl) (landDue_fixed k)
@[simp] theorem landDue_tags (k : Cont) : k.landDue.tags = k.tags :=
  of_fixed Cont.tags (fun _ => rfl) (landDue_fixed k)
@[simp] theorem landDue_ts (k : Cont) : k.landDue.ts = k.ts :=
  of_fixed Cont.ts (fun _ => rfl) (landDue_fixed k)
@[simp] theorem landDue_fused (k : Cont) : k.landDue.fused = k.fused :=
  of_fixed Cont.fused (fun _ => rfl) (landDue_fixed k)
@[simp] theorem landDue_info (k : Cont) : k.landDue.info = k.info :=
  of_fixed Cont.info (fun _ => rfl) (landDue_fixed k)
@[simp] theorem landDue_stopped (k : Cont) : k.landDue.stopped = k.stopped :=
  of_fixed Cont.stopped (fun _ => rfl) (landDue_fixed k)

end Sys2Proof.Machine
end

