-- ==== Sys2Proof/Tests/Slice0.lean ====
section
/-! SUPPORT. Tests: words of the manual decode, ill-formed terms are refused, single steps give what the manual gives, and
every statement's hypotheses are met by a state and operands. -/

namespace Sys2Proof.Tests

open Sys2Proof.Machine

set_option Elab.async false

/-! ### A state with one running core -/

/-- Core 0 runs at code address 1 in privileged mode, in focus, its continuation as given; the rest is as after boot. -/
def only (k : Cont) : State :=
  { State.reset with
    cores := vset State.reset.cores 0 { CoreSt.zero with phase := .running, gated := false, cont := k }
    hub := { HubSt.zero with booted := true, sec := .tenant, pwr := 0, chg := false } }

/-- A continuation of partition 0 at code address 1, privileged, window 0 on bank 0 valid and open. -/
def cont0 : Cont :=
  { Cont.zero 1 with
    image := true, pc := 1, cstat := 4, tags := BitVec.allOnes 64
    bmap := vset (Cont.zero 1).bmap 0 ⟨0, true, true, 0⟩ }

/-- The one core with its continuation at rest. -/
def st0 : State := only cont0

/-- The conditions of `Goes`, as a check. -/
def goesOk (s : State) (i : Instr) : Bool :=
  (instrSlot i).isSome && canIssue s s.focus && !(gangHeld s.landed s.focus) && s.now.asked.isNone && (decodeChecks s.now (opsOf i)).isNone &&
    (stallTrap s.now (bundleLeaf s.now (opsOf i)) (opsOf i)).isNone &&
    executes s.now (bundleLeaf s.now (opsOf i)) (slotOf i, i) && (bundleHolds s.landed s.focus 0 (opsOf i)).isEmpty &&
    (guardPoison s.now (slotOf i, i)).isNone &&
    ((slotReads s.now i).find? s.now.rpoison.contains).isNone &&
    ((streamUses (s.env i) i).findSome? (streamUseTrap s.now (slotOf i) (streamWidth i))).isNone &&
    (popPoison s.now (slotOf i) (instrUse i)).isNone && gangReady s.landed s.focus

/-- The check gives the conditions. -/
theorem goes_of {s : State} {i : Instr} (h : goesOk s i = true) : Goes s i := by
  simp only [goesOk, Bool.and_eq_true, Option.isNone_iff_eq_none, Bool.not_eq_true', List.isEmpty_iff] at h
  obtain ⟨⟨⟨⟨⟨⟨⟨⟨⟨⟨⟨⟨h1, h2⟩, h3⟩, h4⟩, h5⟩, h6⟩, h7⟩, h8⟩, h9⟩, h10⟩, h11⟩, h12⟩, h13⟩ := h
  exact ⟨⟨⟨h1, h2, h3, h4, h5, h6⟩, h7, h8, h9, h10, h11, h12⟩, h13⟩

/-- The check of a list gives the conditions of each. -/
theorem goes_all {s : State} {is : List Instr} (h : is.all (goesOk s) = true) : ∀ i ∈ is, Goes s i :=
  fun i hi => goes_of (List.all_eq_true.mp h i hi)

/-- The guard "always". -/
def g : Guard := Guard.always

/-! ### One instruction of each kind -/

/-- The S slot (R92 to R105). -/
def samplesS : List Instr :=
  let d : Spec := .main 3
  let a : Spec := .main 1
  let b : Spec := .const 2
  [.nop g, .add g d a b, .sub g d a b, .and g d a b, .or g d a b, .xor g d a b, .shl g d a b, .shr g d a b, .sar g d a b,
   .mul g d a b, .mulh g d a b, .mulhu g d a b, .min g d a b, .max g d a b, .minu g d a b, .maxu g d a b,
   .addi g d a 0x3FFFFFF, .andi g d a 1, .ori g d a 1, .xori g d a 1, .shli g d a 63, .shri g d a 0, .sari g d a 63,
   .lea g d a 1 0x40, .li g d 0xABCD, .lui g d 0x12, .clz g d a, .popc g d a, .bfx g d a 56 7 true, .bfx g d a 0 63 false,
   .bfi g d a b 60 3, .sel g d a b 47, .cmp g 47 a b .ltu, .cmpi g 40 a 0xFFFFFF .ge, .pand g 1 2 3, .por g 1 2 3,
   .pxor g 1 2 3, .pandn g 5 3 40, .pset g 24 (.const 63), .vext g d .la 63 false, .vext g d .lb 0 true, .mfc g d 0,
   .mfc g (.main 62) 127, .mtc g 8 a, .mtc g 13 a, .setbtAddr g 15 40, .setbtReg g 0 a, .tset g 31 15 a, .tget g d 0 0]

/-- V0 and V1 (R118 to R134). -/
def samplesV (cl : Cluster) : List Instr :=
  let d : Spec := .main 3
  let a : Spec := .main 1
  let b : Spec := .const 1
  let c : Spec := .zero
  let q : Fin 48 := match cl with | .a => 23 | .b => 24
  [.vnop g cl, .vadd g cl d a b, .vsub g cl d a b, .vmul g cl d a b, .vmulh g cl d a b, .vmin g cl d a b, .vmax g cl d a b,
   .vand g cl d a b, .vor g cl d a b, .vxor g cl d a b, .vshl g cl d a b, .vshr g cl d a b, .vsar g cl d a b, .vabs g cl d a,
   .vneg g cl d a, .vcmp g cl q a b .lt, .vadds g cl d a b, .vsubs g cl d a b, .vminu g cl d a b, .vmaxu g cl d a b,
   .fadd g cl d a b .rne, .fsub g cl d a b .rtz, .fmul g cl d a b .rup, .fma g cl d a b c .rdn, .fms g cl d a b c .rne,
   .fnma g cl d a b c .rne, .fmin g cl d a b, .fmax g cl d a b, .fabs g cl d a, .fneg g cl d a, .fdiv g cl d a b .rne,
   .fsqrt g cl d a .rne, .frcp g cl d a, .frsq g cl d a, .fcmp g cl q a b .rk, .fclass g cl d a, .cvt g cl d a .i32 .f32 .rne,
   .cvt g cl d a .f16 .bf16 .rtz, .vpack g cl d a b .s16 .rne, .vpack g cl d a b .f16 .rup, .vunpk g cl d a .bf16 true,
   .plext g cl d a 7 false 3, .plins g cl d a 3 true 0 .rne, .vmov g cl d a, .vsel g cl d a b 47, .vli g cl d 0x3F800000,
   .viota g cl d 5 0xFF, .vbcast g cl d a 63, .vperm g cl d a b, .vrot g cl d a 1, .vbfly g cl d a 5, .vradd g cl d a none true,
   .vradd g cl d a (some 0) false, .vrmax g cl d a none, .vrmin g cl d a (some 47), .frsum g cl d a none .rne,
   .frmax g cl d a none, .frmin g cl d a none, .xmov g cl d a, .vins g cl d b 7, .vfromp g cl d 47, .vtop g cl q a]

/-- L and K (R144 to R160). -/
def samplesLK : List Instr :=
  let a : Spec := .main 4
  let z : Spec := .zero
  [.lnop g, .ld g a z 0 0 0 .v .qa, .ld g a z 3 4 1 .d (.qs true), .ld g a z 0 0 15 .hv (.desc 31 true), .ld g a z 0 2 0 .h (.qs false),
   .ld g a z 0 0 0 .hv .qb, .lde g a z 0 0 0 true, .ldf g a z 0 0 0 false, .ldx g 6 8 .d, .amo g a z .add 0 true,
   .amo g a z (.cas a) 0 false, .lbst g a 0 true,
   .knop g, .st g a (.data (.v 1)) 0 0 .v, .st g a (.data (.s 1)) 0 0 .b, .st g a (.desc 0 true) 0 0 .hv, .stf g a (.s 1) 0 0,
   .ste g a .zero 4 0, .stx g 6 (.main 1) 0 .w, .bst g a 7 .full 0, .stm g a (.w 1) 0 0 .v 24]

/-- The operands of a tile instruction. -/
def tops : TOps := { dst := 6, a := 3, b := 4, c := 0, tag := 9, cls := 0, tq := 1, pa := 0, pb := 0, mod := 0 }
/-- The operands of a tile instruction with one source. -/
def tops1 : TOps := { tops with b := 0 }
/-- The operands of a copy. -/
def cops : COps := { dst := 6, src := 3, aux := 0, tag := 9, cls := 2, queue := 1, post := ⟨2, 7, 1⟩ }

/-- T (R210 to R226, R237). -/
def samplesT : List Instr :=
  [.tnop g, .tadd g tops, .tsub g tops, .tmul g tops, .tmax g tops, .tmin g tops, .tabs g tops1, .tcvt g tops1, .tscl g { tops1 with c := 5 },
   .tfill g tops1, .tsel g { tops with c := 5 }, .tlut g { tops1 with c := 5 }, .tred g tops1, .tmma g { tops with c := 5, mod := 8 }, .tspm g tops,
   .place g .add { tops with tq := 0 }]

/-- C (R176 to R198). -/
def samplesC : List Instr :=
  [.cnop g, .cpy g cops, .gath g { cops with aux := 5 }, .scat g { cops with aux := 5 }, .mcast g { cops with aux := 5 }, .flume g cops,
   .strm g 3 0 false 2 0 1, .unstrm g 0 9 0 1 ⟨0, 0, 0⟩, .catom g { cops with aux := 5, post := ⟨0, 0, 0⟩ } .cas, .wsa g { cops with aux := 5 },
   .wred g { cops with aux := 5 }, .wstat g cops, .redf g { cops with aux := 5, post := ⟨0, 0, 0⟩ } .sum, .hot g cops true,
   .tlbi g (.main 1) .page 0 9]

/-- Y (R106 to R113, R250 to R268, R316 to R326, R348 to R352). -/
def samplesY : List Instr :=
  let d : Spec := .main 3
  let a : Spec := .main 1
  let t (p : BitVec 6) (n : Bool) : Test := ⟨p, n⟩
  [.ynop g, .tree g .gate (t 47 false) (t 1 true) (t 2 false) (t 3 true) 3 0, .tree g .chain (t 0 true) (t 0 false) (t 0 false) (t 0 false) 0 1,
   .jmpBt g 15, .jmpAddr g 40, .callBt g 15 4, .callAddr g 0 40, .ret g 15, .loop g true 2, .loopSet g true (.const 7), .bsel g d a .zero,
   .post g 31 .own 0 0x7FF, .post g 3 (.core a) 0xFFFF 1, .post g 3 (.node a) 0 1, .waitf g 3 0xFFFF 1, .waitany g (.const 63), .waitall g a,
   .ffr g d a, .bar g 0, .watch g .zero, .waitm g d, .fence g 5 .die, .fence g 5 .fabric, .qfence g 0x12, .send g (.v 5) (.const 1),
   .recv g (.w 2) (.const 1), .give g 0 (.const 1) 251 1 true, .openw g 251, .closew g 0, .fuse g 3, .spawn g d a .zero,
   .suspendQueue g a 15, .suspendFlag g a 3 5 2, .suspendWatch g a 3, .yield g, .done g, .tstamp g d, .tstampHub g d, .tstampSet g a,
   .cmptScalar g a .zero, .cmptVector g (.v 9) (.w 9) (some 47), .trap g 0x42, .rft g, .idle g, .brake g .tile a, .brakeClear g .stone a]

/-- One instruction of each kind, with the registers at the edges of their ranges. -/
def samples : List Instr := samplesS ++ samplesV .a ++ samplesV .b ++ samplesLK ++ samplesT ++ samplesC ++ samplesY

/-! ### Words written out in the manual decode (each word is the manual's own, from the rule named) -/

/-- The slot word decodes to this instruction. -/
def reads (x : Slot) (w : SlotWord) (i : Instr) : Bool :=
  match decodeSlot x w with
  | .ok j => j == i
  | .error _ => false

/-- R55, R93, R97, R100, R104 -/
theorem test_words_scalar : reads .s 0xFC0040C04080000 (.add g (.main 3) (.main 1) (.main 2)) = true := by decide +kernel
/-- R55, R123, R125, R134 -/
theorem test_words_vector : reads .v0 0xFC0800407040000 (.fadd g .a (.main 1) (.main 1) (.const 1) .rne) = true ∧
    reads .v0 0xFC0AC100C000000 (.fsqrt g .a (.main 4) (.main 3) .rne) = true ∧ reads .v0 0xFC1200C0C000000 (.xmov g .a (.main 3) (.main 3)) = true ∧
    reads .v1 0x640942004242000 (.fnma ⟨some 25, false, none⟩ .b (.main 8) (.main 1) (.main 9) (.main 8) .rne) = true := by decide +kernel
/-- R144, R148 -/
theorem test_words_memory : reads .l 0xFC0042E80000088 (.ld g (.main 11) .zero 0 0 0 .v .qa) = true ∧
    reads .k 0xFC0041104000200 (.st g (.main 4) (.data (.v 1)) 0 0 .v) = true := by decide +kernel
/-- R211, R237 -/
theorem test_words_tile : reads .t 0xFC004400805340C (.tadd g ⟨2, 0, 1, 0, 5, 3, 1, 0, 0, 12⟩) = true ∧
    reads .t 0xFC040C321490008 (.tmma g ⟨6, 3, 4, 5, 9, 0, 0, 0, 0, 8⟩) = true ∧
    reads .t 0xFC060C3214A8008 (.place g .mma ⟨6, 3, 4, 5, 10, 0, 0, 0, 0, 8⟩) = true := by decide +kernel
/-- R182, R197, R291 -/
theorem test_words_copy : reads .c 0xFC004A40064809D (.cpy g ⟨5, 4, 0, 3, 2, 1, ⟨1, 7, 1⟩⟩) = true ∧
    reads .c 0xFC060C538400000 (.redf g ⟨6, 5, 7, 2, 0, 0, ⟨0, 0, 0⟩⟩ .sum) = true ∧ reads .c 0xFC0404118800000 (.wsa g ⟨2, 1, 3, 4, 0, 0, ⟨0, 0, 0⟩⟩) = true ∧ reads .c 0xFC044C52023010A (.wred g ⟨6, 5, 4, 1, 1, 2, ⟨2, 2, 2⟩⟩) = true := by decide +kernel
/-- R110, R113, R170, R252 to R260, R266, R267 -/
theorem test_words_sync : reads .y 0xFC0181402800000 (.bsel g (.main 5) (.main 0) .zero) = true ∧ reads .y 0xFC0447FFFE00020 (.waitf g 3 0xFFFF 1) = true ∧
    reads .y 0xFC0482400000000 (.waitany g (.main 9)) = true ∧ reads .y 0xFC04C2400000000 (.waitall g (.main 9)) = true ∧
    reads .y 0xFC0501C24000000 (.ffr g (.main 7) (.main 9)) = true ∧ reads .y 0xFC057FFFC000000 (.bar g 0xFFFF) = true ∧
    reads .y 0xFC0581000000000 (.watch g (.main 4)) = true ∧ reads .y 0xFC05C1400000000 (.waitm g (.main 5)) = true ∧
    reads .y 0xFC0600015000000 (.fence g 5 .die) = true ∧ reads .y 0xFC0644800000000 (.qfence g 0x12) = true ∧
    reads .y 0xFC069140C000000 (.send g (.v 5) (.main 3)) = true ∧ reads .y 0xFC06E080C000000 (.recv g (.w 2) (.main 3)) = true ∧
    reads .y 0xFC0700B04083000 (.give g 2 (.const 1) 2 1 true) = true ∧ reads .y 0xFC07CC000000000 (.fuse g 3) = true := by decide +kernel
/-- R316 to R326, R348 to R352 -/
theorem test_words_tasks : reads .y 0xFC0801C080C0000 (.spawn g (.main 7) (.main 2) (.main 3)) = true ∧
    reads .y 0xFC08420D2802000 (.suspendFlag g (.main 8) 3 5 2) = true ∧ reads .y 0xFC0880000000000 (.yield g) = true ∧
    reads .y 0xFC08C0000000000 (.done g) = true ∧ reads .y 0xFC0901800000000 (.tstamp g (.main 6)) = true ∧
    reads .y 0xFC0901801000000 (.tstampHub g (.main 6)) = true ∧ reads .y 0xFC090001A000000 (.tstampSet g (.main 6)) = true ∧
    reads .y 0xFC0C01017F00000 (.cmptScalar g (.main 4) (.main 5)) = true ∧ reads .y 0xFC0C12627F80000 (.cmptVector g (.v 9) (.w 9) none) = true ∧
    reads .y 0xFC0C40108000000 (.trap g 0x42) = true ∧ reads .y 0xFC0C80000000000 (.rft g) = true ∧ reads .y 0xFC0CC0000000000 (.idle g) = true ∧
    reads .y 0xFC0D20300000000 (.brake g .tile (.main 6)) = true := by decide +kernel
/-- Numbered as the table numbers them: the S slot is the lowest word of the bundle. -/
theorem test_words_table : decodeTableWord 512 (bundleOf .s 0xFC0040C04080000).toNat = some (.add g (.main 3) (.main 1) (.main 2)) := by decide +kernel

/-! ### States that meet the statements' hypotheses -/

/-- A descriptor with these fields, the others zero (R206). -/
def tens (base space fmt n0 n1 s1 md : Nat) : Desc :=
  BitVec.ofNat 256 (base + space * 2 ^ 64 + fmt * 2 ^ 66 + n0 * 2 ^ 74 + n1 * 2 ^ 90 + s1 * 2 ^ 138 + md * 2 ^ 222)

/-- A descriptor with SCALE (R206). -/
def scaled (d : Desc) (n : Nat) : Desc := d ||| BitVec.ofNat 256 (n * 2 ^ 227)

/-- The descriptor registers of the tests. -/
def regT : List Desc :=
  [0, tens 0 0 0 1 4 1 0, 0, tens 0x10000 1 1 4 1 0 0, tens 0x20000 1 1 4 1 0 0, tens 0x30000 1 4 1 1 0 0,
   tens 0x40000 1 1 4 1 0 0, tens 0x50000 1 1 1 1 0 0, tens 0x60000 1 0 4 1 0 0, tens 0x70000 1 1 130 1 0 0,
   tens 0x80000 1 0 1 1 0 0, tens 0x90000 1 2 4 1 0 0, tens 0xA0000 1 2 4 1 0 0, tens 0xB0000 1 2 4 1 0 10,
   tens 0xC0000 1 1 1 1 0 0, tens 0xD0000 1 1 4 2 4 0, tens 0xE0000 1 1 4 2 4 0, tens 0x100 0 0 2 1 0 0,
   tens 0 2 16 256 1 0 0, tens 0x200 0 0 4 1 0 0, tens 0x300 0 0 4 1 0 0, tens 0x40 3 0 2 0 0 0,
   scaled (tens 0x100000 1 0x17 256 1 0 0) 24, scaled (tens 0x110000 1 0x17 256 1 0 0) 25, tens 0x120000 1 4 8 1 0 0, tens 0x130000 1 4 8 1 0 0]

/-- A stream binding of one word of window 0, input or output. -/
def bind (out : Bool) : Binding :=
  { id := 0, out, width := 0, device := false, view := 0, bufNo := 0, base := 0, counts := #v[4, 1, 1], strides := #v[4, 0, 0], pos := 0, fetched := 0, buf := []
    banks := [(0, 0)], cls := 0, queue := 0, part := 0, padm := 0, ts := 0, failure := none, needs := [], after := [] }

/-- An access-table entry that grants everything to every master (R375). -/
def grantAll : W128 := BitVec.ofNat 128 (0xF8 * 2 ^ 56 + 46 * 2 ^ 76)

/-- The bytes of the descriptor of queue 0 (R314): a ring of four slots at 0x1000, priority 7, EN, weight 1. -/
def ringBytes : List Host.Cell := [(1, 0x10), (16, 2), (17, 7), (18, 0x80), (19, 1)]

/-- A state in which queue 0 is in service and partition 0 has quadrant 0. -/
def served (s : State) : State :=
  { s with mem := ringBytes, parts := vset s.parts 0 { s.parts[0] with qmask := 1 }, hub := { s.hub with act := vset s.hub.act 0 grantAll } }

/-- The core with flag 3 at its count, a full receive entry, a counter at work, and the descriptors. -/
def cont1 : Cont :=
  { cont0 with
    f := vset cont0.f 3 1, recv := vset cont0.recv 1 (some 5), lc := vset cont0.lc 1 5, s := vset cont0.s 6 0x1000
    t := Vector.ofFn fun i => regT.getD i.val 0 }
def st1 : State := only cont1

/-- The core with stream 0 bound for output. -/
def st2 : State := only { cont1 with strm := vset cont1.strm 0 (some (bind true)) }

/-- The core with a home queue, in a machine with a queue in service. -/
def st3 : State := served (only { cont1 with info := some ⟨1, 0, 0⟩ })

/-! ### Hypotheses of the statements about slot instructions -/

theorem test_meets_scalar : ∀ i ∈ samplesS, Goes st0 i := goes_all (by decide +kernel)
theorem test_meets_controlRegisters :
    ∀ i ∈ (List.range 20).map (fun n => Instr.mfc g (.main 3) (BitVec.ofNat 8 n)) ++
      (List.range 20).map fun n => Instr.mtc g (BitVec.ofNat 8 n) (.main 1), Goes st0 i := goes_all (by decide +kernel)
theorem test_meets_vectorA : ∀ i ∈ samplesV .a, Goes st0 i := goes_all (by decide +kernel)
theorem test_meets_vectorB : ∀ i ∈ samplesV .b, Goes st0 i := goes_all (by decide +kernel)
theorem test_meets_loadsAndStores : ∀ i ∈ samplesLK, Goes st0 i := goes_all (by decide +kernel)
theorem test_meets_tileAndCopy : ∀ i ∈ samplesT ++ samplesC, Goes st1 i := goes_all (by decide +kernel)
theorem test_meets_branchAndSync : ∀ i ∈ samplesY, i ≠ .fence g 5 .fabric → Goes st1 i := by
  intro i hi hf
  have h : ∀ i ∈ samplesY, i ≠ .fence g 5 .fabric → goesOk st1 i = true := by decide +kernel
  exact goes_of (h i hi hf)

/-- `clz` of zero gives 64, of a number with bit 63 gives 0: both bounds of its count. -/
theorem test_meets_clz : (st0.now.scalar (.main 1)).toNat < 2 ^ (64 - 64) ∧ (st0.now.scalar (.const 63)).toNat < 2 ^ 64 ∧
    2 ^ 63 ≤ (st0.now.scalar (.const 63)).toNat := by decide +kernel

/-- A loop's counter at zero, and above. -/
theorem test_meets_loop : st1.now.lc[0] = 0 ∧ st1.now.lc[1] ≠ 0 := by decide +kernel

/-- Both leaves of a tree: none of the tests holds, and the first one does. -/
theorem test_meets_tree :
    (∀ i ∈ [Instr.tree g .gate ⟨47, false⟩ ⟨1, true⟩ ⟨2, false⟩ ⟨3, true⟩ 3 0, .tree g .chain ⟨0, true⟩ ⟨0, false⟩ ⟨0, false⟩ ⟨0, false⟩ 0 1],
      Goes st0 i) ∧ (st0.now.p[47]).getLsbD 0 = false ∧ (st0.now.p[0]).getLsbD 0 = false :=
  ⟨goes_all (by decide +kernel), by decide +kernel, by decide +kernel⟩

/-- The table of the manual's example (R113): N = 3, sizes 64, 128, 256, entries, at window 0. -/
def tableCells : List Host.Cell :=
  [(bankPa 0 0, 3), (bankPa 0 4, 64), (bankPa 0 8, 128), (bankPa 0 13, 1), (bankPa 0 16, 10), (bankPa 0 20, 11), (bankPa 0 24, 12), (bankPa 0 28, 13)]
/-- The state of that example, s1 as given. -/
def stB (x : W64) : State := { only { cont0 with s := vset cont0.s 1 x } with mem := tableCells }

/-- An operand at a size, and one above every size. -/
def meetsBucket (x : W64) : Bool :=
  let s := stB x
  goesOk s (.bsel g (.main 3) (.main 1) .zero) && (s.now.entry 0).v && s.now.cstat.getLsbD 2 && ownerReads (s.banks[0]).st &&
    tableOk (BitVec.ofNat 32 (memNat s.mem (bankPa 0 0) 4)) ((List.range 3).map fun i => BitVec.ofNat 32 (memNat s.mem (bankPa 0 0 + 4 * (i + 1)) 4)) &&
    (poisonIn s.poisoned (bankPa 0 0) 32).isNone
theorem test_meets_bucketSelect : meetsBucket 128 = true ∧ meetsBucket 257 = true := by decide +kernel

/-- The check of an access answers parts. -/
def passes (s : State) (i : Instr) (a : BitVec 24) (n align : Nat) (rd wr : Bool) : Bool :=
  match checkAccess (s.env i) a n align rd wr with
  | .ok _ => true
  | .error _ => false

theorem test_meets_accesses :
    passes st0 (.ld g .zero .zero 0 0 0 .v .qa) 0 256 4 true false = true ∧ passes st0 (.lde g .zero .zero 0 0 0 true) 0 4 4 true true = true ∧
    passes st0 (.ldf g .zero .zero 0 0 0 true) 0 4 4 true false = true ∧ passes st0 (.amo g .zero .zero .add 0 true) 0 8 8 true true = true ∧
    passes st0 (.lbst g .zero 0 true) 0 1 1 false false = true ∧ passes st0 (.st g .zero (.data (.s 1)) 0 0 .d) 0 8 8 false true = true ∧
    passes st0 (.st g .zero (.desc 0 true) 0 0 .hv) 0 16 16 false true = true ∧ passes st0 (.stm g .zero (.v 1) 0 0 .v 3) 0 256 4 false true = true ∧
    passes st0 (.watch g .zero) 0 4 4 false false = true := by decide +kernel

theorem test_meets_declareBuffer : passes st0 (.bst g .zero 7 .full 0) 0 1 1 false false = true ∧ (st0.banks[0]).st ≠ .filling ∧
    (st0.banks[0]).st ≠ .draining := by decide +kernel

theorem test_meets_systemAccess : (st1.now.s[6] + (0 : W64)).toNat % 8 = 0 ∧ (st1.now.s[7]).toNat < 2 ^ 16 ∧
    reach st1.landed (some st1.focus) 0x1000 8 false = .memory ∧ reach st1.landed (some st1.focus) 0x1000 4 true = .memory ∧
    poisonIn st1.poisoned 0x1000 8 = none := by decide +kernel

/-- The tile instructions with descriptors that R216 lets pass. -/
def tiles : List (Instr × TileOp × TOps) :=
  let o (d a b c : Fin 32) (m : BitVec 4) : TOps := { tops with dst := d, a := a, b := b, c := c, mod := m }
  [(.tadd g (o 6 3 4 0 0), .add, o 6 3 4 0 0), (.tsub g (o 6 3 4 0 0), .sub, o 6 3 4 0 0), (.tmul g (o 6 3 4 0 0), .mul, o 6 3 4 0 0),
   (.tmax g (o 6 3 4 0 0), .max, o 6 3 4 0 0), (.tmin g (o 6 3 4 0 0), .min, o 6 3 4 0 0), (.tabs g (o 6 3 0 0 0), .abs, o 6 3 0 0 0),
   (.tcvt g (o 6 3 0 0 0), .cvt, o 6 3 0 0 0), (.tscl g (o 6 3 0 5 0), .scl, o 6 3 0 5 0), (.tfill g (o 6 3 0 0 0), .fill, o 6 3 0 0 0),
   (.tsel g (o 6 3 4 8 0), .sel, o 6 3 4 8 0), (.tlut g (o 6 3 0 9 0), .lut, o 6 3 0 9 0), (.tred g (o 7 3 0 0 0), .red, o 7 3 0 0 0),
   (.tmma g (o 7 11 12 14 8), .mma, o 7 11 12 14 8), (.tmma g (o 7 22 23 14 8), .mma, o 7 22 23 14 8), (.tspm g (o 7 11 13 0 0), .spm, o 7 11 13 0 0),
   (.place g .add { o 6 3 4 0 0 with tq := 0 }, .add, { o 6 3 4 0 0 with tq := 0 })]

/-- Each role of an operand is some instruction's: the scales of blocks and the mask among them. -/
theorem test_meets_tileRoles : (tileRoles st1.now .mma { tops with dst := 7, a := 22, b := 23, c := 14, mod := 8 }).map Prod.fst = [.dst, .a, .b, .c, .sa, .sb] ∧
    ((tileRoles st1.now .spm { tops with dst := 7, a := 11, b := 13 }).map Prod.fst).contains .md = true := by decide +kernel
theorem test_meets_tileStart : ∀ p ∈ tiles, Goes st1 p.1 ∧ namedPoison (st1.env p.1) (tileNamed st1.now p.2.1 p.2.2) (tileHolder p.2.1 p.2.2) = none ∧
    firstBad (tileBads (st1.env p.1) p.2.1 p.2.2) = none ∧
    windowTrap st1.now st1.now.padm ((tileRoles st1.now p.2.1 p.2.2).map fun x => st1.now.t[x.2]) = none := by
  have h : ∀ p ∈ tiles, goesOk st1 p.1 = true ∧ namedPoison (st1.env p.1) (tileNamed st1.now p.2.1 p.2.2) (tileHolder p.2.1 p.2.2) = none ∧
      firstBad (tileBads (st1.env p.1) p.2.1 p.2.2) = none ∧
      windowTrap st1.now st1.now.padm ((tileRoles st1.now p.2.1 p.2.2).map fun x => st1.now.t[x.2]) = none := by decide +kernel
  exact fun p hp => ⟨goes_of (h p hp).1, (h p hp).2⟩

/-- The effect of an instruction is no trap. -/
def effects (s : State) (i : Instr) : Bool := match slotEff i (s.env i) with
  | .ok _ => true
  | .error _ => false

theorem effects_ok {s : State} {i : Instr} (h : effects s i = true) : ∀ t, slotEff i (s.env i) ≠ .error t := by
  intro t ht
  simp [effects, ht] at h

/-- The copies with descriptors that R181 and the rule of each let pass, and the other instructions of the slot. -/
def copies : List Instr :=
  let o (d a x : Fin 32) : COps := { cops with dst := d, src := a, aux := x }
  let n (d a x : Fin 32) : COps := { o d a x with post := ⟨0, 0, 0⟩ }
  [.cpy g (o 6 3 0), .gath g (o 15 16 17), .scat g (o 16 15 17), .mcast g (o 6 3 17), .flume g (o 18 3 0), .catom g (n 8 19 20) .cas,
   .wsa g (o 6 3 3), .wred g (o 6 3 17), .wstat g (o 19 3 0), .redf g (n 6 3 21) .sum, .hot g (o 19 3 0) true, .strm g 1 0 false 0 0 1]

theorem test_meets_copyStart : ∀ i ∈ copies, Goes st1 i ∧ ∀ t, slotEff i (st1.env i) ≠ .error t := by
  have h : ∀ i ∈ copies, goesOk st1 i = true ∧ effects st1 i = true := by decide +kernel
  exact fun i hi => ⟨goes_of (h i hi).1, effects_ok (h i hi).2⟩

theorem test_meets_unstrm : Goes st2 (.unstrm g 0 9 0 1 ⟨0, 0, 0⟩) ∧ st2.now.strm[0] = some (bind true) ∧ st2.now.busy.getLsbD 9 = false :=
  ⟨goes_of (by decide +kernel), by decide +kernel, by decide +kernel⟩

/-- A core with a release to itself on its way, and with an `lde` outstanding. -/
def stOwn : State := { st0 with releases := [⟨1, 0, [], 0, .unneeded, .flag 0 3 1, false⟩] }
def stLde : State := only { cont0 with acc := [⟨9, 0, 0, true, true, 1, false⟩] }
theorem test_meets_ownPosts : Goes stOwn (.post g 31 .own 0xFFFF 1) ∧ (stOwn.releases.any fun o => !o.engine && o.src == 0 && o.deliver.target == some 0) = true ∧
    Goes stLde (.post g 31 .own 1 1) ∧ ((stLde.landed.cores[stLde.focus]).accs.any fun a => a.fullEmpty && !a.watch) = true :=
  ⟨goes_of (by decide +kernel), by decide +kernel, goes_of (by decide +kernel), by decide +kernel⟩

/-- A post to the own core by its number, to another core, to another node, and nothing outstanding. -/
theorem test_meets_posts : Goes st3 (.post g 31 .own 0xFFFF 0x7FF) ∧ Goes st3 (.post g 3 (.core .zero) 0xFFFF 1) ∧
    Goes st3 (.post g 3 (.core (.const 1)) 0xFFFF 1) ∧ Goes st3 (.post g 3 (.node .zero) 0 1) ∧
    (st3.landed.cores[st3.focus]).accs = [] ∧ st3.now.scalar .zero = BitVec.ofNat 64 st3.focus.val ∧ st3.now.scalar (.const 1) = BitVec.ofNat 64 (1 : Fin 256).val ∧
    (1 : Fin 256) ≠ st3.focus ∧ (∀ o ∈ st3.releases, ¬ (o.engine = false ∧ o.src = st3.focus ∧ o.deliver.target = some st3.focus)) ∧
    (st3.parts[st3.now.part]).qmask.getLsbD 0 = true :=
  ⟨goes_of (by decide +kernel), goes_of (by decide +kernel), goes_of (by decide +kernel), goes_of (by decide +kernel), by decide +kernel, by decide +kernel,
    by decide +kernel, by decide +kernel, by decide +kernel, by decide +kernel⟩

/-- A flag one below its count, and at it. -/
theorem test_meets_waitf : Presented st1 (.waitf g 3 0 2) ∧ executes st1.now (bundleLeaf st1.now (opsOf (.waitf g 3 0 2))) (slotOf (.waitf g 3 0 2), .waitf g 3 0 2) = true ∧
    st1.now.give = none ∧ (st1.now.f[3]).toNat < 2 ∧ Goes st1 (.waitf g 3 0 1) :=
  ⟨⟨by decide +kernel, by decide +kernel, by decide +kernel, by decide +kernel, by decide +kernel, by decide +kernel⟩, by decide +kernel, by decide +kernel, by decide +kernel,
    goes_of (by decide +kernel)⟩

/-- The lowest completed tag, and none. -/
theorem test_meets_ffr : Goes st0 (.ffr g (.main 3) (.const 2)) ∧ (st0.now.tags &&& st0.now.scalar (.const 2)).getLsbD 1 = true ∧
    (st0.now.tags &&& st0.now.scalar (.const 2)).getLsbD 0 = false ∧ Goes st0 (.ffr g (.main 3) .zero) ∧ st0.now.tags &&& st0.now.scalar .zero = 0 :=
  ⟨goes_of (by decide +kernel), by decide +kernel, by decide +kernel, goes_of (by decide +kernel), by decide +kernel⟩

theorem test_meets_fences : st0.now.level ≠ 3 ∧ Goes { st0 with releases := [⟨1, 0, [], 0, .waiting [], .nothing, false⟩] } (.fence g 5 .fabric) :=
  ⟨by decide +kernel, goes_of (by decide +kernel)⟩

theorem test_meets_circuits : st1.now.scalar (.const 1) = BitVec.ofNat 64 (st1.focus.val / 16 * 16 + (1 : Fin 16).val) ∧ Goes st1 (.send g (.v 5) (.const 1)) ∧
    Goes st1 (.recv g (.w 2) (.const 1)) := ⟨by decide +kernel, goes_of (by decide +kernel), goes_of (by decide +kernel)⟩

theorem test_meets_give : Goes st0 (.give g 0 (.const 1) 251 1 true) ∧ st0.now.scalar (.const 1) = BitVec.ofNat 64 (1 : Fin 256).val ∧ (st0.now.entry 0).v = true :=
  ⟨goes_of (by decide +kernel), by decide +kernel, by decide +kernel⟩

/-- Two members of a team join, and a decoupled member leaves. -/
def stF : State :=
  let s := only { cont0 with team := some 0, info := some ⟨0x1000, 0, 0⟩, fusing := some 3 }
  { s with cores := vset s.cores 1 (s.cores[0]) }
def stL : State := only { cont0 with fused := some ⟨3, false, false, none⟩ }
theorem test_meets_fuse : fuseBad stF.landed stF.focus stF.now 3 = false ∧ fuseBad stL.landed stL.focus stL.now 0 = false ∧ Goes stF (.fuse g 3) ∧ Goes stL (.fuse g 0) :=
  ⟨by decide +kernel, by decide +kernel, goes_of (by decide +kernel), goes_of (by decide +kernel)⟩

/-- A record at window 0 that queue 0 accepts (R311, R316), and one of KIND 0, which is BADREC. -/
def stR : State := { st3 with mem := st3.mem ++ [(bankPa 0 0, 1)] }
theorem test_meets_spawn : Goes stR (.spawn g (.main 3) .zero .zero) ∧ effects stR (.spawn g (.main 3) .zero .zero) = true ∧
    offer stR.landed 0 stR.hub.node (stR.now.cstat.getLsbD 2) true (quadOf stR.focus) (recordAt (stR.env (.spawn g (.main 3) .zero .zero)) 0) = 0 ∧
    Goes st3 (.spawn g (.main 3) .zero .zero) ∧ effects st3 (.spawn g (.main 3) .zero .zero) = true ∧
    offer st3.landed 0 st3.hub.node (st3.now.cstat.getLsbD 2) true (quadOf st3.focus) (recordAt (st3.env (.spawn g (.main 3) .zero .zero)) 0) = 4 :=
  ⟨goes_of (by decide +kernel), by decide +kernel, by decide +kernel, goes_of (by decide +kernel), by decide +kernel, by decide +kernel⟩

theorem test_meets_leaving : (∀ p ∈ [(Instr.suspendQueue g .zero 15, SusMode.queue), (.suspendFlag g .zero 3 5 2, .flag 5 2), (.suspendWatch g .zero 3, .watch), (.yield g, .queue)],
      Goes st3 p.1 ∧ susTrap (st3.env p.1) (some 0) p.2 = none) ∧ st3.now.homeQueue = some 0 ∧ Goes st3 (.done g) ∧ ∀ z : Fin 8, st3.now.strm[z] = none := by
  have h : ∀ p ∈ [(Instr.suspendQueue g .zero 15, SusMode.queue), (.suspendFlag g .zero 3 5 2, .flag 5 2), (.suspendWatch g .zero 3, .watch), (.yield g, .queue)],
      goesOk st3 p.1 = true ∧ susTrap (st3.env p.1) (some 0) p.2 = none := by decide +kernel
  exact ⟨fun p hp => ⟨goes_of (h p hp).1, (h p hp).2⟩, by decide +kernel, goes_of (by decide +kernel), by decide +kernel⟩

/-- Lanes that differ and lanes that do not; scalars likewise. -/
def stC : State := only { cont0 with va := { cont0.va with r := vset cont0.va.r 9 (BitVec.ofNat 2048 (2 ^ 2016)) } }
theorem test_meets_compares : Goes stC (.cmptVector g (.v 9) (.w 9) none) ∧ lane (stC.now.kdata (.v 9)) 63 ≠ lane (stC.now.kdata (.w 9)) 63 ∧
    (∀ k, k < 63 → lane (stC.now.kdata (.v 9)) k = lane (stC.now.kdata (.w 9)) k) ∧ Goes st0 (.cmptVector g (.v 9) (.w 9) none) ∧
    Goes st0 (.cmptScalar g (.const 1) .zero) ∧ Goes st0 (.cmptScalar g .zero .zero) :=
  ⟨goes_of (by decide +kernel), by decide +kernel, by decide +kernel, goes_of (by decide +kernel), goes_of (by decide +kernel), goes_of (by decide +kernel)⟩

/-- A handler with the image it returns to. -/
def stH : State :=
  let s := only { cont0 with tcause := 0x200, cstat := 4 }
  { s with cores := vset s.cores 0 { s.cores[0] with keep := some cont0 } }
theorem test_meets_returns : Goes st0 (.rft g) ∧ st0.now.tcause.getLsbD 9 = false ∧ Goes stH (.rft g) ∧ stH.now.tcause.getLsbD 9 = true ∧
    (stH.landed.cores[stH.focus]).keep.isSome = true ∧ Goes st0 (.brake g .core .zero) ∧ Goes st0 (.brakeClear g .core .zero) ∧
    Goes st0 (.brake g .stone .zero) ∧ Goes st0 (.brakeClear g .tile .zero) :=
  ⟨goes_of (by decide +kernel), by decide +kernel, goes_of (by decide +kernel), by decide +kernel, by decide +kernel, goes_of (by decide +kernel),
    goes_of (by decide +kernel), goes_of (by decide +kernel), goes_of (by decide +kernel)⟩

/-! ### Hypotheses of the statements about events of cores, banks and arrivals -/

/-- A bundle that nothing holds or traps, none of whose slots acts on anything else. -/
def meetsBundle (s : State) (w : BitVec 512) : Bool :=
  match bundleOfWord w with
  | .error _ => false
  | .ok b =>
    let run := b.ops.filter (executes s.now (bundleLeaf s.now b.ops))
    canIssue s s.focus && !(gangHeld s.landed s.focus) && s.now.asked.isNone && gangReady s.landed s.focus && b.kind == 0 && !b.qp && (decodeChecks s.now b.ops).isNone && (bundleHolds s.landed s.focus 0 run).isEmpty &&
      (stallTrap s.now (bundleLeaf s.now b.ops) b.ops).isNone &&
      (match runSlots s.landed s.focus b.triple run b.ops with
        | .ok outs => outs.all fun y => y.2.acts.isEmpty && y.2.last.isEmpty && y.2.after.isNone
        | .error _ => false) &&
      match runSlots s.landed s.focus b.triple run b.ops with
      | .ok outs => match runStages (envOf s.landed s.focus run) s.landed s.focus (earlyActs s.focus outs) run with
        | .go [] [] => true
        | _ => false
      | .error _ => false
theorem test_meets_bundleIssue : meetsBundle st0 (bundleOf .s 0xFC0040C04080000) = true := by decide +kernel

/-- Cores 0 and 1 in a fused gang of their tile, core 1 a cycle further on. -/
def stG (f : Fused) : State :=
  let s := only { cont0 with fused := some f }
  { s with cores := vset s.cores 1 { s.cores[0] with cont := { cont0 with fused := some f, acyc := 1 } } }
/-- The core in focus may issue, and its gang lets it. -/
def gangGoes (s : State) : Bool := canIssue s s.focus && !(gangHeld s.landed s.focus) && s.now.asked.isNone && gangReady s.landed s.focus
theorem test_meets_decouple : gangGoes (stG ⟨3, true, false, none⟩) = true := by decide +kernel
/-- A bundle that rejoins: among coupled members, when the line has released it, and when it has yet to pull. -/
theorem test_meets_rejoin : gangGoes (stG ⟨3, true, false, none⟩) = true ∧ decoupled (stG ⟨3, true, false, none⟩).landed 0 ⟨3, true, false, none⟩ = false ∧
    gangGoes (stG ⟨3, false, true, some 0⟩) = true ∧ ((0 : Nat) ≤ ((stG ⟨3, false, true, some 0⟩).landed.cores[0]).clk) ∧
    gangGoes (stG ⟨3, false, false, none⟩) = true ∧ decoupled (stG ⟨3, false, false, none⟩).landed 0 ⟨3, false, false, none⟩ = true := by decide +kernel
theorem test_meets_owedCycle : (only { cont0 with owed := 1 }).cores[0].phase = .running ∧ gangHeld (only { cont0 with owed := 1 }) 0 = false ∧
    gangAhead (only { cont0 with owed := 1 }) 0 = false ∧ gangReady (only { cont0 with owed := 1 }) 0 = true := by decide +kernel
/-- The members of a gang of tile 0 pull the line; the other cores of the tile are not fused. -/
def stW (m : BitVec 4) : State :=
  { State.reset with cores := Vector.ofFn fun i =>
      if i.val < 4 && m.getLsbD i.val then { CoreSt.zero with cont := { Cont.zero 1 with fused := some ⟨m, false, true, none⟩ } } else CoreSt.zero }
theorem test_meets_windshaft : ∀ m ∈ [(15 : BitVec 4), 6, 1], m ≠ 0 ∧ ∀ j : Fin 256, j.val / 4 = 0 →
    (((stW m).cores[j]).cont.fused == if m.getLsbD (j.val % 4) then some ⟨m, false, true, none⟩ else none) = true := by decide +kernel
/-- Firmware that verifies, and firmware whose key is not the one fused. -/
theorem test_meets_boot : State.reset.hub.plan.verified = true := by decide +kernel
theorem test_meets_bootFails : { State.reset.hub.plan with fused := [] }.verified = false := by decide +kernel

/-- An access of core 0 to the first word of bank 0. -/
def acc0 (op : AccOp) (beats : Nat) (parked : Bool) : Access :=
  { id := 1, cid := 1, core := 0, cls := 0, op, off := 0, len := 4, pos := 0, win := 0, earliest := 0, beats, parked }
/-- That access at the head of its bank's queue, with the load record of its core. -/
def stQ (a : Access) : State :=
  let s := only { cont0 with loads := [⟨1, .qs true, .w, 0, 0, 0, 0, 1, false, [], 0, none, 0, 0, .l, [0]⟩] }
  { s with banks := vset s.banks 0 { s.banks[0] with q := [a] } }
/-- The first unparked access that nothing blocks is this one. -/
def headIs (s : State) (a : Access) : Bool := (s.banks[0]).q.find? (fun y => !y.parked && !(y.blocked s 0)) == some a
theorem test_meets_ownerPort : headIs (stQ (acc0 (.store [(0, 1)]) 2 false)) (acc0 (.store [(0, 1)]) 2 false) = true ∧
    headIs (stQ (acc0 (.store [(0, 1)]) 1 false)) (acc0 (.store [(0, 1)]) 1 false) = true ∧
    headIs (stQ (acc0 .lde 1 false)) (acc0 .lde 1 false) = true ∧ (stQ (acc0 .lde 1 false)).empties.contains (bankPa 0 0 / 4) = false ∧
    headIs { stQ (acc0 .lde 1 false) with empties := [bankPa 0 0 / 4] } (acc0 .lde 1 false) = true ∧
    (((stQ (acc0 .lde 1 false)).cores[0]).cont.loads.any fun l => l.id == 1) = true := by decide +kernel
theorem test_meets_park : ((stQ (acc0 .lde 1 true)).banks[0]).q.find? (fun y => y.parked && (stQ (acc0 .lde 1 true)).full (y.word 0)) =
    some (acc0 .lde 1 true) := by decide +kernel
/-- A load that has its data. -/
def stD (d : LoadTo) : State := only { cont0 with loads := [⟨1, d, .w, 0, 0, 0, 0, 0, true, [(0, 7)], 0, none, 0, 0, .l, []⟩], acyc := 100 }
theorem test_meets_loadData : ∀ d ∈ [LoadTo.qa, .qb, .qs true, .desc 31 true],
    ((({ (stD d).cores[0] with clk := 100 } : CoreSt).cont.loads.find? fun l => l.due 100).map LoadRec.dest) = some d := by decide +kernel

/-- A release that may be delivered to flag 3 of core 0. -/
def rel0 : Release := ⟨1, 1, [], 0, .unneeded, .flag 0 3 1, true⟩
/-- A post's release to that flag, behind one of an engine and one to another core (R252). -/
theorem test_meets_postArrival : ∀ k : Nat, k < 2 → ∀ o, [rel0, { rel0 with engine := false, deliver := .flag 5 3 1 }, { rel0 with engine := false }][k]? = some o →
    o.engine = true ∨ o.src ≠ rel0.src ∨ o.deliver.target ≠ some 0 := by decide +kernel
theorem test_meets_flagIncrement : rel0.ready? { st0 with releases := [rel0] } = true ∧ (st0.cores[0]).phase = .running ∧
    ∀ p ∈ (st0.quads[quadOf 0]).parks, p.holds 0 3 = false := by decide +kernel
/-- A team whose barrier only core 0 has yet to reach, and one that core 1 has yet to reach too. -/
def stT (members : List (Fin 256)) : State := { only { cont0 with team := some 5, barWait := some 0 } with barriers := [⟨5, false, members, [], [], 2⟩] }
theorem test_meets_barArrival : ∀ m ∈ [[(0 : Fin 256)], [0, 1]], barrierOf (stT m) ((stT m).cores[0]).cont = some ⟨5, false, m, [], [], 2⟩ ∧
    ((stT m).cores[0]).needs 0 = [] ∧ ((stT m).cores[0]).cont.barrier = none ∧ ((stT m).cores[0]).cont.barWait = some 0 := by decide +kernel
/-- Core 0 holds a value for core 1, which runs. -/
def stS : State :=
  let s := only { cont0 with send := vset cont0.send 1 (some 9) }
  { s with cores := vset s.cores 1 { s.cores[0] with cont := cont0 }, quads := vset s.quads 1 { s.quads[0] with moving := [⟨0, 1, 9, 0⟩] }, clock := 100 }
theorem test_meets_circuitHeader : (stS.cores[0]).cont.send[quadIx 1] = some 9 ∧
    (∀ j : Fin 16, j ≠ quadIx 1 → (stS.cores[0]).cont.send[j] = none) ∧ (stS.cores[0]).phase = .running ∧ (stS.cores[1]).phase = .running ∧
    (stS.cores[1]).cont.recv[quadIx 0] = none ∧ (stS.quads[quadOf 0]).moving = [] ∧
    (match pairSlot (stS.quads[quadOf 0]).slottab (quadIx 0) (quadIx 1) with
      | some k => decide (headerCycle k (max (stS.cores[0]).cont.sendAt[quadIx 1] (stS.cores[1]).cont.recvAt[quadIx 0]) ≤ stS.clock)
      | none => false) = true := by decide +kernel
theorem test_meets_circuitData : (stS.quads[1]).moving.find? (fun o => o.dst == quadIx 17 && decide (o.at_ ≤ stS.clock)) = some ⟨0, 1, 9, 0⟩ ∧ quadOf 17 = 1 := by decide +kernel
/-- Bank 1 on its way from core 1 to window 5 of core 0, which is open. -/
def stV : State :=
  let s := only { cont0 with bmap := vset cont0.bmap 5 ⟨0, false, true, 0⟩ }
  { s with banks := vset s.banks 1 { s.banks[1] with transit := some (.give 1 0 5 3 true 9 0 [7]) } }
theorem test_meets_giveAttach : (stV.banks[1]).transit = some (.give 1 0 5 3 true 9 0 [7]) ∧ drained stV 1 9 = true ∧ stV.outstanding 1 [7] = false ∧
    max 0 (stV.banks[1]).clear ≤ stV.clock ∧ ((stV.cores[0]).cont.entry 5).v = false ∧ ((stV.cores[0]).cont.entry 5).opened = true := by decide +kernel
/-- A released park of quadrant 0, on a monitor or a flag. -/
def stP (f : Option (Fin 32 × Nat)) : State :=
  { st3 with quads := vset st3.quads 0 { st3.quads[0] with parks := [⟨List.replicate 64 0, 0, 0, f, 0, none, true, false, 0, false, false, []⟩] } }
/-- The park may be appended. -/
def meetsPark (f : Option (Fin 32 × Nat)) : Bool :=
  let s := stP f
  let r := queueAt s 0
  ((s.quads[0]).parks[0]?.map fun p => (p.released, p.appended, p.flag, p.queue)) == some (true, false, f, 0) && !(s.outstanding 0 []) && r.en && aciGrants s r s.hub.node && !r.full
theorem test_meets_parkAppend : meetsPark none = true ∧ meetsPark (some (3, 1)) = true := by decide +kernel

/-! ### Hypotheses of the statements about events of engines, streams and the pager -/

/-- The state a step leaves. -/
def next (o : Host.Outcome State Fault Refusal) : State :=
  match o with
  | .next t => t
  | _ => st0

/-- The core with three tensors of four words in window 0, and an instruction on them started. -/
def stE (i : Instr) : State :=
  let t := fun (n : Fin 32) => if n = 3 then tens 0x400 0 1 4 1 0 0 else if n = 4 then tens 0x500 0 1 4 1 0 0 else if n = 6 then tens 0x600 0 1 4 1 0 0 else 0
  next (exec i (only { cont0 with t := Vector.ofFn t }))
/-- Its job. -/
def jobOf (s : State) : Option Job := s.jobs.head?

/-- An instruction of the Miller whose operands translate. -/
def meetsPlacing (i : Instr) : Bool :=
  let s := stE i
  match jobOf s with
  | none => false
  | some j => (s.job j.id).isSome && !j.prepared && !(placementFaulted s j.id) && j.ready s &&
    match translateUnits s j.core j.part (tileUnits j) with
    | (.ok _, _) => true
    | _ => false
theorem test_meets_placement : meetsPlacing (.tadd g tops) = true ∧ meetsPlacing (.place g .add { tops with tq := 0 }) = true := by decide +kernel

/-- The state in which an addition is placed, its one piece started in a quern. -/
def stPl : State := next (exec (.millerPlacement 6) (stE (.tadd g tops)))
/-- That job with its pieces replaced. -/
def withPieces (s : State) (f : Piece → List Piece) : State :=
  { s with jobs := s.jobs.map fun j => { j with pieces := j.pieces.flatMap f } }
/-- A property of piece `ix` of the one job. -/
def ofPiece (s : State) (ix : Nat) (f : Job → Piece → Bool) : Bool :=
  match jobOf s with
  | none => false
  | some j => (s.job j.id).isSome && match j.pieces[ix]? with
    | none => false
    | some p => f j p
/-- The link before left its accumulators, and the piece computes. -/
def computes (s : State) (j : Job) (ix : Nat) (p : Piece) : Bool :=
  match linkBefore j ix p with
  | .ready prev => match computePiece s j p prev with
    | .done _ _ _ _ => true
    | .fails _ _ => false
  | _ => false
theorem test_meets_quernPiece : ofPiece stPl 0 (fun j p => j.work == .tile .add && p.st == .started && p.exec == .quern 0 &&
    p.clear stPl && tileViews stPl j p false && (!p.last || tileViews stPl j p true) && computes stPl j 0 p) = true := by decide +kernel
/-- A stone's piece that has its values still to write, and one that failed. -/
def stPf (code : BitVec 4) : State := withPieces stPl fun p => [{ p with st := .performed code, got := if code = 0 then [(bankPa 0 0x600, 1)] else [] }]
theorem test_meets_performedPiece : ∀ code ∈ [(0 : BitVec 4), 2], ofPiece (stPf code) 0 (fun j p => p.st == .performed code && p.clear (stPf code) &&
    (match linkBefore j 0 p with
      | .failed _ => false
      | _ => true) && (code != 0 || (tileViews (stPf code) j p true && spotsPowered (stPf code) (p.got.map fun g => .here g.1 1)))) = true := by decide +kernel
/-- Its bank has lost its power (R390): its package is in C3 and its die gated. -/
def stOff (s : State) : State := { s with hub := { s.hub with pwr := 3 }, dies := vset s.dies 0 { s.dies[0] with poweredDown := true } }
theorem test_meets_gatedPiece : ofPiece (stOff (stPf 0)) 0 (fun j p => j.work == .tile .add && p.st == .performed 0 && p.clear (stOff (stPf 0)) &&
    !(spotsPowered (stOff (stPf 0)) (p.got.map fun g => .here g.1 1))) = true := by decide +kernel
/-- Two links, the first of which has failed. -/
theorem test_meets_failedLink : ofPiece (withPieces stPl fun p => [{ p with st := .ended 3 }, p]) 1 (fun j p => p.st == .started && match linkBefore j 1 p with
    | .failed code => code == 3
    | _ => false) = true := by decide +kernel
/-- The piece at the head of stone 0's queue. -/
def stSj (y : StoneSt) : State := { stPl with stones := vset stPl.stones 0 { y with jobs := [(6, 0)] } }
theorem test_meets_stoneJob : ∀ y ∈ [{ StoneSt.zero with running := true }, { StoneSt.zero with braked := true, running := true }], ofPiece (stSj y) 0 (fun j p =>
    (!(stoneStops (stSj y) 0) || y.running) && p.st == .started && (stoneRefuses (stSj y) 0).isEmpty && tileViews (stSj y) j p false && computes (stSj y) j 0 p) = true := by decide +kernel
/-- A braked stone, and one whose die is gated, that holds the piece's B and has yet to run it (R353). -/
theorem test_meets_stoneRefusal :
    let s := stSj { StoneSt.zero with braked := true }
    let t : State := { s with jobs := s.jobs.map fun j => { j with b := { j.b with d := tens 0 2 0x17 256 1 0 0 } } }
    stoneStops t 0 = true ∧ stoneStops { t with stones := vset t.stones 0 { t.stones[0] with braked := false } } 0 = true ∧
    (t.stones[0]).jobs = [(6, 0)] ∧ (t.stones[0]).running = false ∧ ofPiece t 0 (fun j p => p.st == .started && dSpace j.b.d == 2) = true := by decide +kernel

/-- A copy whose piece is started, and the same piece waiting. -/
def stCp : State := next (exec (.copyPieceStart 7 0) (stE (.cpy g cops)))
def stCw : State := withPieces stCp fun p => [{ p with st := .waiting, tr := [], opened := [] }]
theorem test_meets_copyPieceStart : ofPiece stCw 0 (fun j p => decide (4 ≤ j.queue.val) && j.ready stCw && j.prepared && j.work == .cpy && p.fixed == none &&
    p.st == .waiting && decide ((recut stCw j p).length ≤ 1) && match beginPiece stCw j 0 false (p.pairs.map fun x => (j.a, x.1)) (p.pairs.map fun x => (j.dst, x.2)) p.quarter with
      | .ok tr _ _ _ _ => (awayRuns (pieceSpots stCw j { p with tr } false).1).isEmpty && (awayRuns (pieceSpots stCw j { p with tr } false).2).isEmpty
      | _ => false) = true := by decide +kernel
theorem test_meets_copyPieceEnd : ofPiece stCp 0 (fun j p => p.st == .started && p.awaiting.isEmpty && j.work == .cpy &&
    let (src, dst) := pieceSpots stCp j p false
    (awayRuns dst).isEmpty && p.clear stCp && !(rowBefore j 0 p) && p.whole && p.lost.isEmpty &&
      pieceThere stCp j p && (pieceMask j p).all (fun m => m == 0xFF) &&
      (abstainWords stCp (((spotBytes dst).zip (pieceData stCp p src)).map fun x => (x.1, x.2.1))).isEmpty &&
      requested stCp (7, 0) (mainBytesOf src ++ mainBytesOf dst) && requestsServed stCp (7, 0) (mainBytesOf src ++ mainBytesOf dst) && !(viewHeld stCp (7, 0) (mainBytesOf src ++ mainBytesOf dst)) &&
      (pieceData stCp p src).all fun x => !x.2) = true := by decide +kernel
theorem test_meets_gatedCopy : ofPiece (stOff stCp) 0 (fun j p => p.st == .started && p.clear (stOff stCp) && !(rowBefore j 0 p) && !p.sent &&
    !(pieceThere (stOff stCp) j p)) = true := by decide +kernel
/-- A completed instruction in each mode of posting, all of its pieces OK, and one with a piece that failed. -/
theorem test_meets_tagCompletion : ∀ c ∈ [(0 : BitVec 4), 3], ∀ m ∈ [(0 : Fin 3), 1, 2],
    let s := withPieces stCp fun p => [{ p with st := .ended c }]
    let t : State := { s with jobs := s.jobs.map fun j => { j with post := { j.post with mode := m } } }
    t.jobs.length = 1 ∧ (t.jobs.all fun j => j.completes t && (t.cores[j.core]).cont.cid == j.cid && j.post.mode == m && j.word.isNone &&
      (j.pieces.all fun y => y.st == .ended 0) == (c == 0)) = true := by decide +kernel

/-- An input stream with room, and an output stream with an element landed. -/
def stI : State := only { cont0 with strm := vset cont0.strm 7 (some (bind false)) }
def elem0 : Elem := ⟨0, 5, true, none, false, false⟩
def stO : State := only { cont0 with strm := vset cont0.strm 7 (some { bind true with buf := [elem0] }) }
theorem test_meets_streamFill : ((bind false).ready stI && !(elemFaulted stI (bind false) (bind false).fetched) && decide ((bind false).fetched < (bind false).total) &&
    match elemSpots (bind false) [] 0 with
    | .ok xs => (lowestPoison stI xs).isNone && (banksOf (xs.map fun a => .here a 1)).all fun n => ((stI.banks[n]).engBegin false (bind false).bufNo).isSome
    | .error _ => false) = true := by decide +kernel
theorem test_meets_streamDrain : (drainElem stO 0 { bind true with buf := [elem0] } false).isSome = true ∧
    (∀ o ∈ stO.contsOf 0, o.drains = []) ∧ (stO.cores[0]).keep = none := by decide +kernel

/-- An invalidation that every core has acknowledged, and one past its watchdog. -/
def inv0 (waiting : List (Fin 256)) : Inval := ⟨5, 0, 1, 9, 0, .page, 0, 0x1000, 0, waiting, []⟩
theorem test_meets_tlbiCompletion : [inv0 []].find? (fun o => o.id == 5) = some (inv0 []) ∧ (st0.cores[0]).cont.cid = (inv0 []).cid := by decide +kernel
theorem test_meets_invalWatchdog : [inv0 [3]].find? (fun o => o.id == 5) = some (inv0 [3]) ∧
    (inv0 [3]).start + st0.hub.inval.toNat ≤ { st0 with clock := 1048576 }.clock ∧ ofPiece stCp 0 (fun j p => !(wheelWriting stCp j p)) = true := by decide +kernel

/-- A page fault of a piece, and a pager's queue with room (R314: CLASS 1, PRIV, PART 0). -/
def fault0 : PagerFault := ⟨3, .piece 6 0, 0x5000, false, 0, 9, 0, 0, 0, false⟩
def stF0 : State := { stPl with faults := [fault0], mem := [(1, 0x10), (16, 2), (17, 0x80), (18, 0x80), (19, 1), (22, 1)] }
theorem test_meets_pager : stF0.faults.find? (fun o => o.handle == 3 && !o.appended) = some fault0 ∧ pagerQueue stF0 0 = some 0 ∧
    (queueAt stF0 0).full = false ∧ ofPiece stF0 0 (fun j _ => j.id == 6 && j.prepared && j.work == .tile .add) = true := by decide +kernel
/-- The fault of a read by a contributor to a reduction, on a node with a number. -/
def stRf : State := { stF0 with jobs := stF0.jobs.map (fun j => { j with work := .redf .sum }), hub := { stF0.hub with node := 4 } }
theorem test_meets_pagerAbstains : stRf.hub.node ≠ 0 ∧ fault0.write = false ∧ ofPiece stRf 0 (fun j p => j.work == .redf .sum && j.prepared &&
    match beginPiece stRf j 0 false [] (p.pairs.map fun x => (j.dst, x.2)) with
      | .ok _ _ _ _ _ => true
      | _ => false) = true := by decide +kernel

/-! ### Hypotheses of the statements about events of stacks, freezes, the dispatcher, the platform and the fabric -/

/-- A pseudo-channel with one request, and one whose wheel reads its status for a piece that is started. -/
def req0 : MemReq := ⟨(6, 0), 0, 0, 0, 1, false⟩
def stHome (h : HomeSt) : State := { st0 with homes := vset st0.homes 0 h }
theorem test_meets_memoryRequest : ((stHome { HomeSt.zero with reqs := [req0] }).homes[0]).reqs[0]? = some req0 ∧ req0.served = false := by decide +kernel
/-- The wheel of home 0 with a job of this work. -/
def stWh (work : Work) (w : WheelJob) : State :=
  { stPl with jobs := stPl.jobs.map (fun j => { j with work }), homes := vset stPl.homes 0 { HomeSt.zero with jobs := [w] } }
/-- A bag of rows of piece 0 of job 6. -/
def bag0 (len pos : Nat) (acc : Option (List W32)) : WheelJob := ⟨6, 0, [(0, 0), (0, 0)], len, pos, acc, false⟩
theorem test_meets_wheelStep : ∀ x ∈ [(Work.wstat, bag0 1 0 none), (.wsa, bag0 1 0 none), (.wred, bag0 2 0 none), (.wred, bag0 2 1 (some [1]))],
    ((stWh x.1 x.2).homes[0]).reqs = [] ∧ ((stWh x.1 x.2).homes[0]).jobs = [x.2] ∧
    ofPiece (stWh x.1 x.2) 0 (fun j p => j.id == 6 && j.work == x.1 && p.st == .started) = true ∧
    (applyActs (stWh x.1 x.2) (windowActs (stWh x.1 x.2) 0)).poisoned = [] ∧
    (applyActs (stWh x.1 x.2) (windowActs (stWh x.1 x.2) 0)).hub.contexts = [] := by decide +kernel
/-- A pseudo-channel at work before the limit of postponed refreshes, and at it (R299). -/
theorem test_meets_refresh : ¬ ((stHome { HomeSt.zero with reqs := [req0], postponed := 7 }).homes[0]).reqs = [] ∧
    8 ≤ ((stHome { HomeSt.zero with reqs := [req0], postponed := 8 }).homes[0]).postponed := by decide +kernel
/-- A stack's test at its first and at its last row, in each phase. -/
def stTest (phase row : Nat) : State := { st0 with memStacks := vset st0.memStacks 0 ⟨some (63, 31, phase, row), 0, false⟩ }
theorem test_meets_selfTest : (st0.hub.stktest[0]).getLsbD 15 = true ∧ (st0.memStacks[0]).test = none ∧ (st0.memStacks[0]).next < 2048 ∧
    (st0.homes[0]).failedBank = none ∧ ((stTest 0 8191).memStacks[0]).test = some (63, 31, 0, 8191) ∧
    ((stTest 1 0).memStacks[0]).test = some (63, 31, 1, 0) ∧ ((stTest 2 0).memStacks[0]).test = some (63, 31, 2, 0) ∧
    ((stTest 0 0).homes[63]).jobs = [] ∧ ((stTest 0 0).homes[63]).reqs = [] ∧ ((stTest 0 0).homes[63]).postponed = 0 ∧ ((stTest 0 0).homes[63]).owed = [] := by decide +kernel
/-- A powered die whose logic test may start, and one under test. -/
def stDie (testing : Bool) : State := { st0 with dies := vset st0.dies 3 { DieSt.zero with poweredDown := false, testing } }
theorem test_meets_logicTest : (stDie false).hub.ltest.getLsbD 15 = true ∧ ((stDie false).dies[3]).testing = false ∧
    ((stDie false).dies[3]).poweredDown = false ∧ ((stDie true).dies[3]).testing = true := by decide +kernel

/-- A core with a handler's address that runs, is saving, is saved. -/
def stX (f : CoreSt → CoreSt) : State :=
  let s := only { cont0 with tvec := 64 }
  { s with cores := vset s.cores 0 (f s.cores[0]) }
theorem test_meets_trapEntry : ((stX id).cores[0]).phase = .running ∧ ((stX id).cores[0]).cont.asked = none ∧ ((stX id).cores[0]).cont.tcause.getLsbD 9 = false ∧
    ((stX id).cores[0]).cont.tvec ≠ 0 := by decide +kernel
/-- The core's next bundle votes on its S slot (R49). -/
theorem test_meets_voteTrap : votesOn (State.reset.withFetchWord 512 ((bundleOf .s 0xFC0040C04080000).toNat + 2 ^ 500)) 0 0 = true := by decide +kernel
theorem test_meets_saves : savable (stX fun x => { x with phase := .trapSave 1, keep := some cont0 }) 0 = true ∧
    savable (stX fun x => { x with phase := .preemptSave, keep := some cont0 }) 0 = true := by decide +kernel
theorem test_meets_preemption : ((stX id).cores[0]).phase ≠ .vacant ∧ ((stX id).cores[0]).cont.team = none ∧
    preemptable ((stX fun x => { x with preempt := true }).cores[0]) = true := by decide +kernel
theorem test_meets_spill : ((stX fun x => { x with phase := .saved, keep := some cont0 }).cores[0]).keep.isSome = true ∧
    ((stX id).quads[quadOf 0]).moving = [] ∧ cont0.acc = [] := by decide +kernel
theorem test_meets_lateTransition : ((stX id).cores[0]).cont.fused = none ∧ lateOperation cont0 (.issue .v0) = some (1, 1, .v0) ∧
    rplWin (rplTotal (st0.stones[63]).rplcnt) < rplLimit (rplTotal (st0.stones[63]).rplcnt) ∧
    rplWin (rplTotal ((stX id).cores[0]).rplcnt) < rplLimit (rplTotal ((stX id).cores[0]).rplcnt) := by decide +kernel
theorem test_meets_windows : ((stX fun x => { x with clk := 65536 }).cores[0]).windowEnd ≤ ((stX fun x => { x with clk := 65536 }).cores[0]).clk ∧
    ((stX fun x => { x with clk := 9, stretchEnd := 9 }).cores[0]).stretchEnd ≤ 9 ∧
    ((stX fun x => { x with holds := [(3, 5), (7, 2 ^ 20)] }).cores[0]).holds.find? (fun o => decide (2 ^ 20 ≤ o.2)) = some (7, 2 ^ 20) := by decide +kernel

/-- One idle core, 5, of die 0, in a partition with an image, and a record at the head of queue 0. -/
def head0 : List Byte := [1, 0, 0x0E] ++ List.replicate 61 0
def stK : State :=
  let s := served State.reset
  { s with
    mem := [(1, 0x10), (12, 1), (16, 2), (17, 7), (18, 0x80), (19, 1), (0x1000, 1), (0x1002, 0x0E), (0x1040, 1)]
    cores := vset s.cores 5 { CoreSt.zero with gated := false }, dies := vset s.dies 0 { DieSt.zero with poweredDown := false }
    parts := vset s.parts 0 { s.parts[0] with imgV := true, queued := true } }
theorem draw_single {α : Type} [BEq α] (free : Nat) (x : α) : drawSome free 1 [x] = [x] := by simp [drawSome, Nat.mod_one]
theorem test_meets_dispatchHead : (∀ o ∈ (stK.dies[0]).seating, o.cores ≠ []) ∧ ((dieCores 0).any (idleCore stK 0) = true ∧ (stK.dies[0]).resume.isEmpty = true ∧ servedQueues stK 0 7 = [0] ∧
    creditOf (stK.dies[0]) 0 (queueAt stK 0).weight ≠ 0 ∧ headBad (memBytes stK.mem (ringSlot (queueAt stK 0) (queueAt stK 0).head) 64) = false) ∧
    seatsFor stK 0 0 7 (memBytes stK.mem (ringSlot (queueAt stK 0) (queueAt stK 0).head) 64) = [5] := by
  refine ⟨by decide +kernel, by decide +kernel, ?_⟩
  have h : hLevel (recHeader (memBytes stK.mem (ringSlot (queueAt stK 0) (queueAt stK 0).head) 64)) = 0 := by decide +kernel
  have c : (freeCores stK 0 (hPart (recHeader (memBytes stK.mem (ringSlot (queueAt stK 0) (queueAt stK 0).head) 64))) 0 7).filter
      (fitsQuad (recHeader (memBytes stK.mem (ringSlot (queueAt stK 0) (queueAt stK 0).head) 64))) = [5] := by decide +kernel
  simp only [seatsFor, h, c, draw_single]
/-- The same record, picked before, its cores lost. -/
def stLost : State := { stK with dies := vset stK.dies 0 { stK.dies[0] with seating := [⟨[], head0, some 0, none, []⟩] } }
theorem test_meets_placeAgain : (dieCores 0).any (idleCore stLost 0) = true ∧ seatsFor stLost 0 0 (hPrio (recHeader head0)) head0 = [5] := by
  refine ⟨by decide +kernel, ?_⟩
  have h : hLevel (recHeader head0) = 0 := by decide +kernel
  have c : (freeCores stLost 0 (hPart (recHeader head0)) 0 (hPrio (recHeader head0))).filter (fitsQuad (recHeader head0)) = [5] := by decide +kernel
  simp only [seatsFor, h, c, draw_single]
/-- A continuation that waits to be resumed on core 5's quadrant. -/
def res0 : ResumeRec := ⟨head0, cont0, 0, 0, cont0⟩
def stZ : State := { stK with dies := vset stK.dies 0 { stK.dies[0] with resume := [res0] } }
theorem test_meets_dispatchResume : ((stZ.dies[0]).resume.filter fun o => hPrio (recHeader o.record) == 7).length = 1 ∧
    resumeSeats stZ 0 res0 = some ([res0], [5]) := by
  refine ⟨by decide +kernel, ?_⟩
  have t : res0.cont.team = none := by decide +kernel
  have c : ((dieCores 0).filter fun c => (idleCore stZ 0 c && inPart stZ res0.cont.part c) && quadOf c == quadOf res0.core &&
      (stZ.dies[(0 : Fin 4)]).reserved.all fun x => !x.2.contains c || decide ((queueAt stZ x.1).prio < hPrio (recHeader res0.record))) = [5] := by
    decide +kernel
  simp only [resumeSeats, t, c, draw_single]
/-- A picked record, and a resumed one, for core 5. -/
def stSe (q : Option (Fin 131072)) (r : List ResumeRec) : State :=
  { stK with dies := vset stK.dies 0 { stK.dies[0] with seating := [⟨[5], head0, q, none, r⟩] } }
theorem test_meets_pickup : ((seatingOf (stSe (some 0) []) 5).map fun t => (t.queue, t.cores, t.parkFlag.isNone)) = some (some 0, [5], true) ∧
    hLevel (recHeader head0) = 0 ∧ stillIn (stSe (some 0) []) (hPart (recHeader head0)) [5] = true ∧ hCarry (recHeader head0) = 0 ∧
    stillIn (stSe none [res0]) res0.cont.part [5] = true ∧ ((seatingOf (stSe none [res0]) 5).map fun t => (t.queue, t.cores, t.resume.length)) = some (none, [5], 1) := by decide +kernel

/-- A context area in which no word has changed: memory that lists nothing, and an image of zeros. -/
def contZ : Cont := { Cont.zero 1 with status := Vector.replicate 64 0 }
theorem contZ_reads (w : Nat) : contZ.imageRead w = 0 := by
  unfold Cont.imageRead
  generalize imageWord w = x
  cases x with
  | s i => revert i; decide +kernel
  | os i => revert i; decide +kernel
  | p i => revert i; decide +kernel
  | bt i => revert i; decide +kernel
  | f i => revert i; decide +kernel
  | opened i => revert i; decide +kernel
  | status i hi => revert i hi; decide +kernel
  | bmap i => revert i; decide +kernel
  | stream z j => revert z j; decide +kernel
  | t i j => revert i j; decide +kernel
  | vec r j =>
    cases r with
    | s i => revert i j; decide +kernel
    | os i => revert i j; decide +kernel
    | p i => revert i j; decide +kernel
    | bt i => revert i j; decide +kernel
    | v cl i => cases cl <;> (revert i j; decide +kernel)
    | o cl i => cases cl <;> (revert i j; decide +kernel)
    | la cl => cases cl <;> (revert j; decide +kernel)
    | t i hi => revert i hi j; decide +kernel
    | field _ _ | strm _ _ => simp [Cont.get, bits]
    | _ => revert j; decide +kernel
  | err i => revert i; decide +kernel
  | qvec b i j => cases b <;> rfl
  | dir i hi => cases hi <;> rfl
  | _ => rfl
theorem test_meets_area : areaWrites [] 0 contZ = [] := by
  rw [areaWrites, List.filterMap_eq_nil_iff]
  intro w _
  rw [contZ_reads]
  rfl

/-- The fabric may be served: the machine has booted and is not locked, and master 0 may do everything. -/
def stFab : State :=
  let s := { stK with hub := { stK.hub with booted := true, sec := .vendorDebug, pwr := 0, chg := false } }
  s
theorem test_meets_fabric : fabricServed stFab = true ∧ granted stFab 0 .wr (Config.cfgBase + 0x1000000 + 0x800 * 255 + 8 * 251) 8 = true ∧
    granted stFab 0 .rd (Config.mainBytes - 1) 1 = true ∧ granted stFab 0 .at 0 4 = true ∧ granted stFab 0 .po (flagAddr 255 31) 8 = true ∧
    stFab.hub.early = [] ∧ stFab.hub.contexts = [] := by decide +kernel
/-- The next request of its source, one that comes early, and one whose number has been taken (R372). -/
theorem test_meets_order : ∀ x ∈ [((0 : W32), (0 : Nat)), (5, 5), (0xFFFFFFFF, 2 ^ 32 - 1)], (x.1 - stFab.hub.expected 0).toNat = x.2 := by decide +kernel
/-- A write that abstains from no reduction. -/
theorem test_meets_plainWrite : abstainWords stFab (((List.range 4).map (0x40 + ·)).zip [1, 2, 3, 4]) = [] ∧
    packetAbstains stFab { addr := 0x40, data := [1, 2, 3, 4] } = none := by decide +kernel
/-- An image whose directory names one core, at link base 0x100000, in pages that map one to one (R88, R186). -/
def dir0 : List (Nat × Byte) :=
  let at' (a : Nat) (bs : List Byte) : List (Nat × Byte) := (List.range bs.length).map fun i => (a + i, bs.getD i 0)
  at' 0x100000 (leBytes 4 0x474D4958 ++ leBytes 2 1 ++ leBytes 2 0 ++ leBytes 4 1 ++ leBytes 4 2) ++ at' 0x100020 (leBytes 8 64 ++ leBytes 4 1) ++
    at' 0x100038 (leBytes 8 0x100000) ++ at' 0x100040 (leBytes 4 0x105 ++ leBytes 4 1 ++ leBytes 4 0)
def stIm : State :=
  let s := { stFab with parts := vset stFab.parts 0 { stFab.parts[0] with table := 0x1000, queued := false } }
  { s with mem := (placedBytes 0 ++ dir0).foldl (fun m p => memPut m p.1 p.2) [] }
theorem test_meets_launch : ((match launchPlan stIm 0 0x100000 with
    | .ok l => l.starts.length == 1
    | .error _ => false) && (match directoryAt stIm 0 0x100000 with
    | .ok _ => true
    | .error _ => false) && !(partSeated stIm 0)) = true := by decide +kernel
theorem test_meets_doorbell : (match doorbellWrite stFab 0 0 2 with
    | .ok _ => true
    | _ => false) = true := by decide +kernel
theorem test_meets_registers : heldQuad stFab 15 = false ∧ (∀ o : Fin 256, o.val / 16 = 15 → (stFab.cores[o]).phase = .vacant) ∧
    (bmapOf (0 : W64)).v = false ∧ stFab.hub.chg = false ∧ (∀ o : Fin 256, (stFab.cores[o]).phase ≠ .halted) ∧
    (∀ o : Fin 16, o ≠ 0 → (stFab.parts[o]).qmask &&& (0xFFFF : Half) = 0) := by decide +kernel
/-- A power transition under way: to P1, out of D3, and into D3 (no quadrant in a partition). -/
def stPw (pwr n : BitVec 3) : State := { st0 with hub := { st0.hub with pwr, pend := some n, chg := true } }
theorem test_meets_power : ∀ x ∈ [((0 : BitVec 3), (1 : BitVec 3)), (4, 0), (0, 4)], (stPw x.1 x.2).hub.pend = some x.2 ∧ (stPw x.1 x.2).hub.pwr = x.1 ∧
    ∀ o : Fin 16, ((stPw x.1 x.2).parts[o]).qmask = 0 := by decide +kernel
theorem test_meets_atomic : poisonedAt stFab 0 = false ∧ packetBad { data := [1, 0, 0, 0] } 0 = false ∧ (st3.cores[0]).phase = .running ∧
    (∀ x ∈ (st3.quads[quadOf 0]).parks, x.holds 0 3 = false) ∧ offer stFab 0 0 true false 0 head0 = 0 ∧ offer st0 0 0 true false 0 head0 = 3 := by decide +kernel

/-- A request awaiting its response, of a core's slot or of a piece. -/
def aw0 (kind : BitVec 6) (who : Requester) : Await := ⟨9, 4, kind, 0x40, 0, who⟩
def stAw (kind : BitVec 6) (who : Requester) : State :=
  { stPl with hub := { stPl.hub with awaits := [aw0 kind who] } }
theorem test_meets_responses : ∀ k ∈ [(1, 1), (2, 2), (0x0D, 2), (3, 3), (5, 5)],
    awaited (stAw (BitVec.ofNat 6 k.1) (.core 0 1 .l)) { src := 4, addr := 0x40 } [BitVec.ofNat 6 k.1] = some (aw0 (BitVec.ofNat 6 k.1) (.core 0 1 .l)) ∧
    ofPiece (stAw (BitVec.ofNat 6 k.1) (.piece 6 0 0)) 0 (fun j p => j.id == 6 && p.st == .started) = true ∧
    ((stAw 1 .nobody).cores[0]).cont.cid = 1 := by decide +kernel
theorem test_meets_timeout : (stAw 1 .nobody).hub.awaits.find? (fun o => o.id == 9) = some (aw0 1 .nobody) ∧
    (aw0 1 .nobody).sent + 2 ^ (stAw 1 .nobody).hub.rlim.toNat * 1000 ≤ hubNow { stAw 1 .nobody with clock := 460800 } := by decide +kernel

/-- Every request has passed its limit. -/
theorem test_meets_late : ∀ o ∈ (stAw 1 .nobody).hub.awaits, o.sent + 2 ^ (stAw 1 .nobody).hub.rlim.toNat * 1000 ≤ hubNow { stAw 1 .nobody with clock := 460800 } := by
  decide +kernel

/-- A reduction's context of two contributors that no epoch is open at; one with an epoch past its deadline. -/
def red0 : Packet := { addr := 0x40, arg := 1 * 2 ^ 19 + 1, list := [(2, 0)], data := [0, 0, 0, 0] }
theorem test_meets_comes : red0.seq = stFab.hub.expected red0.src ∧ ∀ m ∈ stFab.hub.early, m.src ≠ red0.src := by decide +kernel
def epoch0 : Epoch := ⟨0x40, 1, 2, 0, [], []⟩
theorem test_meets_reduction : granted stFab 0 .at 0x40 64 = true ∧ epochAt stFab red0.addr = none ∧
    red0.arg.setWidth 16 = BitVec.ofNat 16 (memNat stFab.mem 0x40 4 + 1) ∧ red0.arg.toNat / 2 ^ 19 < 2 ∧ red0.arg.toNat / 2 ^ 17 % 4 ≠ 3 := by decide +kernel
theorem test_meets_abstain : (0x400 * 2 ^ 21 + 2 ^ 5 : Nat) / 2 ^ 21 = 0x400 ∧ epochAt stFab 0x40 = none ∧
    (bits (BitVec.ofNat 32 (0x400 * 2 ^ 21 + 2 ^ 5)) 5 16 : Half) = BitVec.ofNat 16 (memNat stFab.mem 0x40 4 + 1) ∧
    reach stFab none 0x44 4 true = .memory ∧ (4 : Half) ≠ stFab.hub.node ∧ granted stFab 4 .at 0x40 64 = true ∧
    granted stFab stFab.hub.node .at 0x40 64 = true ∧ stFab.hub.unsure = [] := by decide +kernel
theorem test_meets_deadline : epochAt { stFab with hub := { stFab.hub with epochs := [epoch0], reddl := 5 } } 0x40 = some epoch0 ∧
    epoch0.since + 5 ≤ hubNow { stFab with clock := 9 } := by decide +kernel
/-- A contribution that awaits its RESULT, the RESULT, and a table of no entries. -/
def stRs : State := { stPl with hub := { stPl.hub with awaits := [⟨9, 4, 6, 0x40, 0, .reduction 6⟩], act := vset stPl.hub.act 0 grantAll } }
def res1 : Packet := { src := 4, arg := 1 * 2 ^ 19, addr := BitVec.ofNat 46 (bankPa 0 0x600), data := List.replicate 16 0 }
theorem test_meets_result : resultFor stRs res1 = some ⟨9, 4, 6, 0x40, 0, .reduction 6⟩ ∧ ofPiece stRs 0 (fun j _ => j.id == 6) = true ∧
    (resultBytes stRs res1 (resultFor stRs res1)).length = 16 ∧ actNames stRs.hub.act[(0 : Fin 4096)] res1.master .wr = true ∧
    actSized stRs.hub.act[(0 : Fin 4096)] = true ∧ ofPiece stRs 0 (fun j p => viewFree stRs (dView j.dst.d) (resultMain stRs res1 j) && reductionThere stRs j p) = true ∧
    ∀ x ∈ resultBytes stRs res1 (resultFor stRs res1), actCovers stRs.hub.act[(0 : Fin 4096)] x 1 = true := by decide +kernel
/-- A reduction whose destination lies in main memory, and its RESULT, which waits there; an earlier access through another view
has still to perform, and has performed. -/
def stWr : State :=
  let s := withPieces stRs fun p => [{ p with st := .started, tr := [⟨0, 0, false, 4096⟩] }]
  { s with
    jobs := s.jobs.map fun j => { j with work := .redf .sum, dst := { j.dst with d := tens 0x600 1 0 1 4 1 0 }, b := { j.b with d := j.b.d + BitVec.ofNat 256 (4 * 2 ^ 48) } }
    hub := { s.hub with stalled := [{ res1 with kind := 8, addr := 0x600 }] } }
def stWv : State := (rowsOf [0x600]).foldl (fun s x => { s with homes := vset s.homes x.1 { s.homes[x.1] with reqs := [⟨(9, 0), 1, x.2.1, x.2.2.1, 0, false⟩] } }) stWr
theorem test_meets_waitedResult : ofPiece stWr 0 (fun j p => j.work == .redf .sum && p.st == .started && reductionThere stWr j p &&
    stWr.hub.stalled.find? (fun o => o.kind == 8 && o.src == bits j.b.d 48 16 && resultNames stWr o j) == some { res1 with kind := 8, addr := 0x600 } &&
    decide ((resultMain stWr { res1 with addr := 0x600 } j).length = 16) &&
    requestsServed stWr (j.id, 0) (resultMain stWr { res1 with addr := 0x600 } j) && !(viewHeld stWr (j.id, 0) (resultMain stWr { res1 with addr := 0x600 } j)) &&
    !(viewFree stWv (dView j.dst.d) (resultMain stWv { res1 with addr := 0x600 } j)) &&
    resultFor stWv { res1 with addr := 0x600 } == some ⟨9, 4, 6, 0x40, 0, .reduction 6⟩) = true := by decide +kernel
theorem test_meets_resultRefused : ∀ i : Fin 4096, actNames st0.hub.act[i] res1.master .wr = false := by
  intro i
  have h : st0.hub.act[i] = 0 := Vector.getElem_replicate (n := 4096) i.isLt
  rw [h]
  decide +kernel
/-- A release whose FENCE is to be sent, and one that waits for its last switch. -/
def relF (e : Exchange) (d : Deliver) : Release := ⟨1, 0, [], 0, e, d, false⟩
theorem test_meets_fencePacket : [relF .unsent .nothing].find? (fun o => o.src == 0 && o.fabric == .unsent) = some (relF .unsent .nothing) ∧
    st0.outstanding 0 [] = false ∧ { st0.hub with node := 4 }.node ≠ 0 ∧ st0.hub.plan.switches ≠ [] := by decide +kernel
theorem test_meets_fencedone : ∀ d ∈ [Deliver.nothing, .packet { kind := 4 }], (relF (.waiting [15]) d).fabric = .waiting [15] ∧
    (relF (.waiting [15]) d).deliver = d := by decide +kernel
theorem test_meets_security : ∀ p ∈ [(Sec.tenant, Sec.vendorDebug), (.vendorDebug, .tenant)], secMove p.1 p.2 = true ∧ comboOk p.2 0 0 = true ∧ st0.hub.chg = false ∧
    (bits st0.hub.qdbase 0 46 : BitVec 46).toNat + 2 ^ 22 ≤ Config.mainBytes ∧ st0.hub.sec ≠ .locked ∧ st0.hub.pwr ≠ 4 ∧ st0.hub.booted = true := by decide +kernel
/-- A debug token of node 0 under the vendor's key. -/
def token0 : DebugToken :=
  ⟨0, [1, 2, 3, 4], (0x55D08E42F6723C7299C5E763151349152423816B38C32FCE68E7C3A0DCA5464E4BF5B6583AC6EEBA9A1EB9920C0DF4E,
    0x51F330E0C2FD6670EEA073594E96F6F9694F15BC46EB3C2E8C5E249B813BD14CE73B94482622C7EAAA37FEF0FB743FAF)⟩
theorem test_meets_token : { State.reset.hub with token := some token0 }.goodToken.isSome = true ∧ State.reset.hub.goodToken = none ∧
    { State.reset.hub with token := some token0, nonces := [token0.nonce] }.goodToken = none := by decide +kernel
theorem test_meets_halt : stFab.hub.sec = .vendorDebug ∧ stFab.hub.pwr = 0 ∧ (st0.cores[0]).phase = .running ∧ (st0.cores[0]).cont.fused = none ∧
    (st0.cores[0]).cont.asked = none := by decide +kernel

/-! ### Hypotheses of the general statements -/

theorem test_meets_issues : canIssue st0 st0.focus = true ∧ gangHeld st0.landed st0.focus = false ∧ gangReady st0.landed st0.focus = true ∧ (st0.now.cstat.getLsbD 2 = true) ∧ st0.now.asked = none := by decide +kernel
/-- A bundle of STALL 3 that has issued leaves three cycles owed. -/
theorem test_meets_stall : (cont0.issued { stall := 3, ops := [] } 0 [] []).owed = 3 ∧
    (only (cont0.issued { stall := 3, ops := [] } 0 [] [])).cores[0].phase = .running := by decide +kernel
/-- A result for a register, with all lanes, that its last-result register takes too where `lr` says so. -/
def res2 (x : Reg) (v : VReg) (due order : Nat) (lr : Bool) : Pend := ⟨x, v, BitVec.allOnes 64, due, order, lr, 0, false, 1, .s, 1⟩
/-- Two results for s1, one due and one to come, and one due at the cycle reached for a register of each other kind. -/
def pend0 : List Pend :=
  [res2 (.s 1) 7 3 0 true, res2 (.bt 15) 9 4 1 false, res2 (.s 1) 8 5 2 true, res2 (.os 7) 10 4 3 false, res2 .padm 0xFFFFFFFFFFFFFFFF 4 4 false,
   res2 (.p 47) 11 4 5 false, res2 (.v .a 63) 12 4 6 true, res2 (.o .b 7) 13 4 7 true, res2 (.t 31 true) 14 4 8 false]
/-- The core in cycle 4 with those results on their way. -/
def cont4 : Cont := { cont0 with pend := pend0, acyc := 4 }
theorem test_meets_landing : pend0 = [] ++ res2 (.s 1) 7 3 0 true :: pend0.drop 1 ∧ (∀ q ∈ pend0.drop 1, q.reg = .s 1 → ¬ q.due ≤ 4) ∧
    (pend0.map Pend.last).filterMap id = [.ls, .ls, .la .a, .la .b] ∧ (∀ q ∈ pend0, ∀ f, q.reg ≠ .field 31 f) ∧ (∀ q ∈ pend0, q.reg ≠ .s 2) := by
  refine ⟨by decide +kernel, by decide +kernel, by decide +kernel, ?_, by decide +kernel⟩
  simp [pend0, res2]
theorem test_landing : (cont4.landDue.s[1], cont4.landDue.ls, cont4.landDue.bt[15], cont4.landDue.os[7], cont4.landDue.padm, cont4.landDue.p[47]) =
      (7, 7, 9, 10, 0x0000FFFFFFFF000F, 11) ∧ (cont4.landDue.va.r[63], cont4.landDue.va.last, cont4.landDue.vb.o[7], cont4.landDue.vb.last) = (12, 12, 13, 13) ∧
    bits cont4.landDue.t[31] 128 128 = (14 : W128) ∧ cont4.landDue.pend.length = 1 := by decide +kernel
/-- A bundle whose one slot has a guard that fails. -/
def off : List (Slot × Instr) := [(.k, .st ⟨some 47, false, none⟩ (.main 4) (.data (.v 1)) 0 0 .v)]
theorem test_meets_guardOff : decodeChecks st0.now off = none ∧ (off.all fun y => (guardPoison st0.now y).isNone) = true ∧
    stallTrap st0.now (bundleLeaf st0.now off) off = none ∧ (off.all fun y => !(executes st0.now (bundleLeaf st0.now off) y)) = true := by decide +kernel
theorem test_meets_frames : slotOf (.add g (.main 3) (.main 1) (.main 2)) = .s ∧ slotOf (.fadd g .b (.main 3) (.main 1) (.main 2) .rne) = .v1 ∧
    (match exec (.add g (.main 3) (.main 1) (.main 2)) st0 with
      | .next _ => true
      | _ => false) = true ∧
    (match exec (.stx g 6 (.main 1) 0 .w) st1 with
      | .next t => t.mem == []
      | _ => false) = true := by decide +kernel
/-- The store of one word at the head of bank 0's queue is the share of one part. -/
theorem test_meets_storeBeat : headIs (stQ (acc0 (.store (shareBytes 5 (fun _ => true) ⟨0, 0, 4, 0, 0⟩)) 1 false))
    (acc0 (.store (shareBytes 5 (fun _ => true) ⟨0, 0, 4, 0, 0⟩)) 1 false) = true := by decide +kernel
/-- An `stf` of the word, a store that leaves out its first two bytes, and an `amo` of four and of eight bytes, of a clean and of a poisoned word. -/
def stAm (n : Nat) (bad : List Nat) : State := { stQ { acc0 (.amo .add 1 0) 1 false with len := n } with poisoned := bad }
theorem test_meets_otherBeats : (∀ op ∈ [AccOp.storeFE true (shareBytes 5 (fun _ => true) ⟨0, 0, 4, 0, 0⟩), .store (shareBytes 5 (fun i => decide (2 ≤ i)) ⟨0, 0, 4, 0, 0⟩)],
      headIs (stQ (acc0 op 1 false)) (acc0 op 1 false) = true) ∧
    (∀ n ∈ [4, 8], ∀ bad ∈ [[], [bankPa 0 0 / 32]], headIs (stAm n bad) { acc0 (.amo .add 1 0) 1 false with len := n } = true ∧
      (poisonIn (stAm n bad).poisoned (bankPa 0 0) n).isSome = !bad.isEmpty) ∧ (stAm 8 []).mem = [] ∧
    headIs (stQ { acc0 (.amo .add 1 0) 1 false with was := [(1, 7)] }) { acc0 (.amo .add 1 0) 1 false with was := [(1, 7)] } = true := by decide +kernel
/-- An `stx` to a word that abstains from no reduction. -/
theorem test_meets_plainStx : st1.hub.contexts = [] ∧ st1.now.remote = [] ∧ st1.now.asked = none := by decide +kernel
/-- Instructions that trap: outside a handler with one and without, and in a handler. -/
def traps (s : State) (i : Instr) : Bool := goesOk s i && match slotEff i (s.env i) with
  | .error _ => true
  | .ok _ => false
theorem test_meets_trapTaken : traps st0 (.ldx g 7 0 .d) = true ∧ st0.now.tvec = 0 ∧ traps (stX id) (.ldx g 7 0 .d) = true ∧ (stX id).now.tvec ≠ 0 ∧
    traps stH (.ldx g 7 0 .d) = true := by decide +kernel
/-- A check that answers this trap. -/
def checks (s : State) (a : BitVec 24) (n : Nat) (rd wr : Bool) (c : Cause) : Bool :=
  match checkAccess (s.env (.nop g)) a n n rd wr with
  | .error t => t.cause == c
  | .ok _ => false
/-- User mode, with window 0 valid. -/
def stU : State := only { cont0 with cstat := 0 }
/-- Bank 0 is filling, so that its owner may not read it. -/
def stFill : State := { st0 with banks := vset st0.banks 0 { st0.banks[0] with st := .filling } }
theorem test_meets_accessTraps : checks st0 1 4 true false .align = true ∧ checks stU 0xFC0000 4 true false .priv = true ∧
    checks st0 0x010000 4 true false .detached = true ∧ checks stFill 0xFFFC 4 true false .bufstate = true ∧ passes st0 (.nop g) 0xFFFC 4 4 true false = true := by
  decide +kernel
theorem test_meets_privilege : (∀ i ∈ [Instr.ldx g 6 0 .d, .stx g 6 (.main 1) 0 .d, .tlbi g (.main 1) .all 15 63, .rft g, .brake g .tile .zero, .brakeClear g .core .zero,
    .mtc g 1 (.main 1), .mtc g 2 (.main 1), .mtc g 3 (.main 1), .mtc g 4 (.main 1), .mtc g 8 (.main 1), .mtc g 9 (.main 1), .mtc g 10 (.main 1)],
    (match exec i stU with
      | .next t => (t.cores[0]).phase == .trapSave 0
      | _ => false) = true) ∧ canIssue stU stU.focus = true ∧ gangHeld stU.landed stU.focus = false ∧ stU.now.asked = none ∧ stU.now.cstat.getLsbD 2 = false := by decide +kernel
/-- A tie, an exact quotient, and the least subnormal number. -/
theorem test_meets_rounding : roundNat .rne false 3 1 = (2, true) ∧ roundNat .rne false 5 1 = (2, true) ∧ roundNat .rup true 3 1 = (1, true) ∧
    roundNat .rdn false 8 2 = (2, false) ∧ FFmt.f32.dec 1 = .fin false 1 (-149) := by decide +kernel

/-- The machine with `add s3, s1, s2` placed where it fetches next. -/
def stN : State := State.reset.withFetchWord 512 (bundleOf .s 0xFC0040C04080000).toNat
/-- A core whose bundle, an `stx`, has made an access. -/
def stAs : State :=
  { only { cont0 with asked := some ⟨Bundle.single (.stx g 6 (.main 1) 0 .w), [], cont0.bmap, cont0.t, false⟩ } with agenda := [.core 0] }
theorem test_meets_asked : canIssue stAs 0 = true ∧ (stAs.cores[0]).cont.asked ≠ none ∧ gangHeld (stAs.popAgenda.withFocus 0).landed 0 = false ∧
    stAs.now.asked.isSome = true := by decide +kernel
/-- It goes on with that bundle: the four bytes of s1 are stored. -/
theorem test_asked : ((next (step stAs)).cores[0]).cont.pc = 2 ∧ ((next (step stAs)).cores[0]).cont.asked = none := by decide +kernel
theorem test_meets_stepDecoded : stN.agenda = [.core 0] ∧ canIssue stN 0 = true ∧ (stN.cores[0]).cont.asked = none ∧ (stN.cores[0]).cont.pc.toNat = 1 ∧
    (stN.cores[0]).cont.pc.toNat ≤ (stN.parts[(stN.cores[0]).cont.part]).imgN ∧ (engineWalk stN.popAgenda 0 64 false).1 = .ok 64 false false (2 ^ 30) ∧
    poisonIn (stN.cores[0]).codeBad 64 64 = none ∧ decodeBundle (BitVec.ofNat 512 (memNat (stN.cores[0]).code 64 64)) = .add g (.main 3) (.main 1) (.main 2) := by
  decide +kernel
theorem test_meets_stepTurns : isEvent .powerOnReset = true ∧ isEvent (.add g (.main 3) (.main 1) (.main 2)) = false ∧
    nextTurn State.reset = some (.event .powerOnReset) ∧ { State.reset with agenda := [.manage (.debug true), .part 6 0 0 4, .upset (.sector 2)] }.agenda ≠ [] ∧ canIssue State.reset 0 = false := by decide +kernel
/-- One instruction of each kind is well formed, and its word decodes to it. -/
theorem test_samples_round : samples.all (fun i => i.wf && match encode i with
    | some (x, w) => match decodeSlot x w with
      | .ok j => j == i
      | .error _ => false
    | none => false) = true := by decide +kernel
/-- Memory is in its canonical form in the states of the tests above that read it back. -/
theorem test_meets_canonical : stFab.Inv ∧ st1.Inv ∧ (stQ (acc0 (.store (shareBytes 5 (fun _ => true) ⟨0, 0, 4, 0, 0⟩)) 1 false)).Inv ∧
    { stFab with hub := { stFab.hub with epochs := [epoch0], reddl := 5 } }.Inv := by
  unfold State.Inv
  decide +kernel
/-- The invariant at reset, and a step from there. -/
theorem test_meets_inv : State.reset.Inv ∧ ∃ t, step State.reset = .next t := ⟨by unfold State.Inv; decide +kernel, _, rfl⟩

/-! ### Ill-formed terms: one for each check of `Instr.wf` -/

/-- An "always" that is negated; a guard of the other cluster. -/
def neg : Guard := ⟨none, true, none⟩
def gb : Guard := ⟨some 24, false, none⟩
/-- Terms of S, V0 and V1, each refused by the check that its comment names. -/
def illS : List Instr :=
  [.nop neg /- guard -/, .add g .zero .zero .zero /- destination -/, .add g .none .qa .zero /- first source -/, .add g .none .zero .qb,
   .add g .none .qs .qs /- one queue twice -/, .addi g .zero .zero 0, .addi g .none .qa 0, .shli g .none .zero 64 /- amount -/, .lea g .none .qa 0 0, .li g .la 0,
   .lui g .none 0 /- a register is read and written -/, .clz g .none .qa, .bfx g .none .zero 63 1 false /- field beyond bit 63 -/, .bfi g .none .zero .zero 1 63,
   .sel g .none .qs .qs 0, .cmp g 0 .qa .zero .eq, .cmpi g 0 .qa 0 .eq, .pand neg 0 0 0, .pset g 0 .qb, .vext g .none .ls 0 false /- last-result register -/,
   .mfc g .none 32 /- number -/, .mfc g (.main 1) 64 /- even pair -/, .mtc g 128 .zero, .setbtAddr neg 0 0, .setbtReg g 0 .qa, .tset g 0 0 .qa, .tget g .zero 0 0,
   .vnop gb .a /- the cluster's own predicates -/, .vadd g .a .zero .zero .zero, .vadd g .a .none .lb .zero, .vadd g .b .none (.z 3) .zero, .vadd g .a .none (.z 0) (.z 0),
   .vabs g .a .none .qb, .vcmp g .a 24 .zero .zero .eq /- predicate -/, .fma g .a .none .qa .zero .qa .rne, .fcmp g .b 0 .zero .zero .eq,
   .cvt g .a .none .zero .f32 .f32 .rne /- two formats -/, .plext g .a .none .zero 7 true 0 /- centred, at most 7 planes -/, .plins g .a .none .zero 0 false 0 .rne,
   .xmov g .a .none .zero, .vins g .a .none (.main 1) 0 /- source -/, .vfromp g .a .zero 0, .vtop g .b 0 .zero, .vli g .a .zero 0]
/-- Terms of L, K, T and C. -/
def illE : List Instr :=
  [.lnop neg, .ld g .qs .zero 0 0 0 .b (.qs true), .ld g .zero .qs 0 0 0 .b (.qs true), .ld g .zero .zero 0 0 0 .v (.qs true) /- width -/,
   .ld g .zero .zero 1 0 0 .hv (.desc 0 true) /- scale -/, .lde g .qs .zero 0 0 0 true, .ldx neg 0 0 .b, .amo g .zero .qs .add 0 true, .amo g .zero .zero (.cas .qs) 0 true,
   .lbst g .qs 0 true, .knop neg, .st g .qs (.data .zero) 0 0 .b, .st g .zero (.data (.v 0)) 0 0 .b /- width -/, .st g .zero (.data (.z 0)) 0 0 .b /- width -/, .st g .zero (.data (.s 0)) 0 0 .v,
   .st g .zero (.desc 0 true) 0 0 .v, .stf g .zero (.v 0) 0 0, .ste g .qs .zero 0 0, .stx g 0 .zero 0 .b, .bst g .qs 0 .full 0, .stm g .zero (.s 0) 0 0 .v 0,
   .stm g .zero (.v 0) 0 0 .d 0, .tnop neg, .tadd g { tops with c := 1 }, .tabs g tops, .tabs g { tops1 with mod := 8 }, .tscl g tops, .tscl g { tops1 with pb := 1 },
   .tred g { tops1 with mod := 12 }, .tmma g { tops with mod := 4 }, .tmma g { tops with c := 1 }, .place g .add tops /- queue -/,
   .place g .add { tops with tq := 0, cls := 1 }, .cnop neg, .cpy g { cops with aux := 1 }, .cpy g { cops with post := ⟨1, 0, 0⟩ }, .gath g { cops with post := ⟨0, 1, 0⟩ },
   .strm neg 0 0 true 0 0 0, .unstrm g 0 0 0 0 ⟨1, 0, 0⟩, .catom g cops .add, .redf g cops .sum, .hot g { cops with aux := 1 } true, .tlbi g .qs .all 0 0]
/-- Terms of Y. -/
def illY : List Instr :=
  let t : Test := ⟨0, false⟩
  [.ynop neg, .tree ⟨some 0, false, none⟩ .gate t t t t 0 0 /- no guard -/, .tree g .gate ⟨48, false⟩ t t t 0 0 /- predicate -/,
   .tree g .gate t ⟨1, false⟩ t t 0 1 /- beyond COUNT -/, .jmpBt neg 0, .loopSet g true .qs, .bsel g .none .zero .zero, .bsel g (.main 0) .qs .zero,
   .post g 0 .own 0 0 /- count -/, .post g 0 (.core .qs) 0 1, .post g 0 (.node .qs) 0 1, .waitf neg 0 0 0, .waitany g .qs, .ffr g .none .zero, .bar neg 0,
   .watch g .qs, .waitm g .none, .fence neg 0 .die, .send g .qa .zero /- source -/, .send g (.v 0) .qs, .recv g .la .zero, .give g 252 .zero 0 0 false /- window -/,
   .give g 0 .zero 252 0 false, .give g 0 .zero 0 1 false /- flag without FE -/, .openw g 252, .fuse neg 0, .spawn g .none .zero .zero, .suspendQueue g .qs 0,
   .suspendFlag g .zero 0 0 0 /- count -/, .suspendWatch g .qs 0, .yield neg, .tstamp g .none, .tstampSet g .qs, .cmptScalar g .la .zero, .cmptScalar g .qs .qs,
   .cmptVector g (.s 0) (.v 0) none, .cmptVector g .qa .qa none, .trap neg 0, .brake g .core .qs]
theorem test_wf_refuses : (illS ++ illE ++ illY).all (fun i => !i.wf) = true := by decide +kernel

/-! ### Single steps: values that the manual gives -/

/-- The data of the results that a step leaves on their way. -/
def results (s : State) (i : Instr) : List (Reg × VReg) := ((next (exec i s)).cores[0]).cont.pend.map fun p => (p.reg, p.data)
/-- The first 32 bits of the first result. -/
def word0 (s : State) (i : Instr) : W32 := ((results s i).head?.map fun p => p.2.setWidth 32).getD 0
/-- The first 64 bits of the first result. -/
def word1 (s : State) (i : Instr) : W64 := ((results s i).head?.map fun p => p.2.setWidth 64).getD 0
/-- s1 and lane 0 of v1 as given. -/
def stV1 (x : W64) : State := only { cont0 with s := vset cont0.s 1 x, va := { cont0.va with r := vset cont0.va.r 1 (x.setWidth 2048) } }

/-- R92: sums wrap, signed and unsigned high products differ. -/
theorem test_add_wraps : word1 (stV1 0xFFFFFFFFFFFFFFFF) (.add g (.main 3) (.main 1) (.const 2)) = 1 := by decide +kernel
theorem test_mulh_signed : word1 (stV1 0xFFFFFFFFFFFFFFFF) (.mulh g (.main 3) (.main 1) (.const 2)) = 0xFFFFFFFFFFFFFFFF ∧
    word1 (stV1 0xFFFFFFFFFFFFFFFF) (.mulhu g (.main 3) (.main 1) (.const 2)) = 1 := by decide +kernel
/-- R94 (the manual's example), R95. -/
theorem test_lea : word1 (stV1 0x03FFE0) (.lea g (.main 3) (.main 1) 1 0x40) = 0x040020 := by decide +kernel
theorem test_lui : word1 (stV1 0xABCD) (.lui g (.main 1) 0x12) = 0x120000ABCD := by decide +kernel
/-- R97 (the manual's example). -/
theorem test_bfx : word1 (stV1 0xA5F0) (.bfx g (.main 3) (.main 1) 8 7 true) = 0xFFFFFFFFFFFFFFA5 := by decide +kernel
/-- R99: a compare writes all 64 bits. -/
theorem test_cmp : word1 (stV1 1) (.cmp g 3 (.main 1) (.const 2) .lt) = 0xFFFFFFFFFFFFFFFF := by decide +kernel
/-- R123, R125 (the manual's examples): 1 / 3 in rne, and the reciprocal of 3. -/
theorem test_frcp : word0 (stV1 0x40400000) (.frcp g .a (.main 3) (.main 1)) = 0x3EAAB000 := by decide +kernel
theorem test_fdiv : word0 (only { cont0 with va := { cont0.va with r := vset (vset cont0.va.r 1 0x3F800000) 2 0x40400000 } })
    (.fdiv g .a (.main 3) (.main 1) (.main 2) .rne) = 0x3EAAAAAB := by decide +kernel
/-- R113 (the manual's example): 100 selects the bucket of 128, with its PADM, 9 cycles later. -/
theorem test_bsel : results (stB 100) (.bsel g (.main 3) (.main 1) .zero) = [(.s 3, 128), (.padm, 0x6400800001)] := by decide +kernel
/-- R107: a taken transfer costs two bubbles; a call links its successor. -/
theorem test_call : ((next (exec (.callAddr g 5 40) st0)).cores[0]).cont.pc = 40 ∧ ((next (exec (.callAddr g 5 40) st0)).cores[0]).cont.owed = 2 ∧
    results st0 (.callAddr g 5 40) = [(.bt 5, 2)] := by decide +kernel
/-- R110: a loop that goes back has no bubble. -/
theorem test_loop : ((next (exec (.loop g true 2) st1)).cores[0]).cont.lc[1] = 4 ∧ ((next (exec (.loop g true 2) st1)).cores[0]).cont.owed = 0 := by decide +kernel
/-- R65: the two bundles of the rule. -/
theorem test_wconflict : decodeChecks st0.now [(.s, .cmp g 3 (.main 1) (.main 2) .lt), (.v0, .vcmp g .a 3 (.main 1) (.main 2) .lt)] ≠ none ∧
    decodeChecks st0.now [(.v0, .vadd g .a (.main 3) .qa (.main 4)), (.k, .st g (.main 8) (.data .qa) 0 0 .v)] ≠ none := by decide +kernel
/-- R150: an `stf` writes its word and sets its full/empty bit, at its beat. -/
theorem test_store_beat : (next (exec (.ownerPortBeat 0) { stQ (acc0 (.storeFE true [(0, 7)]) 1 false) with empties := [bankPa 0 0 / 4] })).empties = [] ∧
    memGet (next (exec (.ownerPortBeat 0) (stQ (acc0 (.store [(0, 7)]) 1 false)))).mem (bankPa 0 0) = 7 := by decide +kernel
/-- R254: the lowest completed tag named. -/
theorem test_ffr : word1 (stV1 0x50) (.ffr g (.main 3) (.main 1)) = 4 ∧ word1 (stV1 0) (.ffr g (.main 3) (.main 1)) = 64 := by decide +kernel
/-- R253: a wait takes its count. -/
theorem test_waitf : ((next (exec (.waitf g 3 0 1) st1)).cores[0]).cont.f[3] = 0 := by decide +kernel
/-- R170: the bank leaves the giver's window and is on its way. -/
theorem test_give : ((next (exec (.give g 0 (.const 1) 9 1 true) st0)).banks[0]).transit.isSome = true ∧
    (((next (exec (.give g 0 (.const 1) 9 1 true) st0)).cores[0]).cont.entry 0).v = false := by decide +kernel
/-- R348, R339: `trap` with its immediate, at a handler's address. -/
theorem test_trap : ((next (exec (.trap g 0x42) (stX id))).cores[0]).phase = .trapSave 1 ∧ ((next (exec (.trap g 0x42) (stX id))).cores[0]).cont.tinfo = 0x42 ∧
    ((next (exec (.trap g 0x42) (stX id))).cores[0]).cont.tpc = 1 := by decide +kernel
/-- R349: the handler returns to TPC in the mode it came from. -/
theorem test_rft : ((next (exec (.rft g) stH)).cores[0]).cont.tcause = 0 ∧ ((next (exec (.rft g) stH)).cores[0]).cont.cstat = 0 := by decide +kernel
/-- R70, R156: a privileged instruction in user mode traps, the write is not made. -/
theorem test_priv : ((next (exec (.stx g 6 (.main 1) 0 .w) stU)).cores[0]).phase = .trapSave 0 ∧
    (bits ((next (exec (.stx g 6 (.main 1) 0 .w) stU)).cores[0]).cont.tcause 0 5 : BitVec 5) = causeCode .priv := by decide +kernel
/-- R325: `done` frees the core. -/
theorem test_done : ((next (exec (.done g) st0)).cores[0]).phase = .vacant := by decide +kernel
/-- R316: an accepted record stands at TAIL, and TAIL moves on. -/
theorem test_spawn : memNat (next (exec (.spawn g (.main 3) .zero .zero) stR)).mem 12 4 = 1 ∧
    memGet (next (exec (.spawn g (.main 3) .zero .zero) stR)).mem 0x1000 = 1 ∧ word1 stR (.spawn g (.main 3) .zero .zero) = 0 := by decide +kernel
/-- R32 (the manual's example): the byte 0b10110110 read with 4, 2 and 1 planes, truncated and centred. -/
theorem test_ni_values : niValue false 4 (-5) = -80 ∧ niValue true 4 (-5) = -72 ∧ niValue false 8 (-74) = -74 ∧ niValue true 2 (-2) = -96 ∧
    niValue true 1 (-1) = -64 := by decide +kernel
/-- R284 (the manual's example): the home of physical address 0x40_0000. -/
theorem test_home : homeOf 0x400000 = 0x2000 := by decide +kernel
/-- R35: 2^25 + 2^24 + 1 lies between two numbers of binary32. -/
theorem test_round_ties : (FFmt.f32.round .rne false 0x3000001 0).1 = 0x4C400000 ∧ (FFmt.f32.round .rup false 0x3000001 0).1 = 0x4C400001 := by decide +kernel
/-- R387: boot ends in Tenant with debug off. -/
theorem test_boot : (next (exec .powerOnReset State.reset)).hub.sec = .tenant ∧ (next (exec .powerOnReset State.reset)).hub.booted = true := by decide +kernel
/-- R371: a read of memory is answered with its bytes. -/
theorem test_rd : ((next (exec (.rd { addr := 0x1000, len := 3, src := 4 }) stFab)).hub.out.map fun m => (m.kind, m.dst, m.data)) = [(0x10, 4, [1, 0, 0x0E])] := by decide +kernel
/-- R371: an atomic sum, answered with the old word. -/
theorem test_atom : memNat (next (exec (.atom { addr := 16, data := [1, 0, 0, 0] }) stFab)).mem 16 4 = 0x01800703 ∧
    ((next (exec (.atom { addr := 16, data := [1, 0, 0, 0] }) stFab)).hub.out.map fun m => m.data) = [[2, 7, 0x80, 1]] := by decide +kernel
/-- R185: a copy's piece moves its bytes when it ends. -/
theorem test_copy : memNat (next (exec (.copyPieceEnd 7 0) { stCp with mem := [(bankPa 0 0x400, 9), (bankPa 0 0x40F, 8)] })).mem (bankPa 0 0x600) 16 =
    9 + 8 * 2 ^ 120 := by decide +kernel
/-- R212: an addition's piece leaves its sums: 1.0 + 2.0. -/
theorem test_tadd : memNat (next (exec (.tilePieceEnd 6 0 none) { stPl with
    mem := [(bankPa 0 0x402, 0x80), (bankPa 0 0x403, 0x3F), (bankPa 0 0x503, 0x40)] })).mem (bankPa 0 0x600) 4 = 0x40400000 := by decide +kernel

end Sys2Proof.Tests
end

section
/-! SUPPORT. Which updates leave the jobs of engines and the stones alone: translating, reading and writing memory, sending and
counting do; so a job is found after them as it was before. -/

namespace Sys2Proof.Machine

/-- An update that leaves the jobs and the stones as they are. -/
@[simp] def Act.sparesWork : Act → Bool
  | .jobs _ | .stone _ _ => false
  | _ => true

/-- Updates that leave the jobs and the stones as they are. -/
def SparesWork (acts : List Act) : Prop := ∀ a ∈ acts, a.sparesWork = true

@[simp] theorem sparesWork_nil : SparesWork [] := by simp [SparesWork]

@[simp] theorem sparesWork_cons (a : Act) (xs : List Act) : SparesWork (a :: xs) ↔ a.sparesWork = true ∧ SparesWork xs :=
  List.forall_mem_cons

@[simp] theorem sparesWork_append (xs ys : List Act) : SparesWork (xs ++ ys) ↔ SparesWork xs ∧ SparesWork ys :=
  List.forall_mem_append

@[simp] theorem sparesWork_map {α : Type} (f : α → Act) (xs : List α) :
    SparesWork (xs.map f) ↔ ∀ x ∈ xs, (f x).sparesWork = true := List.forall_mem_map

@[simp] theorem sparesWork_flatMap {α : Type} (f : α → List Act) (xs : List α) :
    SparesWork (xs.flatMap f) ↔ ∀ x ∈ xs, SparesWork (f x) := by
  simp only [SparesWork, List.mem_flatMap, forall_exists_index, and_imp]
  exact ⟨fun h x hx a ha => h a x hx ha, fun h a x hx ha => h x hx a ha⟩

@[simp] theorem sparesWork_filterMap {α : Type} (f : α → Option Act) (xs : List α) :
    SparesWork (xs.filterMap f) ↔ ∀ x ∈ xs, ∀ a, f x = some a → a.sparesWork = true := by
  simp only [SparesWork, List.mem_filterMap, forall_exists_index, and_imp]
  exact ⟨fun h x hx a ha => h a x hx ha, fun h a x hx ha => h x hx a ha⟩

/-- Sparing updates leave jobs and stones. -/
theorem applyActs_sparesWork {acts : List Act} (h : SparesWork acts) (s : State) :
    (applyActs s acts).jobs = s.jobs ∧ (applyActs s acts).stones = s.stones := by
  induction acts generalizing s with
  | nil => exact ⟨rfl, rfl⟩
  | cons a acts ih =>
    obtain ⟨ha, hrest⟩ := (sparesWork_cons a acts).mp h
    have one : (a.apply s).jobs = s.jobs ∧ (a.apply s).stones = s.stones := by
      cases a with
      | jobs f => cases ha
      | stone x f => cases ha
      | _ => exact ⟨rfl, rfl⟩
    obtain ⟨hj, hs⟩ := ih hrest (a.apply s)
    exact ⟨hj.trans one.1, hs.trans one.2⟩

/-! ### Rows, walks and translations -/

@[simp] theorem rowAccess_spares (s : State) (h : Fin 512) (b : Fin 32) (row n : Nat) : SparesWork (rowAccess s h b row n) := by
  unfold rowAccess
  split <;> simp

@[simp] theorem touchRows_spares (s : State) (xs : List (Fin 512 × Fin 32 × Nat × Nat)) : SparesWork (touchRows s xs) := by
  induction xs generalizing s with
  | nil => exact sparesWork_nil
  | cons x xs ih => simp [touchRows, ih]

@[simp] theorem accessRows_spares (s : State) (xs : List (Fin 512 × Fin 32 × Nat × Nat)) : SparesWork (accessRows s xs) := by
  simp [accessRows]

@[simp] theorem touchBytes_spares (s : State) (a n : Nat) : SparesWork (touchBytes s a n) := accessRows_spares s _

@[simp] theorem touchEntry_spares (m : List Host.Cell) (ea : Nat) (write : Bool) : SparesWork (touchEntry m ea write) := by
  unfold touchEntry
  extract_lets
  split <;> simp

@[simp] theorem leaf_spares (m : List Host.Cell) (free ea : Nat) (x : W64) (size va : Nat) (write : Bool) :
    SparesWork (leaf m free ea x size va write).2 := by
  unfold leaf
  extract_lets group agree y draw frame base
  have hdraw : SparesWork draw := by
    unfold draw
    split <;> simp
  split <;> simp [hdraw]

@[simp] theorem walkFrom_spares (s : State) (va : Nat) (write : Bool) (n tbl : Nat) : SparesWork (walkFrom s va write n tbl).2 := by
  induction n generalizing tbl with
  | zero => exact sparesWork_nil
  | succ n ih =>
    unfold walkFrom
    extract_lets
    split_ifs <;> simp [walkPoison, ih]

@[simp] theorem engineWalk_spares (s : State) (part : Fin 16) (va : Nat) (write : Bool) :
    SparesWork (engineWalk s part va write).2 := by
  have hwalk : SparesWork (walk s part va write).2 := by
    unfold walk
    split <;> simp
  have hrows : SparesWork (walkRows s part va) := by
    unfold walkRows
    split <;> simp
  exact (sparesWork_append _ _).mpr ⟨hwalk, hrows⟩

@[simp] theorem translate_spares (s : State) (c : Fin 256) (part : Fin 16) (va : Nat) (write : Bool) :
    SparesWork (translate s c part va write).2 := by
  unfold translate
  extract_lets page note walked
  have hwalked (draw : List Act) (h : SparesWork draw) : SparesWork (walked draw).2 := by
    have hw := engineWalk_spares s part va write
    unfold walked
    split <;> simp_all [note]
  split
  · exact hwalked _ sparesWork_nil
  · extract_lets cached
    split_ifs <;> simp [hwalked]

@[simp] theorem translatePages_spares (s : State) (c : Fin 256) (part : Fin 16) (ps : List (Nat × Bool)) :
    SparesWork (translatePages s c part ps).2 := by
  induction ps generalizing s with
  | nil => exact sparesWork_nil
  | cons p ps ih =>
    have ht := translate_spares s c part p.1 p.2
    unfold translatePages
    split <;> simp_all

/-- Translating the pages of units leaves the engines alone. -/
theorem translateUnits_spares (s : State) (c : Fin 256) (part : Fin 16) (us : List (Opnd × Bool × Ix)) (q : Option Nat) :
    SparesWork (translateUnits s c part us q).2 := by
  unfold translateUnits
  extract_lets first
  have hfirst := translatePages_spares s c part first
  split
  · rename_i tr acts heq
    extract_lets more more'
    have hmore := translatePages_spares (applyActs s acts) c part more'
    split <;> simp_all
  · exact hfirst

theorem spares_of_translateUnits {s : State} {c : Fin 256} {part : Fin 16} {us : List (Opnd × Bool × Ix)} {q : Option Nat}
    {r : PagesRes} {acts : List Act} (h : translateUnits s c part us q = (r, acts)) : SparesWork acts := by
  have hspares := translateUnits_spares s c part us q
  rwa [h] at hspares

/-! ### Banks and pseudo-channels -/

theorem beginBanks_spares (s : State) (us : List (Fin 4096 × Bool × Byte)) {acts : List Act} (h : beginBanks s us = some acts) :
    SparesWork acts := by
  induction us generalizing s acts with
  | nil => simp_all [beginBanks]
  | cons u us ih =>
    unfold beginBanks at h
    split at h
    · cases h
    · obtain ⟨rest, hrest, rfl⟩ := Option.map_eq_some_iff.mp h
      simp [ih _ hrest]

@[simp] theorem endBanks_spares (bs : List (Fin 4096 × Bool)) (ts : W64) (wrote : Bool) : SparesWork (endBanks bs ts wrote) := by
  simp [endBanks]

@[simp] theorem requestActs_spares (owner : Nat × Nat) (view : Nat) (xs : List Nat) : SparesWork (requestActs owner view xs) := by
  simp [requestActs]

@[simp] theorem dropRequests_spares (owner : Nat × Nat) (xs : List Nat) : SparesWork (dropRequests owner xs) := by
  simp [dropRequests]

/-! ### Reductions -/

@[simp] theorem writeActs_spares (a : Nat) (bytes : List Byte) : SparesWork (writeActs a bytes) := by
  unfold writeActs
  extract_lets n data whole heal off b mon
  have hmon : SparesWork mon := by
    unfold mon
    split <;> simp [monitorActs, parkActs, Act.cont]
  simp [data, heal, hmon]

@[simp] theorem sendActs_spares (s : State) (core : Option (Fin 256)) (p : Packet) (who : Requester) :
    SparesWork (sendActs s core p who) := by
  unfold sendActs
  extract_lets
  cases core <;> simp

@[simp] theorem sendResult_spares (s : State) (a : Arrival) (m : W32) (tmo sat : Bool) (code : BitVec 4) (data : List W32) :
    SparesWork (sendResult s a m tmo sat code data) := by
  unfold sendResult
  split <;> simp

@[simp] theorem sendResults_spares (s : State) (m : W32) (tmo sat : Bool) (code : BitVec 4) (data : List W32) (as : List Arrival) :
    SparesWork (sendResults s m tmo sat code data as) := by
  induction as generalizing s with
  | nil => exact sparesWork_nil
  | cons a as ih => simp [sendResults, ih]

@[simp] theorem enter_spares (s : State) (ctx : BitVec 46) (at_ : Nat) (a : Arrival) : SparesWork (enter s ctx at_ a) := by
  have hjoin (e : Epoch) : SparesWork (joinEpoch s e a) := by
    unfold joinEpoch
    extract_lets first differs b
    split
    · simp
    · split <;> simp [epochAct]
  unfold enter
  extract_lets
  split
  · split <;> simp
  · split_ifs <;> simp [hjoin, epochAct]

@[simp] theorem enterAll_spares (s : State) (ctx : BitVec 46) (as : List (Nat × Arrival)) : SparesWork (enterAll s ctx as) := by
  induction as generalizing s with
  | nil => exact sparesWork_nil
  | cons a as ih => simp [enterAll, ih]

@[simp] theorem settle_spares (ctx : BitVec 46) (fuel : Nat) (tmo : Bool) (s : State) : SparesWork (settle ctx fuel tmo s) := by
  induction fuel generalizing tmo s with
  | zero => exact sparesWork_nil
  | succ fuel ih =>
    unfold settle
    split
    · exact sparesWork_nil
    · split <;> simp [closeEpoch, ih]

@[simp] theorem arrive_spares (s : State) (ctx : BitVec 46) (a : Arrival) : SparesWork (arrive s ctx a) := by
  have hunsure : SparesWork (enterUnsure s ctx) := by
    unfold enterUnsure
    extract_lets
    split <;> simp
  have hlate (s : State) : SparesWork (reductionDeadline s ctx) := by
    unfold reductionDeadline
    split
    · exact sparesWork_nil
    · split <;> simp
  simp [arrive, knowContext, hunsure, hlate]

@[simp] theorem abstainAll_spares (node master : Half) (xs : List (BitVec 46 × W32)) (s : State) :
    SparesWork (abstainAll node master xs s) := by
  induction xs generalizing s with
  | nil => exact sparesWork_nil
  | cons x xs ih =>
    unfold abstainAll
    extract_lets acts
    have hacts : SparesWork acts := by
      unfold acts
      split <;> simp [accessLog]
    simp [hacts, ih]

@[simp] theorem abstainNoted_spares (s : State) (node master : Half) (xs : List (BitVec 46 × W32)) :
    SparesWork (abstainNoted s node master xs) := by
  unfold abstainNoted
  extract_lets
  split <;> simp

/-! ### Writes of engines -/

@[simp] theorem engineHits_spares (s : State) (w : Nat) : SparesWork (engineHits s w) := by
  unfold engineHits
  split
  · simp only [sparesWork_append, sparesWork_filterMap, Option.ite_none_right_eq_some, Option.some.injEq]
    refine ⟨?_, ?_⟩
    · rintro c - a ⟨-, rfl⟩
      rfl
    · split <;> simp [parkActs]
  · exact sparesWork_nil

@[simp] theorem engineWrite_spares (s : State) (data : List (Nat × Byte)) (bad : List Nat) (from_ : Half × Half) :
    SparesWork (engineWrite s data bad from_) := by
  simp [engineWrite]

@[simp] theorem maskedWrite_spares (s : State) (data : List (Nat × Byte × Byte)) (bad : List Nat) :
    SparesWork (maskedWrite s data bad) := by
  unfold maskedWrite
  extract_lets whole part
  split <;> simp

@[simp] theorem writeBack_spares (s : State) (j : Job) (p : Piece) (data : List (Nat × Byte)) : SparesWork (writeBack s j p data) := by
  simp [writeBack, tileWrite]

@[simp] theorem staleStaging_spares (s : State) (x : Fin 64) : SparesWork (staleStaging s x) := by
  simp [staleStaging]

end Sys2Proof.Machine
end

section
/-! SUPPORT. Jobs and their pieces: what an update of a job or of a piece leaves, and what leaves them alone. -/

namespace Sys2Proof.Machine

/-- Piece `ix` of the job of a number. -/
def State.jobPiece (s : State) (id ix : Nat) : Option Piece := (s.job id).bind fun j => j.pieces[ix]?

/-- A job is found under its number. -/
theorem job_id {s : State} {id : Nat} {j : Job} (h : s.job id = some j) : j.id = id := by
  simpa using List.find?_some h

/-- A piece of a job that is found. -/
theorem jobPiece_of_job {s : State} {id ix : Nat} {j : Job} {p : Piece} (hj : s.job id = some j) (hp : j.pieces[ix]? = some p) :
    s.jobPiece id ix = some p := by
  simp [State.jobPiece, hj, hp]

/-- The job and the piece behind a piece found. -/
theorem exists_of_jobPiece {t : State} {id ix : Nat} {q : Piece} (h : t.jobPiece id ix = some q) {f : Piece → Prop} (hf : f q) :
    ∃ j' p', t.job id = some j' ∧ j'.pieces[ix]? = some p' ∧ f p' := by
  obtain ⟨j', hj, hq⟩ := Option.bind_eq_some_iff.mp h
  exact ⟨j', q, hj, hq, hf⟩

/-! ### Updates that leave them alone -/

theorem job_of_jobs {s t : State} (h : t.jobs = s.jobs) (id : Nat) : t.job id = s.job id := by
  simp [State.job, h]

theorem jobPiece_of_jobs {s t : State} (h : t.jobs = s.jobs) (id ix : Nat) : t.jobPiece id ix = s.jobPiece id ix := by
  simp [State.jobPiece, job_of_jobs h]

theorem job_spared {acts : List Act} (h : SparesWork acts) (s : State) (id : Nat) : (applyActs s acts).job id = s.job id :=
  job_of_jobs (applyActs_sparesWork h s).1 id

theorem jobPiece_spared {acts : List Act} (h : SparesWork acts) (s : State) (id ix : Nat) :
    (applyActs s acts).jobPiece id ix = s.jobPiece id ix :=
  jobPiece_of_jobs (applyActs_sparesWork h s).1 id ix

/-! ### Updates of a job and of a piece -/

@[simp] theorem apply_piece_stones (id ix : Nat) (f : Piece → Piece) (s : State) : ((Act.piece id ix f).apply s).stones = s.stones := rfl

/-- A job updated is found updated, and the others as they were. -/
theorem job_apply_job (id id' : Nat) (f : Job → Job) (hf : ∀ j, (f j).id = j.id) (s : State) :
    ((Act.job id f).apply s).job id' = if id = id' then (s.job id').map f else s.job id' := by
  have hid : ((fun j : Job => j.id == id') ∘ fun j => if j.id = id then f j else j) = fun j => j.id == id' := by
    funext j
    by_cases hj : j.id = id <;> simp [hj, hf]
  have hfind : ((Act.job id f).apply s).job id' = (s.job id').map fun j => if j.id = id then f j else j := by
    simp only [State.job, Act.job, apply_jobs_jobs, List.find?_map, hid]
  rw [hfind]
  cases hs : s.job id' with
  | none => simp
  | some j =>
    obtain rfl := job_id hs
    by_cases h : id = j.id
    · simp [h]
    · simp [h, Ne.symm h]

/-- An update of a job that keeps its pieces. -/
theorem jobPiece_apply_job (id id' ix : Nat) (f : Job → Job) (hf : ∀ j, (f j).id = j.id ∧ (f j).pieces = j.pieces) (s : State) :
    ((Act.job id f).apply s).jobPiece id' ix = s.jobPiece id' ix := by
  rw [State.jobPiece, job_apply_job _ _ _ fun j => (hf j).1]
  split
  · cases hs : s.job id' <;> simp [State.jobPiece, hs, hf]
  · rfl

/-- A piece updated is found updated, and the others as they were. -/
theorem jobPiece_apply_piece (id ix id' ix' : Nat) (f : Piece → Piece) (s : State) :
    ((Act.piece id ix f).apply s).jobPiece id' ix' =
      if id = id' ∧ ix = ix' then (s.jobPiece id' ix').map f else s.jobPiece id' ix' := by
  rw [State.jobPiece, Act.piece, job_apply_job _ _ _ fun j => by rfl]
  cases hs : s.job id' with
  | none => simp [State.jobPiece, hs]
  | some j =>
    by_cases hid : id = id' <;> by_cases hix : ix = ix' <;> simp [State.jobPiece, hs, hid, hix]

@[simp] theorem jobPiece_apply_piece_same (id ix : Nat) (f : Piece → Piece) (s : State) :
    ((Act.piece id ix f).apply s).jobPiece id ix = (s.jobPiece id ix).map f := by
  simp [jobPiece_apply_piece]

/-! ### Accesses of banks and requests leave memory alone -/

theorem endBanks_quiet (bs : List (Fin 4096 × Bool)) (ts : W64) (wrote : Bool) : (endBanks bs ts wrote).all Act.quiet = true := by
  simp [endBanks, Act.quiet]

theorem dropRequests_quiet (owner : Nat × Nat) (xs : List Nat) : (dropRequests owner xs).all Act.quiet = true := by
  simp [dropRequests, Act.quiet]

end Sys2Proof.Machine
end

section
/-! SUPPORT. The end of a tile piece (R239, R240, R390): the updates of each of its outcomes. -/

namespace Sys2Proof.Machine

/-- A piece that ends is found ended, whatever else its banks and its record see. -/
@[simp] theorem jobPiece_tileEnded (t : State) (j : Job) (ix : Nat) (p : Piece) (x : BitVec 4) :
    (applyActs t (tileEnded j ix p x)).jobPiece j.id ix =
      (t.jobPiece j.id ix).map fun q => { q with st := .ended x, opened := [], got := [] } := by
  simp [tileEnded, applyActs_append, jobPiece_spared]

/-- A piece that is found ends with a code, whatever it was before. -/
theorem jobPiece_tileEnded_of_found {s : State} {id ix : Nat} {j : Job} {p : Piece} (hj : s.job id = some j)
    (hp : j.pieces[ix]? = some p) (x : BitVec 4) :
    (applyActs s (tileEnded j ix p x)).jobPiece id ix = some { p with st := .ended x, opened := [], got := [] } := by
  obtain rfl := job_id hj
  rw [jobPiece_tileEnded, jobPiece_of_job hj hp, Option.map_some]

theorem tileEnded_quiet (j : Job) (ix : Nat) (p : Piece) (x : BitVec 4) : (tileEnded j ix p x).all Act.quiet = true := by
  simp only [tileEnded, List.all_append, endBanks_quiet]
  rfl

section
variable {s : State} {id ix : Nat} {j : Job} {p : Piece} {op : TileOp}
  (hj : s.job id = some j) (hp : j.pieces[ix]? = some p) (hw : j.work = .tile op)
include hj hp hw

/-- A link after a failed one ends with its code (R240). -/
theorem tilePieceEnd_of_failed {code : BitVec 4} (hst : p.st = .started ∨ ∃ x, p.st = .performed x)
    (hl : linkBefore j ix p = .failed code) : tilePieceEnd s id ix none = tileEnded j ix p code := by
  rcases hst with hst | ⟨x, hst⟩ <;> simp [tilePieceEnd, hj, hp, hw, hst, hl]

/-- A piece that has failed at its executor ends, its failing address noted (R241). -/
theorem tilePieceEnd_of_performed_failure {code : BitVec 4} (hst : p.st = .performed code) (hc : p.clear s = true)
    (hl : ∀ x, linkBefore j ix p ≠ .failed x) (hcode : code ≠ codeOk) :
    tilePieceEnd s id ix none =
      (p.got.head?.map fun g => noteError id ix (execHome p) code g.1).toList ++ tileEnded j ix p code := by
  simp only [tilePieceEnd, hj, hp, hw, hst]
  cases h : linkBefore j ix p with
  | failed x => exact absurd h (hl x)
  | _ => simp [hc, hcode]

/-- A piece that has its values writes them and ends with OK. -/
theorem tilePieceEnd_of_performed_ok (hst : p.st = .performed codeOk) (hc : p.clear s = true)
    (hl : ∀ x, linkBefore j ix p ≠ .failed x) (hpow : spotsPowered s (p.got.map fun g => .here g.1 1) = true)
    (hview : p.got = [] ∨ tileViews s j p true = true) :
    tilePieceEnd s id ix none = writeBack s j p p.got ++ tileEnded j ix p codeOk := by
  simp only [tilePieceEnd, hj, hp, hw, hst]
  cases h : linkBefore j ix p with
  | failed x => exact absurd h (hl x)
  | _ => simp [hc, hpow, hview]

/-- A piece whose destination has lost its power ends with ACCESS: a stone by R390, a bank by log entry 89. -/
theorem tilePieceEnd_of_unpowered (hst : p.st = .performed codeOk) (hc : p.clear s = true)
    (hl : ∀ x, linkBefore j ix p ≠ .failed x) (hpow : spotsPowered s (p.got.map fun g => .here g.1 1) = false) :
    tilePieceEnd s id ix none = tileEnded j ix p codeAccess := by
  simp only [tilePieceEnd, hj, hp, hw, hst]
  cases h : linkBefore j ix p with
  | failed x => exact absurd h (hl x)
  | _ => simp [hc, hpow]

/-- A quern computes a piece whose operands may be read, writes its values and ends it with OK. -/
theorem tilePieceEnd_of_computed {n : Fin 64} {prev : List W32} {data : List (Nat × Byte)} {acc : List W32} {sat fr : Bool}
    (hst : p.st = .started) (hl : linkBefore j ix p = .ready prev) (hx : p.exec = .quern n) (hc : p.clear s = true)
    (hread : tileViews s j p false = true) (hwrite : p.last = true → tileViews s j p true = true)
    (hdone : computePiece s j p prev = .done data acc sat fr) :
    tilePieceEnd s id ix none = accessRows s (rowsOf (allReads s j p)) ++ computedActs j ix p acc sat fr ++ writeBack s j p data ++
      tileEnded j ix p codeOk := by
  have hviews : (p.last && !tileViews s j p true) = false := by
    cases hlast : p.last with
    | false => rfl
    | true => simp [hwrite hlast]
  simp [tilePieceEnd, hj, hp, hw, hst, hl, hx, hc, hread, hviews, hdone]

end

/-- What a computed piece leaves behind its bytes (R242). -/
@[simp] theorem jobPiece_computedActs (t : State) (j : Job) (ix : Nat) (p : Piece) (acc : List W32) (sat fr : Bool) :
    (applyActs t (computedActs j ix p acc sat fr)).jobPiece j.id ix =
      (t.jobPiece j.id ix).map fun q => { q with acc, sat := sat || ((previousLink j ix p).map Piece.sat).getD false } := by
  have hdrawn : SparesWork (if fr then [.drawn (2 ^ 70)] else []) := by
    split <;> simp
  simp only [computedActs, applyActs_append, jobPiece_spared hdrawn, applyActs_cons, applyActs_nil, jobPiece_apply_piece_same]

/-- A noted error leaves the pieces alone. -/
@[simp] theorem jobPiece_noteError (t : State) (id ix : Nat) (home : Half) (code : BitVec 4) (a id' ix' : Nat) :
    ((noteError id ix home code a).apply t).jobPiece id' ix' = t.jobPiece id' ix' :=
  jobPiece_apply_job _ _ _ _ (fun j => by exact ⟨rfl, rfl⟩) t

/-- A performed piece ends with its code. -/
theorem jobPiece_tilePieceEnd_performed {s : State} {id ix : Nat} {j : Job} {p : Piece} {op : TileOp} {code : BitVec 4}
    (hj : s.job id = some j) (hp : j.pieces[ix]? = some p) (hw : j.work = .tile op) (hst : p.st = .performed code)
    (hc : p.clear s = true) (hl : ∀ x, linkBefore j ix p ≠ .failed x)
    (hok : code = 0 → spotsPowered s (p.got.map fun g => .here g.1 1) = true ∧ (p.got = [] ∨ tileViews s j p true = true)) :
    (applyActs s (tilePieceEnd s id ix none)).jobPiece id ix = some { p with st := .ended code, opened := [], got := [] } := by
  obtain rfl := job_id hj
  have hpiece := jobPiece_of_job hj hp
  by_cases hcode : code = codeOk
  · subst hcode
    obtain ⟨hpow, hview⟩ := hok rfl
    rw [tilePieceEnd_of_performed_ok hj hp hw hst hc hl hpow hview, applyActs_append, jobPiece_tileEnded,
      jobPiece_spared (writeBack_spares s j p p.got), hpiece, Option.map_some]
  · rw [tilePieceEnd_of_performed_failure hj hp hw hst hc hl hcode, applyActs_append, jobPiece_tileEnded]
    cases p.got.head? <;> simp [hpiece]

/-- A quern's piece ends with OK and leaves its accumulators. -/
theorem jobPiece_tilePieceEnd_computed {s : State} {id ix : Nat} {j : Job} {p : Piece} {op : TileOp} {n : Fin 64} {prev : List W32}
    {data : List (Nat × Byte)} {acc : List W32} {sat fr : Bool}
    (hj : s.job id = some j) (hp : j.pieces[ix]? = some p) (hw : j.work = .tile op)
    (hst : p.st = .started) (hl : linkBefore j ix p = .ready prev) (hx : p.exec = .quern n) (hc : p.clear s = true)
    (hread : tileViews s j p false = true) (hwrite : p.last = true → tileViews s j p true = true)
    (hdone : computePiece s j p prev = .done data acc sat fr) :
    ∃ q, (applyActs s (tilePieceEnd s id ix none)).jobPiece id ix = some q ∧ q.st = .ended codeOk ∧ q.acc = acc := by
  obtain rfl := job_id hj
  rw [tilePieceEnd_of_computed hj hp hw hst hl hx hc hread hwrite hdone]
  simp only [applyActs_append, jobPiece_tileEnded, jobPiece_spared (writeBack_spares s j p data), jobPiece_computedActs,
    jobPiece_spared (accessRows_spares s _), jobPiece_of_job hj hp, Option.map_some]
  exact ⟨_, rfl, rfl, rfl⟩

end Sys2Proof.Machine
end

section
/-! SUPPORT. A stone's jobs (R228, R353, R390): what running the first job leaves, and what turning pieces away does. -/

namespace Sys2Proof.Machine

/-- A stone's event is its job and then the requests that waited for it. -/
theorem exec_stoneJob {s : State} {x : Fin 64} (h : stoneJob s x ≠ []) :
    exec (.stoneJob x) s = .next (applyActs (applyActs s (stoneJob s x)) (releaseStalled (applyActs s (stoneJob s x)))) := by
  show perform s (stoneRuns s x) = _
  simp [stoneRuns, h, applyActs_append]

section
variable {s : State} {id ix : Nat} {j : Job} {p : Piece} {x : Fin 64}
  (hj : s.job id = some j) (hp : j.pieces[ix]? = some p) (hst : p.st = .started)
include hj hp hst

/-- A stone that nothing is turned away from computes the first of its jobs. -/
theorem stoneJob_of_computed {rest : List (Nat × Nat)} {prev : List W32} {data : List (Nat × Byte)} {acc : List W32} {sat fr : Bool}
    (hjobs : (s.stones[x]).jobs = (id, ix) :: rest) (hruns : stoneStops s x = true → (s.stones[x]).running = true)
    (hout : stoneRefuses s x = []) (hl : linkBefore j ix p = .ready prev) (hread : tileViews s j p false = true)
    (hdone : computePiece s j p prev = .done data acc sat fr) :
    stoneJob s x = accessRows s (rowsOf (allReads s j p)) ++ computedActs j ix p acc sat fr ++
      [.piece j.id ix fun q => { q with st := .performed codeOk, got := data }] ++
      [.stone x fun y => { y with jobs := y.jobs.tail, running := false }] ++
      (if dSpace j.b.d = 2 || !(stonePowered s x) then [] else staleStaging s x) := by
  have hgo : (stoneStops s x && !(s.stones[x]).running) = false := by
    cases h : stoneStops s x with
    | false => rfl
    | true => rw [hruns h]; rfl
  simp only [stoneJob, hout, hjobs, hgo, hj, hp, hst, hl, hread, tilePerform, hdone]
  simp

/-- The pieces that a stone turns away have the one that it holds among them. -/
theorem mem_stoneRefuses (hstops : stoneStops s x = true) (hidle : (s.stones[x]).running = false)
    (hmem : (id, ix) ∈ (s.stones[x]).jobs) (hb : dSpace j.b.d = 2) : (id, ix) ∈ stoneRefuses s x := by
  simp only [stoneRefuses, hstops, hidle, Bool.not_true, Bool.false_eq_true, if_false]
  exact List.mem_filter.mpr ⟨hmem, by simp [hj, hp, hst, hb]⟩

end

/-- A stone that turns pieces away ends them with ACCESS and drops them from its queue. -/
theorem stoneJob_of_refuses {s : State} {x : Fin 64} (h : stoneRefuses s x ≠ []) :
    stoneJob s x = (stoneRefuses s x).map (fun q => wheelEnds q.1 q.2 codeAccess) ++
      [.stone x fun y => { y with jobs := y.jobs.filter fun q => !(stoneRefuses s x).contains q }] := by
  simp [stoneJob, h]

/-- Each of several pieces that end at their executors is found performed. -/
theorem jobPiece_wheelEnds (qs : List (Nat × Nat)) (code : BitVec 4) {id ix : Nat} (t : State) :
    (applyActs t (qs.map fun q => wheelEnds q.1 q.2 code)).jobPiece id ix =
      if (id, ix) ∈ qs then (t.jobPiece id ix).map fun q => { q with st := .performed code } else t.jobPiece id ix := by
  induction qs generalizing t with
  | nil => simp
  | cons q qs ih =>
    obtain ⟨a, b⟩ := q
    rw [List.map_cons, applyActs_cons, ih, wheelEnds, jobPiece_apply_piece]
    by_cases hq : a = id ∧ b = ix
    · obtain ⟨rfl, rfl⟩ := hq
      cases t.jobPiece a b <;> simp
    · have : ¬ ((id, ix) = (a, b)) := fun e => hq ⟨(Prod.mk.inj e).1.symm, (Prod.mk.inj e).2.symm⟩
      simp [hq, this]

theorem stones_wheelEnds (qs : List (Nat × Nat)) (code : BitVec 4) (t : State) :
    (applyActs t (qs.map fun q => wheelEnds q.1 q.2 code)).stones = t.stones := by
  induction qs generalizing t with
  | nil => rfl
  | cons q qs ih => rw [List.map_cons, applyActs_cons, ih, wheelEnds, apply_piece_stones]

end Sys2Proof.Machine
end

section
/-! SUPPORT. What a stone's event leaves of its queue and of its piece. -/

namespace Sys2Proof.Machine

/-- The state after a stone's own updates, when it has computed its first job. -/
theorem stoneJob_computed_leaves {s : State} {id ix : Nat} {j : Job} {p : Piece} {x : Fin 64} {rest : List (Nat × Nat)}
    {prev : List W32} {data : List (Nat × Byte)} {acc : List W32} {sat fr : Bool}
    (hj : s.job id = some j) (hp : j.pieces[ix]? = some p) (hst : p.st = .started) (hjobs : (s.stones[x]).jobs = (id, ix) :: rest)
    (hruns : stoneStops s x = true → (s.stones[x]).running = true) (hout : stoneRefuses s x = [])
    (hl : linkBefore j ix p = .ready prev) (hread : tileViews s j p false = true)
    (hdone : computePiece s j p prev = .done data acc sat fr) :
    let t := applyActs s (stoneJob s x)
    (t.stones[x]).jobs = rest ∧ (t.stones[x]).running = false ∧
      ∃ q, t.jobPiece id ix = some q ∧ q.st = .performed codeOk ∧ q.acc = acc ∧ q.got = data := by
  obtain rfl := job_id hj
  have hstale : SparesWork (if dSpace j.b.d = 2 || !(stonePowered s x) then [] else staleStaging s x) := by
    split <;> simp
  have hcomputed (t : State) : (applyActs t (computedActs j ix p acc sat fr)).stones = t.stones := by
    unfold computedActs
    split <;> rfl
  rw [stoneJob_of_computed hj hp hst hjobs hruns hout hl hread hdone]
  simp only [applyActs_append, (applyActs_sparesWork hstale _).2, applyActs_cons, applyActs_nil, apply_stone_stones, vset_same,
    apply_piece_stones, hcomputed, (applyActs_sparesWork (accessRows_spares s _) s).2, hjobs, jobPiece_spared hstale]
  refine ⟨rfl, trivial, ?_⟩
  rw [jobPiece_of_jobs (apply_stone_jobs ..), jobPiece_apply_piece_same, jobPiece_computedActs,
    jobPiece_spared (accessRows_spares s _), jobPiece_of_job hj hp]
  exact ⟨_, rfl, rfl, rfl, rfl⟩

/-- The state after a stone's own updates, when it has turned away a piece. -/
theorem stoneJob_refused_leaves {s : State} {id ix : Nat} {p : Piece} {x : Fin 64} (hpiece : s.jobPiece id ix = some p)
    (hmem : (id, ix) ∈ stoneRefuses s x) :
    let t := applyActs s (stoneJob s x)
    (id, ix) ∉ (t.stones[x]).jobs ∧ t.jobPiece id ix = some { p with st := .performed codeAccess } := by
  rw [stoneJob_of_refuses (List.ne_nil_of_mem hmem)]
  simp only [applyActs_append, applyActs_cons, applyActs_nil, apply_stone_stones, vset_same, stones_wheelEnds]
  refine ⟨fun h => ?_, ?_⟩
  · have := (List.mem_filter.mp h).2
    simp [hmem] at this
  · rw [jobPiece_of_jobs (apply_stone_jobs ..), jobPiece_wheelEnds, if_pos hmem, hpiece, Option.map_some]

end Sys2Proof.Machine
end

section
/-! SUPPORT. Placing a tile instruction (R230 to R237): starting its pieces keeps it formed. -/

namespace Sys2Proof.Machine

/-- What starting the pieces of a job keeps of it: that it is prepared, and how many pieces it has. -/
def State.jobShape (s : State) (id : Nat) : Option (Bool × Nat) := (s.job id).map fun j => (j.prepared, j.pieces.length)

theorem jobShape_of_jobs {s t : State} (h : t.jobs = s.jobs) (id : Nat) : t.jobShape id = s.jobShape id := by
  simp [State.jobShape, job_of_jobs h]

/-- An update of a piece keeps the shape of every job. -/
@[simp] theorem jobShape_apply_piece (id ix id' : Nat) (f : Piece → Piece) (s : State) :
    ((Act.piece id ix f).apply s).jobShape id' = s.jobShape id' := by
  rw [State.jobShape, Act.piece, job_apply_job _ _ _ fun j => by rfl]
  split
  · cases hs : s.job id' <;> simp [State.jobShape, hs]
  · rfl

@[simp] theorem jobShape_apply_home (h : Fin 512) (f : HomeSt → HomeSt) (s : State) (id : Nat) :
    ((Act.home h f).apply s).jobShape id = s.jobShape id := rfl

@[simp] theorem jobShape_apply_stone (x : Fin 64) (f : StoneSt → StoneSt) (s : State) (id : Nat) :
    ((Act.stone x f).apply s).jobShape id = s.jobShape id := rfl

/-- The executor of a piece takes it: no job changes. -/
theorem jobShape_startTile (s t : State) (j : Job) (ix id : Nat) (p : Piece) :
    (applyActs t (startTile s j ix p)).jobShape id = t.jobShape id := by
  unfold startTile
  split
  · simp
  · extract_lets uses
    split
    · simp
    · rename_i acts hbegin
      have hbanks := jobShape_of_jobs (applyActs_sparesWork (beginBanks_spares s uses hbegin) t).1 id
      rw [applyActs_append, applyActs_append]
      split <;> simp [wheelPush, hbanks]

/-- Starting all pieces of a job keeps its shape. -/
theorem jobShape_startTiles (j : Job) (id ix : Nat) (ps : List Piece) (s t : State) :
    (applyActs t (startTiles j ix ps s)).jobShape id = t.jobShape id := by
  induction ps generalizing ix s t with
  | nil => rfl
  | cons p ps ih => rw [startTiles, applyActs_append, ih, jobShape_startTile]

section
variable {s : State} {id : Nat} {j : Job} {op : TileOp} {tr : List Trans} {acts : List Act}
  (hj : s.job id = some j) (hprep : j.prepared = false) (hfault : placementFaulted s id = false)
  (htr : translateUnits s j.core j.part (tileUnits j) = (.ok tr, acts))
include hj hprep hfault htr

/-- A `place` query is answered once its operands are translated (R237, R238). -/
theorem millerPlacement_of_place (hw : j.work = .place op) :
    millerPlacement s id = acts ++ [.job id fun o =>
      { o with prepared := true, word := some (placeWord o (placeAll (applyActs s acts) { j with tr }) 0) }] := by
  simp [millerPlacement, hj, hprep, hfault, htr, hw]

/-- A tile instruction is cut, and its pieces are started, once its operands are translated (R230, R233). -/
theorem millerPlacement_of_tile (hw : j.work = .tile op) (hready : j.ready s = true) :
    let ps := placeAll (applyActs s acts) { j with tr }
    let form : List Act := [.job id fun o => { o with tr, prepared := true, pieces := ps }]
    millerPlacement s id = acts ++ form ++ startTiles { j with tr } 0 ps (applyActs (applyActs s acts) form) := by
  simp [millerPlacement, hj, hprep, hfault, htr, hw, hready]

/-- After the answer, the query holds the word of where its first piece would run. -/
theorem job_millerPlacement_place (hw : j.work = .place op) :
    (applyActs s (millerPlacement s id)).job id = some
      { j with prepared := true, word := some (placeWord j (placeAll (applyActs s acts) { j with tr }) 0) } := by
  rw [millerPlacement_of_place hj hprep hfault htr hw, applyActs_append, applyActs_cons, applyActs_nil,
    job_apply_job _ _ _ fun o => by rfl, if_pos rfl, job_spared (spares_of_translateUnits htr), hj, Option.map_some]

/-- After the placement, the instruction is prepared and has the pieces that the miller cuts. -/
theorem jobShape_millerPlacement_tile (hw : j.work = .tile op) (hready : j.ready s = true) :
    (applyActs s (millerPlacement s id)).jobShape id =
      some (true, (placeAll (applyActs s acts) { j with tr }).length) := by
  rw [millerPlacement_of_tile hj hprep hfault htr hw hready, applyActs_append, applyActs_append, jobShape_startTiles, applyActs_cons,
    applyActs_nil, State.jobShape, job_apply_job _ _ _ fun o => by rfl, if_pos rfl, job_spared (spares_of_translateUnits htr), hj,
    Option.map_some, Option.map_some]

end

end Sys2Proof.Machine
end

section
/-! SUPPORT. A copy piece starts and ends (R184, R187, R390). -/

namespace Sys2Proof.Machine

/-- What beginning a piece's accesses does leaves the engines alone. -/
theorem beginPiece_spares {s : State} {j : Job} {ix : Nat} {cols : Bool} {reads writes : List (Opnd × Ix)} {q : Option Nat}
    {tr : List Trans} {src dst : List Spot} {opened : List (Fin 4096 × Bool)} {acts : List Act}
    (h : beginPiece s j ix cols reads writes q = .ok tr src dst opened acts) : SparesWork acts := by
  unfold beginPiece at h
  extract_lets us at h
  cases htr : translateUnits s j.core j.part us q with
  | mk r walked =>
    rw [htr] at h
    cases r with
    | absent va w =>
      dsimp only at h
      split at h <;> cases h
    | denied => cases h
    | ok tr' =>
      dsimp only at h
      split at h
      · cases h
      · cases h
      · split at h
        · cases h
        · rename_i ba hba
          cases h
          exact (sparesWork_append _ _).mpr ⟨spares_of_translateUnits htr, beginBanks_spares _ _ hba⟩

section
variable {s : State} {id ix : Nat} {j : Job} {p : Piece} {src dst : List Spot}
  (hj : s.job id = some j) (hp : j.pieces[ix]? = some p) (hq : 4 ≤ j.queue.val) (hw : j.work = .cpy)
include hj hp hq hw

/-- A waiting piece of a copy within the node starts with its accesses begun and its requests at their pseudo-channels. -/
theorem copyStart_of_begun {tr : List Trans} {src' dst' : List Spot} {opened : List (Fin 4096 × Bool)} {acts : List Act}
    (hready : j.ready s = true) (hprep : j.prepared = true) (hfix : p.fixed = none) (hst : p.st = .waiting)
    (hcut : (recut s j p).length ≤ 1)
    (hbegin : beginPiece s j ix false (p.pairs.map fun x => (j.a, x.1)) (p.pairs.map fun x => (j.dst, x.2)) p.quarter =
      .ok tr src' dst' opened acts)
    (hspots : pieceSpots s j { p with tr } false = (src, dst)) (hsrc : awayRuns src = []) (hdst : awayRuns dst = []) :
    copyStart s id ix = acts ++
      [.piece j.id ix fun q => { q with st := .started, tr, opened, behind := stonesBusy s (src ++ dst) }] ++
      requestActs (j.id, ix) (dView j.a.d) (p.mainAt (p.next (spotBytes src) (spotBytes dst)) src) ++
      requestActs (j.id, ix) (dView j.dst.d) (p.mainAt (p.next (spotBytes src) (spotBytes dst)) dst) := by
  have htarget : j.target p = j.dst := by simp [Job.target, hw]
  have hqueue : ¬ j.queue.val < 4 := by omega
  have hlater : startsLater j ix = false := by simp [startsLater, hw]
  have hone : ¬ 1 < (recut s j p).length := by omega
  have hmove : copyStart s id ix = startMove s j ix p := by
    simp [copyStart, startWaiting, startPiece, hj, hp, hqueue, hw, hready, hprep, hfix, hst, hlater, hone]
  simp only [hmove, startMove, htarget, hbegin, hspots, hsrc, hdst, readRequests, List.append_nil]
  rfl

/-- The end of a started copy piece whose answers have come is that of a move. -/
theorem pieceEnd_of_copy (hst : p.st = .started) (hawait : p.awaiting = []) : pieceEnd s id ix = endMove s j ix p := by
  have hqueue : ¬ j.queue.val < 4 := by omega
  simp [pieceEnd, copyEnd, endStarted, hj, hp, hw, hst, hawait, hqueue]

end

end Sys2Proof.Machine
end

section
/-! SUPPORT. What the end of a copy piece leaves of its piece and of memory (R114, R184, R390). -/

namespace Sys2Proof.Machine

/-- A copy piece that ends is found ended. -/
@[simp] theorem jobPiece_pieceEnded (t : State) (j : Job) (ix : Nat) (p : Piece) (x : BitVec 4) :
    (applyActs t (pieceEnded j ix p x)).jobPiece j.id ix =
      (t.jobPiece j.id ix).map fun q => { q with st := .ended x, opened := [], awaiting := [], got := [] } := by
  simp [pieceEnded, applyActs_append, jobPiece_spared]

theorem pieceEnded_quiet (j : Job) (ix : Nat) (p : Piece) (x : BitVec 4) : (pieceEnded j ix p x).all Act.quiet = true := by
  simp only [pieceEnded, List.all_append, endBanks_quiet]
  rfl

/-- Bytes put into memory one after another. -/
def putBytes (m : List Host.Cell) (data : List (Nat × Byte)) : List Host.Cell := data.foldl (fun m x => memPut m x.1 x.2) m

theorem mem_applyActs_bytes (data : List (Nat × Byte)) (t : State) :
    (applyActs t (data.map fun x => Act.byte x.1 x.2)).mem = putBytes t.mem data := by
  induction data generalizing t with
  | nil => rfl
  | cons x data ih => exact ih _

theorem engineHits_quiet (s : State) (w : Nat) : (engineHits s w).all Act.quiet = true := by
  have hcores (b : Fin 4096) (off : Nat) (cs : List (Fin 256)) : (cs.filterMap fun c =>
      if (s.cores[c]).cont.mon.isSome then some (Act.cont c fun k => { k with mon := k.mon.map fun m => m.hit b off 4 }) else none).all
        Act.quiet = true := by
    rw [List.all_filterMap]
    refine List.all_eq_true.mpr fun c _ => ?_
    cases (s.cores[c]).cont.mon.isSome <;> rfl
  unfold engineHits
  split
  · rw [List.all_append, hcores]
    split <;> rfl
  · rfl

/-- An engine that abstains from nothing leaves its bytes in memory, and nothing else of memory changes. -/
theorem mem_engineWrite (s t : State) (data : List (Nat × Byte)) (bad : List Nat) (h : abstainWords s data = []) :
    (applyActs t (engineWrite s data bad)).mem = putBytes t.mem data := by
  have hnoted : (abstainNoted s s.hub.node s.hub.node (abstainLike data)).all Act.quiet = true := by
    unfold abstainNoted
    extract_lets
    split <;> rfl
  simp only [engineWrite, h, List.isEmpty_nil, if_true, abstainAll, List.append_nil, List.append_assoc]
  rw [applyActs_append, applyActs_quiet, mem_applyActs_bytes]
  simp [Act.quiet, engineHits_quiet, hnoted]

/-- The bytes of which all bits move, and those of which some stay, with what they become (R114). -/
def wholeBytes (data : List (Nat × Byte × Byte)) : List (Nat × Byte) :=
  (data.filter fun x => x.2.2 == 0xFF).map fun x => (x.1, x.2.1)

/-- Those of which some bits stay, with what they become (R114). -/
def maskedBytes (m : List Host.Cell) (data : List (Nat × Byte × Byte)) : List (Nat × Byte) :=
  (data.filter fun x => x.2.2 != 0xFF).map fun x => (x.1, (x.2.1 &&& x.2.2) ||| (memGet m x.1 &&& ~~~x.2.2))

/-- A masked write that abstains from nothing leaves the bits of its masks, and the others as they were. -/
theorem mem_maskedWrite (s t : State) (data : List (Nat × Byte × Byte)) (bad : List Nat)
    (hwhole : abstainWords s (wholeBytes data) = []) (hpart : abstainWords s (maskedBytes s.mem data) = []) :
    (applyActs t (maskedWrite s data bad)).mem = putBytes t.mem (wholeBytes data ++ maskedBytes s.mem data) := by
  have heq : maskedWrite s data bad = engineWrite s (wholeBytes data) bad ++
      (if (data.filter fun x => x.2.2 != 0xFF).isEmpty then [] else engineWrite s (maskedBytes s.mem data) []) := rfl
  have hput : putBytes t.mem (wholeBytes data ++ maskedBytes s.mem data) =
      putBytes (putBytes t.mem (wholeBytes data)) (maskedBytes s.mem data) := List.foldl_append
  rw [heq, applyActs_append, hput]
  split
  · rename_i hnone
    rw [applyActs_nil, mem_engineWrite s t _ _ hwhole, maskedBytes, List.isEmpty_iff.mp hnone]
    rfl
  · rw [mem_engineWrite s _ _ _ hpart, mem_engineWrite s t _ _ hwhole]

theorem whole_iff {p : Piece} : p.whole = true ↔ p.done = [] ∧ p.part = none := by simp [Piece.whole]

/-- Of a whole piece nothing is put first (R272). -/
theorem whole_withoutPart {p : Piece} (h : p.whole = true) : { p with part := none } = p := by
  rw [← (whole_iff.mp h).2]

section
variable {s : State} {ix : Nat} {j : Job} {p : Piece} {src dst : List Spot}
  (hc : p.clear s = true) (hrow : rowBefore j ix p = false)
include hc hrow

/-- A piece whose bank or stone has lost its power gives up its requests and ends with ACCESS (R390). -/
theorem endMove_of_lost (hsent : p.sent = false) (hthere : pieceThere s j p = false) :
    ∃ xs, endMove s j ix p = dropRequests (j.id, ix) xs ++ pieceEnded j ix p codeAccess := by
  generalize hacts : endMove s j ix p = acts
  unfold endMove at hacts
  split at hacts
  rename_i src' dst' hspots'
  extract_lets runs p' now from_ dest mine at hacts
  have hp' : (p'.clear s = true ∧ rowBefore j ix p' = false) ∧ (p'.sent = false ∧ pieceThere s j p' = false) ∧
      pieceEnded j ix p' codeAccess = pieceEnded j ix p codeAccess := by
    unfold p'
    split
    · exact ⟨⟨hc, hrow⟩, ⟨hsent, hthere⟩, rfl⟩
    · exact ⟨⟨hc, hrow⟩, ⟨hsent, hthere⟩, rfl⟩
  obtain ⟨⟨hc', hrow'⟩, ⟨hsent', hthere'⟩, hend⟩ := hp'
  exact ⟨mine, by simpa [hc', hrow', hsent', hthere', hend] using hacts.symm⟩

/-- A whole piece within the node whose data is sound writes it, gives up its requests and ends with OK (R184). -/
theorem endMove_of_sound (hspots : pieceSpots s j p false = (src, dst)) (hdst : awayRuns dst = []) (hwhole : p.whole = true)
    (hlost : p.lost = []) (hthere : pieceThere s j p = true)
    (hasked : requested s (j.id, ix) (mainBytesOf src ++ mainBytesOf dst) = true)
    (hserved : requestsServed s (j.id, ix) (mainBytesOf src ++ mainBytesOf dst) = true)
    (hview : viewHeld s (j.id, ix) (mainBytesOf src ++ mainBytesOf dst) = false) (hsound : ∀ x ∈ pieceData s p src, x.2 = false) :
    ∃ heals : List Nat, endMove s j ix p =
      maskedWrite s ((spotBytes dst).zip ((pieceData s p src).zipWith (fun d m => (d.1, m)) (pieceMask j p))) [] ++
        heals.map (fun n => Act.sector n false) ++ dropRequests (j.id, ix) (mainBytesOf src ++ mainBytesOf dst) ++
        pieceEnded j ix p codeOk := by
  have hdone := (whole_iff.mp hwhole).1
  generalize hacts : endMove s j ix p = acts
  unfold endMove at hacts
  split at hacts
  rename_i src' dst' hspots'
  cases hspots'.symm.trans hspots
  extract_lets runs p' now from_ dest mine data code free all xs lost bad write full heals group at hacts
  have hp' : p' = p := by
    unfold p'
    split
    · rfl
    · exact whole_withoutPart hwhole
  have hmine : mine = mainBytesOf src ++ mainBytesOf dst := by
    simp only [mine, from_, dest, hp', Piece.mainAt, hwhole, if_true]
  have hxs : xs = all := by simp only [xs, hp', hwhole, if_true]
  have hnone : lost = [] := by simp only [lost, hp', hwhole, if_true, hlost, List.append_nil]
  have hclean : ∀ x ∈ xs, x.2.1.2 = false := by
    rw [hxs]
    intro x hx
    refine hsound _ ?_
    have := (List.of_mem_zip (List.of_mem_zip hx).2).1
    rwa [← hp']
  have hany : (xs.any fun x => x.2.1.2) = false := by simpa using hclean
  have hbad : bad = [] := by
    have hfilter : (xs.filter fun x => x.2.1.2) = [] := List.filter_eq_nil_iff.mpr fun x hx => by simp [hclean x hx]
    simp only [bad, hfilter, hnone, List.map_nil, List.filterMap_nil, List.append_nil]
    rfl
  have hmoved : (xs.map fun x => (x.1, x.2.1.1, x.2.2)) =
      (spotBytes dst).zip ((pieceData s p src).zipWith (fun d m => (d.1, m)) (pieceMask j p)) := by
    rw [hxs, ← List.map_uncurry_zip_eq_zipWith, List.zip_map_right]
    simp only [all, data, hp']
    rfl
  have hlast : ¬ p'.done.length + xs.length < all.length := by simp [hp', hdone, hxs]
  have hok : (lost.isEmpty && !xs.any fun x => x.2.1.2) = true := by simp [hnone, hany]
  refine ⟨heals, hacts.symm.trans ?_⟩
  rw [if_neg (by simp [hp', hc, hrow]), if_neg (by simp [hp', hthere]), if_neg (by simp [hmine, hasked]),
    if_neg (by simp [hmine, hserved, hview]), if_pos (by simp [runs, hdst]), if_neg hlast, if_pos hok]
  simp only [write, free, hmoved, hbad, hmine, hp']

end

end Sys2Proof.Machine
end

section
/-! SUPPORT. The completion of an instruction (R176, R201): its continuation's record, its job and its flag. -/

namespace Sys2Proof.Machine

theorem code?_eq_some_iff {p : Piece} {x : BitVec 4} : p.code? = some x ↔ p.st = .ended x := by
  unfold Piece.code?
  split <;> simp_all

/-- Where every piece has ended, none has failed exactly when all of them ended with OK. -/
theorem failing_isNone_iff {j : Job} (h : j.over = true) : j.failing.isNone = true ↔ ∀ y ∈ j.pieces, y.st = .ended 0 := by
  have hended : ∀ y ∈ j.pieces, y.code?.isSome = true := by
    simp only [Job.over, Bool.and_eq_true, List.all_eq_true] at h
    exact h.2
  simp only [Job.failing, Option.isNone_iff_eq_none, List.head?_eq_none_iff, List.filterMap_eq_nil_iff, List.mem_range]
  constructor
  · intro hnone y hy
    obtain ⟨i, hi, hiy⟩ := List.getElem_of_mem hy
    obtain ⟨x, hx⟩ := Option.isSome_iff_exists.mp (hended y hy)
    have hzero := hnone i hi
    rw [List.getElem?_eq_getElem hi, hiy] at hzero
    simp only [Option.bind_some, hx, ite_eq_left_iff, reduceCtorEq, imp_false, not_not] at hzero
    exact code?_eq_some_iff.mp (hzero ▸ hx)
  · intro hall i hi
    have hcode := code?_eq_some_iff.mpr (hall _ (List.getElem_mem hi))
    simp [List.getElem?_eq_getElem hi, hcode]

theorem over_of_completes {s : State} {j : Job} (h : j.completes s = true) : j.over = true :=
  (Bool.and_eq_true_iff.mp h).1

/-- Updates of dies leave the cores, the jobs and the releases. -/
theorem applyActs_dies (ds : List (Fin 4)) (f : DieSt → DieSt) (t : State) :
    let t' := applyActs t (ds.map fun d => .die d f)
    (∀ c : Fin 256, t'.cores[c] = t.cores[c]) ∧ t'.jobs = t.jobs ∧ t'.releases = t.releases := by
  induction ds generalizing t with
  | nil => exact ⟨fun _ => rfl, rfl, rfl⟩
  | cons d ds ih => exact ih _

/-- A continuation that sits where it was. -/
theorem seatOf_seated {s : State} {c : Fin 256} {cid : Nat} (h : (s.cores[c]).cont.cid = cid) : seatOf s c cid = c := by
  unfold seatOf
  extract_lets has
  have hhas : has c = true := by simp only [has, h, beq_self_eq_true, Bool.true_or]
  rw [if_pos hhas]

/-- A continuation that sits where it was is updated there, and no job or release is. -/
theorem contActs_seated {s : State} {c : Fin 256} {cid : Nat} (f : Cont → Cont) (h : (s.cores[c]).cont.cid = cid) :
    let t := applyActs s (contActs s c cid f)
    (t.cores[c]).cont = f (s.cores[c]).cont ∧ t.jobs = s.jobs ∧ t.releases = s.releases := by
  rw [contActs, seatOf_seated h, applyActs_cons, resumeActs]
  obtain ⟨hcores, hjobs, hreleases⟩ := applyActs_dies (List.finRange 4) _ ((Act.byCid c cid f).apply s)
  refine ⟨?_, hjobs, hreleases⟩
  rw [hcores, Act.byCid, apply_core_cores, vset_same, h, beq_self_eq_true, if_pos rfl]

/-- An instruction ends with the code OK in its status word. -/
def Job.endsOk (j : Job) : Bool := j.failing.isNone && (match j.word with | some w => bits w 64 4 == 0#4 | none => true)

/-- Of an instruction whose pieces have ended. -/
theorem endsOk_iff {j : Job} (h : j.over = true) :
    j.endsOk = true ↔ (∀ y ∈ j.pieces, y.st = .ended 0) ∧ ∀ w, j.word = some w → bits w 64 4 = (0 : BitVec 4) := by
  unfold Job.endsOk
  rw [Bool.and_eq_true, failing_isNone_iff h]
  cases j.word <;> simp

/-- The state after an instruction that may complete, its continuation on its core. -/
theorem tagComplete_leaves {s : State} {id : Nat} {j : Job} (hj : s.job id = some j) (h : j.completes s = true)
    (hseat : (s.cores[j.core]).cont.cid = j.cid) :
    let t := applyActs s (tagComplete s id)
    (t.cores[j.core]).cont = (s.cores[j.core]).cont.complete j.tag j.status j.record ∧
      t.jobs = s.jobs.filter (fun o => o.id != id) ∧
      t.releases = s.releases ++ (if j.post.mode = 1 ∨ (j.post.mode = 2 ∧ j.endsOk = true) then
        [{ id := s.nextId, src := j.core, needs := [], ready := 0, fabric := .unneeded
           deliver := .flag j.post.core j.post.flag 1, engine := true }] else []) := by
  obtain ⟨hcont, hjobs, hreleases⟩ := contActs_seated (fun k => k.complete j.tag j.status j.record) hseat
  have hacts : tagComplete s id = contActs s j.core j.cid (fun k => k.complete j.tag j.status j.record) ++
      [.jobs fun js => js.filter fun o => o.id != id] ++
      (if s.hub.dbg = 1 then [.report (.tracedTag j.core j.tag)] else []) ++
      (if j.post.mode = 1 ∨ (j.post.mode = 2 ∧ j.endsOk = true) then
        [.ids 8, .releases fun rs => rs ++ [{ id := s.nextId, src := j.core, needs := [], ready := 0, fabric := .unneeded
                                              deliver := .flag j.post.core j.post.flag 1, engine := true }]] else []) := by
    simp only [tagComplete, hj, h, Bool.not_true, Bool.false_eq_true, if_false]
    rfl
  simp only [hacts, applyActs_append, applyActs_cons, applyActs_nil]
  refine ⟨?_, ?_, ?_⟩
  · split <;> split <;> simpa using hcont
  · split <;> split <;> simp [hjobs]
  · split <;> split <;> simp [hreleases]

end Sys2Proof.Machine
end

section
/-! The events of engines (R19, R184 to R188, R201, R228, R230, R237, R239): each clause from the layer above. -/

namespace Sys2Proof.Machine

section
variable {s : State} {id ix : Nat} {j : Job} {p : Piece} {src dst : List Spot}
  (hj : s.job id = some j) (hp : j.pieces[ix]? = some p) (hq : 4 ≤ j.queue.val) (hw : j.work = .cpy)
include hj hp hq hw

/-- A copy piece that starts is found started, with its translations and the banks whose accesses it began. -/
theorem jobPiece_copyStart {tr : List Trans} {opened : List (Fin 4096 × Bool)} {acts : List Act}
    (hready : j.ready s = true) (hprep : j.prepared = true) (hfix : p.fixed = none) (hst : p.st = .waiting)
    (hcut : (recut s j p).length ≤ 1)
    (hbegin : beginPiece s j ix false (p.pairs.map fun x => (j.a, x.1)) (p.pairs.map fun x => (j.dst, x.2)) p.quarter =
      .ok tr src dst opened acts)
    (hsrc : awayRuns (pieceSpots s j { p with tr } false).1 = []) (hdst : awayRuns (pieceSpots s j { p with tr } false).2 = []) :
    ∃ q, (applyActs s (copyStart s id ix)).jobPiece id ix = some q ∧ q.st = .started ∧ q.tr = tr ∧ q.opened = opened := by
  obtain rfl := job_id hj
  rw [copyStart_of_begun hj hp hq hw hready hprep hfix hst hcut hbegin rfl hsrc hdst]
  simp only [applyActs_append, jobPiece_spared (requestActs_spares _ _ _), applyActs_cons, applyActs_nil, jobPiece_apply_piece_same,
    jobPiece_spared (beginPiece_spares hbegin), jobPiece_of_job hj hp, Option.map_some]
  exact ⟨_, rfl, rfl, rfl, rfl⟩

/-- A sound copy piece that ends has moved its bytes, of those at the edge of padding their bits alone (R114, R184). -/
theorem pieceEnd_sound_leaves (hst : p.st = .started) (hawait : p.awaiting = []) (hspots : pieceSpots s j p false = (src, dst))
    (hdst : awayRuns dst = []) (hc : p.clear s = true) (hrow : rowBefore j ix p = false) (hwhole : p.whole = true)
    (hlost : p.lost = []) (hthere : pieceThere s j p = true)
    (hasked : requested s (id, ix) (mainBytesOf src ++ mainBytesOf dst) = true)
    (hserved : requestsServed s (id, ix) (mainBytesOf src ++ mainBytesOf dst) = true)
    (hview : viewHeld s (id, ix) (mainBytesOf src ++ mainBytesOf dst) = false) (hsound : ∀ x ∈ pieceData s p src, x.2 = false) :
    let moved := (spotBytes dst).zip ((pieceData s p src).zipWith (fun d m => (d.1, m)) (pieceMask j p))
    abstainWords s (wholeBytes moved) = [] → abstainWords s (maskedBytes s.mem moved) = [] →
      let t := applyActs s (pieceEnd s id ix)
      (∃ q, t.jobPiece id ix = some q ∧ q.st = .ended codeOk) ∧
        t.mem = putBytes s.mem (wholeBytes moved ++ maskedBytes s.mem moved) := by
  intro moved hwords hbits
  obtain rfl := job_id hj
  obtain ⟨heals, hacts⟩ := endMove_of_sound hc hrow hspots hdst hwhole hlost hthere hasked hserved hview hsound
  have hheals : SparesWork (heals.map fun n => Act.sector n false) := by simp
  have hquiet : (heals.map fun n => Act.sector n false).all Act.quiet = true := by simp [Act.quiet]
  rw [pieceEnd_of_copy hj hp hq hw hst hawait, hacts]
  simp only [applyActs_append]
  constructor
  · rw [jobPiece_pieceEnded, jobPiece_spared (dropRequests_spares _ _), jobPiece_spared hheals, jobPiece_spared (maskedWrite_spares s _ _),
      jobPiece_of_job hj hp]
    exact ⟨_, rfl, rfl⟩
  · rw [applyActs_quiet _ _ (pieceEnded_quiet ..), applyActs_quiet _ _ (dropRequests_quiet ..), applyActs_quiet _ _ hquiet,
      mem_maskedWrite s s moved [] hwords hbits]

/-- A copy piece of which a stone (R390) or a bank (log entry 89) has lost its power writes nothing and ends with ACCESS. -/
theorem pieceEnd_lost_leaves (hst : p.st = .started) (hawait : p.awaiting = []) (hc : p.clear s = true)
    (hrow : rowBefore j ix p = false) (hsent : p.sent = false) (hthere : pieceThere s j p = false) :
    let t := applyActs s (pieceEnd s id ix)
    t.mem = s.mem ∧ ∃ q, t.jobPiece id ix = some q ∧ q.st = .ended codeAccess := by
  obtain rfl := job_id hj
  obtain ⟨xs, hacts⟩ := endMove_of_lost hc hrow hsent hthere
  rw [pieceEnd_of_copy hj hp hq hw hst hawait, hacts]
  simp only [applyActs_append]
  constructor
  · rw [applyActs_quiet _ _ (pieceEnded_quiet ..), applyActs_quiet _ _ (dropRequests_quiet ..)]
  · rw [jobPiece_pieceEnded, jobPiece_spared (dropRequests_spares _ _), jobPiece_of_job hj hp]
    exact ⟨_, rfl, rfl⟩

end

/-- Settles O36: each event of an engine performs a list of updates that its case fixes; what of it spares the jobs is passed
over, and the update of the job or the piece is what the clause names. -/
theorem engineEvents : Obligations.EngineEvents := by
  unfold Obligations.EngineEvents
  intro s id ix j p op tr acts code prev data acc sat fr st rest src dst opened hj piece done moved whole part
  have found {t : State} {q : Piece} {f : Piece → Prop} (h : t.jobPiece id ix = some q) (hf : f q) : piece t f :=
    exists_of_jobPiece h hf
  have hpiece (hp : j.pieces[ix]? = some p) : s.jobPiece id ix = some p := jobPiece_of_job hj hp
  refine ⟨fun hprep hfault htr => ⟨fun hw => ?_, fun hw hready => ?_⟩, fun hp => ⟨?_, ?_, ?_, ?_, ?_, ?_, ?_, ?_, ?_⟩, ?_⟩
  · exact ⟨_, _, rfl, job_millerPlacement_place hj hprep hfault htr hw, rfl, rfl⟩
  · obtain ⟨j', hj', hshape⟩ := Option.map_eq_some_iff.mp (jobShape_millerPlacement_tile hj hprep hfault htr hw hready)
    obtain ⟨hprep', hlen⟩ := Prod.mk.inj hshape
    exact ⟨_, j', rfl, hj', hprep', hlen⟩
  · intro hw hst hc hl hok
    exact ⟨_, rfl, found (jobPiece_tilePieceEnd_performed hj hp hw hst hc hl hok) rfl⟩
  · intro hw hst hc hl hpow
    have hacts := tilePieceEnd_of_unpowered hj hp hw hst hc hl hpow
    exact ⟨_, rfl, hacts ▸ applyActs_quiet _ s (tileEnded_quiet ..),
      found (hacts ▸ jobPiece_tileEnded_of_found hj hp codeAccess) rfl⟩
  · intro hw hst hl
    have hacts := tilePieceEnd_of_failed hj hp hw hst hl
    exact ⟨_, rfl, found (hacts ▸ jobPiece_tileEnded_of_found hj hp code) rfl⟩
  · intro n hw hst hl hx hc hread hwrite hdone
    obtain ⟨q, hq, hended, hacc⟩ := jobPiece_tilePieceEnd_computed hj hp hw hst hl hx hc hread hwrite hdone
    exact ⟨_, rfl, found hq ⟨hended, hacc⟩⟩
  · intro hjobs hruns hout hst hl hread hdone
    obtain ⟨hrest, hidle, q, hq, hperformed, hacc, hgot⟩ := stoneJob_computed_leaves hj hp hst hjobs hruns hout hl hread hdone
    have hacts : stoneJob s st ≠ [] := by simp [stoneJob_of_computed hj hp hst hjobs hruns hout hl hread hdone]
    exact ⟨_, hrest, hidle, found hq ⟨hperformed, hacc, hgot⟩, exec_stoneJob hacts⟩
  · intro hstops hidle hmem hst hb
    have hrefused := mem_stoneRefuses hj hp hst hstops hidle hmem hb
    obtain ⟨hgone, hended⟩ := stoneJob_refused_leaves (hpiece hp) hrefused
    have hacts : stoneJob s st ≠ [] := by simp [stoneJob_of_refuses (List.ne_nil_of_mem hrefused)]
    exact ⟨_, hgone, found hended rfl, exec_stoneJob hacts⟩
  · intro hq hready hprep hw hfix hst hcut hbegin hsrc hdst
    obtain ⟨q, hpiece', hstarted, htr, hopened⟩ := jobPiece_copyStart hj hp hq hw hready hprep hfix hst hcut hbegin hsrc hdst
    exact ⟨_, rfl, found hpiece' ⟨hstarted, htr, hopened⟩⟩
  · intro hq hst hawait hw hspots hdst hc hrow hwhole hlost hthere hasked hserved hview hsound hwords hbits
    obtain ⟨⟨q, hpiece', hended⟩, hmem⟩ := pieceEnd_sound_leaves hj hp hq hw hst hawait hspots hdst hc hrow hwhole hlost
      hthere hasked hserved hview hsound hwords hbits
    exact ⟨_, rfl, found hpiece' hended, hmem⟩
  · intro hq hst hawait hw _ hc hrow hsent hthere
    obtain ⟨hmem, q, hpiece', hended⟩ := pieceEnd_lost_leaves hj hp hq hw hst hawait hc hrow hsent hthere
    exact ⟨_, rfl, hmem, found hpiece' hended⟩
  · intro hdone hseat
    obtain ⟨hcont, hjobs, hreleases⟩ := tagComplete_leaves hj hdone hseat
    have hok := endsOk_iff (over_of_completes hdone)
    refine ⟨_, rfl, fun o ho => ?_, ?_⟩
    · have := (List.mem_filter.mp (hjobs ▸ ho)).2
      simpa using this
    · rw [hcont, hreleases]
      refine ⟨rfl, vset_same .., rfl, fun hpost => ?_, fun hquiet => ?_⟩
      · exact ⟨_, by rw [if_pos (hpost.imp_right (And.imp_right hok.mpr))], rfl⟩
      · rw [if_neg, List.append_nil]
        rcases hquiet with hzero | ⟨htwo, hnot⟩
        · simp [hzero]
        · rintro (hone | ⟨-, hends⟩)
          · exact absurd (htwo.symm.trans hone) (by decide)
          · exact hnot (hok.mp hends)

end Sys2Proof.Machine
end

section
/-! SUPPORT. Rounding (R34 to R37): when an integer quotient is rounded up, and that a value which a format represents is
its own rounding. -/

namespace Sys2Proof.Machine

/-! ### An integer quotient, by mode (R35) -/

/-- To the nearer neighbour, a tie to the even one. -/
theorem roundNat_rne (neg : Bool) (m d : Nat) :
    (roundNat .rne neg m d).1 =
      if 2 ^ d < 2 * (m % 2 ^ d) ∨ 2 * (m % 2 ^ d) = 2 ^ d ∧ m / 2 ^ d % 2 = 1 then m / 2 ^ d + 1 else m / 2 ^ d := by
  simp [roundNat]

/-- Toward zero. -/
theorem roundNat_rtz (neg : Bool) (m d : Nat) : (roundNat .rtz neg m d).1 = m / 2 ^ d := rfl

/-- Upwards: away from zero for what is not negative. -/
theorem roundNat_rup (neg : Bool) (m d : Nat) :
    (roundNat .rup neg m d).1 = if m % 2 ^ d ≠ 0 ∧ neg = false then m / 2 ^ d + 1 else m / 2 ^ d := by
  simp [roundNat]

/-- Downwards: away from zero for what is negative. -/
theorem roundNat_rdn (neg : Bool) (m d : Nat) :
    (roundNat .rdn neg m d).1 = if m % 2 ^ d ≠ 0 ∧ neg = true then m / 2 ^ d + 1 else m / 2 ^ d := by
  simp [roundNat]

/-- It is inexact when a remainder is left. -/
theorem roundNat_inexact (rm : Rm) (neg : Bool) (m d : Nat) : (roundNat rm neg m d).2 = decide (m % 2 ^ d ≠ 0) := by
  simp [roundNat, bne, beq_eq_decide]

/-- The result is the neighbour below, or with a remainder left the one above. -/
theorem roundNat_neighbour (rm : Rm) (neg : Bool) (m d : Nat) :
    (roundNat rm neg m d).1 = m / 2 ^ d ∨ m % 2 ^ d ≠ 0 ∧ (roundNat rm neg m d).1 = m / 2 ^ d + 1 := by
  have hpos := Nat.two_pow_pos d
  cases rm with
  | rtz => exact .inl rfl
  | rne => rw [roundNat_rne]; split <;> omega
  | rup => rw [roundNat_rup]; split <;> omega
  | rdn => rw [roundNat_rdn]; split <;> omega

/-- The result lies less than one unit from the quotient, and at an integer quotient on it. -/
theorem roundNat_bounds (rm : Rm) (neg : Bool) (m d : Nat) :
    (roundNat rm neg m d).1 * 2 ^ d < m + 2 ^ d ∧ m < (roundNat rm neg m d).1 * 2 ^ d + 2 ^ d ∧
      (m % 2 ^ d = 0 → (roundNat rm neg m d).1 * 2 ^ d = m) := by
  have hmod := Nat.mod_lt m (Nat.two_pow_pos d)
  have hdiv := Nat.div_add_mod' m (2 ^ d)
  rcases roundNat_neighbour rm neg m d with h | ⟨hr, h⟩
  · rw [h]; omega
  · rw [h, Nat.add_mul, Nat.one_mul]; omega

/-- In rne no integer is nearer, and of two at the same distance the result is the even one. -/
theorem roundNat_rne_nearest (neg : Bool) (m d : Nat) :
    let n := (roundNat .rne neg m d).1
    2 * (n * 2 ^ d) ≤ 2 * m + 2 ^ d ∧ 2 * m ≤ 2 * (n * 2 ^ d) + 2 ^ d ∧
      ((2 * (n * 2 ^ d) = 2 * m + 2 ^ d ∨ 2 * m = 2 * (n * 2 ^ d) + 2 ^ d) → n % 2 = 0) := by
  have hmod := Nat.mod_lt m (Nat.two_pow_pos d)
  have hdiv := Nat.div_add_mod' m (2 ^ d)
  intro n
  have hn : n = _ := roundNat_rne neg m d
  split at hn
  · rw [hn, Nat.add_mul, Nat.one_mul]; omega
  · rw [hn]; omega

/-- In rup the result lies above: nearer to zero for what is negative. -/
theorem roundNat_rup_above (neg : Bool) (m d : Nat) :
    if neg then (roundNat .rup neg m d).1 * 2 ^ d ≤ m else m ≤ (roundNat .rup neg m d).1 * 2 ^ d := by
  have hmod := Nat.mod_lt m (Nat.two_pow_pos d)
  have hdiv := Nat.div_add_mod' m (2 ^ d)
  rw [roundNat_rup]
  cases neg with
  | true => simpa using Nat.div_mul_le_self m (2 ^ d)
  | false =>
    by_cases hr : m % 2 ^ d = 0
    · simp [hr]; omega
    · simp [hr, Nat.add_mul]; omega

/-- In rdn the result lies below: farther from zero for what is negative. -/
theorem roundNat_rdn_below (neg : Bool) (m d : Nat) :
    if neg then m ≤ (roundNat .rdn neg m d).1 * 2 ^ d else (roundNat .rdn neg m d).1 * 2 ^ d ≤ m := by
  have := roundNat_rup_above (!neg) m d
  rw [roundNat_rup] at this
  rw [roundNat_rdn]
  cases neg <;> simpa using this

/-! ### A value that a format represents -/

/-- `m · 2^e` is how the format reads one of its finite numbers (R34): the significand fits, and a subnormal one stands at
the least exponent. -/
structure FFmt.Represents (f : FFmt) (m : Nat) (e : Int) : Prop where
  fits : m < 2 ^ (f.fbits + 1)
  least : f.emin - f.fbits ≤ e
  normal : e = f.emin - f.fbits ∨ 2 ^ f.fbits ≤ m
  finite : (e - (f.emin - f.fbits)).toNat * 2 ^ f.fbits + m < f.inf

/-- The last place of a represented number, at which it is rounded, is its own. -/
theorem FFmt.Represents.lastPlace {f : FFmt} {m : Nat} {e : Int} (h : f.Represents m e) (hm : m ≠ 0) :
    max (msbExp m e - f.fbits) (f.emin - f.fbits) = e := by
  have hlog : Nat.log2 m < f.fbits + 1 := (Nat.log2_lt hm).mpr h.fits
  have hleast := h.least
  unfold msbExp
  rcases h.normal with he | hnormal
  · omega
  · have : f.fbits ≤ Nat.log2 m := (Nat.le_log2 hm).mpr hnormal
    omega

/-- At its own last place a number is exact. -/
theorem roundAt_self (rm : Rm) (neg : Bool) (m : Nat) (e : Int) : roundAt rm neg m e e = (m, false) := by
  simp [roundAt]

/-- A represented number is its own rounding in every mode, and raises no flag. -/
theorem FFmt.Represents.round {f : FFmt} {m : Nat} {e : Int} (h : f.Represents m e) (rm : Rm) (neg : Bool) :
    f.round rm neg m e = (f.enc neg ((e - (f.emin - f.fbits)).toNat * 2 ^ f.fbits + m), 0) := by
  by_cases hm : m = 0
  · have he : e = f.emin - f.fbits := h.normal.resolve_right (by have := Nat.two_pow_pos f.fbits; omega)
    simp [FFmt.round, hm, he]
  · simp [FFmt.round, hm, h.lastPlace hm, roundAt_self, Nat.not_le.mpr h.finite]

/-- A number that binary32 represents, its bounds as numerals. -/
theorem f32_represents {m : Nat} {e : Int} (fits : m < 2 ^ 24) (least : -149 ≤ e) (normal : e = -149 ∨ 2 ^ 23 ≤ m)
    (finite : e ≤ 104) : FFmt.f32.Represents m e where
  fits := fits
  least := least
  normal := normal
  finite := by
    show (e - -149).toNat * 2 ^ 23 + m < 255 * 2 ^ 23
    omega

/-- A binary32 encoding is its sign, its exponent field and its fraction. -/
theorem f32_enc_of_fields (x : W32) :
    FFmt.f32.enc (x.toNat / 2 ^ 31 % 2 == 1) (x.toNat / 2 ^ 23 % 2 ^ 8 * 2 ^ 23 + x.toNat % 2 ^ 23) = x := by
  apply BitVec.eq_of_toNat_eq
  have hx := x.isLt
  simp [FFmt.enc, FFmt.signW, FFmt.f32]
  split <;> omega

/-- Reading a binary32 encoding, its fields written out (R34). -/
theorem f32_dec_eq (x : W32) : FFmt.f32.dec x =
    let neg := x.toNat / 2 ^ 31 % 2 == 1
    let ex : Nat := x.toNat / 2 ^ 23 % 2 ^ 8
    let fr : Nat := x.toNat % 2 ^ 23
    if ex = 255 then if fr = 0 then .inf neg else .nan (fr < 2 ^ 22)
    else if ex = 0 then .fin neg fr (-149) else .fin neg (fr + 2 ^ 23) ((ex : Int) - 127 - 23) := rfl

/-- Reading a finite binary32 encoding gives a number that the format represents, of which it is the encoding. -/
theorem f32_dec_fin {x : W32} {neg : Bool} {m : Nat} {e : Int} (h : FFmt.f32.dec x = .fin neg m e) :
    FFmt.f32.Represents m e ∧ FFmt.f32.enc neg ((e - -149).toNat * 2 ^ 23 + m) = x := by
  have hfields := f32_enc_of_fields x
  have hfr : x.toNat % 2 ^ 23 < 2 ^ 23 := Nat.mod_lt _ (by decide)
  have hex : x.toNat / 2 ^ 23 % 2 ^ 8 < 2 ^ 8 := Nat.mod_lt _ (by decide)
  rw [f32_dec_eq] at h
  dsimp only at h
  generalize x.toNat % 2 ^ 23 = fr at h hfields hfr
  generalize x.toNat / 2 ^ 23 % 2 ^ 8 = ex at h hfields hex
  split at h
  · split at h <;> cases h
  · next hfinite =>
    split at h
    · next hsub =>
      cases h
      subst hsub
      exact ⟨f32_represents (by omega) (by omega) (.inl rfl) (by omega), hfields⟩
    · next hnormal =>
      cases h
      have hmag : (ex - 127 - 23 - -149 : Int).toNat * 2 ^ 23 + (fr + 2 ^ 23) = ex * 2 ^ 23 + fr := by omega
      exact ⟨f32_represents (by omega) (by omega) (.inr (by omega)) (by omega), by rw [hmag, hfields]⟩

/-- Settles O55: a quotient by the rule of each mode, a number of binary32 by its last place, at which it is exact. -/
theorem rounding : Obligations.Rounding := by
  unfold Obligations.Rounding
  refine ⟨fun rm neg m d => ?_, fun rm x neg m e hx => ?_⟩
  · obtain ⟨hbelow, habove, hexact⟩ := roundNat_bounds rm neg m d
    refine ⟨roundNat_inexact rm neg m d, hbelow, habove, hexact, ?_, ?_, ?_, ?_⟩
    · rintro rfl; exact roundNat_rne_nearest neg m d
    · rintro rfl; exact Nat.div_mul_le_self m (2 ^ d)
    · rintro rfl; exact roundNat_rup_above neg m d
    · rintro rfl; exact roundNat_rdn_below neg m d
  · obtain ⟨hrep, henc⟩ := f32_dec_fin hx
    exact (hrep.round rm neg).trans (congrArg (·, 0) henc)

end Sys2Proof.Machine
end

section
/-! SUPPORT. Reductions (R45, R133): the pairwise tree over at most one member, the lanes that take part, and the effect of
each reduction in terms of them. -/

namespace Sys2Proof.Machine

/-! ### The pairwise tree -/

/-- A level halves the places of the tree. -/
theorem length_treeLevel {α : Type} (f : α → α → α) (xs : List (Option α)) :
    (treeLevel f xs).length = (xs.length + 1) / 2 := by
  induction xs using treeLevel.induct with
  | case1 a b xs ih => simp only [treeLevel, List.length_cons, ih]; omega
  | case2 a => simp [treeLevel]
  | case3 => simp [treeLevel]

/-- A level passes a lone member through, absent partners beside it. -/
theorem reduceOption_treeLevel {α : Type} (f : α → α → α) {xs : List (Option α)} (h : xs.reduceOption.length ≤ 1) :
    (treeLevel f xs).reduceOption = xs.reduceOption := by
  induction xs using treeLevel.induct with
  | case1 a b xs ih =>
    match a, b with
    | none, none => exact ih h
    | none, some y => exact congrArg (y :: ·) (ih (Nat.le_of_succ_le h))
    | some x, none => exact congrArg (x :: ·) (ih (Nat.le_of_succ_le h))
    | some x, some y => simp at h
  | case2 a => rfl
  | case3 => rfl

/-- A tree with room for its places and at most one member gives that member, or none. -/
theorem treeFold_of_length_le_one {α : Type} (f : α → α → α) {n : Nat} {xs : List (Option α)} (hplaces : xs.length ≤ 2 ^ n)
    (h : xs.reduceOption.length ≤ 1) : treeFold f n xs = xs.reduceOption.head? := by
  induction n generalizing xs with
  | zero =>
    match xs, hplaces with
    | [], _ => rfl
    | [none], _ => rfl
    | [some a], _ => rfl
  | succ n ih =>
    have hlevel := reduceOption_treeLevel f h
    rw [treeFold, ih (by rw [length_treeLevel]; omega) (hlevel ▸ h), hlevel]

/-! ### The lanes that take part -/

/-- The lanes of a reduction, in order (R133). -/
def partLanes (k : Cont) (pm : Option (Fin 48)) : List Nat := (List.range 64).filter (takesPart k pm)

/-- The members present are those of the indices that have one. -/
theorem reduceOption_map_ite {α : Type} (p : Nat → Bool) (g : Nat → α) (xs : List Nat) :
    (xs.map fun i => if p i then some (g i) else none).reduceOption = (xs.filter p).map g := by
  induction xs with
  | nil => rfl
  | cons x xs ih => cases hx : p x <;> simp [hx, ih]

/-- What is made of each lane stands where the lane stood. -/
theorem map_redLanes {β : Type} (k : Cont) (pm : Option (Fin 48)) (v : VReg) (g : W32 → β) :
    (redLanes k pm v).map (Option.map g) =
      (List.range 64).map fun i => if takesPart k pm i then some (g (lane v i)) else none := by
  simp [redLanes, apply_ite]

/-- What is made of the lanes present, in order. -/
theorem filterMap_redLanes {β : Type} (k : Cont) (pm : Option (Fin 48)) (v : VReg) (g : W32 → β) :
    (redLanes k pm v).filterMap (Option.map g) = (partLanes k pm).map fun i => g (lane v i) := by
  rw [partLanes, ← reduceOption_map_ite, ← map_redLanes, List.reduceOption, List.filterMap_map]
  rfl

/-- The tree of a floating reduction, each member with the flags raised so far (R45). -/
def laneTree (k : Cont) (pm : Option (Fin 48)) (v : VReg) (f : W32 → W32 → W32 × FFlags) : Option (W32 × FFlags) :=
  treeFold (fun x y => ((f x.1 y.1).1, (f x.1 y.1).2 ||| x.2 ||| y.2)) 6
    ((List.range 64).map fun i => if takesPart k pm i then some (lane v i, 0) else none)

/-- With at most one lane present the tree combines nothing. -/
theorem laneTree_of_length_le_one {k : Cont} {pm : Option (Fin 48)} (v : VReg) (f : W32 → W32 → W32 × FFlags)
    (h : (partLanes k pm).length ≤ 1) : laneTree k pm v f = ((partLanes k pm).map fun i => (lane v i, 0)).head? := by
  have hpresent := reduceOption_map_ite (takesPart k pm) (fun i => (lane v i, (0 : FFlags))) (List.range 64)
  rw [laneTree, treeFold_of_length_le_one _ (by simp), hpresent]
  · rfl
  · rw [hpresent, List.length_map]; exact h

/-! ### The effects -/

/-- An integer reduction gives its function of the lanes present. -/
theorem intRed_eq (cl : Cluster) (d a : Spec) (pm : Option (Fin 48)) (f : List Int → W32) (e : Env) :
    intRed cl d a pm f e =
      .ok (redResult cl d e.e (f ((partLanes e.k pm).map fun i => (lane (e.k.vector cl false a) i).toInt)) 0) := by
  rw [intRed, filterMap_redLanes]

section
variable {cl : Cluster} {d a : Spec} {pm : Option (Fin 48)} {empty : W32} {f : W32 → W32 → W32 × FFlags} {e : Env}

/-- A floating reduction gives the tree's value, a NaN canonical, with the tree's flags and NV for a signalling NaN that
takes part. -/
theorem floatRed_of_some {v : W32} {fl : FFlags} (h : laneTree e.k pm (e.k.vector cl true a) f = some (v, fl)) :
    floatRed cl d a pm empty f e =
      .ok (redResult cl d e.e (if (FFmt.f32.dec v).isNan then nan32 else v)
        (fl ||| snanFlag ((partLanes e.k pm).map fun i => FFmt.f32.dec (lane (e.k.vector cl true a) i)))) := by
  rw [laneTree, ← map_redLanes _ _ _ fun x => (x, 0)] at h
  rw [floatRed, filterMap_redLanes]
  simp only [h]

/-- With no lane present a floating reduction gives its own value for none, and raises no flag. -/
theorem floatRed_of_nil (h : partLanes e.k pm = []) : floatRed cl d a pm empty f e = .ok (redResult cl d e.e empty 0) := by
  have htree := laneTree_of_length_le_one (e.k.vector cl true a) f (k := e.k) (pm := pm) (by simp [h])
  rw [laneTree, ← map_redLanes _ _ _ fun x => (x, 0), h] at htree
  rw [floatRed]
  simp only [htree, List.map_nil, List.head?_nil]

/-- A value that is no NaN raises no NV by itself. -/
theorem snanFlag_single {x : FVal} (h : ¬ x.isNan) : snanFlag [x] = 0 := by
  cases x <;> simp_all [snanFlag, FVal.snan, FVal.isNan]

/-- A floating reduction of one lane that is no NaN gives that lane, and raises no flag. -/
theorem floatRed_of_single {i : Nat} (h : partLanes e.k pm = [i])
    (hnan : ¬ (FFmt.f32.dec (lane (e.k.vector cl true a) i)).isNan) :
    floatRed cl d a pm empty f e = .ok (redResult cl d e.e (lane (e.k.vector cl true a) i) 0) := by
  have htree := laneTree_of_length_le_one (e.k.vector cl true a) f (k := e.k) (pm := pm) (by simp [h])
  rw [h] at htree
  rw [floatRed_of_some htree, h, List.map_singleton, snanFlag_single hnan, if_neg hnan]
  rfl

end

/-! ### The instructions -/

/-- A reduction's result carries no trap, at its own check or after it. -/
theorem redResult_no_trap (cl : Cluster) (d : Spec) (e : W64) (r : W32) (fl : FFlags) :
    (redResult cl d e r fl).late = none ∧ (redResult cl d e r fl).after = none := by
  unfold redResult vectorResult
  split
  · exact ⟨rfl, rfl⟩
  · cases d <;> exact ⟨rfl, rfl⟩

/-- The instruction stands under the guard in a slot of the cluster, issues with the effect, and has no last stage. -/
structure VectorInstr (i : Instr) (cl : Cluster) (g : Guard) (f : Eff) : Prop where
  slot : instrSlot i = some (clSlot cl, g)
  issues : ∀ s, exec i s = issueOne s i
  eff : slotEff i = f
  stage : slotStage i = none

/-- The set E that a vector instruction sees is that of its guard (R118). -/
theorem VectorInstr.enable {i : Instr} {cl : Cluster} {g : Guard} {f : Eff} (h : VectorInstr i cl g f) (s : State) :
    (s.env i).e = s.now.enable g := by
  have hvector : vectorSlot (clSlot cl) = true := by cases cl <;> rfl
  simp [State.env, envOf, h.slot, slotOf, State.now, hvector]

/-- A vector instruction whose effect is a reduction's result commits with it. -/
theorem VectorInstr.commits {i : Instr} {cl : Cluster} {g : Guard} {f : Eff} {s : State} {d : Spec} {r : W32} {fl : FFlags}
    (h : VectorInstr i cl g f) (hgoes : Goes s i) (he : f (s.env i) = .ok (redResult cl d (s.env i).e r fl)) :
    exec i s = .next (s.done i (redResult cl d (s.now.enable g) r fl)) := by
  rw [h.issues, ← h.enable s]
  obtain ⟨hlate, hafter⟩ := redResult_no_trap cl d (s.env i).e r fl
  exact issueOne_commits hgoes (h.eff ▸ he) hlate hafter h.stage

section
variable {s : State} {i : Instr} {g : Guard} {cl : Cluster} {d a : Spec} {pm : Option (Fin 48)}

/-- An integer reduction commits with its function of the lanes present. -/
theorem VectorInstr.commits_intRed {f : List Int → W32} (h : VectorInstr i cl g (intRed cl d a pm f)) (hgoes : Goes s i) :
    exec i s = .next (s.done i (redResult cl d (s.now.enable g)
      (f ((partLanes s.now pm).map fun n => (lane (s.now.vector cl false a) n).toInt)) 0)) :=
  h.commits hgoes (intRed_eq ..)

variable {empty : W32} {f : W32 → W32 → W32 × FFlags}

/-- A floating reduction commits with the value of its tree, with its value for none when no lane is present, and with the
lane when only one is present, and is no NaN. -/
theorem VectorInstr.commits_floatRed (h : VectorInstr i cl g (floatRed cl d a pm empty f)) (hgoes : Goes s i) :
    (∀ v fl, laneTree s.now pm (s.now.vector cl true a) f = some (v, fl) →
      exec i s = .next (s.done i (redResult cl d (s.now.enable g) (if (FFmt.f32.dec v).isNan then nan32 else v)
        (fl ||| snanFlag ((partLanes s.now pm).map fun n => FFmt.f32.dec (lane (s.now.vector cl true a) n)))))) ∧
    (partLanes s.now pm = [] → exec i s = .next (s.done i (redResult cl d (s.now.enable g) empty 0))) ∧
    ∀ n, partLanes s.now pm = [n] → ¬ (FFmt.f32.dec (lane (s.now.vector cl true a) n)).isNan →
      exec i s = .next (s.done i (redResult cl d (s.now.enable g) (lane (s.now.vector cl true a) n) 0)) :=
  ⟨fun _ _ htree => h.commits hgoes (floatRed_of_some (e := s.env i) htree),
    fun hnone => h.commits hgoes (floatRed_of_nil (e := s.env i) hnone),
    fun _ hone hnan => h.commits hgoes (floatRed_of_single (e := s.env i) hone hnan)⟩

end

/-- The sum saturates at the bounds of a lane (R40). -/
theorem sat32_eq (x : Int) :
    sat32 x = BitVec.ofInt 32 (if x < -(2 ^ 31) then -(2 ^ 31) else if 2 ^ 31 - 1 < x then 2 ^ 31 - 1 else x) := by
  norm_num [sat32, clampInt]

/-- `vradd` is an integer reduction by the sum. -/
theorem vectorInstr_vradd (g : Guard) (cl : Cluster) (d a : Spec) (pm : Option (Fin 48)) (sat : Bool) :
    VectorInstr (.vradd g cl d a pm sat) cl g (intRed cl d a pm fun xs =>
      if sat then BitVec.ofInt 32
        (if xs.sum < -(2 ^ 31) then -(2 ^ 31) else if 2 ^ 31 - 1 < xs.sum then 2 ^ 31 - 1 else xs.sum)
      else BitVec.ofInt 32 xs.sum) :=
  ⟨rfl, fun _ => rfl, by simp only [List.sum_eq_foldl, ← sat32_eq]; rfl, rfl⟩

/-- `vrmax` is an integer reduction by the maximum. -/
theorem vectorInstr_vrmax (g : Guard) (cl : Cluster) (d a : Spec) (pm : Option (Fin 48)) :
    VectorInstr (.vrmax g cl d a pm) cl g (intRed cl d a pm fun xs => BitVec.ofInt 32 (xs.foldl max (-(2 ^ 31)))) :=
  ⟨rfl, fun _ => rfl, rfl, rfl⟩

/-- `vrmin` is an integer reduction by the minimum. -/
theorem vectorInstr_vrmin (g : Guard) (cl : Cluster) (d a : Spec) (pm : Option (Fin 48)) :
    VectorInstr (.vrmin g cl d a pm) cl g (intRed cl d a pm fun xs => BitVec.ofInt 32 (xs.foldl min (2 ^ 31 - 1))) :=
  ⟨rfl, fun _ => rfl, rfl, rfl⟩

/-- `frsum` is a floating reduction by addition, from positive zero. -/
theorem vectorInstr_frsum (g : Guard) (cl : Cluster) (d a : Spec) (pm : Option (Fin 48)) (rm : Rm) :
    VectorInstr (.frsum g cl d a pm rm) cl g
      (floatRed cl d a pm 0 fun x y => addV rnd32 rm (FFmt.f32.dec x) (FFmt.f32.dec y)) :=
  ⟨rfl, fun _ => rfl, rfl, rfl⟩

/-- `frmax` is a floating reduction by the greater, from minus infinity. -/
theorem vectorInstr_frmax (g : Guard) (cl : Cluster) (d a : Spec) (pm : Option (Fin 48)) :
    VectorInstr (.frmax g cl d a pm) cl g (floatRed cl d a pm 0xFF800000 (minmax32 true)) :=
  ⟨rfl, fun _ => rfl, rfl, rfl⟩

/-- `frmin` is a floating reduction by the smaller, from plus infinity. -/
theorem vectorInstr_frmin (g : Guard) (cl : Cluster) (d a : Spec) (pm : Option (Fin 48)) :
    VectorInstr (.frmin g cl d a pm) cl g (floatRed cl d a pm 0x7F800000 (minmax32 false)) :=
  ⟨rfl, fun _ => rfl, rfl, rfl⟩

/-- Settles O12: each reduction by the form of its effect, the floating ones by the number of lanes present. -/
theorem vectorReductions : Obligations.VectorReductions := by
  unfold Obligations.VectorReductions
  intro s g cl d a pm sat rm e part lanes ints sum res gives raw dec tree
  refine ⟨?_, ?_, ?_, ?_⟩
  · exact fun h => (vectorInstr_vradd g cl d a pm sat).commits_intRed h
  · exact fun h => (vectorInstr_vrmax g cl d a pm).commits_intRed h
  · exact fun h => (vectorInstr_vrmin g cl d a pm).commits_intRed h
  · simp only [List.forall_mem_cons]
    refine ⟨fun h => ?_, fun h => ?_, fun h => ?_, ?_⟩
    · exact (vectorInstr_frsum g cl d a pm rm).commits_floatRed h
    · exact (vectorInstr_frmax g cl d a pm).commits_floatRed h
    · exact (vectorInstr_frmin g cl d a pm).commits_floatRed h
    · exact fun _ h => absurd h List.not_mem_nil

end Sys2Proof.Machine
end

section
/-! SUPPORT. How an instruction without a last stage commits, and what a scalar or predicate result is (R58, R61, R99). -/

namespace Sys2Proof.Machine

/-- An instruction that goes, whose effect carries no trap and which has no last stage, commits with that effect. -/
theorem Goes.exec_of_eff {s : State} {i : Instr} {o : Out} (h : Goes s i) (hissue : exec i s = issueOne s i)
    (hstage : slotStage i = none) (heff : slotEff i (s.env i) = .ok o) (hlate : o.late = none := by rfl)
    (hafter : o.after = none := by rfl) : exec i s = .next (s.done i o) :=
  hissue.trans (issueOne_commits h heff hlate hafter hstage)

/-- A scalar result carries no trap, at its own check or after it. -/
theorem scalarResult_no_trap (d : Spec) (v : W64) (lat : Nat) :
    (scalarResult d v lat).late = none ∧ (scalarResult d v lat).after = none := by
  cases d <;> exact ⟨rfl, rfl⟩

/-- An instruction that goes, whose effect is one scalar result, commits with it, its value in any equal form. -/
theorem Goes.exec_scalar {s : State} {i : Instr} {d : Spec} {v w : W64} {lat : Nat} (h : Goes s i)
    (hissue : exec i s = issueOne s i) (hstage : slotStage i = none)
    (heff : slotEff i (s.env i) = .ok (scalarResult d v lat)) (hvalue : v = w) :
    exec i s = .next (s.done i (scalarResult d w lat)) := by
  obtain ⟨hlate, hafter⟩ := scalarResult_no_trap d v lat
  exact hvalue ▸ h.exec_of_eff hissue hstage heff hlate hafter

end Sys2Proof.Machine
end

section
/-! SUPPORT. Bit ranges read as numbers and in two's complement, and replaced. -/

namespace Sys2Proof

/-- A bit range as a number. -/
theorem toNat_bits {n : Nat} (w : BitVec n) (lo len : Nat) : (bits w lo len).toNat = w.toNat / 2 ^ lo % 2 ^ len := by
  rw [bits, BitVec.extractLsb'_toNat, Nat.shiftRight_eq_div_pow]

/-- A bit of a bit range. -/
theorem getLsbD_bits {n : Nat} (w : BitVec n) (lo len i : Nat) :
    (bits w lo len).getLsbD i = (decide (i < len) && w.getLsbD (lo + i)) := BitVec.getLsbD_extractLsb' ..

/-- The low bits of a word. -/
theorem bits_zero {n : Nat} (w : BitVec n) (len : Nat) : bits w 0 len = w.setWidth len :=
  BitVec.eq_of_toNat_eq (by simp [toNat_bits])

/-- The low bits of a word shifted right. -/
theorem bits_ushiftRight {n : Nat} (w : BitVec n) (lo len : Nat) : bits (w >>> lo) 0 len = bits w lo len :=
  BitVec.eq_of_toNat_eq (by simp [toNat_bits, Nat.shiftRight_eq_div_pow])

/-- A bit range extended with zeros, as a number. -/
theorem setWidth_bits {n : Nat} (m : Nat) (w : BitVec n) (lo len : Nat) :
    (bits w lo len).setWidth m = BitVec.ofNat m (w.toNat / 2 ^ lo % 2 ^ len) :=
  BitVec.eq_of_toNat_eq (by simp [toNat_bits])

/-- A word in two's complement, by its sign bit. -/
theorem signExtend_eq {n : Nat} (m : Nat) (w : BitVec n) :
    w.signExtend m = if w.msb then BitVec.ofInt m (w.toNat - 2 ^ n : Int) else BitVec.ofNat m w.toNat := by
  rw [BitVec.signExtend, BitVec.toInt_eq_msb_cond]
  split
  · norm_cast
  · exact BitVec.ofInt_natCast ..

/-- The sign bit of a bit range is the bit at its top. -/
theorem msb_bits {n : Nat} (w : BitVec n) (lo len : Nat) : (bits w lo (len + 1)).msb = w.getLsbD (lo + len) := by
  rw [BitVec.msb_eq_getLsbD_last, getLsbD_bits]
  simp

/-- A range replaced holds what was put there, and every other bit is as before. -/
theorem getLsbD_setBits {n len : Nat} (w : BitVec n) (lo : Nat) (x : BitVec len) {i : Nat} (hi : i < n) :
    (setBits w lo x).getLsbD i = if lo ≤ i ∧ i < lo + len then x.getLsbD (i - lo) else w.getLsbD i := by
  have hshift : i - lo < n := by omega
  simp only [setBits, BitVec.getLsbD_or, BitVec.getLsbD_and, BitVec.getLsbD_not, BitVec.getLsbD_shiftLeft,
    BitVec.getLsbD_setWidth, BitVec.getLsbD_allOnes, hi, hshift, decide_true, Bool.true_and]
  by_cases hlo : i < lo
  · simp [hlo]
  · by_cases hlen : i - lo < len
    · have hin : lo ≤ i ∧ i < lo + len := by omega
      simp [hlo, hlen, hin]
    · have hout : ¬ (lo ≤ i ∧ i < lo + len) := by omega
      simp [hlo, hlen, hout, BitVec.getLsbD_of_ge x (i - lo) (by omega)]

/-- A range replaced reads as what was put there. -/
theorem bits_setBits_same {n len : Nat} (w : BitVec n) (lo : Nat) (x : BitVec len) (h : lo + len ≤ n) :
    bits (setBits w lo x) lo len = x := by
  apply BitVec.eq_of_getLsbD_eq
  intro i hi
  rw [getLsbD_bits, getLsbD_setBits w lo x (by omega)]
  simp [hi]

/-- A range apart from the one replaced reads as before. -/
theorem bits_setBits_apart {n len : Nat} (w : BitVec n) (lo lo' len' : Nat) (x : BitVec len) (hfit : lo' + len' ≤ n)
    (h : lo + len ≤ lo' ∨ lo' + len' ≤ lo) : bits (setBits w lo x) lo' len' = bits w lo' len' := by
  apply BitVec.eq_of_getLsbD_eq
  intro i hi
  rw [getLsbD_bits, getLsbD_bits, getLsbD_setBits w lo x (by omega), if_neg (by omega)]

end Sys2Proof
end

section
/-! SUPPORT. The values of the S slot (R92 to R101) as the rules write them, and the instructions that compute them. -/

namespace Sys2Proof.Machine

/-! ### Two operands (R92) -/

/-- A shift amount is the operand modulo 64. -/
theorem sh6_eq (y : W64) : sh6 y = y.toNat % 64 := by simp [sh6, toNat_bits]

/-- The signed minimum. -/
theorem min_eq_of_slt (x y : W64) : (if x.slt y then x else y) = if x.toInt < y.toInt then x else y := by
  simp only [BitVec.slt, decide_eq_true_eq]

/-- The signed maximum: the first operand when they are equal. -/
theorem max_eq_of_slt (x y : W64) : (if x.slt y then y else x) = if y.toInt ≤ x.toInt then x else y := by
  simp only [BitVec.slt, decide_eq_true_eq, ← not_lt, ite_not]

/-- The unsigned minimum. -/
theorem min_eq_of_ult (x y : W64) : (if x.ult y then x else y) = if x.toNat < y.toNat then x else y := by
  simp only [BitVec.ult, decide_eq_true_eq]

/-- The unsigned maximum: the first operand when they are equal. -/
theorem max_eq_of_ult (x y : W64) : (if x.ult y then y else x) = if y.toNat ≤ x.toNat then x else y := by
  simp only [BitVec.ult, decide_eq_true_eq, ← not_lt, ite_not]

/-- Settles O1: every row is one scalar result; the shift amounts and the comparisons are put as the statement has them. -/
theorem scalarTwoOperand : Obligations.ScalarTwoOperand := by
  unfold Obligations.ScalarTwoOperand
  intro s g d a b x y
  simp only [List.forall_mem_cons]
  exact ⟨
    fun h => h.exec_scalar rfl rfl rfl rfl,
    fun h => h.exec_scalar rfl rfl rfl rfl,
    fun h => h.exec_scalar rfl rfl rfl rfl,
    fun h => h.exec_scalar rfl rfl rfl rfl,
    fun h => h.exec_scalar rfl rfl rfl rfl,
    fun h => h.exec_scalar rfl rfl rfl (congrArg (x <<< ·) (sh6_eq y)),
    fun h => h.exec_scalar rfl rfl rfl (congrArg (x >>> ·) (sh6_eq y)),
    fun h => h.exec_scalar rfl rfl rfl (congrArg x.sshiftRight (sh6_eq y)),
    fun h => h.exec_scalar rfl rfl rfl rfl,
    fun h => h.exec_scalar rfl rfl rfl rfl,
    fun h => h.exec_scalar rfl rfl rfl rfl,
    fun h => h.exec_scalar rfl rfl rfl (min_eq_of_slt x y),
    fun h => h.exec_scalar rfl rfl rfl (max_eq_of_slt x y),
    fun h => h.exec_scalar rfl rfl rfl (min_eq_of_ult x y),
    fun h => h.exec_scalar rfl rfl rfl (max_eq_of_ult x y),
    fun _ h => absurd h List.not_mem_nil⟩

/-! ### Addresses, constants, counts and fields (R94 to R98, R101) -/

/-- Two words side by side, as a number. -/
theorem toNat_append_eq_add {m n : Nat} (a : BitVec m) (b : BitVec n) : (a ++ b).toNat = a.toNat * 2 ^ n + b.toNat := by
  rw [BitVec.toNat_append, ← Nat.shiftLeft_add_eq_or_of_lt b.isLt, Nat.shiftLeft_eq]

/-- The window index and the offset add apart. -/
theorem leaValue_eq (a : W64) (wd : Byte) (od : Half) : leaValue a wd od =
    BitVec.ofNat 64 ((a.toNat / 65536 + wd.toNat) % 256 * 65536 + (a.toNat + od.toNat) % 65536) := by
  apply BitVec.eq_of_toNat_eq
  have hwindow : (bits a 16 8 + wd).toNat = (a.toNat / 65536 + wd.toNat) % 256 := by simp [toNat_bits]
  have hoffset : (bits a 0 16 + od).toNat = (a.toNat + od.toNat) % 65536 := by simp [toNat_bits]
  rw [leaValue, BitVec.toNat_setWidth, toNat_append_eq_add, hwindow, hoffset, BitVec.toNat_ofNat]
  rfl

/-- A new high half over the low half of a scalar. -/
theorem append_low_half (imm : W32) (x : W64) :
    imm ++ bits x 0 32 = BitVec.ofNat 64 (imm.toNat * 2 ^ 32 + x.toNat % 2 ^ 32) := by
  apply BitVec.eq_of_toNat_eq
  have hlow : (bits x 0 32).toNat = x.toNat % 2 ^ 32 := by simp [toNat_bits]
  have hfits : imm.toNat * 2 ^ 32 + x.toNat % 2 ^ 32 < 2 ^ 64 := by have := imm.isLt; omega
  rw [toNat_append_eq_add, hlow, BitVec.toNat_ofNat, Nat.mod_eq_of_lt hfits]

/-- The number of leading zeros, by the bounds of the operand. -/
theorem clz64_eq {x : W64} {n : Nat} (hn : n ≤ 64) (hbelow : x.toNat < 2 ^ (64 - n))
    (htop : n = 64 ∨ 2 ^ (63 - n) ≤ x.toNat) : clz64 x = n := by
  rcases htop with rfl | htop
  · have hzero : x = 0 := BitVec.eq_of_toNat_eq (by simpa using hbelow)
    simp [clz64, hzero]
  · have hne : x.toNat ≠ 0 := by have := Nat.two_pow_pos (63 - n); omega
    have hlt : Nat.log2 x.toNat < 64 - n := (Nat.log2_lt hne).mpr hbelow
    have hge : 63 - n ≤ Nat.log2 x.toNat := (Nat.le_log2 hne).mpr htop
    rw [clz64, if_neg fun h => hne (by simp [h])]
    omega

/-- A field in two's complement. -/
theorem bfxValue_signed (x : W64) (pos len : Nat) : bfxValue x pos (len + 1) true =
    if x.getLsbD (pos + len) then BitVec.ofInt 64 ((x.toNat / 2 ^ pos % 2 ^ (len + 1) : Nat) - 2 ^ (len + 1) : Int)
    else BitVec.ofNat 64 (x.toNat / 2 ^ pos % 2 ^ (len + 1)) := by
  rw [← msb_bits, ← toNat_bits]
  exact signExtend_eq 64 _

/-- `vext` gives a lane of a last-result register, extended. -/
theorem effVext_eq (d src : Spec) (l : BitVec 6) (sx : Bool) (e : Env) :
    let v : Nat := (if src = .la then e.k.va.last else e.k.vb.last).toNat / 2 ^ (32 * l.toNat) % 2 ^ 32
    effVext d src l sx e = .ok (scalarResult d
      (if sx then if 2 ^ 31 ≤ v then BitVec.ofInt 64 (v - 2 ^ 32) else BitVec.ofNat 64 v else BitVec.ofNat 64 v) 1) := by
  intro v
  have hlane : (lane (if src = .la then e.k.va.last else e.k.vb.last) l.toNat).toNat = v := toNat_bits ..
  have hzero : (lane (if src = .la then e.k.va.last else e.k.vb.last) l.toNat).setWidth 64 = BitVec.ofNat 64 v :=
    setWidth_bits ..
  simp only [effVext, beq_iff_eq, signExtend_eq, BitVec.msb_eq_decide, hlane, hzero, decide_eq_true_eq, Nat.add_one_sub_one]

/-- Settles O2: every instruction is one scalar result, its value as the rule writes it. -/
theorem scalarBits : Obligations.ScalarBits := by
  unfold Obligations.ScalarBits
  constructor
  · intro s g d a wd od i34 i32 x
    simp only [List.forall_mem_cons]
    exact ⟨
      fun h => h.exec_scalar rfl rfl rfl (leaValue_eq x wd od),
      fun h => h.exec_scalar rfl rfl rfl rfl,
      fun h => h.exec_scalar rfl rfl rfl (append_low_half i32 _),
      fun _ h => absurd h List.not_mem_nil⟩
  · intro s g d a b pos len1 ln p x f v
    refine ⟨fun n hn hbelow htop h => h.exec_scalar rfl rfl rfl (congrArg (BitVec.ofNat 64) (clz64_eq hn hbelow htop)), ?_⟩
    simp only [List.forall_mem_cons]
    exact ⟨
      fun h => h.exec_scalar rfl rfl rfl rfl,
      fun h => h.exec_scalar rfl rfl rfl (setWidth_bits 64 x pos.toNat (len1.toNat + 1)),
      fun h => h.exec_scalar rfl rfl rfl (bfxValue_signed x pos.toNat len1.toNat),
      fun h => h.exec_scalar rfl rfl rfl rfl,
      fun h => h.exec_scalar rfl rfl (effVext_eq d a ln false _) rfl,
      fun h => h.exec_scalar rfl rfl (effVext_eq d a ln true _) rfl,
      fun _ h => absurd h List.not_mem_nil⟩

/-- Settles O3: the field replaced, bit by bit. -/
theorem fieldInsert : Obligations.FieldInsert := by
  unfold Obligations.FieldInsert
  intro s g d a b pos len1 h
  refine ⟨_, h.exec_scalar rfl rfl rfl rfl, fun i hi => ?_⟩
  rw [getLsbD_setBits _ _ _ hi]
  refine if_ctx_congr (by omega) (fun hin => ?_) fun _ => rfl
  have hlen : i - pos.toNat < len1.toNat + 1 := by omega
  rw [getLsbD_bits, decide_eq_true hlen, Bool.true_and, Nat.zero_add]
  rfl

/-! ### Immediate forms (R93) -/

/-- An immediate from 0 to 63 is the shift amount. -/
theorem sh6_imm {imm : BitVec 26} (h : imm.toNat < 64) : sh6 (imm.signExtend 64) = imm.toNat := by
  have hsign : imm.msb = false := by rw [BitVec.msb_eq_decide]; simp; omega
  rw [sh6_eq, signExtend_eq, hsign]
  simp; omega

end Sys2Proof.Machine

namespace Sys2Proof

/-- The fields of a slot word in the RRI form: its destination, its source and its immediate. -/
theorem bits_word_encRRI (g : Guard) (op : Byte) (d a : Spec) (imm : BitVec 26) :
    bits (word g op (encRRI d a imm)) 34 8 = d.code ∧ bits (word g op (encRRI d a imm)) 26 8 = a.code ∧
      bits (word g op (encRRI d a imm)) 0 26 = imm := by
  refine ⟨?_, ?_, ?_⟩ <;> rw [bits_word_field _ _ _ _ _ (by omega)]
  · exact (bits_append_hi _ imm 34 8 (by omega)).trans ((bits_append_hi d.code a.code 8 8 (by omega)).trans (bits_whole _))
  · exact (bits_append_hi _ imm 26 8 (by omega)).trans ((bits_append_lo d.code a.code 0 8 (by omega)).trans (bits_whole _))
  · exact (bits_append_lo _ imm 0 26 (by omega)).trans (bits_whole _)

/-- Reading a shift whose immediate is above 63 refuses its operand bits. -/
theorem rriShift_of_large {w : SlotWord} {d a : Spec} (hd : spec w 34 Spec.dstS = .ok d) (ha : spec w 26 Spec.srcS = .ok a)
    (h : ¬ num w 0 26 ≤ 63) : rriShift w = bad8 w := by
  simp [rriShift, rri, hd, ha, need, h, bad8, bind, Except.bind, pure, Except.pure]

/-- A shift by an immediate is refused as its form is. -/
theorem decodeS_of_shift_refused {g : Guard} {w : SlotWord} {e : DecodeError}
    (hop : opcodeOf w = 0x14 ∨ opcodeOf w = 0x15 ∨ opcodeOf w = 0x16) (h : rriShift w = .error e) :
    decodeS g w = .error e := by
  rcases hop with hop | hop | hop <;> simp [decodeS, hop, h, bind, Except.bind]

/-- A slot word of a shift whose immediate is above 63 is refused with reason 8 (R93). -/
theorem decodeSlot_of_large_shift {g h : Guard} {op : Byte} {d a : Spec} {imm : BitVec 26}
    (hop : op = 0x14 ∨ op = 0x15 ∨ op = 0x16) (himm : 64 ≤ imm.toNat) (hd : d.dstS = true) (ha : a.srcS = true)
    (hguard : decodeGuard (word g op (encRRI d a imm)) = .ok h) :
    ∃ e, decodeSlot .s (word g op (encRRI d a imm)) = .error e ∧ e.reason = 8 := by
  obtain ⟨hdst, hsrc, hfield⟩ := bits_word_encRRI g op d a imm
  have hlarge : ¬ num (word g op (encRRI d a imm)) 0 26 ≤ 63 := by rw [num, hfield]; omega
  have hrefused := rriShift_of_large (spec_code hdst hd) (spec_code hsrc ha) hlarge
  have hassigned : assigned .s (opcodeOf (word g op (encRRI d a imm))) = true := by
    rw [opcodeOf_word]
    rcases hop with rfl | rfl | rfl <;> decide
  refine ⟨⟨8, opcodeOf (word g op (encRRI d a imm))⟩, ?_, rfl⟩
  rw [decodeSlot, if_pos hassigned, hguard]
  exact decodeS_of_shift_refused (by rwa [opcodeOf_word]) hrefused

end Sys2Proof

namespace Sys2Proof.Machine

/-- Settles O47: seven scalar results and their words; a shift's immediate is its amount where the decoder admits it. -/
theorem immediateForms : Obligations.ImmediateForms := by
  unfold Obligations.ImmediateForms
  intro s g d a imm x k n
  simp only [List.forall_mem_cons]
  refine ⟨⟨
      ⟨fun h => h.exec_scalar rfl rfl rfl rfl, rfl⟩,
      ⟨fun h => h.exec_scalar rfl rfl rfl rfl, rfl⟩,
      ⟨fun h => h.exec_scalar rfl rfl rfl rfl, rfl⟩,
      ⟨fun h => h.exec_scalar rfl rfl rfl rfl, rfl⟩,
      fun _ h => absurd h List.not_mem_nil⟩, ⟨
      ⟨fun hn h => h.exec_scalar rfl rfl rfl (congrArg (x <<< ·) (sh6_imm hn)), rfl, ?_⟩,
      ⟨fun hn h => h.exec_scalar rfl rfl rfl (congrArg (x >>> ·) (sh6_imm hn)), rfl, ?_⟩,
      ⟨fun hn h => h.exec_scalar rfl rfl rfl (congrArg x.sshiftRight (sh6_imm hn)), rfl, ?_⟩,
      fun _ h => absurd h List.not_mem_nil⟩⟩
  · exact fun hn hd ha ⟨_, hg⟩ => decodeSlot_of_large_shift (.inl rfl) hn hd ha hg
  · exact fun hn hd ha ⟨_, hg⟩ => decodeSlot_of_large_shift (.inr (.inl rfl)) hn hd ha hg
  · exact fun hn hd ha ⟨_, hg⟩ => decodeSlot_of_large_shift (.inr (.inr rfl)) hn hd ha hg

end Sys2Proof.Machine
end

section
/-! SUPPORT. Predicates and descriptor fields of the S slot (R99, R100, R104, R105). -/

namespace Sys2Proof.Machine

/-! ### Compares and predicate logic -/

/-- The conditions of R99, each with the predicate that a compare of two scalars writes. -/
def condRows (x y : W64) : List (Cond × W64) :=
  let all (c : Prop) [Decidable c] : W64 := if c then BitVec.allOnes 64 else 0
  [(.eq, all (x = y)), (.ne, all (x ≠ y)), (.lt, all (x.toInt < y.toInt)), (.le, all (x.toInt ≤ y.toInt)),
    (.ltu, all (x.toNat < y.toNat)), (.leu, all (x.toNat ≤ y.toNat)), (.gt, all (y.toInt < x.toInt)),
    (.ge, all (y.toInt ≤ x.toInt))]

/-- A compare writes its row. -/
theorem allBits_condHolds {x y : W64} {c : Cond × W64} (h : c ∈ condRows x y) : allBits (condHolds c.1 x y) = c.2 := by
  revert c
  simp [condRows, allBits, condHolds, BitVec.slt, BitVec.sle, BitVec.ult, BitVec.ule]

/-- An instruction that goes, whose effect is one predicate result, commits with it and writes no last-result register. -/
theorem Goes.exec_pred {s : State} {i : Instr} {pd : Fin 48} {v w : W64} (h : Goes s i) (hissue : exec i s = issueOne s i)
    (hstage : slotStage i = none) (heff : slotEff i (s.env i) = .ok (predResult pd v)) (hvalue : v = w) :
    exec i s = .next (s.done i { res := [{ reg := .p pd, data := w.setWidth 2048, lat := 1 }] }) :=
  hvalue ▸ h.exec_of_eff (o := predResult pd v) hissue hstage heff

/-- Settles O4: every instruction is one predicate result, a compare's by the row of its condition. -/
theorem scalarPredicates : Obligations.ScalarPredicates := by
  unfold Obligations.ScalarPredicates
  intro s g pd pa pb a b imm x all holds lands
  exact ⟨
    fun c hc h => h.exec_pred rfl rfl rfl (allBits_condHolds (x := x) hc),
    fun c hc h => h.exec_pred rfl rfl rfl (allBits_condHolds (x := x) hc),
    fun h => h.exec_pred rfl rfl rfl rfl,
    fun h => h.exec_pred rfl rfl rfl rfl,
    fun h => h.exec_pred rfl rfl rfl rfl,
    fun h => h.exec_pred rfl rfl rfl rfl,
    fun h => h.exec_pred rfl rfl rfl rfl⟩

/-! ### Descriptor fields -/

/-- A field is its bit range, zero-extended. -/
theorem getField_eq (t : Desc) (f : Fin 16) : getField t f = (bits t (fieldPos f).1 (fieldPos f).2).setWidth 64 :=
  congrArg (BitVec.setWidth 64) (bits_ushiftRight ..)

/-- Every field lies in the descriptor. -/
theorem fieldPos_fits (f : Fin 16) : (fieldPos f).1 + (fieldPos f).2 ≤ 256 := by
  revert f
  decide

/-- Two fields are apart. -/
theorem fieldPos_apart {f h : Fin 16} (hne : f ≠ h) :
    (fieldPos f).1 + (fieldPos f).2 ≤ (fieldPos h).1 ∨ (fieldPos h).1 + (fieldPos h).2 ≤ (fieldPos f).1 := by
  revert f h
  decide

/-- A field written reads back, cut to its width. -/
theorem getField_setField_same (t : Desc) (f : Fin 16) (x : W64) :
    getField (setField t f x) f = BitVec.ofNat 64 (x.toNat % 2 ^ (fieldPos f).2) := by
  rw [getField_eq, setField, bits_setBits_same _ _ _ (fieldPos_fits f), setWidth_bits, Nat.pow_zero, Nat.div_one]

/-- Writing a field leaves the others. -/
theorem getField_setField_other (t : Desc) {f h : Fin 16} (x : W64) (hne : f ≠ h) :
    getField (setField t f x) h = getField t h := by
  rw [getField_eq, getField_eq, setField, bits_setBits_apart _ _ _ _ _ (fieldPos_fits h) (fieldPos_apart hne)]

/-- `tget` gives the field where neither half of the descriptor is poisoned. -/
theorem effTget_of_clean (d : Spec) {t : Fin 32} (f : Fin 16) {e : Env}
    (h : ∀ hi : Fin 2, e.k.tpoison.getLsbD (2 * t.val + hi.val) = false) :
    effTget d t f e = .ok (scalarResult d (getField e.k.t[t] f) 1) := by
  have hclean : (fieldHalves f).any (e.k.halfPoisoned t) = false := by
    rw [List.any_eq_false]
    rintro (_ | _) -
    · simpa [Cont.halfPoisoned, bitAt] using h 0
    · simpa [Cont.halfPoisoned, bitAt] using h 1
  rw [effTget, hclean]
  rfl

/-- Settles O6: the instructions by their effects, the fields by their bit ranges, which are apart. -/
theorem descriptorFields : Obligations.DescriptorFields := by
  unfold Obligations.DescriptorFields
  constructor
  · intro s g d a t f n addr x
    exact ⟨
      fun h => h.exec_of_eff rfl rfl rfl,
      fun h => h.exec_of_eff rfl rfl rfl,
      fun h => h.exec_of_eff rfl rfl rfl,
      fun h hclean => h.exec_scalar rfl rfl (effTget_of_clean d f hclean) ((getField_eq _ f).trans (setWidth_bits ..))⟩
  · exact fun t f h x => ⟨getField_setField_same t f x, getField_setField_other t x⟩

end Sys2Proof.Machine
end

section
/-! SUPPORT. Transfers of the Y slot (R106 to R113): the leaf of a condition tree, and what `bsel` selects from a table that
passes its checks. -/

namespace Sys2Proof.Machine

/-! ### Condition trees -/

/-- The leaf of a tree, its pairs of tests joined as R109 writes them. -/
theorem leafOf_eq (sh : Shape) (b1 b2 b3 b4 : Bool) : leafOf sh b1 b2 b3 b4 =
    match sh with
    | .chain => if b1 then 1 else if b2 then 2 else if b3 then 3 else if b4 then 4 else 0
    | .pairs => if b1 && b2 then 1 else if b1 then 2 else if b3 then 3 else if b4 then 4 else 0
    | .gate => if b1 && b2 then 1 else if b1 then 2 else if b3 && b4 then 3 else if b3 then 4 else 0 := by
  cases sh with
  | chain => rfl
  | pairs => cases b1 <;> cases b2 <;> rfl
  | gate => cases b1 <;> cases b2 <;> cases b3 <;> cases b4 <;> rfl

/-- The number of tests that a tree evaluates is at least 1. -/
theorem one_le_count (count : BitVec 2) : 1 ≤ if count = 0 then 4 else count.toNat := by
  revert count
  decide

/-- The leaf that a tree takes, its first test among those of its count. -/
theorem leaf_eq (k : Cont) (sh : Shape) (t1 t2 t3 t4 : Test) (count : BitVec 2) :
    let n := if count = 0 then 4 else count.toNat
    k.leaf sh t1 t2 t3 t4 count = leafOf sh (decide (1 ≤ n) && k.test t1) (decide (2 ≤ n) && k.test t2)
      (decide (3 ≤ n) && k.test t3) (decide (4 ≤ n) && k.test t4) := by
  intro n
  rw [Cont.leaf, decide_eq_true (one_le_count count), Bool.true_and]

/-- A tree that takes leaf 0 has no effect. -/
theorem effTree_of_zero {sh : Shape} {t1 t2 t3 t4 : Test} {group count : BitVec 2} {e : Env}
    (h : e.k.leaf sh t1 t2 t3 t4 count = 0) : effTree sh t1 t2 t3 t4 group count e = .ok {} := by
  simp only [effTree, h, if_true]

/-- A tree that takes another leaf goes to the branch target of its group and leaf. -/
theorem effTree_of_pos {sh : Shape} {t1 t2 t3 t4 : Test} {group count : BitVec 2} {e : Env} {m : Fin 16}
    (h : 0 < e.k.leaf sh t1 t2 t3 t4 count) (hm : m.val = 4 * group.toNat + e.k.leaf sh t1 t2 t3 t4 count - 1) :
    effTree sh t1 t2 t3 t4 group count e = .ok { jump := some (e.k.bt[m], 2) } := by
  have hix : fin 15 m.val = m := by simp [fin]
  simp only [effTree, ← hm, hix, if_neg (Nat.ne_of_gt h)]

/-- Settles O14: the transfers by their effects, a tree by the leaf it takes. -/
theorem transfersAndTrees : Obligations.TransfersAndTrees := by
  unfold Obligations.TransfersAndTrees
  constructor
  · intro s g n k addr link
    simp only [List.forall_mem_cons]
    exact ⟨
      fun h => h.exec_of_eff rfl rfl rfl,
      fun h => h.exec_of_eff rfl rfl rfl,
      fun h => h.exec_of_eff rfl rfl rfl,
      fun h => h.exec_of_eff rfl rfl rfl,
      fun h => h.exec_of_eff rfl rfl rfl,
      fun _ h => absurd h List.not_mem_nil⟩
  · intro s g sh t1 t2 t3 t4 group count n test b1 b2 b3 b4 leaf h
    have hleaf : s.now.leaf sh t1 t2 t3 t4 count = leaf := (leaf_eq s.now sh t1 t2 t3 t4 count).trans (leafOf_eq sh b1 b2 b3 b4)
    refine ⟨fun hzero => ?_, fun m hpos hm => ?_⟩
    · exact h.exec_of_eff rfl rfl (effTree_of_zero (hleaf.trans hzero))
    · exact h.exec_of_eff rfl rfl (effTree_of_pos (hleaf ▸ hpos) (hleaf ▸ hm))

/-! ### Bucket select -/

/-- The sizes of a bucket table of `n` buckets, by its words (R111). -/
def bucketSizes (word : Nat → W32) (n : Nat) : List W32 := (List.range n).map fun i => word (i + 1)

/-- The entries of a bucket table of `n` buckets, by its words (R111). -/
def bucketEntries (word : Nat → W32) (n : Nat) : List W32 := (List.range n).map fun i => word (n + 1 + i)

/-- A size by its place. -/
theorem bucketSizes_getD {word : Nat → W32} {n i : Nat} (h : i < n) : (bucketSizes word n).getD i 0 = word (i + 1) := by
  simp [bucketSizes, h]

/-- An entry by its place. -/
theorem bucketEntries_getD {word : Nat → W32} {n i : Nat} (h : i < n) :
    (bucketEntries word n).getD i 0 = word (n + 1 + i) := by
  simp [bucketEntries, h]

/-- An operand that a size reaches, and none before it, selects that bucket: its size, its PADM and its entry (R112). -/
theorem bselValue_of_bucket {a : W64} {h overflow : W32} {word : Nat → W32} {n i : Nat} (hi : i < n)
    (hreach : a.toNat ≤ (word (i + 1)).toNat) (hbelow : ∀ j < i, (word (j + 1)).toNat < a.toNat) :
    bselValue a h (bucketSizes word n) (bucketEntries word n) overflow = ((word (i + 1)).setWidth 64,
      BitVec.ofNat 64 (a.toNat * 2 ^ 32 + (word (i + 1)).toNat * 2 ^ 16 + h.toNat / 2 ^ 8 % 4 * 4 +
        h.toNat / 2 ^ 10 % 2 * 2 + 1),
      word (n + 1 + i)) := by
  have hfirst : (List.range (bucketSizes word n).length).find?
      (fun i => decide (a.toNat ≤ ((bucketSizes word n).getD i 0).toNat)) = some i := by
    rw [List.find?_range_eq_some]
    refine ⟨?_, by simpa [bucketSizes] using hi, fun j hj => ?_⟩
    · rw [bucketSizes_getD hi]
      exact decide_eq_true hreach
    · rw [bucketSizes_getD (hj.trans hi), decide_eq_false (Nat.not_le.mpr (hbelow j hj))]
      rfl
  rw [bselValue, hfirst]
  simp only [bucketSizes_getD hi, bucketEntries_getD hi, toNat_bits, Nat.reducePow]

/-- An operand above every size selects itself, a PADM of 0 and the overflow entry (R112). -/
theorem bselValue_of_overflow {a : W64} {h overflow : W32} {word : Nat → W32} {n : Nat}
    (habove : ∀ i < n, (word (i + 1)).toNat < a.toNat) :
    bselValue a h (bucketSizes word n) (bucketEntries word n) overflow = (a, 0, overflow) := by
  have hnone : (List.range (bucketSizes word n).length).find?
      (fun i => decide (a.toNat ≤ ((bucketSizes word n).getD i 0).toNat)) = none := by
    rw [List.find?_range_eq_none]
    intro i hi
    have hi : i < n := by simpa [bucketSizes] using hi
    rw [bucketSizes_getD hi, decide_eq_false (Nat.not_le.mpr (habove i hi))]
    rfl
  rw [bselValue, hnone]

/-- A table of `n` buckets in a bank, of the words given, at a window address, passes the checks of `bsel` (R113, R393). -/
structure BucketTable (e : Env) (w : BitVec 24) (bank : Fin 4096) (word : Nat → W32) (n : Nat) : Prop where
  holder : bankOf e.c (e.k.entry (winOf w)).bank = bank
  words : word = tableWord e.mem (bankPa bank (w.toNat % 65536))
  count : (word 0).toNat % 64 = n
  aligned : w.toNat % 4 = 0
  inside : w.toNat % 65536 + 4 * (2 * n + 2) ≤ 65536
  permitted : (winOf w).toNat < 252 ∨ e.k.cstat.getLsbD 2 = true
  mapped : (e.k.entry (winOf w)).v = true
  readable : ownerReads (e.s.banks[bank]).st = true
  formed : tableOk (word 0) (bucketSizes word n) = true
  sound : poisonIn e.s.poisoned (bankPa bank (w.toNat % 65536)) (4 * (2 * n + 2)) = none

/-- On a table that passes its checks, `bsel` gives what it selects: dst and PADM after 9 cycles, 8 bubbles (R112). -/
theorem effBsel_of_table {d a b : Spec} {e : Env} {bank : Fin 4096} {word : Nat → W32} {n : Nat} {v padm : W64} {target : W32}
    (h : BucketTable e ((e.k.scalar b).setWidth 24) bank word n)
    (hselect : bselValue (e.k.scalar a) (word 0) (bucketSizes word n) (bucketEntries word n) (word (2 * n + 1)) =
      (v, padm, target)) :
    effBsel d a b e = .ok
      { res := plainResult d v 9 ++ [{ reg := .padm, data := padm.setWidth 2048, lat := 9 }], jump := some (target, 8) } := by
  obtain ⟨hbank, rfl, hcount, haligned, hinside, hpermitted, hmapped, hreadable, hformed, hsound⟩ := h
  have hw : bits (e.k.scalar b) 0 24 = (e.k.scalar b).setWidth 24 := bits_zero _ 24
  have hn : (bits (tableWord e.mem (bankPa bank (((e.k.scalar b).setWidth 24).toNat % 65536)) 0) 0 6).toNat = n := by
    rw [toNat_bits, Nat.pow_zero, Nat.div_one]
    exact hcount
  have hprivileged : (sysWindow (winOf ((e.k.scalar b).setWidth 24)) && !cPriv e.k.cstat) = false := by
    rcases hpermitted with hlow | hpriv
    · simp [sysWindow, hlow]
    · simp [cPriv, bitAt, hpriv]
  rw [bucketSizes] at hformed
  rw [bucketSizes, bucketEntries] at hselect
  unfold effBsel
  simp only [hw, hbank, hn, haligned, hprivileged, hmapped, hreadable, hformed, hsound, hselect, Nat.not_lt.mpr hinside,
    ne_eq, not_true_eq_false, and_false, Bool.not_true, Bool.false_eq_true, if_false]
  rfl

/-- Settles O15: the table passes its checks, and the operand selects a bucket or the overflow entry. -/
theorem bucketSelect : Obligations.BucketSelect := by
  unfold Obligations.BucketSelect
  intro s g d a b w bank word n sizes x m h haligned hinside hpermitted hmapped hreadable hformed hsound out
  have htable : BucketTable (s.env m) w bank word n :=
    ⟨rfl, rfl, rfl, haligned, hinside, hpermitted, hmapped, hreadable, hformed, hsound⟩
  refine ⟨fun i hi hreach hbelow => ?_, fun habove => ?_⟩
  · have hselect := bselValue_of_bucket (a := x) (h := word 0) (overflow := word (2 * n + 1)) hi hreach hbelow
    have heff := effBsel_of_table (d := d) htable hselect
    exact h.exec_of_eff rfl rfl heff
  · have hselect := bselValue_of_overflow (a := x) (h := word 0) (overflow := word (2 * n + 1)) habove
    have heff := effBsel_of_table (d := d) htable hselect
    exact h.exec_of_eff rfl rfl heff

end Sys2Proof.Machine
end

section
/-! SUPPORT. How a vector instruction whose result is lane by lane commits (R118, R119): the integer instructions (R120), the
predicates (R121, R126, R130, R132) and the moves (R130, R131, R134). -/

namespace Sys2Proof.Machine

/-- A vector result carries no trap, at its own check or after it. -/
theorem vectorResult_no_trap (cl : Cluster) (d : Spec) (e : W64) (v : VReg) (lat : Nat) (flags : FFlags) (whole : Bool) :
    (vectorResult cl d e v lat flags whole).late = none ∧ (vectorResult cl d e v lat flags whole).after = none := by
  cases d <;> exact ⟨rfl, rfl⟩

section
variable {s : State} {i : Instr} {g : Guard} {cl : Cluster} {d : Spec} {lat : Nat}

/-- A vector instruction that goes, whose effect carries no trap, commits with that effect in the set E of its guard. -/
theorem Goes.exec_enabled {out : W64 → Out} (h : Goes s i) (heff : slotEff i (s.env i) = .ok (out (s.env i).e))
    (hno : ∀ e, (out e).late = none ∧ (out e).after = none)
    (hi : VectorInstr i cl g (slotEff i) := by exact ⟨rfl, fun _ => rfl, rfl, rfl⟩) :
    exec i s = .next (s.done i (out (s.now.enable g))) := by
  rw [← hi.enable s]
  obtain ⟨hlate, hafter⟩ := hno (s.env i).e
  exact h.exec_of_eff (hi.issues s) hi.stage heff hlate hafter

/-- A vector instruction whose effect is a value for every lane commits with it, the values in any equal form. -/
theorem Goes.exec_lanes {v w : Nat → W32} (h : Goes s i)
    (heff : slotEff i (s.env i) = .ok (vectorResult cl d (s.env i).e (ofLanes v) lat))
    (hvalue : ∀ n, v n = w n := by exact fun _ => rfl)
    (hi : VectorInstr i cl g (slotEff i) := by exact ⟨rfl, fun _ => rfl, rfl, rfl⟩) :
    exec i s = .next (s.done i (vectorResult cl d (s.now.enable g) (ofLanes w) lat)) := by
  obtain rfl : v = w := funext hvalue
  exact h.exec_enabled (out := fun e => vectorResult cl d e (ofLanes v) lat) heff (fun _ => vectorResult_no_trap ..) hi

/-- A vector instruction whose effect is a value with flags for every lane commits with it, the flags those of the lanes of
E alone. -/
theorem Goes.exec_flanes {v w : Nat → W32 × FFlags} (h : Goes s i)
    (heff : slotEff i (s.env i) = .ok (vectorResult cl d (s.env i).e (ofLanes fun n => (v n).1) lat
      (laneFlags (s.env i).e fun n => (v n).2)))
    (hvalue : ∀ n, v n = w n := by exact fun _ => rfl)
    (hi : VectorInstr i cl g (slotEff i) := by exact ⟨rfl, fun _ => rfl, rfl, rfl⟩) :
    exec i s = .next (s.done i (vectorResult cl d (s.now.enable g) (ofLanes fun n => (w n).1) lat
      (laneFlags (s.now.enable g) fun n => (w n).2))) := by
  obtain rfl : v = w := funext hvalue
  exact h.exec_enabled
    (out := fun e => vectorResult cl d e (ofLanes fun n => (v n).1) lat (laneFlags e fun n => (v n).2)) heff
    (fun _ => vectorResult_no_trap ..) hi

/-- A vector instruction whose effect is a bit for every lane commits with it, the bits in any equal form. -/
theorem Goes.exec_vpred {p : Fin 48} {v w : Nat → Bool} {flags : W64 → FFlags} (h : Goes s i)
    (heff : slotEff i (s.env i) = .ok (vpredResult p (s.env i).e v lat (flags (s.env i).e)))
    (hvalue : ∀ n, v n = w n := by exact fun _ => rfl)
    (hi : VectorInstr i cl g (slotEff i) := by exact ⟨rfl, fun _ => rfl, rfl, rfl⟩) :
    exec i s = .next (s.done i (vpredResult p (s.now.enable g) w lat (flags (s.now.enable g)))) := by
  obtain rfl : v = w := funext hvalue
  exact h.exec_enabled (out := fun e => vpredResult p e v lat (flags e)) heff (fun _ => ⟨rfl, rfl⟩) hi

end

/-! ### Lane-wise integer operations (R120) -/

/-- A shift amount is the lane modulo 32. -/
theorem sh5_eq (y : W32) : sh5 y = y.toNat % 32 := by simp [sh5, toNat_bits]

/-- The signed minimum of two lanes. -/
theorem laneMin_eq (x y : W32) : (if x.slt y then x else y) = if x.toInt < y.toInt then x else y :=
  if_congr BitVec.slt_iff_toInt_lt rfl rfl

/-- The signed maximum of two lanes: the first when they are equal. -/
theorem laneMax_eq (x y : W32) : (if x.slt y then y else x) = if y.toInt ≤ x.toInt then x else y := by
  simp only [BitVec.slt_iff_toInt_lt, ← not_lt, ite_not]

/-- The unsigned minimum of two lanes. -/
theorem laneMinu_eq (x y : W32) : (if x.ult y then x else y) = if x.toNat < y.toNat then x else y :=
  if_congr BitVec.ult_iff_lt rfl rfl

/-- The unsigned maximum of two lanes: the first when they are equal. -/
theorem laneMaxu_eq (x y : W32) : (if x.ult y then y else x) = if y.toNat ≤ x.toNat then x else y := by
  simp only [BitVec.ult_iff_lt, BitVec.lt_def, ← not_lt, ite_not]

/-- A lane's top bit is its sign. -/
theorem bitAt_sign (x : W32) : bitAt x 31 = decide (x.toInt < 0) :=
  (BitVec.msb_eq_getLsbD_last x).symm.trans BitVec.msb_eq_toInt

/-- The magnitude of a lane. -/
theorem laneAbs_eq (x : W32) : (if bitAt x 31 then -x else x) = if x.toInt < 0 then -x else x := by
  simp only [bitAt_sign, decide_eq_true_eq]

/-- Settles O7: every row is one value for every lane; shift amounts, comparisons and saturation are put as the rule has
them. -/
theorem vectorInteger : Obligations.VectorInteger := by
  unfold Obligations.VectorInteger
  intro s g cl d a b x y sat
  simp only [List.forall_mem_cons]
  exact ⟨
    fun h => h.exec_lanes rfl,
    fun h => h.exec_lanes rfl,
    fun h => h.exec_lanes rfl,
    fun h => h.exec_lanes rfl,
    fun h => h.exec_lanes rfl fun n => laneMin_eq (x n) (y n),
    fun h => h.exec_lanes rfl fun n => laneMax_eq (x n) (y n),
    fun h => h.exec_lanes rfl fun n => laneMinu_eq (x n) (y n),
    fun h => h.exec_lanes rfl fun n => laneMaxu_eq (x n) (y n),
    fun h => h.exec_lanes rfl,
    fun h => h.exec_lanes rfl,
    fun h => h.exec_lanes rfl,
    fun h => h.exec_lanes rfl fun n => congrArg (x n <<< ·) (sh5_eq (y n)),
    fun h => h.exec_lanes rfl fun n => congrArg (x n >>> ·) (sh5_eq (y n)),
    fun h => h.exec_lanes rfl fun n => congrArg (x n).sshiftRight (sh5_eq (y n)),
    fun h => h.exec_lanes rfl fun n => sat32_eq _,
    fun h => h.exec_lanes rfl fun n => sat32_eq _,
    fun h => h.exec_lanes rfl fun n => laneAbs_eq (x n),
    fun h => h.exec_lanes rfl,
    fun _ h => absurd h List.not_mem_nil⟩

/-! ### Predicates (R121, R126, R130, R132) -/

/-- Settles O8: a predicate result or a value for every lane, in the set E; a floating compare with the flags of E. -/
theorem vectorPredicates : Obligations.VectorPredicates := by
  unfold Obligations.VectorPredicates
  intro s g cl d a b p c fc e x y r on
  simp only [List.forall_mem_cons]
  exact ⟨
    fun h => h.exec_vpred (flags := fun _ => 0) rfl,
    fun h => h.exec_vpred (flags := fun e => laneFlags e fun i => (r i).2) rfl,
    fun h => h.exec_vpred (flags := fun _ => 0) rfl fun n => (decide_not (p := x n = 0)).symm,
    fun h => h.exec_lanes rfl,
    fun h => h.exec_lanes rfl,
    fun _ h => absurd h List.not_mem_nil⟩

/-! ### Moves (R130, R131, R134) -/

/-- An index of lanes is the low six bits of a lane. -/
theorem laneIndex_eq (x : W32) : (bits x 0 6).toNat = x.toNat % 64 := by simp [toNat_bits]

/-- A lane of `viota`, as an integer cut to the lane. -/
theorem viota_lane_eq (start : Half) (stride : Byte) (n : Nat) :
    start.signExtend 32 + BitVec.ofNat 32 n * stride.signExtend 32 = BitVec.ofInt 32 (start.toInt + n * stride.toInt) := by
  rw [BitVec.ofInt_add, BitVec.ofInt_mul, BitVec.ofInt_natCast]
  rfl

/-- Settles O11: the permutes by the lane that each takes, `vins` in one lane of E, `xmov` in the other cluster. -/
theorem vectorMoves : Obligations.VectorMoves := by
  unfold Obligations.VectorMoves
  intro s g cl d a b imm start stride n st e v idx
  refine ⟨?_, fun h => ?_, fun h => ?_⟩
  · simp only [List.forall_mem_cons]
    exact ⟨
      fun h => h.exec_lanes rfl,
      fun h => h.exec_lanes rfl,
      fun h => h.exec_lanes rfl fun i => viota_lane_eq start stride i,
      fun h => h.exec_lanes rfl,
      fun h => h.exec_lanes rfl fun i => congrArg (lane v) (laneIndex_eq (lane idx i)),
      fun h => h.exec_lanes rfl,
      fun h => h.exec_lanes rfl,
      fun _ h => absurd h List.not_mem_nil⟩
  · rw [← bits_zero]
    exact h.exec_enabled
      (out := fun e => vectorResult cl d (e &&& (1#64 <<< n.toNat)) (splat (bits (s.now.scalar a) 0 32)) 2) rfl
      (fun _ => vectorResult_no_trap ..)
  · exact h.exec_enabled
      (out := fun e => { res := ((specRegV (otherCl cl) d).map fun r => bareResult r v e 3).toList }) rfl
      (fun _ => ⟨rfl, rfl⟩)

end Sys2Proof.Machine
end

section
/-! SUPPORT. Floating instructions (R122 to R126): what a binary32 encoding is by its sign bit and its magnitude, and the
operations on them. -/

namespace Sys2Proof.Machine

/-- The sign of an encoding, as a bit of its number. -/
theorem sign_bit_eq (x : W32) : (x.toNat / 2 ^ 31 % 2 == 1) = x.getLsbD 31 := by
  rw [BitVec.getLsbD, Nat.testBit_eq_decide_div_mod_eq]
  rfl

/-- A binary32 encoding read by its sign bit and its magnitude, the other bits (R34). -/
theorem f32_dec_of_magnitude (x : W32) : FFmt.f32.dec x =
    let m : Nat := x.toNat % 2 ^ 31
    let neg := x.getLsbD 31
    if 0x7F800000 < m then .nan (m < 0x7FC00000)
    else if m = 0x7F800000 then .inf neg
    else if m < 2 ^ 23 then .fin neg m (-149)
    else .fin neg (m % 2 ^ 23 + 2 ^ 23) ((m / 2 ^ 23 : Nat) - 127 - 23) := by
  have hex : x.toNat / 2 ^ 23 % 2 ^ 8 = x.toNat % 2 ^ 31 / 2 ^ 23 := by omega
  have hfr : x.toNat % 2 ^ 23 = x.toNat % 2 ^ 31 % 2 ^ 23 := by omega
  rw [f32_dec_eq, sign_bit_eq, hex, hfr]
  have hm : x.toNat % 2 ^ 31 < 2 ^ 31 := Nat.mod_lt _ (by decide)
  generalize x.toNat % 2 ^ 31 = m at hm
  dsimp only
  by_cases hnan : 0x7F800000 < m
  · rw [if_pos (by omega), if_neg (by omega), if_pos hnan]
    congr 1
    exact decide_eq_decide.mpr (by omega)
  · rw [if_neg hnan]
    by_cases hinf : m = 0x7F800000
    · subst hinf
      rfl
    · rw [if_neg hinf, if_neg (by omega)]
      by_cases hsub : m < 2 ^ 23
      · rw [if_pos hsub, if_pos (by omega), Nat.mod_eq_of_lt hsub]
      · rw [if_neg hsub, if_neg (by omega)]

/-- An encoding is a NaN when its magnitude is above that of an infinity. -/
theorem isNan_f32_dec (x : W32) : (FFmt.f32.dec x).isNan = true ↔ 0x7F800000 < x.toNat % 2 ^ 31 := by
  rw [f32_dec_of_magnitude]
  generalize x.toNat % 2 ^ 31 = m
  dsimp only
  by_cases hnan : 0x7F800000 < m
  · simp only [hnan, if_true, FVal.isNan]
  · simp only [hnan, if_false, apply_ite FVal.isNan]
    simp only [FVal.isNan, ite_self, Bool.false_eq_true]

/-- The class of an encoding (R124): the number of the bit that `fclass` sets. -/
def f32Class (x : W32) : Nat :=
  let m := x.toNat % 2 ^ 31
  let neg := x.getLsbD 31
  if 0x7F800000 < m then (if m < 0x7FC00000 then 0 else 1)
  else if m = 0x7F800000 then (if neg then 2 else 9)
  else if m = 0 then (if neg then 5 else 6)
  else if m < 0x800000 then (if neg then 4 else 7)
  else if neg then 3 else 8

/-- `fclass` sets the bit of the class. -/
theorem fclass32_eq (x : W32) : fclass32 x = BitVec.ofNat 32 (2 ^ f32Class x) := by
  unfold fclass32 f32Class
  rw [f32_dec_of_magnitude]
  generalize x.toNat % 2 ^ 31 = m
  generalize x.getLsbD 31 = neg
  dsimp only
  by_cases hnan : 0x7F800000 < m
  · by_cases hs : m < 0x7FC00000 <;> simp [hnan, hs]
  · by_cases hinf : m = 0x7F800000
    · subst hinf
      cases neg <;> rfl
    · by_cases hsub : m < 2 ^ 23
      · simp only [hnan, hinf, hsub, (show m < 0x800000 from hsub), if_true, if_false]
      · simp only [hnan, hinf, hsub, (show ¬ m < 0x800000 from hsub), (show m ≠ 0 by omega),
          (show m % 2 ^ 23 + 2 ^ 23 ≠ 0 by omega), (show ¬ m % 2 ^ 23 + 2 ^ 23 < 2 ^ 23 by omega), if_false]

/-- `fabs` clears the sign bit, a NaN giving the canonical NaN. -/
theorem fabs32_eq (x : W32) : fabs32 x = if 0x7F800000 < x.toNat % 2 ^ 31 then 0x7FC00000 else x &&& 0x7FFFFFFF :=
  if_congr (isNan_f32_dec x) rfl rfl

/-- `fneg` inverts the sign bit, a NaN giving the canonical NaN. -/
theorem fneg32_eq (x : W32) : fneg32 x = if 0x7F800000 < x.toNat % 2 ^ 31 then 0x7FC00000 else x ^^^ 0x80000000 :=
  if_congr (isNan_f32_dec x) rfl rfl

/-- Settles O9: every row is the lane function of its instruction, with the flags of E; the operations on encodings by
sign bit and magnitude. -/
theorem vectorFloat : Obligations.VectorFloat := by
  unfold Obligations.VectorFloat
  constructor
  · intro s g cl d a b c rm e raw x y z
    simp only [List.forall_mem_cons]
    exact ⟨
      fun h => h.exec_flanes rfl,
      fun h => h.exec_flanes rfl,
      fun h => h.exec_flanes rfl,
      fun h => h.exec_flanes rfl,
      fun h => h.exec_flanes rfl,
      fun h => h.exec_flanes rfl,
      fun h => h.exec_flanes rfl,
      fun h => h.exec_flanes rfl,
      fun h => h.exec_flanes rfl,
      fun h => h.exec_flanes rfl,
      fun h => h.exec_flanes rfl,
      fun h => h.exec_flanes rfl,
      fun _ h => absurd h List.not_mem_nil⟩
  · intro s g cl d a raw nan cls
    simp only [List.forall_mem_cons]
    exact ⟨
      fun h => h.exec_lanes rfl fun i => fabs32_eq (raw i),
      fun h => h.exec_lanes rfl fun i => fneg32_eq (raw i),
      fun h => h.exec_lanes rfl fun i => fclass32_eq (raw i),
      fun _ h => absurd h List.not_mem_nil⟩

end Sys2Proof.Machine
end

section
/-! SUPPORT. Conversions (R127 to R129): the planes of an NI group that `plins` replaces (R31), and the halves of a lane. -/

namespace Sys2Proof.Machine

/-! ### Planes of an NI group -/

/-- Plane 7 stands lowest, and each plane holds a bit of each of the 256 elements (R28). -/
theorem planePos_eq (p e : Nat) : planePos p e = (7 - p) * 256 + e := by
  unfold planePos
  omega

/-- Two planes or two elements are apart. -/
theorem planePos_inj {p p' e e' : Nat} (hp : p < 8) (hp' : p' < 8) (he : e < 256) (he' : e' < 256) :
    planePos p e = planePos p' e' ↔ p = p' ∧ e = e' := by
  rw [planePos_eq, planePos_eq]
  omega

/-- One bit of a group replaced, read at any plane and element. -/
theorem getLsbD_setBits_planePos (v : VReg) (x : BitVec 1) {p p' e e' : Nat} (hp : p < 8) (hp' : p' < 8) (he : e < 256)
    (he' : e' < 256) : (setBits v (planePos p e) x).getLsbD (planePos p' e') =
      if p' = p ∧ e' = e then x.getLsbD 0 else v.getLsbD (planePos p' e') := by
  have hin : planePos p' e' < 2048 := by rw [planePos_eq]; omega
  have hiff : planePos p e ≤ planePos p' e' ∧ planePos p' e' < planePos p e + 1 ↔ p' = p ∧ e' = e := by
    rw [← planePos_inj hp' hp he' he]
    omega
  rw [getLsbD_setBits v _ x hin]
  refine if_ctx_congr hiff (fun h => ?_) fun _ => rfl
  rw [h.1, h.2, Nat.sub_self]

/-- The top planes of one element replaced, `n` of them, read at any plane and element. -/
theorem getLsbD_foldl_setBits (v : VReg) (w : Nat → BitVec 1) {n e p e' : Nat} (hn : n ≤ 8) (he : e < 256) (hp : p < 8)
    (he' : e' < 256) :
    ((List.range n).foldl (fun v j => setBits v (planePos (7 - j) e) (w j)) v).getLsbD (planePos p e') =
      if e' = e ∧ 8 - n ≤ p then (w (7 - p)).getLsbD 0 else v.getLsbD (planePos p e') := by
  induction n with
  | zero => rw [if_neg (by omega)]; rfl
  | succ n ih =>
    rw [List.range_succ, List.foldl_append, List.foldl_cons, List.foldl_nil,
      getLsbD_setBits_planePos _ _ (by omega) hp he he', ih (by omega)]
    by_cases htop : p = 7 - n ∧ e' = e
    · have hj : 7 - p = n := by omega
      rw [if_pos htop, if_pos (by omega), hj]
    · rw [if_neg htop]
      exact if_congr (by omega) rfl rfl

/-- An element written at k planes: its planes from 8 - k up hold the integer, every other bit of the group is as before
(R31). -/
theorem getLsbD_niWrite (v : VReg) (q : Int) {k e p e' : Nat} (hk : k ≤ 8) (he : e < 256) (hp : p < 8) (he' : e' < 256) :
    (niWrite v k e q).getLsbD (planePos p e') =
      if e' = e ∧ 8 - k ≤ p then (BitVec.ofInt k q).getLsbD (p - (8 - k)) else v.getLsbD (planePos p e') := by
  rw [niWrite, getLsbD_foldl_setBits v _ hk he hp he']
  refine if_ctx_congr Iff.rfl (fun h => ?_) fun _ => rfl
  have hplane : k - 1 - (7 - p) + 0 = p - (8 - k) := by omega
  rw [getLsbD_bits, hplane]
  rfl

/-- The first `n` elements from `base` on that the mask has, written at k planes. -/
def niInsert (v : VReg) (m : W64) (k base : Nat) (q : Nat → Int) (n : Nat) : VReg :=
  (List.range n).foldl (fun v j => if bitAt m j then niWrite v k (base + j) (q j) else v) v

/-- The last element, where the mask has it, is written into what the others leave. -/
theorem niInsert_succ (v : VReg) (m : W64) (k base : Nat) (q : Nat → Int) (n : Nat) :
    niInsert v m k base q (n + 1) =
      if m.getLsbD n then niWrite (niInsert v m k base q n) k (base + n) (q n) else niInsert v m k base q n := by
  rw [niInsert, List.range_succ, List.foldl_append]
  rfl

/-- A group after an insert: the planes from 8 - k up of the elements written hold their integers, every other bit is as
before. -/
theorem getLsbD_niInsert (v : VReg) (m : W64) (q : Nat → Int) {k base n p e : Nat} (hk : k ≤ 8) (hn : base + n ≤ 256)
    (hp : p < 8) (he : e < 256) :
    (niInsert v m k base q n).getLsbD (planePos p e) =
      if base ≤ e ∧ e < base + n ∧ m.getLsbD (e - base) ∧ 8 - k ≤ p then
        (BitVec.ofInt k (q (e - base))).getLsbD (p - (8 - k))
      else v.getLsbD (planePos p e) := by
  induction n with
  | zero => rw [if_neg (by omega)]; rfl
  | succ n ih =>
    rw [niInsert_succ, apply_ite (BitVec.getLsbD · (planePos p e)), getLsbD_niWrite _ _ hk (by omega) hp he,
      ih (by omega)]
    by_cases hlast : e = base + n
    · subst hlast
      cases hm : m.getLsbD n <;> simp [hm]
    · have hrange : e < base + (n + 1) ↔ e < base + n := by omega
      simp only [hlast, hrange, false_and, if_false, ite_self]

/-- The integer that `plins` stores for a lane: the one selected by the mode, clamped to k bits (R31). -/
def plinsInt (k : Cont) (cl : Cluster) (a : Spec) (k1 : Fin 8) (c : Bool) (rm : Rm) (j : Nat) : Int :=
  (niClamp (k1.val + 1) (niSelect c (k1.val + 1) rm (lane (k.vector cl false a) j).toInt 0 false)).1

/-- `plins` inserts the integers of the lanes of E into a quarter of its destination (R129). -/
theorem effPlins_eq (cl : Cluster) (d a : Spec) (k1 : Fin 8) (c : Bool) (q : Fin 4) (rm : Rm) (e : Env) :
    effPlins cl d a k1 c q rm e = .ok (vectorResult cl d e.e
      (niInsert (e.k.vector cl false d) e.e (k1.val + 1) (64 * q.val) (plinsInt e.k cl a k1 c rm) 64) 3 0 true) := rfl

/-! ### Halves of a lane -/

/-- The half of a lane that `vunpk` widens. -/
theorem laneHalf_eq (x : W32) (half : Bool) :
    (if half then x >>> 16 else x &&& 0xFFFF) = BitVec.ofNat 32 (x.toNat / (if half then 2 ^ 16 else 1) % 2 ^ 16) := by
  apply BitVec.eq_of_toNat_eq
  have hx := x.isLt
  cases half with
  | true => simp [Nat.shiftRight_eq_div_pow]; omega
  | false =>
    have hlow : x.toNat &&& 0xFFFF = x.toNat % 2 ^ 16 := Nat.and_two_pow_sub_one_eq_mod x.toNat 16
    simp [hlow]
    omega

/-! ### The conversions -/

/-- Settles O10: the conversions by their lane functions, `plins` by the bits of the group it leaves. -/
theorem vectorConvert : Obligations.VectorConvert := by
  unfold Obligations.VectorConvert
  intro s g cl d a b src dst kind half c k1 q rm e x fp lanes group k
  refine ⟨fun h => ?_, fun h => ?_, fun h => ?_, fun h => ?_, fun h => ?_⟩
  · exact h.exec_flanes rfl
  · have hfp : (kind == .bf16 || kind == .f16) = fp := (Bool.decide_or _ _).symm
    rw [← hfp]
    exact h.exec_flanes rfl
  · exact h.exec_flanes rfl fun i => congrArg (widen kind) (laneHalf_eq (x false a i) half)
  · exact h.exec_lanes rfl
  · have hk : k ≤ 8 := k1.isLt
    have hq : 64 * q.val + 64 ≤ 256 := by omega
    refine ⟨_, h.exec_enabled (out := fun m => vectorResult cl d m
      (niInsert (s.now.vector cl false d) m k (64 * q.val) (plinsInt s.now cl a k1 c rm) 64) 3 0 true)
      (effPlins_eq cl d a k1 c q rm _) (fun _ => vectorResult_no_trap ..),
      fun j hj hm p hp => ?_, fun j hj hm p hp => ?_, fun i hi hout p hp => ?_⟩
    · rw [getLsbD_niInsert _ _ _ hk hq hp (by omega), if_neg (by simp [e, hm])]
    · rw [getLsbD_niInsert _ _ _ hk hq hp (by omega), Nat.add_sub_cancel_left]
      exact if_congr (by simp [hj, hm, e]) rfl rfl
    · rw [getLsbD_niInsert _ _ _ hk hq hp hi, if_neg (by omega)]

end Sys2Proof.Machine
end

section
/-! SUPPORT. Owner accesses of the L and K slots (R144 to R158): the effect of each where its address passes its checks. -/

namespace Sys2Proof.Machine

/-- A load whose address passes its checks joins its banks' queues and takes its entry (R146, R147). -/
theorem effLd_of_access {base index : Spec} {scale : BitVec 2} {off : BitVec 12} {cls : BitVec 4} {width : Width} {dest : LoadTo}
    {e : Env} {ps : List Part}
    (h : checkAccess e ((e.k.scalar base + e.k.scalar index * BitVec.ofNat 64 (2 ^ scale.toNat * widthBytes width) +
      off.signExtend 64).setWidth 24) (loadLen dest width) (loadAlign dest width) true false = .ok ps) :
    effLd base index scale off cls width dest e = .ok { acts := (
      enqueue e e.id cls ps (fun _ => .load) (isDesc dest) false false ++ allocate e e.id dest width 0 ps) } := by
  rw [← bits_zero] at h
  simp only [effLd, effAddr, h]

/-- A full/empty load whose address passes its checks (R151). -/
theorem feLoad_of_access {base index : Spec} {scale : BitVec 2} {off : BitVec 12} {cls : BitVec 4} {sx : Bool} {op : AccOp}
    {wr : Bool} {e : Env} {ps : List Part}
    (h : checkAccess e ((e.k.scalar base + e.k.scalar index * BitVec.ofNat 64 (2 ^ scale.toNat * 4) +
      off.signExtend 64).setWidth 24) 4 4 true wr = .ok ps) :
    feLoad base index scale off cls sx op wr e = .ok { acts := (
      enqueue e e.id cls ps (fun _ => op) false wr true ++ allocate e e.id (.qs sx) .w 0 ps) } := by
  rw [← bits_zero] at h
  simp only [feLoad, effAddr, h]

/-- Settles O16: each load by its effect where the access is permitted; it has no last stage and no trap of its own. -/
theorem loads : Obligations.Loads := by
  unfold Obligations.Loads
  intro s g base index scale off cls width dest sx ea
  exact ⟨
    fun ps h hps => h.exec_of_eff rfl rfl (effLd_of_access hps),
    fun ps h hps => h.exec_of_eff rfl rfl (feLoad_of_access hps),
    fun ps h hps => h.exec_of_eff rfl rfl (feLoad_of_access hps)⟩

/-- An atomic whose address passes its checks (R153). -/
theorem effAmo_of_access {base val : Spec} {op : AmoOp} {cls : BitVec 4} {wide : Bool} {e : Env} {ps : List Part}
    (h : checkAccess e ((e.k.scalar base).setWidth 24) (if wide then 8 else 4) (if wide then 8 else 4) true true = .ok ps) :
    effAmo base val op cls wide e = .ok { acts := (
      enqueue e e.id cls ps (fun _ => .amo op (e.k.scalar val) (match op with | .cas x => e.k.scalar x | _ => 0)) false true
        false ++ allocate e e.id (.qs true) (if wide then .d else .w) 2 ps) } := by
  rw [← bits_zero] at h
  simp only [effAmo, h] <;> rfl

/-- A read of a bank's state whose window passes its checks (R157). -/
theorem effLbst_of_access {base : Spec} {cls : BitVec 4} {sel : Bool} {e : Env} {ps : List Part}
    (h : checkAccess e ((e.k.scalar base).setWidth 24) 1 1 false false = .ok ps) :
    effLbst base cls sel e = .ok { acts := (
      enqueue e e.id cls ps (fun _ => .lbst sel) false false false ++ allocate e e.id (.qs false) .d 0 ps) } := by
  rw [← bits_zero] at h
  simp only [effLbst, h]

/-- Settles O17: `amo` and `lbst` by their effects where the access is permitted. -/
theorem atomicsAndStates : Obligations.AtomicsAndStates := by
  unfold Obligations.AtomicsAndStates
  intro s g base val op cls wide sel a n expect
  exact ⟨
    fun ps h hps => h.exec_of_eff rfl rfl (effAmo_of_access hps),
    fun ps h hps => h.exec_of_eff rfl rfl (effLbst_of_access hps)⟩

end Sys2Proof.Machine
end

section
/-! SUPPORT. What a commit leaves of banks and of cores (R76): each part of the state follows the updates of that part alone. -/

namespace Sys2Proof.Machine

/-- Updates leave banks that depend on the banks alone. -/
theorem applyActs_banks_congr {s t : State} (h : s.banks = t.banks) (acts : List Act) :
    (applyActs s acts).banks = (applyActs t acts).banks := by
  induction acts generalizing s t with
  | nil => exact h
  | cons a acts ih =>
    refine ih ?_
    cases a with
    | bank b f => simp only [apply_bank_banks, h]
    | _ => exact h

/-- Updates leave cores that depend on the cores alone. -/
theorem applyActs_cores_congr {s t : State} (h : s.cores = t.cores) (acts : List Act) :
    (applyActs s acts).cores = (applyActs t acts).cores := by
  induction acts generalizing s t with
  | nil => exact h
  | cons a acts ih =>
    refine ih ?_
    cases a with
    | core c f => simp only [apply_core_cores, h]
    | _ => exact h

/-- A list of at most one report, of the trace of R389. -/
theorem applyActs_report (s : State) (c : Prop) [Decidable c] (r : Report) :
    (applyActs s (if c then [.report r] else [])).banks = s.banks ∧
      (applyActs s (if c then [.report r] else [])).cores = s.cores := by
  split <;> exact ⟨rfl, rfl⟩

/-- An update of a continuation, read back. -/
theorem cont_apply_cont (c : Fin 256) (f : Cont → Cont) (s : State) :
    (((Act.cont c f).apply s).cores[c]).cont = f (s.cores[c]).cont := by
  rw [Act.cont, apply_core_cores, vset_same]

/-- An update of a continuation leaves every other core. -/
theorem cores_apply_cont_other {c o : Fin 256} (h : c ≠ o) (f : Cont → Cont) (s : State) :
    ((Act.cont o f).apply s).cores[c] = s.cores[c] := by
  rw [Act.cont, apply_core_cores, vset_other _ _ _ _ h]

/-- The issue of an instruction that has its turn, before the updates of its own. -/
def State.issuing (s : State) (i : Instr) (o : Out) : State :=
  (Act.core s.focus fun x => x.issued (Bundle.single i) 0 s.landed.nextId (opsOf i) [((slotOf i, i), o)] []).apply s.landed

/-- Banks and cores after an instruction of no engine has committed: its own updates, on the machine in which its bundle issues. -/
theorem done_own {s : State} {i : Instr} {o : Out} (hu : usesEngine (opsOf i) = false) :
    (s.done i o).banks = (applyActs s (o.acts ++ o.last)).banks ∧
      (s.done i o).cores = (applyActs (s.issuing i o) (o.acts ++ o.last)).cores := by
  have hreport (t : State) := applyActs_report t (s.landed.hub.dbg = 1) (.traced s.focus s.now.pc s.now.ts)
  rw [done_eq]
  simp only [hu, Bool.false_eq_true, if_false, applyActs_append, List.append_nil, applyActs_cons, applyActs_nil, apply_clock_banks,
    apply_clock_cores]
  constructor
  · refine applyActs_banks_congr ?_ _
    rw [(hreport _).1]
    exact applyActs_banks_congr (by rfl) _
  · refine applyActs_cores_congr ?_ _
    rw [(hreport _).2]
    exact applyActs_cores_congr (by rfl) _

end Sys2Proof.Machine
end

section
/-! SUPPORT. Stores, declared buffers and system access (R148 to R160): the effect of each where its address passes its checks. -/

namespace Sys2Proof.Machine

/-- A store whose address passes its checks joins its banks' queues (R148). -/
theorem storeOf_of_access {e : Env} {base : Spec} {off : BitVec 12} {cls : BitVec 4} {n align : Nat} {desc fe : Bool}
    {op : Part → AccOp} {ps : List Part}
    (h : checkAccess e ((e.k.scalar base + off.signExtend 64).setWidth 24) n align false true = .ok ps) :
    storeOf e base off cls n align desc fe op = .ok { acts := enqueue e e.id cls ps op desc true fe } := by
  rw [← bits_zero] at h
  simp only [storeOf, storeAddr, h]

/-- A store of a descriptor half that is not poisoned is a store of its bytes (R146, R148). -/
theorem effSt_of_clean_half {base : Spec} {t : Fin 32} {hi : Bool} {off : BitVec 12} {cls : BitVec 4} {width : Width} {e : Env}
    (h : e.k.tpoison.getLsbD (2 * t.val + hi.toNat) = false) :
    effSt base (.desc t hi) off cls width e =
      storeOf e base off cls 16 16 true false fun p => .store (shareBytes (e.k.get (.t t hi)) (fun _ => true) p) := by
  have hclean : e.k.halfPoisoned t hi = false := h
  simp [effSt, hclean]

/-- A declaration of a bank that is neither filling nor draining changes its state and its buffer number (R154). -/
theorem effBst_of_access {base : Spec} {buf : Byte} {mode : BstMode} {cls : BitVec 4} {e : Env} {p : Part}
    (h : checkAccess e ((e.k.scalar base).setWidth 24) 1 1 false false = .ok [p])
    (hfill : (e.s.banks[p.bank]).st ≠ .filling) (hdrain : (e.s.banks[p.bank]).st ≠ .draining) :
    effBst base buf mode cls e = .ok { acts := [.bank p.bank fun b => { b with st := bstState mode, buf }] } := by
  rw [← bits_zero] at h
  have hquiet : ((e.s.banks[p.bank]).st == .filling || (e.s.banks[p.bank]).st == .draining) = false := by
    simpa using And.intro hfill hdrain
  simp only [effBst, h, List.any_cons, List.any_nil, hquiet, Bool.or_false, Bool.false_eq_true, if_false, List.map_cons,
    List.map_nil]

/-- Settles O18: each store by its effect where the access is permitted; a `bst` by the one bank that it changes. -/
theorem stores : Obligations.Stores := by
  unfold Obligations.Stores
  constructor
  · intro s g base x t hi off cls width p a v every on stores
    exact ⟨
      fun ps h hps => h.exec_of_eff rfl rfl (storeOf_of_access hps),
      fun hclean ps h hps => h.exec_of_eff rfl rfl ((effSt_of_clean_half (width := width) hclean).trans (storeOf_of_access hps)),
      fun ps h hps => h.exec_of_eff rfl rfl (storeOf_of_access hps),
      fun ps h hps => h.exec_of_eff rfl rfl (storeOf_of_access hps),
      fun ps h hps => h.exec_of_eff rfl rfl (storeOf_of_access hps)⟩
  · intro s g base buf mode cls b a i h hps hfill hdrain
    refine ⟨_, h.exec_of_eff rfl rfl (effBst_of_access (cls := cls) hps hfill hdrain), ?_⟩
    rw [(done_own rfl).1]
    cases mode <;> simp [bstState]

/-- The checks of a system access at an aligned address of this node (R159, R160). -/
theorem xTrap_of_local {k : Cont} {r : Fin 64} {off : BitVec 24} {width : XWidth} (heven : r.val % 2 = 0)
    (hhigh : (k.s[r + 1]).toNat < 2 ^ 16) (halign : (xAddr k r off).toNat % xBytes width = 0) : xTrap k r off width = none := by
  have hbits : bits k.s[r + 1] 16 48 = 0 := by
    apply BitVec.eq_of_toNat_eq
    rw [toNat_bits, Nat.div_eq_of_lt hhigh]
    rfl
  have hodd : ¬ r.val % 2 = 1 := by omega
  simp only [xTrap, hodd, hbits, halign, ne_eq, not_true_eq_false, or_false, if_false]

/-- An address below 2^48 names this node (R159). -/
theorem node_of_local {a : W64} (h : a.toNat < 2 ^ 48) : bits a 48 16 = 0 :=
  BitVec.eq_of_toNat_eq (by simp [toNat_bits]; omega)

/-- A slot whose bundle has made no access has no answer. -/
theorem answer_of_none {e : Env} (h : (e.s.cores[e.c]).cont.remote = []) : e.answer = none := by
  simp only [Env.answer, Cont.answerOf, h, List.find?_nil, Option.map_none]

/-- A read of memory of this node gives its value in qs (R160). -/
theorem stageLdx_of_memory {r : Fin 64} {off : BitVec 24} {width : XWidth} {e : Env} (hmade : (e.s.cores[e.c]).cont.remote = [])
    (hlocal : (xAddr e.k r off).toNat < 2 ^ 48)
    (hreach : reach e.s (some e.c) (xAddr e.k r off).toNat (xBytes width) false = .memory)
    (hsound : poisonIn e.s.poisoned (xAddr e.k r off).toNat (xBytes width) = none) :
    let v := BitVec.ofNat 64 (memNat e.s.mem (xAddr e.k r off).toNat (xBytes width))
    stageLdx r off width e = .made (readTouch e.s (xAddr e.k r off).toNat (xBytes width)) (pushQs e v) v := by
  simp [stageLdx, node_of_local hlocal, Env.madeValue, answer_of_none hmade, hreach, hsound]

/-- A write of memory of this node writes its bytes (R160). -/
theorem stageStx_of_memory {r : Fin 64} {src : Spec} {off : BitVec 24} {width : XWidth} {e : Env}
    (hmade : (e.s.cores[e.c]).cont.remote = []) (hlocal : (xAddr e.k r off).toNat < 2 ^ 48)
    (hreach : reach e.s (some e.c) (xAddr e.k r off).toNat (xBytes width) true = .memory) :
    stageStx r src off width e =
      .made (writeTouch e.s (xAddr e.k r off).toNat (leBytes (xBytes width) (e.k.scalar src).toNat) [] e.k.ts) [] 0 := by
  simp [stageStx, node_of_local hlocal, Env.madeValue, answer_of_none hmade, hreach]

/-- Settles O19: the checks pass, and the last stage makes the access at once. -/
theorem systemAccess : Obligations.SystemAccess := by
  unfold Obligations.SystemAccess
  intro s g r src off width a n hmade heven hhigh halign hlocal
  have hn : n = xBytes width := by cases width <;> rfl
  have hcheck : xTrap s.now r off width = none := xTrap_of_local heven hhigh (hn ▸ halign)
  rw [hn]
  constructor
  · rintro i rfl h hreach hsound
    refine issueOne_commits_made h (o := {}) ?_ rfl rfl rfl (stageLdx_of_memory hmade hlocal hreach hsound)
    show effLdx r off width _ = _
    simp only [effLdx, show xTrap (s.env (.ldx g r off width)).k r off width = none from hcheck]
  · rintro i rfl h hreach
    have hstage := stageStx_of_memory (src := src) (e := s.env (.stx g r src off width)) hmade hlocal hreach
    refine (issueOne_commits_made h (o := {}) ?_ rfl rfl rfl hstage).trans ?_
    · show effStx r src off width _ = _
      simp only [effStx, show xTrap (s.env (.stx g r src off width)).k r off width = none from hcheck]
    · rw [List.append_nil]
      rfl

end Sys2Proof.Machine
end

section
/-! SUPPORT. Windows handed over, opened and closed (R166, R170), and gangs joined and left (R260). -/

namespace Sys2Proof.Machine

/-! ### What an issue leaves of windows and gangs -/

@[simp] theorem entry_issued (k : Cont) (b : Bundle) (token : Nat) (outs : List ((Slot × Instr) × Out)) (more : List Result)
    (w : Byte) : (k.issued b token outs more).entry w = k.entry w := by
  obtain ⟨qs, qa, qb, strm, h⟩ := issued_frame k b token outs more
  rw [h]
  rfl

@[simp] theorem fused_issued (k : Cont) (b : Bundle) (token : Nat) (outs : List ((Slot × Instr) × Out)) (more : List Result) :
    (k.issued b token outs more).fused = k.fused := by
  obtain ⟨qs, qa, qb, strm, h⟩ := issued_frame k b token outs more
  rw [h]

@[simp] theorem cstat_issued (k : Cont) (b : Bundle) (token : Nat) (outs : List ((Slot × Instr) × Out)) (more : List Result) :
    (k.issued b token outs more).cstat = k.cstat := by
  obtain ⟨qs, qa, qb, strm, h⟩ := issued_frame k b token outs more
  rw [h]

/-- The continuation that issues, before the updates of its own. -/
theorem issuing_cont (s : State) (i : Instr) (o : Out) :
    ((s.issuing i o).cores[s.focus]).cont = s.now.issued (Bundle.single i) s.landed.nextId [((slotOf i, i), o)] [] := by
  rw [State.issuing, apply_core_cores, vset_same]
  rfl

/-- A window's entry replaced reads back. -/
@[simp] theorem entry_setEntry (k : Cont) (w : Byte) (f : BEntry → BEntry) : (k.setEntry w f).entry w = f (k.entry w) := by
  simp [Cont.entry, Cont.setEntry]

/-! ### `give` -/

/-- A core's number in a scalar: its low byte names it, and its quadrant. -/
theorem coreNumber_fields (dst : Fin 256) :
    bits (BitVec.ofNat 64 dst.val) 8 56 = 0 ∧ (bits (BitVec.ofNat 64 dst.val) 4 4).toNat = dst.val / 16 ∧
      fin 255 (bits (BitVec.ofNat 64 dst.val) 0 8).toNat = dst := by
  have hdst := dst.isLt
  refine ⟨BitVec.eq_of_toNat_eq ?_, ?_, Fin.ext ?_⟩
  · simp [toNat_bits]; omega
  · simp [toNat_bits]; omega
  · simp [toNat_bits, fin]

/-- What a `give` of window `w`, which holds bank `b`, to window `wd` of core `dst` does (R166, R167 step 1). -/
def giveActs (e : Env) (w wd : Byte) (f : Fin 32) (fe : Bool) (dst : Fin 256) (b : Fin 4096) : List Act :=
  [.bank b fun x => { x with ts := e.k.ts, transit := some (.give e.c dst wd f fe e.k.cid (e.x.clk + 2) e.x.acquired) },
   .cont e.c fun k => ({ k with give := some (w, dst) }.loseBank b).setEntry w fun x => { x with v := false, opened := false },
   .core e.c fun x => { x with keep := x.keep.map fun k => k.dropBank e.c b }]

/-- A `give` of a valid window to a core of the quadrant (R166). -/
theorem effGive_of_quad {w wd : Byte} {core : Spec} {f : Fin 32} {fe : Bool} {e : Env} {dst : Fin 256}
    (hcore : e.k.scalar core = BitVec.ofNat 64 dst.val) (hquad : dst.val / 16 = e.c.val / 16) (hvalid : (e.k.entry w).v = true) :
    effGive w core wd f fe e = .ok { last := giveActs e w wd f fe dst (bankOf e.c (e.k.entry w).bank) } := by
  obtain ⟨hhigh, hnib, hdst⟩ := coreNumber_fields dst
  simp only [effGive, hcore, hhigh, hnib, hquad, hdst, hvalid, ne_eq, not_true_eq_false, or_self, if_false, Bool.not_true,
    Bool.false_eq_true]
  rfl

/-- After a `give`, its bank is in transit under the giver's TS, and its window is invalid, closed and named as given. -/
theorem giveActs_leaves (e : Env) (w wd : Byte) (f : Fin 32) (fe : Bool) (dst : Fin 256) (b : Fin 4096) (t : State) :
    let t' := applyActs t (giveActs e w wd f fe dst b)
    let k := (t'.cores[e.c]).cont
    ((t'.banks[b]).transit = some (.give e.c dst wd f fe e.k.cid (e.x.clk + 2) e.x.acquired) ∧ (t'.banks[b]).ts = e.k.ts) ∧
      (k.entry w).v = false ∧ (k.entry w).opened = false ∧ k.give = some (w, dst) := by
  simp only [giveActs, applyActs_cons, applyActs_nil, apply_core_cores, apply_core_banks, vset_same, entry_setEntry, Act.cont,
    apply_bank_banks, true_and]
  rfl

/-- An update of the window's entry of the continuation that issues, once it has committed. -/
theorem entry_done_setEntry {s : State} {i : Instr} (f : BEntry → BEntry) (w : Byte) (hu : usesEngine (opsOf i) = false) :
    (((s.done i { acts := [.cont s.focus fun k => k.setEntry w f] }).cores[s.focus]).cont).entry w = f (s.now.entry w) := by
  rw [(done_own hu).2, List.append_nil, applyActs_cons, applyActs_nil, cont_apply_cont, entry_setEntry, issuing_cont, entry_issued]

/-! ### `fuse` -/

/-- CSTAT.FUSED as it is written (R67). -/
theorem fused_cSetFused (x : W64) (b : Bool) : (cSetFused x b).getLsbD 3 = b := by
  rw [cSetFused, getLsbD_setBits _ _ _ (by omega)]
  cases b <;> rfl

/-- After updates of continuations that all leave one gang, a core that is among them, or was in that gang, is in it. -/
theorem fused_applyActs_conts {f : Fin 256 → Cont → Cont} {g : Option Fused} (hf : ∀ o k, (f o k).fused = g) {c : Fin 256}
    (os : List (Fin 256)) {t : State} (h : (t.cores[c]).cont.fused = g ∨ c ∈ os) :
    ((applyActs t (os.map fun o => .cont o (f o))).cores[c]).cont.fused = g := by
  induction os generalizing t with
  | nil => exact h.resolve_right List.not_mem_nil
  | cons o os ih =>
    refine ih ?_
    by_cases ho : c = o
    · subst ho
      exact .inl ((congrArg Cont.fused (cont_apply_cont c (f c) t)).trans (hf c _))
    · exact h.imp (fun h => by rwa [cores_apply_cont_other ho]) fun h => (List.mem_cons.mp h).resolve_left ho

/-- A continuation of no gang: in none, and CSTAT says so (R260). -/
def Cont.unfused (k : Cont) : Prop := k.fused = none ∧ k.cstat.getLsbD 3 = false

/-- A member's leaving makes no other core a member. -/
theorem unfused_without {k : Cont} (h : k.unfused) (left : BitVec 4) (alone : Bool) : (k.without left alone).unfused := by
  cases alone with
  | true => exact ⟨rfl, fused_cSetFused _ _⟩
  | false => exact ⟨by simp [Cont.without, h.1], h.2⟩

/-- A core of no gang stays so while a member leaves other gangs. -/
theorem unfused_applyActs_without (left : BitVec 4) (alone : Bool) {c : Fin 256} (os : List (Fin 256)) {t : State}
    (h : (t.cores[c]).cont.unfused) :
    ((applyActs t (os.map fun o => .core o fun x =>
      { x with cont := x.cont.without left alone, keep := x.keep.map fun k => k.without left alone })).cores[c]).cont.unfused := by
  induction os generalizing t with
  | nil => exact h
  | cons o os ih =>
    refine ih ?_
    by_cases ho : c = o
    · subst ho
      rw [apply_core_cores, vset_same]
      exact unfused_without h left alone
    · rw [apply_core_cores, vset_other _ _ _ _ ho]
      exact h

/-- A `fuse` that its checks pass names this core, and no other gang than the one that this core is in (R260). -/
theorem of_fuseBad_false {s : State} {c : Fin 256} {k : Cont} {m : BitVec 4} (hm : m ≠ 0) (h : fuseBad s c k m = false) :
    c ∈ memberCores c m ∧ ∀ f, k.fused = some f → f.members = m := by
  simp only [fuseBad, hm, if_false, Bool.or_eq_false_iff, Bool.not_eq_false'] at h
  obtain ⟨⟨⟨-, hmember⟩, hgang⟩, -⟩ := h
  refine ⟨List.contains_iff_mem.mp hmember, fun f hf => ?_⟩
  simp only [hf, Bool.or_eq_false_iff, decide_eq_false_iff_not, not_not] at hgang
  exact hgang.1

/-- Who may leave is a decoupled member (R260). -/
theorem decoupled_of_fuseBad_false {s : State} {c : Fin 256} {k : Cont} (h : fuseBad s c k 0 = false) :
    ∃ f, k.fused = some f := by
  cases hf : k.fused with
  | none => simp [fuseBad, hf] at h
  | some f => exact ⟨f, rfl⟩

/-- The members of a gang join it in one cycle of one clock (R260). -/
def gatherActs (e : Env) (m : BitVec 4) : List Act :=
  if e.k.fused.isSome then [] else (memberCores e.c m).map fun o => .cont o fun k =>
    { k.advanced (latestCycle e.s (memberCores e.c m) - (e.s.cores[o]).cont.acyc) with fused := some ⟨m, true, false, none⟩ }

/-- What joining a gang does (R260). -/
def joinActs (e : Env) (m : BitVec 4) : List Act :=
  gatherActs e m ++ [.cont e.c fun k => { k with fusing := none, cstat := cSetFused k.cstat true }]

/-- A `fuse` with members joins. -/
theorem effFuse_of_join {e : Env} {m : BitVec 4} (hm : m ≠ 0) (h : fuseBad e.s e.c e.k m = false) :
    effFuse m e = .ok { acts := joinActs e m } := by
  simp only [effFuse, h, Bool.false_eq_true, if_false, ne_eq, hm, not_false_eq_true, if_true]
  rfl

/-- What leaving a gang does (R260). -/
def leaveGangActs (c : Fin 256) (f : Fused) : List Act :=
  let left := f.members &&& ~~~(1#4 <<< (c.val % 4))
  let alone := decide ((memberCores c left).length < 2)
  (.cont c fun k => { k with fused := none, cstat := cSetFused k.cstat false }) ::
    (memberCores c left).map fun o => .core o fun x =>
      { x with cont := x.cont.without left alone, keep := x.keep.map fun k => k.without left alone }

/-- A `fuse` of a member with none named leaves. -/
theorem effFuse_of_leave {e : Env} {f : Fused} (hf : e.k.fused = some f) (h : fuseBad e.s e.c e.k 0 = false) :
    effFuse 0 e = .ok { acts := leaveGangActs e.c f } := by
  simp only [effFuse, h, Bool.false_eq_true, if_false, ne_eq, not_true_eq_false, hf]
  rfl

/-- After the members have joined, the core is in the gang: in the one in which it was already, as it was. -/
theorem gatherActs_leaves {e : Env} {m : BitVec 4} {t : State} (hmember : e.c ∈ memberCores e.c m)
    (hsame : (t.cores[e.c]).cont.fused = e.k.fused) :
    ((applyActs t (gatherActs e m)).cores[e.c]).cont.fused = e.k.fused.or (some ⟨m, true, false, none⟩) := by
  unfold gatherActs
  cases hf : e.k.fused with
  | none =>
    refine fused_applyActs_conts (f := fun o k =>
      { k.advanced (latestCycle e.s (memberCores e.c m) - (e.s.cores[o]).cont.acyc) with fused := some ⟨m, true, false, none⟩ })
      (fun _ _ => rfl) _ (.inr hmember)
  | some f => exact hsame.trans hf

/-- After joining, the core is in the gang, and CSTAT says so. -/
theorem joinActs_leaves {e : Env} {m : BitVec 4} {t : State} (hmember : e.c ∈ memberCores e.c m)
    (hsame : (t.cores[e.c]).cont.fused = e.k.fused) :
    let k := ((applyActs t (joinActs e m)).cores[e.c]).cont
    k.fused = e.k.fused.or (some ⟨m, true, false, none⟩) ∧ k.cstat.getLsbD 3 = true := by
  rw [joinActs, applyActs_append, applyActs_cons, applyActs_nil, cont_apply_cont]
  exact ⟨gatherActs_leaves hmember hsame, fused_cSetFused _ _⟩

/-- After leaving, the core is in no gang, and CSTAT says so. -/
theorem leaveGangActs_leaves (c : Fin 256) (f : Fused) (t : State) :
    ((applyActs t (leaveGangActs c f)).cores[c]).cont.unfused := by
  refine unfused_applyActs_without _ _ _ ?_
  rw [cont_apply_cont]
  exact ⟨rfl, fused_cSetFused _ _⟩

/-- Settles O27: the updates of each instruction, on the bank and on the continuation that issues. -/
theorem handOverAndGangs : Obligations.HandOverAndGangs := by
  unfold Obligations.HandOverAndGangs
  constructor
  · intro s g w wd core f fe dst b
    refine ⟨?_, ?_, ?_⟩
    · rintro i rfl h hcore hquad hvalid
      let e := s.env (.give g w core wd f fe)
      let o : Out := { last := giveActs e w wd f fe dst b }
      have hexec : exec (.give g w core wd f fe) s = .next (s.done (.give g w core wd f fe) o) :=
        h.exec_of_eff rfl rfl (effGive_of_quad hcore hquad hvalid)
      obtain ⟨⟨htransit, hts⟩, -⟩ := giveActs_leaves e w wd f fe dst b s
      obtain ⟨-, hwindow⟩ := giveActs_leaves e w wd f fe dst b (s.issuing (.give g w core wd f fe) o)
      refine ⟨_, e.x.clk + 2, hexec, ?_⟩
      rw [(done_own rfl).1, (done_own rfl).2]
      exact ⟨htransit, hts, hwindow⟩
    · rintro i rfl h
      have hentry := entry_done_setEntry (s := s) (i := .openw g w) (fun x => { x with opened := true }) w rfl
      exact ⟨_, h.exec_of_eff rfl rfl rfl, congrArg BEntry.opened hentry, (congrArg BEntry.v hentry).trans rfl⟩
    · rintro i rfl h
      have hentry := entry_done_setEntry (s := s) (i := .closew g w) (fun x => { x with opened := false }) w rfl
      exact ⟨_, h.exec_of_eff rfl rfl rfl, congrArg BEntry.opened hentry, (congrArg BEntry.v hentry).trans rfl⟩
  · intro s g m i h hgood
    by_cases hm : m = 0
    · subst hm
      obtain ⟨f, hf⟩ := decoupled_of_fuseBad_false hgood
      refine ⟨_, h.exec_of_eff rfl rfl (effFuse_of_leave hf hgood), fun hne => absurd rfl hne, fun _ => ?_⟩
      rw [(done_own rfl).2, List.append_nil]
      exact leaveGangActs_leaves s.focus f _
    · obtain ⟨hmember, hgang⟩ := of_fuseBad_false hm hgood
      refine ⟨_, h.exec_of_eff rfl rfl (effFuse_of_join hm hgood), fun _ => ?_, fun hz => absurd hz hm⟩
      rw [(done_own rfl).2, List.append_nil]
      have hsame : ((s.issuing i { acts := joinActs (s.env i) m }).cores[s.focus]).cont.fused = s.now.fused := by
        rw [issuing_cont, fused_issued]
      obtain ⟨hfused, hcstat⟩ := joinActs_leaves (e := s.env i) hmember hsame
      refine ⟨?_, hcstat⟩
      rw [show (s.env i).k.fused = s.now.fused from rfl] at hfused
      cases hf : s.now.fused with
      | none => exact ⟨_, hfused.trans (by rw [hf]; rfl), rfl, fun _ => rfl⟩
      | some f => exact ⟨f, hfused.trans (by rw [hf]; rfl), hgang f hf, fun hn => by cases hn⟩

end Sys2Proof.Machine
end

section
/-! SUPPORT. What a list of updates keeps: a part of the state that none of them changes is as it was. -/

namespace Sys2Proof.Machine

/-- None of the updates changes `π`. -/
def Keeps {α : Type} (π : State → α) (acts : List Act) : Prop := ∀ a ∈ acts, ∀ s, π (a.apply s) = π s

section
variable {α : Type} {π : State → α}

@[simp] theorem keeps_nil : Keeps π [] := by simp [Keeps]

@[simp] theorem keeps_cons (a : Act) (xs : List Act) : Keeps π (a :: xs) ↔ (∀ s, π (a.apply s) = π s) ∧ Keeps π xs :=
  List.forall_mem_cons

@[simp] theorem keeps_append (xs ys : List Act) : Keeps π (xs ++ ys) ↔ Keeps π xs ∧ Keeps π ys := List.forall_mem_append

@[simp] theorem keeps_map {β : Type} (f : β → Act) (xs : List β) :
    Keeps π (xs.map f) ↔ ∀ x ∈ xs, ∀ s, π ((f x).apply s) = π s := List.forall_mem_map

@[simp] theorem keeps_flatMap {β : Type} (f : β → List Act) (xs : List β) :
    Keeps π (xs.flatMap f) ↔ ∀ x ∈ xs, Keeps π (f x) := by
  simp only [Keeps, List.mem_flatMap, forall_exists_index, and_imp]
  exact ⟨fun h x hx a ha => h a x hx ha, fun h a x hx ha => h x hx a ha⟩

/-- What no update changes is as it was after all of them. -/
theorem applyActs_keeps {acts : List Act} (h : Keeps π acts) (s : State) : π (applyActs s acts) = π s := by
  induction acts generalizing s with
  | nil => rfl
  | cons a acts ih =>
    obtain ⟨ha, hrest⟩ := (keeps_cons a acts).mp h
    exact (ih hrest (a.apply s)).trans (ha s)

end

/-- What a write tells monitors and parks leaves memory, its empty words and banks. -/
theorem hits_leave (b : Fin 4096) (lo n : Nat) :
    Keeps State.mem (monitorActs b lo n ++ parkActs b lo n) ∧ Keeps State.empties (monitorActs b lo n ++ parkActs b lo n) ∧
      Keeps State.banks (monitorActs b lo n ++ parkActs b lo n) := by
  simp [monitorActs, parkActs, Act.cont]

end Sys2Proof.Machine
end

section
/-! SUPPORT. The owner port (R141, R146, R149, R152): a beat, an access that performs, and load data that arrives. -/

namespace Sys2Proof.Machine

/-! ### A beat -/

/-- A bank of which access `a` takes a beat in cycle `t`. -/
def BankSt.beaten (x : BankSt) (a : Access) (t : Nat) : BankSt :=
  { x with clear := t + 1, q := x.q.map fun y => if y.id = a.id then { y with beats := y.beats - 1 } else y }

/-- A bank of which access `a` takes a beat in cycle `t` and is parked. -/
def BankSt.parks (x : BankSt) (a : Access) (t : Nat) : BankSt :=
  { x with clear := t + 1, q := x.q.map fun y => if y.id = a.id then { y with parked := true } else y }

/-- The load of access `a` has begun. -/
def Access.begins (a : Access) : Act :=
  .byCid a.core a.cid fun k => { k with loads := k.loads.map fun r => if r.id = a.id then { r with begun := true } else r }

/-- A bank's queue without access `a`. -/
def BankSt.without (x : BankSt) (a : Access) : BankSt := { x with q := x.q.filter fun y => !(y.id == a.id) }

/-- The access is gone from the queue. -/
theorem id_ne_of_mem_without {x : BankSt} {a y : Access} (h : y ∈ (x.without a).q) : y.id ≠ a.id := by
  simpa using (List.mem_filter.mp h).2

section
variable {s : State} {b : Fin 4096} {a : Access}
  (hfirst : (s.banks[b]).q.find? (fun y => !y.parked && !(y.blocked s b)) = some a)
include hfirst

/-- A first access with beats left takes one. -/
theorem ownerBeat_of_more (hmore : 1 < a.beats) :
    ownerBeat s b = [.bank b (·.beaten a (max a.earliest (s.banks[b]).clear)), a.begins] := by
  simp only [ownerBeat, hfirst, hmore, if_true]
  rfl

/-- A first access at its last beat performs, a full/empty load where its word is full. -/
theorem ownerBeat_of_last (hlast : a.beats ≤ 1) (hfull : (a.op == .lde || a.op == .ldf) = true → s.full (a.word b) = true) :
    ownerBeat s b = .bank b (·.beaten a (max a.earliest (s.banks[b]).clear)) :: a.begins ::
      performAct s b a (max a.earliest (s.banks[b]).clear) := by
  have hgo : ((a.op == .lde || a.op == .ldf) && !(s.full (a.word b))) = false := by
    cases h : (a.op == .lde || a.op == .ldf) with
    | false => rfl
    | true => simp [hfull h]
  simp only [ownerBeat, hfirst, Nat.not_lt.mpr hlast, if_false, hgo, Bool.false_eq_true]
  rfl

/-- A first full/empty load of the seated continuation whose word is empty is parked (R152). -/
theorem ownerBeat_of_empty (hlast : a.beats ≤ 1) (hop : a.op = .lde) (hempty : s.full (a.word b) = false)
    (hseat : (s.cores[a.core]).cont.cid = a.cid) (hload : ∃ l ∈ (s.cores[a.core]).cont.loads, l.id = a.id) :
    ownerBeat s b = [.bank b (·.parks a (max a.earliest (s.banks[b]).clear)), a.begins] := by
  have hmine : ((s.cores[a.core]).cont.cid == a.cid &&
      (s.cores[a.core]).cont.loads.any fun r => decide (r.id = a.id)) = true := by
    simp only [hseat, beq_self_eq_true, Bool.true_and, List.any_eq_true, decide_eq_true_eq]
    exact hload
  simp only [ownerBeat, hfirst, Nat.not_lt.mpr hlast, if_false, hop, hempty, hmine, if_true, beq_self_eq_true, Bool.true_or,
    Bool.true_and, Bool.not_false]
  rfl

end

/-! ### An access that performs -/

/-- Telling a core that an access has performed leaves the rest of the machine. -/
theorem apply_performedAct (a : Access) (b : Fin 4096) (t : State) :
    ((performedAct a b).apply t).mem = t.mem ∧ ((performedAct a b).apply t).empties = t.empties ∧
      ((performedAct a b).apply t).banks = t.banks := ⟨rfl, rfl, rfl⟩

/-- Giving bytes to a load leaves the rest of the machine. -/
theorem apply_giveBytes (a : Access) (bytes : List Byte) (n : Nat) (bad : Option (BitVec 24)) (t : State) :
    ((giveBytes a bytes n bad).apply t).mem = t.mem ∧ ((giveBytes a bytes n bad).apply t).empties = t.empties ∧
      ((giveBytes a bytes n bad).apply t).banks = t.banks := ⟨rfl, rfl, rfl⟩

/-- A store that performs writes its bytes and leaves the queue (R148, R149). -/
theorem performAct_of_store {s : State} {b : Fin 4096} {a : Access} {data : List (Nat × Byte)} (hop : a.op = .store data)
    (t : Nat) : performAct s b a t = scatterActs b data ++ [performedAct a b, .bank b (·.without a)] := by
  simp only [performAct, hop]
  rfl

/-- An `lde` that performs gives its word, empties it and leaves the queue (R151). -/
theorem performAct_of_lde {s : State} {b : Fin 4096} {a : Access} (hop : a.op = .lde) (t : Nat) :
    performAct s b a t =
      [giveBytes a (a.bytes s.mem b) t ((poisonIn s.poisoned (bankPa b a.off) a.len).map (poisonWin a b)), .empty (a.word b) true] ++
        ((monitorActs b a.off 4 ++ parkActs b a.off 4) ++ [performedAct a b, .bank b (·.without a)]) := by
  simp only [performAct, hop, List.append_assoc]
  rfl

/-- Scattered bytes, written in order, change memory by themselves alone, and no bank. -/
theorem scatterActs_leaves (b : Fin 4096) (data : List (Nat × Byte)) (t : State) :
    (applyActs t (scatterActs b data)).mem = data.foldl (fun m d => memPut m (bankPa b d.1) d.2) t.mem ∧
      (applyActs t (scatterActs b data)).banks = t.banks := by
  have hbytes : (applyActs t (data.map fun d => Act.byte (bankPa b d.1) d.2)).mem =
      data.foldl (fun m d => memPut m (bankPa b d.1) d.2) t.mem := by
    have := mem_applyActs_bytes (data.map fun d => (bankPa b d.1, d.2)) t
    simpa [putBytes, List.map_map, List.foldl_map, Function.comp_def] using this
  have hmem (xs : List Nat) : Keeps State.mem
      (xs.map (fun x => .sector x false) ++ (wordsOf data).flatMap fun w => monitorActs b w 4 ++ parkActs b w 4) :=
    (keeps_append _ _).mpr ⟨by simp, (keeps_flatMap _ _).mpr fun w _ => (hits_leave b w 4).1⟩
  have hbanks (xs : List Nat) : Keeps State.banks (data.map (fun d => Act.byte (bankPa b d.1) d.2) ++
      (xs.map (fun x => .sector x false) ++ (wordsOf data).flatMap fun w => monitorActs b w 4 ++ parkActs b w 4)) :=
    (keeps_append _ _).mpr ⟨by simp, (keeps_append _ _).mpr ⟨by simp, (keeps_flatMap _ _).mpr fun w _ => (hits_leave b w 4).2.2⟩⟩
  unfold scatterActs
  extract_lets lo hi n inside
  rw [List.append_assoc]
  exact ⟨by rw [applyActs_append, applyActs_keeps (hmem _), hbytes], applyActs_keeps (hbanks _) t⟩

/-- After a store has performed: its bytes are in memory, and its bank's queue is without it. -/
theorem performAct_store_leaves {b : Fin 4096} {a : Access} {data : List (Nat × Byte)} (hop : a.op = .store data)
    (s : State) (n : Nat) (t : State) :
    (applyActs t (performAct s b a n)).mem = data.foldl (fun m d => memPut m (bankPa b d.1) d.2) t.mem ∧
      (applyActs t (performAct s b a n)).banks[b] = (t.banks[b]).without a := by
  obtain ⟨hmem, hbanks⟩ := scatterActs_leaves b data t
  rw [performAct_of_store hop, applyActs_append, applyActs_cons, applyActs_cons, applyActs_nil, apply_bank_banks, vset_same,
    performedAct, Act.byCid, apply_core_banks, hbanks]
  exact ⟨hmem, rfl⟩

/-- After an `lde` has performed: its word is empty, memory is as before, and its bank's queue is without it. -/
theorem performAct_lde_leaves {b : Fin 4096} {a : Access} (hop : a.op = .lde) (s : State) (n : Nat) (t : State) :
    let t' := applyActs t (performAct s b a n)
    t'.empties = setIns t.empties (a.word b) ∧ t'.mem = t.mem ∧ t'.banks[b] = (t.banks[b]).without a := by
  obtain ⟨hmem, hempties, hbanks⟩ := hits_leave b a.off 4
  rw [performAct_of_lde hop, applyActs_append, applyActs_append (xs := monitorActs b a.off 4 ++ parkActs b a.off 4)]
  simp only [applyActs_cons, applyActs_nil, apply_bank_empties, apply_bank_mem, apply_bank_banks, vset_same, apply_performedAct,
    applyActs_keeps hmem, applyActs_keeps hempties, applyActs_keeps hbanks, apply_empty_empties, apply_empty_mem,
    apply_empty_banks, apply_giveBytes, if_true, and_self]

/-! ### Load data -/

/-- A load's entry, once filled, is valid and holds its data. -/
theorem fillEntry_filled (r : LoadRec) (q : List QEntry) :
    ∀ z ∈ fillEntry r q, z.id = r.id → z.valid = true ∧ z.data = loadValue r ∧ z.poison = r.poison := by
  intro z hz hid
  obtain ⟨x, -, rfl⟩ := List.mem_map.mp hz
  by_cases hx : x.id = r.id
  · simp only [hx, if_true]
    exact ⟨trivial, trivial, trivial⟩
  · rw [if_neg hx] at hid
    exact absurd hid hx

/-- A load that gives its data is no longer in flight. -/
theorem deliver_loads (k : Cont) (r : LoadRec) : ∀ l ∈ (k.deliver r false).loads, l.id ≠ r.id := by
  intro l hl
  have hloads : (k.deliver r false).loads = k.loads.filter fun x => !(x.id == r.id) := by
    unfold Cont.deliver
    cases r.dest <;> rfl
  rw [hloads, List.mem_filter] at hl
  simpa using hl.2

/-- A queue's load fills its entry (R146). -/
theorem deliver_queues (k : Cont) (r : LoadRec) :
    ((∃ sx, r.dest = .qs sx) → (k.deliver r false).qs = fillEntry r k.qs) ∧
      (r.dest = .qa → (k.deliver r false).qa = fillEntry r k.qa) ∧ (r.dest = .qb → (k.deliver r false).qb = fillEntry r k.qb) := by
  refine ⟨fun ⟨sx, h⟩ => ?_, fun h => ?_, fun h => ?_⟩ <;> simp only [Cont.deliver, h]

/-- A descriptor half's load writes that half, poisoned or clean (R146). -/
theorem deliver_desc {k : Cont} {r : LoadRec} {d : Fin 32} {hi : Bool} (h : r.dest = .desc d hi) :
    bits ((k.deliver r false).t[d]) (if hi then 128 else 0) 128 = bits (loadValue r) 0 128 ∧
      (k.deliver r false).tpoison.getLsbD (2 * d.val + hi.toNat) = r.poison.isSome := by
  simp only [Cont.deliver, h, Bool.false_eq_true, if_false, Cont.halfPoison, Cont.put, vset_same]
  constructor
  · exact bits_setBits_same _ _ _ (by cases hi <;> decide)
  · rw [getLsbD_setBits _ _ _ (by cases hi <;> simp <;> omega)]
    simp [bit]

/-! ### The obligation -/

/-- The start of a load leaves memory, its empty words and banks. -/
theorem apply_begins (a : Access) (t : State) :
    (a.begins.apply t).mem = t.mem ∧ (a.begins.apply t).empties = t.empties ∧ (a.begins.apply t).banks = t.banks :=
  ⟨rfl, rfl, rfl⟩

/-- An access stays in a queue in which it alone, by its name, is changed. -/
theorem mem_map_of_id {q : List Access} {a : Access} (f : Access → Access) (h : a ∈ q) :
    f a ∈ q.map fun y => if y.id = a.id then f y else y :=
  List.mem_map.mpr ⟨a, h, if_pos rfl⟩

/-- The event of a core whose first load that is due gives its data. -/
theorem exec_loadDataValid {s : State} {c : Fin 256} {r : LoadRec}
    (h : (s.cores[c]).cont.loads.find? (fun l => l.due (s.cores[c]).clk) = some r) :
    exec (.loadDataValid c) s = .next ((Act.cont c fun k => k.deliver r false).apply s) := by
  show perform s (loadValid s c) = _
  simp only [loadValid, h]
  rfl

/-- Settles O34: a beat by what is left of the access, a parked load by its word, load data by its destination. -/
theorem ownerPort : Obligations.OwnerPort := by
  unfold Obligations.OwnerPort
  intro s b a c r t0 w gone
  have hgone {t : State} {x : BankSt} (h : t.banks[b] = x.without a) : gone t := fun y hy => by
    rw [h] at hy
    exact id_ne_of_mem_without hy
  refine ⟨fun hfirst => ⟨fun hmore => ?_, fun hlast data hop => ?_, fun hlast hop hfull => ?_,
    fun hlast hop hempty hseat hload => ?_⟩, fun hparked hop => ?_, fun hdue => ?_⟩
  · refine ⟨applyActs s (ownerBeat s b), rfl, ?_⟩
    simp only [ownerBeat_of_more hfirst hmore, applyActs_cons, applyActs_nil, apply_begins, apply_bank_banks, apply_bank_mem, vset_same]
    exact ⟨rfl, trivial, mem_map_of_id (fun y => { y with beats := y.beats - 1 }) (List.mem_of_find?_eq_some hfirst)⟩
  · refine ⟨applyActs s (ownerBeat s b), rfl, ?_⟩
    rw [ownerBeat_of_last hfirst hlast (by simp [hop]), applyActs_cons, applyActs_cons]
    obtain ⟨hmem, hbanks⟩ := performAct_store_leaves hop s t0 (a.begins.apply ((Act.bank b (·.beaten a t0)).apply s))
    rw [(apply_begins _ _).2.2, apply_bank_banks, vset_same] at hbanks
    exact ⟨congrArg BankSt.clear hbanks, hmem, hgone hbanks⟩
  · refine ⟨applyActs s (ownerBeat s b), rfl, ?_⟩
    have hword : s.full (a.word b) = true := by simpa [State.full, Access.word] using hfull
    rw [ownerBeat_of_last hfirst hlast fun _ => hword, applyActs_cons, applyActs_cons]
    obtain ⟨hempties, hmem, hbanks⟩ := performAct_lde_leaves hop s t0 (a.begins.apply ((Act.bank b (·.beaten a t0)).apply s))
    exact ⟨hempties, hmem, hgone hbanks⟩
  · refine ⟨applyActs s (ownerBeat s b), rfl, ?_⟩
    have hword : s.full (a.word b) = false := by simpa [State.full, Access.word] using hempty
    simp only [ownerBeat_of_empty hfirst hlast hop hword hseat hload, applyActs_cons, applyActs_nil, apply_begins, apply_bank_banks,
      apply_bank_empties, vset_same, true_and]
    exact mem_map_of_id (fun y => { y with parked := true }) (List.mem_of_find?_eq_some hfirst)
  · have hacts : parkSatisfied s b = performAct s b a (max a.earliest s.clock) := by simp only [parkSatisfied, hparked]
    obtain ⟨hempties, -, hbanks⟩ := performAct_lde_leaves hop s (max a.earliest s.clock) s
    exact ⟨applyActs s (parkSatisfied s b), rfl, hacts ▸ hempties, hgone (hacts ▸ hbanks)⟩
  · refine ⟨_, exec_loadDataValid hdue, ?_⟩
    rw [Act.cont, apply_core_cores, vset_same]
    obtain ⟨hqs, hqa, hqb⟩ := deliver_queues (s.cores[c]).cont r
    refine ⟨⟨fun h => ?_, fun h => ?_, fun h => ?_⟩, fun d hi h => deliver_desc h, deliver_loads _ r⟩
    · exact (hqs h).symm ▸ fillEntry_filled r _
    · exact (hqa h).symm ▸ fillEntry_filled r _
    · exact (hqb h).symm ▸ fillEntry_filled r _

end Sys2Proof.Machine
end

section
/-! SUPPORT. Arrivals of flags, barriers and circuits (R251, R257, R266). -/

namespace Sys2Proof.Machine

/-! ### A release and its flag (R251, R252) -/

/-- The sum of a flag and an increment, clamped. -/
theorem toNat_bump (f : Half) (n : Nat) : ((bump f n).1).toNat = min (f.toNat + n) 0xFFFF := by
  have hf := f.isLt
  unfold bump
  split
  · next h =>
    have hn : n < 2 ^ 16 := by omega
    rw [BitVec.toNat_add, BitVec.toNat_ofNat, Nat.mod_eq_of_lt hn, Nat.mod_eq_of_lt (by omega), min_eq_left h]
  · next h => rw [min_eq_right (by omega)]; rfl

/-- An increment at a core that runs goes to the seated continuation's flag. -/
theorem bumpFlag_of_running {x : CoreSt} (h : x.phase = .running) (i : Fin 32) (n : Nat) :
    ((x.bumpFlag i n).cont.f[i]).toNat = min ((x.cont.f[i]).toNat + n) 0xFFFF := by
  have hflag : (x.bumpFlag i n).cont.f[i] = (bump x.cont.f[i] n).1 := by
    simp only [CoreSt.bumpFlag, h, Cont.bumpFlag, vset_same]
  rw [hflag, toNat_bump]

/-- An increment that no park has taken over reaches the core. -/
theorem deliverFlag_of_unparked {s : State} {c : Fin 256} {i : Fin 32} {n : Nat}
    (h : ∀ p ∈ (s.quads[quadOf c]).parks, p.holds c i = false) : deliverFlag s c i n = [.core c fun x => x.bumpFlag i n] := by
  have hnone : ((s.quads[quadOf c]).parks.any fun p => p.holds c i) = false := by simpa using h
  simp only [deliverFlag, hnone, Bool.false_eq_true, if_false]

/-- A release that is ready and that no earlier one of its core to the same core precedes is delivered and gone. -/
theorem flagArrival_of_ready {s : State} {i : Nat} {r : Release} {d : Fin 256} {f : Fin 32} {n : Nat}
    (hr : s.releases[i]? = some r) (hflag : r.deliver = .flag d f n) (hready : r.ready? s = true)
    (hfirst : r.engine = true ∨ ∀ k o, k < i → s.releases[k]? = some o →
      o.engine = true ∨ o.src ≠ r.src ∨ o.deliver.target ≠ some d) :
    flagArrival s i = deliverFlag s d f n ++ [.releases fun rs => rs.filter fun o => !(o.id == r.id)] := by
  have hbefore : (!r.engine && (s.releases.take i).any fun o =>
      !o.engine && o.src == r.src && o.deliver.target == some d) = false := by
    rcases hfirst with heng | hfirst
    · simp [heng]
    · rw [Bool.and_eq_false_iff]
      refine .inr (List.any_eq_false.mpr fun o ho => ?_)
      obtain ⟨k, hk, hko⟩ := List.mem_take_iff_getElem.mp ho
      have := hfirst k o (by omega) (hko ▸ List.getElem?_eq_getElem (by omega))
      simp only [Bool.and_eq_true, Bool.not_eq_true', beq_iff_eq, not_and]
      rintro heng hsrc
      simp only [heng, hsrc, Bool.false_eq_true, ne_eq, not_true_eq_false, false_or] at this
  simp only [flagArrival, hr, hflag, hready, hbefore, Bool.not_false, Bool.and_self, if_true]

/-! ### A barrier (R257) -/

/-- An arrival that completes a barrier clears it and moves its generation on. -/
theorem arrive_of_last {b : Barrier} {c : Fin 256} (h : ∀ m ∈ b.members, m = c ∨ m ∈ b.arrived) :
    b.arrive c = { b with arrived := [], gen := b.gen + 1 } := by
  have hall : (b.members.all fun m => (b.arrived ++ [c]).contains m) = true := by
    simp only [List.all_eq_true, List.contains_iff_mem, List.mem_append, List.mem_singleton]
    exact fun m hm => (h m hm).symm
  simp only [Barrier.arrive, hall, if_true]

/-- An arrival before another member's is noted. -/
theorem arrive_of_missing {b : Barrier} {c : Fin 256} (h : ∃ m ∈ b.members, m ≠ c ∧ m ∉ b.arrived) :
    b.arrive c = { b with arrived := b.arrived ++ [c] } := by
  have hall : (b.members.all fun m => (b.arrived ++ [c]).contains m) = false := by
    obtain ⟨m, hm, hc, ha⟩ := h
    rw [List.all_eq_false]
    exact ⟨m, hm, by simp [hc, ha]⟩
  simp only [Barrier.arrive, hall, Bool.false_eq_true, if_false]

/-- A member that presents a `bar`, and what it must wait for has performed, arrives and notes the generation. -/
theorem barArrive_of_presented {s : State} {c : Fin 256} {mask : Half} {bar : Barrier}
    (hwait : (s.cores[c]).cont.barWait = some mask) (hnone : (s.cores[c]).cont.barrier = none)
    (hbar : barrierOf s (s.cores[c]).cont = some bar) (hrun : (s.cores[c]).phase = .running) (hneeds : (s.cores[c]).needs mask = [])
    (hnew : bar.arrived.contains c = false) :
    barArrive s c = [.barriers fun bs => bs.map fun o => if o.team = bar.team then o.arrive c else o,
      .cont c fun k => { k with barrier := some bar.gen, barWait := none }] := by
  simp only [barArrive, hwait, hnone, hbar, hrun, hneeds, hnew, beq_self_eq_true, List.isEmpty_nil, Bool.not_false, Bool.and_self,
    if_true]

/-- A continuation's barrier is one of the machine. -/
theorem mem_of_barrierOf {s : State} {k : Cont} {bar : Barrier} (h : barrierOf s k = some bar) : bar ∈ s.barriers := by
  unfold barrierOf at h
  split at h
  · cases h
  · exact List.mem_of_find?_eq_some h

/-! ### Circuits (R266) -/

/-- A core of a quadrant, by its index there. -/
theorem quadCore_of_quad {c d : Fin 256} (h : c.val / 16 = d.val / 16) : quadCore (quadOf c) (quadIx d) = d := by
  apply Fin.ext
  simp only [quadCore, quadOf, quadIx, fin, Fin.val_ofNat]
  omega

/-- The header of a value that stands in the send buffer, its receive entry free, goes in its slot's phase. -/
theorem headerDue_of_full {s : State} {c d : Fin 256} {v : VReg} {k : Nat} (hquad : c.val / 16 = d.val / 16)
    (hsend : (s.cores[c]).cont.send[quadIx d] = some v) (hc : (s.cores[c]).phase = .running) (hd : (s.cores[d]).phase = .running)
    (hfree : (s.cores[d]).cont.recv[quadIx c] = none)
    (hpath : ∀ o ∈ (s.quads[quadOf c]).moving, ¬ (o.src = quadIx c ∧ o.dst = quadIx d))
    (hslot : pairSlot (s.quads[quadOf c]).slottab (quadIx c) (quadIx d) = some k) :
    headerDue s c (quadIx d) =
      some (headerCycle k (max (s.cores[c]).cont.sendAt[quadIx d] (s.cores[d]).cont.recvAt[quadIx c])) := by
  have hclear : ((s.quads[quadOf c]).moving.any fun t => t.src == quadIx c && t.dst == quadIx d) = false := by
    rw [List.any_eq_false]
    intro o ho
    simpa using hpath o ho
  simp only [headerDue, quadCore_of_quad hquad, hsend, grants, hc, hd, hfree, hclear, hslot, Option.isSome_some, Option.isNone_none,
    Bool.not_false, Bool.and_self, if_true, Option.map_some]

/-- No header goes from an empty send buffer. -/
theorem headerDue_of_empty {s : State} {c : Fin 256} {j : Fin 16} (h : (s.cores[c]).cont.send[j] = none) :
    headerDue s c j = none := by
  simp only [headerDue, h, Option.isSome_none, Bool.false_and, Bool.false_eq_true, if_false]

/-- The one header that is due goes. -/
theorem circuitHeader_of_due {s : State} {c : Fin 256} {j : Fin 16} {v : VReg} {n : Nat}
    (hsend : (s.cores[c]).cont.send[j] = some v) (hothers : ∀ i : Fin 16, i ≠ j → (s.cores[c]).cont.send[i] = none)
    (hdue : headerDue s c j = some n) (hn : n ≤ s.clock) :
    circuitHeader s c = [.quad (quadOf c) fun u => { u with moving := u.moving ++ [⟨quadIx c, j, v, n + 7⟩] },
      .cont c fun k => { k with send := vset k.send j none }] := by
  have hfind : (List.finRange 16).find? (fun i => match headerDue s c i with | some n => decide (n ≤ s.clock) | none => false) =
      some j := by
    rw [List.find?_eq_some_iff_getElem]
    refine ⟨by simp [hdue, hn], j.val, by simp, by simp, fun i hi => ?_⟩
    have hne : (⟨i, by omega⟩ : Fin 16) ≠ j := fun h => by simp [← h] at hi
    have hnone := headerDue_of_empty (hothers _ hne)
    simp [hnone]
  unfold circuitHeader
  dsimp only
  split
  · next h => cases h.symm.trans hfind
  · next d h =>
    cases h.symm.trans hfind
    simp only [hdue, hsend, Option.getD_some]

/-- Data that is in its slot enters the receive entry of a core that runs, and its path is free. -/
theorem circuitData_of_running {s : State} {d : Fin 256} {x : Transfer}
    (hfirst : (s.quads[quadOf d]).moving.find? (fun o => o.dst == quadIx d && decide (o.at_ ≤ s.clock)) = some x)
    (hrun : (s.cores[d]).phase = .running) :
    ((applyActs s (circuitData s d)).cores[d]).cont.recv[x.src] = some x.data ∧
      ((applyActs s (circuitData s d)).quads[quadOf d]).moving = (s.quads[quadOf d]).moving.erase x := by
  have hgrants : grants (s.cores[d]) = true := by simp only [grants, hrun]
  simp only [circuitData, hfirst, applyActs_cons, applyActs_nil, apply_core_cores, apply_core_quads, apply_quad_cores,
    apply_quad_quads, vset_same, hgrants, if_true, and_self]

/-! ### A give that attaches (R167, R278) -/

/-- Forgetting a give of a continuation leaves every core's map. -/
theorem giveDone_keeps_bmap (s : State) (c : Fin 256) (cid : Nat) (d : Fin 256) :
    Keeps (fun t => (t.cores[d]).cont.bmap) (contActs s c cid fun k => { k with give := none }) := by
  rw [contActs, keeps_cons]
  refine ⟨fun t => ?_, by simp [resumeActs]⟩
  rw [Act.byCid, apply_core_cores]
  by_cases h : d = seatOf s c cid
  · rw [h, vset_same]
    dsimp only
    split <;> rfl
  · rw [vset_other _ _ _ _ h]

/-- An update of a continuation changes cores and dies alone. -/
theorem contActs_leaves (s : State) (c : Fin 256) (cid : Nat) (f : Cont → Cont) :
    Keeps State.banks (contActs s c cid f) ∧ Keeps State.releases (contActs s c cid f) := by
  simp [contActs, resumeActs, Act.byCid]

/-- The flag increment of a give that has attached. -/
def giveFlag (s : State) (d : Fin 256) (f : Fin 32) : Release :=
  { id := s.nextId, src := d, needs := [], ready := s.clock + 2, fabric := .unneeded, deliver := .flag d f 1, engine := true }

/-- What follows the attachment of a given bank: the give is over, and the flag is under way if one is asked for. -/
def attachedActs (s : State) (src d : Fin 256) (f : Fin 32) (fe : Bool) (cid : Nat) : List Act :=
  contActs s src cid (fun k => { k with give := none }) ++
    if fe then [.ids 8, .releases fun rs => rs ++ [giveFlag s d f]] else []

/-- What a give does when its bank attaches. -/
def attachActs (s : State) (b : Fin 4096) (src d : Fin 256) (wd : Byte) (f : Fin 32) (fe : Bool) (cid : Nat) : List Act :=
  let att (k : Cont) : Cont := k.setEntry wd fun _ => attached d (bankId b)
  .bank b (fun y => { y with transit := none }) :: .core d (fun y => { y with cont := att y.cont, keep := y.keep.map att }) ::
    attachedActs s src d f fe cid

/-- A bank whose drain is over attaches to an opened, invalid window of a core that runs. -/
theorem giveAttach_of_ready {s : State} {b : Fin 4096} {src d : Fin 256} {wd : Byte} {f : Fin 32} {fe : Bool} {cid at_ : Nat}
    {needs : List Nat} (htransit : (s.banks[b]).transit = some (.give src d wd f fe cid at_ needs))
    (hdrained : drained s b cid = true)
    (hneeds : s.outstanding src needs = false) (hclear : max at_ (s.banks[b]).clear ≤ s.clock) (hrun : (s.cores[d]).phase = .running)
    (hinvalid : ((s.cores[d]).cont.entry wd).v = false) (hopen : ((s.cores[d]).cont.entry wd).opened = true) :
    giveAttach s b = attachActs s b src d wd f fe cid := by
  simp only [giveAttach, htransit, hdrained, hneeds, hclear, hrun, hinvalid, hopen, decide_true, beq_self_eq_true, Bool.not_false,
    Bool.true_or, Bool.and_self, if_true]
  rfl

/-- What follows an attachment leaves banks and the core's map. -/
theorem attachedActs_keep (s : State) (src d : Fin 256) (f : Fin 32) (fe : Bool) (cid : Nat) :
    Keeps State.banks (attachedActs s src d f fe cid) ∧
      Keeps (fun t => (t.cores[d]).cont.bmap) (attachedActs s src d f fe cid) := by
  simp only [attachedActs, keeps_append]
  refine ⟨⟨(contActs_leaves s src cid _).1, ?_⟩, giveDone_keeps_bmap s src cid d, ?_⟩ <;> cases fe <;> simp

/-- The flag, if one is asked for, follows the attachment. -/
theorem attachedActs_releases (s : State) (src d : Fin 256) (f : Fin 32) (fe : Bool) (cid : Nat) (t : State) :
    (applyActs t (attachedActs s src d f fe cid)).releases = t.releases ++ if fe then [giveFlag s d f] else [] := by
  have hkeep := applyActs_keeps (contActs_leaves s src cid fun k => { k with give := none }).2 t
  rw [attachedActs, applyActs_append]
  cases fe with
  | false => simpa using hkeep
  | true => simpa using hkeep

/-- The bank is at rest, its window maps it, and the flag follows. -/
theorem attachActs_attach (s : State) (b : Fin 4096) (src d : Fin 256) (wd : Byte) (f : Fin 32) (fe : Bool) (cid : Nat) :
    let t := applyActs s (attachActs s b src d wd f fe cid)
    (t.banks[b]).transit = none ∧ (t.cores[d]).cont.entry wd = attached d (bankId b) ∧
      t.releases = s.releases ++ if fe then [giveFlag s d f] else [] := by
  obtain ⟨hbanks, hbmap⟩ := attachedActs_keep s src d f fe cid
  rw [attachActs, applyActs_cons, applyActs_cons]
  refine ⟨?_, ?_, attachedActs_releases s src d f fe cid _⟩
  · rw [applyActs_keeps hbanks, apply_core_banks, apply_bank_banks, vset_same]
  · refine (congrArg (·[fin 255 wd.toNat]) (applyActs_keeps hbmap _)).trans ?_
    rw [apply_core_cores, vset_same]
    exact entry_setEntry _ wd _

/-! ### A park's record (R323) -/

/-- DRAM accesses change homes, row logs and reports alone. -/
theorem touchRows_keeps {α : Type} {π : State → α} (hhome : ∀ h f t, π ((Act.home h f).apply t) = π t)
    (hhub : ∀ f t, π ((Act.hub f).apply t) = π t) (hreport : ∀ r t, π ((Act.report r).apply t) = π t) (s : State)
    (xs : List (Fin 512 × Fin 32 × Nat × Nat)) : Keeps π (touchRows s xs) := by
  induction xs generalizing s with
  | nil => exact keeps_nil
  | cons x xs ih =>
    obtain ⟨h, b, r, n⟩ := x
    rw [touchRows, keeps_append]
    refine ⟨?_, ih _⟩
    unfold rowAccess
    split <;> simp [hhome, hhub, hreport]

/-- Requests that interrupt and touch rows change homes, row logs and reports alone. -/
theorem accessRows_keeps {α : Type} {π : State → α} (hhome : ∀ h f t, π ((Act.home h f).apply t) = π t)
    (hhub : ∀ f t, π ((Act.hub f).apply t) = π t) (hreport : ∀ r t, π ((Act.report r).apply t) = π t) (s : State)
    (xs : List (Fin 512 × Fin 32 × Nat × Nat)) : Keeps π (accessRows s xs) := by
  rw [accessRows, keeps_append, keeps_map]
  exact ⟨fun x _ => hhome x.1 _, touchRows_keeps hhome hhub hreport s xs⟩

/-- Monitors that trigger leave the number of parks. -/
theorem hits_keep_parks (q : Fin 16) (b : Fin 4096) (lo n : Nat) :
    Keeps (fun t => ((t.quads[q]).parks).length) (monitorActs b lo n ++ parkActs b lo n) := by
  rw [keeps_append, parkActs, keeps_cons]
  refine ⟨by simp [monitorActs, Act.cont], fun t => ?_, keeps_nil⟩
  rw [apply_quad_quads]
  by_cases h : q = fin 15 (b.val / 256)
  · rw [← h, vset_same, List.length_map]
  · rw [vset_other _ _ _ _ h]

/-- A write leaves the number of parks. -/
theorem writeActs_keep_parks (q : Fin 16) (a : Nat) (bytes : List Byte) :
    Keeps (fun t => ((t.quads[q]).parks).length) (writeActs a bytes) := by
  unfold writeActs
  dsimp only
  rw [keeps_append, keeps_append]
  refine ⟨⟨by simp, by simp⟩, ?_⟩
  split
  · exact hits_keep_parks q _ _ _
  · exact keeps_nil

/-- A record that is appended leaves the number of parks. -/
theorem appendActs_keep_parks (s : State) (q : Fin 16) (to_ : Fin 131072) (r : List Byte) :
    Keeps (fun t => ((t.quads[q]).parks).length) (appendActs s to_ r) := by
  have htouch (t : State) (a n : Nat) : Keeps (fun t => ((t.quads[q]).parks).length) (touchBytes t a n) :=
    accessRows_keeps (by simp) (by simp) (by simp) t _
  simp only [appendActs, wordActs, keeps_append]
  exact ⟨⟨⟨writeActs_keep_parks q _ _, writeActs_keep_parks q _ _⟩, htouch s _ _⟩, htouch _ _ _⟩

/-- What becomes of park `i` of a quadrant when its record is at `slot`. -/
def QuadSt.parkAppended (u : QuadSt) (i : Nat) (flag : Option (Fin 32 × Nat)) (slot : Nat) : QuadSt :=
  { u with parks := match flag with
    | none => u.parks.eraseIdx i
    | some _ => u.parks.modify i fun p => { p with appended := true, slot := slot } }

/-- A park with a flag stays, with the slot of its record. -/
theorem parkAppended_of_flag {u : QuadSt} {i slot : Nat} {flag : Option (Fin 32 × Nat)} (hflag : flag.isSome = true)
    (h : i < u.parks.length) : ∃ o, ((u.parkAppended i flag slot).parks)[i]? = some o ∧ o.appended = true ∧ o.slot = slot := by
  obtain ⟨w, rfl⟩ := Option.isSome_iff_exists.mp hflag
  simp only [QuadSt.parkAppended, List.getElem?_modify_eq, List.getElem?_eq_getElem h]
  exact ⟨_, rfl, rfl, rfl⟩

/-- A released park whose queue accepts its record is appended. -/
theorem parkAppend_of_accepted {s : State} {q : Fin 16} {i : Nat} {p : Park} (hp : (s.quads[q]).parks[i]? = some p)
    (hreleased : p.released = true) (happended : p.appended = false) (hneeds : s.outstanding p.core p.needs = false)
    (hen : (queueAt s p.queue).en = true) (hgrant : aciGrants s (queueAt s p.queue) s.hub.node = true)
    (hfull : (queueAt s p.queue).full = false) :
    parkAppend s q i = appendActs s p.queue (recFor (queueAt s p.queue) p.record) ++
      [.quad q (·.parkAppended i p.flag (queueAt s p.queue).tail)] := by
  simp only [parkAppend, hp, hreleased, happended, hneeds, hen, hgrant, hfull, Bool.not_true, Bool.or_self, Bool.false_eq_true,
    if_false]
  rfl

/-- Settles O35: a release by its readiness, a barrier by the members that lack, a circuit by its slot, a give by its drain, a park
by its queue. -/
theorem arrivals : Obligations.Arrivals := by
  unfold Obligations.Arrivals
  intro s i r c d f n bar mask b src wd fe cid at_ needs x q p y ring first
  refine ⟨fun hr hflag hready hfirst hrun hfree => ?_, fun hwait hnone hbar hrun hneeds hnew => ?_, ?_, fun hmoving hrun => ?_,
    fun htransit hdrained hneeds hclear hrun hinvalid hopen => ?_, fun hp hreleased happended hneeds hen hgrant hfull => ?_⟩
  · refine ⟨applyActs s (flagArrival s i), rfl, ?_⟩
    rw [flagArrival_of_ready hr hflag hready hfirst, deliverFlag_of_unparked hfree]
    simp only [List.singleton_append, applyActs_cons, applyActs_nil, apply_releases_releases, apply_releases_cores, apply_core_cores,
      vset_same]
    exact ⟨fun o ho => by simpa using (List.mem_filter.mp ho).2, bumpFlag_of_running hrun f n⟩
  · refine ⟨applyActs s (barArrive s d), rfl, ?_⟩
    rw [barArrive_of_presented hwait hnone hbar hrun hneeds hnew]
    simp only [applyActs_cons, applyActs_nil, Act.cont, apply_core_cores, apply_core_barriers, apply_barriers_barriers,
      apply_barriers_cores, vset_same, true_and]
    have hmem : bar.arrive d ∈ s.barriers.map fun o => if o.team = bar.team then o.arrive d else o :=
      List.mem_map.mpr ⟨bar, mem_of_barrierOf hbar, if_pos rfl⟩
    exact ⟨fun hall => arrive_of_last hall ▸ hmem, fun hsome => arrive_of_missing hsome ▸ hmem⟩
  · intro v k hquad hsend hothers hc hd hrecv hpath hslot first hclock
    refine ⟨applyActs s (circuitHeader s c), rfl, ?_⟩
    rw [circuitHeader_of_due hsend hothers (headerDue_of_full hquad hsend hc hd hrecv hpath hslot) hclock]
    simp only [applyActs_cons, applyActs_nil, Act.cont, apply_core_cores, apply_core_quads, apply_quad_quads, apply_quad_cores,
      vset_same, true_and]
    rfl
  · exact ⟨applyActs s (circuitData s d), rfl, circuitData_of_running hmoving hrun⟩
  · refine ⟨applyActs s (giveAttach s b), rfl, ?_⟩
    rw [giveAttach_of_ready htransit hdrained hneeds hclear hrun hinvalid hopen]
    obtain ⟨hrest, hentry, hreleases⟩ := attachActs_attach s b src d wd f fe cid
    refine ⟨hrest, by rw [hentry]; rfl, by rw [hentry]; rfl, by rw [hentry]; rfl, fun hfe => ⟨giveFlag s d f, ?_, rfl⟩⟩
    simpa only [hfe, if_true] using hreleases
  · refine ⟨applyActs s (parkAppend s q i), rfl, ?_⟩
    rw [parkAppend_of_accepted hp hreleased happended hneeds hen hgrant hfull, applyActs_append]
    simp only [applyActs_cons, applyActs_nil, apply_quad_quads, apply_quad_mem, vset_same]
    refine ⟨rfl, fun hflag => hflag ▸ rfl, fun hflag => parkAppended_of_flag hflag ?_⟩
    have hlen := applyActs_keeps (appendActs_keep_parks s q p.queue (recFor (queueAt s p.queue) p.record)) s
    exact (List.getElem?_eq_some_iff.mp hp).1.trans_eq hlen.symm

end Sys2Proof.Machine
end

section
/-! SUPPORT. Streams and invalidations (R163, R164, R190 to R192). -/

namespace Sys2Proof.Machine

@[simp] theorem keeps_filterMap {α β : Type} {π : State → α} (f : β → Option Act) (xs : List β) :
    Keeps π (xs.filterMap f) ↔ ∀ x ∈ xs, ∀ a, f x = some a → ∀ s, π (a.apply s) = π s := by
  simp only [Keeps, List.mem_filterMap, forall_exists_index, and_imp]
  exact ⟨fun h x hx a ha => h a x hx ha, fun h a x hx ha => h x hx a ha⟩

/-! ### A stream's next element (R163, R164) -/

/-- The access of an element of a binding in windows finds its bytes where its banks may be used. -/
theorem elemAccess_of_banks {s : State} {b : Binding} {n : Nat} {write : Bool} {xs : List Nat} (c : Fin 256)
    (hdevice : b.device = false) (hspots : elemSpots b [] n = .ok xs)
    (hbanks : ∀ k ∈ banksOf (xs.map fun a => .here a 1), ((s.banks[k]).engBegin write b.bufNo).isSome = true) :
    elemAccess s c b n write = (.ok xs, []) := by
  have hnone : ((banksOf (xs.map fun a => .here a 1)).any fun k => ((s.banks[k]).engBegin write b.bufNo).isNone) = false := by
    rw [List.any_eq_false]
    intro k hk
    rw [Bool.not_eq_true, Option.isNone_eq_false_iff]
    exact hbanks k hk
  simp only [elemAccess, elemPages, hdevice, translatePages, hspots, hnone, Bool.false_and, Bool.false_eq_true, if_false]

/-- An input binding with one more element read. -/
def Binding.pushed (b : Binding) (e : Elem) : Binding := { b with buf := b.buf ++ [e], fetched := b.fetched + 1 }

/-- Element `n`, read from the bytes `xs` without poison. -/
def cleanElem (s : State) (n : Nat) (xs : List Nat) : Elem :=
  { n, data := BitVec.ofNat 2048 (leNat (xs.map (memGet s.mem))), ready := true, poison := none, failed := false, written := false }

/-- An input stream with room reads its next element. -/
theorem streamFill_of_room {s : State} {c : Fin 256} {z : Fin 8} {b : Binding} {xs : List Nat}
    (hb : (s.cores[c]).cont.strm[z] = some b) (hout : b.out = false) (hdevice : b.device = false) (hroom : b.buf.length < 8)
    (hmore : b.fetched < b.total) (hready : b.ready s = true) (hfault : elemFaulted s b b.fetched = false)
    (hspots : elemSpots b [] b.fetched = .ok xs) (hclean : lowestPoison s xs = none)
    (hbanks : ∀ n ∈ banksOf (xs.map fun a => .here a 1), ((s.banks[n]).engBegin false b.bufNo).isSome = true) :
    streamFill s c z = passBanks xs false b.bufNo b.ts ++ accessRows s (rowsOf xs) ++
      [.cont c fun k => { k with strm := vset k.strm z ((k.strm[z]).map (·.pushed (cleanElem s b.fetched xs))) }] := by
  have hdepth : ¬ Config.streamDepth ≤ b.buf.length := by simpa [Config.streamDepth] using hroom
  simp only [streamFill, hb, hout, hdepth, hready, hfault, Nat.not_le.mpr hmore, elemAccess_of_banks c hdevice hspots hbanks, hclean,
    decide_false, Bool.not_true, Bool.or_self, Bool.false_eq_true, if_false, Option.map_none, List.nil_append]
  rfl

/-- What an element's access does to banks and rows leaves the cores. -/
theorem passRows_keep_cores (s : State) (xs ys : List Nat) (write : Bool) (buf : Byte) (ts : W64) :
    Keeps State.cores (passBanks xs write buf ts ++ accessRows s (rowsOf ys)) := by
  rw [keeps_append]
  exact ⟨by simp [passBanks], accessRows_keeps (by simp) (by simp) (by simp) s _⟩

/-- With nothing left by an `unstrm` and no image being saved, the bound stream drains. -/
theorem streamDrain_of_bound {s : State} {c : Fin 256} {z : Fin 8} {b b' : Binding} {acts : List Act}
    (hleft : ∀ o ∈ s.contsOf c, o.drains = []) (hkeep : (s.cores[c]).keep = none) (hb : (s.cores[c]).cont.strm[z] = some b)
    (hout : b.out = true) (hdrain : drainElem s c b false = some (acts, b')) :
    streamDrain s c z = acts ++ [.cont c fun k => { k with strm := vset k.strm z (some b') }] := by
  have hnone : ((s.contsOf c).findSome? fun k => (k.drains.filter fun d => d.2.1 == z).findSome? fun d =>
      drainLeft s c k.cid d.1 d.2.2 ((s.cores[c]).saves k.cid)) = none := by
    rw [List.findSome?_eq_none_iff]
    intro k hk
    rw [hleft k hk, List.filter_nil, List.findSome?_nil]
  simp only [streamDrain, hnone, hkeep, hb, hout, hdrain, Option.bind_none, Bool.not_true, Bool.false_eq_true, if_false]

/-! ### An invalidation that completes (R191) -/

/-- An invalidation that nothing is left to answer completes its tag and is gone. -/
theorem tlbiComplete_of_answered {s : State} {id : Nat} {v : Inval} (hv : s.invals.find? (fun o => o.id == id) = some v)
    (hwaiting : v.waiting = []) (hpieces : ∀ h ∈ v.pieces, s.job h.1 = none) :
    tlbiComplete s id =
      contActs s v.core v.cid (fun k => k.complete v.tag (BitVec.ofNat 128 (0xFFFFFFFF * 2 ^ 96 + v.ts.toNat)) none) ++
        (if s.hub.dbg = 1 then [.report (.tracedTag v.core v.tag)] else []) ++
          [.invals fun vs => vs.filter fun o => o.id != id] := by
  unfold tlbiComplete
  simp only [hv, hwaiting, List.filter_nil, List.isEmpty_nil, Bool.not_true, Bool.false_eq_true, if_false, Bool.false_or]
  rw [if_neg]
  rw [Bool.not_eq_true, List.any_eq_false]
  intro p hp
  simp [hpieces p hp]

/-- The status word of an invalidation has the code OK. -/
theorem inval_status_ok (ts : W64) : (BitVec.ofNat 128 (0xFFFFFFFF * 2 ^ 96 + ts.toNat)).toNat / 2 ^ 64 % 16 = 0 := by
  have h := ts.isLt
  rw [BitVec.toNat_ofNat]
  omega

/-! ### An invalidation whose watchdog expires (R192) -/

/-- A piece that is cut short. -/
def Piece.cut (p : Piece) : Piece := { p with st := .ended codeInval, opened := [], awaiting := [], got := [] }

/-- The update leaves piece `ix` of job `id`, or cuts it short. -/
def CutsAtMost (id ix : Nat) (a : Act) : Prop :=
  ∀ t : State, (a.apply t).jobPiece id ix = t.jobPiece id ix ∨ (a.apply t).jobPiece id ix = (t.jobPiece id ix).map Piece.cut

/-- An update of neither jobs nor stones leaves every piece. -/
theorem cutsAtMost_of_spares {a : Act} (h : a.sparesWork = true) (id ix : Nat) : CutsAtMost id ix a :=
  fun t => .inl (jobPiece_spared (acts := [a]) ((sparesWork_cons a []).mpr ⟨h, sparesWork_nil⟩) t id ix)

/-- A piece that is cut short stays so. -/
theorem cut_stays {id ix : Nat} {acts : List Act} (h : ∀ a ∈ acts, CutsAtMost id ix a) {t : State} {p : Piece}
    (hp : t.jobPiece id ix = some p) (hcut : p.st = .ended codeInval) :
    ∃ q, (applyActs t acts).jobPiece id ix = some q ∧ q.st = .ended codeInval := by
  induction acts generalizing t p with
  | nil => exact ⟨p, hp, hcut⟩
  | cons a acts ih =>
    obtain ⟨ha, hrest⟩ := List.forall_mem_cons.mp h
    rcases ha t with hsame | hcuts
    · exact ih hrest (hsame.trans hp) hcut
    · exact ih hrest (p := p.cut) (by rw [hcuts, hp, Option.map_some]) rfl

/-- A piece that one of the updates cuts short ends with INVAL. -/
theorem cut_of_mem {id ix : Nat} {acts : List Act} (h : ∀ a ∈ acts, CutsAtMost id ix a) {t : State} {p : Piece}
    (hp : t.jobPiece id ix = some p) (hmem : Act.piece id ix Piece.cut ∈ acts) :
    ∃ q, (applyActs t acts).jobPiece id ix = some q ∧ q.st = .ended codeInval := by
  induction acts generalizing t p with
  | nil => cases hmem
  | cons a acts ih =>
    obtain ⟨ha, hrest⟩ := List.forall_mem_cons.mp h
    rcases List.mem_cons.mp hmem with rfl | hmem
    · exact cut_stays hrest (p := p.cut) (by rw [jobPiece_apply_piece_same, hp, Option.map_some]) rfl
    · rcases ha t with hsame | hcuts
      · exact ih hrest (hsame.trans hp) hmem
      · exact ih hrest (p := p.cut) (by rw [hcuts, hp, Option.map_some]) hmem

@[simp] theorem withdrawRequests_spares (s : State) (owner : Nat × Nat) : SparesWork (withdrawRequests s owner) := by
  simp only [withdrawRequests, sparesWork_filterMap]
  intro h _ a ha
  split at ha
  · cases ha
    rfl
  · cases ha

/-- Cutting a piece of some job short leaves every piece of a prepared job, or cuts it. -/
theorem pieceCut_cutsAtMost {s : State} {i j : Job} {id ix : Nat} (hi : s.job id = some i) (hprepared : i.prepared = true)
    (hj : s.job j.id = some j) (n : Nat) (p : Piece) : ∀ a ∈ pieceCut s j n p codeInval, CutsAtMost id ix a := by
  intro a ha
  rcases List.mem_append.mp ha with hdrop | hend
  · exact cutsAtMost_of_spares (withdrawRequests_spares s (j.id, n) a hdrop) id ix
  split at hend
  · rcases List.mem_append.mp hend with hbanks | hpiece
    · exact cutsAtMost_of_spares (endBanks_spares _ _ _ a hbanks) id ix
    · cases List.mem_singleton.mp hpiece
      intro t
      rw [jobPiece_apply_piece]
      split
      · exact .inr rfl
      · exact .inl rfl
  · next hunprepared =>
    rcases List.mem_append.mp hend with hbanks | hsole
    · exact cutsAtMost_of_spares (endBanks_spares _ _ _ a hbanks) id ix
    · cases List.mem_singleton.mp hsole
      have hne : j.id ≠ id := by
        rintro rfl
        exact hunprepared (Option.some.inj (hj.symm.trans hi) ▸ hprepared)
      intro t
      left
      rw [State.jobPiece, formed, job_apply_job _ _ _ fun _ => by rfl, if_neg hne, State.jobPiece]

/-- What the watchdog does to a piece that holds a translation for core `c`. -/
def expirePiece (s : State) (c : Fin 256) (h : Nat × Nat) : List Act :=
  match s.job h.1 with
  | none => []
  | some j => match j.pieces[h.2]? with
    | none => []
    | some p => if wheelWriting s j p then [] else pieceCut s j h.2 p codeInval ++ [.report (.invalidation c)]

/-- What the watchdog does for core `c`. -/
def expireCore (s : State) (v : Inval) (c : Fin 256) : List Act := ackActs v c ++ (v.holders s c).flatMap (expirePiece s c)

/-- The watchdog of an invalidation expires. -/
theorem invalExpire_of_late {s : State} {id : Nat} {v : Inval} (hv : s.invals.find? (fun o => o.id == id) = some v)
    (hlate : v.start + s.hub.inval.toNat ≤ s.clock) : invalExpire s id = v.waiting.flatMap (expireCore s v) := by
  simp only [invalExpire, hv, Nat.not_lt.mpr hlate, if_false]
  rfl

/-- The updates of one piece: none, or those of its end. -/
theorem expirePiece_cases (s : State) (c : Fin 256) (h : Nat × Nat) : expirePiece s c h = [] ∨
    ∃ j p, s.job j.id = some j ∧ expirePiece s c h = pieceCut s j h.2 p codeInval ++ [.report (.invalidation c)] := by
  unfold expirePiece
  split
  · exact .inl rfl
  · next j hj =>
    split
    · exact .inl rfl
    · next p _ =>
      split
      · exact .inl rfl
      · exact .inr ⟨j, p, (job_id hj).symm ▸ hj, rfl⟩

/-- Cutting a piece short leaves the invalidations. -/
theorem pieceCut_keeps_invals (s : State) (j : Job) (n : Nat) (p : Piece) (x : BitVec 4) :
    Keeps State.invals (pieceCut s j n p x) := by
  have hdrop : Keeps State.invals (withdrawRequests s (j.id, n)) := by
    simp only [withdrawRequests, keeps_filterMap]
    intro h _ a ha t
    split at ha
    · cases ha
      rfl
    · cases ha
  rw [pieceCut, keeps_append]
  refine ⟨hdrop, ?_⟩
  split <;> simp [pieceEnded, endBanks, soleEnded, formed, Act.piece, Act.job]

/-- The end of pieces leaves the invalidations. -/
theorem expirePiece_keeps_invals (s : State) (c : Fin 256) (h : Nat × Nat) : Keeps State.invals (expirePiece s c h) := by
  rcases expirePiece_cases s c h with hnone | ⟨j, p, -, hcut⟩
  · rw [hnone]
    exact keeps_nil
  · rw [hcut, keeps_append]
    exact ⟨pieceCut_keeps_invals s j h.2 p codeInval, by simp⟩

/-- After the watchdog has answered for some cores, the invalidation waits for the others. -/
theorem expireCores_waiting {s : State} {v : Inval} (cs : List (Fin 256)) {t : State} {o : Inval} (ho : o ∈ t.invals)
    (hid : o.id = v.id) : ∃ o' ∈ (applyActs t (cs.flatMap (expireCore s v))).invals,
      o'.id = v.id ∧ ∀ c ∈ o'.waiting, c ∈ o.waiting ∧ c ∉ cs := by
  induction cs generalizing t o with
  | nil => exact ⟨o, ho, hid, fun c hc => ⟨hc, List.not_mem_nil⟩⟩
  | cons x cs ih =>
    have hpieces : Keeps State.invals ((v.holders s x).flatMap (expirePiece s x)) :=
      (keeps_flatMap _ _).mpr fun h _ => expirePiece_keeps_invals s x h
    have hacked : { o with waiting := o.waiting.filter (· != x) } ∈ (applyActs t (expireCore s v x)).invals := by
      rw [expireCore, applyActs_append, applyActs_keeps hpieces, ackActs, applyActs_cons, applyActs_nil, apply_invals_invals]
      exact List.mem_map.mpr ⟨o, ho, if_pos hid⟩
    rw [List.flatMap_cons, applyActs_append]
    obtain ⟨o', ho', hid', hwait⟩ := ih hacked hid
    refine ⟨o', ho', hid', fun c hc => ?_⟩
    obtain ⟨hin, hcs⟩ := hwait c hc
    obtain ⟨hold, hx⟩ := List.mem_filter.mp hin
    exact ⟨hold, fun hmem => (List.mem_cons.mp hmem).elim (by simpa using hx) hcs⟩

/-- The watchdog leaves a piece of a prepared job, or cuts it short. -/
theorem expireCores_cutAtMost {s : State} {v : Inval} {i : Job} {id ix : Nat} (hi : s.job id = some i)
    (hprepared : i.prepared = true) (cs : List (Fin 256)) : ∀ a ∈ cs.flatMap (expireCore s v), CutsAtMost id ix a := by
  intro a ha
  obtain ⟨c, -, hc⟩ := List.mem_flatMap.mp ha
  rcases List.mem_append.mp hc with hack | hpieces
  · cases List.mem_singleton.mp hack
    exact cutsAtMost_of_spares rfl id ix
  · obtain ⟨h, -, hh⟩ := List.mem_flatMap.mp hpieces
    rcases expirePiece_cases s c h with hnone | ⟨j, p, hj, hcut⟩
    · rw [hnone] at hh
      cases hh
    · rw [hcut] at hh
      rcases List.mem_append.mp hh with hpiece | hreport
      · exact pieceCut_cutsAtMost hi hprepared hj h.2 p a hpiece
      · cases List.mem_singleton.mp hreport
        exact cutsAtMost_of_spares rfl id ix

/-- A piece that holds a translation and does not write at its wheel is cut short. -/
theorem cut_mem_expireCores {s : State} {v : Inval} {cs : List (Fin 256)} {x : Fin 256} {h : Nat × Nat} {i : Job} {p : Piece}
    (hx : x ∈ cs) (hh : h ∈ v.holders s x) (hi : s.job h.1 = some i) (hprepared : i.prepared = true) (hp : i.pieces[h.2]? = some p)
    (hwrites : wheelWriting s i p = false) : Act.piece h.1 h.2 Piece.cut ∈ cs.flatMap (expireCore s v) := by
  refine List.mem_flatMap.mpr ⟨x, hx, List.mem_append_right _ (List.mem_flatMap.mpr ⟨h, hh, ?_⟩)⟩
  have hcut : expirePiece s x h = pieceCut s i h.2 p codeInval ++ [.report (.invalidation x)] := by
    simp only [expirePiece, hi, hp, hwrites, Bool.false_eq_true, if_false]
  rw [hcut, pieceCut, hprepared, if_pos rfl, pieceEnded, job_id hi]
  exact List.mem_append_left _ (List.mem_append_right _ (List.mem_append_right _ (List.mem_singleton.mpr rfl)))

end Sys2Proof.Machine
end

section
/-! SUPPORT. The pager's record and its answers (R188, R189, R195, R379). -/

namespace Sys2Proof.Machine

/-- Updates leave a hub that depends on the hub alone. -/
theorem applyActs_hub_congr {s t : State} (h : s.hub = t.hub) (acts : List Act) : (applyActs s acts).hub = (applyActs t acts).hub := by
  induction acts generalizing s t with
  | nil => exact h
  | cons a acts ih =>
    refine ih ?_
    cases a with
    | hub f => simp only [apply_hub_hub, h]
    | _ => exact h

/-- A record that has room is appended. -/
theorem pagerAppend_of_room {s : State} {handle : Nat} {f : PagerFault} {q : Fin 131072}
    (hf : s.faults.find? (fun o => o.handle == handle && !o.appended) = some f) (hq : pagerQueue s f.part = some q)
    (hroom : (queueAt s q).full = false) :
    pagerAppend s handle = appendActs s q (pagerRecord s (queueAt s q) f) ++
      [.faults fun fs => fs.map fun g => if g.handle = handle then { g with appended := true } else g] := by
  simp only [pagerAppend, hf, hq, hroom, Bool.false_eq_true, if_false]

/-- The faults of a handle are marked as appended. -/
theorem appended_of_mem_marked {fs : List PagerFault} {handle : Nat} {o : PagerFault}
    (ho : o ∈ fs.map fun g => if g.handle = handle then { g with appended := true } else g) (hhandle : o.handle = handle) :
    o.appended = true := by
  obtain ⟨g, -, rfl⟩ := List.mem_map.mp ho
  by_cases h : g.handle = handle
  · rw [if_pos h]
  · rw [if_neg h] at hhandle
    exact absurd hhandle h

section
variable {s : State} {handle jid ix : Nat} {f : PagerFault} {j : Job}
  (hf : s.faults.find? (fun o => o.handle == handle) = some f) (hwho : f.who = .piece jid ix) (hj : s.job jid = some j)
include hf

/-- An answer other than OK ends what the fault suspended. -/
theorem pagerResolve_of_failure {code : BitVec 4} (hcode : code = codeNoframe ∨ code = codeAccess) :
    pagerResolve s handle code = faultOver handle :: failFaulted s f code := by
  rcases hcode with rfl | rfl <;> simp only [pagerResolve, hf] <;> rfl

include hwho hj

/-- The answer OK has the piece try again. -/
theorem pagerResolve_of_restart (hprepared : j.prepared = true) :
    pagerResolve s handle codeOk = [faultOver handle, .piece jid ix fun p => { p with st := .waiting }] := by
  have hrestart : restartPiece s jid ix = [.piece jid ix fun p => { p with st := .waiting }] := by
    simp only [restartPiece, hj, hprepared, if_true]
  simp only [pagerResolve, hf, hwho, hrestart]
  rfl

end

section
variable {s : State} {jid ix : Nat} {f : PagerFault} {j : Job} {p : Piece} (hwho : f.who = .piece jid ix)
  (hj : s.job jid = some j) (hp : j.pieces[ix]? = some p)
include hwho hj hp

/-- A piece other than of a `redf` source ends with the code. -/
theorem failFaulted_of_ended (hprepared : j.prepared = true) (hends : f.write = true ∨ ∀ op, j.work ≠ .redf op) (code : BitVec 4) :
    failFaulted s f code = pieceEnded j ix p code := by
  have hfail : failPiece s jid ix code = pieceEnded j ix p code := by
    simp only [failPiece, hj, hp, hprepared, if_true]
  have habstain : (if f.write then none else abstainPiece s jid ix) = none := by
    rcases hends with hwrite | hwork
    · rw [if_pos hwrite]
    · split
      · rfl
      · unfold abstainPiece
        simp only [hj]
        split
        · next op _ hw _ => exact absurd hw (hwork op)
        · rfl
  simp only [failFaulted, hwho, habstain, Option.getD_none, hfail]

/-- The contributor of a `redf` whose source was suspended abstains. -/
theorem failFaulted_of_redf {op : RedOp} (hwrite : f.write = false) (hwork : j.work = .redf op) (code : BitVec 4) :
    failFaulted s f code = startRedf s j op ix p false := by
  have habstain : abstainPiece s jid ix = some (startRedf s j op ix p false) := by
    simp only [abstainPiece, hj, hwork, hp]
  simp only [failFaulted, hwho, hwrite, habstain, Bool.false_eq_true, if_false, Option.getD_some]

end

/-- The packet that stands last in the outbound log after a request is sent (R372). -/
theorem sendActs_out (s : State) (core : Option (Fin 256)) (p : Packet) (who : Requester) (hkind : p.kind ≠ 1) (t : State) :
    ∃ m, (applyActs t (sendActs s core p who)).hub.out = t.hub.out ++ [m] ∧ m.kind = p.kind ∧ m.dst = p.dst ∧ m.addr = p.addr := by
  simp only [sendActs, if_neg hkind]
  cases core <;> exact ⟨_, rfl, rfl, rfl, rfl⟩

/-- An abstention of a contributor that can reach its root (R379). -/
theorem startRedf_abstains {s : State} {j : Job} {ix : Nat} {p : Piece} {tr : List Trans} {src dst : List Spot}
    {opened : List (Fin 4096 × Bool)} {acts : List Act} (op : RedOp) (hnode : s.hub.node ≠ 0)
    (hbegin : beginPiece s j ix false [] (p.pairs.map fun x => (j.dst, x.2)) = .ok tr src dst opened acts) :
    startRedf s j op ix p false = acts ++ [.piece j.id ix fun q => { q with st := .started, tr, opened },
      knowContext (bits j.b.d 48 16) (bits j.b.d 0 46)] ++
        sendActs (applyActs s (acts ++ [.piece j.id ix fun q => { q with st := .started, tr, opened },
          knowContext (bits j.b.d 48 16) (bits j.b.d 0 46)])) (some j.core)
          (redPacket j 7 op ((spotBytes dst).headD 0) []) (.reduction j.id) := by
  simp only [startRedf, hbegin, hnode, if_false, Bool.not_false, if_true, List.append_nil]

/-- Noting a context leaves the outbound log. -/
theorem apply_knowContext_out (node : Half) (ctx : BitVec 46) (t : State) :
    ((knowContext node ctx).apply t).hub.out = t.hub.out := by
  simp only [knowContext, apply_hub_hub]
  split <;> rfl

/-- The abstention leaves with the root's node and address. -/
theorem startRedf_abstention_out {s u : State} {j : Job} {ix : Nat} {p : Piece} {tr : List Trans} {src dst : List Spot}
    {opened : List (Fin 4096 × Bool)} {acts : List Act} (op : RedOp) (hnode : s.hub.node ≠ 0)
    (hbegin : beginPiece s j ix false [] (p.pairs.map fun x => (j.dst, x.2)) = .ok tr src dst opened acts) (hhub : u.hub = s.hub) :
    ∃ m, (applyActs u (startRedf s j op ix p false)).hub.out = (applyActs s acts).hub.out ++ [m] ∧ m.kind = 7 ∧
      m.dst = bits j.b.d 48 16 ∧ m.addr = bits j.b.d 0 46 := by
  rw [startRedf_abstains op hnode hbegin, applyActs_append, applyActs_append]
  obtain ⟨m, hout, hkind, hdst, haddr⟩ := sendActs_out (applyActs s _) (some j.core)
    (redPacket j 7 op ((spotBytes dst).headD 0) []) (.reduction j.id) (by decide : (7 : BitVec 6) ≠ 1)
    (applyActs (applyActs u acts) [.piece j.id ix fun q => { q with st := .started, tr, opened },
      knowContext (bits j.b.d 48 16) (bits j.b.d 0 46)])
  refine ⟨m, hout.trans ?_, hkind, hdst, haddr⟩
  rw [applyActs_cons, applyActs_cons, applyActs_nil, apply_knowContext_out]
  exact congrArg (fun h => h.out ++ [m]) (applyActs_hub_congr hhub acts)

/-- A fault that is over is gone, whatever follows. -/
theorem faultOver_gone {handle : Nat} {acts : List Act} (h : Keeps State.faults acts) (s : State) :
    ∀ o ∈ (applyActs s (faultOver handle :: acts)).faults, o.handle ≠ handle := by
  intro o ho
  rw [applyActs_cons, applyActs_keeps h, faultOver, apply_faults_faults] at ho
  simpa using (List.mem_filter.mp ho).2

/-- The end of a copy piece leaves the faults. -/
theorem pieceEnded_keeps_faults (j : Job) (ix : Nat) (p : Piece) (x : BitVec 4) : Keeps State.faults (pieceEnded j ix p x) := by
  simp [pieceEnded, endBanks, Act.piece, Act.job]

/-- The fault is over and its piece waits again. -/
theorem answer_restart {s : State} {handle jid ix : Nat} {f : PagerFault} {j : Job} {p : Piece}
    (hf : s.faults.find? (fun o => o.handle == handle) = some f) (hwho : f.who = .piece jid ix) (hj : s.job jid = some j)
    (hp : j.pieces[ix]? = some p) (hprepared : j.prepared = true) :
    let t := applyActs s (pagerResolve s handle codeOk)
    (∀ o ∈ t.faults, o.handle ≠ handle) ∧ ∃ q, t.jobPiece jid ix = some q ∧ q.st = .waiting := by
  rw [pagerResolve_of_restart hf hwho hj hprepared]
  refine ⟨faultOver_gone (by simp [Act.piece, Act.job]) s, { p with st := .waiting }, ?_, rfl⟩
  have hover : ((faultOver handle).apply s).jobPiece jid ix = some p :=
    (jobPiece_of_jobs (s := s) rfl jid ix).trans (jobPiece_of_job hj hp)
  rw [applyActs_cons, applyActs_cons, applyActs_nil, jobPiece_apply_piece_same, hover, Option.map_some]

/-- The fault is over and its piece has ended with the answer. -/
theorem answer_end {s : State} {handle jid ix : Nat} {f : PagerFault} {j : Job} {p : Piece}
    (hf : s.faults.find? (fun o => o.handle == handle) = some f) (hwho : f.who = .piece jid ix) (hj : s.job jid = some j)
    (hp : j.pieces[ix]? = some p) (hprepared : j.prepared = true) (hends : f.write = true ∨ ∀ op, j.work ≠ .redf op)
    {code : BitVec 4} (hcode : code = codeNoframe ∨ code = codeAccess) :
    let t := applyActs s (pagerResolve s handle code)
    (∀ o ∈ t.faults, o.handle ≠ handle) ∧ ∃ q, t.jobPiece jid ix = some q ∧ q.st = .ended code := by
  rw [pagerResolve_of_failure hf hcode, failFaulted_of_ended hwho hj hp hprepared hends]
  refine ⟨faultOver_gone (pieceEnded_keeps_faults j ix p code) s,
    { p with st := .ended code, opened := [], awaiting := [], got := [] }, ?_, rfl⟩
  have hover : ((faultOver handle).apply s).jobPiece j.id ix = some p :=
    (jobPiece_of_jobs (s := s) rfl j.id ix).trans (jobPiece_of_job ((job_id hj).symm ▸ hj) hp)
  rw [applyActs_cons, ← job_id hj, jobPiece_pieceEnded, hover, Option.map_some]

/-- The answer has the contributor of a `redf` abstain. -/
theorem answer_abstains {s : State} {handle jid ix : Nat} {f : PagerFault} {j : Job} {p : Piece} {tr : List Trans}
    {src dst : List Spot} {opened : List (Fin 4096 × Bool)} {acts : List Act} {op : RedOp}
    (hf : s.faults.find? (fun o => o.handle == handle) = some f) (hwho : f.who = .piece jid ix) (hj : s.job jid = some j)
    (hp : j.pieces[ix]? = some p) (hwrite : f.write = false) (hwork : j.work = .redf op) (hnode : s.hub.node ≠ 0)
    (hbegin : beginPiece s j ix false [] (p.pairs.map fun x => (j.dst, x.2)) = .ok tr src dst opened acts)
    {code : BitVec 4} (hcode : code = codeNoframe ∨ code = codeAccess) :
    ∃ m, (applyActs s (pagerResolve s handle code)).hub.out = (applyActs s acts).hub.out ++ [m] ∧ m.kind = 7 ∧
      m.dst = bits j.b.d 48 16 ∧ m.addr = bits j.b.d 0 46 := by
  rw [pagerResolve_of_failure hf hcode, failFaulted_of_redf hwho hj hp hwrite hwork, applyActs_cons]
  exact startRedf_abstention_out op hnode hbegin rfl

/-- The job and the piece of a fault that the pager has answered. -/
theorem exists_answered {i : Instr} {s t : State} {handle jid ix : Nat} {st : PieceSt} (hexec : exec i s = .next t)
    (h : (∀ o ∈ t.faults, o.handle ≠ handle) ∧ ∃ q, t.jobPiece jid ix = some q ∧ q.st = st) :
    ∃ t j' p', exec i s = .next t ∧ (∀ o ∈ t.faults, o.handle ≠ handle) ∧ t.job jid = some j' ∧ j'.pieces[ix]? = some p' ∧
      p'.st = st := by
  obtain ⟨hfaults, q, hq, hst⟩ := h
  obtain ⟨j', p', hj', hp', hst'⟩ := exists_of_jobPiece hq (f := fun p => p.st = st) hst
  exact ⟨t, j', p', hexec, hfaults, hj', hp', hst'⟩

/-- Settles O37: a stream by its next element, an invalidation by who has answered, a fault by the pager's answer. -/
theorem streamAndPagerEvents : Obligations.StreamAndPagerEvents := by
  unfold Obligations.StreamAndPagerEvents
  intro s c z b b' xs v id handle f q j jid ix acts op p tr src dst opened k
  refine ⟨fun hb hout hdevice hroom hmore hready hfault hspots hclean hbanks => ?_, fun hleft hkeep hb hout hdrain => ?_,
    fun hv => ⟨fun hwaiting hpieces hseat => ?_, fun hlate => ?_⟩, fun hf hq hroom => ?_, fun hf hwho hj hprepared hix e he => ?_⟩
  · refine ⟨applyActs s (streamFill s c z), b.pushed (cleanElem s b.fetched xs), rfl, ?_, rfl, rfl, rfl⟩
    rw [streamFill_of_room hb hout hdevice hroom hmore hready hfault hspots hclean hbanks, applyActs_append, applyActs_cons,
      applyActs_nil, Act.cont, apply_core_cores, vset_same, vset_same, applyActs_keeps (passRows_keep_cores s xs xs false _ _)]
    exact congrArg (Option.map _) hb
  · refine ⟨applyActs s (streamDrain s c z), rfl, ?_⟩
    rw [streamDrain_of_bound hleft hkeep hb hout hdrain, applyActs_append, applyActs_cons, applyActs_nil, Act.cont, apply_core_cores,
      vset_same, vset_same]
  · refine ⟨applyActs s (tlbiComplete s id), rfl, ?_⟩
    obtain ⟨hcont, -, -⟩ := contActs_seated
      (fun k => k.complete v.tag (BitVec.ofNat 128 (0xFFFFFFFF * 2 ^ 96 + v.ts.toNat)) none) hseat
    obtain ⟨-, hcores⟩ := applyActs_report (applyActs s (contActs s v.core v.cid fun k =>
      k.complete v.tag (BitVec.ofNat 128 (0xFFFFFFFF * 2 ^ 96 + v.ts.toNat)) none)) (s.hub.dbg = 1) (.tracedTag v.core v.tag)
    rw [tlbiComplete_of_answered hv hwaiting hpieces, applyActs_append, applyActs_append, applyActs_cons, applyActs_nil,
      apply_invals_cores, hcores, hcont]
    refine ⟨fun o ho => ?_, rfl, ?_⟩
    · rw [apply_invals_invals] at ho
      simpa using (List.mem_filter.mp ho).2
    · rw [Cont.complete, vset_same]
      exact inval_status_ok v.ts
  · obtain rfl : v.id = id := by simpa using List.find?_some hv
    obtain ⟨o, ho, hid, hwait⟩ := expireCores_waiting (s := s) v.waiting (List.mem_of_find?_eq_some hv) rfl
    refine ⟨applyActs s (invalExpire s v.id), o, rfl, ?_, hid, ?_, fun x hx h hh i p hi hprepared hp hwrites => ?_⟩
    · rw [invalExpire_of_late hv hlate]
      exact ho
    · exact List.eq_nil_iff_forall_not_mem.mpr fun c hc => (hwait c hc).2 (hwait c hc).1
    · obtain ⟨p', hp', hst⟩ := cut_of_mem (expireCores_cutAtMost hi hprepared v.waiting) (jobPiece_of_job hi hp)
        (cut_mem_expireCores hx hh hi hprepared hp hwrites)
      rw [invalExpire_of_late hv hlate]
      exact exists_of_jobPiece hp' hst
  · refine ⟨applyActs s (pagerAppend s handle), rfl, ?_⟩
    rw [pagerAppend_of_room hf hq hroom, applyActs_append, applyActs_cons, applyActs_nil, apply_faults_mem, apply_faults_faults]
    exact ⟨rfl, fun o ho hhandle => appended_of_mem_marked ho hhandle⟩
  · have hpiece := List.getElem?_eq_getElem hix
    rcases List.mem_cons.mp he with rfl | he
    · exact ⟨fun _ => exists_answered rfl (answer_restart hf hwho hj hpiece hprepared), fun hne => absurd rfl hne⟩
    have hcode : ∃ code, (code = codeNoframe ∨ code = codeAccess) ∧ e.2 = .ended code ∧
        exec e.1 s = .next (applyActs s (pagerResolve s handle code)) := by
      rcases List.mem_pair.mp he with rfl | rfl
      · exact ⟨codeNoframe, .inl rfl, rfl, rfl⟩
      · exact ⟨codeAccess, .inr rfl, rfl, rfl⟩
    obtain ⟨code, hcode, hst, hexec⟩ := hcode
    refine ⟨fun hends => ?_, fun _ hwrite hwork hp hnode hbegin => ?_⟩
    · have hends : f.write = true ∨ ∀ op, j.work ≠ .redf op := hends.resolve_left (by rw [hst]; exact PieceSt.noConfusion)
      exact exists_answered hexec (hst ▸ answer_end hf hwho hj hpiece hprepared hends hcode)
    · obtain ⟨m, hout⟩ := answer_abstains hf hwho hj hp hwrite hwork hnode hbegin hcode
      exact ⟨_, m, hexec, hout⟩

end Sys2Proof.Machine
end

section
/-! SUPPORT. Waits of the Y slot (R203, R253, R254): what an instruction that goes on says of its hold, and a bundle that its
hold holds. -/

namespace Sys2Proof.Machine

/-- A bundle that goes on is held by none of its slots. -/
theorem Checked.slotHeld_eq_none {s : State} {i : Instr} (h : Checked s i) :
    slotHeld s.landed s.focus (opsOf i) (slotOf i, i) = none := by
  have hfree := h.free
  simpa [bundleHolds, opsOf] using hfree

/-- An instruction that goes on is not held by its own hold (R77). -/
theorem Checked.slotHold_eq_none {s : State} {i : Instr} (h : Checked s i) : slotHold i (s.env i) = none := by
  have hheld := h.slotHeld_eq_none
  unfold slotHeld at hheld
  dsimp only at hheld
  split at hheld
  · cases hheld
  · exact Option.map_eq_none_iff.mp hheld

/-- What a hold without updates says when it does not hold. -/
theorem holdWhile_eq_none_iff (b : Bool) : holdWhile b = none ↔ b = false := by cases b <;> simp [holdWhile]

/-- A core whose bundle its holds hold, none of them with an update of its own, spends a held cycle (R72, R77). -/
theorem issueChecked_held {s : State} {c : Fin 256} {b : Bundle} {ops : List (Slot × Instr)} {timed : List W64} (hb : b.ops = ops)
    (ha : s.cores[c].cont.asked = none)
    (hx : ops.filter (executes s.cores[c].cont (bundleLeaf s.cores[c].cont ops)) = ops)
    (hh : bundleHolds s c b.kind ops = [{ timed }]) : issueChecked s c b = heldActs s c { timed } := by
  unfold issueChecked verdict checkedVerdict
  simp only [hb, ha, hx, hh, List.find?_cons, List.isEmpty_nil, List.flatMap_cons, List.flatMap_nil, List.append_nil]

/-- An instruction that its hold holds, with no pop, stream or timed hold, spends a held cycle. -/
theorem Presented.exec_held {s : State} {i : Instr} (h : Presented s i) (hissue : exec i s = issueOne s i)
    (hruns : executes s.now (bundleLeaf s.now (opsOf i)) (slotOf i, i) = true)
    (huse : (instrUse i).pops = [] ∧ (instrUse i).streams = [])
    (htimed : timedHolds s.now (opsOf i) (slotOf i, i) = []) (hhold : slotHold i (s.env i) = some []) :
    exec i s = .next (s.heldFor {}) := by
  have hslot : slotHeld s.landed s.focus (opsOf i) (slotOf i, i) = some {} := by
    have htimed : timedHolds (s.env i).k (opsOf i) (slotOf i, i) = [] := htimed
    obtain ⟨hpops, hstreams⟩ := huse
    unfold slotHeld
    simp only [show envOf s.landed s.focus (opsOf i) (slotOf i, i) = s.env i from rfl, htimed, hpops, streamHolds, streamUses,
      hstreams, hhold]
    rfl
  have hholds : bundleHolds s.landed s.focus (Bundle.single i).kind (opsOf i) = [{}] := by
    show bundleHolds s.landed s.focus 0 [(slotOf i, i)] = _
    simp only [opsOf] at hslot ⊢
    simp [bundleHolds, hslot]
  have hx : (opsOf i).filter (executes s.now (bundleLeaf s.now (opsOf i))) = opsOf i := by
    simpa [opsOf] using hruns
  rw [hissue, issueOne_presented h, issueChecked_held (single_ops h.slot) h.unasked hx hholds]
  rfl

/-- The lowest set bit, or 64 without one (R203). -/
theorem lowestSet_eq {x : W64} {k : Nat} (hle : k ≤ 64) (hbelow : ∀ j, j < k → x.getLsbD j = false)
    (hset : k < 64 → x.getLsbD k = true) : lowestSet x = k := by
  unfold lowestSet leastBelow
  rcases Nat.lt_or_eq_of_le hle with hlt | rfl
  · have : (List.range 64).find? (bitAt x) = some k := by
      rw [List.find?_range_eq_some]
      exact ⟨hset hlt, List.mem_range.mpr hlt, fun j hj => by simp [bitAt, hbelow j hj]⟩
    rw [this]; rfl
  · have : (List.range 64).find? (bitAt x) = none := by
      rw [List.find?_range_eq_none]
      exact fun j hj => by simp [bitAt, hbelow j hj]
    rw [this]; rfl

/-- The flags after a bundle has issued, before the updates of its own. -/
@[simp] theorem f_issued (k : Cont) (b : Bundle) (token : Nat) (outs : List ((Slot × Instr) × Out)) (more : List Result) :
    (k.issued b token outs more).f = k.f := by
  obtain ⟨qs, qa, qb, strm, h⟩ := issued_frame k b token outs more
  rw [h]

/-- What a `waitf` that goes on does to its continuation: N is taken from the flag, and what its posts cover is acquired (R253,
R278). -/
def Cont.takeFlag (flag : Fin 32) (n : Half) (open_ : List Nat) (k : Cont) : Cont :=
  { k.acquire flag open_ with f := vset k.f flag (k.f[flag] - n) }

/-- Settles O24: each wait by its hold, which an instruction that goes on has passed; `waitf` alone has an effect. -/
theorem flagAndTagWaits : Obligations.FlagAndTagWaits := by
  unfold Obligations.FlagAndTagWaits
  intro s g f mask n d a m
  refine ⟨?_, ?_, ?_, ?_, ?_⟩
  · rintro i rfl h
    have hhold := (holdWhile_eq_none_iff _).mp h.slotHold_eq_none
    have heff : slotEff (.waitf g f mask n) (s.env (.waitf g f mask n)) = .ok { acts := [.cont s.focus
        (Cont.takeFlag f n ((s.env (.waitf g f mask n)).x.accs.map OutAcc.id))] } := rfl
    refine ⟨_, h.exec_of_eff rfl rfl heff, ?_, Nat.le_of_not_lt (of_decide_eq_false hhold)⟩
    rw [(done_own rfl).2, List.append_nil, applyActs_cons, applyActs_nil, cont_apply_cont, Cont.takeFlag, vset_same, issuing_cont,
      f_issued]
  · rintro i rfl h hruns hgive hlow
    have htimed : timedHolds s.now (opsOf (.waitf g f mask n)) (slotOf (.waitf g f mask n), .waitf g f mask n) = [] := by
      simp [timedHolds, hgive, queueFull, queueFull.address, allocates, entersAddress]
    exact h.exec_held rfl hruns ⟨rfl, rfl⟩ htimed (if_pos (decide_eq_true hlow))
  · rintro i rfl h
    have hhold := (holdWhile_eq_none_iff _).mp h.slotHold_eq_none
    exact ⟨h.exec_of_eff rfl rfl rfl, beq_eq_false_iff_ne.mp hhold⟩
  · rintro i rfl h
    have hhold := (holdWhile_eq_none_iff _).mp h.slotHold_eq_none
    exact ⟨h.exec_of_eff rfl rfl rfl, bne_eq_false_iff_eq.mp hhold⟩
  · rintro i rfl h k hle hbelow hset
    have heff : slotEff (.ffr g d a) (s.env (.ffr g d a)) = .ok { res := plainResult d (BitVec.ofNat 64 (lowestSet m)) 1 } := rfl
    rw [lowestSet_eq hle hbelow hset] at heff
    exact h.exec_of_eff rfl rfl heff

end Sys2Proof.Machine
end

section
/-! SUPPORT. The state after power-on reset (R387, R388): what each core, each partition and the hub hold. -/

namespace Sys2Proof.Machine

/-- Every core is as after reset (R340, R357, R358, R360). -/
@[simp] theorem reset_cores (c : Fin 256) : State.reset.cores[c] = CoreSt.zero := by
  simp [State.reset]

/-- Every partition is as after reset (R231, R331, R394). -/
@[simp] theorem reset_parts (p : Fin 16) : State.reset.parts[p] = PartSt.zero := by
  simp [State.reset]

/-- A core that runs no continuation may not issue. -/
theorem canIssue_of_vacant {s : State} {c : Fin 256} (h : (s.cores[c]).phase = .vacant) : canIssue s c = false := by
  simp only [canIssue, h]
  rfl

/-- Memory, empty words and poisoned sectors are all empty at reset. -/
theorem reset_inv : State.reset.Inv := ⟨rfl, rfl, rfl⟩

/-- Settles O56: the hub, then each partition and each core by its state after reset. -/
theorem resetState : Obligations.ResetState := by
  unfold Obligations.ResetState
  refine ⟨reset_inv, rfl, rfl, rfl, rfl, rfl, rfl, rfl, rfl, rfl, rfl, rfl, rfl, rfl,
    fun _ => Vector.getElem_replicate _, rfl, ?_, ?_⟩
  · intro p
    rw [reset_parts]
    exact ⟨rfl, rfl, rfl, rfl⟩
  · intro c
    have hvacant : (State.reset.cores[c]).phase = .vacant := congrArg CoreSt.phase (reset_cores c)
    refine ⟨hvacant, ?_⟩
    rw [reset_cores]
    refine ⟨rfl, canIssue_of_vacant hvacant, rfl, rfl, rfl, rfl,
      fun _ => ⟨Vector.getElem_replicate _, Vector.getElem_replicate _, Vector.getElem_replicate _, Vector.getElem_replicate _⟩,
      fun _ => ⟨Vector.getElem_replicate _, Vector.getElem_replicate _, Vector.getElem_replicate _⟩, rfl, rfl, rfl,
      fun _ => Vector.getElem_replicate _, fun _ => Vector.getElem_replicate _, fun _ => Vector.getElem_replicate _,
      fun _ => ⟨Vector.getElem_replicate _, Vector.getElem_replicate _⟩,
      fun _ => Vector.getElem_replicate _, rfl, rfl, rfl, rfl, rfl, rfl, rfl, rfl, rfl, rfl, rfl, rfl, rfl,
      fun _ => Vector.getElem_replicate _⟩

end Sys2Proof.Machine
end

section
/-! SUPPORT. How an instruction of an engine starts at commit (R176, R201, R211): its own updates are made, and then what its bundle
follows is found (R199, R271, R276), which changes only the accesses that new instructions and bindings wait for. -/

namespace Sys2Proof.Machine

/-! ### What a bundle follows -/

/-- A binding without the accesses that its first access must follow. -/
def Binding.bare (b : Binding) : Binding := { b with needs := [] }

/-- A binding that is still drained, without those accesses. -/
def bareDrain (d : Nat × Fin 8 × Binding) : Nat × Fin 8 × Binding := (d.1, d.2.1, d.2.2.bare)

/-- An update of core `c` that changes, in the binding of a stream or in the bindings still drained, only the accesses to follow. -/
inductive FollowAct (s : State) (c : Fin 256) : Act → Prop
  | stream (z : Fin 8) (b : Binding) (needs : List Nat) (hbound : (s.cores[c]).cont.strm[z] = some b) :
      FollowAct s c (.cont c fun k => { k with strm := vset k.strm z (some { b with needs }) })
  | drains (f : Nat × Fin 8 × Binding → Nat × Fin 8 × Binding) (hbare : ∀ d, bareDrain (f d) = bareDrain d) :
      FollowAct s c (.cont c fun k => { k with drains := k.drains.map f })

/-- What a bundle follows is found for the instructions after the first `n`, and then for the core's bindings. -/
theorem bundleFollows_eq_cons (s : State) (c : Fin 256) (n : Nat) (ids : List Nat) : ∃ follow rest,
    bundleFollows s c n ids = .jobs (fun js => js.take n ++ (js.drop n).map follow) :: rest ∧
      (∀ j, ∃ needs, follow j = { j with needs }) ∧ ∀ a ∈ rest, FollowAct s c a := by
  refine ⟨_, _, rfl, fun j => ?_, fun a ha => ?_⟩
  · split
    · exact ⟨j.needs, rfl⟩
    · exact ⟨_, rfl⟩
  · rcases List.mem_append.mp ha with hstream | hdrains
    · obtain ⟨z, -, hz⟩ := List.mem_filterMap.mp hstream
      obtain ⟨b, hb, ha⟩ := Option.bind_eq_some_iff.mp hz
      split at ha
      · obtain rfl := Option.some.inj ha
        exact .stream z b _ hb
      · cases ha
    · split at hdrains
      · obtain rfl := List.mem_singleton.mp hdrains
        refine .drains _ fun d => ?_
        split <;> rfl
      · cases hdrains

/-- A fact that each update keeps holds after all of them. -/
theorem applyActs_preserves {P : State → Prop} {acts : List Act} (h : ∀ a ∈ acts, ∀ t, P t → P (a.apply t)) {s : State}
    (hs : P s) :
    P (applyActs s acts) := by
  induction acts generalizing s with
  | nil => exact hs
  | cons a acts ih =>
    obtain ⟨ha, hrest⟩ := List.forall_mem_cons.mp h
    exact ih hrest (ha s hs)

/-- What no update of instructions changes, and none of streams and drains of the core, is kept. -/
theorem keeps_bundleFollows {α : Type} {π : State → α} {c : Fin 256} (hjobs : ∀ f t, π ((Act.jobs f).apply t) = π t)
    (hcont : ∀ (f : Cont → Cont) t, (∀ k, ∃ strm drains, f k = { k with strm, drains }) → π ((Act.cont c f).apply t) = π t)
    (s : State) (n : Nat) (ids : List Nat) : Keeps π (bundleFollows s c n ids) := by
  obtain ⟨follow, rest, heq, -, hrest⟩ := bundleFollows_eq_cons s c n ids
  rw [heq, keeps_cons]
  refine ⟨hjobs _, fun a ha t => ?_⟩
  cases hrest a ha with
  | stream z b needs hb => exact hcont _ t fun k => ⟨_, _, rfl⟩
  | drains f hf => exact hcont _ t fun k => ⟨_, _, rfl⟩

/-- Of one new instruction after the `n` under way, only the accesses that it follows change. -/
theorem jobs_bundleFollows {t : State} {js : List Job} {j : Job} (h : t.jobs = js ++ [j]) (s : State) (c : Fin 256) (ids : List Nat) :
    ∃ needs, (applyActs t (bundleFollows s c js.length ids)).jobs = js ++ [{ j with needs }] := by
  obtain ⟨follow, rest, heq, hfollow, hrest⟩ := bundleFollows_eq_cons s c js.length ids
  obtain ⟨needs, hneeds⟩ := hfollow j
  have hkeeps : Keeps State.jobs rest := fun a ha t => by cases hrest a ha <;> rfl
  refine ⟨needs, ?_⟩
  rw [heq, applyActs_cons, applyActs_keeps hkeeps, apply_jobs_jobs, h, List.take_left, List.drop_left, List.map_singleton, hneeds]

/-- The binding of each stream is as it was, but for the accesses that it follows. -/
theorem strm_bundleFollows {s t : State} (h : t.cores = s.cores) (c : Fin 256) (n : Nat) (ids : List Nat) (z : Fin 8) :
    (((applyActs t (bundleFollows s c n ids)).cores[c]).cont.strm[z]).map Binding.bare =
      ((s.cores[c]).cont.strm[z]).map Binding.bare := by
  obtain ⟨follow, rest, heq, -, hrest⟩ := bundleFollows_eq_cons s c n ids
  rw [heq, applyActs_cons]
  refine applyActs_preserves (P := fun u => ((u.cores[c]).cont.strm[z]).map Binding.bare =
      ((s.cores[c]).cont.strm[z]).map Binding.bare)
    (fun a ha u hu => ?_) (by rw [apply_jobs_cores, h])
  cases hrest a ha with
  | stream y b needs hb =>
    rw [cont_apply_cont]
    by_cases hy : z = y
    · subst hy
      rw [vset_same, hb]
      rfl
    · rwa [vset_other _ _ _ _ hy]
  | drains f hf => rwa [cont_apply_cont]

/-- The bindings that a core still drains are as they were, but for the accesses that they follow. -/
theorem drains_bundleFollows (s t : State) (c : Fin 256) (n : Nat) (ids : List Nat) :
    ((applyActs t (bundleFollows s c n ids)).cores[c]).cont.drains.map bareDrain = (t.cores[c]).cont.drains.map bareDrain := by
  obtain ⟨follow, rest, heq, -, hrest⟩ := bundleFollows_eq_cons s c n ids
  rw [heq, applyActs_cons]
  refine applyActs_keeps (π := fun t => (t.cores[c]).cont.drains.map bareDrain) (fun a ha t => ?_) _
  dsimp only
  cases hrest a ha with
  | stream z b needs hb => rw [cont_apply_cont]
  | drains f hf =>
    rw [cont_apply_cont, List.map_map]
    exact List.map_congr_left fun d _ => hf d

/-! ### The commit of an instruction of an engine -/

/-- The tags of a continuation: those that have completed, and those that are busy (R201). -/
def Cont.tagState (k : Cont) : W64 × W64 := (k.tags, k.busy)

@[simp] theorem tagState_issued (k : Cont) (b : Bundle) (token : Nat) (outs : List ((Slot × Instr) × Out)) (more : List Result) :
    (k.issued b token outs more).tagState = k.tagState := by
  obtain ⟨qs, qa, qb, strm, h⟩ := issued_frame k b token outs more
  rw [h]
  rfl

/-- The machine once the updates of an instruction's own have been made at its commit. -/
def State.acted (s : State) (i : Instr) (o : Out) : State :=
  applyActs s.landed ([.ids 8, .core s.focus fun x => x.issued (Bundle.single i) 0 s.landed.nextId (opsOf i) [((slotOf i, i), o)] []] ++
    o.acts)

/-- Cores after the updates of an instruction's own: those updates, on the machine in which its bundle issues. -/
theorem acted_cores (s : State) (i : Instr) (o : Out) : (s.acted i o).cores = (applyActs (s.issuing i o) o.acts).cores := by
  rw [State.acted, applyActs_append]
  refine applyActs_cores_congr ?_ _
  rfl

/-- At its commit an instruction of an engine makes its own updates, and then, reports and the clock aside, finds what its bundle
follows. -/
theorem done_eq_acted {s : State} {i : Instr} {o : Out} (hengine : usesEngine (opsOf i) = true) (hlast : o.last = []) :
    ∃ u ids n, (u.jobs = (s.acted i o).jobs ∧ u.cores = (s.acted i o).cores ∧ u.dies = (s.acted i o).dies ∧
        u.invals = (s.acted i o).invals) ∧
      s.done i o = (Act.clock n).apply (applyActs u (bundleFollows (s.acted i o) s.focus s.jobs.length ids)) := by
  refine ⟨applyActs (s.acted i o) (if s.landed.hub.dbg = 1 then [.report (.traced s.focus s.now.pc s.now.ts)] else []),
    (List.range 8).map (s.landed.nextId + ·), (s.landed.cores[s.focus]).clk + 1, ?_, ?_⟩
  · split <;> simp only [applyActs_cons, applyActs_nil, apply_report_jobs, apply_report_cores, apply_report_dies,
      apply_report_invals, and_self]
  · rw [done_eq]
    simp only [hengine, hlast, if_true, List.append_nil, applyActs_append, applyActs_cons, applyActs_nil, State.acted]
    rfl

section
variable {s : State} {i : Instr} {o : Out} (hengine : usesEngine (opsOf i) = true) (hlast : o.last = [])
include hengine hlast

/-- Invalidations and dies at the commit of an instruction of an engine: as its own updates leave them. -/
theorem done_invals_dies : (s.done i o).invals = (s.acted i o).invals ∧ (s.done i o).dies = (s.acted i o).dies := by
  obtain ⟨u, ids, n, ⟨-, -, hdies, hinvals⟩, heq⟩ := done_eq_acted hengine hlast
  rw [heq, apply_clock_invals, apply_clock_dies, ← hinvals, ← hdies]
  exact ⟨applyActs_keeps (π := State.invals) (keeps_bundleFollows (fun _ _ => rfl) (fun _ _ _ => rfl) _ _ _) u,
    applyActs_keeps (π := State.dies) (keeps_bundleFollows (fun _ _ => rfl) (fun _ _ _ => rfl) _ _ _) u⟩

/-- The new instruction at the commit of an instruction of an engine: as its own updates leave it, but for what it follows. -/
theorem done_jobs {j : Job} (h : (s.acted i o).jobs = s.jobs ++ [j]) : ∃ needs, (s.done i o).jobs = s.jobs ++ [{ j with needs }] := by
  obtain ⟨u, ids, n, ⟨hjobs, -⟩, heq⟩ := done_eq_acted hengine hlast
  rw [heq, apply_clock_jobs]
  exact jobs_bundleFollows (hjobs.trans h) _ _ _

/-- Tags at the commit of an instruction of an engine: as its own updates leave them. -/
theorem done_tags : ((s.done i o).cores[s.focus]).cont.tagState = ((s.acted i o).cores[s.focus]).cont.tagState := by
  obtain ⟨u, ids, n, ⟨-, hcores, -⟩, heq⟩ := done_eq_acted hengine hlast
  rw [heq, apply_clock_cores, ← hcores]
  refine applyActs_keeps (π := fun t => (t.cores[s.focus]).cont.tagState)
    (keeps_bundleFollows (fun _ _ => rfl) (fun f t hf => ?_) _ _ _) u
  obtain ⟨strm, drains, hk⟩ := hf (t.cores[s.focus]).cont
  rw [cont_apply_cont, hk]
  rfl

/-- Streams at the commit of an instruction of an engine: as its own updates leave them, but for what they follow. -/
theorem done_strm (z : Fin 8) : (((s.done i o).cores[s.focus]).cont.strm[z]).map Binding.bare =
    (((s.acted i o).cores[s.focus]).cont.strm[z]).map Binding.bare := by
  obtain ⟨u, ids, n, ⟨-, hcores, -⟩, heq⟩ := done_eq_acted hengine hlast
  rw [heq, apply_clock_cores]
  exact strm_bundleFollows hcores _ _ _ z

/-- The bindings still drained at the commit of an instruction of an engine. -/
theorem done_drains : ((s.done i o).cores[s.focus]).cont.drains.map bareDrain =
    ((s.acted i o).cores[s.focus]).cont.drains.map bareDrain := by
  obtain ⟨u, ids, n, ⟨-, hcores, -⟩, heq⟩ := done_eq_acted hengine hlast
  rw [heq, apply_clock_cores, ← hcores]
  exact drains_bundleFollows _ u _ _ _

end

/-! ### What a start leaves -/

/-- The instruction `j` of an engine that the slot of `e` starts is as `n` gives it. -/
structure Started (e : Env) (n : NewJob) (j : Job) : Prop where
  core : j.core = e.c
  cid : j.cid = e.k.cid
  ts : j.ts = e.k.ts
  padm : j.padm = e.k.padm
  work : j.work = n.work
  queue : j.queue = n.queue
  tag : j.tag = n.tag
  cls : j.cls = n.cls
  post : j.post = n.post
  mod : j.mod = n.mod
  dst : j.dst = n.dst
  a : j.a = n.a
  b : j.b = n.b
  c : j.c = n.c
  sa : j.sa = n.sa
  sb : j.sb = n.sb
  metaOp : j.metaOp = n.metaOp
  pieces : j.pieces = n.pieces

/-- A continuation's tag taken by a new instruction (R201): its TAGS bit is cleared, and it is busy. -/
def Cont.takeTag (tag : Fin 64) (k : Cont) : Cont :=
  { k with tags := k.tags &&& ~~~(1#64 <<< tag.val), busy := k.busy ||| (1#64 <<< tag.val) }

theorem tagState_takeTag (tag : Fin 64) {j k : Cont} (h : j.tagState = k.tagState) :
    (j.takeTag tag).tagState = (k.tags &&& ~~~(1#64 <<< tag.val), k.busy ||| (1#64 <<< tag.val)) := by
  obtain ⟨htags, hbusy⟩ := Prod.mk.inj h
  rw [Cont.tagState, Cont.takeTag, htags, hbusy]

/-- A start: one instruction joins those of the machine, and its tag is taken. -/
theorem startJob_eq (e : Env) (n : NewJob) : ∃ j, startJob e n = [.jobs (· ++ [j]), .cont e.c (Cont.takeTag n.tag)] ∧
    ∀ needs, Started e n { j with needs } :=
  ⟨_, rfl, fun _ => ⟨rfl, rfl, rfl, rfl, rfl, rfl, rfl, rfl, rfl, rfl, rfl, rfl, rfl, rfl, rfl, rfl, rfl, rfl⟩⟩

/-- An instruction of an engine whose updates start `n` and, beyond that, leave the instructions and the tags of its continuation:
at its commit one instruction joins those of the machine, its TAGS bit is cleared and its tag is busy. -/
theorem done_start {s : State} {i : Instr} {n : NewJob} {rest : List Act} (hengine : usesEngine (opsOf i) = true)
    (hjobs : Keeps State.jobs rest) (htags : Keeps (fun t => (t.cores[s.focus]).cont.tagState) rest) :
    let t := s.done i { acts := startJob (s.env i) n ++ rest }
    ∃ j, t.jobs = s.jobs ++ [j] ∧ Started (s.env i) n j ∧
      (t.cores[s.focus]).cont.tags = s.now.tags &&& ~~~(1#64 <<< n.tag.val) ∧
      (t.cores[s.focus]).cont.busy = s.now.busy ||| (1#64 <<< n.tag.val) := by
  obtain ⟨j, hstart, hstarted⟩ := startJob_eq (s.env i) n
  have hstart : startJob (s.env i) n = [.jobs (· ++ [j]), .cont s.focus (Cont.takeTag n.tag)] := hstart
  let o : Out := { acts := startJob (s.env i) n ++ rest }
  have hnew : (s.acted i o).jobs = s.jobs ++ [j] := by
    rw [State.acted, ← List.append_assoc, applyActs_append, applyActs_keeps hjobs, applyActs_append, hstart]
    rfl
  have htaken : ((s.acted i o).cores[s.focus]).cont.tagState =
      (s.now.tags &&& ~~~(1#64 <<< n.tag.val), s.now.busy ||| (1#64 <<< n.tag.val)) := by
    rw [acted_cores, applyActs_append, applyActs_keeps htags, hstart, applyActs_cons, applyActs_cons, applyActs_nil, cont_apply_cont,
      apply_jobs_cores, issuing_cont]
    exact tagState_takeTag _ (tagState_issued _ _ _ _ _)
  obtain ⟨needs, hneeds⟩ := done_jobs (o := o) hengine rfl hnew
  obtain ⟨htag, hbusy⟩ := Prod.mk.inj ((done_tags (o := o) hengine rfl).trans htaken)
  with_reducible exact ⟨_, hneeds, hstarted needs, htag, hbusy⟩

end Sys2Proof.Machine
end

section
/-! SUPPORT. The T slot (R201, R210, R211, R216, R237): which operand of a tile instruction each role is, and its start. -/

namespace Sys2Proof.Machine

/-- A key that occurs once finds its own entry. -/
theorem find?_fst_of_nodup {α β : Type} [BEq α] [LawfulBEq α] {xs : List (α × β)} (h : (xs.map Prod.fst).Nodup) {x : α × β}
    (hx : x ∈ xs) :
    xs.find? (fun y => y.1 == x.1) = some x := by
  induction xs with
  | nil => cases hx
  | cons y ys ih =>
    obtain ⟨hy, hys⟩ := List.nodup_cons.mp h
    rcases List.mem_cons.mp hx with rfl | hx
    · exact List.find?_cons_of_pos (beq_self_eq_true _)
    · have hne : y.1 ≠ x.1 := fun he => hy (he ▸ List.mem_map_of_mem hx)
      rw [List.find?_cons_of_neg (by simpa using hne), ih hys hx]

/-- A tile instruction names each role once (R215). -/
theorem nodup_tileRoles (k : Cont) (op : TileOp) (o : TOps) : ((tileRoles k op o).map Prod.fst).Nodup := by
  have hsources : (tileSources op (modTop o.mod)).Sublist [.a, .b, .c] := by
    cases op <;> cases modTop o.mod <;> decide
  have hnamed (r : Role) (t : Fin 32) : ((namedBy r t).map Prod.fst).Sublist [r] := by
    unfold namedBy
    split
    · exact List.nil_sublist _
    · exact List.Sublist.refl _
  have hscales (t u : Fin 32) : ((if contracts op then namedBy .sa t ++ namedBy .sb u else []).map Prod.fst).Sublist [.sa, .sb] := by
    split
    · rw [List.map_append]
      exact (hnamed .sa _).append (hnamed .sb _)
    · exact List.nil_sublist _
  have hmeta (t : Fin 32) : ((if op = .spm then namedBy .md t else []).map Prod.fst).Sublist [.md] := by
    split
    · exact hnamed .md _
    · exact List.nil_sublist _
  have hdst : ([(Role.dst, o.dst)].map Prod.fst).Sublist [Role.dst] := List.Sublist.refl _
  have hroles : ((tileRoles k op o).map Prod.fst).Sublist
      ([Role.dst] ++ [Role.a, Role.b, Role.c] ++ [Role.sa, Role.sb] ++ [Role.md]) := by
    rw [tileRoles, List.map_append, List.map_append, List.map_append, List.map_map]
    refine ((hdst.append ?_).append (hscales _ _)).append (hmeta _)
    simpa [Function.comp_def] using hsources
  exact hroles.nodup (by decide)

/-- The operand of a role is the resolved descriptor of the register that the instruction names in that role. -/
theorem find?_tileRoles {k : Cont} {op : TileOp} {o : TOps} {x : Role × Fin 32} (h : x ∈ tileRoles k op o) :
    (tileRoles k op o).find? (fun y => y.1 == x.1) = some x :=
  find?_fst_of_nodup (nodup_tileRoles k op o) h

/-- The instruction stands in slot T, issues with the checks and the start of `op`, and has no last stage. -/
structure TileInstr (i : Instr) (w : Work) (op : TileOp) (o : TOps) (queued : Bool) : Prop where
  engine : usesEngine (opsOf i) = true
  issues : ∀ s, exec i s = issueOne s i
  eff : slotEff i = tileIssue w op o queued
  stage : slotStage i = none

/-- A tile instruction whose checks find nothing starts (R216, R237). -/
theorem tileIssue_of_checks {e : Env} {w : Work} {op : TileOp} {o : TOps} {queued : Bool}
    (hpoison : namedPoison e (tileNamed e.k op o) (tileHolder op o) = none) (hbad : firstBad (tileBads e op o) = none)
    (hwindow : windowTrap e.k e.k.padm ((tileRoles e.k op o).map fun x => e.k.t[x.2]) = none) :
    tileIssue w op o queued e = .ok { acts := startJob e (tileJob e w op o queued) } := by
  simp only [tileIssue, hpoison, hbad, hwindow]

/-- Every instruction of slot T that has work, by its operation. -/
theorem tileInstr_of_mem {g : Guard} {o : TOps} {p : Instr × TileOp}
    (h : p ∈ [(.tadd g o, .add), (.tsub g o, .sub), (.tmul g o, .mul), (.tmax g o, .max), (.tmin g o, .min),
        (.tabs g o, .abs), (.tcvt g o, .cvt), (.tscl g o, .scl), (.tfill g o, .fill), (.tsel g o, .sel), (.tlut g o, .lut),
        (.tred g o, .red), (.tmma g o, .mma), (.tspm g o, .spm)]) : TileInstr p.1 (.tile p.2) p.2 o true := by
  revert p
  simp only [List.forall_mem_cons]
  exact ⟨⟨rfl, fun _ => rfl, rfl, rfl⟩, ⟨rfl, fun _ => rfl, rfl, rfl⟩, ⟨rfl, fun _ => rfl, rfl, rfl⟩, ⟨rfl, fun _ => rfl, rfl, rfl⟩,
    ⟨rfl, fun _ => rfl, rfl, rfl⟩, ⟨rfl, fun _ => rfl, rfl, rfl⟩, ⟨rfl, fun _ => rfl, rfl, rfl⟩, ⟨rfl, fun _ => rfl, rfl, rfl⟩,
    ⟨rfl, fun _ => rfl, rfl, rfl⟩, ⟨rfl, fun _ => rfl, rfl, rfl⟩, ⟨rfl, fun _ => rfl, rfl, rfl⟩, ⟨rfl, fun _ => rfl, rfl, rfl⟩,
    ⟨rfl, fun _ => rfl, rfl, rfl⟩, ⟨rfl, fun _ => rfl, rfl, rfl⟩, List.forall_mem_nil _⟩

/-- The operands that a tile instruction starts with (R210, R215): each the resolved descriptor of the register named. -/
theorem tileJob_operands (e : Env) (w : Work) (op : TileOp) (o : TOps) (queued : Bool) :
    let found (t : Fin 32) : Opnd := resolve e.k e.c e.k.padm e.k.t[t]
    let n := tileJob e w op o queued
    n.dst = found o.dst ∧ (op = .fill → n.a.d = e.k.t[o.a]) ∧
      ∀ x ∈ tileRoles e.k op o, (x.1 = .a → op ≠ .fill → n.a = found x.2) ∧ (x.1 = .b → n.b = found x.2) ∧
        (x.1 = .c → n.c = found x.2) ∧ (x.1 = .sa → n.sa = some (found x.2)) ∧ (x.1 = .sb → n.sb = some (found x.2)) ∧
        (x.1 = .md → n.metaOp = some (found x.2)) := by
  intro found n
  have get {r : Role} {t : Fin 32} (h : (r, t) ∈ tileRoles e.k op o) :
      ((tileRoles e.k op o).find? fun x => x.1 == r).map (fun x => resolve e.k e.c e.k.padm e.k.t[x.2]) = some (found t) := by
    rw [show (tileRoles e.k op o).find? (fun x => x.1 == r) = some (r, t) from find?_tileRoles h]
    rfl
  have hdst : (Role.dst, o.dst) ∈ tileRoles e.k op o := by simp [tileRoles]
  refine ⟨?_, fun hfill => ?_, fun ⟨r, t⟩ hx => ⟨?_, ?_, ?_, ?_, ?_, ?_⟩⟩
  · simp only [n, tileJob, get hdst, Option.getD_some]
  · simp only [n, tileJob, hfill, if_true]
  · rintro rfl hfill
    simp only [n, tileJob, hfill, if_false, get hx, Option.getD_some]
  · rintro rfl
    simp only [n, tileJob, get hx, Option.getD_some]
  · rintro rfl
    simp only [n, tileJob, get hx, Option.getD_some]
  · rintro rfl
    exact get hx
  · rintro rfl
    exact get hx
  · rintro rfl
    exact get hx

/-- Settles O20: the start at commit, with the operands of each role; `place` is the same of the operation it asks about. -/
theorem tileStart : Obligations.TileStart := by
  unfold Obligations.TileStart
  intro s g o found starts
  have hstarts {i : Instr} {w : Work} {op : TileOp} {queued : Bool} (hi : TileInstr i w op o queued) : starts i w op := by
    intro h hpoison hbad hwindow
    have heff : slotEff i (s.env i) = .ok { acts := startJob (s.env i) (tileJob (s.env i) w op o queued) ++ [] } := by
      rw [hi.eff, List.append_nil]
      exact tileIssue_of_checks hpoison hbad hwindow
    have htag : (tileJob (s.env i) w op o queued).tag = o.tag := rfl
    obtain ⟨j, hjobs, hj, htags, hbusy⟩ :=
      done_start (n := tileJob (s.env i) w op o queued) (s := s) hi.engine (keeps_nil (π := State.jobs)) keeps_nil
    rw [htag] at htags hbusy
    obtain ⟨hdst, hfill, hroles⟩ := tileJob_operands (s.env i) w op o queued
    refine ⟨_, j, h.exec_of_eff (hi.issues s) hi.stage heff, hjobs, hj.work, hj.core, hj.cid, hj.tag.trans htag, ?_, hj.padm, hj.ts,
      hj.mod, hj.pieces, hj.dst.trans hdst, fun h => (congrArg Opnd.d hj.a).trans (hfill h), fun x hx => ?_,
      by with_reducible exact htags, by with_reducible exact hbusy⟩
    · rw [hj.queue]
      exact Nat.mod_eq_of_lt (show o.tq.val < 8 by omega)
    · rw [hj.a, hj.b, hj.c, hj.sa, hj.sb, hj.metaOp]
      exact hroles x hx
  exact ⟨fun p hp => hstarts (tileInstr_of_mem hp), fun op => hstarts (queued := false) ⟨rfl, fun _ => rfl, rfl, rfl⟩⟩

end Sys2Proof.Machine
end

section
/-! SUPPORT. The C slot (R176, R181, R199, R201): what a copy instruction starts, once its own checks are passed. -/

namespace Sys2Proof.Machine

/-- A copy instruction whose own checks trap nothing has its effect (R393). -/
theorem copyIssue_ok {e : Env} {regs : List (Fin 32)} {bads : List Bad} {ds : List Desc} {go : Except Trap Out}
    {holders : List (Fin 32)} {out : Out} (h : copyIssue e regs bads ds go holders = .ok out) : go = .ok out := by
  unfold copyIssue at h
  split at h
  · cases h
  split at h
  · cases h
  split at h
  · cases h
  exact h

/-- What is started has the queue, the tag, the class and the flag that the common field names (R176), and no pieces yet. -/
structure NewJob.CopyOf (n : NewJob) (o : COps) : Prop where
  queue : n.queue = copyQueue o.queue
  tag : n.tag = o.tag
  cls : n.cls = classMask o.cls
  post : n.post = o.post
  pieces : n.pieces = []

/-- Where the checks of an effect trap nothing, it starts one instruction of the common field `o`, with the work `w` if that is
named. -/
def Copies (f : Eff) (o : COps) (w : Option Work) : Prop :=
  ∀ e out, f e = .ok out → ∃ n : NewJob, out = { acts := startJob e n } ∧ n.CopyOf o ∧ ∀ v, w = some v → n.work = v

/-- The instruction stands in slot C, issues without a last stage, and copies. -/
structure CopyInstr (i : Instr) (o : COps) (w : Option Work) (f : Eff) : Prop where
  engine : usesEngine (opsOf i) = true
  issues : ∀ s, exec i s = issueOne s i
  stage : slotStage i = none
  eff : slotEff i = f
  copies : Copies f o w

/-- The job of a copy with the common field is of that field, and does what it is given (R176). -/
theorem copyJob_copyOf (e : Env) (o : COps) (w : Work) (dst a b : Option Desc) :
    (copyJob e o w dst a b).CopyOf o ∧ (copyJob e o w dst a b).work = w := ⟨⟨rfl, rfl, rfl, rfl, rfl⟩, rfl⟩

/-- An effect of `copyIssue` starts what it is given. -/
theorem starts_of_copyIssue {e : Env} {o : COps} {w : Work} {regs : List (Fin 32)} {bads : List Bad} {ds : List Desc}
    {holders : List (Fin 32)} {n : NewJob} {out : Out} (hn : n.CopyOf o ∧ n.work = w)
    (h : copyIssue e regs bads ds (.ok { acts := startJob e n }) holders = .ok out) :
    ∃ n : NewJob, out = { acts := startJob e n } ∧ n.CopyOf o ∧ ∀ v, some w = some v → n.work = v :=
  ⟨n, (Except.ok.inj (copyIssue_ok h)).symm, hn.1, fun _ hv => hn.2.trans (Option.some.inj hv)⟩

theorem copies_cpy (o : COps) : Copies (effCpy o) o (some .cpy) := by
  intro e out h
  unfold effCpy at h
  exact starts_of_copyIssue (copyJob_copyOf _ _ _ _ _ _) h

theorem copies_indexed (o : COps) (w : Work) (gather : Bool) : Copies (indexed w gather o) o (some w) := by
  intro e out h
  unfold indexed at h
  exact starts_of_copyIssue (copyJob_copyOf _ _ _ _ _ _) h

theorem copies_flume (o : COps) : Copies (effFlume o) o (some .flume) := by
  intro e out h
  unfold effFlume at h
  exact starts_of_copyIssue (copyJob_copyOf _ _ _ _ _ _) h

theorem copies_catom (o : COps) (op : AtomOp) : Copies (effCatom o op) o (some (.catom op)) := by
  intro e out h
  unfold effCatom at h
  exact starts_of_copyIssue (copyJob_copyOf _ _ _ _ _ _) h

theorem copies_wsa (o : COps) : Copies (effWsa o) o (some .wsa) := by
  intro e out h
  unfold effWsa at h
  exact starts_of_copyIssue ⟨⟨rfl, rfl, rfl, rfl, rfl⟩, rfl⟩ h

theorem copies_wred (o : COps) : Copies (effWred o) o (some .wred) := by
  intro e out h
  unfold effWred at h
  exact starts_of_copyIssue (copyJob_copyOf _ _ _ _ _ _) h

theorem copies_wstat (o : COps) : Copies (effWstat o) o (some .wstat) := by
  intro e out h
  unfold effWstat at h
  exact starts_of_copyIssue (copyJob_copyOf _ _ _ _ _ _) h

theorem copies_redf (o : COps) (op : RedOp) : Copies (effRedf o op) o (some (.redf op)) := by
  intro e out h
  unfold effRedf at h
  exact starts_of_copyIssue (copyJob_copyOf _ _ _ _ _ _) h

theorem copies_hot (o : COps) (clr : Bool) : Copies (effHot o clr) o (some (.hot clr)) := by
  intro e out h
  unfold effHot at h
  exact starts_of_copyIssue (copyJob_copyOf _ _ _ _ _ _) h

/-- An `mcast` has further checks, of its list and of the destinations that this names (R182). -/
theorem copies_mcast (o : COps) : Copies (effMcast o) o none := by
  intro e out h
  unfold effMcast at h
  have hgo := copyIssue_ok h
  dsimp only at hgo
  split at hgo
  · cases hgo
  split at hgo
  · cases hgo
  split at hgo
  · cases hgo
  split at hgo
  · cases hgo
  exact ⟨_, (Except.ok.inj hgo).symm, (copyJob_copyOf _ _ _ _ _ _).1, nofun⟩

/-- Every copy instruction, with the work that its row of R176 names. -/
theorem copyInstr_of_mem {g : Guard} {o : COps} {aop : AtomOp} {rop : RedOp} {clr : Bool} {p : Instr × Option Work}
    (h : p ∈ [(.cpy g o, some .cpy), (.gath g o, some .gath), (.scat g o, some .scat), (.mcast g o, none),
        (.flume g o, some .flume), (.catom g o aop, some (.catom aop)), (.wsa g o, some .wsa), (.wred g o, some .wred),
        (.wstat g o, some .wstat), (.redf g o rop, some (.redf rop)), (.hot g o clr, some (.hot clr))]) :
    ∃ f, CopyInstr p.1 o p.2 f := by
  revert p
  simp only [List.forall_mem_cons]
  exact ⟨
    ⟨_, rfl, fun _ => rfl, rfl, rfl, copies_cpy o⟩,
    ⟨_, rfl, fun _ => rfl, rfl, rfl, copies_indexed o .gath true⟩,
    ⟨_, rfl, fun _ => rfl, rfl, rfl, copies_indexed o .scat false⟩,
    ⟨_, rfl, fun _ => rfl, rfl, rfl, copies_mcast o⟩,
    ⟨_, rfl, fun _ => rfl, rfl, rfl, copies_flume o⟩,
    ⟨_, rfl, fun _ => rfl, rfl, rfl, copies_catom o aop⟩,
    ⟨_, rfl, fun _ => rfl, rfl, rfl, copies_wsa o⟩,
    ⟨_, rfl, fun _ => rfl, rfl, rfl, copies_wred o⟩,
    ⟨_, rfl, fun _ => rfl, rfl, rfl, copies_wstat o⟩,
    ⟨_, rfl, fun _ => rfl, rfl, rfl, copies_redf o rop⟩,
    ⟨_, rfl, fun _ => rfl, rfl, rfl, copies_hot o clr⟩,
    List.forall_mem_nil _⟩

/-- A copy queue stands after the tile queues (R176, R198). -/
theorem copyQueue_val (q : Fin 4) : (copyQueue q).val = 4 + q.val := Nat.mod_eq_of_lt (show 4 + q.val < 8 by omega)

/-- An effect that is no trap is an outcome. -/
theorem exists_ok_of_ne_error {x : Except Trap Out} (h : ∀ t, x ≠ .error t) : ∃ o, x = .ok o := by
  cases x with
  | error t => exact absurd rfl (h t)
  | ok o => exact ⟨o, rfl⟩

end Sys2Proof.Machine

namespace Sys2Proof
open Machine

/-- Settles O21: the start at commit of what each copy instruction starts when its checks trap nothing. -/
theorem copyStart : Obligations.CopyStart := by
  unfold Obligations.CopyStart
  intro s g o aop rop clr p hp h hnotrap
  obtain ⟨f, hi⟩ := copyInstr_of_mem hp
  obtain ⟨out, hout⟩ := exists_ok_of_ne_error hnotrap
  obtain ⟨n, rfl, hn, hwork⟩ := hi.copies _ _ (hi.eff ▸ hout)
  have heff : slotEff p.1 (s.env p.1) = .ok { acts := startJob (s.env p.1) n ++ [] } := by rw [hout, List.append_nil]
  obtain ⟨j, hjobs, hj, htags, hbusy⟩ := done_start (n := n) (s := s) hi.engine (keeps_nil (π := State.jobs)) keeps_nil
  rw [hn.tag] at htags hbusy
  refine ⟨_, j, h.exec_of_eff (hi.issues s) hi.stage heff, hjobs, fun w hw => hj.work.trans (hwork w hw), hj.core,
    hj.tag.trans hn.tag, ?_, hj.cls.trans hn.cls, hj.post.trans hn.post, hj.ts, hj.pieces.trans hn.pieces,
    by with_reducible exact htags, by with_reducible exact hbusy⟩
  rw [hj.queue, hn.queue, copyQueue_val]

end Sys2Proof
end

section
/-! SUPPORT. Streams bound and unbound (R195), and invalidations begun (R190, R191). -/

namespace Sys2Proof.Machine

/-! ### Streams -/

/-- A continuation whose stream `z` is bound. -/
def Cont.bindStream (z : Fin 8) (b : Binding) (k : Cont) : Cont := { k with strm := vset k.strm z (some b) }

/-- A `strm` none of whose checks traps binds its stream, its pattern at its start (R161, R195). -/
theorem effStrm_ok {d : Fin 32} {z : Fin 8} {out : Bool} {w : BitVec 2} {cls : BitVec 4} {q : Fin 4} {e : Env} {o : Out}
    (h : effStrm d z out w cls q e = .ok o) : ∃ b : Binding,
      o = { acts := [.cont e.c (Cont.bindStream z b)] } ∧ b.out = out ∧ b.width = w ∧ b.pos = 0 ∧ b.buf = [] ∧
        b.base = bits e.k.t[d] 0 64 := by
  unfold effStrm at h
  dsimp only at h
  split at h
  · cases h
  split at h
  · cases h
  split at h
  · cases h
  split at h
  · cases h
  split at h
  · cases h
  exact ⟨_, (Except.ok.inj h).symm, rfl, rfl, rfl, rfl, rfl⟩

/-- Bindings that agree but for what they follow have the same shape, the same elements and the same place in the queues. -/
theorem fields_of_bare {y b : Binding} (h : y.bare = b.bare) :
    (y.out = b.out ∧ y.width = b.width ∧ y.pos = b.pos ∧ y.buf = b.buf ∧ y.base = b.base) ∧
      y.fetched = b.fetched ∧ y.failure = b.failure ∧ y.cls = b.cls ∧ y.queue = b.queue := by
  simp only [Binding.bare, Binding.mk.injEq] at h
  simp only [h, and_self]

/-- A binding that agrees with another but for what it follows. -/
theorem exists_of_bare_some {x : Option Binding} {b : Binding} (h : x.map Binding.bare = some b.bare) :
    ∃ y, x = some y ∧ y.bare = b.bare := by simpa using h

/-- The binding that a stream has at the commit of an instruction whose own updates bind it. -/
theorem done_binds {s : State} {i : Instr} {o : Out} {z : Fin 8} {b : Binding} (hengine : usesEngine (opsOf i) = true)
    (hlast : o.last = []) (h : ((s.acted i o).cores[s.focus]).cont.strm[z] = some b) :
    ∃ y, ((s.done i o).cores[s.focus]).cont.strm[z] = some y ∧ y.bare = b.bare := by
  refine exists_of_bare_some ((done_strm hengine hlast z).trans ?_)
  rw [h]
  rfl

/-- The piece under which an `unstrm` waits for its stream: of an output binding until it is drained, of an input one over (R195). -/
def unstrmPiece (b : Binding) : Piece := { Piece.fresh [] 0 none with st := if b.out then .started else .ended 0 }

/-- What an `unstrm` of the binding `b` starts (R195). -/
def unstrmJob (b : Binding) (tag : Fin 64) (cls : BitVec 4) (q : Fin 4) (post : FlagTo) : NewJob :=
  { work := .unstrm b, queue := copyQueue q, tag, cls := classMask cls, post, prepared := true, pieces := [unstrmPiece b] }

/-- A continuation whose stream `z`, bound to `b` or what has become of it, is unbound; elements of an output binding go on being
drained, in the class and the queue given (log entry 80). -/
def Cont.unbind (z : Fin 8) (b : Binding) (id : Nat) (cls : BitVec 4) (q : Fin 4) (after : List Nat) (k : Cont) : Cont :=
  { k with strm := vset k.strm z none
           drains := if b.out then k.drains ++ [(id, z, ((k.strm[z]).getD b).left cls q after)] else k.drains }

/-- The elements of an output binding go on being drained. -/
theorem drains_unbind {k : Cont} {z : Fin 8} {b : Binding} {id : Nat} {cls : BitVec 4} {q : Fin 4} {after : List Nat}
    (hout : b.out = true) (hbound : k.strm[z] = some b) :
    (k.unbind z b id cls q after).drains = k.drains ++ [(id, z, b.left cls q after)] := by
  rw [Cont.unbind, if_pos hout, hbound]
  rfl

/-- What an `unstrm` does besides its start (R195). -/
def unbindActs (e : Env) (z : Fin 8) (b : Binding) (cls : BitVec 4) (q : Fin 4) : List Act :=
  .cont e.c (Cont.unbind z b e.id cls q (followedJobs e.s e.k.cid (copyQueue q) e.k.fences)) ::
    if b.out then [] else [.faults fun fs => fs.filter fun f => !f.who.ofBinding b.id]

/-- An `unstrm` of a bound stream with a tag that is not busy (R195). -/
theorem effUnstrm_of_bound {z : Fin 8} {tag : Fin 64} {cls : BitVec 4} {q : Fin 4} {post : FlagTo} {e : Env} {b : Binding}
    (hbound : e.k.strm[z] = some b) (hfree : e.k.busy.getLsbD tag.val = false) :
    effUnstrm z tag cls q post e =
      .ok { acts := startJob e (unstrmJob b tag cls q post) ++ unbindActs e z b cls q } := by
  have hfree : tagBusy e.k tag = false := hfree
  simp only [effUnstrm, hbound, hfree, Bool.false_eq_true, if_false, List.append_assoc]
  rfl

/-- What an `unstrm` does besides its start leaves every instruction, and the tags of its continuation. -/
theorem unbindActs_keep (e : Env) (z : Fin 8) (b : Binding) (cls : BitVec 4) (q : Fin 4) :
    Keeps State.jobs (unbindActs e z b cls q) ∧ Keeps (fun t => (t.cores[e.c]).cont.tagState) (unbindActs e z b cls q) := by
  have hcont (t : State) (f : Cont → Cont) (hf : ∀ k, (f k).tagState = k.tagState) :
      (((Act.cont e.c f).apply t).cores[e.c]).cont.tagState = (t.cores[e.c]).cont.tagState := by
    rw [cont_apply_cont, hf]
  unfold unbindActs
  constructor
  · rw [keeps_cons]
    exact ⟨fun _ => rfl, by split <;> simp⟩
  · rw [keeps_cons]
    exact ⟨fun t => hcont t _ fun _ => rfl, by split <;> simp⟩

/-- The continuation of an `unstrm` once its own updates are made: as it issues, its tag taken and its stream unbound. -/
theorem acted_unbind {s : State} {i : Instr} {o : Out} {z : Fin 8} {b : Binding} {tag : Fin 64} {cls : BitVec 4} {q : Fin 4}
    {post : FlagTo} (ho : o.acts = startJob (s.env i) (unstrmJob b tag cls q post) ++ unbindActs (s.env i) z b cls q) :
    ((s.acted i o).cores[s.focus]).cont = ((s.now.issued (Bundle.single i) s.landed.nextId [((slotOf i, i), o)] []).takeTag tag).unbind
      z b (s.env i).id cls q (followedJobs (s.env i).s (s.env i).k.cid (copyQueue q) (s.env i).k.fences) := by
  obtain ⟨j, hstart, -⟩ := startJob_eq (s.env i) (unstrmJob b tag cls q post)
  have hstart : startJob (s.env i) (unstrmJob b tag cls q post) = [.jobs (· ++ [j]), .cont s.focus (Cont.takeTag tag)] := hstart
  have hunbind : unbindActs (s.env i) z b cls q = .cont s.focus (Cont.unbind z b (s.env i).id cls q
      (followedJobs (s.env i).s (s.env i).k.cid (copyQueue q) (s.env i).k.fences)) ::
        if b.out then [] else [.faults fun fs => fs.filter fun f => !f.who.ofBinding b.id] := rfl
  have hfaults (t : State) : (applyActs t (if b.out then [] else [.faults fun fs => fs.filter fun f => !f.who.ofBinding b.id])).cores =
      t.cores := by split <;> rfl
  rw [acted_cores, ho, applyActs_append, hstart, hunbind]
  simp only [applyActs_cons, applyActs_nil, hfaults]
  rw [cont_apply_cont, cont_apply_cont, apply_jobs_cores, issuing_cont]

/-- Issuing an instruction that reads and writes no stream leaves the streams and what is drained. -/
theorem issued_streamless (k : Cont) {i : Instr} (x : Slot) (o : Out) (b : Bundle) (token : Nat) (hpops : (instrUse i).pops = [])
    (hstreams : (instrUse i).streams = []) :
    (k.issued b token [((x, i), o)] []).strm = k.strm ∧ (k.issued b token [((x, i), o)] []).drains = k.drains := by
  simp only [Cont.issued, Cont.popPush, hpops, hstreams, List.foldl_cons, List.foldl_nil, List.filter_nil, and_self]

/-- A binding of the bindings still drained, before what they follow is found, is found after it but for that. -/
theorem exists_mem_of_bareDrain {xs ys : List (Nat × Fin 8 × Binding)} (h : xs.map bareDrain = ys.map bareDrain)
    {n : Nat} {z : Fin 8} {b : Binding} (hb : (n, z, b) ∈ ys) : ∃ y, (n, z, y) ∈ xs ∧ y.bare = b.bare := by
  have hmem : bareDrain (n, z, b) ∈ xs.map bareDrain := h ▸ List.mem_map_of_mem hb
  obtain ⟨⟨m, v, y⟩, hy, heq⟩ := List.mem_map.mp hmem
  obtain ⟨rfl, rfl, hbare⟩ : m = n ∧ v = z ∧ y.bare = b.bare := by simpa [bareDrain] using heq
  exact ⟨y, hy, hbare⟩

/-- What an `unstrm` of a bound stream leaves (R195). -/
theorem done_unbind {s : State} {i : Instr} {o : Out} {z : Fin 8} {b : Binding} {tag : Fin 64} {cls : BitVec 4} {q : Fin 4}
    {post : FlagTo} (hengine : usesEngine (opsOf i) = true) (hpops : (instrUse i).pops = []) (hstreams : (instrUse i).streams = [])
    (hlast : o.last = []) (ho : o.acts = startJob (s.env i) (unstrmJob b tag cls q post) ++ unbindActs (s.env i) z b cls q)
    (hbound : s.now.strm[z] = some b) :
    ((s.done i o).cores[s.focus]).cont.strm[z] = none ∧
      (b.out = true → ((s.done i o).cores[s.focus]).cont.drains.length = s.now.drains.length + 1 ∧
        ∃ n y after, (n, z, y) ∈ ((s.done i o).cores[s.focus]).cont.drains ∧ y.bare = (b.left cls q after).bare) := by
  obtain ⟨hstrm, hdrains⟩ := issued_streamless s.now (slotOf i) o (Bundle.single i) s.landed.nextId hpops hstreams
  have hacted := acted_unbind ho
  have hnone : ((s.acted i o).cores[s.focus]).cont.strm[z] = none := by
    rw [hacted, Cont.unbind, vset_same]
  have hfinal := done_strm (s := s) (i := i) hengine hlast z
  rw [hnone] at hfinal
  refine ⟨Option.map_eq_none_iff.mp hfinal, fun hout => ?_⟩
  have hadded : ((s.acted i o).cores[s.focus]).cont.drains = s.now.drains ++
      [((s.env i).id, z, b.left cls q (followedJobs (s.env i).s (s.env i).k.cid (copyQueue q) (s.env i).k.fences))] := by
    have hissued : ((s.now.issued (Bundle.single i) s.landed.nextId [((slotOf i, i), o)] []).takeTag tag).strm[z] = some b :=
      (congrArg (·[z]) hstrm).trans hbound
    rw [hacted]
    exact (drains_unbind hout hissued).trans (congrArg (· ++ _) hdrains)
  have hsame := done_drains (s := s) (i := i) hengine hlast
  rw [hadded] at hsame
  obtain ⟨y, hy, hbare⟩ := exists_mem_of_bareDrain hsame (List.mem_append_right _ (List.mem_singleton_self _))
  exact ⟨by simpa using congrArg List.length hsame, _, y, _, hy, hbare⟩

/-! ### Invalidations -/

/-- The invalidation that a `tlbi` begins: the cores and the pieces that it waits for aside (R190, R191). -/
def tlbiInval (e : Env) (a : Spec) (kind : TlbiKind) (part : BitVec 4) (tag : Fin 64) : Inval :=
  { id := e.id, core := e.c, cid := e.k.cid, tag, ts := e.k.ts, kind, part := fin 15 part.toNat
    va := (e.k.scalar a).toNat, start := e.x.clk, waiting := [], pieces := [] }

/-- That invalidation, with the cores that must acknowledge it and the pieces that hold a translation that it reaches (R191). -/
def Inval.begun (v : Inval) (s : State) : Inval :=
  { v with waiting := (List.finRange 256).filter fun c => v.asks s.cores[c], pieces := (List.finRange 256).flatMap (v.holders s) }

/-- The translations of every die that an invalidation reaches are dropped (R190). -/
def dropActs (v : Inval) : List Act :=
  (List.finRange 4).map fun d => .die d fun x => { x with tlb := x.tlb.filter fun t => !(v.covers t.part t.va t.size) }

/-- What the begin of an invalidation does (R190, R191). -/
def beginActs (e : Env) (v : Inval) : List Act :=
  [.invals fun vs => vs ++ [v.begun e.s], .cont e.c (Cont.takeTag v.tag)] ++ dropActs v

/-- A `tlbi` with a tag that is not busy begins its invalidation (R190, R191). -/
theorem effTlbi_of_free {a : Spec} {kind : TlbiKind} {part : BitVec 4} {tag : Fin 64} {e : Env}
    (hfree : e.k.busy.getLsbD tag.val = false) :
    effTlbi a kind part tag e = .ok { acts := beginActs e (tlbiInval e a kind part tag) } := by
  have hfree : tagBusy e.k tag = false := hfree
  simp only [effTlbi, hfree, Bool.false_eq_true, if_false]
  rfl

/-- After the translations that an invalidation reaches are dropped in some dies, none of those dies holds one. -/
theorem tlb_dropped (v : Inval) {m : Fin 4} (ds : List (Fin 4)) {t : State}
    (h : m ∈ ds ∨ ∀ y ∈ (t.dies[m]).tlb, v.covers y.part y.va y.size = false) :
    ∀ y ∈ ((applyActs t (ds.map fun d => .die d fun x =>
      { x with tlb := x.tlb.filter fun t => !(v.covers t.part t.va t.size) })).dies[m]).tlb, v.covers y.part y.va y.size = false := by
  induction ds generalizing t with
  | nil => exact h.resolve_left List.not_mem_nil
  | cons d ds ih =>
    refine ih ?_
    rw [apply_die_dies]
    by_cases hd : m = d
    · subst hd
      rw [vset_same]
      exact .inr fun y hy => by simpa using (List.mem_filter.mp hy).2
    · rw [vset_other _ _ _ _ hd]
      exact h.imp_left fun hm => (List.mem_cons.mp hm).resolve_left hd

/-- No update of dies changes the invalidations. -/
theorem dropActs_keep_invals (v : Inval) : Keeps State.invals (dropActs v) := by simp [dropActs]

/-- What an instruction of an engine that begins an invalidation leaves: it is under way, and no die holds a translation that it
reaches. -/
theorem done_begin {s : State} {i : Instr} (v : Inval) (hengine : usesEngine (opsOf i) = true) :
    let t := s.done i { acts := beginActs (s.env i) v }
    v.begun (s.env i).s ∈ t.invals ∧ ∀ m : Fin 4, ∀ y ∈ (t.dies[m]).tlb, v.covers y.part y.va y.size = false := by
  obtain ⟨hinvals, hdies⟩ := done_invals_dies (s := s) (o := { acts := beginActs (s.env i) v }) hengine rfl
  intro t
  rw [hinvals, hdies, State.acted, beginActs, ← List.append_assoc, applyActs_append, applyActs_keeps (dropActs_keep_invals v)]
  exact ⟨List.mem_append_right _ (List.mem_singleton_self _), fun m => tlb_dropped v (List.finRange 4) (.inl (List.mem_finRange m))⟩

/-- A partition's number as `tlbi` has it. -/
theorem fin_part (part : BitVec 4) : (fin 15 part.toNat).val = part.toNat := Nat.mod_eq_of_lt part.isLt

/-- A `strm` none of whose checks traps binds its stream (R195). -/
theorem strm_binds {s : State} {i : Instr} {g : Guard} {d : Fin 32} {z : Fin 8} {out : Bool} {w : BitVec 2} {cls : BitVec 4}
    {q : Fin 4} (hi : i = .strm g d z out w cls q) (h : Goes s i) (hnotrap : ∀ t, slotEff i (s.env i) ≠ .error t) :
    ∃ t b, exec i s = .next t ∧ (t.cores[s.focus]).cont.strm[z] = some b ∧ b.out = out ∧ b.width = w ∧ b.pos = 0 ∧ b.buf = [] ∧
      b.base = s.now.t[d].setWidth 64 := by
  subst hi
  obtain ⟨o, ho⟩ := exists_ok_of_ne_error hnotrap
  obtain ⟨b, rfl, hout, hwidth, hpos, hbuf, hbase⟩ := effStrm_ok ho
  let o : Out := { acts := [.cont s.focus (Cont.bindStream z b)] }
  have hexec : exec (.strm g d z out w cls q) s = .next (s.done (.strm g d z out w cls q) o) := h.exec_of_eff rfl rfl ho
  have hbound : ((s.acted (.strm g d z out w cls q) o).cores[s.focus]).cont.strm[z] = some b := by
    rw [acted_cores, applyActs_cons, applyActs_nil, cont_apply_cont, Cont.bindStream, vset_same]
  obtain ⟨y, hy, hbare⟩ := done_binds rfl rfl hbound
  obtain ⟨⟨hout', hwidth', hpos', hbuf', hbase'⟩, -⟩ := fields_of_bare hbare
  exact ⟨_, y, hexec, by with_reducible exact hy, hout'.trans hout, hwidth'.trans hwidth, hpos'.trans hpos, hbuf'.trans hbuf,
    hbase'.trans (hbase.trans (bits_zero _ _))⟩

/-- Settles O22: `strm` and `unstrm` by the stream's binding, and `tlbi` by the invalidation that it begins, each at its commit. -/
theorem streamsAndInvalidation : Obligations.StreamsAndInvalidation := by
  unfold Obligations.StreamsAndInvalidation
  intro s g d z out w cls q tag post a kind part
  refine ⟨fun i hi h hnotrap => strm_binds hi h hnotrap, ?_, ?_⟩
  · rintro i rfl h b hbound hfree
    obtain ⟨hkeepJobs, hkeepTags⟩ := unbindActs_keep (s.env (.unstrm g z tag cls q post)) z b cls q
    obtain ⟨j, hjobs, hj, htags, -⟩ := done_start (s := s) (i := .unstrm g z tag cls q post) (n := unstrmJob b tag cls q post) rfl
      hkeepJobs hkeepTags
    rw [show (unstrmJob b tag cls q post).tag = tag from rfl] at htags
    let e := s.env (.unstrm g z tag cls q post)
    let o : Out := { acts := startJob e (unstrmJob b tag cls q post) ++ unbindActs e z b cls q }
    obtain ⟨hnone, hdrained⟩ := done_unbind (i := .unstrm g z tag cls q post) (o := o) (tag := tag) (post := post)
      rfl rfl rfl rfl rfl hbound
    refine ⟨_, j, h.exec_of_eff rfl rfl (effUnstrm_of_bound hbound hfree), hjobs, hj.tag, ?_, by with_reducible exact hnone,
      by with_reducible exact htags, fun hout => ?_⟩
    · rw [hj.queue]
      exact copyQueue_val q
    · obtain ⟨hlength, n, y, after, hy, hbare⟩ := hdrained hout
      obtain ⟨⟨-, -, -, hbuf, hbase⟩, hfetched, hfailure, hcls, hqueue⟩ := fields_of_bare hbare
      exact ⟨by with_reducible exact hlength, n, y, by with_reducible exact hy, hbuf, hfetched, hbase, hfailure, hcls, hqueue⟩
  · rintro i rfl h hfree
    obtain ⟨hbegun, hdropped⟩ := done_begin (s := s) (i := .tlbi g a kind part tag)
      (tlbiInval (s.env (.tlbi g a kind part tag)) a kind part tag) rfl
    exact ⟨_, _, h.exec_of_eff rfl rfl (effTlbi_of_free hfree), hbegun, rfl, rfl, fin_part part, rfl, rfl, hdropped⟩

end Sys2Proof.Machine
end

section
/-! SUPPORT. What the commit of an instruction of no engine leaves of its continuation and of the releases on their way (R76,
R252). -/

namespace Sys2Proof.Machine

/-- Updates leave releases that depend on the releases alone. -/
theorem applyActs_releases_congr {s t : State} (h : s.releases = t.releases) (acts : List Act) :
    (applyActs s acts).releases = (applyActs t acts).releases := by
  induction acts generalizing s t with
  | nil => exact h
  | cons a acts ih =>
    refine ih ?_
    cases a with
    | releases f => simp only [apply_releases_releases, h]
    | _ => exact h

/-- Releases after an instruction of no engine has committed: its own updates of them. -/
theorem done_releases {s : State} {i : Instr} {o : Out} (hu : usesEngine (opsOf i) = false) :
    (s.done i o).releases = (applyActs s (o.acts ++ o.last)).releases := by
  have htrace (t : State) : (applyActs t (if s.landed.hub.dbg = 1 then
      [.report (.traced s.focus s.now.pc s.now.ts)] else [])).releases = t.releases := by
    split <;> rfl
  rw [done_eq]
  simp only [hu, Bool.false_eq_true, if_false, applyActs_append, List.append_nil, applyActs_cons, applyActs_nil, apply_clock_releases]
  refine applyActs_releases_congr ?_ _
  rw [htrace]
  exact applyActs_releases_congr (by rfl) _

/-- An instruction of no engine whose own updates are one of its continuation leaves that update of the continuation issued. -/
theorem cont_done {s : State} {i : Instr} {o : Out} {f : Cont → Cont} (hu : usesEngine (opsOf i) = false)
    (hacts : o.acts ++ o.last = [.cont s.focus f]) :
    ((s.done i o).cores[s.focus]).cont = f (s.now.issued (Bundle.single i) s.landed.nextId [((slotOf i, i), o)] []) := by
  rw [(done_own hu).2, hacts, applyActs_cons, applyActs_nil, cont_apply_cont, issuing_cont]

end Sys2Proof.Machine
end

section
/-! SUPPORT. `post` (R250 to R252, R278): its effect on the issuing core, on another core and on another node. -/

namespace Sys2Proof.Machine

/-- The posts of a core to itself after a bundle has issued, before the updates of its own. -/
@[simp] theorem given_issued (k : Cont) (b : Bundle) (token : Nat) (outs : List ((Slot × Instr) × Out)) (more : List Result) :
    (k.issued b token outs more).given = k.given := by
  obtain ⟨qs, qa, qb, strm, h⟩ := issued_frame k b token outs more
  rw [h]

/-- The accesses for which a post of a core to itself waits (R252; log entry 15): the full/empty loads of its classes. -/
def CoreSt.postWaits (x : CoreSt) (mask : Half) : List OutAcc :=
  x.accs.filter fun a => a.fullEmpty && !a.watch && mask.getLsbD a.cls.toNat

/-- A post to flag `f` of the own core is noted with the accesses that it covers (R278). -/
def Cont.noteGiven (f : Fin 32) (covers : List Nat) (k : Cont) : Cont := { k with given := k.given ++ [(f, covers)] }

/-- The release of a `post` in the slot of `e`. -/
def Env.release (e : Env) (needs : List Nat) (fabric : Exchange) (d : Deliver) : Release :=
  { id := e.id, src := e.c, needs, ready := 0, fabric, deliver := d, engine := false }

/-- What puts that release on its way. -/
def Env.sends (e : Env) (needs : List Nat) (fabric : Exchange) (d : Deliver) : List Act :=
  [.ids 8, .releases fun rs => rs ++ [e.release needs fabric d]]

/-- A core owes a core a release when one from it to that core is on its way. -/
theorem owes_iff {s : State} {src dst : Fin 256} :
    s.owes src dst = true ↔ ∃ o ∈ s.releases, o.engine = false ∧ o.src = src ∧ o.deliver.target = some dst := by
  simp [State.owes, and_assoc]

section
variable {e : Env} {f : Fin 32} {mask : Half} {n : BitVec 11} (hown : e.own = [])
include hown

/-- A release of a bundle without accesses waits for those of its core alone. -/
theorem needs_of_own_nil : e.needs mask = e.x.needs mask := by
  simp [Env.needs, Env.ownNeeds, hown]

/-- What a post to the own core waits for, in a bundle without accesses. -/
theorem ownWaits_of_own_nil : (e.x.accs.filter fun a => a.fullEmpty && a.covered mask).map OutAcc.id ++ e.ownNeeds mask true =
    (e.x.postWaits mask).map OutAcc.id := by
  simp [Env.ownNeeds, hown, CoreSt.postWaits, OutAcc.covered, bitAt, Bool.and_assoc]

/-- A post to the own core with nothing to wait for increments its flag at commit. -/
theorem effPost_own_at_commit (hwaits : e.x.postWaits mask = []) (howes : e.s.owes e.c e.c = false) :
    effPost f .own mask n e =
      .ok { last := .cont e.c (Cont.noteGiven f (e.x.needs mask)) :: deliverFlag e.s e.c f n.toNat } := by
  simp only [effPost, ownWaits_of_own_nil hown, needs_of_own_nil hown, hwaits, howes, List.map_nil, List.isEmpty_nil, Bool.not_false,
    Bool.and_self, if_true]
  rfl

/-- A post to the own core that has to wait is a release on its way. -/
theorem effPost_own_on_its_way (h : e.x.postWaits mask ≠ [] ∨ e.s.owes e.c e.c = true) :
    effPost f .own mask n e = .ok { last := (.cont e.c (Cont.noteGiven f (e.x.needs mask)) ::
      e.sends ((e.x.postWaits mask).map OutAcc.id) .unneeded (.flag e.c f n.toNat)) } := by
  have hwait : (((e.x.postWaits mask).map OutAcc.id).isEmpty && !e.s.owes e.c e.c) = false := by
    rcases h with hwaits | howes
    · simp [hwaits]
    · simp [howes]
  simp only [effPost, ownWaits_of_own_nil hown, needs_of_own_nil hown, hwait, Bool.false_eq_true, if_false]
  rfl

end

section
variable {e : Env} {f : Fin 32} {x : Spec} {mask : Half} {n : BitVec 11} {c : Fin 256} 
  (hcore : e.k.scalar x = BitVec.ofNat 64 c.val) (hquad : (e.s.parts[e.k.part]).qmask.getLsbD (c.val / 16) = true)
include hcore hquad

/-- A `post` to a core of the partition's quadrants passes its check, and goes to the core that the number names. -/
theorem post_core_checked : fin 255 (bits (e.k.scalar x) 0 8).toNat = c ∧
    ¬(bits (e.k.scalar x) 8 56 ≠ 0 ∨ !(bitAt (e.s.parts[e.k.part]).qmask (quadOf c).val)) := by
  obtain ⟨hhigh, -, hnamed⟩ := coreNumber_fields c
  have hquadOf : (quadOf c).val = c.val / 16 := Nat.mod_eq_of_lt (by omega)
  rw [hcore, hnamed, hhigh, hquadOf, bitAt, hquad]
  simp

/-- A core that names itself by its number posts to itself. -/
theorem effPost_own_by_number (hc : c = e.c) : effPost f (.core x) mask n e = effPost f .own mask n e := by
  obtain ⟨hnamed, hpass⟩ := post_core_checked hcore hquad
  simp only [effPost, hnamed, if_neg hpass, if_pos hc]

/-- A post to another core is a release on its way. -/
theorem effPost_other (hown : e.own = []) (hc : c ≠ e.c) :
    effPost f (.core x) mask n e = .ok { last := e.sends (e.x.needs mask) .unneeded (.flag c f n.toNat) } := by
  obtain ⟨hnamed, hpass⟩ := post_core_checked hcore hquad
  simp only [effPost, hnamed, if_neg hpass, if_neg hc, needs_of_own_nil hown]
  rfl

end

/-- A post of the issuing core to itself, named as such or by its number, has the effect of one that names it as such. -/
theorem exists_target_of_own {s : State} {g : Guard} {f : Fin 32} {x : Spec} {mask : Half} {n : BitVec 11} {i : Instr}
    (h : i = .post g f .own mask n ∨ i = .post g f (.core x) mask n ∧ s.now.scalar x = BitVec.ofNat 64 s.focus.val ∧
      (s.parts[s.now.part]).qmask.getLsbD (s.focus.val / 16) = true) :
    ∃ tgt, i = .post g f tgt mask n ∧ effPost f tgt mask n (s.env i) = effPost f .own mask n (s.env i) := by
  rcases h with hown | ⟨hnumber, hcore, hquad⟩
  · exact ⟨.own, hown, rfl⟩
  · exact ⟨.core x, hnumber, effPost_own_by_number (e := s.env i) hcore hquad rfl⟩

/-- The packet of a post to flag `f` of the core and node that `v` names (R252, R370). -/
def postPacketOf (ts v : W64) (f : Fin 32) (n : BitVec 11) : Packet :=
  { ts, dst := bits v 0 16, kind := 4, arg := bits v 16 8 ++ BitVec.ofNat 5 f.val ++ n }

/-- A post to a core of a node is a release on its way, over the fabric. -/
theorem effPost_node {e : Env} {f : Fin 32} {x : Spec} {mask : Half} {n : BitVec 11} (hown : e.own = [])
    (hnode : (e.k.scalar x).toNat < 2 ^ 24) :
    effPost f (.node x) mask n e =
      .ok { last := e.sends (e.x.needs mask) .unsent (.packet (postPacketOf e.k.ts (e.k.scalar x) f n)) } := by
  have hbits : bits (e.k.scalar x) 24 40 = 0 := BitVec.eq_of_toNat_eq (by rw [toNat_bits, Nat.div_eq_of_lt hnode]; rfl)
  simp only [effPost, hbits, ne_eq, not_true_eq_false, if_false, needs_of_own_nil hown]
  rfl

/-- The argument of a post's packet: core, flag and increment. -/
theorem arg_postPacketOf {v : W64} (ts : W64) (f : Fin 32) (n : BitVec 11) (h : v.toNat < 2 ^ 24) :
    (postPacketOf ts v f n).arg.toNat = v.toNat / 2 ^ 16 * 2 ^ 16 + f.val * 2 ^ 11 + n.toNat := by
  have hn := n.isLt
  have hf := f.isLt
  simp only [postPacketOf, BitVec.toNat_append, toNat_bits, BitVec.toNat_ofNat]
  rw [← Nat.shiftLeft_add_eq_or_of_lt hn, ← Nat.shiftLeft_add_eq_or_of_lt (by omega), Nat.shiftLeft_eq, Nat.shiftLeft_eq]
  omega

/-- Once an instruction has committed that puts a release on its way, that release is the last of the machine's. -/
theorem releases_done_sends {s : State} {i : Instr} {o : Out} {acts : List Act} {r : Release} (hu : usesEngine (opsOf i) = false)
    (hacts : o.acts ++ o.last = acts ++ [.ids 8, .releases fun rs => rs ++ [r]]) (hkeep : Keeps State.releases acts) :
    (s.done i o).releases = s.releases ++ [r] := by
  rw [done_releases hu, hacts, applyActs_append, applyActs_cons, applyActs_cons, applyActs_nil, apply_releases_releases,
    apply_ids_releases, applyActs_keeps hkeep]

/-- Once an instruction has committed that notes a post of its core to itself, and notes no other, that post is the last noted. -/
theorem given_done_noted {s : State} {i : Instr} {o : Out} {f : Fin 32} {covers : List Nat} {acts : List Act}
    (hu : usesEngine (opsOf i) = false) (hacts : o.acts ++ o.last = .cont s.focus (Cont.noteGiven f covers) :: acts)
    (hkeep : Keeps (fun t => (t.cores[s.focus]).cont.given) acts) :
    ((s.done i o).cores[s.focus]).cont.given = s.now.given ++ [(f, covers)] := by
  rw [(done_own hu).2, hacts, applyActs_cons]
  refine (applyActs_keeps hkeep _).trans ?_
  rw [cont_apply_cont, Cont.noteGiven, issuing_cont, given_issued]

/-- Settles O23: the effect of a `post` by its target, and the releases that its commit leaves. -/
theorem posts : Obligations.Posts := by
  unfold Obligations.Posts
  intro s g f x mask n v mine covers own
  refine ⟨?_, ?_, ?_⟩
  · intro i hi h waits earlier noted
    obtain ⟨tgt, rfl, htgt⟩ := exists_target_of_own hi
    constructor
    · intro hwaits hearlier
      have howes : (s.env (.post g f tgt mask n)).s.owes s.focus s.focus = false :=
        Bool.eq_false_iff.mpr fun howes => hearlier (owes_iff.mp howes)
      exact h.exec_of_eff rfl rfl (htgt.trans (effPost_own_at_commit rfl hwaits howes))
    · intro hwait
      have heff := effPost_own_on_its_way (e := s.env (.post g f tgt mask n)) (f := f) (n := n) rfl (hwait.imp_right owes_iff.mpr)
      exact ⟨_, _, h.exec_of_eff rfl rfl (htgt.trans heff),
        releases_done_sends (acts := [.cont s.focus (Cont.noteGiven f covers)]) rfl rfl (by simp [Act.cont]), rfl, rfl, rfl, rfl,
        given_done_noted (covers := covers) rfl rfl (by simp [Env.sends])⟩
  · rintro i rfl h c hcore hc hquad
    have heff := effPost_other (e := s.env (.post g f (.core x) mask n)) (f := f) (mask := mask) (n := n) hcore hquad rfl hc
    exact ⟨_, _, h.exec_of_eff rfl rfl heff, releases_done_sends (acts := []) rfl rfl keeps_nil, rfl, rfl, rfl, rfl⟩
  · rintro i rfl h hnode
    have heff := effPost_node (e := s.env (.post g f (.node x) mask n)) (f := f) (mask := mask) (n := n) rfl hnode
    exact ⟨_, _, _, h.exec_of_eff rfl rfl heff, releases_done_sends (acts := []) rfl rfl keeps_nil, rfl, rfl, rfl, rfl,
      (congrArg BitVec.toNat (bits_zero v 16)).trans (BitVec.toNat_setWidth ..), rfl, arg_postPacketOf _ f n hnode⟩

end Sys2Proof.Machine
end

section
/-! SUPPORT. `bar`, `fence`, `qfence`, `watch` and `waitm` (R255 to R259). -/

namespace Sys2Proof.Machine

/-- A `bar` of a continuation that is no job forgets the generation for which it waited (R257). -/
theorem effBar_of_not_job {e : Env} (mask : Half) (h : e.k.level ≠ 3) :
    effBar mask e = .ok { acts := [.cont e.c fun k => { k with barrier := none, barWait := none }] } := if_neg h

/-- A `fence` whose scope is less than the fabric has no effect (R255). -/
theorem effFence_of_local {sc : FenceScope} (e : Env) (mask : Half) (h : sc ≠ .fabric) : effFence mask sc e = .ok {} := by
  cases sc with
  | fabric => exact absurd rfl h
  | _ => rfl

/-- A `qfence` notes, for each queue that it names, the instructions in every queue that it names (R256). -/
theorem effQfence_notes (qmask : Byte) (e : Env) : ∃ f, effQfence qmask e = .ok { acts := [.cont e.c f] } ∧
    ∀ (k : Cont) (q : Fin 8), qmask.getLsbD q.val = true → ∀ j ∈ e.s.jobs, j.cid = e.k.cid → qmask.getLsbD j.queue.val = true →
      (∀ op, j.work ≠ .place op) → (q, j.id) ∈ (f k).fences := by
  refine ⟨_, rfl, fun k q hq j hj hcid hqueue hwork => List.mem_append_right _ ?_⟩
  have hmoves : (match j.work with | .place _ => false | _ => true) = true := by
    split
    · next op h => exact absurd h (hwork op)
    · rfl
  refine List.mem_flatMap.mpr ⟨q, List.mem_filter.mpr ⟨List.mem_finRange q, hq⟩, List.mem_map.mpr ⟨j, ?_, rfl⟩⟩
  refine List.mem_filter.mpr ⟨hj, ?_⟩
  rw [Bool.and_eq_true, Bool.and_eq_true]
  exact ⟨⟨beq_iff_eq.mpr hcid, hqueue⟩, hmoves⟩

/-- A `watch` whose address passes its checks sets the monitor, not yet armed, and joins the queue of its bank (R258). -/
theorem effWatch_of_access {base : Spec} {e : Env} {p : Part} {ps : List Part}
    (h : checkAccess e ((e.k.scalar base).setWidth 24) 4 4 false false = .ok (p :: ps)) : ∃ f x,
    effWatch base e = .ok { last := [.cont e.c f, .ids 8, .bank p.bank fun b => { b with q := b.q ++ [x] }] } ∧
      ∀ k, (f k).mon = some ⟨e.id, (e.k.scalar base).setWidth 24, p.bank, false, false, false⟩ := by
  rw [← bits_zero] at h ⊢
  simp only [effWatch, h]
  exact ⟨_, _, rfl, fun _ => rfl⟩

/-- A `waitm` whose status is settled writes it (R259). -/
theorem effWaitm_of_status {d : Spec} {e : Env} {v : W64} {armed : Bool} (h : e.k.waitmStatus = some (v, armed)) :
    ∃ acts, effWaitm d e = .ok { res := plainResult d v 1, acts } := by
  simp only [effWaitm, h]
  exact ⟨_, rfl⟩

/-- The status that a `waitm` writes: RECHECK, then LOST without a monitor, then by what the monitor has seen (R259). -/
theorem of_waitmStatus {k : Cont} {v : W64} {armed : Bool} (h : k.waitmStatus = some (v, armed)) :
    (k.recheck = true → v = 1) ∧ (k.recheck = false → k.mon = none → v = 2) ∧
      (k.recheck = false → ∀ m, k.mon = some m → (m.triggered = true → v = 0) ∧ (m.triggered = false → v = 2)) := by
  unfold Cont.waitmStatus at h
  cases hrecheck : k.recheck with
  | true => simp_all
  | false =>
    cases hmon : k.mon with
    | none => simp_all
    | some m => cases htriggered : m.triggered <;> simp_all

/-- Settles O25: each instruction by its effect; `waitm` with the status that its hold has waited for. -/
theorem syncInstructions : Obligations.SyncInstructions := by
  unfold Obligations.SyncInstructions
  intro s g mask qmask base d sc a
  refine ⟨?_, ?_, ?_, ?_, ?_, ?_⟩
  · rintro i rfl h hlevel
    refine ⟨_, h.exec_of_eff rfl rfl (effBar_of_not_job mask hlevel), ?_⟩
    rw [cont_done rfl rfl]
    exact ⟨rfl, rfl⟩
  · rintro i rfl h hscope
    exact h.exec_of_eff rfl rfl (effFence_of_local _ mask hscope)
  · rintro i rfl h
    exact ⟨_, h.exec_of_eff rfl rfl rfl, done_releases rfl⟩
  · rintro i rfl h
    obtain ⟨f, heff, hnotes⟩ := effQfence_notes qmask (s.env (.qfence g qmask))
    refine ⟨_, h.exec_of_eff rfl rfl heff, ?_⟩
    rw [cont_done rfl rfl]
    exact hnotes _
  · rintro i rfl h p ps hps
    obtain ⟨f, x, heff, hmon⟩ := effWatch_of_access hps
    refine ⟨_, (s.env (.watch g base)).id, h.exec_of_eff rfl rfl heff, ?_, ?_⟩
    · rw [(done_own rfl).2]
      exact (congrArg Cont.mon (cont_apply_cont s.focus f _)).trans (hmon _)
    · rw [(done_own rfl).1]
      simp [Act.cont]
  · rintro i rfl h
    have hsettled := (holdWhile_eq_none_iff _).mp h.slotHold_eq_none
    obtain ⟨⟨v, armed⟩, hstatus⟩ := Option.isSome_iff_exists.mp (Option.isNone_eq_false_iff.mp hsettled)
    obtain ⟨acts, heff⟩ := effWaitm_of_status (d := d) hstatus
    obtain ⟨hrecheck, hlost, hseen⟩ := of_waitmStatus hstatus
    exact ⟨_, h.exec_of_eff rfl rfl heff, v, hrecheck, hlost, hseen, acts, rfl⟩

end Sys2Proof.Machine
end

section
/-! SUPPORT. `send` and `recv` (R266, R267). -/

namespace Sys2Proof.Machine

/-- A core's number in its quadrant, as `send` and `recv` read it. -/
theorem circuit_of_quad (c : Fin 256) (q : Fin 16) :
    circuitBad c (BitVec.ofNat 64 (c.val / 16 * 16 + q.val)) = false ∧
      fin 15 (bits (BitVec.ofNat 64 (c.val / 16 * 16 + q.val)) 0 4).toNat = q := by
  obtain ⟨hhigh, hnib, -⟩ := coreNumber_fields ⟨c.val / 16 * 16 + q.val, by omega⟩
  constructor
  · rw [circuitBad, hhigh, hnib]
    simp; omega
  · apply Fin.ext
    simp [toNat_bits, fin]

section
variable {e : Env} {core : Spec} {q : Fin 16} (hcore : e.k.scalar core = BitVec.ofNat 64 (e.c.val / 16 * 16 + q.val))
include hcore

/-- A `send` to a core of the quadrant fills the send buffer for it. -/
theorem effSend_of_quad (x : KData) : effSend x core e = .ok { acts := [.cont e.c fun k =>
    { k with send := vset k.send q (some (e.k.kdata x)), sendAt := vset k.sendAt q (e.x.clk + 1) }] } := by
  obtain ⟨hgood, hq⟩ := circuit_of_quad e.c q
  simp only [effSend, hcore, hgood, hq, Bool.false_eq_true, if_false]

/-- A `send` that goes on finds its send buffer empty. -/
theorem holdSend_eq_none_iff : holdSend core e = none ↔ e.k.send[q] = none := by
  obtain ⟨hgood, hq⟩ := circuit_of_quad e.c q
  simp [holdSend, hcore, hgood, hq, holdWhile_eq_none_iff]

/-- A `recv` from a core of the quadrant empties the receive entry, whose value lands two cycles after issue. -/
theorem effRecv_of_quad {v : VReg} (d : KData) (hv : e.k.recv[q] = some v) : effRecv d core e = .ok {
    res := ((kReg d).map fun r => bareResult r v (BitVec.allOnes 64) 2).toList,
    acts := [.cont e.c fun k => { k with recv := vset k.recv q none, recvAt := vset k.recvAt q (e.x.clk + 1) }] } := by
  obtain ⟨hgood, hq⟩ := circuit_of_quad e.c q
  simp only [effRecv, hcore, hgood, hq, hv, Bool.false_eq_true, if_false, Option.getD_some]

/-- A `recv` that goes on finds a value in its receive entry. -/
theorem holdRecv_eq_none_iff : holdRecv core e = none ↔ ∃ v, e.k.recv[q] = some v := by
  obtain ⟨hgood, hq⟩ := circuit_of_quad e.c q
  simp [holdRecv, hcore, hgood, hq, holdWhile_eq_none_iff, Option.isSome_iff_exists]

end

/-- Settles O26: what the hold has waited for, and the one update of the continuation. -/
theorem circuits : Obligations.Circuits := by
  unfold Obligations.Circuits
  intro s g x d core q hcore
  constructor
  · rintro i rfl h
    have hempty := (holdSend_eq_none_iff (e := s.env (.send g x core)) hcore).mp h.slotHold_eq_none
    refine ⟨_, h.exec_of_eff rfl rfl (effSend_of_quad hcore x), ?_, hempty⟩
    rw [cont_done rfl rfl]
    exact vset_same ..
  · rintro i rfl h
    obtain ⟨v, hv⟩ := (holdRecv_eq_none_iff (e := s.env (.recv g d core)) hcore).mp h.slotHold_eq_none
    refine ⟨_, v, h.exec_of_eff rfl rfl (effRecv_of_quad hcore d hv), hv, ?_, _, rfl⟩
    rw [cont_done rfl rfl]
    exact vset_same ..

end Sys2Proof.Machine
end

section
/-! SUPPORT. What waits at a wheel and at the hub: accesses to DRAM rows, arrivals of reductions and writes of engines leave the
jobs and the step count of every wheel, and the hub's early requests, requests without an answer and requests that are held. -/

namespace Sys2Proof.Machine

/-- An update of one element that keeps `g` of it keeps `g` of every element. -/
theorem vset_congr {α β : Type} {n : Nat} (g : α → β) {f : α → α} (hf : ∀ x, g (f x) = g x) (v : Vector α n) (i j : Fin n) :
    g (vset v i (f v[i]))[j] = g v[j] := by
  by_cases h : j = i
  · rw [h, vset_same, hf]
  · rw [vset_other v i j _ h]

/-! ### Rows of a pseudo-channel (R296, R299) -/

/-- A precharge leaves the requests, the jobs and the counts of the wheel. -/
theorem precharge_frame (thresh : Nat) (x : HomeSt) (b : Fin 32) : ∃ openRows counters owed neighbours,
    precharge thresh x b = { x with openRows, counters, owed, neighbours } := by
  unfold precharge
  split
  · exact ⟨x.openRows, x.counters, x.owed, x.neighbours, rfl⟩
  · extract_lets _ y
    split
    split
    · exact ⟨_, _, _, _, rfl⟩
    · exact ⟨_, _, _, _, rfl⟩

/-- So do several. -/
theorem precharges_frame (thresh : Nat) (bs : List (Fin 32)) (x : HomeSt) : ∃ openRows counters owed neighbours,
    bs.foldl (precharge thresh) x = { x with openRows, counters, owed, neighbours } := by
  induction bs generalizing x with
  | nil => exact ⟨x.openRows, x.counters, x.owed, x.neighbours, rfl⟩
  | cons b bs ih =>
    obtain ⟨_, _, _, _, hone⟩ := precharge_frame thresh x b
    obtain ⟨_, _, _, _, hrest⟩ := ih (precharge thresh x b)
    exact ⟨_, _, _, _, by rw [List.foldl_cons, hrest, hone]⟩

/-- So does an activation. -/
theorem activate_frame (thresh : Nat) (x : HomeSt) (b : Fin 32) (row : Nat) : ∃ openRows counters owed neighbours,
    activate thresh x b row = { x with openRows, counters, owed, neighbours } := by
  unfold activate
  split
  · exact ⟨x.openRows, x.counters, x.owed, x.neighbours, rfl⟩
  · obtain ⟨_, _, _, _, hpre⟩ := precharge_frame thresh x b
    exact ⟨_, _, _, _, by rw [hpre]; rfl⟩

/-- What an access to a row does to its home. -/
def HomeSt.accessed (x : HomeSt) (thresh : Nat) (b : Fin 32) (row sectors : Nat) : HomeSt :=
  let y := activate thresh x b row
  { y with hot := min (y.hot + sectors) 0xFFFFFFFF }

theorem accessed_frame (x : HomeSt) (thresh : Nat) (b : Fin 32) (row sectors : Nat) : ∃ openRows counters owed neighbours hot,
    x.accessed thresh b row sectors = { x with openRows, counters, owed, neighbours, hot } := by
  obtain ⟨_, _, _, _, h⟩ := activate_frame thresh x b row
  exact ⟨_, _, _, _, _, by rw [HomeSt.accessed, h]⟩

/-- An update that records or reports a failure of a row's counter (R301). -/
inductive RowNote : Act → Prop
  | report (r : Report) : RowNote (.report r)
  | rowlog (g : Vector W64 8 → Vector W64 8) : RowNote (.hub fun x => { x with rowlog := g x.rowlog })

/-- An access to a row may note a failure, and then changes its home. -/
theorem rowAccess_eq (s : State) (h : Fin 512) (b : Fin 32) (row sectors : Nat) : ∃ notes : List Act, (∀ a ∈ notes, RowNote a) ∧
    rowAccess s h b row sectors = notes ++ [.home h (·.accessed s.hub.thresh.toNat b row sectors)] := by
  unfold rowAccess
  split
  · exact ⟨_, List.forall_mem_cons.mpr ⟨.rowlog fun v => vset v (fin 7 (h.val / 64)) (rowlogNote v[fin 7 (h.val / 64)] (h.val % 64) b.val _),
      List.forall_mem_singleton.mpr (.report _)⟩, rfl⟩
  · exact ⟨[], List.forall_mem_nil _, rfl⟩

/-- The failures that a refresh would show are noted. -/
theorem refreshLog_notes (s : State) (h : Fin 512) : ∀ a ∈ refreshLog s h, RowNote a := by
  intro a ha
  obtain ⟨o, -, ho⟩ := List.mem_flatMap.mp ha
  rcases List.mem_pair.mp ho with rfl | rfl
  · exact .rowlog fun v => vset v (fin 7 (h.val / 64)) (rowlogNote v[fin 7 (h.val / 64)] (h.val % 64) o.1.val o.2)
  · exact .report _

/-- What neither a report nor ROWLOG changes is as it was after failures have been noted. -/
theorem keeps_notes {α : Type} {π : State → α} {notes : List Act} (h : ∀ a ∈ notes, RowNote a)
    (hreport : ∀ r t, π ((Act.report r).apply t) = π t)
    (hrowlog : ∀ (g : Vector W64 8 → Vector W64 8) t, π ((Act.hub fun x => { x with rowlog := g x.rowlog }).apply t) = π t) :
    Keeps π notes := by
  intro a ha t
  cases h a ha with
  | report r => exact hreport r t
  | rowlog g => exact hrowlog g t

/-! ### What waits -/

/-- The jobs of a wheel, and its steps. -/
def HomeSt.wheel (x : HomeSt) : List WheelJob × Nat := (x.jobs, x.steps)

/-- The requests that came early, those that await an answer and those that are held. -/
def HubSt.queues (x : HubSt) : List Packet × List Await × List Packet := (x.early, x.awaits, x.stalled)

/-- What waits at wheel `h` and at the hub. -/
def State.waiting (h : Fin 512) (s : State) : (List WheelJob × Nat) × List Packet × List Await × List Packet :=
  ((s.homes[h]).wheel, s.hub.queues)

theorem waiting_apply_home {f : HomeSt → HomeSt} (hf : ∀ x, (f x).wheel = x.wheel) (h h' : Fin 512) (s : State) :
    ((Act.home h' f).apply s).waiting h = s.waiting h := by
  simp only [State.waiting, apply_home_homes, apply_home_hub, vset_congr HomeSt.wheel hf]

theorem waiting_apply_hub {f : HubSt → HubSt} (hf : ∀ x, (f x).queues = x.queues) (h : Fin 512) (s : State) :
    ((Act.hub f).apply s).waiting h = s.waiting h := by
  simp only [State.waiting, apply_hub_homes, apply_hub_hub, hf]

theorem wheel_accessed (thresh : Nat) (b : Fin 32) (row sectors : Nat) (x : HomeSt) :
    (x.accessed thresh b row sectors).wheel = x.wheel := by
  obtain ⟨_, _, _, _, _, h⟩ := accessed_frame x thresh b row sectors
  rw [h]
  rfl

theorem wheel_refreshAll (thresh : Nat) (x : HomeSt) : (refreshAll thresh x).wheel = x.wheel := by
  obtain ⟨_, _, _, _, h⟩ := precharges_frame thresh (x.openRows.map Prod.fst) x
  rw [refreshAll, h]
  rfl

theorem wheel_interrupt (x : HomeSt) : x.interrupt.wheel = x.wheel := by
  unfold HomeSt.interrupt
  split <;> rfl

section
variable (h : Fin 512)

theorem notes_keep_waiting {notes : List Act} (hnotes : ∀ a ∈ notes, RowNote a) : Keeps (State.waiting h) notes :=
  keeps_notes hnotes (fun _ _ => rfl) fun _ => waiting_apply_hub (fun _ => rfl) h

theorem rowAccess_keeps_waiting (s : State) (h' : Fin 512) (b : Fin 32) (row n : Nat) :
    Keeps (State.waiting h) (rowAccess s h' b row n) := by
  obtain ⟨notes, hnotes, heq⟩ := rowAccess_eq s h' b row n
  rw [heq, keeps_append, keeps_cons]
  exact ⟨notes_keep_waiting h hnotes, waiting_apply_home (wheel_accessed _ _ _ _) h h', keeps_nil⟩

theorem touchRows_keeps_waiting (s : State) (xs : List (Fin 512 × Fin 32 × Nat × Nat)) :
    Keeps (State.waiting h) (touchRows s xs) := by
  induction xs generalizing s with
  | nil => exact keeps_nil
  | cons x xs ih => exact (keeps_append _ _).mpr ⟨rowAccess_keeps_waiting h s _ _ _ _, ih _⟩

theorem accessRows_keeps_waiting (s : State) (xs : List (Fin 512 × Fin 32 × Nat × Nat)) :
    Keeps (State.waiting h) (accessRows s xs) := by
  rw [accessRows, keeps_append, keeps_map]
  exact ⟨fun x _ => waiting_apply_home wheel_interrupt h x.1, touchRows_keeps_waiting h s xs⟩

theorem touchBytes_keeps_waiting (s : State) (a n : Nat) : Keeps (State.waiting h) (touchBytes s a n) :=
  accessRows_keeps_waiting h s _

/-! ### Reductions -/

theorem writeActs_keeps_waiting (a : Nat) (bytes : List Byte) : Keeps (State.waiting h) (writeActs a bytes) := by
  unfold writeActs
  extract_lets n data whole heal off b mon
  have hmon : Keeps (State.waiting h) mon := by
    unfold mon
    split
    · simp [monitorActs, parkActs, Act.cont, State.waiting]
    · exact keeps_nil
  simp [data, heal, hmon, State.waiting]

/-- A packet that awaits no answer joins no queue. -/
theorem sendActs_keeps_waiting (s : State) (core : Option (Fin 256)) (p : Packet) :
    Keeps (State.waiting h) (sendActs s core p .nobody) := by
  unfold sendActs
  extract_lets seq q q'
  have hhub (t : State) : (Act.apply (.hub fun x => { x.bumpSeq p.dst 1 with
      out := x.out ++ [q']
      awaits := x.awaits ++ (if Requester.nobody = .nobody then [] else [awaitOf s p p.dst p.addr .nobody]) }) t).waiting h =
        t.waiting h :=
    waiting_apply_hub (fun x => by simp [HubSt.queues, HubSt.bumpSeq]) h t
  cases core with
  | none => exact (keeps_append _ _).mpr ⟨(keeps_cons _ _).mpr ⟨fun _ => rfl, (keeps_cons _ _).mpr ⟨hhub, keeps_nil⟩⟩, keeps_nil⟩
  | some c =>
    exact (keeps_append _ _).mpr ⟨(keeps_cons _ _).mpr ⟨fun _ => rfl, (keeps_cons _ _).mpr ⟨hhub, keeps_nil⟩⟩,
      (keeps_cons _ _).mpr ⟨fun _ => rfl, keeps_nil⟩⟩

theorem sendResult_keeps_waiting (s : State) (a : Arrival) (m : W32) (tmo sat : Bool) (code : BitVec 4) (data : List W32) :
    Keeps (State.waiting h) (sendResult s a m tmo sat code data) := by
  unfold sendResult
  split
  · exact keeps_nil
  · exact sendActs_keeps_waiting h s none _

theorem sendResults_keeps_waiting (s : State) (m : W32) (tmo sat : Bool) (code : BitVec 4) (data : List W32) (as : List Arrival) :
    Keeps (State.waiting h) (sendResults s m tmo sat code data as) := by
  induction as generalizing s with
  | nil => exact keeps_nil
  | cons a as ih => exact (keeps_append _ _).mpr ⟨sendResult_keeps_waiting h s a m tmo sat code data, ih _⟩

theorem epochAct_keeps_waiting (ctx : BitVec 46) (f : Epoch → Epoch) : Keeps (State.waiting h) [epochAct ctx f] :=
  (keeps_cons _ _).mpr ⟨waiting_apply_hub (fun _ => rfl) h, keeps_nil⟩

theorem joinEpoch_keeps_waiting (s : State) (e : Epoch) (a : Arrival) : Keeps (State.waiting h) (joinEpoch s e a) := by
  unfold joinEpoch
  extract_lets first differs b
  split
  · exact sendResult_keeps_waiting h s a _ _ _ _ _
  · rw [← List.singleton_append, keeps_append]
    refine ⟨epochAct_keeps_waiting h _ _, ?_⟩
    split
    · exact sendResult_keeps_waiting h s a _ _ _ _ _
    · exact keeps_nil

theorem enter_keeps_waiting (s : State) (ctx : BitVec 46) (at_ : Nat) (a : Arrival) : Keeps (State.waiting h) (enter s ctx at_ a) := by
  unfold enter
  extract_lets closed
  split
  · rw [keeps_append]
    refine ⟨touchBytes_keeps_waiting h s _ _, ?_⟩
    split
    · exact (keeps_cons _ _).mpr ⟨waiting_apply_hub (fun _ => rfl) h, keeps_nil⟩
    · exact sendResult_keeps_waiting h s a _ _ _ _ _
  · split
    · exact joinEpoch_keeps_waiting h s _ a
    · split
      · exact epochAct_keeps_waiting h _ _
      · exact sendResult_keeps_waiting h s a _ _ _ _ _

theorem enterAll_keeps_waiting (s : State) (ctx : BitVec 46) (as : List (Nat × Arrival)) :
    Keeps (State.waiting h) (enterAll s ctx as) := by
  induction as generalizing s with
  | nil => exact keeps_nil
  | cons a as ih => exact (keeps_append _ _).mpr ⟨enter_keeps_waiting h s ctx a.1 a.2, ih _⟩

/-- What an epoch that closes writes, before its results are sent. -/
def closingActs (s : State) (e : Epoch) : List Act :=
  writeActs e.ctx.toNat (leBytes 4 e.epoch.toNat) ++ touchBytes s e.ctx.toNat 4 ++
    [.hub fun x => { x with epochs := x.epochs.filter fun o => o.ctx != e.ctx }]

/-- An epoch that closes writes its number, and sends its results. -/
theorem closeEpoch_eq (s : State) (e : Epoch) (tmo : Bool) : ∃ m sat code data, closeEpoch s e tmo =
    closingActs s e ++ sendResults (applyActs s (closingActs s e)) m tmo sat code data (e.arrivals.filter fun a => !a.bad) :=
  ⟨_, _, _, _, rfl⟩

theorem closeEpoch_keeps_waiting (s : State) (e : Epoch) (tmo : Bool) : Keeps (State.waiting h) (closeEpoch s e tmo) := by
  obtain ⟨m, sat, code, data, heq⟩ := closeEpoch_eq s e tmo
  have hclosing : Keeps (State.waiting h) (closingActs s e) :=
    (keeps_append _ _).mpr ⟨(keeps_append _ _).mpr ⟨writeActs_keeps_waiting h _ _, touchBytes_keeps_waiting h s _ _⟩,
      (keeps_cons _ _).mpr ⟨waiting_apply_hub (fun _ => rfl) h, keeps_nil⟩⟩
  rw [heq, keeps_append]
  exact ⟨hclosing, sendResults_keeps_waiting h _ _ _ _ _ _ _⟩

theorem settle_keeps_waiting (ctx : BitVec 46) (fuel : Nat) (tmo : Bool) (s : State) :
    Keeps (State.waiting h) (settle ctx fuel tmo s) := by
  induction fuel generalizing tmo s with
  | zero => exact keeps_nil
  | succ fuel ih =>
    unfold settle
    split
    · exact keeps_nil
    · split
      · exact keeps_nil
      · simp only [keeps_append]
        exact ⟨⟨closeEpoch_keeps_waiting h s _ tmo, enterAll_keeps_waiting h _ _ _⟩, ih _ _⟩

theorem reductionDeadline_keeps_waiting (s : State) (ctx : BitVec 46) : Keeps (State.waiting h) (reductionDeadline s ctx) := by
  unfold reductionDeadline
  split
  · exact keeps_nil
  · split
    · exact keeps_nil
    · exact settle_keeps_waiting h _ _ _ _

/-- A context that becomes known joins no queue. -/
theorem apply_knowContext_waiting (node : Half) (ctx : BitVec 46) (t : State) :
    ((knowContext node ctx).apply t).waiting h = t.waiting h :=
  waiting_apply_hub (fun x => by split <;> rfl) h t

theorem arrive_keeps_waiting (s : State) (ctx : BitVec 46) (a : Arrival) : Keeps (State.waiting h) (arrive s ctx a) := by
  have hunsure : Keeps (State.waiting h) (enterUnsure s ctx) := by
    unfold enterUnsure
    extract_lets was drop
    split
    · exact keeps_nil
    · exact (keeps_cons _ _).mpr ⟨waiting_apply_hub (fun _ => rfl) h, enterAll_keeps_waiting h _ _ _⟩
  simp only [arrive, keeps_append, keeps_cons]
  exact ⟨⟨⟨⟨apply_knowContext_waiting h _ _, hunsure⟩, reductionDeadline_keeps_waiting h _ _⟩, enter_keeps_waiting h _ _ _ _⟩,
    settle_keeps_waiting h _ _ _ _⟩

/-- A refusal is recorded in no queue. -/
theorem accessLog_keeps_waiting (p : Packet) (addr : Nat) : Keeps (State.waiting h) (accessLog p addr) := by
  have hset (f : HubSt → W64) (b : W64) (x : HubSt) : ({ x with accA := f x, accB := b } : HubSt).queues = x.queues := rfl
  exact (keeps_cons _ _).mpr ⟨waiting_apply_hub (hset _ _) h, keeps_nil⟩

theorem abstainAll_keeps_waiting (node master : Half) (xs : List (BitVec 46 × W32)) (s : State) :
    Keeps (State.waiting h) (abstainAll node master xs s) := by
  induction xs generalizing s with
  | nil => exact keeps_nil
  | cons x xs ih =>
    unfold abstainAll
    extract_lets acts
    have hacts : Keeps (State.waiting h) acts := by
      unfold acts
      split
      · exact arrive_keeps_waiting h _ _ _
      · exact accessLog_keeps_waiting h _ _
    exact (keeps_append _ _).mpr ⟨hacts, ih _⟩

theorem abstainNoted_keeps_waiting (s : State) (node master : Half) (xs : List (BitVec 46 × W32)) :
    Keeps (State.waiting h) (abstainNoted s node master xs) := by
  unfold abstainNoted
  extract_lets new
  split
  · exact keeps_nil
  · exact (keeps_cons _ _).mpr ⟨waiting_apply_hub (fun _ => rfl) h, keeps_nil⟩

/-! ### Writes of engines -/

theorem engineHits_keeps_waiting (s : State) (w : Nat) : Keeps (State.waiting h) (engineHits s w) := by
  unfold engineHits
  split
  · rw [keeps_append, keeps_filterMap]
    refine ⟨fun c _ a ha => ?_, ?_⟩
    · split at ha
      · cases ha
        exact fun _ => rfl
      · cases ha
    · split
      · exact keeps_nil
      · exact (keeps_cons _ _).mpr ⟨fun _ => rfl, keeps_nil⟩
  · exact keeps_nil

theorem engineWrite_keeps_waiting (s : State) (data : List (Nat × Byte)) (bad : List Nat) (from_ : Half × Half) :
    Keeps (State.waiting h) (engineWrite s data bad from_) := by
  simp only [engineWrite, keeps_append, keeps_map, keeps_flatMap, engineHits_keeps_waiting, abstainAll_keeps_waiting,
    abstainNoted_keeps_waiting, implies_true, and_true]
  exact ⟨⟨⟨fun _ _ _ => rfl, fun _ _ _ => rfl⟩, fun _ _ _ => rfl⟩, fun _ _ _ => rfl⟩

end

end Sys2Proof.Machine
end

section
/-! SUPPORT. Wheels, refresh and tests (R286, R293, R295, R296, R299, R302, R303, R353, R363): what each event of a stack does, and
what the in-field test of a tile leaves. -/

namespace Sys2Proof.Machine

/-! ### Requests and refresh (R286, R296) -/

/-- The oldest request that is not served is the next. -/
theorem memoryRequest_of_oldest {s : State} {h : Fin 512} {i : Nat} {r : MemReq} (hr : (s.homes[h]).reqs[i]? = some r)
    (hnew : r.served = false) (hold : ∀ k o, k < i → (s.homes[h]).reqs[k]? = some o → o.served = true) :
    memoryRequest s h = rowAccess s h r.bank r.row r.sectors ++
      [.home h fun x => { x with reqs := x.reqs.modify i fun r => { r with served := true } }] := by
  have hi : i < (s.homes[h]).reqs.length := (List.getElem?_eq_some_iff.mp hr).1
  have hfirst : (List.range (s.homes[h]).reqs.length).find? (fun k => ((s.homes[h]).reqs[k]?).any fun o => !o.served) = some i := by
    refine List.find?_range_eq_some.mpr ⟨by rw [hr, Option.any_some, hnew, Bool.not_false], List.mem_range.mpr hi, fun k hk => ?_⟩
    have hlt : k < (s.homes[h]).reqs.length := by omega
    rw [List.getElem?_eq_getElem hlt, Option.any_some, hold k _ hk (List.getElem?_eq_getElem hlt)]
    rfl
  simp only [memoryRequest, hfirst, hr]

/-- An access to a row leaves the requests of every home. -/
theorem rowAccess_keeps_reqs (h : Fin 512) (s : State) (h' : Fin 512) (b : Fin 32) (row n : Nat) :
    Keeps (fun t => (t.homes[h]).reqs) (rowAccess s h' b row n) := by
  obtain ⟨notes, hnotes, heq⟩ := rowAccess_eq s h' b row n
  have hreqs (x : HomeSt) : (x.accessed s.hub.thresh.toNat b row n).reqs = x.reqs := by
    obtain ⟨_, _, _, _, _, hframe⟩ := accessed_frame x s.hub.thresh.toNat b row n
    rw [hframe]
  rw [heq, keeps_append, keeps_cons]
  exact ⟨keeps_notes hnotes (fun _ _ => rfl) fun _ _ => rfl, fun t => vset_congr HomeSt.reqs hreqs t.homes h' h, keeps_nil⟩

/-- A window with nothing else to do, or after eight postponements with no request left (R296). -/
def HomeSt.refreshes (x : HomeSt) : Prop := x.reqs = [] ∧ (x.jobs = [] ∨ 8 ≤ x.postponed)

/-- A refresh is performed in its window and leaves none owed. -/
theorem refreshInterval_of_window {s : State} {h : Fin 512} (hw : (s.homes[h]).refreshes) :
    refreshInterval s h = refreshLog s h ++ [.home h (refreshAll s.hub.thresh.toNat)] := by
  have hyes : ((s.homes[h]).reqs.isEmpty && ((s.homes[h]).jobs.isEmpty || decide (8 ≤ (s.homes[h]).postponed))) = true := by
    simpa [HomeSt.refreshes] using hw
  simp only [refreshInterval, hyes, if_true]

/-- A refresh without its window is postponed. -/
theorem refreshInterval_of_work {s : State} {h : Fin 512} (hw : ¬ (s.homes[h]).refreshes) :
    refreshInterval s h = [.home h fun x => { x with postponed := x.postponed + 1 }] := by
  have hno : ((s.homes[h]).reqs.isEmpty && ((s.homes[h]).jobs.isEmpty || decide (8 ≤ (s.homes[h]).postponed))) = false := by
    simpa [HomeSt.refreshes] using hw
  simp only [refreshInterval, hno, Bool.false_eq_true, if_false]

/-! ### A step of a wheel (R293, R295) -/

/-- A window that a wheel takes leaves what waits, and memory. -/
theorem windowActs_keep_waiting (h h' : Fin 512) (s : State) : Keeps (State.waiting h) (windowActs s h') := by
  unfold windowActs
  rw [keeps_append, keeps_cons]
  refine ⟨?_, waiting_apply_home (fun x => by rfl) h h', keeps_nil⟩
  split
  · rw [keeps_append, keeps_cons]
    exact ⟨notes_keep_waiting h (refreshLog_notes s h'), waiting_apply_home (wheel_refreshAll _) h h', keeps_nil⟩
  · exact keeps_nil

/-- It leaves the engines alone. -/
theorem windowActs_spares (s : State) (h : Fin 512) : SparesWork (windowActs s h) := by
  have hlog : SparesWork (refreshLog s h) := by simp [refreshLog]
  unfold windowActs
  split <;> simp [hlog]

section
variable {s : State} {h : Fin 512} {w : WheelJob} {rest : List WheelJob} {j : Job} {p : Piece}
  (hreqs : (s.homes[h]).reqs = []) (hjobs : (s.homes[h]).jobs = w :: rest) (hj : s.job w.job = some j)
  (hp : j.pieces[w.piece]? = some p) (hst : p.st = .started)
include hreqs hjobs hj hp hst

/-- The reading of a home is over (R293). -/
theorem wheelStep_of_wstat (hw : j.work = .wstat) :
    wheelStep s h = windowActs s h ++ [wheelEnds w.job w.piece codeOk, wheelPop h, stepCount h] := by
  simp only [wheelStep, hreqs, hjobs, hj, hp, hst, hw, List.isEmpty_nil, Bool.not_true, Bool.false_eq_true, bne_self_eq_false,
    if_false]

/-- A row of `wsa` is accumulated (R290). -/
theorem wheelStep_of_wsa (hw : j.work = .wsa) : wheelStep s h =
    windowActs s h ++ wsaStep (applyActs s (windowActs s h)) j w.piece p ++ [wheelPop h, stepCount h] := by
  simp only [wheelStep, hreqs, hjobs, hj, hp, hst, hw, List.isEmpty_nil, Bool.not_true, Bool.false_eq_true, bne_self_eq_false,
    if_false]

/-- A row of a bag is added (R291). -/
theorem wheelStep_of_wred (hw : j.work = .wred) : wheelStep s h =
    windowActs s h ++ wredStep (applyActs s (windowActs s h)) h j w.piece p w ++ [stepCount h] := by
  simp only [wheelStep, hreqs, hjobs, hj, hp, hst, hw, List.isEmpty_nil, Bool.not_true, Bool.false_eq_true, bne_self_eq_false,
    if_false]

end

/-- A wheel's first job is over and the step is counted, on a machine `u` where the wheel's jobs and count are those of `s`. -/
theorem wheelPop_stepCount_leaves {s u : State} {h : Fin 512} {w : WheelJob} {rest : List WheelJob}
    (hkept : u.waiting h = s.waiting h) (hjobs : (s.homes[h]).jobs = w :: rest) :
    let t := applyActs u [wheelPop h, stepCount h]
    (t.homes[h]).jobs = rest ∧ (t.homes[h]).steps = min ((s.homes[h]).steps + 1) 0xFFFFFFFF ∧ t.jobs = u.jobs ∧ t.mem = u.mem := by
  have hujobs : (u.homes[h]).jobs = w :: rest := (congrArg (fun z => z.1.1) hkept).trans hjobs
  have husteps : (u.homes[h]).steps = (s.homes[h]).steps := congrArg (fun z => z.1.2) hkept
  simp only [wheelPop, stepCount, applyActs_cons, applyActs_nil, apply_home_homes, vset_same, hujobs, husteps, List.tail_cons]
  exact ⟨trivial, trivial, rfl, rfl⟩

/-- A piece that has performed at its wheel is found so. -/
theorem jobPiece_apply_wheelEnds (t : State) (id ix : Nat) (code : BitVec 4) :
    ((wheelEnds id ix code).apply t).jobPiece id ix = (t.jobPiece id ix).map fun q => { q with st := .performed code } :=
  jobPiece_apply_piece_same id ix _ t

theorem touchRows_keep_mem (s : State) (xs : List (Fin 512 × Fin 32 × Nat × Nat)) : Keeps State.mem (touchRows s xs) :=
  touchRows_keeps (fun _ _ _ => rfl) (fun _ _ => rfl) (fun _ _ => rfl) s xs

/-! ### A row of `wsa` (R290) -/

/-- The bytes that a step of `wsa` writes for a pair of words. -/
def wsaBytes (s : State) (j : Job) (x : Nat × Nat) : List (Nat × Byte) :=
  let y := (fmaV rnd32 .rne (FFmt.f32.dec j.scale) (FFmt.f32.dec (word32 s.mem x.1)) (FFmt.f32.dec (word32 s.mem x.2))).1
  (List.range 4).map fun i => (x.2 + i, bits y (8 * i) 8)

/-- The bytes that a step of `wsa` writes for its row. -/
def wsaData (s : State) (j : Job) (p : Piece) : List (Nat × Byte) :=
  ((unitHeads s j.a p.tr (p.pairs.map Prod.fst)).zip (unitHeads s j.dst p.tr (p.pairs.map Prod.snd))).flatMap (wsaBytes s j)

/-- A poisoned sector leaves the row alone. -/
theorem wsaStep_of_poison {s : State} {j : Job} {p : Piece} (ix : Nat)
    (h : (lowestPoison s (wordBytes (unitHeads s j.a p.tr (p.pairs.map Prod.fst) ++
      unitHeads s j.dst p.tr (p.pairs.map Prod.snd)))).isSome = true) :
    ∃ rows, wsaStep s j ix p = touchRows s rows ++ [wheelEnds j.id ix codePoison] := by
  unfold wsaStep
  extract_lets a b reads f
  rw [if_pos h]
  exact ⟨_, rfl⟩

/-- A row without poison is read and written. -/
theorem wsaStep_of_sound {s : State} {j : Job} {p : Piece} (ix : Nat)
    (h : (lowestPoison s (wordBytes (unitHeads s j.a p.tr (p.pairs.map Prod.fst) ++
      unitHeads s j.dst p.tr (p.pairs.map Prod.snd)))).isSome = false) :
    ∃ rows, wsaStep s j ix p = touchRows s rows ++ engineWrite s (wsaData s j p) [] ++ [wheelEnds j.id ix codeOk] := by
  unfold wsaStep
  extract_lets a b reads f
  rw [if_neg (Bool.eq_false_iff.mp h)]
  exact ⟨_, rfl⟩

/-- Where no sector is poisoned, none of some addresses is. -/
theorem lowestPoison_of_none {s : State} (h : s.poisoned = []) (xs : List Nat) : lowestPoison s xs = none := by
  have hnone : xs.filter (poisonedAt s) = [] := List.filter_eq_nil_iff.mpr fun a _ => by simp [poisonedAt, h]
  rw [lowestPoison, hnone, List.foldl_nil]

/-- A step of `wsa` leaves what waits, ends its piece, and writes its row unless a sector of it is poisoned. -/
theorem wsaStep_leaves (s : State) {j : Job} {ix : Nat} {p : Piece} (hp : s.jobPiece j.id ix = some p) (h : Fin 512) :
    let t := applyActs s (wsaStep s j ix p)
    t.waiting h = s.waiting h ∧ ∃ code, t.jobPiece j.id ix = some { p with st := .performed code } ∧
      (code = codeOk ∨ code = codePoison ∧ t.mem = s.mem) ∧
      (s.poisoned = [] → abstainWords s (wsaData s j p) = [] → code = codeOk ∧ t.mem = putBytes s.mem (wsaData s j p)) := by
  cases hpoison : (lowestPoison s (wordBytes (unitHeads s j.a p.tr (p.pairs.map Prod.fst) ++
      unitHeads s j.dst p.tr (p.pairs.map Prod.snd)))).isSome with
  | true =>
    obtain ⟨rows, heq⟩ := wsaStep_of_poison ix hpoison
    have hrows : applyActs s (wsaStep s j ix p) = (wheelEnds j.id ix codePoison).apply (applyActs s (touchRows s rows)) := by
      rw [heq, applyActs_append, applyActs_cons, applyActs_nil]
    rw [hrows]
    refine ⟨(applyActs_keeps (touchRows_keeps_waiting h s rows) s), codePoison, ?_,
      .inr ⟨rfl, applyActs_keeps (touchRows_keep_mem s rows) s⟩, fun hclean => ?_⟩
    · rw [jobPiece_apply_wheelEnds, jobPiece_spared (touchRows_spares s rows), hp, Option.map_some]
    · rw [lowestPoison_of_none hclean] at hpoison
      cases hpoison
  | false =>
    obtain ⟨rows, heq⟩ := wsaStep_of_sound ix hpoison
    have hspares : SparesWork (touchRows s rows ++ engineWrite s (wsaData s j p) []) := by simp
    have hkeeps : Keeps (State.waiting h) (touchRows s rows ++ engineWrite s (wsaData s j p) []) :=
      (keeps_append _ _).mpr ⟨touchRows_keeps_waiting h s rows, engineWrite_keeps_waiting h s _ _ _⟩
    have hwrite : applyActs s (wsaStep s j ix p) =
        (wheelEnds j.id ix codeOk).apply (applyActs s (touchRows s rows ++ engineWrite s (wsaData s j p) [])) := by
      rw [heq, applyActs_append _ (touchRows s rows ++ _), applyActs_cons, applyActs_nil]
    rw [hwrite]
    refine ⟨applyActs_keeps hkeeps s, codeOk, ?_, .inl rfl, fun _ hwords => ⟨rfl, ?_⟩⟩
    · rw [jobPiece_apply_wheelEnds, jobPiece_spared hspares, hp, Option.map_some]
    · show (applyActs s (touchRows s rows ++ engineWrite s (wsaData s j p) [])).mem = _
      rw [applyActs_append, mem_engineWrite s _ _ _ hwords, applyActs_keeps (touchRows_keep_mem s rows)]

/-! ### A row of a bag of `wred` (R291) -/

/-- The words of the row that a step of `wred` adds. -/
def wredRow (s : State) (j : Job) (p : Piece) (w : WheelJob) : List W32 :=
  (unitHeads s j.a p.tr (rowUnits (bagCols j) ((w.rows.getD w.pos (0, 0)).1))).map (word32 s.mem)

/-- The accumulators after that row. -/
def wredAcc (s : State) (j : Job) (p : Piece) (w : WheelJob) : List W32 :=
  match w.acc with
  | none => wredRow s j p w
  | some a => addRows a (wredRow s j p w)

/-- A row that is not a bag's last in its home joins the accumulators. -/
theorem wredStep_of_more {s : State} {j : Job} {p : Piece} {w : WheelJob} (h : Fin 512) (ix : Nat) (hmore : w.pos + 1 < w.len) :
    ∃ rows bad, wredStep s h j ix p w = touchRows s rows ++ [.home h fun x =>
      { x with jobs := { w with pos := w.pos + 1, acc := some (wredAcc s j p w), poisoned := bad } :: x.jobs.tail }] := by
  unfold wredStep
  extract_lets heads bad rows row acc
  rw [if_pos hmore]
  exact ⟨_, _, rfl⟩

/-- With a bag's last row in its home, the partial sum goes to the copy engine. -/
theorem wredStep_of_last {s : State} {j : Job} {p : Piece} {w : WheelJob} (h : Fin 512) (ix : Nat) (hlast : w.len ≤ w.pos + 1) :
    ∃ rows, ∃ lost : Piece → List Nat, wredStep s h j ix p w = touchRows s rows ++ [wheelPop h,
      .piece j.id ix fun q => { q with sums := q.sums ++ [(h.val, wredAcc s j p w)], lost := lost q }] := by
  unfold wredStep
  extract_lets heads bad rows row acc
  rw [if_neg (Nat.not_lt.mpr hlast)]
  exact ⟨_, fun q => if bad then q.lost ++ [h.val] else q.lost, rfl⟩

/-- A row that is not the last leaves the wheel's job with that row added. -/
theorem wredStep_more_leaves {s : State} {j : Job} {p : Piece} {w : WheelJob} {rest : List WheelJob} {h : Fin 512}
    (hjobs : (s.homes[h]).jobs = w :: rest) (ix : Nat) (hmore : w.pos + 1 < w.len) :
    let t := applyActs s (wredStep s h j ix p w)
    (∃ y, (t.homes[h]).jobs = y :: rest ∧ y.pos = w.pos + 1 ∧ y.acc = some (wredAcc s j p w)) ∧
      (t.homes[h]).steps = (s.homes[h]).steps ∧ t.mem = s.mem := by
  obtain ⟨rows, bad, heq⟩ := wredStep_of_more (s := s) (j := j) (p := p) h ix hmore
  have hwheel := congrArg Prod.fst (applyActs_keeps (touchRows_keeps_waiting h s rows) s)
  have hkept : ((applyActs s (touchRows s rows)).homes[h]).jobs = w :: rest := (congrArg Prod.fst hwheel).trans hjobs
  dsimp only
  rw [heq, applyActs_append, applyActs_cons, applyActs_nil, apply_home_homes, vset_same, apply_home_mem,
    applyActs_keeps (touchRows_keep_mem s rows), hkept]
  exact ⟨⟨_, rfl, rfl, rfl⟩, congrArg Prod.snd hwheel, rfl⟩

/-- The last row leaves the wheel without the job, and its piece with the sum. -/
theorem wredStep_last_leaves {s : State} {j : Job} {p : Piece} {w : WheelJob} {rest : List WheelJob} {h : Fin 512}
    (hjobs : (s.homes[h]).jobs = w :: rest) {ix : Nat} (hp : s.jobPiece j.id ix = some p) (hlast : w.len ≤ w.pos + 1) :
    let t := applyActs s (wredStep s h j ix p w)
    (t.homes[h]).jobs = rest ∧ (t.homes[h]).steps = (s.homes[h]).steps ∧ t.mem = s.mem ∧
      ∃ q, t.jobPiece j.id ix = some q ∧ q.st = p.st ∧ q.sums = p.sums ++ [(h.val, wredAcc s j p w)] := by
  obtain ⟨rows, lost, heq⟩ := wredStep_of_last (s := s) (j := j) (p := p) h ix hlast
  have hwheel := congrArg Prod.fst (applyActs_keeps (touchRows_keeps_waiting h s rows) s)
  have hkept : ((applyActs s (touchRows s rows)).homes[h]).jobs = w :: rest := (congrArg Prod.fst hwheel).trans hjobs
  have hpiece : ((wheelPop h).apply (applyActs s (touchRows s rows))).jobPiece j.id ix = some p :=
    (jobPiece_spared (touchRows_spares s rows) s j.id ix).trans hp
  dsimp only
  rw [heq, applyActs_append, applyActs_cons, applyActs_cons, applyActs_nil, jobPiece_apply_piece_same, hpiece, Option.map_some]
  refine ⟨?_, ?_, applyActs_keeps (touchRows_keep_mem s rows) s, _, rfl, rfl, rfl⟩
  · rw [Act.piece, Act.job, apply_jobs_homes, wheelPop, apply_home_homes, vset_same, hkept]
    rfl
  · rw [Act.piece, Act.job, apply_jobs_homes, wheelPop, apply_home_homes, vset_same]
    exact congrArg Prod.snd hwheel

/-- A step that is counted changes its home's count alone. -/
theorem apply_stepCount (h : Fin 512) (t : State) :
    (((stepCount h).apply t).homes[h]).jobs = (t.homes[h]).jobs ∧
      (((stepCount h).apply t).homes[h]).steps = min ((t.homes[h]).steps + 1) 0xFFFFFFFF ∧
      ((stepCount h).apply t).mem = t.mem ∧ ((stepCount h).apply t).jobs = t.jobs := by
  simp [stepCount]

/-! ### What a step of a wheel leaves (R293, R295) -/

section
variable {s : State} {h : Fin 512} {w : WheelJob} {rest : List WheelJob} {j : Job} {p : Piece}
  (hreqs : (s.homes[h]).reqs = []) (hjobs : (s.homes[h]).jobs = w :: rest) (hj : s.job w.job = some j)
  (hp : j.pieces[w.piece]? = some p) (hst : p.st = .started)

/-- A window leaves the wheel's jobs and its count. -/
theorem wheel_applyActs_windowActs (s : State) (h : Fin 512) :
    ((applyActs s (windowActs s h)).homes[h]).jobs = (s.homes[h]).jobs ∧
      ((applyActs s (windowActs s h)).homes[h]).steps = (s.homes[h]).steps := by
  have hwindow := applyActs_keeps (windowActs_keep_waiting h h s) s
  exact ⟨congrArg (fun z => z.1.1) hwindow, congrArg (fun z => z.1.2) hwindow⟩

include hj hp in
/-- The piece of a wheel's first job is found after its window as before. -/
theorem jobPiece_applyActs_windowActs : (applyActs s (windowActs s h)).jobPiece j.id w.piece = some p := by
  rw [jobPiece_spared (windowActs_spares s h), job_id hj, jobPiece_of_job hj hp]

include hreqs hjobs hj hp hst

/-- After a reading is over. -/
theorem wheelStep_wstat_leaves (hw : j.work = .wstat) : let t := applyActs s (wheelStep s h)
    (t.homes[h]).jobs = rest ∧ (t.homes[h]).steps = min ((s.homes[h]).steps + 1) 0xFFFFFFFF ∧
      ∃ q, t.jobPiece w.job w.piece = some q ∧ q.st = .performed 0 := by
  have hpiece := jobPiece_applyActs_windowActs (h := h) hj hp
  rw [job_id hj] at hpiece
  obtain ⟨hpop, hsteps, hkept, -⟩ := wheelPop_stepCount_leaves (s := s)
    (u := (wheelEnds w.job w.piece codeOk).apply (applyActs s (windowActs s h))) (applyActs_keeps (windowActs_keep_waiting h h s) s) hjobs
  dsimp only
  rw [wheelStep_of_wstat hreqs hjobs hj hp hst hw, applyActs_append, applyActs_cons]
  refine ⟨hpop, hsteps, { p with st := .performed 0 }, ?_, rfl⟩
  rw [jobPiece_of_jobs hkept, jobPiece_apply_wheelEnds, hpiece]
  rfl

/-- After a step of `wsa`. -/
theorem wheelStep_wsa_leaves (hw : j.work = .wsa) : let t := applyActs s (wheelStep s h)
    let v := applyActs s (windowActs s h)
    (t.homes[h]).jobs = rest ∧ (t.homes[h]).steps = min ((s.homes[h]).steps + 1) 0xFFFFFFFF ∧
      ∃ q, t.jobPiece w.job w.piece = some q ∧ (q.st = .performed 0 ∨ q.st = .performed 2 ∧ t.mem = v.mem) ∧
        (v.poisoned = [] → abstainWords v (wsaData v j p) = [] →
          q.st = .performed 0 ∧ t.mem = putBytes v.mem (wsaData v j p)) := by
  obtain ⟨hkept, code, hfound, hcode, hsound⟩ :=
    wsaStep_leaves (applyActs s (windowActs s h)) (jobPiece_applyActs_windowActs (h := h) hj hp) h
  obtain ⟨hpop, hsteps, hsame, hmem⟩ :=
    wheelPop_stepCount_leaves (hkept.trans (applyActs_keeps (windowActs_keep_waiting h h s) s)) hjobs
  dsimp only
  rw [wheelStep_of_wsa hreqs hjobs hj hp hst hw, applyActs_append, applyActs_append, jobPiece_of_jobs hsame, ← job_id hj, hmem]
  refine ⟨hpop, hsteps, _, hfound, ?_, fun hclean hwords => ?_⟩
  · rcases hcode with rfl | ⟨rfl, hnone⟩
    · exact .inl rfl
    · exact .inr ⟨rfl, hnone⟩
  · obtain ⟨rfl, hdata⟩ := hsound hclean hwords
    exact ⟨rfl, hdata⟩

/-- After a row of a bag that has more in this home. -/
theorem wheelStep_wred_more_leaves (hw : j.work = .wred) (hmore : w.pos + 1 < w.len) : let t := applyActs s (wheelStep s h)
    let v := applyActs s (windowActs s h)
    (∃ y, (t.homes[h]).jobs = y :: rest ∧ y.pos = w.pos + 1 ∧ y.acc = some (wredAcc v j p w)) ∧
      (t.homes[h]).steps = min ((s.homes[h]).steps + 1) 0xFFFFFFFF ∧ t.mem = v.mem := by
  obtain ⟨hvjobs, hvsteps⟩ := wheel_applyActs_windowActs s h
  obtain ⟨hrow, hsteps, hmem⟩ := wredStep_more_leaves (j := j) (p := p) (hvjobs.trans hjobs) w.piece hmore
  dsimp only
  rw [wheelStep_of_wred hreqs hjobs hj hp hst hw, applyActs_append, applyActs_append, applyActs_cons, applyActs_nil]
  obtain ⟨hcjobs, hcsteps, hcmem, -⟩ := apply_stepCount h (applyActs _ (wredStep (applyActs s (windowActs s h)) h j w.piece p w))
  rw [hcjobs, hcsteps, hcmem, hsteps, hvsteps]
  exact ⟨hrow, rfl, hmem⟩

/-- After a bag's last row in this home. -/
theorem wheelStep_wred_last_leaves (hw : j.work = .wred) (hlast : w.len ≤ w.pos + 1) : let t := applyActs s (wheelStep s h)
    let v := applyActs s (windowActs s h)
    (t.homes[h]).jobs = rest ∧ (t.homes[h]).steps = min ((s.homes[h]).steps + 1) 0xFFFFFFFF ∧ t.mem = v.mem ∧
      ∃ q, t.jobPiece w.job w.piece = some q ∧ q.st = .started ∧ q.sums = p.sums ++ [(h.val, wredAcc v j p w)] := by
  obtain ⟨hvjobs, hvsteps⟩ := wheel_applyActs_windowActs s h
  obtain ⟨hrest, hsteps, hmem, q, hq, hqst, hqsums⟩ :=
    wredStep_last_leaves (hvjobs.trans hjobs) (jobPiece_applyActs_windowActs (h := h) hj hp) hlast
  dsimp only
  rw [wheelStep_of_wred hreqs hjobs hj hp hst hw, applyActs_append, applyActs_append, applyActs_cons, applyActs_nil]
  obtain ⟨hcjobs, hcsteps, hcmem, hckept⟩ := apply_stepCount h (applyActs _ (wredStep (applyActs s (windowActs s h)) h j w.piece p w))
  rw [hcjobs, hcsteps, hcmem, hsteps, hvsteps, jobPiece_of_jobs hckept, ← job_id hj]
  exact ⟨hrest, rfl, hmem, q, hq, hqst.trans hst, hqsums⟩

end

/-! ### Run-time self-test (R302, R303) -/

/-- With EN, the next bank is taken where the spare of its pseudo-channel is free. -/
theorem selfTestStart_of_free {s : State} {x : Fin 8} (hen : (s.hub.stktest[x]).getLsbD 15 = true)
    (hidle : (s.memStacks[x]).test = none) (hsound : (s.memStacks[x]).failed = false) (hnext : (s.memStacks[x]).next < 2048)
    (hspare : (s.homes[fin 511 (x.val * 64 + (s.memStacks[x]).next / 32)]).failedBank = none) :
    selfTestStart s x = [.stack x fun y => { y with
      test := some (fin 63 ((s.memStacks[x]).next / 32), fin 31 ((s.memStacks[x]).next % 32), 0, 0)
      next := ((s.memStacks[x]).next + 1) % 2048 }] := by
  have hmod : ((s.memStacks[x]).next + 0) % 2048 = (s.memStacks[x]).next := Nat.mod_eq_of_lt hnext
  have hfirst : (List.range 2048).find? (fun i => (s.homes[fin 511 (x.val * 64 + ((s.memStacks[x]).next + i) % 2048 / 32)]).failedBank.isNone) =
      some 0 :=
    List.find?_range_eq_some.mpr ⟨by simp only [hmod, hspare, Option.isNone_none], List.mem_range.mpr (by decide), fun k hk => absurd hk (Nat.not_lt_zero k)⟩
  simp only [selfTestStart, stkEn, bitAt, hen, hidle, hsound, hfirst, hmod, Option.isSome_none, Bool.not_true, Bool.or_self,
    Bool.false_eq_true, if_false]

section
variable {s : State} {x : Fin 8} {pc : Fin 64} {b : Fin 32} {row : Nat}

/-- A pseudo-channel that has no work. -/
theorem quietHome_of_quiet (h : let u := s.homes[fin 511 (x.val * 64 + pc.val)]
    u.jobs = [] ∧ u.reqs = [] ∧ u.postponed = 0 ∧ u.owed = []) : quietHome s x pc = true := by
  obtain ⟨hjobs, hreqs, hpostponed, howed⟩ := h
  simp only [quietHome, hjobs, hreqs, hpostponed, howed, List.isEmpty_nil, beq_self_eq_true, Bool.and_self]

/-- A row is parked. -/
theorem selfTestPark_of_quiet (ht : (s.memStacks[x]).test = some (pc, b, 0, row)) (hq : quietHome s x pc = true) :
    selfTestPark s x = testCopy s x pc b row ++
      [.stack x fun y => { y with test := some (if row + 1 < 8192 then (pc, b, 0, row + 1) else (pc, b, 1, 0)) }] := by
  simp only [selfTestPark, ht, hq, Bool.not_true, Bool.false_eq_true, if_false]

/-- A row is restored. -/
theorem selfTestRestore_of_quiet (ht : (s.memStacks[x]).test = some (pc, b, 2, row)) (hq : quietHome s x pc = true) :
    selfTestRestore s x = testCopy s x pc b row ++
      [.stack x fun y => { y with test := if row + 1 < 8192 then some (pc, b, 2, row + 1) else none }] := by
  simp only [selfTestRestore, ht, hq, Bool.not_true, Bool.false_eq_true, if_false]

/-- A bank that passes is restored. -/
theorem selfTestMarch_of_pass (ht : (s.memStacks[x]).test = some (pc, b, 1, row)) : selfTestMarch s x true =
    [stkAct x fun w => satInc16 w 32, .stack x fun y => { y with test := some (pc, b, 2, 0) }] := by
  simp only [selfTestMarch, ht, if_true]

/-- A bank that fails is noted in STKTEST. -/
def stkFailed (pc : Fin 64) (b : Fin 32) (w : W64) : W64 :=
  setBits (setBits (setBits (satInc16 w 48) 31 1#1) 25 (BitVec.ofNat 6 pc.val)) 20 (BitVec.ofNat 5 b.val)

/-- The bit of STKTEST that says that a bank has failed is set. -/
theorem getLsbD_stkFailed (pc : Fin 64) (b : Fin 32) (w : W64) : (stkFailed pc b w).getLsbD 31 = true := by
  rw [stkFailed, getLsbD_setBits _ _ _ (by decide), getLsbD_setBits _ _ _ (by decide), getLsbD_setBits _ _ _ (by decide)]
  rfl

/-- A bank that fails stays remapped, is recorded and is reported. -/
theorem selfTestMarch_of_failure (ht : (s.memStacks[x]).test = some (pc, b, 1, row)) : selfTestMarch s x false =
    [stkAct x (stkFailed pc b), .home (fin 511 (x.val * 64 + pc.val)) fun h => { h with failedBank := some b },
      .stack x fun y => { y with test := none }, .report (.bank x.val (pc.val * 32 + b.val))] := by
  simp only [selfTestMarch, ht, Bool.false_eq_true, if_false]
  rfl

end

/-! ### The in-field test of a tile (R353, R363) -/

/-- What a die notes of its in-field test. -/
def DieSt.tests (x : DieSt) : Bool × Fin 16 × Nat := (x.testing, x.testTile, x.suspectCount)

/-- The tiles, and what die `d` notes of its test. -/
def State.tileTests (d : Fin 4) (s : State) : Vector TileSt 64 × Bool × Fin 16 × Nat := (s.tiles, (s.dies[d]).tests)

theorem tileTests_apply_die {f : DieSt → DieSt} (hf : ∀ x, (f x).tests = x.tests) (d d' : Fin 4) (s : State) :
    ((Act.die d' f).apply s).tileTests d = s.tileTests d := by
  simp only [State.tileTests, apply_die_tiles, apply_die_dies, vset_congr DieSt.tests hf]

/-- A core's brake leaves the tiles and the tests of their dies. -/
theorem brakeCore_keeps_tileTests (d : Fin 4) (s : State) (c : Fin 256) (on : Bool) : Keeps (State.tileTests d) (brakeCore s c on) := by
  unfold brakeCore
  extract_lets x who
  simp only [keeps_append, keeps_cons, keeps_nil, and_true]
  refine ⟨⟨⟨fun _ => rfl, fun _ => rfl⟩, ?_⟩, ?_⟩
  · exact (keeps_cons _ _).mpr ⟨tileTests_apply_die (fun _ => by rfl) d _, keeps_nil⟩
  · split
    · simp only [keeps_append, preemptActs, unseatActs, keeps_filterMap]
      refine ⟨fun o _ a ha => ?_, fun o _ a ha => ?_⟩
      · split at ha
        · cases ha
        · cases ha
          exact fun _ => rfl
      · split at ha
        · cases ha
          exact tileTests_apply_die (fun _ => by rfl) d _
        · cases ha
    · exact keeps_nil

/-- A tile's brake changes the tile, and leaves the tests of the dies. -/
theorem brakeTile_leaves (s t : State) (x : Fin 64) (on : Bool) (d : Fin 4) :
    let t' := applyActs t (brakeTile s x on)
    t'.tiles = vset t.tiles x { t.tiles[x] with braked := on, failed := (t.tiles[x]).failed && on } ∧
      (t'.dies[d]).tests = (t.dies[d]).tests := by
  have hcores : Keeps (State.tileTests d) ((tileCores x).flatMap fun c => brakeCore s c on) :=
    (keeps_flatMap _ _).mpr fun c _ => brakeCore_keeps_tileTests d s c on
  have hkept := applyActs_keeps hcores (applyActs t
    [.tile x fun x => { x with braked := on, failed := x.failed && on }, .report (.brake (tileHome x.val) on)])
  rw [brakeTile, applyActs_append]
  exact ⟨congrArg Prod.fst hkept, congrArg Prod.snd hkept⟩

/-- A tile lies on the die that tests it. -/
theorem testedTile_die (s : State) (d : Fin 4) : fin 3 ((testedTile s d).val / 16) = d := by
  have htile := (s.dies[d]).testTile.isLt
  apply Fin.ext
  simp only [testedTile, fin, Fin.ofNat]
  omega

/-- The cores of a tile are those numbered by it. -/
theorem mem_tileCores {c : Fin 256} {t : Fin 64} (h : c.val / 4 = t.val) : c ∈ tileCores t := by
  refine List.mem_map.mpr ⟨c.val % 4, List.mem_range.mpr (by omega), Fin.ext ?_⟩
  simp only [fin, Fin.ofNat]
  omega

/-- Reports of gangs and bands, and records sent to nodes, change neither cores, nor tiles, nor dies. -/
theorem groupReports_keep {α : Type} {π : State → α} (hreport : ∀ r t, π ((Act.report r).apply t) = π t) (s : State) (d : Fin 4)
    (t : Fin 64) : Keeps π (groupReports s d t) := by
  unfold groupReports
  extract_lets rs teams
  rw [keeps_flatMap]
  intro n _
  split
  · unfold groupReport
    split
    · exact keeps_nil
    · extract_lets
      split
      · exact (keeps_cons _ _).mpr ⟨hreport _, keeps_nil⟩
      · exact keeps_nil
  · exact keeps_nil

theorem sendRecord_keep {α : Type} {π : State → α} (hids : ∀ n t, π ((Act.ids n).apply t) = π t)
    (hhub : ∀ f t, π ((Act.hub f).apply t) = π t) (s : State) (r : List Byte) (ns : List Half) : Keeps π (sendRecord s r ns) := by
  induction ns generalizing s with
  | nil => exact keeps_nil
  | cons n ns ih => exact (keeps_append _ _).mpr ⟨(keeps_cons _ _).mpr ⟨hids _, (keeps_cons _ _).mpr ⟨hhub _, keeps_nil⟩⟩, ih _⟩

/-- A tile that has failed its test is noted in its die's log, and reported (R364). -/
def suspectActs (x : Fin 64) (r : List Byte) : List Act :=
  [.die (fin 3 (x.val / 16)) fun y =>
    { y with suspects := (y.suspects ++ [r]).drop (y.suspects.length - 3), suspectCount := y.suspectCount + 1 },
    .tile x fun y => { y with failed := true }, .report (.suspect r)]

/-- It is noted and its cores are marked with it before its record is sent (R363). -/
theorem tileFailed_eq (s : State) (x : Fin 64) : ∃ r more, tileFailed s x =
    suspectActs x r ++ ((tileCores x).map fun c => .core c fun y => { y with failed := true }) ++ more ∧
    Keeps State.cores more ∧ Keeps State.tiles more ∧ Keeps State.dies more := by
  unfold tileFailed
  extract_lets d r acts acts' nodes
  refine ⟨r, groupReports (applyActs s acts) d x ++ (if s.hub.node = 0 then [] else sendRecord (applyActs s acts') r nodes.eraseDups),
    by rw [← List.append_assoc]; rfl, ?_, ?_, ?_⟩
  all_goals
    rw [keeps_append]
    refine ⟨groupReports_keep (fun _ _ => rfl) _ d x, ?_⟩
    split
    · exact keeps_nil
    · exact sendRecord_keep (fun _ _ => rfl) (fun _ _ => rfl) _ r _

/-- Marking cores leaves tiles and dies, and every core marked is found so. -/
theorem applyActs_failed_cores (cs : List (Fin 256)) (t : State) :
    let t' := applyActs t (cs.map fun c => .core c fun x => { x with failed := true })
    t'.tiles = t.tiles ∧ t'.dies = t.dies ∧
      ∀ c : Fin 256, c ∈ cs ∨ (t.cores[c]).failed = true → (t'.cores[c]).failed = true := by
  induction cs generalizing t with
  | nil => exact ⟨rfl, rfl, fun c h => h.resolve_left (List.not_mem_nil)⟩
  | cons a cs ih =>
    obtain ⟨htiles, hdies, hcores⟩ := ih ((Act.core a fun x => { x with failed := true }).apply t)
    refine ⟨htiles, hdies, fun c h => hcores c ?_⟩
    by_cases hc : c = a
    · exact .inr (by rw [hc, apply_core_cores, vset_same])
    · rw [apply_core_cores, vset_other _ _ _ _ hc]
      exact h.imp_left fun h => (List.mem_cons.mp h).resolve_left hc

/-- After a tile has failed its test: it and its cores are marked, and its die has counted it. -/
theorem tileFailed_leaves (s t : State) (d : Fin 4) {x : Fin 64} (hd : fin 3 (x.val / 16) = d) :
    let t' := applyActs t (tileFailed s x)
    (t'.dies[d]).testing = (t.dies[d]).testing ∧ (t'.dies[d]).suspectCount = (t.dies[d]).suspectCount + 1 ∧
      (t'.tiles[x]).failed = true ∧ ∀ c : Fin 256, c.val / 4 = x.val → (t'.cores[c]).failed = true := by
  obtain ⟨r, more, heq, hcores, htiles, hdies⟩ := tileFailed_eq s x
  obtain ⟨htiles', hdies', hcores'⟩ := applyActs_failed_cores (tileCores x) (applyActs t (suspectActs x r))
  dsimp only
  rw [heq, applyActs_append, applyActs_append, applyActs_keeps hcores, applyActs_keeps htiles, applyActs_keeps hdies, htiles', hdies']
  simp only [suspectActs, applyActs_cons, applyActs_nil, apply_report_dies, apply_tile_dies, apply_die_dies, apply_report_tiles,
    apply_tile_tiles, hd, vset_same, true_and]
  exact fun c hc => hcores' c (.inl (mem_tileCores hc))

/-- A tile's test starts with its brake. -/
theorem logicTestStart_of_enabled {s : State} {d : Fin 4} (hen : s.hub.ltest.getLsbD 15 = true) (hidle : (s.dies[d]).testing = false)
    (hpower : (s.dies[d]).poweredDown = false) :
    logicTestStart s d = .die d (fun x => { x with testing := true }) :: brakeTile s (testedTile s d) true := by
  simp only [logicTestStart, bitAt, hen, hidle, hpower, Bool.not_true, Bool.or_self, Bool.false_eq_true, if_false]

section
variable {s : State} {d : Fin 4} (h : (s.dies[d]).testing = true)
include h

/-- A tile that passes loses its brake, unless an earlier test has failed it, and its log. -/
theorem logicTestEnd_of_pass : logicTestEnd s d true =
    (if (s.tiles[testedTile s d]).failed then [] else brakeTile s (testedTile s d) false) ++
      [.die d fun x => { x with testing := false, testTile := x.testTile + 1 },
        .tile (testedTile s d) fun x => { x with passed := x.passed + 1, nodes := [], overflow := false },
        .hub fun y => { y with lastPass := vset y.lastPass (testedTile s d) (hubNow s) }] := by
  simp only [logicTestEnd, h, Bool.not_true, Bool.false_eq_true, if_false, if_true]

/-- A tile that fails stays braked. -/
theorem logicTestEnd_of_failure : logicTestEnd s d false =
    .die d (fun x => { x with testing := false, testTile := x.testTile + 1 }) :: tileFailed s (testedTile s d) := by
  simp only [logicTestEnd, h, Bool.not_true, Bool.false_eq_true, if_false]

/-- After a tile has passed its test. -/
theorem logicTestEnd_pass_leaves : let t := applyActs s (logicTestEnd s d true)
    let x := s.tiles[testedTile s d]
    (t.dies[d]).testing = false ∧ (t.tiles[testedTile s d]).braked = (x.failed && x.braked) ∧ (t.tiles[testedTile s d]).nodes = [] ∧
      (t.dies[d]).testTile = (s.dies[d]).testTile + 1 := by
  rw [logicTestEnd_of_pass h]
  dsimp only
  cases hf : (s.tiles[testedTile s d]).failed with
  | true =>
    simp only [if_true, List.nil_append, applyActs_cons, applyActs_nil, apply_hub_dies, apply_tile_dies, apply_die_dies, apply_hub_tiles,
      apply_tile_tiles, apply_die_tiles, vset_same, Bool.true_and, and_self]
  | false =>
    obtain ⟨htiles, hdies⟩ := brakeTile_leaves s s (testedTile s d) false d
    have htile : ((applyActs s (brakeTile s (testedTile s d) false)).dies[d]).testTile = (s.dies[d]).testTile :=
      congrArg (fun v => v.2.1) hdies
    simp only [Bool.false_eq_true, if_false, applyActs_append, applyActs_cons, applyActs_nil, apply_hub_dies, apply_tile_dies,
      apply_die_dies, apply_hub_tiles, apply_tile_tiles, apply_die_tiles, htiles, htile, vset_same, Bool.false_and, and_self]

end

/-- Settles O38: each event by its updates; a step of a wheel is its window, the step of its first job, and its count. -/
theorem stackEvents : Obligations.StackEvents := by
  unfold Obligations.StackEvents
  intro s h i r w rest j p x pc b row d u y tested quiet v counted tile
  refine ⟨fun hr hnew hold => ?_, fun hreqs hjobs hj hw hp hst => ?_, fun hreqs hjobs hj hp hst => ⟨fun hw => ?_, fun hw => ⟨fun hmore => ?_,
    fun hlast => ?_⟩⟩, ?_, fun hen hidle hsound hnext hspare => ?_, fun ht hq => ?_, fun ht => ⟨?_, ?_⟩, fun ht hq => ?_,
    fun hen hidle hpower => ?_, fun htesting => ⟨?_, ?_⟩⟩
  · refine ⟨applyActs s (memoryRequest s h), rfl, ?_⟩
    rw [memoryRequest_of_oldest hr hnew hold, applyActs_append, applyActs_cons, applyActs_nil, apply_home_homes, vset_same,
      List.getElem?_modify_eq, applyActs_keeps (rowAccess_keeps_reqs h s h r.bank r.row r.sectors) s, hr]
    rfl
  · obtain ⟨hrest, hsteps, q, hq, hqst⟩ := wheelStep_wstat_leaves hreqs hjobs hj hp hst hw
    obtain ⟨j', hj', hp'⟩ := Option.bind_eq_some_iff.mp hq
    exact ⟨applyActs s (wheelStep s h), j', q, rfl, hrest, hsteps, hj', hp', hqst⟩
  · intro src dst word new
    obtain ⟨hrest, hsteps, q, hq, hqst⟩ := wheelStep_wsa_leaves hreqs hjobs hj hp hst hw
    obtain ⟨j', hj', hp'⟩ := Option.bind_eq_some_iff.mp hq
    exact ⟨applyActs s (wheelStep s h), j', q, rfl, hrest, hsteps, hj', hp', hqst⟩
  · obtain ⟨⟨y, hy, hpos, hacc⟩, hsteps, hmem⟩ := wheelStep_wred_more_leaves hreqs hjobs hj hp hst hw hmore
    exact ⟨applyActs s (wheelStep s h), y, rfl, hy, hpos, hacc, hsteps, hmem⟩
  · obtain ⟨hrest, hsteps, hmem, q, hq, hqst, hqsums⟩ := wheelStep_wred_last_leaves hreqs hjobs hj hp hst hw hlast
    obtain ⟨j', hj', hp'⟩ := Option.bind_eq_some_iff.mp hq
    exact ⟨applyActs s (wheelStep s h), j', q, rfl, hrest, hsteps, hmem, hj', hp', hqst, hqsums⟩
  · refine ⟨applyActs s (refreshInterval s h), rfl, fun hfree => ?_, fun hbusy => ?_⟩
    · rw [refreshInterval_of_window hfree, applyActs_append, applyActs_cons, applyActs_nil, apply_home_homes, vset_same]
      exact ⟨rfl, rfl⟩
    · rw [refreshInterval_of_work hbusy, applyActs_cons, applyActs_nil, apply_home_homes, vset_same]
  · refine ⟨applyActs s (selfTestStart s x), rfl, ?_⟩
    rw [selfTestStart_of_free hen hidle hsound hnext hspare, applyActs_cons, applyActs_nil, apply_stack_memStacks, vset_same]
    exact ⟨rfl, rfl⟩
  · refine ⟨applyActs s (selfTestPark s x), rfl, ?_⟩
    rw [selfTestPark_of_quiet ht (quietHome_of_quiet hq), applyActs_append, applyActs_cons, applyActs_nil, apply_stack_memStacks,
      vset_same]
    exact apply_ite some (row + 1 < 8192) _ _
  · refine ⟨applyActs s (selfTestMarch s x true), rfl, ?_⟩
    rw [selfTestMarch_of_pass ht, applyActs_cons, applyActs_cons, applyActs_nil, apply_stack_memStacks, vset_same]
  · refine ⟨applyActs s (selfTestMarch s x false), rfl, ?_⟩
    simp only [selfTestMarch_of_failure ht, stkAct, applyActs_cons, applyActs_nil, apply_report_memStacks, apply_stack_memStacks,
      apply_report_homes, apply_stack_homes, apply_home_homes, apply_report_hub, apply_stack_hub, apply_home_hub, apply_hub_hub,
      apply_report_reports, apply_stack_reports, apply_home_reports, apply_hub_reports, vset_same, getLsbD_stkFailed, and_self]
  · refine ⟨applyActs s (selfTestRestore s x), rfl, ?_⟩
    rw [selfTestRestore_of_quiet ht (quietHome_of_quiet hq), applyActs_append, applyActs_cons, applyActs_nil, apply_stack_memStacks,
      vset_same]
  · refine ⟨applyActs s (logicTestStart s d), rfl, ?_⟩
    obtain ⟨htiles, hdies⟩ := brakeTile_leaves s ((Act.die d fun x => { x with testing := true }).apply s) tile true d
    rw [logicTestStart_of_enabled hen hidle hpower, applyActs_cons, htiles, vset_same]
    exact ⟨(congrArg Prod.fst hdies).trans (by rw [apply_die_dies, vset_same]; rfl), rfl⟩
  · exact ⟨applyActs s (logicTestEnd s d true), rfl, logicTestEnd_pass_leaves htesting⟩
  · obtain ⟨hover, hcount, hfailed, hcores⟩ := tileFailed_leaves s
      ((Act.die d fun x => { x with testing := false, testTile := x.testTile + 1 }).apply s) d (testedTile_die s d)
    rw [apply_die_dies, vset_same] at hover hcount
    refine ⟨applyActs s (logicTestEnd s d false), rfl, ?_⟩
    rw [logicTestEnd_of_failure htesting, applyActs_cons]
    exact ⟨hover, hcount, hfailed, hcores⟩

end Sys2Proof.Machine
end

section
/-! SUPPORT. Bytes written one after another read back (R1): memory in its canonical form, and little-endian numbers. -/

namespace Sys2Proof.Machine

/-- Bytes put into memory keep it in its canonical form. -/
theorem putBytes_wf (data : List (Nat × Byte)) {m : List Host.Cell} (h : memWf m = true) : memWf (putBytes m data) = true := by
  induction data generalizing m with
  | nil => exact h
  | cons x data ih => exact ih (memPut_wf m x.1 x.2 h)

/-- Bytes put at consecutive addresses read back. -/
theorem memGet_putBytes {m : List Host.Cell} (h : memWf m = true) (a : Nat) (f : Nat → Byte) (n : Nat) :
    ∀ i, i < n → memGet (putBytes m ((List.range n).map fun i => (a + i, f i))) (a + i) = f i := by
  induction n with
  | zero => exact fun i hi => absurd hi (Nat.not_lt_zero i)
  | succ n ih =>
    intro i hi
    have hput : putBytes m ((List.range (n + 1)).map fun i => (a + i, f i)) =
        memPut (putBytes m ((List.range n).map fun i => (a + i, f i))) (a + n) (f n) := by
      simp [putBytes, List.range_succ]
    rw [hput]
    by_cases hn : i = n
    · rw [hn, memGet_memPut_same _ _ _ (putBytes_wf _ h)]
    · rw [memGet_memPut_other _ _ _ _ (by omega), ih i (by omega)]

theorem length_leBytes (n x : Nat) : (leBytes n x).length = n := by
  induction n generalizing x with
  | zero => rfl
  | succ n ih => rw [leBytes, List.length_cons, ih]

/-- Little-endian bytes read back as the number. -/
theorem leNat_leBytes (n x : Nat) : leNat (leBytes n x) = x % 256 ^ n := by
  induction n generalizing x with
  | zero => rw [leBytes, leNat, pow_zero, Nat.mod_one]
  | succ n ih => rw [leBytes, leNat, ih, BitVec.toNat_ofNat, show 256 ^ (n + 1) = 256 * 256 ^ n from pow_succ' .., Nat.mod_mul]

/-- Writing bytes puts them into memory, and changes nothing else of it. -/
theorem mem_writeActs (a : Nat) (bytes : List Byte) (t : State) : (applyActs t (writeActs a bytes)).mem =
    putBytes t.mem ((List.range bytes.length).map fun i => (a + i, bytes.getD i 0)) := by
  unfold writeActs
  extract_lets n data whole heal off b mon
  have hrest : (heal ++ mon).all Act.quiet = true := by
    have hmon : mon.all Act.quiet = true := by
      unfold mon
      split
      · simp [monitorActs, parkActs, Act.cont, Act.quiet]
      · rfl
    simp [heal, hmon, Act.quiet]
  have hdata : data = ((List.range n).map fun i => (a + i, bytes.getD i 0)).map fun x => Act.byte x.1 x.2 := by
    rw [List.map_map]
    rfl
  rw [List.append_assoc, applyActs_append, applyActs_quiet _ _ hrest, hdata, mem_applyActs_bytes]

/-- A number written in `n` bytes reads back. -/
theorem memNat_writeActs {t : State} (h : t.Inv) (a n x : Nat) (hx : x < 256 ^ n) :
    memNat (applyActs t (writeActs a (leBytes n x))).mem a n = x := by
  obtain ⟨hwf, -, -⟩ := h
  have hbytes : memBytes (applyActs t (writeActs a (leBytes n x))).mem a n = leBytes n x := by
    apply List.ext_getElem
    · simp [memBytes, length_leBytes]
    · intro i hi hi'
      rw [length_leBytes] at hi'
      simp only [memBytes, mem_writeActs, length_leBytes, List.getElem_map, List.getElem_range]
      rw [memGet_putBytes hwf a _ n i hi', List.getD_eq_getElem?_getD, List.getElem?_eq_getElem (by rwa [length_leBytes]), Option.getD_some]
  rw [memNat, hbytes, leNat_leBytes, Nat.mod_eq_of_lt hx]

end Sys2Proof.Machine
end

section
/-! SUPPORT. Arrivals at a reduction's root (R372, R375, R378, R379): a request that is accepted, an arrival that opens an epoch, and
an epoch that closes at its deadline. -/

namespace Sys2Proof.Machine

/-! ### Requests in order (R372) -/

/-- What leaves the hub's queues leaves its early requests. -/
theorem keeps_early_of_waiting {acts : List Act} (h : Keeps (State.waiting 0) acts) : Keeps (fun t => t.hub.early) acts :=
  fun a ha t => congrArg (fun z => z.2.1) (h a ha t)

theorem keeps_awaits_of_waiting {acts : List Act} (h : Keeps (State.waiting 0) acts) : Keeps (fun t => t.hub.awaits) acts :=
  fun a ha t => congrArg (fun z => z.2.2.1) (h a ha t)

theorem keeps_stalled_of_waiting {acts : List Act} (h : Keeps (State.waiting 0) acts) : Keeps (fun t => t.hub.stalled) acts :=
  fun a ha t => congrArg (fun z => z.2.2.2) (h a ha t)

/-- Where no request of a source came early, none follows. -/
theorem serveEarly_of_none {src : Half} {t : State} (h : ∀ m ∈ t.hub.early, m.src ≠ src) (fuel : Nat) : serveEarly fuel src t = [] := by
  cases fuel with
  | zero => rfl
  | succ fuel =>
    have hnone : t.hub.early.find? (fun q => q.src == src && q.seq == t.hub.expected src) = none :=
      List.find?_eq_none.mpr fun m hm => by simp [h m hm]
    simp only [serveEarly, hnone]

/-- A request that is its source's next is accepted and served, alone where none of the source came early. -/
theorem acceptPacket_of_next {s : State} {p : Packet} (hseq : p.seq = s.hub.expected p.src) (hearly : ∀ m ∈ s.hub.early, m.src ≠ p.src)
    (hkeep : Keeps (fun t => t.hub.early) (servePacket s p)) : acceptPacket s p = acceptAct s p :: servePacket s p := by
  have hnone : ∀ m ∈ (applyActs s (acceptAct s p :: servePacket s p)).hub.early, m.src ≠ p.src := by
    rw [applyActs_cons, applyActs_keeps hkeep]
    exact hearly
  simp only [acceptPacket, hseq, if_true, accepted]
  rw [serveEarly_of_none hnone, List.append_nil]

/-! ### An arrival that opens an epoch (R379) -/

/-- An epoch of its first arrival. -/
def Arrival.opens (a : Arrival) (ctx : BitVec 46) (at_ : Nat) : Epoch :=
  { ctx, epoch := a.epoch, n := a.n, since := at_, arrivals := [a], held := [] }

/-- A first arrival completes no epoch of two or more contributors, and none whose count is not known. -/
theorem opens_incomplete {a : Arrival} (h : a.n = 0 ∨ 2 ≤ a.n) (ctx : BitVec 46) (at_ : Nat) : (a.opens ctx at_).complete = false := by
  rcases h with hn | hn
  · simp [Arrival.opens, Epoch.complete, hn]
  · have hall : ((List.range a.n).all fun i => [a].any fun b => b.index.val == i) = false := by
      rw [List.all_eq_false]
      by_cases hzero : a.index.val = 0
      · exact ⟨1, List.mem_range.mpr (by omega), by simp [hzero]⟩
      · exact ⟨0, List.mem_range.mpr (by omega), by simp [hzero]⟩
    simp only [Arrival.opens, Epoch.complete, hall, Bool.and_false]

/-- A context that becomes known changes the hub's list of contexts alone, and is on it. -/
theorem apply_knowContext (node : Half) (ctx : BitVec 46) (t : State) : ∃ cs, cs.contains (node, ctx) = true ∧
    (knowContext node ctx).apply t = { t with hub := { t.hub with contexts := cs } } := by
  by_cases h : t.hub.contexts.contains (node, ctx) = true
  · refine ⟨t.hub.contexts, h, ?_⟩
    simp only [knowContext, Act.apply, h, if_true]
  · refine ⟨t.hub.contexts ++ [(node, ctx)], by simp, ?_⟩
    simp only [knowContext, Act.apply, h]
    rfl

/-- The epochs of the root and the packets that have left the hub. -/
def State.rootLog (s : State) : List Epoch × List Packet := (s.hub.epochs, s.hub.out)

/-- DRAM accesses change homes, row logs and reports alone. -/
theorem accessRows_keeps_rootLog (s : State) (xs : List (Fin 512 × Fin 32 × Nat × Nat)) : Keeps State.rootLog (accessRows s xs) := by
  have hrows (s : State) : Keeps State.rootLog (touchRows s xs) := by
    induction xs generalizing s with
    | nil => exact keeps_nil
    | cons x xs ih =>
      obtain ⟨notes, hnotes, heq⟩ := rowAccess_eq s x.1 x.2.1 x.2.2.1 x.2.2.2
      rw [touchRows, heq, keeps_append, keeps_append, keeps_cons]
      exact ⟨⟨keeps_notes hnotes (fun _ _ => rfl) fun _ _ => rfl, fun _ => rfl, keeps_nil⟩, ih _⟩
  exact (keeps_append _ _).mpr ⟨(keeps_map _ _).mpr fun _ _ _ => rfl, hrows s⟩

/-- What the first arrival of an epoch does at its root. -/
def openingActs (s : State) (ctx : BitVec 46) (at_ : Nat) (a : Arrival) : List Act :=
  touchBytes s ctx.toNat 4 ++ [.hub fun h => { h with epochs := h.epochs ++ [a.opens ctx at_] }]

/-- It opens its epoch, and no packet leaves. -/
theorem openingActs_rootLog (s t : State) (ctx : BitVec 46) (at_ : Nat) (a : Arrival) :
    (applyActs t (openingActs s ctx at_ a)).rootLog = (t.hub.epochs ++ [a.opens ctx at_], t.hub.out) := by
  obtain ⟨hepochs, hout⟩ := Prod.mk.inj (applyActs_keeps (accessRows_keeps_rootLog s (rowsOf ((sectorsOf ctx.toNat 4).map (32 * ·)))) t)
  rw [openingActs, touchBytes, applyActs_append, applyActs_cons, applyActs_nil, State.rootLog, apply_hub_hub]
  exact Prod.ext (congrArg (· ++ [a.opens ctx at_]) hepochs) hout

section
variable {s : State} {ctx : BitVec 46} {a : Arrival} (hnone : epochAt s ctx = none)
include hnone

theorem enter_of_first (at_ : Nat) (hnext : a.epoch = BitVec.ofNat 16 (memNat s.mem ctx.toNat 4 + 1)) :
    enter s ctx at_ a = openingActs s ctx at_ a := by
  have hnext' : a.epoch = BitVec.ofNat 16 (memNat s.mem ctx.toNat 4) + 1 := hnext.trans (BitVec.ofNat_add ..)
  simp only [enter, hnone, if_pos hnext']
  rfl

/-- The epoch that a first arrival opens is not complete yet. -/
theorem settle_of_first (at_ : Nat) (hn : a.n = 0 ∨ 2 ≤ a.n) : settle ctx 2 false (applyActs s (openingActs s ctx at_ a)) = [] := by
  have hnone' : s.hub.epochs.find? (fun e => e.ctx == ctx) = none := hnone
  have hopen : epochAt (applyActs s (openingActs s ctx at_ a)) ctx = some (a.opens ctx at_) := by
    rw [epochAt, (Prod.mk.inj (openingActs_rootLog s s ctx at_ a)).1, List.find?_append, hnone']
    simp [Arrival.opens]
  simp only [settle, hopen, opens_incomplete hn, Bool.not_false, Bool.and_self, if_true]

/-- The first arrival of the next epoch at a context makes it known and opens the epoch. -/
theorem arrive_of_first (hsure : ∀ x ∈ s.hub.unsure, x.1 ≠ ctx)
    (hnext : a.epoch = BitVec.ofNat 16 (memNat s.mem ctx.toNat 4 + 1)) (hn : a.n = 0 ∨ 2 ≤ a.n) :
    let s1 := (knowContext s.hub.node ctx).apply s
    arrive s ctx a = knowContext s.hub.node ctx :: openingActs s1 ctx (hubNow s1) a := by
  obtain ⟨cs, -, hknown⟩ := apply_knowContext s.hub.node ctx s
  have hnone1 : epochAt ((knowContext s.hub.node ctx).apply s) ctx = none := by
    rw [hknown]
    exact hnone
  have hnext1 : a.epoch = BitVec.ofNat 16 (memNat ((knowContext s.hub.node ctx).apply s).mem ctx.toNat 4 + 1) := hnext
  have hunsure : enterUnsure s ctx = [] := by
    have hwas : s.hub.unsure.filter (fun x => x.1 == ctx) = [] := List.filter_eq_nil_iff.mpr fun x hx => by simpa using hsure x hx
    simp [enterUnsure, hwas]
  have hlate : reductionDeadline ((knowContext s.hub.node ctx).apply s) ctx = [] := by simp only [reductionDeadline, hnone1]
  simp only [arrive, hunsure, applyActs_cons, applyActs_nil, hlate, enter_of_first hnone1 _ hnext1, settle_of_first hnone1 _ hn,
    List.append_nil, List.singleton_append]

end

/-- After the first arrival of the next epoch that epoch is open, and no packet has left. -/
theorem arrive_first_leaves {s : State} {ctx : BitVec 46} {a : Arrival} (hnone : epochAt s ctx = none)
    (hsure : ∀ x ∈ s.hub.unsure, x.1 ≠ ctx) (hnext : a.epoch = BitVec.ofNat 16 (memNat s.mem ctx.toNat 4 + 1))
    (hn : a.n = 0 ∨ 2 ≤ a.n) (t : State) :
    ∃ at_, (applyActs t (arrive s ctx a)).rootLog = (t.hub.epochs ++ [a.opens ctx at_], t.hub.out) := by
  obtain ⟨cs, -, hknown⟩ := apply_knowContext s.hub.node ctx t
  refine ⟨hubNow ((knowContext s.hub.node ctx).apply s), ?_⟩
  rw [arrive_of_first hnone hsure hnext hn, applyActs_cons, openingActs_rootLog, hknown]

/-! ### RED and ABST (R379) -/

/-- A RED or an ABST that the root admits arrives. -/
theorem packetArrival_of_granted {s : State} {p : Packet} (hserved : fabricServed s = true) (halign : p.addr.toNat % 64 = 0)
    (hwords : p.data.length % 4 = 0) (hsize : p.data.length ≤ 4096) (hop : p.kind = 6 → bits p.arg 17 2 ≠ 3#2)
    (hindex : (arrivalOf p).n = 0 ∨ (bits p.arg 19 5).toNat < (arrivalOf p).n) (hmain : p.addr.toNat < Config.mainBytes)
    (hgrant : granted s p.master .at p.addr.toNat 64 = true) : packetArrival s p = arrive s p.addr (arrivalOf p) := by
  have hform : ¬ (p.addr.toNat % 64 ≠ 0 ∨ p.data.length % 4 ≠ 0 ∨ 4096 < p.data.length ∨ (p.kind = 6 ∧ bits p.arg 17 2 = 3#2) ∨
      ((arrivalOf p).n ≠ 0 ∧ (arrivalOf p).n ≤ (bits p.arg 19 5).toNat)) := by
    rintro (h | h | h | ⟨h, h'⟩ | ⟨h, h'⟩)
    · exact h halign
    · exact h hwords
    · omega
    · exact hop h h'
    · omega
  have hplace : placeOf p.addr.toNat = .main := if_pos hmain
  simp only [arrivalOf] at hform
  simp only [packetArrival, hserved, Bool.not_true, Bool.false_eq_true, if_false, hform, hgrant, hplace]

/-- The contributor's index, the number of the epoch and the operation of a packet, as numbers. -/
theorem arg_fields (x : BitVec 24) : (bits x 19 5).toNat = x.toNat / 2 ^ 19 ∧ bits x 0 16 = x.setWidth 16 ∧
    ((bits x 17 2 : BitVec 2) = 3#2 ↔ x.toNat / 2 ^ 17 % 4 = 3) := by
  have hx := x.isLt
  refine ⟨?_, bits_zero x 16, ?_⟩
  · rw [toNat_bits, Nat.mod_eq_of_lt (by omega)]
  · rw [← BitVec.toNat_inj, toNat_bits]
    rfl

/-! ### The deadline of an epoch (R379, R380) -/

/-- A result that is sent changes neither the epochs nor memory. -/
theorem sendResults_leave (s : State) (m : W32) (tmo sat : Bool) (code : BitVec 4) (data : List W32) (as : List Arrival) :
    Keeps (fun t => (t.hub.epochs, t.mem)) (sendResults s m tmo sat code data as) := by
  induction as generalizing s with
  | nil => exact keeps_nil
  | cons a as ih =>
    refine (keeps_append _ _).mpr ⟨?_, ih _⟩
    unfold sendResult
    split
    · exact keeps_nil
    · exact (keeps_cons _ _).mpr ⟨fun _ => rfl, (keeps_cons _ _).mpr ⟨fun _ => rfl, keeps_nil⟩⟩

/-- An epoch that has closed is open no more, and its number is in memory. -/
theorem closeEpoch_leaves (s : State) (e : Epoch) (tmo : Bool) : let t := applyActs s (closeEpoch s e tmo)
    epochAt t e.ctx = none ∧ (s.Inv → memNat t.mem e.ctx.toNat 4 = e.epoch.toNat) := by
  obtain ⟨m, sat, code, data, heq⟩ := closeEpoch_eq s e tmo
  have hkept := applyActs_keeps (sendResults_leave (applyActs s (closingActs s e)) m tmo sat code data (e.arrivals.filter fun a => !a.bad))
    (applyActs s (closingActs s e))
  obtain ⟨hepochs, hmem⟩ := Prod.mk.inj hkept
  have htouch : Keeps State.mem (touchBytes s e.ctx.toNat 4) :=
    accessRows_keeps (fun _ _ _ => rfl) (fun _ _ => rfl) (fun _ _ => rfl) s _
  dsimp only
  rw [heq, applyActs_append, epochAt, hepochs, hmem, closingActs, applyActs_append, applyActs_append, applyActs_cons, applyActs_nil,
    apply_hub_hub, apply_hub_mem, applyActs_keeps htouch]
  refine ⟨List.find?_eq_none.mpr fun o ho => by simpa using (List.mem_filter.mp ho).2, fun hinv => ?_⟩
  have hlt := e.epoch.isLt
  exact memNat_writeActs hinv _ 4 _ (by omega)

/-- At the deadline of an epoch for whose next no arrival is held, the epoch closes. -/
theorem reductionDeadline_of_late {s : State} {ctx : BitVec 46} {e : Epoch} (he : epochAt s ctx = some e) (hheld : e.held = [])
    (hlimit : s.hub.reddl ≠ 0) (hlate : e.since + s.hub.reddl.toNat ≤ hubNow s) : reductionDeadline s ctx = closeEpoch s e true := by
  have hctx : e.ctx = ctx := by simpa using List.find?_some he
  have hgo : ¬ (s.hub.reddl = 0 ∨ hubNow s < e.since + s.hub.reddl.toNat) := by
    rintro (h | h)
    · exact hlimit h
    · omega
  have hover : epochAt (applyActs s (closeEpoch s e true)) ctx = none := hctx ▸ (closeEpoch_leaves s e true).1
  simp only [reductionDeadline, he, if_neg hgo, settle, hheld, List.map_nil, enterAll, List.append_nil, Bool.not_true, Bool.false_and,
    Bool.false_eq_true, if_false, hover]

end Sys2Proof.Machine
end

section
/-! SUPPORT. Writes of ABSTAIN (R378): the word that such a write gives a context, and the arrival that it makes. -/

namespace Sys2Proof.Machine

/-- The bytes of a word, put together, are the word. -/
theorem append_leBytes (v : W32) : (BitVec.ofNat 8 (v.toNat / 256 / 256 / 256) ++ BitVec.ofNat 8 (v.toNat / 256 / 256) ++
    BitVec.ofNat 8 (v.toNat / 256) ++ BitVec.ofNat 8 v.toNat : BitVec (8 + 8 + 8 + 8)) = v := by
  apply BitVec.eq_of_toNat_eq
  have hv := v.isLt
  have hlow (x : Nat) : x % 2 ^ 8 < 2 ^ 8 := Nat.mod_lt x (by decide)
  simp only [BitVec.toNat_append, BitVec.toNat_ofNat]
  rw [← Nat.shiftLeft_add_eq_or_of_lt (hlow _), ← Nat.shiftLeft_add_eq_or_of_lt (hlow _), ← Nat.shiftLeft_add_eq_or_of_lt (hlow _)]
  simp only [Nat.shiftLeft_eq]
  omega

/-- Four bytes at a place where a context may have its ABSTAIN word are one word there. -/
theorem abstainLike_of_bytes {a : Nat} (b0 b1 b2 b3 : Byte) (ha : a % 64 = 4)
    (hform : abstainForm (b3 ++ b2 ++ b1 ++ b0 : BitVec (8 + 8 + 8 + 8)) = true) :
    abstainLike [(a, b0), (a + 1, b1), (a + 2, b2), (a + 3, b3)] =
      [(BitVec.ofNat 46 (a - 4), (b3 ++ b2 ++ b1 ++ b0 : BitVec (8 + 8 + 8 + 8)))] := by
  have h1 : (a + 1) % 64 ≠ 4 := by omega
  have h2 : (a + 2) % 64 ≠ 4 := by omega
  have h3 : (a + 3) % 64 ≠ 4 := by omega
  simp only [abstainLike, List.filterMap_cons, ha, h1, h2, h3, ne_eq, not_true_eq_false, not_false_eq_true, if_false, if_true,
    List.filterMap_nil]
  simp [hform]

section
variable {ctx : BitVec 46} (halign : ctx.toNat % 64 = 0)
include halign

/-- The address of a context's ABSTAIN word. -/
theorem toNat_abstainAddr : (ctx + 4).toNat = ctx.toNat + 4 := by
  have hlt := ctx.isLt
  rw [BitVec.toNat_add]
  show (ctx.toNat + 4) % 2 ^ 46 = _
  omega

/-- Four bytes written to the ABSTAIN word, of the form that abstains, are one word of that form. -/
theorem abstainLike_of_word {v : W32} (hform : abstainForm v = true) :
    abstainLike (((List.range 4).map ((ctx.toNat + 4) + ·)).zip (leBytes 4 v.toNat)) = [(ctx, v)] := by
  have hctx : BitVec.ofNat 46 (ctx.toNat + 4 - 4) = ctx := by rw [Nat.add_sub_cancel, BitVec.ofNat_toNat, BitVec.setWidth_eq]
  have hlike := abstainLike_of_bytes (a := ctx.toNat + 4) (BitVec.ofNat 8 v.toNat) (BitVec.ofNat 8 (v.toNat / 256))
    (BitVec.ofNat 8 (v.toNat / 256 / 256)) (BitVec.ofNat 8 (v.toNat / 256 / 256 / 256)) (by omega)
    ((append_leBytes v).symm ▸ hform)
  rw [hctx, append_leBytes v] at hlike
  exact hlike

end

/-- Of an engine's write that only abstains, from a context that the hub knows of, nothing else is left. -/
theorem engineWrite_of_abstention {s : State} {data : List (Nat × Byte)} {ctx : BitVec 46} {v : W32} {node master : Half}
    (hlike : abstainLike data = [(ctx, v)]) (hknown : s.knows ctx = true)
    (hin : ∀ d ∈ data, ctx.toNat + 4 ≤ d.1 ∧ d.1 < ctx.toNat + 8) (hgrant : granted s master .at ctx.toNat 64 = true) :
    engineWrite s data [] (node, master) = arrive s ctx (abstention node ctx v) := by
  have hout : abstainWords s data = [(ctx, v)] := by simp [abstainWords, hlike, hknown]
  have hnoted : abstainNoted s node master [(ctx, v)] = [] := by simp [abstainNoted, hknown]
  have hnone : (data.filter fun d => !([(ctx, v)].any fun x => decide (x.1.toNat + 4 ≤ d.1) && decide (d.1 < x.1.toNat + 8))) = [] :=
    List.filter_eq_nil_iff.mpr fun d hd => by simp [hin d hd]
  simp only [engineWrite, hout, hlike, hnoted, hnone, abstainAll, hgrant, if_true, List.isEmpty_cons, Bool.false_eq_true, if_false]
  simp [blocksOf]

/-- A write of ABSTAIN from another node that the root admits arrives, and is acknowledged. -/
theorem packetWr_of_abstention {s : State} {src : Half} {ctx : BitVec 46} {v : W32} (seq : W32) (hserved : fabricServed s = true)
    (halign : ctx.toNat % 64 = 0) (hform : abstainForm v = true) (hknown : s.knows ctx = true)
    (hgrant : granted s src .at ctx.toNat 64 = true) :
    let p : Packet := { addr := ctx + 4, src, master := src, kind := 2, data := leBytes 4 v.toNat, seq }
    packetWr s p = arrive s ctx (abstention src ctx v) ++
      respond (applyActs s (arrive s ctx (abstention src ctx v))) { ts := 0, addr := ctx + 4, dst := src, kind := 0x11 } := by
  intro p
  have hword : BitVec.ofNat 32 (leNat (leBytes 4 v.toNat)) = v := by
    rw [leNat_leBytes, Nat.mod_eq_of_lt (by have := v.isLt; omega), BitVec.ofNat_toNat, BitVec.setWidth_eq]
  have hctx : (BitVec.ofNat 46 (ctx.toNat + 4 - 4)) = ctx := by rw [Nat.add_sub_cancel, BitVec.ofNat_toNat, BitVec.setWidth_eq]
  have habstains : packetAbstains s p = some (ctx, v) := by
    have hlen : (leBytes 4 v.toNat).length = 4 := length_leBytes 4 _
    have hmod : (ctx.toNat + 4) % 64 = 4 := by omega
    simp only [packetAbstains, abstainsFrom, p, hword, hlen, toNat_abstainAddr halign, hctx, hmod, hform, if_true, true_and]
    exact congrArg (Option.map _) (if_pos hknown)
  have hsize : (p.data.isEmpty || decide (4096 < p.data.length)) = false := by
    simp only [p, length_leBytes]
    rfl
  simp only [packetWr, hserved, hsize, habstains, packetAbstain, p, hgrant, Bool.not_true, Bool.false_eq_true, if_false]

/-- What a context that becomes known leaves of the root's checks: it is known then. -/
theorem knowContext_leaves (s : State) (ctx : BitVec 46) : let s1 := (knowContext s.hub.node ctx).apply s
    s1.knows ctx = true ∧ fabricServed s1 = fabricServed s ∧ (∀ m p a n, granted s1 m p a n = granted s m p a n) ∧
      (∀ a n w, reach s1 none a n w = reach s none a n w) ∧ epochAt s1 ctx = epochAt s ctx ∧ s1.rootLog = s.rootLog ∧
      s1.hub.unsure = s.hub.unsure ∧ s1.hub.early = s.hub.early ∧ s1.hub.expect = s.hub.expect ∧ s1.mem = s.mem ∧
      s1.hub.node = s.hub.node := by
  obtain ⟨cs, hcs, hknown⟩ := apply_knowContext s.hub.node ctx s
  dsimp only
  rw [hknown]
  exact ⟨hcs, rfl, fun _ _ _ _ => rfl, fun _ _ _ => rfl, rfl, rfl, rfl, rfl, rfl, rfl, rfl⟩

section
variable {s : State} {src : Half} {ctx : BitVec 46} {v : W32} (hserved : fabricServed s = true) (halign : ctx.toNat % 64 = 0)
  (hform : abstainForm v = true)
include halign hform

/-- A write of ABSTAIN makes its context known. -/
theorem abstainWrite_knows : (if bits v 21 11 = 0x400#11 ∧ (ctx + 4).toNat % 64 = 4 then [knowContext s.hub.node (ctx + 4 - 4)] else []) =
    [knowContext s.hub.node ctx] := by
  have hword : bits v 21 11 = 0x400#11 := by simpa [abstainForm] using hform
  have hplace : (ctx + 4).toNat % 64 = 4 := by rw [toNat_abstainAddr halign]; omega
  rw [if_pos ⟨hword, hplace⟩, BitVec.add_sub_cancel]

include hserved

/-- This device writes without a packet. -/
theorem abstainWrite_own (hsrc : src = s.hub.node)
    (hreach : reach ((knowContext s.hub.node ctx).apply s) none (ctx + 4).toNat 4 true = .memory) :
    abstainWrite s src (ctx + 4) v = knowContext s.hub.node ctx ::
      writeTouch ((knowContext s.hub.node ctx).apply s) (ctx + 4).toNat (leBytes 4 v.toNat) [] 0 := by
  unfold abstainWrite
  rw [abstainWrite_knows halign hform, hserved]
  simp only [applyActs_cons, applyActs_nil, hsrc, hreach, if_true, Bool.not_true, Bool.false_eq_true, if_false, List.singleton_append]

/-- Another node's write is a packet, its next request. -/
theorem abstainWrite_other (hsrc : src ≠ s.hub.node) : abstainWrite s src (ctx + 4) v = knowContext s.hub.node ctx ::
    acceptPacket ((knowContext s.hub.node ctx).apply s)
      { addr := ctx + 4, src, master := src, kind := 2, data := leBytes 4 v.toNat, seq := s.hub.expected src } := by
  unfold abstainWrite
  rw [abstainWrite_knows halign hform, hserved]
  simp only [applyActs_cons, applyActs_nil, hsrc, Bool.not_true, Bool.false_eq_true, if_false, List.singleton_append]

end

end Sys2Proof.Machine
end

section
/-! SUPPORT. A RESULT at its contributor (R288, R375, R376, R380): it ends the contributor's tag, waits at the pseudo-channels, or is
refused. -/

namespace Sys2Proof.Machine

/-- A response joins no queue. -/
theorem respond_keeps_waiting (h : Fin 512) (s : State) (p : Packet) : Keeps (State.waiting h) (respond s p) :=
  (keeps_cons _ _).mpr ⟨fun _ => rfl, keeps_nil⟩

section
variable {s : State} {p : Packet} {j : Job} {q : Piece} (hq : j.pieces[0]? = some q)
  (hlands : p.data = [] ∨ reductionThere s j q = true)
include hq hlands

/-- A RESULT whose destination has not lost its power writes its data and ends the contributor's piece with its code. -/
theorem resultEnds_of_lands (asked : Bool) : ∃ (writes : List Act) (opened : List (Fin 4096 × Bool)) (wrote : Bool)
    (f : Job → Job) (r : Piece), resultEnds s p j asked =
      writes ++ endBanks opened j.ts wrote ++ [.job j.id f] ++ pieceEnded j 0 r (bits (p.list.headD (0, 0)).2 0 4) ++ resultAck s p ∧
      (∀ j, (f j).id = j.id ∧ (f j).pieces = j.pieces) ∧ SparesWork writes ∧ Keeps (State.waiting 0) writes := by
  have hgone : (!p.data.isEmpty && !reductionThere s j q) = false := by
    rcases hlands with h | h <;> simp [h]
  unfold resultEnds
  split
  rename_i lo hi hhead
  extract_lets m tmo sat code word
  have hcode : bits (p.list.headD (0, 0)).2 0 4 = code := by rw [hhead]
  rw [hcode]
  unfold endReduction
  simp only [hq, hgone, Bool.not_false, Bool.and_true, Bool.false_eq_true, if_false]
  refine ⟨_, _, _, fun j => { j with word, sat, tmo }, _, rfl, fun j => ⟨rfl, rfl⟩, ?_, ?_⟩
  · split
    · rw [sparesWork_append]
      refine ⟨engineWrite_spares s _ _ _, ?_⟩
      split
      · exact sparesWork_nil
      · exact accessRows_spares s _
    · exact sparesWork_nil
  · split
    · rw [keeps_append]
      refine ⟨engineWrite_keeps_waiting 0 s _ _ _, ?_⟩
      split
      · exact keeps_nil
      · exact accessRows_keeps_waiting 0 s _
    · exact keeps_nil

/-- It leaves the hub's queues. -/
theorem resultEnds_keeps_waiting (asked : Bool) : Keeps (State.waiting 0) (resultEnds s p j asked) := by
  obtain ⟨writes, opened, wrote, f, r, heq, -, -, hwrites⟩ := resultEnds_of_lands hq hlands asked
  rw [heq]
  simp only [keeps_append, endBanks, keeps_map, keeps_cons, keeps_nil, and_true, pieceEnded]
  exact ⟨⟨⟨⟨hwrites, fun _ _ _ => rfl⟩, fun _ => rfl⟩, fun _ _ _ => rfl, fun _ => rfl⟩, respond_keeps_waiting 0 s _⟩

/-- The contributor's piece is found ended with the code of the RESULT. -/
theorem jobPiece_resultEnds (asked : Bool) {t : State} (ht : t.jobPiece j.id 0 = some q) :
    ∃ q', (applyActs t (resultEnds s p j asked)).jobPiece j.id 0 = some q' ∧ q'.st = .ended (bits (p.list.headD (0, 0)).2 0 4) := by
  obtain ⟨writes, opened, wrote, f, r, heq, hf, hwrites, -⟩ := resultEnds_of_lands hq hlands asked
  refine ⟨{ q with st := .ended (bits (p.list.headD (0, 0)).2 0 4), opened := [], awaiting := [], got := [] }, ?_, rfl⟩
  have hack : SparesWork (resultAck s p) := by simp [resultAck, respond]
  rw [heq, applyActs_append, applyActs_append, applyActs_append, jobPiece_spared hack, jobPiece_pieceEnded, applyActs_cons, applyActs_nil,
    jobPiece_apply_job _ _ _ _ hf, applyActs_append, jobPiece_spared (endBanks_spares _ _ _), jobPiece_spared hwrites, ht, Option.map_some]

end

section
variable {s : State} {p : Packet} (hserved : fabricServed s = true)
include hserved

/-- A RESULT that no entry allows is recorded and refused. -/
theorem packetResult_of_refused (h : ∀ i : Fin 4096, (actNames s.hub.act[i] p.master .wr && actSized s.hub.act[i]) = false) :
    ∃ addr, packetResult s p = accessLog p addr ++ errTo s p 1 := by
  have hnone : ((List.finRange 4096).any fun i => actNames s.hub.act[i] p.master .wr && actSized s.hub.act[i] &&
      (resultBytes s p (resultFor s p)).all fun x => actCovers s.hub.act[i] x 1) = false :=
    List.any_eq_false.mpr fun i _ => by rw [h i, Bool.false_and]; exact Bool.false_ne_true
  unfold packetResult
  extract_lets ack xs allowed
  have hallowed : allowed = false := hnone
  rw [hserved, hallowed]
  exact ⟨_, rfl⟩

variable {a : Await} {id : Nat} {j : Job} (ha : resultFor s p = some a) (hwho : a.who = .reduction id) (hj : s.job id = some j)
  (hallow : ∃ i : Fin 4096, actNames s.hub.act[i] p.master .wr = true ∧ actSized s.hub.act[i] = true ∧
    ∀ x ∈ resultBytes s p (some a), actCovers s.hub.act[i] x 1 = true)
include ha hwho hj hallow

/-- A RESULT that an entry allows ends the contributor's tag, or asks the pseudo-channels first. -/
theorem packetResult_of_allowed : packetResult s p = answeredAct a ::
    if viewFree s (dView j.dst.d) (resultMain s p j) then resultEnds s p j false
    else requestActs (id, 0) (dView j.dst.d) (resultMain s p j) ++ stall p := by
  obtain ⟨i, hnames, hsized, hcovers⟩ := hallow
  have hany : ((List.finRange 4096).any fun i => actNames s.hub.act[i] p.master .wr && actSized s.hub.act[i] &&
      (resultBytes s p (some a)).all fun x => actCovers s.hub.act[i] x 1) = true :=
    List.any_eq_true.mpr ⟨i, List.mem_finRange i, by rw [hnames, hsized]; exact List.all_eq_true.mpr hcovers⟩
  simp only [packetResult, hserved, hany, ha, hwho, hj, Bool.not_true, Bool.false_eq_true, if_false]
  split <;> rfl

end

/-- A RESULT that has waited at the pseudo-channels performs in its turn. -/
theorem pieceEnd_of_result {s : State} {id : Nat} {j : Job} {q : Piece} {p : Packet} {rop : RedOp} (hj : s.job id = some j)
    (hw : j.work = .redf rop) (hq : j.pieces[0]? = some q) (hst : q.st = .started)
    (hp : s.hub.stalled.find? (fun o => o.kind == 8 && o.src == bits j.b.d 48 16 && resultNames s o j) = some p)
    (hserved : requestsServed s (id, 0) (resultMain s p j) = true) (hview : viewHeld s (id, 0) (resultMain s p j) = false) :
    pieceEnd s id 0 = (.hub fun h => { h with stalled := h.stalled.erase p }) :: dropRequests (id, 0) (resultMain s p j) ++
      resultEnds s p j true := by
  have hend : pieceEnd s id 0 = endRedf s j 0 := by
    simp only [pieceEnd, hj, hw, hq, hst, Option.map_some]
  rw [hend]
  simp only [endRedf, hp, job_id hj, hserved, hview, Bool.not_true, Bool.or_self, Bool.false_eq_true, if_false]

end Sys2Proof.Machine
end

section
/-! SUPPORT. Release over the fabric (R377): FENCE to the switches, and the FENCEDONE of the last of them. -/

namespace Sys2Proof.Machine

/-- A FENCE leaves for each switch, and no release is changed by it. -/
theorem fenceActs_leave (s : State) (ws : List Nat) (t : State) : ∃ ms, (applyActs t (fenceActs s ws)).hub.out = t.hub.out ++ ms ∧
    ms.map (fun m => (m.kind, m.dst)) = ws.map (fun x => (9, BitVec.ofNat 16 x)) ∧
    (applyActs t (fenceActs s ws)).releases = t.releases := by
  induction ws generalizing t with
  | nil => exact ⟨[], (List.append_nil _).symm, rfl, rfl⟩
  | cons w ws ih =>
    rw [fenceActs, applyActs_append]
    obtain ⟨ms, hout, hms, hreleases⟩ := ih (applyActs t (respond s { dst := BitVec.ofNat 16 w, kind := 9 }))
    exact ⟨_ :: ms, hout.trans (List.append_assoc _ [_] ms), congrArg (List.cons _) hms, hreleases⟩

/-- A release whose accesses have performed sends its FENCE where paths cross switches. -/
theorem fencePacket_of_performed {s : State} {c : Fin 256} {r : Release}
    (hr : s.releases.find? (fun o => o.src == c && o.fabric == .unsent) = some r) (hdone : s.outstanding r.src r.needs = false)
    (hnode : s.hub.node ≠ 0) (hpaths : s.hub.plan.switches ≠ []) :
    fencePacket s c = .release r.id (fun r => { r with fabric := .waiting s.hub.plan.switches }) :: fenceActs s s.hub.plan.switches := by
  simp only [fencePacket, hr, hdone, hnode, List.isEmpty_iff, hpaths, Bool.false_eq_true, if_false, List.append_nil]

section
variable {s : State} {c : Fin 256} {r : Release} {sw : Nat} (hs : s.releases = [r]) (hsrc : r.src = c)
  (hfabric : r.fabric = .waiting [sw])
include hs hsrc hfabric

/-- The last switch of a release's paths has answered. -/
theorem fenceDone_of_last : fenceDone s c sw = .release r.id (fun r => { r with fabric := .waiting [] }) ::
    releaseSent ((Act.release r.id fun r => { r with fabric := .waiting [] }).apply s) r := by
  have hleft : [sw].filter (· != sw) = [] := by simp
  unfold fenceDone
  rw [hs, List.find?_cons_of_pos (by simp [hsrc, hfabric])]
  simp only [hfabric, hleft, List.isEmpty_nil, if_true, applyActs_cons, applyActs_nil, List.singleton_append]

end

/-- The packet of a release that is over leaves, with what it carries, and the release is gone. -/
theorem releaseSent_packet {t : State} {r : Release} {m : Packet} (hm : r.deliver = .packet m) (hnode : t.hub.node ≠ 0) (u : State) :
    let u' := applyActs u (releaseSent t r)
    u'.releases = u.releases.filter (fun o => o.id != r.id) ∧
      ∃ o, u'.hub.out = u.hub.out ++ [o] ∧ o.kind = m.kind ∧ o.dst = m.dst ∧ o.arg = m.arg := by
  simp only [releaseSent, hm, hnode, if_false, sendActs]
  by_cases hkind : m.kind = 1
  · simp only [hkind, if_true]
    exact ⟨rfl, _, rfl, rfl, rfl, rfl⟩
  · simp only [hkind, if_false]
    exact ⟨rfl, _, rfl, rfl, rfl, rfl⟩

end Sys2Proof.Machine
end

section
/-! SUPPORT. What a reduction's arrivals and RESULTs leave, as whole events (R375 to R380). -/

namespace Sys2Proof.Machine

/-! ### First arrivals -/

section
variable {s : State} {p : Packet} (hserved : fabricServed s = true) (hseq : p.seq = s.hub.expected p.src)
  (hearly : ∀ m ∈ s.hub.early, m.src ≠ p.src)
include hserved hseq hearly

/-- An admitted RED or ABST that comes first in the next epoch opens it. -/
theorem acceptPacket_opens (hkind : p.kind = 6 ∨ p.kind = 7) (hsure : ∀ x ∈ s.hub.unsure, x.1 ≠ p.addr) (halign : p.addr.toNat % 64 = 0)
    (hwords : p.data.length % 4 = 0) (hsize : p.data.length ≤ 4096) (hmain : p.addr.toNat < Config.mainBytes)
    (hgrant : granted s p.master .at p.addr.toNat 64 = true) (hnone : epochAt s p.addr = none)
    (hnext : p.arg.setWidth 16 = BitVec.ofNat 16 (memNat s.mem p.addr.toNat 4 + 1))
    (hn : (arrivalOf p).n = 0 ∨ (2 ≤ (arrivalOf p).n ∧ p.arg.toNat / 2 ^ 19 < (arrivalOf p).n))
    (hop : p.kind = 6 → p.arg.toNat / 2 ^ 17 % 4 ≠ 3) :
    ∃ at_, (applyActs s (acceptPacket s p)).hub.epochs = s.hub.epochs ++ [(arrivalOf p).opens p.addr at_] := by
  obtain ⟨hindex, hnumber, hoperation⟩ := arg_fields p.arg
  have hserve : servePacket s p = packetArrival s p := by rcases hkind with h | h <;> simp [servePacket, h]
  have harrive : servePacket s p = arrive s p.addr (arrivalOf p) :=
    hserve.trans (packetArrival_of_granted hserved halign hwords hsize (fun h => mt hoperation.mp (hop h))
      (hn.imp_right fun h => hindex ▸ h.2) hmain hgrant)
  have hkeep : Keeps (fun t => t.hub.early) (servePacket s p) := harrive ▸ keeps_early_of_waiting (arrive_keeps_waiting 0 s _ _)
  obtain ⟨at_, hlog⟩ := arrive_first_leaves hnone hsure (hnumber.trans hnext) (hn.imp_right And.left) ((acceptAct s p).apply s)
  rw [acceptPacket_of_next hseq hearly hkeep, applyActs_cons, harrive]
  exact ⟨at_, (Prod.mk.inj hlog).1⟩

end

/-- The index of a packet's contributor, in five bits. -/
theorem index_arrivalOf (p : Packet) : (arrivalOf p).index.val = p.arg.toNat / 2 ^ 19 := by
  have hlt := p.arg.isLt
  show (bits p.arg 19 5).toNat % 32 = _
  rw [(arg_fields p.arg).1]
  omega

theorem index_abstention (node : Half) (ctx : BitVec 46) (v : W32) : (abstention node ctx v).index.val = v.toNat % 32 := by
  show (bits v 0 5).toNat % 32 = _
  rw [toNat_bits, pow_zero, Nat.div_one]
  exact Nat.mod_mod ..

section
variable {s : State} {ctx : BitVec 46} {v : W32} (hserved : fabricServed s = true) (hform : v.toNat / 2 ^ 21 = 0x400)
  (halign : ctx.toNat % 64 = 0) (hnone : epochAt s ctx = none) (hsure : ∀ x ∈ s.hub.unsure, x.1 ≠ ctx)
  (hnext : (bits v 5 16 : Half) = BitVec.ofNat 16 (memNat s.mem ctx.toNat 4 + 1))

include hform in
theorem abstainForm_of_toNat : abstainForm v = true := by
  have hbits : bits v 21 11 = 0x400#11 := BitVec.eq_of_toNat_eq (by rw [toNat_bits, hform]; rfl)
  simp [abstainForm, hbits]

include hserved hform halign hnone hsure hnext

/-- This device's write of ABSTAIN opens the next epoch. -/
theorem abstainWrite_own_opens (hreach : reach s none (ctx.toNat + 4) 4 true = .memory)
    (hgrant : granted s s.hub.node .at ctx.toNat 64 = true) :
    ∃ at_, (applyActs s (abstainWrite s s.hub.node (ctx + 4) v)).hub.epochs =
      s.hub.epochs ++ [(abstention s.hub.node ctx v).opens ctx at_] := by
  have hword := abstainForm_of_toNat hform
  obtain ⟨hknown, -, hgranted, hreached, hopen, hlog, hunsure, -, -, hmem, hnode⟩ := knowContext_leaves s ctx
  have hreach' : reach ((knowContext s.hub.node ctx).apply s) none (ctx + 4).toNat 4 true = .memory := by
    rw [toNat_abstainAddr halign, hreached, hreach]
  rw [abstainWrite_own hserved halign hword rfl hreach', applyActs_cons]
  generalize (knowContext s.hub.node ctx).apply s = s1 at *
  have hwrite : engineWrite s1 (((List.range (leBytes 4 v.toNat).length).map ((ctx.toNat + 4) + ·)).zip (leBytes 4 v.toNat)) []
      (s1.hub.node, s1.hub.node) = arrive s1 ctx (abstention s1.hub.node ctx v) := by
    rw [length_leBytes]
    refine engineWrite_of_abstention (abstainLike_of_word halign hword) hknown (fun d hd => ?_) (by rw [hgranted, hnode, hgrant])
    obtain ⟨i, hi, hd1⟩ := List.mem_map.mp (List.of_mem_zip hd).1
    have hlt := List.mem_range.mp hi
    omega
  obtain ⟨at_, hopens⟩ := arrive_first_leaves (a := abstention s1.hub.node ctx v) (hopen.trans hnone) (hunsure ▸ hsure) (hmem ▸ hnext)
    (Or.inl rfl) s1
  have hbanks (xs : List Nat) : Keeps State.rootLog (passBanks xs true 0 0) := (keeps_map _ _).mpr fun _ _ _ => rfl
  refine ⟨at_, ?_⟩
  rw [toNat_abstainAddr halign, writeTouch, hwrite, applyActs_append, applyActs_append]
  refine (congrArg Prod.fst ((applyActs_keeps (accessRows_keeps_rootLog s1 _) _).trans ((applyActs_keeps (hbanks _) _).trans hopens))).trans ?_
  rw [hnode, (Prod.mk.inj hlog).1]

/-- Another node's write of ABSTAIN opens the next epoch, and is acknowledged. -/
theorem abstainWrite_other_opens {src : Half} (hsrc : src ≠ s.hub.node) (hearly : ∀ m ∈ s.hub.early, m.src ≠ src)
    (hgrant : granted s src .at ctx.toNat 64 = true) : let t := applyActs s (abstainWrite s src (ctx + 4) v)
    (∃ at_, t.hub.epochs = s.hub.epochs ++ [(abstention src ctx v).opens ctx at_]) ∧
      ∃ m, t.hub.out = s.hub.out ++ [m] ∧ m.kind = 0x11 ∧ m.dst = src := by
  have hword := abstainForm_of_toNat hform
  obtain ⟨hknown, hserved', hgranted, -, hopen, hlog, hunsure, hearly', hexpect, hmem, hnode⟩ := knowContext_leaves s ctx
  dsimp only
  rw [abstainWrite_other hserved halign hword hsrc, applyActs_cons]
  generalize (knowContext s.hub.node ctx).apply s = s1 at *
  have hserve : servePacket s1 { addr := ctx + 4, src, master := src, kind := 2, data := leBytes 4 v.toNat, seq := s.hub.expected src } =
      arrive s1 ctx (abstention src ctx v) ++ respond (applyActs s1 (arrive s1 ctx (abstention src ctx v)))
        { ts := 0, addr := ctx + 4, dst := src, kind := 0x11 } :=
    packetWr_of_abstention (s.hub.expected src) (hserved'.trans hserved) halign hword hknown (by rw [hgranted, hgrant])
  have hkeep := keeps_early_of_waiting ((keeps_append _ _).mpr ⟨arrive_keeps_waiting 0 s1 ctx (abstention src ctx v),
    respond_keeps_waiting 0 (applyActs s1 (arrive s1 ctx (abstention src ctx v))) { ts := 0, addr := ctx + 4, dst := src, kind := 0x11 }⟩)
  rw [acceptPacket_of_next (by rw [HubSt.expected, HubSt.expected, hexpect]) (hearly' ▸ hearly) (hserve ▸ hkeep), hserve, applyActs_cons,
    applyActs_append]
  obtain ⟨at_, hopens⟩ := arrive_first_leaves (a := abstention src ctx v) (hopen.trans hnone) (hunsure ▸ hsure) (hmem ▸ hnext) (Or.inl rfl)
    ((acceptAct s1 { addr := ctx + 4, src, master := src, kind := 2, data := leBytes 4 v.toNat, seq := s.hub.expected src }).apply s1)
  obtain ⟨hepochs, hout⟩ := Prod.mk.inj hopens
  obtain ⟨hepochs1, hout1⟩ := Prod.mk.inj hlog
  refine ⟨⟨at_, hepochs.trans (congrArg (· ++ _) hepochs1)⟩, _, congrArg (· ++ _) (hout.trans hout1), rfl, rfl⟩

end

/-! ### RESULTs -/

/-- A request that is answered leaves those that came early. -/
theorem answeredAct_keeps_early (a : Await) : Keeps (fun t => t.hub.early) [answeredAct a] := (keeps_cons _ _).mpr ⟨fun _ => rfl, keeps_nil⟩

/-- Requests at the pseudo-channels join queues of homes alone. -/
theorem requestActs_keeps {α : Type} {π : State → α} (hhome : ∀ k f t, π (Act.apply (.home k f) t) = π t) (owner : Nat × Nat) (view : Nat)
    (xs : List Nat) : Keeps π (requestActs owner view xs) := (keeps_map _ _).mpr fun _ _ t => hhome _ _ t

theorem dropRequests_keeps {α : Type} {π : State → α} (hhome : ∀ k f t, π (Act.apply (.home k f) t) = π t) (owner : Nat × Nat)
    (xs : List Nat) : Keeps π (dropRequests owner xs) := (keeps_map _ _).mpr fun _ _ t => hhome _ _ t

theorem servePacket_of_result {s : State} {p : Packet} (hkind : p.kind = 8) : servePacket s p = packetResult s p := by
  simp [servePacket, hkind]

section
variable {s : State} {p : Packet} (hkind : p.kind = 8) (hserved : fabricServed s = true) (hseq : p.seq = s.hub.expected p.src)
  (hearly : ∀ m ∈ s.hub.early, m.src ≠ p.src)
include hkind hserved hseq hearly

/-- A RESULT that no entry allows is answered with ERR, and changes neither memory nor what is awaited. -/
theorem acceptPacket_result_refused (h : ∀ i : Fin 4096, (actNames s.hub.act[i] p.master .wr && actSized s.hub.act[i]) = false) :
    let t := applyActs s (acceptPacket s p)
    t.mem = s.mem ∧ t.hub.awaits = s.hub.awaits ∧ ∃ m, t.hub.out = s.hub.out ++ [m] ∧ m.kind = 0x1F ∧ m.status = 1 := by
  obtain ⟨addr, heq⟩ := packetResult_of_refused hserved h
  have hserve := (servePacket_of_result hkind).trans heq
  have hwaiting : Keeps (State.waiting 0) (accessLog p addr ++ errTo s p 1) :=
    (keeps_append _ _).mpr ⟨accessLog_keeps_waiting 0 p addr, respond_keeps_waiting 0 s _⟩
  have hlog : ∃ (a : HubSt → W64) (b : W64), accessLog p addr = [.hub fun h => { h with accA := a h, accB := b }] := ⟨_, _, rfl⟩
  obtain ⟨a, b, hlog⟩ := hlog
  dsimp only
  rw [acceptPacket_of_next hseq hearly (hserve ▸ keeps_early_of_waiting hwaiting), hserve, applyActs_cons]
  refine ⟨?_, applyActs_keeps (keeps_awaits_of_waiting hwaiting) _, ?_⟩
  · rw [hlog]
    rfl
  · rw [hlog]
    exact ⟨_, rfl, rfl, rfl⟩

variable {a : Await} {id : Nat} {j : Job} (ha : resultFor s p = some a) (hwho : a.who = .reduction id) (hj : s.job id = some j)
  (hallow : ∃ i : Fin 4096, actNames s.hub.act[i] p.master .wr = true ∧ actSized s.hub.act[i] = true ∧
    ∀ x ∈ resultBytes s p (some a), actCovers s.hub.act[i] x 1 = true)
include ha hwho hj hallow

/-- An allowed RESULT that waits for no other access ends the contributor's piece with its code. -/
theorem acceptPacket_result_free {q : Piece} (hq : j.pieces[0]? = some q) (hfree : viewFree s (dView j.dst.d) (resultMain s p j) = true)
    (hlands : p.data = [] ∨ reductionThere s j q = true) : let t := applyActs s (acceptPacket s p)
    t.hub.awaits = s.hub.awaits.filter (fun o => o.id != a.id) ∧
      ∃ q', t.jobPiece id 0 = some q' ∧ q'.st = .ended (bits (p.list.headD (0, 0)).2 0 4) := by
  have hserve : servePacket s p = [answeredAct a] ++ resultEnds s p j false := by
    rw [servePacket_of_result hkind, packetResult_of_allowed hserved ha hwho hj hallow, if_pos hfree,
      List.singleton_append]
  have hends := resultEnds_keeps_waiting hq hlands false
  have hkeep : Keeps (fun t => t.hub.early) (servePacket s p) :=
    hserve ▸ (keeps_append _ _).mpr ⟨answeredAct_keeps_early a, keeps_early_of_waiting hends⟩
  dsimp only
  rw [acceptPacket_of_next hseq hearly hkeep, hserve, applyActs_cons, applyActs_append, applyActs_cons, applyActs_nil]
  refine ⟨(applyActs_keeps (keeps_awaits_of_waiting hends) _).trans rfl, ?_⟩
  have hpiece := jobPiece_of_job hj hq
  rw [← job_id hj] at hpiece ⊢
  exact jobPiece_resultEnds hq hlands false hpiece

/-- An allowed RESULT for whose blocks an access through another view has yet to perform waits. -/
theorem acceptPacket_result_held (hheld : viewFree s (dView j.dst.d) (resultMain s p j) = false) :
    let t := applyActs s (acceptPacket s p)
    t.hub.awaits = s.hub.awaits.filter (fun o => o.id != a.id) ∧ t.mem = s.mem ∧ t.jobs = s.jobs ∧
      t.hub.stalled = s.hub.stalled ++ [p] := by
  have hserve : servePacket s p = [answeredAct a] ++ (requestActs (id, 0) (dView j.dst.d) (resultMain s p j) ++ stall p) := by
    rw [servePacket_of_result hkind, packetResult_of_allowed hserved ha hwho hj hallow, if_neg (by simp [hheld]),
      List.singleton_append]
  have hrequests : Keeps (fun t => (t.hub, t.mem, t.jobs)) (requestActs (id, 0) (dView j.dst.d) (resultMain s p j)) :=
    requestActs_keeps (fun _ _ _ => rfl) _ _ _
  have hkeep : Keeps (fun t => t.hub.early) (servePacket s p) := by
    rw [hserve, keeps_append, keeps_append]
    exact ⟨answeredAct_keeps_early a, requestActs_keeps (fun _ _ _ => rfl) _ _ _, (keeps_cons _ _).mpr ⟨fun _ => rfl, keeps_nil⟩⟩
  obtain ⟨hhub, hrest⟩ := Prod.mk.inj (applyActs_keeps hrequests ((answeredAct a).apply ((acceptAct s p).apply s)))
  obtain ⟨hmem, hjobs⟩ := Prod.mk.inj hrest
  dsimp only
  rw [acceptPacket_of_next hseq hearly hkeep, hserve, applyActs_cons, applyActs_append, applyActs_append, applyActs_cons, applyActs_nil,
    stall, applyActs_cons, applyActs_nil, apply_hub_hub, apply_hub_mem, apply_hub_jobs, hhub, hmem, hjobs]
  exact ⟨rfl, rfl, rfl, rfl⟩

end

/-- A RESULT that has waited ends the contributor's piece with its code, and waits no more. -/
theorem pieceEnd_result_leaves {s : State} {id : Nat} {j : Job} {q : Piece} {p : Packet} {rop : RedOp} (hj : s.job id = some j)
    (hw : j.work = .redf rop) (hq : j.pieces[0]? = some q) (hst : q.st = .started)
    (hp : s.hub.stalled.find? (fun o => o.kind == 8 && o.src == bits j.b.d 48 16 && resultNames s o j) = some p)
    (hserved : requestsServed s (id, 0) (resultMain s p j) = true) (hview : viewHeld s (id, 0) (resultMain s p j) = false)
    (hlands : p.data = [] ∨ reductionThere s j q = true) : let t := applyActs s (pieceEnd s id 0)
    (∃ q', t.jobPiece id 0 = some q' ∧ q'.st = .ended (bits (p.list.headD (0, 0)).2 0 4)) ∧ t.hub.stalled = s.hub.stalled.erase p := by
  dsimp only
  rw [pieceEnd_of_result hj hw hq hst hp hserved hview, applyActs_append, applyActs_cons]
  constructor
  · have hpiece := jobPiece_of_job hj hq
    rw [← job_id hj] at hpiece ⊢
    exact jobPiece_resultEnds hq hlands true ((jobPiece_spared (dropRequests_spares _ _) _ _ _).trans hpiece)
  · have hends := applyActs_keeps (keeps_stalled_of_waiting (resultEnds_keeps_waiting hq hlands true))
    have hdrop := applyActs_keeps (dropRequests_keeps (π := fun t => t.hub.stalled) (fun _ _ _ => rfl) (id, 0) (resultMain s p j))
    exact (hends _).trans (hdrop _)

/-! ### Fences -/

/-- An unsent release whose accesses have performed waits for each switch, to which FENCE has left. -/
theorem fencePacket_leaves {s : State} {c : Fin 256} {r : Release}
    (hr : s.releases.find? (fun o => o.src == c && o.fabric == .unsent) = some r) (hdone : s.outstanding r.src r.needs = false)
    (hnode : s.hub.node ≠ 0) (hpaths : s.hub.plan.switches ≠ []) : let t := applyActs s (fencePacket s c)
    { r with fabric := .waiting s.hub.plan.switches } ∈ t.releases ∧ ∃ ms, t.hub.out = s.hub.out ++ ms ∧
      ms.map (fun m => (m.kind, m.dst)) = s.hub.plan.switches.map fun x => (9, BitVec.ofNat 16 x) := by
  dsimp only
  rw [fencePacket_of_performed hr hdone hnode hpaths, applyActs_cons]
  obtain ⟨ms, hout, hms, hreleases⟩ := fenceActs_leave s s.hub.plan.switches
    ((Act.release r.id fun r => { r with fabric := .waiting s.hub.plan.switches }).apply s)
  refine ⟨?_, ms, hout, hms⟩
  rw [hreleases]
  exact List.mem_map.mpr ⟨r, List.mem_of_find?_eq_some hr, if_pos rfl⟩

section
variable {s : State} {c : Fin 256} {r : Release} {sw : Nat} (hs : s.releases = [r]) (hsrc : r.src = c)
  (hfabric : r.fabric = .waiting [sw])
include hs

/-- The only release, updated. -/
theorem releases_release_only (f : Release → Release) : ((Act.release r.id f).apply s).releases = [f r] := by
  rw [Act.release, apply_releases_releases, hs, List.map_cons, List.map_nil, if_pos rfl]

include hsrc hfabric

/-- A release that delivers nothing stays, answered, until its core goes on. -/
theorem fenceDone_nothing_leaves (hnothing : r.deliver = .nothing) :
    (applyActs s (fenceDone s c sw)).releases = [{ r with fabric := .waiting [] }] := by
  have hsent (t : State) : releaseSent t r = [] := by simp only [releaseSent, hnothing]
  rw [fenceDone_of_last hs hsrc hfabric, hsent, applyActs_cons, applyActs_nil, releases_release_only hs]

/-- A release that carries a packet is over when it leaves. -/
theorem fenceDone_packet_leaves {m : Packet} (hm : r.deliver = .packet m) (hnode : s.hub.node ≠ 0) :
    let t := applyActs s (fenceDone s c sw)
    t.releases = [] ∧ ∃ o, t.hub.out = s.hub.out ++ [o] ∧ o.kind = m.kind ∧ o.dst = m.dst ∧ o.arg = m.arg := by
  dsimp only
  rw [fenceDone_of_last hs hsrc hfabric, applyActs_cons]
  obtain ⟨hreleases, hout⟩ := releaseSent_packet (t := (Act.release r.id fun r => { r with fabric := .waiting [] }).apply s) hm hnode
    ((Act.release r.id fun r => { r with fabric := .waiting [] }).apply s)
  refine ⟨?_, hout⟩
  rw [hreleases, releases_release_only hs]
  simp

end

end Sys2Proof.Machine
end

section
/-! PROOF. In-network reductions and fabric fences (O44). -/

namespace Sys2Proof.Machine

/-- Settles O44, clause by clause from what the event leaves: the first arrivals, the deadline, the RESULTs and the fences. -/
theorem reductionsAndFences : Obligations.ReductionsAndFences := by
  unfold Obligations.ReductionsAndFences
  intro s p ctx e a j id q c r sw v hserved n next opens comes finishes lands
  refine ⟨fun ⟨hseq, hearly⟩ hsure halign hwords hsize hmain hgrant hnone hnext hn => ⟨fun hop => ?_, ?_⟩,
    fun hform halign hnone hsure hnext => ⟨fun hreach hgrant => ?_, fun src hsrc hearly hgrant => ?_⟩,
    fun he hheld hlimit hlate => ?_,
    fun ⟨hseq, hearly⟩ ha hwho hj hq hallow => ⟨fun hfree hlands => ?_, fun hheld => ?_⟩,
    fun rop hj hw hq hst hp hreqs hview hlands => ?_,
    fun ⟨hseq, hearly⟩ hrefuse => ?_,
    fun hr hdone hnode hpaths => ?_,
    fun hs hsrc hfabric => ⟨fun hnothing => ?_, fun m hm hnode => ?_⟩⟩
  case refine_1 =>
    obtain ⟨at_, hepochs⟩ := acceptPacket_opens (p := { p with kind := 6 }) hserved hseq hearly (.inl rfl) hsure halign hwords hsize hmain
      hgrant hnone hnext hn fun _ => hop
    exact ⟨_, rfl, _, _, hepochs, rfl, rfl, rfl, index_arrivalOf _, rfl⟩
  case refine_2 =>
    obtain ⟨at_, hepochs⟩ := acceptPacket_opens (p := { p with kind := 7 }) hserved hseq hearly (.inr rfl) hsure halign hwords hsize hmain
      hgrant hnone hnext hn fun h => absurd (show (7 : BitVec 6) = 6 from h) (by decide)
    exact ⟨_, rfl, _, _, hepochs, rfl, rfl, rfl, index_arrivalOf _⟩
  case refine_3 =>
    obtain ⟨at_, hepochs⟩ := abstainWrite_own_opens hserved hform halign hnone hsure hnext hreach hgrant
    exact ⟨_, rfl, _, _, hepochs, rfl, rfl, rfl, index_abstention _ _ _, rfl⟩
  case refine_4 =>
    obtain ⟨⟨at_, hepochs⟩, m, hout, hkind, hdst⟩ := abstainWrite_other_opens hserved hform halign hnone hsure hnext hsrc hearly hgrant
    exact ⟨_, m, rfl, ⟨_, _, hepochs, rfl, rfl, rfl, index_abstention _ _ _, rfl⟩, hout, hkind, hdst⟩
  case refine_5 =>
    have hctx : e.ctx = ctx := by simpa using List.find?_some he
    have hleaves := closeEpoch_leaves s e true
    rw [← reductionDeadline_of_late he hheld hlimit hlate, hctx] at hleaves
    exact ⟨_, rfl, hleaves⟩
  case refine_6 =>
    obtain ⟨hawaits, q', hq', hended⟩ := acceptPacket_result_free (p := { p with kind := 8 }) rfl hserved hseq hearly ha hwho hj hallow hq
      hfree hlands
    exact ⟨_, rfl, hawaits, exists_of_jobPiece hq' hended⟩
  case refine_7 =>
    exact ⟨_, rfl, acceptPacket_result_held (p := { p with kind := 8 }) rfl hserved hseq hearly ha hwho hj hallow hheld⟩
  case refine_8 =>
    obtain ⟨⟨q', hq', hended⟩, hstalled⟩ := pieceEnd_result_leaves hj hw hq hst hp hreqs hview hlands
    exact ⟨_, rfl, exists_of_jobPiece hq' hended, hstalled⟩
  case refine_9 =>
    obtain ⟨hmem, hawaits, m, hout, hkind, hstatus⟩ := acceptPacket_result_refused (p := { p with kind := 8 }) rfl hserved hseq hearly hrefuse
    exact ⟨_, m, rfl, hmem, hawaits, hout, hkind, hstatus⟩
  case refine_10 =>
    obtain ⟨hmem, ms, hout, hms⟩ := fencePacket_leaves hr hdone hnode hpaths
    exact ⟨_, ms, rfl, hmem, hout, hms⟩
  case refine_11 => exact ⟨_, rfl, fenceDone_nothing_leaves hs hsrc hfabric hnothing⟩
  case refine_12 =>
    obtain ⟨hreleases, o, hout, hkind, hdst, harg⟩ := fenceDone_packet_leaves hs hsrc hfabric hm hnode
    exact ⟨_, o, rfl, hreleases, hout, hkind, hdst, harg⟩

end Sys2Proof.Machine
end
